-- ==== Sys2Proof/Word.lean ====
section
/-! DEFINITION. The machine's words (R5, R12): bytes, 32-bit register words, 64-bit pairs, 32-thread masks and
52-bit virtual addresses. -/

namespace Sys2Proof

/-- A byte of memory. -/
abbrev Byte := BitVec 8

/-- A 32-bit register word. -/
abbrev Word := BitVec 32

/-- A 64-bit value, held in an even-odd pair of registers (R43). -/
abbrev DWord := BitVec 64

/-- A thread mask: bit t stands for thread t (R12). -/
abbrev Mask := BitVec 32

/-- A virtual address of main memory or of code (R12, R175). -/
abbrev VA := BitVec 52

end Sys2Proof
end

