-- ==== Sys2Proof/Syntax.lean ====
section
/-! DEFINITION. The abstract syntax: operands, modifiers, instruction words as fields, and the one type of
instructions and events (a constructor for each row of the table of operations and events). -/

namespace Sys2Proof

/-- Word lengths (R32). -/
inductive Len where
  | w64 | w96 | w128
  deriving DecidableEq, Repr

/-- Operand types, the codes of TY (R47). -/
inductive Ty where
  | b32 | b64 | i8 | i16 | i32 | i64 | n8 | n16 | n32 | n64 | f32 | f16 | bf16 | e4m3 | e5m2 | e2m1 | q4x | b128
  deriving DecidableEq, Repr

/-- Rounding modes (R47, R51). -/
inductive Rnd where
  | rne | rz | rd | ru
  deriving DecidableEq, Repr

/-- Conditions of compares (R47). -/
inductive Cond where
  | eq | ne | lt | le | gt | ge | num | nan | equ | neu | ltu | leu | gtu | geu
  deriving DecidableEq, Repr

/-- The floating set of DF and SF (R47). -/
inductive FFmt where
  | f32 | f16 | bf16 | e4m3 | e5m2 | e2m1
  deriving DecidableEq, Repr

/-- The integer set of DF and SF (R47). -/
inductive IFmt where
  | i8 | i16 | i32 | i64 | n8 | n16 | n32 | n64
  deriving DecidableEq, Repr

/-- Thread spaces (R47, R172). -/
inductive Space where
  | sp | sh | sc | tw
  deriving DecidableEq, Repr

/-- Scopes of ordering (R47, R219). -/
inductive Scope where
  | grp | blk | core | die | dev | sys
  deriving DecidableEq, Repr

/-- Orders of atomics (R47). -/
inductive Ord where
  | relaxed | acq | rel | ar | acqCrit | relCrit
  deriving DecidableEq, Repr

/-- Atomic types (R47). -/
inductive At where
  | i32 | n32 | f32 | i64
  deriving DecidableEq, Repr

/-- Engine spaces DSP and SSP (R47). -/
inductive ESpace where
  | sh | sc | mem
  deriving DecidableEq, Repr

/-- The special registers that have a shortcut specifier, and `zero` (R41). -/
inductive Short where
  | grp | blkx | blky | blkz | grid | core | die | dev | ctx | clock | zero
  deriving DecidableEq, Repr

/-- What a 9-bit specifier names (R39 to R41). -/
inductive Src where
  | v (n : Fin 128) | s (n : Fin 64) | k (n : Fin 8) | d (n : Fin 16) | c (n : Fin 16)
  | exa | exb | ex64
  | short (r : Short)
  | imm (b : BitVec 8)
  deriving DecidableEq, Repr

/-- A source field: its specifier and its block-or-trap bit (R36, R42). -/
structure Opnd where
  src : Src
  ef  : Bool
  deriving DecidableEq, Repr

/-- The unused specifier 0x000 (R44); it reads as v0. -/
abbrev Src.unused : Src := .v 0

/-- An unused source field (R44). -/
abbrev Opnd.unused : Opnd := ⟨.v 0, false⟩

/-- The fields every encoded instruction shares (R36): length, form, guard, operands and extension.
A field the instruction does not use is zero, which is `Src.unused`. -/
structure W where
  len  : Len
  uni  : Bool
  gneg : Bool
  gidx : Fin 8
  dst  : Src
  a    : Opnd
  b    : Opnd
  c    : Opnd
  ext  : DWord
  deriving DecidableEq, Repr

/-- MOD of the INT layout (R46). -/
structure IntMod where
  ty : Ty
  sat : Bool
  var : Fin 16
  deriving DecidableEq, Repr

/-- MOD of the FP layout (R46). -/
structure FpMod where
  ty : Ty
  rnd : Rnd
  sat : Bool
  ftz : Bool
  deriving DecidableEq, Repr

/-- MOD of the CMP layout (R46). -/
structure CmpMod where
  ty : Ty
  ftz : Bool
  cond : Cond
  deriving DecidableEq, Repr

/-- MOD of the MEM layout (R46). -/
structure MemMod where
  ty : Ty
  space : Space
  deriving DecidableEq, Repr

/-- MOD of the DRAIN layout (R46); `add` is OP. -/
structure DrainMod where
  ty : Ty
  space : Space
  add : Bool
  sat : Bool
  deriving DecidableEq, Repr

/-- MOD of the CVT layout with the format sets its opcode fixes (R46, R48). -/
structure CvtMod (δ σ : Type) where
  df : δ
  sf : σ
  rnd : Rnd
  sat : Bool
  ftz : Bool
  deriving DecidableEq, Repr

/-- MOD of the ATOM layout (R46); `asp` is never `.sp`. -/
structure AtomMod where
  scope : Scope
  ord : Ord
  asp : Space
  at_ : At
  deriving DecidableEq, Repr

/-- MOD of the ENG layout (R46). -/
structure EngMod where
  dsp : ESpace
  ssp : ESpace
  deriving DecidableEq, Repr

/-- MOD of the SLOT layout without SEL, which names the instruction (R46). -/
structure SlotMod where
  slot : Fin 4
  slot2 : Fin 4
  deriving DecidableEq, Repr

/-- An instruction word as its fields (R36, R37), before its meaning is known. -/
structure Fields where
  len  : Len
  s    : Bool
  opc  : BitVec 8
  gneg : Bool
  gidx : BitVec 3
  dst  : BitVec 9
  a    : BitVec 9
  aef  : Bool
  b    : BitVec 9
  bef  : Bool
  c    : BitVec 9
  cef  : Bool
  mod  : BitVec 10
  ext  : DWord
  deriving DecidableEq, Repr

/-- A context's control block (R283), field by field. -/
structure Control where
  defer  : Word
  draint : Word
  drainw : Word
  rstt   : Word
  wdlim  : Word
  grace  : Word
  dbg    : Bool
  split  : BitVec 2
  fpctl  : BitVec 10
  hentry : VA
  deriving DecidableEq, Repr

/-- A communicator (R310): its number, validity, multicast group and its ranks as (module, die). -/
structure Comm where
  no    : Byte
  valid : Bool
  mcast : BitVec 16
  ranks : List (Word × BitVec 2)
  deriving DecidableEq, Repr

/-- The caller's versions of the firmware call interface, as (major, highest minor) pairs (R349). -/
abbrev Versions := List (Nat × Nat)

/-- What CTXNEW sets (R347). -/
structure NewCtx where
  no      : Nat
  dies    : List Nat
  slot    : Nat
  ctl     : Control
  ptRoot  : Nat
  scBase  : Nat
  scSize  : Nat
  frames  : Nat
  quota   : Nat
  logCap  : Nat
  comms   : List Comm
  breaks  : List VA
  deriving DecidableEq, Repr

/-- A tile of a window of a context on a die (R181). -/
structure TileRef where
  die : Nat
  ctx : Nat
  win : Nat
  tile : Nat
  deriving DecidableEq, Repr

/-- A signed image's 64-byte header, key block, body and signature (R344). -/
structure Image where
  header : BitVec 512
  key  : List Byte
  body : List Byte
  sig  : List Byte
  deriving DecidableEq, Repr

/-- What the world outside supplies to the boot stages (R342): images, the self-test's verdict as the first
failing unit, the first die link that does not train, the record formats of the loaded firmware (R349), which fabric ports
train and with which peer versions, the module number of the operator's configuration, and of the root ports (R341) the
links into which they are bifurcated and the PCI Express generation that the partner of each trains at. -/
structure BootInput where
  slotA    : Image
  slotB    : Image
  firmware : Image
  microcode : Image
  policies : List Image
  selfTestFails : Option Nat
  linksFail : Option Nat
  formats : Versions
  portsTrained : List (Nat × Versions)
  moduleNo : Word
  bifurcation : List (Nat × Nat)
  partners : List (Nat × Nat)
  deriving DecidableEq, Repr

/-- The times a tagged request waited in the queues it passed (R358). -/
structure SmplTimes where
  bankq : BitVec 16
  xbarq : BitVec 16
  dlinkq : BitVec 16
  logq  : BitVec 16
  memq  : BitVec 16
  deriving DecidableEq, Repr

/-- A rank's contribution to a collective operation that another module makes (R315): its signature and its
source elements. -/
structure RankData where
  rank : Nat
  opc  : Nat
  var  : Nat
  count : Nat
  root : Nat
  data : List Word
  deriving DecidableEq, Repr

/-- A unit that stops at a halt (R295). -/
structure StopUnit where
  unit  : Nat
  core  : Nat
  die   : Nat
  slice : Nat
  skid  : Nat
  deriving DecidableEq, Repr

/-- A unit that stops, and the address of the memory error that makes it raise a halt, if one does (R294, R295). -/
structure UnitEvent where
  unit  : StopUnit
  error : Option Nat
  deriving DecidableEq, Repr

/-- The grid whose next block is placed, and the cores over threshold as the placement samples them (R148). -/
structure Placing where
  grid : Nat
  hot  : List Nat
  deriving DecidableEq, Repr

/-- A link of the module (R307, R308): between two compute dies, from a die to SD, or a fabric port. -/
inductive Link where
  | die (a b : Nat) | sd (d : Nat) | port (n : Nat)
  deriving DecidableEq, Repr

/-- The instructions of the opcode map (R48) and the events of the machine's other parties: one constructor
for each row of the table. -/
inductive Instr where
  -- control (R99 to R108, R154 to R158, R289 to R293)
  | nop (w : W) | exit (w : W)
  | bra (w : W) (fuse : Bool) | braD (w : W) | call (w : W) | ret (w : W) | brt (w : W)
  | pad (tag : BitVec 12)
  | pushj (w : W) | pushb (w : W) | join (w : W) | brk (w : W)
  | trap (w : W) (code : Byte) | rte (w : W) | bkpt (w : W) (code : Byte)
  | waitf (w : W) | waitb (w : W)
  | getsr (w : W) (srn : BitVec 10) | setsr (w : W) (srn : BitVec 10)
  | pctlNoidem (w : W) | pctlExpect (w : W)
  | delay (w : W)
  -- integer arithmetic (R74 to R77)
  | iadd (w : W) (m : IntMod) | isub (w : W) (m : IntMod) | imul (w : W) (m : IntMod) | imulh (w : W) (m : IntMod)
  | imad (w : W) (m : IntMod) | ineg (w : W) (m : IntMod) | iabs (w : W) (m : IntMod) | imin (w : W) (m : IntMod)
  | imax (w : W) (m : IntMod) | icmp (w : W) (m : CmpMod) | sel (w : W) (m : IntMod) | iclamp (w : W) (m : IntMod)
  | imulw (w : W) (m : IntMod) | iaddc (w : W) (m : IntMod) | isubb (w : W) (m : IntMod) | isad (w : W) (m : IntMod)
  -- logic, bits, moves, spill runs (R78 to R84)
  | and (w : W) (m : IntMod) | or (w : W) (m : IntMod) | xor (w : W) (m : IntMod) | not (w : W) (m : IntMod)
  | andn (w : W) (m : IntMod) | shl (w : W) (m : IntMod) | shr (w : W) (m : IntMod) | sar (w : W) (m : IntMod)
  | rol (w : W) (m : IntMod) | ror (w : W) (m : IntMod) | popc (w : W) (m : IntMod) | clz (w : W) (m : IntMod)
  | brev (w : W) (m : IntMod) | bfe (w : W) (m : IntMod) | bfi (w : W) (m : IntMod) | bpick (w : W) (m : IntMod)
  | lea (w : W) (m : IntMod) | mov (w : W) (m : IntMod) | pack (w : W) (m : IntMod) | ffs (w : W) (m : IntMod)
  | unpk (w : W) (m : IntMod) | spst (w : W) (m : IntMod) | spld (w : W) (m : IntMod) | bswap (w : W) (m : IntMod)
  -- floating point (R85 to R98)
  | fadd (w : W) (m : FpMod) | fsub (w : W) (m : FpMod) | fmul (w : W) (m : FpMod) | ffma (w : W) (m : FpMod)
  | fmin (w : W) (m : FpMod) | fmax (w : W) (m : FpMod) | fabs (w : W) (m : FpMod) | fneg (w : W) (m : FpMod)
  | fcmp (w : W) (m : CmpMod) | fclass (w : W) (m : IntMod)
  | frnd (w : W) (m : FpMod) | fscl (w : W) (m : FpMod) | fclamp (w : W) (m : FpMod) | ffrc (w : W) (m : FpMod)
  | fcpys (w : W) (m : FpMod)
  | cvtFF (w : W) (m : CvtMod FFmt FFmt) | cvtFI (w : W) (m : CvtMod FFmt IFmt)
  | cvtIF (w : W) (m : CvtMod IFmt FFmt) | cvtII (w : W) (m : CvtMod IFmt IFmt)
  | cvtSr (w : W) (m : CvtMod FFmt FFmt) | cvtp (w : W) (m : CvtMod FFmt FFmt)
  | dot2Bf16 (w : W) (m : FpMod) | dot4E4m3 (w : W) (m : FpMod) | dot4E5m2 (w : W) (m : FpMod)
  | dot8E2m1 (w : W) (m : FpMod) | dot8Q4x (w : W) (m : FpMod)
  | qnt (w : W) (m : IntMod) | dqnt (w : W) (m : IntMod) | fchk (w : W) (m : IntMod)
  | rcp (w : W) (m : FpMod) | rsq (w : W) (m : FpMod) | sqrt (w : W) (m : FpMod) | ex2 (w : W) (m : FpMod)
  | lg2 (w : W) (m : FpMod) | sinr (w : W) (m : FpMod) | cosr (w : W) (m : FpMod) | tanh (w : W) (m : FpMod)
  | hadd2 (w : W) (m : FpMod) | hmul2 (w : W) (m : FpMod) | hfma2 (w : W) (m : FpMod) | hmin2 (w : W) (m : FpMod)
  | hmax2 (w : W) (m : FpMod)
  -- distribution registers and streams (R123 to R125)
  | dload (w : W) (var : Fin 16)
  | qkey (w : W) (m : SlotMod) | qpos (w : W) (m : SlotMod) | qskip (w : W) (m : SlotMod)
  | qfork (w : W) (m : SlotMod) | qforkTop (w : W) (m : SlotMod) | qseek (w : W) (m : SlotMod)
  | qsave (w : W) (m : SlotMod) | qrest (w : W) (m : SlotMod)
  | qgetPos (w : W) (m : SlotMod) | qgetKey (w : W) (m : SlotMod)
  | ddraw (w : W)
  -- group instructions (R151 to R169)
  | kand (w : W) | kor (w : W) | kxor (w : W) | knot (w : W) | kmov (w : W)
  | poll (w : W) (var : Fin 16)
  | shfl (w : W) (m : IntMod) | shflG (w : W) (m : IntMod) | gred (w : W) (m : IntMod) | gscan (w : W) (m : IntMod)
  | spawn (w : W) | glaunch (w : W) | dwait (w : W) | mtch (w : W) (m : IntMod) | kpopc (w : W)
  -- memory (R204 to R217)
  | ld (w : W) (m : MemMod) | st (w : W) (m : MemMod) | ldt (w : W) (m : MemMod)
  | atomAdd (w : W) (m : AtomMod) | atomMin (w : W) (m : AtomMod) | atomMax (w : W) (m : AtomMod)
  | atomAnd (w : W) (m : AtomMod) | atomOr (w : W) (m : AtomMod) | atomXor (w : W) (m : AtomMod)
  | atomExch (w : W) (m : AtomMod) | cas (w : W) (m : AtomMod)
  | redAdd (w : W) (m : AtomMod) | redMin (w : W) (m : AtomMod) | redMax (w : W) (m : AtomMod)
  | redAnd (w : W) (m : AtomMod) | redOr (w : W) (m : AtomMod) | redXor (w : W) (m : AtomMod)
  | bara (w : W) (m : AtomMod) | barw (w : W) (m : AtomMod) | bari (w : W) (m : MemMod)
  | barb (w : W) | fence (w : W) (scope : Scope)
  -- windows (R197 to R200)
  | tmapMap (w : W) | tmapUnmap (w : W) | tfetch (w : W) | tevict (w : W) | tstat (w : W)
  -- engines (R261, R262, R271, R274, R275)
  | copy (w : W) (m : EngMod) | gather (w : W) (m : EngMod) | scatter (w : W) (m : EngMod)
  | bclose (w : W)
  | updSgdm (w : W) | updAdamw (w : W) | updstep (w : W) | skpset (w : W)
  | copy2d (w : W) (m : EngMod) | cfill (w : W) (m : EngMod)
  -- matrix (R238, R249 to R252)
  | mmaQ (w : W) | mmaQImage (w : W) | mzero (w : W) | mld (w : W) (m : MemMod) | mdrain (w : W) (m : DrainMod)
  | mstat (w : W)
  -- collectives (R313)
  | collArReg (w : W) (var : Fin 16) | collArBuf (w : W) (var : Fin 16) | collAg (w : W) | collBc (w : W)
  -- events of the core
  | quartetFuse (bid j : Nat) | delayDeadline (gid : Nat)
  | memoryResultWrite (rid : Nat) | sfuResultWrite (rid : Nat) | rejDrawComplete (rid : Nat) | mldFill (rid : Nat)
  | smplRecordFill (gid : Nat) (times : SmplTimes)
  | spawnPackItem (core : Nat) | partialGroupSeal (core oid : Nat) | spawnedGroupStart (core : Nat)
  | placeBlock (ctx : Nat) (next : Placing) | blockRetire (bid : Nat)
  -- events of the memory levels
  | tileArrive (t : TileRef) | tileWritebackDone (wid : Nat) | unmapComplete (die ctx win : Nat)
  | hodAppend (aid : Nat) | faultService (fid : Nat) (accept : Bool) (ptes : List (Nat × DWord))
  | storeReplay (pid : Nat)
  -- events of the engines
  | churnOpComplete (core : Nat) | drainPerform (did : Nat)
  | copyJob (cid : Nat) | gatherScatterJob (cid : Nat) | updJob (cid : Nat) | skpsetJob (cid : Nat)
  | updstepJob (cid : Nat) | jobComplete (cid : Nat)
  | collOperation (ctx comm seq : Nat) (remote : List RankData) | collf (ctx comm seq : Nat) (linkDown : Bool) (remote : List RankData)
  -- faults, watchdogs, halts
  | wdogExpiry (gid : Nat) | critx (ctx core : Nat) | debugResume (gid : Nat)
  | unitStop (u : UnitEvent) | thermalTrip (die : Nat)
  -- pre-emption and switches
  | preempt (v : Versions) (ctx : Nat) (cores : List Nat) | drainTimeout (bid : Nat) | saveComplete (bid : Nat)
  | resume (v : Versions) (ctx : Nat) (cores : List Nat) (targets : List (Nat × Nat))
  | ctxsw (v : Versions) (cores : List Nat) | switchComplete (core : Nat)
  | slice (v : Versions) (x y : Nat) (start : Nat) (modules : List Nat) | moduleReady (module : Nat) (at_ : Nat)
  | sliceStart | slicex
  -- firmware calls
  | ctxnew (v : Versions) (n : NewCtx) | ctxfree (v : Versions) (ctx : Nat)
  | gridrun (v : Versions) (ctx die : Nat) (named : Bool) (desc : Nat) (proc thread : Word)
  | stopread (v : Versions) (dies : List Nat) | partitionReset (dies : List Nat)
  -- observation
  | tracectl (v : Versions) (ctx : Nat) (kinds : Byte) | perfrd (v : Versions) (event : Nat) (ctx : Option Nat) (dies : List Nat) (after : Nat)
  | perfSnapshot | ewset (v : Versions) (weights : List Byte) | smplctl (v : Versions) (ctx interval : Nat)
  | traceDrain (cluster : Nat) | clusterGating (cluster : Nat) | gatingDrainTimeout (cluster : Nat) | gapRecord (cluster : Nat)
  -- the system die
  | moduleReset (b : BootInput) | mctpQuery (log : Bool) | attestationRequest (nonce : List Byte)
  | linkPacket (l : Link) (pkt : Nat) (accept : Bool) | reservationGrant (l : Link) (pkt : Nat)
  | linkDown (l : Link) | linkRetrain (l : Link) (peer : Versions)
  | descriptorReadDone (gid : Nat) | writePerformedAtDie (wid : Nat)
  | supplyFault | logRecordConsumed (ctx n : Nat)
  deriving DecidableEq, Repr

end Sys2Proof
end

