-- ==== Sys2Proof/Machine/Encoding.lean ====
section
/-! DEFINITION. The encoding tables: codes of modifiers (R47), operand specifiers (R39 to R41), the opcode map
(R48), the classes each entry accepts (R69, R70) and the ordered checks of a word (R50). -/

namespace Sys2Proof

/-! Codes (R47) -/

def Ty.code : Ty → BitVec 5
  | .b32 => 0x00 | .b64 => 0x01 | .i8 => 0x02 | .i16 => 0x03 | .i32 => 0x04 | .i64 => 0x05 | .n8 => 0x06
  | .n16 => 0x07 | .n32 => 0x08 | .n64 => 0x09 | .f32 => 0x0A | .f16 => 0x0B | .bf16 => 0x0C | .e4m3 => 0x0D
  | .e5m2 => 0x0E | .e2m1 => 0x0F | .q4x => 0x10 | .b128 => 0x11

/-- The codes in order, for reading one back. -/
def Ty.all : List Ty :=
  [.b32, .b64, .i8, .i16, .i32, .i64, .n8, .n16, .n32, .n64, .f32, .f16, .bf16, .e4m3, .e5m2, .e2m1, .q4x, .b128]

def Ty.ofCode (c : BitVec 5) : Option Ty := Ty.all[c.toNat]?

/-- 64-bit types (R70). -/
def Ty.wide : Ty → Bool
  | .b64 | .i64 | .n64 => true
  | _ => false

def Rnd.code : Rnd → BitVec 2
  | .rne => 0 | .rz => 1 | .rd => 2 | .ru => 3

def Rnd.ofCode (c : BitVec 2) : Rnd :=
  match c.toNat with
  | 0 => .rne | 1 => .rz | 2 => .rd | _ => .ru

def Cond.all : List Cond := [.eq, .ne, .lt, .le, .gt, .ge, .num, .nan, .equ, .neu, .ltu, .leu, .gtu, .geu]

def Cond.code : Cond → BitVec 4
  | .eq => 0 | .ne => 1 | .lt => 2 | .le => 3 | .gt => 4 | .ge => 5 | .num => 6 | .nan => 7 | .equ => 8 | .neu => 9
  | .ltu => 10 | .leu => 11 | .gtu => 12 | .geu => 13

def Cond.ofCode (c : BitVec 4) : Option Cond := Cond.all[c.toNat]?

def FFmt.code : FFmt → BitVec 3
  | .f32 => 0 | .f16 => 1 | .bf16 => 2 | .e4m3 => 3 | .e5m2 => 4 | .e2m1 => 5

def FFmt.ofCode (c : BitVec 3) : Option FFmt :=
  ([.f32, .f16, .bf16, .e4m3, .e5m2, .e2m1] : List FFmt)[c.toNat]?

def IFmt.code : IFmt → BitVec 3
  | .i8 => 0 | .i16 => 1 | .i32 => 2 | .i64 => 3 | .n8 => 4 | .n16 => 5 | .n32 => 6 | .n64 => 7

def IFmt.ofCode (c : BitVec 3) : Option IFmt :=
  ([.i8, .i16, .i32, .i64, .n8, .n16, .n32, .n64] : List IFmt)[c.toNat]?

def IFmt.wide : IFmt → Bool
  | .i64 | .n64 => true
  | _ => false

/-- The range of an integer format. -/
def IFmt.width : IFmt → Nat
  | .i8 | .n8 => 8 | .i16 | .n16 => 16 | .i32 | .n32 => 32 | .i64 | .n64 => 64
def IFmt.sgn : IFmt → Bool
  | .i8 | .i16 | .i32 | .i64 => true
  | _ => false
def IFmt.lo (f : IFmt) : Int := if f.sgn then -(2 ^ (f.width - 1) : Nat) else 0
def IFmt.hi (f : IFmt) : Int := if f.sgn then (2 ^ (f.width - 1) : Nat) - 1 else (2 ^ f.width : Nat) - 1

/-- The integer a register holds in an integer format. -/
def IFmt.read (f : IFmt) (x : Nat) : Int :=
  let y := x % 2 ^ f.width
  if f.sgn && y.testBit (f.width - 1) then (y : Int) - (2 ^ f.width : Nat) else y

def Space.code : Space → BitVec 2
  | .sp => 0 | .sh => 1 | .sc => 2 | .tw => 3

def Space.ofCode (c : BitVec 2) : Space :=
  match c.toNat with
  | 0 => .sp | 1 => .sh | 2 => .sc | _ => .tw

/-- ASP (R47); code 3 is undefined. -/
def Space.aspCode : Space → BitVec 2
  | .sp => 3 | .sh => 0 | .sc => 1 | .tw => 2

def Space.ofAsp (c : BitVec 2) : Option Space :=
  match c.toNat with
  | 0 => some .sh | 1 => some .sc | 2 => some .tw | _ => none

def Scope.code : Scope → BitVec 3
  | .grp => 0 | .blk => 1 | .core => 2 | .die => 3 | .dev => 4 | .sys => 5

def Scope.ofCode (c : BitVec 3) : Option Scope :=
  ([.grp, .blk, .core, .die, .dev, .sys] : List Scope)[c.toNat]?

def Ord.code : Ord → BitVec 3
  | .relaxed => 0 | .acq => 1 | .rel => 2 | .ar => 3 | .acqCrit => 5 | .relCrit => 6

def Ord.ofCode (c : BitVec 3) : Option Ord :=
  match c.toNat with
  | 0 => some .relaxed | 1 => some .acq | 2 => some .rel | 3 => some .ar | 5 => some .acqCrit | 6 => some .relCrit
  | _ => none

def At.code : At → BitVec 2
  | .i32 => 0 | .n32 => 1 | .f32 => 2 | .i64 => 3

def At.ofCode (c : BitVec 2) : At :=
  match c.toNat with
  | 0 => .i32 | 1 => .n32 | 2 => .f32 | _ => .i64

def ESpace.code : ESpace → BitVec 2
  | .sh => 0 | .sc => 1 | .mem => 2

def ESpace.ofCode (c : BitVec 2) : Option ESpace :=
  match c.toNat with
  | 0 => some .sh | 1 => some .sc | 2 => some .mem | _ => none

def Short.code : Short → BitVec 9
  | .grp => 0x0F0 | .blkx => 0x0F1 | .blky => 0x0F2 | .blkz => 0x0F3 | .grid => 0x0F4 | .core => 0x0F5
  | .die => 0x0F6 | .dev => 0x0F7 | .ctx => 0x0F8 | .clock => 0x0F9 | .zero => 0x0FA

/-! Modifiers (R46) -/

def bit1 (b : Bool) : BitVec 1 := if b then 1 else 0

def IntMod.bits (m : IntMod) : BitVec 10 := m.ty.code ++ bit1 m.sat ++ BitVec.ofNat 4 m.var.val
def FpMod.bits (m : FpMod) : BitVec 10 := m.ty.code ++ m.rnd.code ++ bit1 m.sat ++ bit1 m.ftz ++ 0#1
def CmpMod.bits (m : CmpMod) : BitVec 10 := m.ty.code ++ bit1 m.ftz ++ m.cond.code
def MemMod.bits (m : MemMod) : BitVec 10 := m.ty.code ++ m.space.code ++ 0#3
def DrainMod.bits (m : DrainMod) : BitVec 10 := m.ty.code ++ m.space.code ++ bit1 m.add ++ bit1 m.sat ++ 0#1
def CvtMod.bits {δ σ : Type} (d : δ → BitVec 3) (s : σ → BitVec 3) (m : CvtMod δ σ) : BitVec 10 :=
  d m.df ++ s m.sf ++ m.rnd.code ++ bit1 m.sat ++ bit1 m.ftz
def AtomMod.bits (m : AtomMod) : BitVec 10 := m.scope.code ++ m.ord.code ++ m.asp.aspCode ++ m.at_.code
def EngMod.bits (m : EngMod) : BitVec 10 := m.dsp.code ++ m.ssp.code ++ 0#6
def SlotMod.bits (m : SlotMod) (sel : BitVec 2) : BitVec 10 :=
  BitVec.ofNat 2 m.slot.val ++ BitVec.ofNat 2 m.slot2.val ++ sel ++ 0#4
def varBits (v : Nat) : BitVec 10 := BitVec.ofNat 10 v

def IntMod.ofBits (b : BitVec 10) : Option IntMod :=
  (Ty.ofCode (b.extractLsb' 5 5)).map fun ty => ⟨ty, b.getLsbD 4, (b.extractLsb' 0 4).toFin⟩
def FpMod.ofBits (b : BitVec 10) : Option FpMod :=
  if b.getLsbD 0 then none
  else (Ty.ofCode (b.extractLsb' 5 5)).map fun ty => ⟨ty, Rnd.ofCode (b.extractLsb' 3 2), b.getLsbD 2, b.getLsbD 1⟩
def CmpMod.ofBits (b : BitVec 10) : Option CmpMod :=
  match Ty.ofCode (b.extractLsb' 5 5), Cond.ofCode (b.extractLsb' 0 4) with
  | some ty, some c => some ⟨ty, b.getLsbD 4, c⟩
  | _, _ => none
def MemMod.ofBits (b : BitVec 10) : Option MemMod :=
  if b.extractLsb' 0 3 ≠ 0 then none
  else (Ty.ofCode (b.extractLsb' 5 5)).map fun ty => ⟨ty, Space.ofCode (b.extractLsb' 3 2)⟩
def DrainMod.ofBits (b : BitVec 10) : Option DrainMod :=
  if b.getLsbD 0 then none
  else (Ty.ofCode (b.extractLsb' 5 5)).map fun ty =>
    ⟨ty, Space.ofCode (b.extractLsb' 3 2), b.getLsbD 2, b.getLsbD 1⟩
def CvtMod.ofBits {δ σ : Type} (d : BitVec 3 → Option δ) (s : BitVec 3 → Option σ) (b : BitVec 10) :
    Option (CvtMod δ σ) :=
  match d (b.extractLsb' 7 3), s (b.extractLsb' 4 3) with
  | some df, some sf => some ⟨df, sf, Rnd.ofCode (b.extractLsb' 2 2), b.getLsbD 1, b.getLsbD 0⟩
  | _, _ => none
def AtomMod.ofBits (b : BitVec 10) : Option AtomMod :=
  match Scope.ofCode (b.extractLsb' 7 3), Ord.ofCode (b.extractLsb' 4 3), Space.ofAsp (b.extractLsb' 2 2) with
  | some sc, some o, some asp => some ⟨sc, o, asp, At.ofCode (b.extractLsb' 0 2)⟩
  | _, _, _ => none
def EngMod.ofBits (b : BitVec 10) : Option EngMod :=
  if b.extractLsb' 0 6 ≠ 0 then none
  else match ESpace.ofCode (b.extractLsb' 8 2), ESpace.ofCode (b.extractLsb' 6 2) with
    | some d, some s => some ⟨d, s⟩
    | _, _ => none
def SlotMod.ofBits (b : BitVec 10) : Option SlotMod :=
  if b.extractLsb' 0 4 ≠ 0 then none
  else some ⟨(b.extractLsb' 8 2).toFin, (b.extractLsb' 6 2).toFin⟩
/-- The VAR layout, with the count of codes the entry accepts. -/
def varOfBits (n : Nat) (b : BitVec 10) : Option (Fin 16) :=
  if b.extractLsb' 4 6 = 0 ∧ (b.extractLsb' 0 4).toNat < n then some (b.extractLsb' 0 4).toFin else none

/-! Operand specifiers (R39 to R41) -/

def Src.code : Src → BitVec 9
  | .v n => BitVec.ofNat 9 n.val
  | .s n => BitVec.ofNat 9 (0x080 + n.val)
  | .k n => BitVec.ofNat 9 (0x0C0 + n.val)
  | .d n => BitVec.ofNat 9 (0x0C8 + n.val)
  | .c n => BitVec.ofNat 9 (0x0D8 + n.val)
  | .exa => 0x0E8 | .exb => 0x0E9 | .ex64 => 0x0EA
  | .short r => r.code
  | .imm b => 1#1 ++ b

def Short.ofCode (n : Nat) : Option Short :=
  ([.grp, .blkx, .blky, .blkz, .grid, .core, .die, .dev, .ctx, .clock, .zero] : List Short)[n - 0x0F0]?

/-- The operand a specifier names; none for a specifier that names nothing (0x0EB to 0x0EF, 0x0FB to 0x0FF). -/
def Src.ofCode (c : BitVec 9) : Option Src :=
  let n := c.toNat
  if h : n < 0x080 then some (.v ⟨n, h⟩)
  else if h : n - 0x080 < 64 ∧ 0x080 ≤ n then some (.s ⟨n - 0x080, h.1⟩)
  else if h : n - 0x0C0 < 8 ∧ 0x0C0 ≤ n then some (.k ⟨n - 0x0C0, h.1⟩)
  else if h : n - 0x0C8 < 16 ∧ 0x0C8 ≤ n then some (.d ⟨n - 0x0C8, h.1⟩)
  else if h : n - 0x0D8 < 16 ∧ 0x0D8 ≤ n then some (.c ⟨n - 0x0D8, h.1⟩)
  else if n = 0x0E8 then some .exa
  else if n = 0x0E9 then some .exb
  else if n = 0x0EA then some .ex64
  else if n < 0x0F0 then none
  else if n < 0x100 then (Short.ofCode n).map .short
  else some (.imm (c.extractLsb' 0 8))

/-! The opcode map (R48) -/

/-- Extension kinds (R45). -/
inductive ExtKind where
  | none | imm | ofs | memd | fblk
  deriving DecidableEq, Repr

/-- A row of the opcode map: its opcodes, whether the vector and the uniform form exist, and the kind. -/
structure OpRow where
  lo  : Nat
  hi  : Nat
  vec : Bool
  uni : Bool
  ext : ExtKind
  deriving DecidableEq, Repr

def opRowsA : List OpRow := [
  ⟨0x00, 0x01, false, true, .none⟩, ⟨0x02, 0x04, false, true, .ofs⟩, ⟨0x05, 0x05, false, true, .none⟩,
  ⟨0x06, 0x06, false, true, .imm⟩, ⟨0x07, 0x07, false, true, .none⟩, ⟨0x08, 0x09, false, true, .ofs⟩,
  ⟨0x0A, 0x0B, false, true, .none⟩, ⟨0x0C, 0x0C, false, true, .imm⟩, ⟨0x0D, 0x0E, false, true, .none⟩,
  ⟨0x0F, 0x0F, true, true, .none⟩, ⟨0x10, 0x10, false, true, .imm⟩, ⟨0x11, 0x11, true, true, .none⟩,
  ⟨0x12, 0x12, true, true, .imm⟩, ⟨0x13, 0x14, false, true, .imm⟩, ⟨0x20, 0x43, true, true, .imm⟩,
  ⟨0x44, 0x46, true, false, .imm⟩, ⟨0x47, 0x47, true, true, .imm⟩, ⟨0x60, 0x6E, true, true, .imm⟩,
  ⟨0x70, 0x73, true, true, .imm⟩, ⟨0x74, 0x74, true, false, .imm⟩, ⟨0x75, 0x75, true, true, .imm⟩,
  ⟨0x78, 0x7C, true, false, .imm⟩, ⟨0x80, 0x82, true, false, .imm⟩, ⟨0x88, 0x94, true, false, .imm⟩]

def opRowsB : List OpRow := [
  ⟨0xA0, 0xA0, false, true, .none⟩, ⟨0xA1, 0xA8, true, false, .imm⟩, ⟨0xA9, 0xA9, true, false, .none⟩,
  ⟨0xB0, 0xB4, false, true, .imm⟩, ⟨0xB5, 0xB5, false, true, .none⟩, ⟨0xB6, 0xB7, true, false, .imm⟩,
  ⟨0xB8, 0xB8, true, false, .none⟩, ⟨0xB9, 0xBA, true, false, .imm⟩, ⟨0xBB, 0xBB, false, true, .imm⟩,
  ⟨0xBC, 0xBC, false, true, .none⟩, ⟨0xBD, 0xBD, true, false, .none⟩, ⟨0xBE, 0xBE, false, true, .none⟩,
  ⟨0xC0, 0xC1, true, true, .memd⟩, ⟨0xC2, 0xC2, true, false, .memd⟩, ⟨0xC3, 0xD3, true, true, .memd⟩,
  ⟨0xD4, 0xD5, false, true, .none⟩, ⟨0xD6, 0xD9, false, true, .imm⟩, ⟨0xE0, 0xE2, true, true, .imm⟩,
  ⟨0xE3, 0xE3, false, true, .none⟩, ⟨0xE4, 0xE4, false, true, .imm⟩, ⟨0xE5, 0xE6, false, true, .none⟩,
  ⟨0xE7, 0xE8, true, true, .imm⟩, ⟨0xF0, 0xF0, true, false, .fblk⟩, ⟨0xF1, 0xF1, false, true, .none⟩,
  ⟨0xF2, 0xF3, false, true, .memd⟩, ⟨0xF4, 0xF4, false, true, .none⟩, ⟨0xF8, 0xFA, false, true, .imm⟩]

/-- The row of an opcode; none for an unassigned or reserved one. -/
def opRow (o : Nat) : Option OpRow := (opRowsA ++ opRowsB).find? fun r => decide (r.lo ≤ o ∧ o ≤ r.hi)

/-! Step 7: the modifiers each entry accepts -/

def tyIs (l : List Ty) (t : Ty) : Bool := l.contains t

def plainInt (m : IntMod) : Bool := !m.sat && m.var.val == 0

/-- The variants, types and saturation of GRED and GSCAN (R161). -/
def redAccept (var : Nat) (m : IntMod) : Bool :=
  match var with
  | 0 => tyIs [.i32, .n32, .i64, .n64] m.ty || (m.ty == .f32 && !m.sat)
  | 1 | 2 => tyIs [.i32, .n32, .i64, .n64, .f32] m.ty && !m.sat
  | 3 | 4 | 5 => tyIs [.b32, .b64] m.ty && !m.sat
  | _ => false

def intAccept (o : Nat) (m : IntMod) : Bool :=
  let int4 := tyIs [.i32, .n32, .i64, .n64] m.ty
  let bits := tyIs [.b32, .b64] m.ty
  if o = 0x20 ∨ o = 0x21 ∨ o = 0x22 ∨ o = 0x24 then int4 && m.var.val == 0
  else if o = 0x25 ∨ o = 0x26 then tyIs [.i32, .i64] m.ty && m.var.val == 0
  else if o = 0x23 ∨ o = 0x27 ∨ o = 0x28 ∨ o = 0x2B then int4 && plainInt m
  else if o = 0x2C then tyIs [.i32, .n32] m.ty && plainInt m
  else if o = 0x2D ∨ o = 0x2E then m.ty == .n32 && plainInt m
  else if o = 0x2F then tyIs [.i32, .n32, .n8] m.ty && plainInt m
  else if o = 0x3D then int4 && plainInt m
  else if o = 0x3F ∨ o = 0x45 ∨ o = 0x46 then m.ty == .b32 && plainInt m
  else if o = 0x40 then bits && !m.sat && decide (m.var.val < 8)
  else if o = 0x44 then tyIs [.e2m1, .q4x] m.ty && plainInt m
  else if o = 0x69 then m.ty == .f32 && plainInt m
  else if o = 0x80 then tyIs [.e4m3, .e5m2, .e2m1, .q4x, .i8] m.ty && !m.sat && decide (m.var.val < 2)
  else if o = 0x81 then tyIs [.e4m3, .e5m2, .e2m1, .q4x, .i8] m.ty && m.var.val == 0
  else if o = 0x82 then tyIs [.f32, .f16, .bf16] m.ty && plainInt m
  else if o = 0xB6 ∨ o = 0xB7 then bits && !m.sat && decide (m.var.val < 4)
  else if o = 0xB8 then redAccept m.var.val m
  else if o = 0xB9 then redAccept (if m.var.val < 8 then m.var.val else m.var.val - 8) m
  else bits && plainInt m

def fpAccept (o : Nat) (m : FpMod) : Bool :=
  let rne := m.rnd == .rne
  if o < 0x90 then
    m.ty == .f32 &&
      (if o ≤ 0x63 ∨ o = 0x6B then true
       else if o = 0x64 ∨ o = 0x65 ∨ o = 0x6C then rne && !m.sat
       else if o = 0x66 ∨ o = 0x67 ∨ o = 0x6E then rne && !m.sat && !m.ftz
       else if o = 0x6A ∨ o = 0x6D then !m.sat
       else if o ≤ 0x7C then rne
       else rne && !m.sat)
  else tyIs [.f16, .bf16] m.ty && (decide (o ≤ 0x92) || (rne && !m.sat))

def cmpAccept (o : Nat) (m : CmpMod) : Bool :=
  if o = 0x29 then
    !m.ftz && ((tyIs [.i32, .n32, .i64, .n64] m.ty && decide (m.cond.code.toNat ≤ 5))
      || (tyIs [.b32, .b64] m.ty && decide (m.cond.code.toNat ≤ 1)))
  else m.ty == .f32

def memAccept (o : Nat) (uni : Bool) (m : MemMod) : Bool :=
  if o = 0xC0 ∨ o = 0xC1 then
    tyIs [.i8, .n8, .i16, .n16, .b32, .b64, .b128] m.ty && !(uni && m.space == .sp)
  else if o = 0xC2 then
    tyIs [.n8, .i8, .e4m3, .e5m2, .e2m1, .q4x, .n16, .i16, .f16, .bf16, .b32, .i32, .n32, .f32] m.ty
      && (m.space == .sh || m.space == .sc)
  else if o = 0xD3 then m.ty == .b64 && (m.space == .sh || m.space == .sc)
  else tyIs [.b32, .i32, .f32, .bf16, .f16] m.ty && !(m.space == .sp)

def drainAccept (m : DrainMod) : Bool :=
  !(m.space == .sp) &&
    (if m.add then (m.ty == .f32 && !m.sat) || m.ty == .i32
     else (tyIs [.b32, .i32, .f32] m.ty && !m.sat) || tyIs [.bf16, .f16, .e4m3, .e5m2] m.ty)

def atomAccept (o : Nat) (m : AtomMod) : Bool :=
  let narrow := m.at_ != .f32
  if o = 0xD1 then (m.ord == .relaxed || m.ord == .rel) && !(m.asp == .tw) && m.at_ == .i64
  else if o = 0xD2 then (m.ord == .relaxed || m.ord == .acq) && !(m.asp == .tw) && m.at_ == .i64
  else if 0xC3 ≤ o ∧ o ≤ 0xC5 then true
  else if 0xC6 ≤ o ∧ o ≤ 0xCA then narrow
  else (m.ord != .acqCrit && m.ord != .relCrit) && (decide (o ≤ 0xCD) || narrow)

/-- The special registers (R105): number, vector form, uniform form, 64-bit, writable. -/
def srRow (n : Nat) : Option (Bool × Bool × Bool × Bool) :=
  if n = 0x000 then some (true, false, false, false)
  else if n = 0x00B then some (true, true, true, false)
  else if n ≤ 0x00E then some (true, true, false, false)
  else if n = 0x00F then some (false, true, false, false)
  else if n = 0x010 then some (true, false, false, true)
  else if n = 0x011 then some (false, true, false, true)
  else if n = 0x012 then some (false, true, false, false)
  else if n = 0x013 then some (true, true, false, true)
  else if n = 0x014 then some (false, true, false, false)
  else if n = 0x015 then some (false, true, true, false)
  else if n = 0x016 then some (false, true, false, false)
  else none

def srAccept (write uni : Bool) (n : Nat) : Bool :=
  match srRow n with
  | some (v, u, _, w) => (if uni then u else v) && (!write || w)
  | none => false

def slotAccept (o : Nat) (b : BitVec 10) : Bool :=
  let sel := (b.extractLsb' 4 2).toNat
  let s2 := (b.extractLsb' 6 2).toNat
  decide (b.extractLsb' 0 4 = 0) &&
    (if o = 0xA4 then decide (sel ≤ 1) else if o = 0xA8 then decide (sel ≤ 1 ∧ s2 = 0) else decide (sel = 0 ∧ s2 = 0))

def modOk (o : Nat) (uni : Bool) (b : BitVec 10) : Bool :=
  if o = 0x02 then decide (b.extractLsb' 0 9 = 0)
  else if o = 0x07 then true
  else if o = 0x0C ∨ o = 0x0E then decide (b.extractLsb' 8 2 = 0)
  else if o = 0x11 then srAccept false uni b.toNat
  else if o = 0x12 then srAccept true uni b.toNat
  else if o = 0x13 ∨ o = 0xE4 then (varOfBits 2 b).isSome
  else if o < 0x20 then b == 0
  else if o = 0x29 ∨ o = 0x68 then ((CmpMod.ofBits b).map (cmpAccept o)).getD false
  else if o < 0x60 ∨ o = 0x69 ∨ (0x80 ≤ o ∧ o ≤ 0x82) ∨ (0xB6 ≤ o ∧ o ≤ 0xB9) ∨ o = 0xBD then
    ((IntMod.ofBits b).map (intAccept o)).getD false
  else if o = 0x70 then (CvtMod.ofBits FFmt.ofCode FFmt.ofCode b).isSome
  else if o = 0x71 then (CvtMod.ofBits FFmt.ofCode IFmt.ofCode b).isSome
  else if o = 0x72 then (CvtMod.ofBits IFmt.ofCode FFmt.ofCode b).isSome
  else if o = 0x73 then
    ((CvtMod.ofBits IFmt.ofCode IFmt.ofCode b).map fun m => m.rnd == .rne && !m.ftz).getD false
  else if o = 0x74 then
    ((CvtMod.ofBits FFmt.ofCode FFmt.ofCode b).map fun m => m.df != .f32 && m.sf == .f32 && m.rnd == .rne).getD false
  else if o = 0x75 then
    ((CvtMod.ofBits FFmt.ofCode FFmt.ofCode b).map fun m => m.df != .f32 && m.sf == .f32).getD false
  else if o < 0xA0 then ((FpMod.ofBits b).map (fpAccept o)).getD false
  else if o = 0xA0 then (varOfBits 16 b).isSome
  else if o ≤ 0xA8 then slotAccept o b
  else if o = 0xB5 then (varOfBits 5 b).isSome
  else if o = 0xC0 ∨ o = 0xC1 ∨ o = 0xC2 ∨ o = 0xD3 ∨ o = 0xF2 then ((MemMod.ofBits b).map (memAccept o uni)).getD false
  else if 0xC3 ≤ o ∧ o ≤ 0xD2 then ((AtomMod.ofBits b).map (atomAccept o)).getD false
  else if o = 0xD5 then (Scope.ofCode (b.extractLsb' 7 3)).isSome && b.extractLsb' 0 7 == 0
  else if o = 0xE8 then ((EngMod.ofBits b).map fun m => m.ssp == .sh).getD false
  else if o = 0xE0 ∨ o = 0xE1 ∨ o = 0xE2 ∨ o = 0xE7 then (EngMod.ofBits b).isSome
  else if o = 0xF3 then ((DrainMod.ofBits b).map drainAccept).getD false
  else if o = 0xF8 then (varOfBits 4 b).isSome
  else b == 0

/-! Step 8: operand classes -/

/-- How an immediate reaches an operand (R40). -/
inductive ImmKind where
  | int | i64 | n64 | f32 | f16 | bf16 | code
  deriving DecidableEq, Repr

/-- What an entry accepts in a field: run lengths in v and s (0: refused) with their alignment, the other classes
(R70), and how an immediate is read. `nil` accepts the specifier zero, written for no destination. -/
structure Cls where
  v    : Nat := 0
  s    : Nat := 0
  even : Bool := false
  k    : Bool := false
  d    : Bool := false
  tile : Nat := 0
  short : Bool := false
  exa  : Bool := false
  exb  : Bool := false
  ex64 : Bool := false
  imm  : Option (Int × Int) := none
  kind : ImmKind := .int
  nil  : Bool := false
  deriving DecidableEq, Repr

/-- A field the instruction does not use (R44). -/
def Cls.unused : Cls := { nil := true }

/-- The classes of an instruction's four operand fields. -/
structure Spec where
  dst : Cls := .unused
  a   : Cls := .unused
  b   : Cls := .unused
  c   : Cls := .unused
  deriving DecidableEq, Repr

def immAll : Option (Int × Int) := some (-128, 127)

/-- Class G (R70). -/
def clsG (kind : ImmKind) : Cls :=
  { v := 1, s := 1, k := true, d := true, short := true, exa := true, exb := true,
    imm := if kind == .code then none else immAll, kind := kind }

/-- Class G2 (R70). -/
def clsG2 (kind : ImmKind) : Cls := { v := 2, s := 2, even := true, exa := true, ex64 := true, imm := immAll, kind := kind }

/-- Classes D, D2 and Vn by form (R70). -/
def clsD (uni : Bool) (n : Nat) : Cls := if uni then { s := n, even := n == 2 } else { v := n, even := n == 2 }
def clsVn (n : Nat) : Cls := { v := n }
def clsK : Cls := { k := true }
/-- s, I, EXA. -/
def clsSIE : Cls := { s := 1, imm := immAll, exa := true }
/-- v, s, I, EXA, of which uniform forms accept no v. -/
def clsVSIE : Cls := { v := 1, s := 1, imm := immAll, exa := true }
/-- Address fields under MEMD (R201). -/
def clsAddr : Cls := { v := 1, s := 1, imm := immAll }
def clsKSIE : Cls := { k := true, s := 1, imm := immAll, exa := true }
def clsI (lo hi : Int) : Cls := { imm := some (lo, hi) }

def Ty.kind : Ty → ImmKind
  | .i64 => .i64 | .b64 | .n64 => .n64 | .f32 => .f32 | .f16 => .f16 | .bf16 => .bf16
  | .e4m3 | .e5m2 | .e2m1 | .q4x => .code
  | _ => .int

def FFmt.kind : FFmt → ImmKind
  | .f32 => .f32 | .f16 => .f16 | .bf16 => .bf16 | _ => .code

def IFmt.kind : IFmt → ImmKind
  | .i64 => .i64 | .n64 => .n64 | _ => .int

/-- Class G or G2 by the width of the type. -/
def clsTy (t : Ty) : Cls := if t.wide then clsG2 t.kind else clsG t.kind

def clsIF (f : IFmt) : Cls := if f.wide then clsG2 f.kind else clsG f.kind

/-- The signed value of an inline immediate's specifier (R40). -/
def immOf (b : BitVec 9) : Int := (b.extractLsb' 0 8).toInt

/-- A specifier of the extension words (R41). -/
def extSpecifier (b : BitVec 9) : Bool := b == 0x0E8 || b == 0x0E9 || b == 0x0EA

/-- The registers of a run whose count a field gives. An extension word there gives none: it is left to step 9 (R69), and the
run is looked at as one register. -/
def runOf (b : BitVec 9) : Nat := if extSpecifier b then 1 else (immOf b).toNat

/-- Operand classes of the integer-layout instructions (R74 to R84, R89, R95 to R97, R159 to R163). The run that FCHK's A begins
is of v registers, a class R97 does not name, and an inline immediate in its B is a 32-bit integer whatever type MOD selects. Log
entry 65. -/
def specInt (o : Nat) (uni : Bool) (f : Fields) (m : IntMod) : Spec :=
  let n := if m.ty.wide then 2 else 1
  let g := clsTy m.ty
  let d := clsD uni n
  let gi := clsG .int
  if o = 0x24 ∨ o = 0x2B then ⟨d, g, g, g⟩
  else if o = 0x25 ∨ o = 0x26 then ⟨d, g, .unused, .unused⟩
  else if o ≤ 0x28 then ⟨d, g, g, .unused⟩
  else if o = 0x2A then ⟨d, g, g, clsK⟩
  else if o = 0x2C then ⟨clsD uni 2, gi, gi, .unused⟩
  else if o = 0x2D ∨ o = 0x2E then ⟨clsD uni 2, gi, gi, gi⟩
  else if o = 0x2F then ⟨clsD uni 1, gi, gi, gi⟩
  else if o = 0x33 ∨ o = 0x3C ∨ o = 0x41 ∨ o = 0x47 then ⟨d, g, .unused, .unused⟩
  else if o ≤ 0x34 then ⟨d, g, g, .unused⟩
  else if o ≤ 0x39 then ⟨d, g, gi, .unused⟩
  else if o = 0x3A ∨ o = 0x3B ∨ o = 0x43 then ⟨clsD uni 1, g, .unused, .unused⟩
  else if o = 0x3D then ⟨d, g, gi, .unused⟩
  else if o = 0x3E then ⟨d, g, g, gi⟩
  else if o = 0x3F then ⟨d, gi, gi, gi⟩
  else if o = 0x40 then ⟨d, g, gi, .unused⟩
  else if o = 0x42 then ⟨d, gi, gi, .unused⟩
  else if o = 0x44 then ⟨clsVn 2, g, gi, .unused⟩
  else if o = 0x45 then ⟨.unused, clsVn (runOf f.b), clsI 1 16, clsSIE⟩
  else if o = 0x46 then ⟨clsVn (runOf f.a), clsI 1 16, clsSIE, .unused⟩
  else if o = 0x69 then ⟨clsD uni 1, g, .unused, .unused⟩
  else if o = 0x80 then
    let w := if m.ty == .e2m1 || m.ty == .q4x then 3 else 5
    ⟨clsVn w, clsVn 16, if m.var.val = 1 then { d := true } else .unused, .unused⟩
  else if o = 0x81 then
    let w := if m.ty == .e2m1 || m.ty == .q4x then 3 else 5
    ⟨clsVn 16, clsVn w, .unused, .unused⟩
  else if o = 0x82 then ⟨clsD uni 1, clsVn (runOf f.c), gi, clsI 1 16⟩
  else if o = 0xB6 ∨ o = 0xB7 then ⟨d, { v := n, even := n == 2 }, clsVSIE, .unused⟩
  else if o = 0xB8 then ⟨{ v := n, s := n, even := n == 2 }, g, .unused, .unused⟩
  else if o = 0xB9 then ⟨d, g, clsKSIE, .unused⟩
  else ⟨clsD uni 1, g, .unused, .unused⟩

def specFp (o : Nat) (uni : Bool) (m : FpMod) : Spec :=
  let g := clsG m.ty.kind
  let d := clsD uni 1
  if o = 0x63 ∨ o = 0x6C ∨ o = 0x92 then ⟨d, g, g, g⟩
  else if o = 0x6B then ⟨d, g, clsG .int, .unused⟩
  else if o = 0x78 then ⟨d, clsG .bf16, clsG .bf16, g⟩
  else if 0x79 ≤ o ∧ o ≤ 0x7C then ⟨d, clsG .code, clsG .code, g⟩
  else if o = 0x66 ∨ o = 0x67 ∨ o = 0x6A ∨ o = 0x6D ∨ (0x88 ≤ o ∧ o ≤ 0x8F) then ⟨d, g, .unused, .unused⟩
  else ⟨d, g, g, .unused⟩

def engCls (s : ESpace) : Cls :=
  match s with
  | .mem => { v := 2, s := 2, even := true, ex64 := true }
  | _ => clsVSIE

def atWide (a : At) : Bool := a == .i64
def atKind : At → ImmKind
  | .f32 => .f32 | .i64 => .n64 | _ => .int

/-- Classes G and G2 without the extension shortcuts, in a MEMD instruction (R209). -/
def clsAtom (a : At) : Cls :=
  if atWide a then { v := 2, s := 2, even := true, imm := immAll, kind := atKind a }
  else { v := 1, s := 1, k := true, d := true, short := true, imm := immAll, kind := atKind a }

def specAtom (o : Nat) (uni : Bool) (m : AtomMod) : Spec :=
  let n := if atWide m.at_ then 2 else 1
  let d := if o ≤ 0xCA then clsD uni n else .unused
  if o = 0xCA then ⟨d, clsAddr, clsAddr, { v := 2 * n, s := 2 * n, even := true }⟩
  else if o = 0xD1 then ⟨clsD uni 1, clsAddr, clsAddr, clsAddr⟩
  else if o = 0xD2 then ⟨.unused, clsAddr, clsAddr, clsAddr⟩
  else ⟨d, clsAddr, clsAddr, clsAtom m.at_⟩

def specMem (o : Nat) (uni : Bool) (m : MemMod) : Spec :=
  let n := if m.ty == .b128 then 4 else if m.ty == .b64 then 2 else 1
  if o = 0xC0 then ⟨if uni then { s := n, even := n == 2 } else { v := n, even := n == 2 }, clsAddr, clsAddr, .unused⟩
  else if o = 0xC1 then
    ⟨.unused, clsAddr, clsAddr,
      if n = 4 then (if uni then { s := 4 } else { v := 4 })
      else if n = 2 then { v := 2, s := 2, even := true, imm := immAll, kind := .n64 }
      else { v := 1, s := 1, k := true, d := true, short := true, imm := immAll }⟩
  else if o = 0xC2 then
    ⟨clsVn 4, { s := 1, imm := immAll }, { s := 1, imm := immAll }, { s := 1, imm := immAll }⟩
  else if o = 0xD3 then ⟨.unused, clsAddr, clsAddr, clsAddr⟩
  else ⟨{ tile := 1 }, clsAddr, clsAddr, .unused⟩

/-- Control, waits and special registers (R99 to R108, R154 to R158, R289 to R293). -/
def specControl (o : Nat) (uni : Bool) (b : BitVec 10) : Spec :=
  if o = 0x03 then { a := clsK }
  else if o = 0x06 then { a := clsSIE, b := { s := 2, even := true, ex64 := true, kind := .n64 }, c := clsSIE }
  else if o = 0x0C ∨ o = 0x10 ∨ o = 0x14 then { a := clsSIE }
  else if o = 0x0F then { a := if uni then { s := 1 } else { v := 1 } }
  else if o = 0x11 then
    if b.toNat = 0x016 then { dst := { s := 8 } }
    else { dst := clsD uni (match srRow b.toNat with | some (_, _, true, _) => 2 | _ => 1) }
  else if o = 0x12 then { a := clsG .int }
  else if o = 0x13 then
    if b = 0 then {} else { a := { s := 2, even := true, imm := immAll, ex64 := true, kind := .n64 } }
  else {}

/-- Streams, masks and group instructions (R123 to R125, R151 to R169). -/
def specGroup (o : Nat) (f : Fields) : Spec :=
  let g2 := clsG2 .n64
  if o = 0xA0 then { a := { s := 2, even := true } }
  else if o = 0xA4 then if (f.mod.extractLsb' 4 2).toNat = 1 then {} else { a := g2 }
  else if o = 0xA5 then { a := { clsG .int with d := false }, b := g2 }
  else if o = 0xA6 ∨ o = 0xA8 then { dst := { v := 2, even := true } }
  else if o = 0xA7 then { a := { v := 2, even := true } }
  else if o ≤ 0xA3 then { a := g2 }
  else if o = 0xA9 then { dst := clsVn (runOf f.b), a := { d := true }, b := clsI 1 16 }
  else if o ≤ 0xB2 then { dst := clsK, a := clsKSIE, b := clsKSIE }
  else if o = 0xB3 then { dst := clsK, a := clsKSIE }
  else if o = 0xB4 then { dst := { k := true, s := 1 }, a := clsKSIE }
  else if o = 0xB5 then { dst := { k := true, s := 1 }, a := clsK }
  else if o = 0xBA then
    { a := { v := 2, s := 2, even := true, imm := immAll, ex64 := true, kind := .n64 }, b := clsVSIE }
  else if o = 0xBB then { dst := { s := 1, nil := true }, a := clsSIE }
  else if o = 0xBE then { dst := { s := 1 }, a := { k := true, s := 1 } }
  else {}

/-- Windows, engines, matrix and collectives (R197 to R200, R261 to R275, R238 to R252, R313). -/
def specEngine (o : Nat) (f : Fields) : Spec :=
  let si : Cls := { s := 1, imm := immAll }
  if o = 0xD6 then { a := si, b := { s := 2, even := true, ex64 := true, kind := .n64 }, c := clsSIE }
  else if o = 0xD7 ∨ o = 0xD8 then { a := clsSIE }
  else if o = 0xD9 then { dst := { s := 1 }, a := clsSIE }
  else if o = 0xE0 ∨ o = 0xE1 ∨ o = 0xE2 ∨ o = 0xE7 ∨ o = 0xE8 then
    match EngMod.ofBits f.mod with
    | some m =>
      { a := engCls m.dsp, b := if o = 0xE8 then clsVSIE else engCls m.ssp,
        c := if o = 0xE7 then { s := 4 } else if o = 0xE1 ∨ o = 0xE2 then { s := 8 } else clsVSIE }
    | none => {}
  else if o = 0xE3 then { dst := { s := 1 } }
  else if o = 0xE4 then { a := { s := 16 } }
  else if o = 0xE6 then { a := si }
  else if o = 0xF0 then
    { dst := { tile := 4 }, a := clsVn 16, b := clsVn 8, c := if f.len = .w64 then { s := 8 } else .unused }
  else if o = 0xF1 then { dst := { tile := 1 } }
  else if o = 0xF3 then { a := clsAddr, b := clsAddr, c := { tile := 1 } }
  else if o = 0xF4 then { dst := { s := 1 }, a := { tile := 1 } }
  else if o = 0xF8 then
    { dst := { s := 1, nil := true },
      a := if f.dst = 0 then { s := 8 } else { clsSIE with kind := if f.mod.extractLsb' 0 4 = 3 then .int else .f32 },
      b := clsSIE }
  else if o = 0xF9 ∨ o = 0xFA then { a := { s := 8 }, b := clsSIE }
  else {}

/-- The operand classes of an instruction word whose modifier is accepted. -/
def specOf (f : Fields) : Spec :=
  let o := f.opc.toNat
  let int (m : IntMod) := specInt o f.s f m
  if o < 0x20 then specControl o f.s f.mod
  else if o = 0x29 then
    match CmpMod.ofBits f.mod with
    | some m => ⟨clsK, clsTy m.ty, clsTy m.ty, .unused⟩
    | none => {}
  else if o = 0x68 then ⟨clsK, clsG .f32, clsG .f32, .unused⟩
  else if o < 0x60 ∨ o = 0x69 ∨ (0x80 ≤ o ∧ o ≤ 0x82) ∨ (0xB6 ≤ o ∧ o ≤ 0xB9) ∨ o = 0xBD then
    ((IntMod.ofBits f.mod).map int).getD {}
  else if o = 0x70 then
    match CvtMod.ofBits FFmt.ofCode FFmt.ofCode f.mod with
    | some m => { dst := clsD f.s 1, a := clsG m.sf.kind }
    | none => {}
  else if o = 0x71 then
    match CvtMod.ofBits FFmt.ofCode IFmt.ofCode f.mod with
    | some m => { dst := clsD f.s 1, a := clsIF m.sf }
    | none => {}
  else if o = 0x72 then
    match CvtMod.ofBits IFmt.ofCode FFmt.ofCode f.mod with
    | some m => { dst := clsD f.s (if m.df.wide then 2 else 1), a := clsG m.sf.kind }
    | none => {}
  else if o = 0x73 then
    match CvtMod.ofBits IFmt.ofCode IFmt.ofCode f.mod with
    | some m => { dst := clsD f.s (if m.df.wide then 2 else 1), a := clsIF m.sf }
    | none => {}
  else if o = 0x74 then { dst := clsD f.s 1, a := clsG .f32, b := { d := true } }
  else if o = 0x75 then
    match CvtMod.ofBits FFmt.ofCode FFmt.ofCode f.mod with
    | some m =>
      { dst := clsD f.s 1, a := clsG .f32, b := clsG .f32,
        c := match m.df with
          | .e4m3 | .e5m2 => clsI 0 1
          | .e2m1 => clsI 0 3
          | _ => .unused }
    | none => {}
  else if o < 0xA0 then ((FpMod.ofBits f.mod).map (specFp o f.s)).getD {}
  else if o = 0xC0 ∨ o = 0xC1 ∨ o = 0xC2 ∨ o = 0xD3 ∨ o = 0xF2 then
    ((MemMod.ofBits f.mod).map (specMem o f.s)).getD {}
  else if 0xC3 ≤ o ∧ o ≤ 0xD2 then ((AtomMod.ofBits f.mod).map (specAtom o f.s)).getD {}
  else if o < 0xC0 then specGroup o f
  else specEngine o f

/-- A run of n registers from r within m registers, at an even register where it is a pair (R43). -/
def runOk (n : Nat) (even : Bool) (r m : Nat) : Bool :=
  decide (n ≠ 0) && decide (r + n ≤ m) && (!even || r % 2 == 0)

/-- What one field may name: the class is accepted, pairs and runs are placed, and the block-or-trap bit stands on a
source that carries full bits (R42 to R44). -/
def fieldOk (uni : Bool) (c : Cls) (b : BitVec 9) (ef : Bool) : Bool :=
  if c.nil && b == 0 then !ef
  else match Src.ofCode b with
    | none => false
    | some (.v r) => !uni && runOk c.v c.even r.val 128
    | some (.s r) => runOk c.s c.even r.val 64
    | some (.k _) => c.k && !ef
    | some (.d _) => c.d && !uni && !ef
    | some (.c r) => decide (c.tile ≠ 0) && r.val % c.tile == 0
    | some .exa => c.exa && !ef
    | some .exb => c.exb && !ef
    | some .ex64 => c.ex64 && !ef
    | some (.short _) => c.short && !ef
    | some (.imm v) =>
      !ef && match c.imm with
        | some (lo, hi) => decide (lo ≤ v.toInt ∧ v.toInt ≤ hi)
        | none => false

def fieldsOk (f : Fields) : Bool :=
  let p := specOf f
  fieldOk f.s p.dst f.dst false && fieldOk f.s p.a f.a f.aef && fieldOk f.s p.b f.b f.bef && fieldOk f.s p.c f.c f.cef

/-- A source field at step 8: an extension word that the class of a used field refuses is left to step 9 (R69). One in DST fails at
step 8, as R69's are operand fields that an extension word could serve. Log entry 66. -/
def sourceOk (uni : Bool) (c : Cls) (b : BitVec 9) (ef : Bool) : Bool :=
  fieldOk uni c b ef || (extSpecifier b && !ef && c != Cls.unused)

/-- Step 8: the operand fields. -/
def operandsOk (f : Fields) : Bool :=
  let p := specOf f
  fieldOk f.s p.dst f.dst false && sourceOk f.s p.a f.a f.aef && sourceOk f.s p.b f.b f.bef && sourceOk f.s p.c f.c f.cef

/-! Step 9: the extension -/

def named (f : Fields) (c : BitVec 9) : Bool := f.a == c || f.b == c || f.c == c

def extOk (f : Fields) (kind : ExtKind) : Bool :=
  let exa := f.ext.extractLsb' 0 32
  let exb := f.ext.extractLsb' 32 32
  let a := named f 0x0E8
  let b := named f 0x0E9
  let ab := named f 0x0EA
  match kind with
  | .none => !a && !b && !ab && f.ext == 0
  | .imm =>
    !(a && f.len == .w64) && !((b || ab) && f.len != .w128) &&
      (a || ab || exa == 0) && (b || ab || exb == 0) &&
      -- the offset of SPAWN, when it stands in the word (R164)
      !(f.opc == 0xBA && ((f.b == 0x0E8 && exa.extractLsb' 0 2 != 0) ||
        (f.b.getLsbD 8 && f.b.extractLsb' 0 2 != 0)))
  | .ofs => exb == 0 && exa.extractLsb' 0 2 == 0
  | .memd => exb.extractLsb' 2 30 == 0
  | .fblk => exb == 0 && exa.extractLsb' 0 5 == 0

/-- Bits outside the length of a word are not part of it. -/
def lenExt (f : Fields) : Bool :=
  match f.len with
  | .w64 => f.ext == 0
  | .w96 => f.ext.extractLsb' 32 32 == 0
  | .w128 => true

def lenOk (f : Fields) (kind : ExtKind) : Bool :=
  match kind with
  | .ofs => f.len != .w64
  | .fblk => f.len != .w96
  | _ => true

/-- PAD lays its tag across A and B and leaves every other bit zero (R49). -/
def padOk (f : Fields) : Bool :=
  f.len == .w64 && f.dst == 0 && f.b.extractLsb' 2 7 == 0 && !f.bef && f.c == 0 && !f.cef && f.mod == 0
    && !f.gneg && f.gidx == 0

/-- Steps 3 to 9 of R50: the number of the first check that fails. -/
def checkFields (f : Fields) : Option Nat :=
  let o := f.opc.toNat
  match opRow o with
  | none => some 3
  | some r =>
    if !(if f.s then r.uni else r.vec) then some 4
    else if !lenOk f r.ext then some 5
    else if (f.gneg && f.gidx == 0) || (o == 0x07 && !padOk f) then some 6
    else if o == 0x07 then none
    else if !modOk o f.s f.mod then some 7
    else if !operandsOk f then some 8
    else if !(fieldsOk f && extOk f r.ext) then some 9
    else none

end Sys2Proof
end

