-- ==== Sys2Proof/WellFormed.lean ====
section
/-! DEFINITION. Which instructions are well formed: the fields an instruction is written with pass the checks of R50,
and where two constructors share an opcode the fields are the constructor's own. -/

namespace Sys2Proof

/-- The fields of an instruction with its opcode and modifier. -/
def W.fields (w : W) (o : BitVec 8) (m : BitVec 10) : Fields :=
  { len := w.len, s := w.uni, opc := o, gneg := w.gneg, gidx := BitVec.ofNat 3 w.gidx.val, dst := w.dst.code,
    a := w.a.src.code, aef := w.a.ef, b := w.b.src.code, bef := w.b.ef, c := w.c.src.code, cef := w.c.ef, mod := m,
    ext := w.ext }

/-- A TMAP whose length is zero in the word unmaps (R197); a length in a register is judged at issue. -/
def W.unmaps (w : W) : Bool :=
  match w.c.src with
  | .imm b => b == 0
  | .exa => w.ext.extractLsb' 0 32 == 0
  | _ => false

/-- The fields of every encoded instruction (R48); events have none. -/
def fieldsOf : Instr → Option Fields
  | .nop w => some (w.fields 0x00 (0))
  | .exit w => some (w.fields 0x01 (0))
  | .bra w b => some (w.fields 0x02 (bit1 b ++ 0#9))
  | .braD w => some (w.fields 0x03 (0))
  | .call w => some (w.fields 0x04 (0))
  | .ret w => some (w.fields 0x05 (0))
  | .brt w => some (w.fields 0x06 (0))
  | .pad tag => some { len := .w64, s := true, opc := 0x07, gneg := false, gidx := 0, dst := 0, a := tag.extractLsb' 0 9, aef := tag.getLsbD 9, b := (tag.extractLsb' 10 2).zeroExtend 9, bef := false, c := 0, cef := false, mod := 0, ext := 0 }
  | .pushj w => some (w.fields 0x08 (0))
  | .pushb w => some (w.fields 0x09 (0))
  | .join w => some (w.fields 0x0A (0))
  | .brk w => some (w.fields 0x0B (0))
  | .trap w k => some (w.fields 0x0C (0#2 ++ k))
  | .rte w => some (w.fields 0x0D (0))
  | .bkpt w k => some (w.fields 0x0E (0#2 ++ k))
  | .waitf w => some (w.fields 0x0F (0))
  | .waitb w => some (w.fields 0x10 (0))
  | .getsr w k => some (w.fields 0x11 (k))
  | .setsr w k => some (w.fields 0x12 (k))
  | .pctlNoidem w => some (w.fields 0x13 (0))
  | .pctlExpect w => some (w.fields 0x13 (1))
  | .delay w => some (w.fields 0x14 (0))
  | .iadd w m => some (w.fields 0x20 (m.bits))
  | .isub w m => some (w.fields 0x21 (m.bits))
  | .imul w m => some (w.fields 0x22 (m.bits))
  | .imulh w m => some (w.fields 0x23 (m.bits))
  | .imad w m => some (w.fields 0x24 (m.bits))
  | .ineg w m => some (w.fields 0x25 (m.bits))
  | .iabs w m => some (w.fields 0x26 (m.bits))
  | .imin w m => some (w.fields 0x27 (m.bits))
  | .imax w m => some (w.fields 0x28 (m.bits))
  | .icmp w m => some (w.fields 0x29 (m.bits))
  | .sel w m => some (w.fields 0x2A (m.bits))
  | .iclamp w m => some (w.fields 0x2B (m.bits))
  | .imulw w m => some (w.fields 0x2C (m.bits))
  | .iaddc w m => some (w.fields 0x2D (m.bits))
  | .isubb w m => some (w.fields 0x2E (m.bits))
  | .isad w m => some (w.fields 0x2F (m.bits))
  | .and w m => some (w.fields 0x30 (m.bits))
  | .or w m => some (w.fields 0x31 (m.bits))
  | .xor w m => some (w.fields 0x32 (m.bits))
  | .not w m => some (w.fields 0x33 (m.bits))
  | .andn w m => some (w.fields 0x34 (m.bits))
  | .shl w m => some (w.fields 0x35 (m.bits))
  | .shr w m => some (w.fields 0x36 (m.bits))
  | .sar w m => some (w.fields 0x37 (m.bits))
  | .rol w m => some (w.fields 0x38 (m.bits))
  | .ror w m => some (w.fields 0x39 (m.bits))
  | .popc w m => some (w.fields 0x3A (m.bits))
  | .clz w m => some (w.fields 0x3B (m.bits))
  | .brev w m => some (w.fields 0x3C (m.bits))
  | .bfe w m => some (w.fields 0x3D (m.bits))
  | .bfi w m => some (w.fields 0x3E (m.bits))
  | .bpick w m => some (w.fields 0x3F (m.bits))
  | .lea w m => some (w.fields 0x40 (m.bits))
  | .mov w m => some (w.fields 0x41 (m.bits))
  | .pack w m => some (w.fields 0x42 (m.bits))
  | .ffs w m => some (w.fields 0x43 (m.bits))
  | .unpk w m => some (w.fields 0x44 (m.bits))
  | .spst w m => some (w.fields 0x45 (m.bits))
  | .spld w m => some (w.fields 0x46 (m.bits))
  | .bswap w m => some (w.fields 0x47 (m.bits))
  | .fadd w m => some (w.fields 0x60 (m.bits))
  | .fsub w m => some (w.fields 0x61 (m.bits))
  | .fmul w m => some (w.fields 0x62 (m.bits))
  | .ffma w m => some (w.fields 0x63 (m.bits))
  | .fmin w m => some (w.fields 0x64 (m.bits))
  | .fmax w m => some (w.fields 0x65 (m.bits))
  | .fabs w m => some (w.fields 0x66 (m.bits))
  | .fneg w m => some (w.fields 0x67 (m.bits))
  | .fcmp w m => some (w.fields 0x68 (m.bits))
  | .fclass w m => some (w.fields 0x69 (m.bits))
  | .frnd w m => some (w.fields 0x6A (m.bits))
  | .fscl w m => some (w.fields 0x6B (m.bits))
  | .fclamp w m => some (w.fields 0x6C (m.bits))
  | .ffrc w m => some (w.fields 0x6D (m.bits))
  | .fcpys w m => some (w.fields 0x6E (m.bits))
  | .cvtFF w m => some (w.fields 0x70 (m.bits FFmt.code FFmt.code))
  | .cvtFI w m => some (w.fields 0x71 (m.bits FFmt.code IFmt.code))
  | .cvtIF w m => some (w.fields 0x72 (m.bits IFmt.code FFmt.code))
  | .cvtII w m => some (w.fields 0x73 (m.bits IFmt.code IFmt.code))
  | .cvtSr w m => some (w.fields 0x74 (m.bits FFmt.code FFmt.code))
  | .cvtp w m => some (w.fields 0x75 (m.bits FFmt.code FFmt.code))
  | .dot2Bf16 w m => some (w.fields 0x78 (m.bits))
  | .dot4E4m3 w m => some (w.fields 0x79 (m.bits))
  | .dot4E5m2 w m => some (w.fields 0x7A (m.bits))
  | .dot8E2m1 w m => some (w.fields 0x7B (m.bits))
  | .dot8Q4x w m => some (w.fields 0x7C (m.bits))
  | .qnt w m => some (w.fields 0x80 (m.bits))
  | .dqnt w m => some (w.fields 0x81 (m.bits))
  | .fchk w m => some (w.fields 0x82 (m.bits))
  | .rcp w m => some (w.fields 0x88 (m.bits))
  | .rsq w m => some (w.fields 0x89 (m.bits))
  | .sqrt w m => some (w.fields 0x8A (m.bits))
  | .ex2 w m => some (w.fields 0x8B (m.bits))
  | .lg2 w m => some (w.fields 0x8C (m.bits))
  | .sinr w m => some (w.fields 0x8D (m.bits))
  | .cosr w m => some (w.fields 0x8E (m.bits))
  | .tanh w m => some (w.fields 0x8F (m.bits))
  | .hadd2 w m => some (w.fields 0x90 (m.bits))
  | .hmul2 w m => some (w.fields 0x91 (m.bits))
  | .hfma2 w m => some (w.fields 0x92 (m.bits))
  | .hmin2 w m => some (w.fields 0x93 (m.bits))
  | .hmax2 w m => some (w.fields 0x94 (m.bits))
  | .dload w v => some (w.fields 0xA0 (varBits v))
  | .qkey w m => some (w.fields 0xA1 (m.bits 0))
  | .qpos w m => some (w.fields 0xA2 (m.bits 0))
  | .qskip w m => some (w.fields 0xA3 (m.bits 0))
  | .qfork w m => some (w.fields 0xA4 (m.bits 0))
  | .qforkTop w m => some (w.fields 0xA4 (m.bits 1))
  | .qseek w m => some (w.fields 0xA5 (m.bits 0))
  | .qsave w m => some (w.fields 0xA6 (m.bits 0))
  | .qrest w m => some (w.fields 0xA7 (m.bits 0))
  | .qgetPos w m => some (w.fields 0xA8 (m.bits 0))
  | .qgetKey w m => some (w.fields 0xA8 (m.bits 1))
  | .ddraw w => some (w.fields 0xA9 (0))
  | .kand w => some (w.fields 0xB0 (0))
  | .kor w => some (w.fields 0xB1 (0))
  | .kxor w => some (w.fields 0xB2 (0))
  | .knot w => some (w.fields 0xB3 (0))
  | .kmov w => some (w.fields 0xB4 (0))
  | .poll w v => some (w.fields 0xB5 (varBits v))
  | .shfl w m => some (w.fields 0xB6 (m.bits))
  | .shflG w m => some (w.fields 0xB7 (m.bits))
  | .gred w m => some (w.fields 0xB8 (m.bits))
  | .gscan w m => some (w.fields 0xB9 (m.bits))
  | .spawn w => some (w.fields 0xBA (0))
  | .glaunch w => some (w.fields 0xBB (0))
  | .dwait w => some (w.fields 0xBC (0))
  | .mtch w m => some (w.fields 0xBD (m.bits))
  | .kpopc w => some (w.fields 0xBE (0))
  | .ld w m => some (w.fields 0xC0 (m.bits))
  | .st w m => some (w.fields 0xC1 (m.bits))
  | .ldt w m => some (w.fields 0xC2 (m.bits))
  | .atomAdd w m => some (w.fields 0xC3 (m.bits))
  | .atomMin w m => some (w.fields 0xC4 (m.bits))
  | .atomMax w m => some (w.fields 0xC5 (m.bits))
  | .atomAnd w m => some (w.fields 0xC6 (m.bits))
  | .atomOr w m => some (w.fields 0xC7 (m.bits))
  | .atomXor w m => some (w.fields 0xC8 (m.bits))
  | .atomExch w m => some (w.fields 0xC9 (m.bits))
  | .cas w m => some (w.fields 0xCA (m.bits))
  | .redAdd w m => some (w.fields 0xCB (m.bits))
  | .redMin w m => some (w.fields 0xCC (m.bits))
  | .redMax w m => some (w.fields 0xCD (m.bits))
  | .redAnd w m => some (w.fields 0xCE (m.bits))
  | .redOr w m => some (w.fields 0xCF (m.bits))
  | .redXor w m => some (w.fields 0xD0 (m.bits))
  | .bara w m => some (w.fields 0xD1 (m.bits))
  | .barw w m => some (w.fields 0xD2 (m.bits))
  | .bari w m => some (w.fields 0xD3 (m.bits))
  | .barb w => some (w.fields 0xD4 (0))
  | .fence w k => some (w.fields 0xD5 (k.code ++ 0#7))
  | .tmapMap w => some (w.fields 0xD6 (0))
  | .tmapUnmap w => some (w.fields 0xD6 (0))
  | .tfetch w => some (w.fields 0xD7 (0))
  | .tevict w => some (w.fields 0xD8 (0))
  | .tstat w => some (w.fields 0xD9 (0))
  | .copy w m => some (w.fields 0xE0 (m.bits))
  | .gather w m => some (w.fields 0xE1 (m.bits))
  | .scatter w m => some (w.fields 0xE2 (m.bits))
  | .bclose w => some (w.fields 0xE3 (0))
  | .updSgdm w => some (w.fields 0xE4 (0))
  | .updAdamw w => some (w.fields 0xE4 (1))
  | .updstep w => some (w.fields 0xE5 (0))
  | .skpset w => some (w.fields 0xE6 (0))
  | .copy2d w m => some (w.fields 0xE7 (m.bits))
  | .cfill w m => some (w.fields 0xE8 (m.bits))
  | .mmaQ w => some (w.fields 0xF0 (0))
  | .mmaQImage w => some (w.fields 0xF0 (0))
  | .mzero w => some (w.fields 0xF1 (0))
  | .mld w m => some (w.fields 0xF2 (m.bits))
  | .mdrain w m => some (w.fields 0xF3 (m.bits))
  | .mstat w => some (w.fields 0xF4 (0))
  | .collArReg w v => some (w.fields 0xF8 (varBits v))
  | .collArBuf w v => some (w.fields 0xF8 (varBits v))
  | .collAg w => some (w.fields 0xF9 (0))
  | .collBc w => some (w.fields 0xFA (0))
  | .quartetFuse .. | .delayDeadline .. | .memoryResultWrite .. | .sfuResultWrite .. | .rejDrawComplete .. | .mldFill ..
  | .smplRecordFill .. | .spawnPackItem .. | .partialGroupSeal .. | .spawnedGroupStart .. | .placeBlock .. | .blockRetire ..
  | .tileArrive .. | .tileWritebackDone .. | .unmapComplete .. | .hodAppend .. | .faultService .. | .storeReplay ..
  | .churnOpComplete .. | .drainPerform .. | .copyJob .. | .gatherScatterJob .. | .updJob .. | .skpsetJob ..
  | .updstepJob .. | .jobComplete .. | .collOperation .. | .collf .. | .wdogExpiry .. | .critx ..
  | .debugResume .. | .unitStop .. | .thermalTrip .. | .preempt .. | .drainTimeout .. | .saveComplete ..
  | .resume .. | .ctxsw .. | .switchComplete .. | .slice .. | .moduleReady .. | .sliceStart ..
  | .slicex .. | .ctxnew .. | .ctxfree .. | .gridrun .. | .stopread .. | .partitionReset ..
  | .tracectl .. | .perfrd .. | .perfSnapshot .. | .ewset .. | .smplctl .. | .traceDrain ..
  | .clusterGating .. | .gatingDrainTimeout .. | .gapRecord .. | .moduleReset .. | .mctpQuery .. | .attestationRequest ..
  | .linkPacket .. | .reservationGrant .. | .linkDown .. | .linkRetrain .. | .descriptorReadDone .. | .writePerformedAtDie ..
  | .supplyFault .. | .logRecordConsumed .. => none

/-- Constructors that share an opcode with another one carry what tells them apart. -/
def ownFields : Instr → Bool
  | .tmapMap w => !w.unmaps
  | .tmapUnmap w => w.unmaps
  | .mmaQ w => w.len == .w64
  | .mmaQImage w => w.len != .w64
  | .collArReg w _ => w.dst != .v 0
  | .collArBuf w _ => w.dst == .v 0
  | _ => true

/-- A well-formed instruction (R50): an encoded one whose word passes every check, and any event. -/
def wf (i : Instr) : Bool :=
  match fieldsOf i with
  | some f => (checkFields f).isNone && ownFields i && lenExt f
  | none => true

end Sys2Proof
end

