-- ==== Sys2Proof/Decode.lean ====
section
/-! DEFINITION. Decoding of instruction words (R32 to R50) and, after it, the encoder. A word is at most 128 bits, its
bit 0 the bit 0 of the byte at its address (R32). -/

namespace Sys2Proof

/-- The bytes of a word, lowest address first, as a number (R5). -/
def wordOfBytes : List Byte → Nat
  | [] => 0
  | b :: rest => b.toNat + 256 * wordOfBytes rest

/-- The length LEN gives; none for LEN = 11 (R32). -/
def lenOf (b : BitVec 2) : Option Len :=
  match b.toNat with
  | 0 => some .w64
  | 1 => some .w96
  | 2 => some .w128
  | _ => none

/-- The fields of a word (R36, R37). Bits beyond its length belong to the next word. -/
def splitWord (w : BitVec 128) : Option Fields :=
  (lenOf (w.extractLsb' 0 2)).map fun len =>
    { len := len
      s := w.getLsbD 2
      opc := w.extractLsb' 3 8
      gneg := w.getLsbD 14
      gidx := w.extractLsb' 11 3
      dst := w.extractLsb' 15 9
      a := w.extractLsb' 24 9
      aef := w.getLsbD 33
      b := w.extractLsb' 34 9
      bef := w.getLsbD 43
      c := w.extractLsb' 44 9
      cef := w.getLsbD 53
      mod := w.extractLsb' 54 10
      ext := match len with
        | .w64 => 0
        | .w96 => (w.extractLsb' 64 32).zeroExtend 64
        | .w128 => w.extractLsb' 64 64 }

/-- The operands of a word whose specifiers all name something. -/
def operandsOf (f : Fields) : Option W :=
  match Src.ofCode f.dst, Src.ofCode f.a, Src.ofCode f.b, Src.ofCode f.c with
  | some d, some a, some b, some c =>
    some { len := f.len, uni := f.s, gneg := f.gneg, gidx := f.gidx.toFin, dst := d, a := ⟨a, f.aef⟩, b := ⟨b, f.bef⟩,
           c := ⟨c, f.cef⟩, ext := f.ext }
  | _, _, _, _ => none

/-- How an opcode's instruction is made of a word's fields and operands. -/
abbrev Maker := Fields → W → Option Instr

def mkN (c : W → Instr) : Maker := fun _ w => some (c w)
def mkInt (c : W → IntMod → Instr) : Maker := fun f w => (IntMod.ofBits f.mod).map (c w)
def mkFp (c : W → FpMod → Instr) : Maker := fun f w => (FpMod.ofBits f.mod).map (c w)
def mkCmp (c : W → CmpMod → Instr) : Maker := fun f w => (CmpMod.ofBits f.mod).map (c w)
def mkMem (c : W → MemMod → Instr) : Maker := fun f w => (MemMod.ofBits f.mod).map (c w)
def mkAtom (c : W → AtomMod → Instr) : Maker := fun f w => (AtomMod.ofBits f.mod).map (c w)
def mkEng (c : W → EngMod → Instr) : Maker := fun f w => (EngMod.ofBits f.mod).map (c w)
def mkDrain (c : W → DrainMod → Instr) : Maker := fun f w => (DrainMod.ofBits f.mod).map (c w)
def mkVar (n : Nat) (c : W → Fin 16 → Instr) : Maker := fun f w => (varOfBits n f.mod).map (c w)
def mkSlot (c : W → SlotMod → Instr) : Maker := fun f w => (SlotMod.ofBits f.mod).map (c w)
/-- Two rows of the table under one opcode, told apart by SEL (R47). -/
def mkSlot2 (c0 c1 : W → SlotMod → Instr) : Maker := fun f w =>
  (SlotMod.ofBits f.mod).map (if (f.mod.extractLsb' 4 2).toNat = 1 then c1 w else c0 w)
def mkCvt {δ σ : Type} (d : BitVec 3 → Option δ) (s : BitVec 3 → Option σ) (c : W → CvtMod δ σ → Instr) : Maker :=
  fun f w => (CvtMod.ofBits d s f.mod).map (c w)
/-- Two rows under one opcode, told apart by VAR 0 and 1 (R47, R293). -/
def mkVar2 (c0 c1 : W → Instr) : Maker := fun f w => some (if f.mod = 0 then c0 w else c1 w)

/-- The makers by opcode (R48), in pieces. -/
def makersA : List (Nat × Maker) := [
  (0x00, mkN .nop),
  (0x01, mkN .exit),
  (0x02, fun f w => some (.bra w (f.mod.getLsbD 9))),
  (0x03, mkN .braD),
  (0x04, mkN .call),
  (0x05, mkN .ret),
  (0x06, mkN .brt),
  (0x08, mkN .pushj),
  (0x09, mkN .pushb),
  (0x0A, mkN .join),
  (0x0B, mkN .brk),
  (0x0C, fun f w => some (.trap w (f.mod.extractLsb' 0 8))),
  (0x0D, mkN .rte),
  (0x0E, fun f w => some (.bkpt w (f.mod.extractLsb' 0 8))),
  (0x0F, mkN .waitf),
  (0x10, mkN .waitb),
  (0x11, fun f w => some (.getsr w f.mod)),
  (0x12, fun f w => some (.setsr w f.mod)),
  (0x13, mkVar2 .pctlNoidem .pctlExpect),
  (0x14, mkN .delay),
  (0x20, mkInt .iadd),
  (0x21, mkInt .isub),
  (0x22, mkInt .imul),
  (0x23, mkInt .imulh),
  (0x24, mkInt .imad),
  (0x25, mkInt .ineg),
  (0x26, mkInt .iabs),
  (0x27, mkInt .imin),
  (0x28, mkInt .imax)]

def makersB : List (Nat × Maker) := [
  (0x29, mkCmp .icmp),
  (0x2A, mkInt .sel),
  (0x2B, mkInt .iclamp),
  (0x2C, mkInt .imulw),
  (0x2D, mkInt .iaddc),
  (0x2E, mkInt .isubb),
  (0x2F, mkInt .isad),
  (0x30, mkInt .and),
  (0x31, mkInt .or),
  (0x32, mkInt .xor),
  (0x33, mkInt .not),
  (0x34, mkInt .andn),
  (0x35, mkInt .shl),
  (0x36, mkInt .shr),
  (0x37, mkInt .sar),
  (0x38, mkInt .rol),
  (0x39, mkInt .ror),
  (0x3A, mkInt .popc),
  (0x3B, mkInt .clz),
  (0x3C, mkInt .brev),
  (0x3D, mkInt .bfe),
  (0x3E, mkInt .bfi),
  (0x3F, mkInt .bpick),
  (0x40, mkInt .lea),
  (0x41, mkInt .mov),
  (0x42, mkInt .pack),
  (0x43, mkInt .ffs),
  (0x44, mkInt .unpk),
  (0x45, mkInt .spst)]

def makersC : List (Nat × Maker) := [
  (0x46, mkInt .spld),
  (0x47, mkInt .bswap),
  (0x60, mkFp .fadd),
  (0x61, mkFp .fsub),
  (0x62, mkFp .fmul),
  (0x63, mkFp .ffma),
  (0x64, mkFp .fmin),
  (0x65, mkFp .fmax),
  (0x66, mkFp .fabs),
  (0x67, mkFp .fneg),
  (0x68, mkCmp .fcmp),
  (0x69, mkInt .fclass),
  (0x6A, mkFp .frnd),
  (0x6B, mkFp .fscl),
  (0x6C, mkFp .fclamp),
  (0x6D, mkFp .ffrc),
  (0x6E, mkFp .fcpys),
  (0x70, mkCvt FFmt.ofCode FFmt.ofCode .cvtFF),
  (0x71, mkCvt FFmt.ofCode IFmt.ofCode .cvtFI),
  (0x72, mkCvt IFmt.ofCode FFmt.ofCode .cvtIF),
  (0x73, mkCvt IFmt.ofCode IFmt.ofCode .cvtII),
  (0x74, mkCvt FFmt.ofCode FFmt.ofCode .cvtSr),
  (0x75, mkCvt FFmt.ofCode FFmt.ofCode .cvtp),
  (0x78, mkFp .dot2Bf16),
  (0x79, mkFp .dot4E4m3),
  (0x7A, mkFp .dot4E5m2),
  (0x7B, mkFp .dot8E2m1),
  (0x7C, mkFp .dot8Q4x),
  (0x80, mkInt .qnt)]

def makersD : List (Nat × Maker) := [
  (0x81, mkInt .dqnt),
  (0x82, mkInt .fchk),
  (0x88, mkFp .rcp),
  (0x89, mkFp .rsq),
  (0x8A, mkFp .sqrt),
  (0x8B, mkFp .ex2),
  (0x8C, mkFp .lg2),
  (0x8D, mkFp .sinr),
  (0x8E, mkFp .cosr),
  (0x8F, mkFp .tanh),
  (0x90, mkFp .hadd2),
  (0x91, mkFp .hmul2),
  (0x92, mkFp .hfma2),
  (0x93, mkFp .hmin2),
  (0x94, mkFp .hmax2),
  (0xA0, mkVar 16 .dload),
  (0xA1, mkSlot .qkey),
  (0xA2, mkSlot .qpos),
  (0xA3, mkSlot .qskip),
  (0xA4, mkSlot2 .qfork .qforkTop),
  (0xA5, mkSlot .qseek),
  (0xA6, mkSlot .qsave),
  (0xA7, mkSlot .qrest),
  (0xA8, mkSlot2 .qgetPos .qgetKey),
  (0xA9, mkN .ddraw),
  (0xB0, mkN .kand),
  (0xB1, mkN .kor),
  (0xB2, mkN .kxor),
  (0xB3, mkN .knot)]

def makersE : List (Nat × Maker) := [
  (0xB4, mkN .kmov),
  (0xB5, mkVar 5 .poll),
  (0xB6, mkInt .shfl),
  (0xB7, mkInt .shflG),
  (0xB8, mkInt .gred),
  (0xB9, mkInt .gscan),
  (0xBA, mkN .spawn),
  (0xBB, mkN .glaunch),
  (0xBC, mkN .dwait),
  (0xBD, mkInt .mtch),
  (0xBE, mkN .kpopc),
  (0xC0, mkMem .ld),
  (0xC1, mkMem .st),
  (0xC2, mkMem .ldt),
  (0xC3, mkAtom .atomAdd),
  (0xC4, mkAtom .atomMin),
  (0xC5, mkAtom .atomMax),
  (0xC6, mkAtom .atomAnd),
  (0xC7, mkAtom .atomOr),
  (0xC8, mkAtom .atomXor),
  (0xC9, mkAtom .atomExch),
  (0xCA, mkAtom .cas),
  (0xCB, mkAtom .redAdd),
  (0xCC, mkAtom .redMin),
  (0xCD, mkAtom .redMax),
  (0xCE, mkAtom .redAnd),
  (0xCF, mkAtom .redOr),
  (0xD0, mkAtom .redXor),
  (0xD1, mkAtom .bara)]

def makersF : List (Nat × Maker) := [
  (0xD2, mkAtom .barw),
  (0xD3, mkMem .bari),
  (0xD4, mkN .barb),
  (0xD5, fun f w => (Scope.ofCode (f.mod.extractLsb' 7 3)).map (.fence w)),
  (0xD6, fun _ w => some (if w.unmaps then .tmapUnmap w else .tmapMap w)),
  (0xD7, mkN .tfetch),
  (0xD8, mkN .tevict),
  (0xD9, mkN .tstat),
  (0xE0, mkEng .copy),
  (0xE1, mkEng .gather),
  (0xE2, mkEng .scatter),
  (0xE3, mkN .bclose),
  (0xE4, mkVar2 .updSgdm .updAdamw),
  (0xE5, mkN .updstep),
  (0xE6, mkN .skpset),
  (0xE7, mkEng .copy2d),
  (0xE8, mkEng .cfill),
  (0xF0, fun _ w => some (if w.len = .w64 then .mmaQ w else .mmaQImage w)),
  (0xF1, mkN .mzero),
  (0xF2, mkMem .mld),
  (0xF3, mkDrain .mdrain),
  (0xF4, mkN .mstat),
  (0xF8, fun f w => (varOfBits 4 f.mod).map (if f.dst = 0 then .collArBuf w else .collArReg w)),
  (0xF9, mkN .collAg),
  (0xFA, mkN .collBc)]

def makers : List (Nat × Maker) := makersA ++ makersB ++ makersC ++ makersD ++ makersE ++ makersF

/-- The instruction of a word that passes the checks (R48, R49). -/
def build (f : Fields) : Option Instr :=
  if f.opc = 0x07 then some (.pad (f.b.extractLsb' 0 2 ++ bit1 f.aef ++ f.a))
  else match operandsOf f, makers.lookup f.opc.toNat with
    | some w, some mk => mk f w
    | _, _ => none

/-- The decoder without the place of the word: the number of the failing step of R50, or the instruction. -/
def decodeWord (w : BitVec 128) : Except Nat Instr :=
  match splitWord w with
  | none => .error 1
  | some f =>
    match checkFields f with
    | some n => .error n
    | none =>
      match build f with
      | some i => .ok i
      | none => .error 8

/-- The bytes of a word of a length. -/
def Len.bytes : Len → Nat
  | .w64 => 8
  | .w96 => 12
  | .w128 => 16

/-- Decoding from bytes: the instruction and what follows it, or the number of the failing step (R50); bytes past the
end of the list read zero. -/
def decode (bs : List Byte) : Except Nat (Instr × List Byte) :=
  let w := BitVec.ofNat 128 (wordOfBytes (bs.take 16))
  match decodeWord w, lenOf (w.extractLsb' 0 2) with
  | .ok i, some len => .ok (i, bs.drop len.bytes)
  | .error n, _ => .error n
  | .ok _, none => .error 1

/-- The instruction read from an instruction whose bits are w, bit 0 the bit 0 of the byte at its address. -/
def decodeTableWord (_nbits w : Nat) : Option Instr :=
  match decodeWord (BitVec.ofNat 128 w) with
  | .ok i => some i
  | .error _ => none

/-! The encoder, from the same tables (R36, R46 to R48) -/

def Len.code : Len → BitVec 2
  | .w64 => 0
  | .w96 => 1
  | .w128 => 2

/-- The word of its fields (R36, R37), zero beyond its length. -/
def packWord (f : Fields) : BitVec 128 :=
  (f.ext ++ f.mod ++ bit1 f.cef ++ f.c ++ bit1 f.bef ++ f.b ++ bit1 f.aef ++ f.a ++ f.dst ++ bit1 f.gneg ++ f.gidx
    ++ f.opc ++ bit1 f.s ++ f.len.code).setWidth 128

/-- The word of an encoded instruction; events have none. -/
def encode (i : Instr) : Option (BitVec 128) := (fieldsOf i).map packWord

/-- The bytes of a number, lowest first. -/
def bytesOfNat : Nat → Nat → List Byte
  | 0, _ => []
  | n + 1, w => BitVec.ofNat 8 w :: bytesOfNat n (w / 256)

/-- The bytes of an encoded instruction in memory (R5, R32). -/
def encodeBytes (i : Instr) : List Byte :=
  match fieldsOf i with
  | some f => bytesOfNat f.len.bytes (packWord f).toNat
  | none => []

end Sys2Proof
end

