-- ==== Sys2Proof/Machine/Flags.lean ====
section
/-! DEFINITION. Floating-point formats, exact values, rounding and the exceptions it raises (R51 to R56). An exact value is
a sign and a natural number times a power of two; a rounding is told whether something smaller is left beyond it. -/

namespace Sys2Proof.Machine

/-- The exceptions of R55 in the bit positions of sr.fpstat (R73). -/
abbrev Causes := BitVec 5

def causeINV : Causes := 0x10
def causeDZ  : Causes := 0x08
def causeOVF : Causes := 0x04
def causeUNF : Causes := 0x02
def causeINX : Causes := 0x01

/-- Special codes: IEEE ones, E4M3's one NaN, E2M1's none (R53). -/
inductive Special where
  | ieee | oneNan | none
  deriving DecidableEq, Repr

/-- A floating format (R53): mantissa width, exponent width, bias, special codes, code of its largest finite. -/
structure Fmt where
  p     : Nat
  eb    : Nat
  bias  : Int
  spec  : Special
  top   : Nat
  deriving DecidableEq, Repr

def fmtF32 : Fmt := ⟨23, 8, 127, .ieee, 0x7F7FFFFF⟩
def fmtF16 : Fmt := ⟨10, 5, 15, .ieee, 0x7BFF⟩
def fmtBF16 : Fmt := ⟨7, 8, 127, .ieee, 0x7F7F⟩
def fmtE4M3 : Fmt := ⟨3, 4, 7, .oneNan, 0x7E⟩
def fmtE5M2 : Fmt := ⟨2, 5, 15, .ieee, 0x7B⟩
def fmtE2M1 : Fmt := ⟨1, 2, 1, .none, 0x7⟩

def fmtOf : FFmt → Fmt
  | .f32 => fmtF32 | .f16 => fmtF16 | .bf16 => fmtBF16 | .e4m3 => fmtE4M3 | .e5m2 => fmtE5M2 | .e2m1 => fmtE2M1

def Fmt.width (f : Fmt) : Nat := f.p + f.eb + 1
/-- The sign in its place. -/
def Fmt.signed (f : Fmt) (neg : Bool) (mag : Nat) : Nat := if neg then 2 ^ (f.p + f.eb) + mag else mag
def Fmt.inf (f : Fmt) : Nat := (2 ^ f.eb - 1) * 2 ^ f.p
/-- The canonical NaN (R54), and E4M3's only one. -/
def Fmt.nan (f : Fmt) : Nat := if f.spec == .oneNan then 0x7F else f.inf + 2 ^ (f.p - 1)
/-- The exponent of the last subnormal place. -/
def Fmt.last (f : Fmt) : Int := 1 - f.bias - f.p
/-- Formats whose subnormals .ftz flushes (R52). -/
def Fmt.flushes (f : Fmt) : Bool := decide (7 ≤ f.p)

/-- The value of a code: m × 2^e with its sign, an infinity, or a NaN, signalling or quiet. -/
inductive Val where
  | nan (sig : Bool)
  | inf (neg : Bool)
  | fin (neg : Bool) (m : Nat) (e : Int)
  deriving DecidableEq, Repr

/-- The value of a code (R53), a subnormal source read as zero under .ftz (R52). -/
def Fmt.val (f : Fmt) (ftz : Bool) (code : Nat) : Val :=
  let neg := code.testBit (f.p + f.eb)
  let e := code / 2 ^ f.p % 2 ^ f.eb
  let m := code % 2 ^ f.p
  if f.spec == .ieee && e == 2 ^ f.eb - 1 then
    if m = 0 then .inf neg else .nan (!m.testBit (f.p - 1))
  else if f.spec == .oneNan && e == 15 && m == 7 then .nan false
  else if e = 0 then .fin neg (if ftz && f.flushes then 0 else m) f.last
  else .fin neg (2 ^ f.p + m) (e - f.bias - f.p)

/-- Rounding of a quotient part n with the remainder's comparison to one half, and what is left beyond (R51). -/
def roundUp (rnd : Rnd) (neg : Bool) (odd inexact aboveHalf tie : Bool) : Bool :=
  match rnd with
  | .rne => aboveHalf || (tie && odd)
  | .rz => false
  | .rd => neg && inexact
  | .ru => !neg && inexact

/-- m × 2^e brought to a multiple of 2^q: the multiple, and whether it is inexact (R51). -/
def roundAt (rnd : Rnd) (neg : Bool) (m : Nat) (e q : Int) (more : Bool) : Nat × Bool :=
  if q ≤ e then
    let n := m <<< (e - q).toNat
    (n + (if roundUp rnd neg (n.testBit 0) more false false then 1 else 0), more)
  else
    let sh := (q - e).toNat
    let n := m >>> sh
    let r := m - n <<< sh
    let half := 1 <<< (sh - 1)
    let inexact := more || r != 0
    let up := roundUp rnd neg (n.testBit 0) inexact (decide (half < r) || (r == half && more)) (r == half && !more)
    (n + (if up then 1 else 0), inexact)

/-- The exponent of the place a value of m × 2^e is rounded at. -/
def Fmt.place (f : Fmt) (m : Nat) (e : Int) : Int := max f.last (e + Nat.log2 m - f.p)

/-- The fate of a magnitude code that may lie beyond the largest finite, and the flags (R52, R55, R56). -/
def Fmt.finish (f : Fmt) (rnd : Rnd) (sat ftz neg : Bool) (mag : Nat) (inexact : Bool) : Nat × Causes :=
  if f.top < mag then
    let r :=
      match f.spec with
      | .none => f.top
      | .oneNan => if sat then f.top else f.nan
      | .ieee =>
        if sat then f.top
        else match rnd with
          | .rne => f.inf
          | .rz => f.top
          | .rd => if neg then f.inf else f.top
          | .ru => if neg then f.top else f.inf
    (f.signed neg r, causeOVF ||| causeINX)
  else if ftz && f.flushes && decide (0 < mag ∧ mag < 2 ^ f.p) then (f.signed neg 0, causeUNF ||| causeINX)
  else
    (f.signed neg mag,
      if inexact then causeINX ||| (if mag < 2 ^ f.p then causeUNF else 0) else 0)

/-- Rounding of m × 2^e, with something left beyond it when `more` (R51 to R56). -/
def Fmt.round (f : Fmt) (rnd : Rnd) (sat ftz neg : Bool) (m : Nat) (e : Int) (more : Bool) : Nat × Causes :=
  if m = 0 && !more then (f.signed neg 0, 0)
  else
    let q := f.place m e
    let (n, inexact) := roundAt rnd neg m e q more
    f.finish rnd sat ftz neg ((q - f.last).toNat * 2 ^ f.p + n) inexact

/-- An infinite result or source: kept, or replaced by a finite code (R56). -/
def Fmt.roundInf (f : Fmt) (sat neg : Bool) : Nat × Causes :=
  match f.spec with
  | .ieee => if sat then (f.signed neg f.top, causeOVF ||| causeINX) else (f.signed neg f.inf, 0)
  | .oneNan => if sat then (f.signed neg f.top, causeOVF ||| causeINX) else (f.signed neg f.nan, causeINV)
  | .none => (f.signed neg f.top, causeOVF ||| causeINX)

/-- An exact signed sum: s × 2^e. -/
abbrev Exact := Int × Int

def Exact.align (a : Exact) (e : Int) : Int := a.1 * (2 ^ (a.2 - e).toNat : Nat)

def Exact.add (a b : Exact) : Exact :=
  let e := min a.2 b.2
  (Exact.align a e + Exact.align b e, e)

def exactOf (neg : Bool) (m : Nat) (e : Int) : Exact := (if neg then -(m : Int) else m, e)

/-- The rounding of an exact sum whose sign, if it is zero, is given (R51). -/
def Fmt.roundExact (f : Fmt) (rnd : Rnd) (sat ftz zeroNeg : Bool) (x : Exact) : Nat × Causes :=
  if x.1 = 0 then (f.signed zeroNeg 0, 0) else f.round rnd sat ftz (decide (x.1 < 0)) x.1.natAbs x.2 false

/-- The NaN an arithmetic instruction returns for its operands, first in order, quietened (R54). -/
def Fmt.nanOf (f : Fmt) (codes : List Nat) : Option (Nat × Causes) :=
  let isNan (c : Nat) : Bool := match f.val false c with | .nan _ => true | _ => false
  let isSig (c : Nat) : Bool := match f.val false c with | .nan s => s | _ => false
  match codes.find? isNan with
  | some c => some (c ||| 2 ^ (f.p - 1), if codes.any isSig then causeINV else 0)
  | none => none

/-- How a floating result is rounded (R46). -/
structure Rounding where
  rnd : Rnd := .rne
  sat : Bool := false
  ftz : Bool := false
  deriving DecidableEq, Repr

/-- round(a × b + c), or a sum or product as its special case, with the operands' codes in order (R54 to R56, R85). R51 gives the
sign of an exact zero of opposite signs; one whose product and addend have one sign keeps it (log entry 67). -/
def Fmt.fma (f : Fmt) (r : Rounding) (codes : List Nat) (a b c : Val) : Nat × Causes :=
  match f.nanOf codes with
  | some x => x
  | none =>
    let invalid : Nat × Causes := (f.nan, causeINV)
    match a, b, c with
    | .fin na ma ea, .fin nb mb eb, .fin nc mc ec =>
      let np := na != nb
      let zneg := if np == nc then np else r.rnd == .rd
      f.roundExact r.rnd r.sat r.ftz zneg (Exact.add (exactOf np (ma * mb) (ea + eb)) (exactOf nc mc ec))
    | .fin _ _ _, .fin _ _ _, .inf n => f.roundInf r.sat n
    | .inf na, .fin nb mb _, c => if mb = 0 then invalid else infPlus r invalid (na != nb) c
    | .fin na ma _, .inf nb, c => if ma = 0 then invalid else infPlus r invalid (na != nb) c
    | .inf na, .inf nb, c => infPlus r invalid (na != nb) c
    | _, _, _ => invalid
where
  /-- An infinite product plus c. -/
  infPlus (r : Rounding) (invalid : Nat × Causes) (n : Bool) : Val → Nat × Causes
    | .inf m => if m == n then f.roundInf r.sat n else invalid
    | _ => f.roundInf r.sat n

end Sys2Proof.Machine
end

