-- ==== Sys2Proof/Machine/Float.lean ====
section
/-! DEFINITION. Floating-point operations on codes (R57, R58, R60, R66, R85 to R94): each gives the code written and the
exceptions raised. -/

namespace Sys2Proof.Machine

def Fmt.one (f : Fmt) : Val := f.val false ((f.bias.toNat) * 2 ^ f.p)

def fpFma (f : Fmt) (r : Rounding) (a b c : Nat) : Nat × Causes :=
  f.fma r [a, b, c] (f.val r.ftz a) (f.val r.ftz b) (f.val r.ftz c)

/-- a + b as a × 1 + b. -/
def fpAdd (f : Fmt) (r : Rounding) (a b : Nat) : Nat × Causes :=
  f.fma r [a, b] (f.val r.ftz a) f.one (f.val r.ftz b)

def Val.neg : Val → Val
  | .nan s => .nan s
  | .inf n => .inf (!n)
  | .fin n m e => .fin (!n) m e

def fpSub (f : Fmt) (r : Rounding) (a b : Nat) : Nat × Causes :=
  f.fma r [a, b] (f.val r.ftz a) f.one (f.val r.ftz b).neg

/-- a × b: the zero added takes the product's sign, so a zero product keeps it. -/
def fpMul (f : Fmt) (r : Rounding) (a b : Nat) : Nat × Causes :=
  let x := f.val r.ftz a
  let y := f.val r.ftz b
  let neg := a.testBit (f.p + f.eb) != b.testBit (f.p + f.eb)
  f.fma r [a, b] x y (.fin neg 0 f.last)

/-- The order of two values that are not NaN, with −0 below +0 (R86). -/
def Fmt.key (f : Fmt) (code : Nat) : Int :=
  let mag : Nat := code % 2 ^ (f.p + f.eb)
  if code.testBit (f.p + f.eb) then -(mag : Int) - 1 else mag

def Fmt.flush (f : Fmt) (ftz : Bool) (code : Nat) : Nat :=
  let mag := code % 2 ^ (f.p + f.eb)
  if ftz && f.flushes && decide (mag < 2 ^ f.p) then code - mag else code

/-- FMIN and FMAX (R86). -/
def fpMinMax (f : Fmt) (max ftz : Bool) (a b : Nat) : Nat × Causes :=
  let a := f.flush ftz a
  let b := f.flush ftz b
  match f.val false a, f.val false b with
  | .nan false, .nan false => (f.nanOf [a, b]).getD (a, 0)
  | .nan false, .fin .. | .nan false, .inf _ => (b, 0)
  | .fin .., .nan false | .inf _, .nan false => (a, 0)
  | .nan _, _ | _, .nan _ => (f.nanOf [a, b]).getD (a, 0)
  | _, _ => (if (if max then f.key a < f.key b else f.key b < f.key a) then b else a, 0)

def fpClamp (f : Fmt) (ftz : Bool) (a b c : Nat) : Nat × Causes :=
  let (x, fx) := fpMinMax f true ftz a b
  let (y, fy) := fpMinMax f false ftz x c
  (y, fx ||| fy)

/-- A value rounded to an integer by RND (R85, R91): exact integers stay. -/
def roundInt (rnd : Rnd) (neg : Bool) (m : Nat) (e : Int) : Nat × Bool := roundAt rnd neg m e 0 false

/-- FRND (R85). -/
def fpRnd (r : Rounding) (a : Nat) : Nat × Causes :=
  match fmtF32.nanOf [a] with
  | some x => x
  | none =>
    match fmtF32.val r.ftz a with
    | .fin n m e =>
      if 0 ≤ e then (a, 0)
      else
        let (i, _) := roundInt r.rnd n m e
        ((fmtF32.round .rne false false n i 0 false).1, 0)
    | _ => (a, 0)

/-- FSCL (R85). A scale beyond ±1024 acts as ±1024, which already leaves every finite range. -/
def fpScl (r : Rounding) (a : Nat) (b : Int) : Nat × Causes :=
  match fmtF32.nanOf [a] with
  | some x => x
  | none =>
    match fmtF32.val r.ftz a with
    | .fin n m e => fmtF32.round r.rnd r.sat r.ftz n m (e + max (-1024) (min 1024 b)) false
    | .inf n => fmtF32.roundInf r.sat n
    | .nan _ => (fmtF32.nan, 0)

/-- FFRC (R87). -/
def fpFrc (r : Rounding) (a : Nat) : Nat × Causes :=
  match fmtF32.nanOf [a] with
  | some x => x
  | none =>
    match fmtF32.val r.ftz a with
    | .fin n m e =>
      if 0 ≤ e then (0, 0)
      else
        let unit : Nat := 2 ^ (-e).toNat
        let lowPart := m % unit
        let frac := if n && lowPart != 0 then unit - lowPart else lowPart
        let (c, fl) := fmtF32.round r.rnd false r.ftz false frac e false
        (if c = 0x3F800000 then 0x3F7FFFFF else c, fl)
    | .inf _ => (fmtF32.nan, causeINV)
    | .nan _ => (fmtF32.nan, 0)

/-- FCMP (R88): the relation codes 0 to 5, the NaN codes, and the unordered ones. -/
def relHolds (c : Nat) (lt eq : Bool) : Bool :=
  match c with
  | 0 => eq | 1 => !eq | 2 => lt | 3 => lt || eq | 4 => !(lt || eq) | _ => !lt

def fpCmp (cond : Cond) (ftz : Bool) (a b : Nat) : Bool × Causes :=
  let f := fmtF32
  let fl := match f.nanOf [a, b] with | some (_, x) => x | none => 0
  let nan := (f.nanOf [a, b]).isSome
  let a := f.flush ftz a
  let b := f.flush ftz b
  let zero (c : Nat) : Bool := c % 2 ^ 31 == 0
  let eq := a == b || (zero a && zero b)
  let lt := !eq && decide (f.key a < f.key b)
  let c := cond.code.toNat
  (if c ≤ 5 then !nan && relHolds c lt eq
   else if c = 6 then !nan else if c = 7 then nan else nan || relHolds (c - 8) lt eq, fl)

/-- FCLASS (R89). -/
def fpClass (a : Nat) : Nat :=
  let neg := a.testBit 31
  match fmtF32.val false a with
  | .nan s => if s then 2 ^ 8 else 2 ^ 9
  | .inf n => if n then 2 ^ 0 else 2 ^ 7
  | .fin _ m _ =>
    if m = 0 then (if neg then 2 ^ 3 else 2 ^ 4)
    else if m < 2 ^ 23 then (if neg then 2 ^ 2 else 2 ^ 5)
    else (if neg then 2 ^ 1 else 2 ^ 6)

/-- A NaN code widened to FP32 (R58). -/
def widenNan (f : Fmt) (code : Nat) : Nat :=
  (if code.testBit (f.p + f.eb) then 2 ^ 31 else 0) + 0x7F800000 + (code % 2 ^ f.p) * 2 ^ (23 - f.p)

/-- An FP32 NaN narrowed (R58). -/
def narrowNan (f : Fmt) (code : Nat) : Nat × Causes :=
  let neg := code.testBit 31
  match f.spec with
  | .none => (0, causeINV)
  | .oneNan => (f.signed neg f.nan, 0)
  | .ieee =>
    let m := code % 2 ^ 23 / 2 ^ (23 - f.p)
    (f.signed neg (f.inf + (if m = 0 then 2 ^ (f.p - 1) else m)), 0)

/-- CVT between floating formats (R56, R58). -/
def cvtFloat (df sf : FFmt) (r : Rounding) (code : Nat) : Nat × Causes :=
  let s := fmtOf sf
  let d := fmtOf df
  if df = sf then (s.flush r.ftz code, 0)
  else match s.val r.ftz code with
    | .nan _ => if df = .f32 then (widenNan s code, 0) else narrowNan d (widenNan s code)
    | .inf n => d.roundInf r.sat n
    | .fin n m e => d.round r.rnd r.sat r.ftz n m e false

def clampInt (lo hi x : Int) : Int := min (max x lo) hi

/-- CVT to an integer format (R57). -/
def cvtToInt (df : IFmt) (sf : FFmt) (r : Rounding) (code : Nat) : Int × Causes :=
  match (fmtOf sf).val r.ftz code with
  | .nan _ => (0, causeINV)
  | .inf n => (if n then df.lo else df.hi, causeINV)
  | .fin n m e =>
    let (i, inexact) := if 0 ≤ e then (m <<< e.toNat, false) else roundInt r.rnd n m e
    let x : Int := if n then -(i : Int) else i
    if x < df.lo ∨ df.hi < x then (clampInt df.lo df.hi x, causeINV) else (x, if inexact then causeINX else 0)

/-- CVT from an integer format (R57). -/
def cvtFromInt (df : FFmt) (r : Rounding) (x : Int) : Nat × Causes :=
  (fmtOf df).round r.rnd r.sat r.ftz (decide (x < 0)) x.natAbs 0 false

/-- CVT between integer formats (R57). -/
def cvtIntInt (df : IFmt) (sat : Bool) (x : Int) : Int := if sat then clampInt df.lo df.hi x else x

/-- Stochastic rounding of a magnitude with a word (R60): the magnitude code, and whether it is inexact. -/
def Fmt.roundSr (f : Fmt) (m : Nat) (e : Int) (w : Nat) : Nat × Bool :=
  let q := f.place m e
  let base := min e (q - 32)
  let x := m <<< (e - base).toNat + w <<< (q - 32 - base).toNat
  let sh := (q - base).toNat
  let n := x >>> sh
  ((q - f.last).toNat * 2 ^ f.p + n, decide (n <<< sh ≠ m <<< (e - base).toNat))

/-- CVT.sr (R60, R92). -/
def cvtStochastic (df : FFmt) (r : Rounding) (code w : Nat) : Nat × Causes :=
  let d := fmtOf df
  match fmtF32.val r.ftz code with
  | .fin n m e =>
    if m = 0 then (d.signed n 0, 0)
    else let (mag, inexact) := d.roundSr m e w
      d.finish .rne r.sat r.ftz n mag inexact
  | _ => cvtFloat df .f32 r code

/-- The exact product sum of element values with an accumulator (R66, R67): NaNs, infinities, then one rounding; `zneg` is the
sign of an exact zero. -/
def sumWith (zneg : Bool) (r : Rounding) (acc : Nat) (elems : List (Val × Val)) (nans : List Nat) : Nat × Causes :=
  let c := fmtF32.val r.ftz acc
  match fmtF32.nanOf (nans ++ [acc]) with
  | some x => x
  | none =>
    let bad := elems.any fun p => match p with
      | (.inf _, .fin _ m _) => m == 0
      | (.fin _ m _, .inf _) => m == 0
      | _ => false
    let infs := elems.filterMap fun p => match p with
      | (.inf a, .inf b) => some (a != b)
      | (.inf a, .fin b _ _) => some (a != b)
      | (.fin a _ _, .inf b) => some (a != b)
      | _ => none
    let infs := match c with | .inf n => infs ++ [n] | _ => infs
    if bad || (infs.contains true && infs.contains false) then (fmtF32.nan, causeINV)
    else if infs.contains true then fmtF32.roundInf r.sat true
    else if infs.contains false then fmtF32.roundInf r.sat false
    else
      let term (p : Val × Val) : Exact := match p with
        | (.fin a m e, .fin b n g) => exactOf (a != b) (m * n) (e + g)
        | _ => (0, 0)
      let cx : Exact := match c with
        | .fin n m e => exactOf n m e
        | _ => (0, 0)
      fmtF32.roundExact r.rnd r.sat r.ftz zneg ((elems.map term).foldl Exact.add cx)

/-- The sign of an exact zero sum of products and an accumulator: theirs where it is one and the same, a product's being that of
its elements' signs; otherwise that of R51. R66 does not say what a −0 accumulator with zero products gives. Log entry 67. -/
def dotZero (r : Rounding) (acc : Nat) (elems : List (Val × Val)) : Bool :=
  let cn := match fmtF32.val r.ftz acc with
    | .fin n _ _ => n
    | _ => false
  let negs := elems.map fun p => match p with
    | (.fin a _ _, .fin b _ _) => a != b
    | _ => false
  if negs.all (· == cn) then cn else r.rnd == .rd

/-- The product sum of a dot product (R66). -/
def sumProducts (r : Rounding) (acc : Nat) (elems : List (Val × Val)) (nans : List Nat) : Nat × Causes :=
  sumWith (dotZero r acc elems) r acc elems nans

/-- The product sum of a segment of MMA.q (R67, R243). A product that is zero adds +0 to the accumulator; products that are not and
whose sum is zero are operands of opposite signs (R51). -/
def sumSegment (rnd : Rnd) (acc : Nat) (elems : List (Val × Val)) : Nat × Causes :=
  let cancel := elems.any fun p => match p with
    | (.fin _ a _, .fin _ b _) => a != 0 && b != 0
    | _ => false
  let zneg := match fmtF32.val false acc with
    | .fin n 0 _ => (n || cancel) && rnd == .rd
    | _ => rnd == .rd
  sumWith zneg ⟨rnd, false, false⟩ acc elems []

/-- The two element values of a Q4X byte, even slot first (R61). -/
def q4xByte (b : Nat) : Int × Int :=
  let lo := b % 16
  let hi := b / 16 % 16
  let sm (n : Nat) : Int := if n.testBit 3 then -((n % 8 : Nat) : Int) else (n % 8 : Nat)
  let outlier (n : Nat) : Int := let v : Int := (2 ^ (3 + n % 8) : Nat); if n.testBit 3 then -v else v
  if lo = 8 then (outlier hi, 0)
  else if hi = 8 then (0, outlier lo)
  else (sm lo, sm hi)

def valOfInt (x : Int) : Val := .fin (decide (x < 0)) x.natAbs 0

/-- Element i of a packed word or run in a floating format of 16, 8 or 4 bits, or Q4X or INT8 (R61, R94, R239). -/
def elementOf (ty : Ty) (bits : Nat) (i : Nat) : Val :=
  match ty with
  | .bf16 => fmtBF16.val false (bits / 2 ^ (16 * i) % 2 ^ 16)
  | .f16 => fmtF16.val false (bits / 2 ^ (16 * i) % 2 ^ 16)
  | .e4m3 => fmtE4M3.val false (bits / 2 ^ (8 * i) % 256)
  | .e5m2 => fmtE5M2.val false (bits / 2 ^ (8 * i) % 256)
  | .e2m1 => fmtE2M1.val false (bits / 2 ^ (4 * i) % 16)
  | .q4x =>
    let (x, y) := q4xByte (bits / 2 ^ (8 * (i / 2)) % 256)
    valOfInt (if i % 2 = 0 then x else y)
  | _ => valOfInt (IFmt.read .i8 (bits / 2 ^ (8 * i)))

/-- The code of a NaN element widened to FP32; none for another element. -/
def elementNan (ty : Ty) (bits i : Nat) : Option Nat :=
  let code (f : Fmt) (w : Nat) : Option Nat :=
    let c := bits / 2 ^ (w * i) % 2 ^ w
    match f.val false c with
    | .nan _ => some (widenNan f c)
    | _ => none
  match ty with
  | .bf16 => code fmtBF16 16
  | .f16 => code fmtF16 16
  | .e4m3 => code fmtE4M3 8
  | .e5m2 => code fmtE5M2 8
  | _ => none

/-- The packed dot products (R66, R94): n elements of a type in two words, and the accumulator. NaN operands are taken
in A, B, C order (R54), and within a packed operand the lowest element first. Log entry 68. -/
def dotProduct (ty : Ty) (n : Nat) (r : Rounding) (a b c : Nat) : Nat × Causes :=
  let ix := List.range n
  let nans := (ix.filterMap (elementNan ty a)) ++ (ix.filterMap (elementNan ty b))
  sumProducts r c (ix.map fun i => (elementOf ty a i, elementOf ty b i)) nans

/-- FP32 sum and product used by engines, atomics and draws: .rne, subnormals kept, no exceptions kept. -/
def addF32 (a b : Nat) : Nat := (fpAdd fmtF32 {} a b).1
def subF32 (a b : Nat) : Nat := (fpSub fmtF32 {} a b).1
def mulF32 (a b : Nat) : Nat := (fpMul fmtF32 {} a b).1
def fmaF32 (a b c : Nat) : Nat := (fpFma fmtF32 {} a b c).1

end Sys2Proof.Machine
end

