-- ==== Sys2Proof/Config.lean ====
section
/-! DEFINITION. What an implementation fixes and the spec does not give: fused values, the device key's seed, the array
versions of cores, where blocks' shared memory lies. Each is a constant without a body, so nothing can be proved from a value of
it. -/

namespace Sys2Proof.Config

/-- The seed of the device identity key, which is made inside the system die and never leaves it (R345). -/
opaque deviceSeed : BitVec 256

/-- The random bytes that the n-th report is signed with. -/
opaque signRandom : Nat → BitVec 256

/-- The device identity certificate (R345). -/
opaque identityCert : List Byte

/-- The digest of the vendor's key block fused into the system die (R344). -/
opaque fusedKeyDigest : List Byte

/-- The minimum security version number fused at manufacture (R344). -/
opaque fusedSvn : Nat

/-- The minimum security version number and the root ports that a signed policy's body gives (R344, R346). -/
opaque policySvn : List Byte → Nat
opaque policyRootPorts : List Byte → List Nat

/-- The records the trace ring holds (R351). -/
opaque traceRing : Nat

/-- Where a block's shared memory begins in the 512 KiB of its core (R266), by block. -/
opaque shBase : Nat → Nat

/-- A save image's length in 256-byte units and its sections, which are opaque (R300), by image. -/
opaque imageLen : Nat → BitVec 32
opaque imageSections : Nat → BitVec 16

/-- The array version of a core (R300, R301), by device core number. -/
opaque arrayVersion : Nat → Byte

end Sys2Proof.Config
end

