-- ==== Sys2Proof/Machine/Sparse.lean ====
section
/-! DEFINITION. Sparse maps by number, in one canonical form: keys strictly rising and no entry equal to what an
unlisted key reads as. Memory is one of them. -/

namespace Sys2Proof.Machine

/-- A map from numbers; an unlisted key reads as the map's default. -/
abbrev Sparse (β : Type) := List (Nat × β)

/-- What a key holds. -/
def Sparse.get {β : Type} (d : β) : Sparse β → Nat → β
  | [], _ => d
  | (a, x) :: rest, n => if a = n then x else Sparse.get d rest n

/-- An entry put in its place. -/
def Sparse.insert {β : Type} (n : Nat) (x : β) : Sparse β → Sparse β
  | [] => [(n, x)]
  | (a, y) :: rest =>
    if n < a then (n, x) :: (a, y) :: rest
    else if a = n then (n, x) :: rest
    else (a, y) :: Sparse.insert n x rest

/-- A key given a value; the default value removes the entry. -/
def Sparse.put {β : Type} [DecidableEq β] (d : β) (m : Sparse β) (n : Nat) (x : β) : Sparse β :=
  if x = d then m.filter fun e => e.1 ≠ n else Sparse.insert n x m

/-- Every entry is above the bound and above the one before it, and none holds the default. -/
def Sparse.wfFrom {β : Type} [DecidableEq β] (d : β) : Option Nat → Sparse β → Bool
  | _, [] => true
  | b, (a, x) :: rest =>
    (match b with
      | none => true
      | some n => decide (n < a)) && decide (x ≠ d) && Sparse.wfFrom d (some a) rest

/-- The canonical form. -/
def Sparse.wf {β : Type} [DecidableEq β] (d : β) (m : Sparse β) : Bool := Sparse.wfFrom d none m

/-- Memory: bytes by address. -/
abbrev Memory := List Host.Cell

/-- What a byte that nothing has written reads as. Log entry 8; R173 for .sh, .sc and spill areas. -/
abbrev Memory.unlisted : Byte := 0

abbrev Memory.wf (m : Memory) : Bool := Sparse.wf Memory.unlisted m

def Memory.read (m : Memory) (a : Nat) : Byte := Sparse.get Memory.unlisted m a
def Memory.write (m : Memory) (a : Nat) (b : Byte) : Memory := Sparse.put Memory.unlisted m a b

/-- n bytes from an address, little-endian (R5). -/
def Memory.readN (m : Memory) (a : Nat) : Nat → Nat
  | 0 => 0
  | n + 1 => (m.read a).toNat + 256 * Memory.readN m (a + 1) n

/-- n bytes of a number stored from an address, little-endian (R5). -/
def Memory.writeN (m : Memory) (a : Nat) : Nat → Nat → Memory
  | 0, _ => m
  | n + 1, x => Memory.writeN (m.write a (BitVec.ofNat 8 x)) (a + 1) n (x / 256)

/-- The bytes of a list stored from an address. -/
def Memory.writeList (m : Memory) (a : Nat) : List Byte → Memory
  | [] => m
  | b :: rest => Memory.writeList (m.write a b) (a + 1) rest

/-- n bytes from an address as a list. -/
def Memory.readList (m : Memory) (a n : Nat) : List Byte := (List.range n).map fun i => m.read (a + i)

end Sys2Proof.Machine
end

