-- ==== Sys2Proof/Machine/State.lean ====
section
/-! DEFINITION. The state of one module, as plain data, and the state after module reset. -/

namespace Sys2Proof.Machine

/-- A record of a precise trap (R286): cause and detail by the codes of R285, and the TRAP operand (R288). -/
structure TrapRec where
  cause  : BitVec 8
  detail : BitVec 16
  lanes  : Mask
  amask  : Mask
  pc     : VA
  resume : VA
  oper   : Word
  deriving DecidableEq, Repr

/-- An entry of the control stack (R24): kind 1 return, 2 join, 3 break. -/
structure Ctl where
  kind : BitVec 8
  mask : Mask
  addr : VA
  deriving DecidableEq, Repr

/-- Vector registers by 32 r + t, scalar registers by number, with their empty marks (R12, R19). -/
structure Regs where
  v  : Sparse Word
  ve : Sparse Bool
  s  : Sparse Word
  se : Sparse Bool
  k  : Sparse Word
  deriving DecidableEq, Repr

/-- A tagged request of a group (R357, R358): what is known at its first issue, whether it has taken effect, whether a hod, a
scratchpad bank and a die link took part, when its last byte came, and its record once complete. -/
structure Smpl where
  lane   : Nat
  opc    : BitVec 8
  space  : BitVec 2
  parked : Bool
  hod    : Bool
  bank   : Bool
  link   : Bool
  addr   : Word
  pc     : VA
  first  : Nat
  issued : Bool
  finish : Option Nat
  record : Option (List Word)
  deriving DecidableEq, Repr

/-- A resident group (R12, R127 to R133, R287). -/
structure Group where
  gid     : Nat
  bid     : Nat
  spawned : Bool
  num     : Nat
  member  : Nat
  core    : Nat
  slice   : Nat
  pos     : Nat
  depth   : Nat
  exist   : Mask
  fin     : Mask
  pc      : VA
  amask   : Mask
  regs    : Regs
  other   : Regs
  d       : Sparse DWord
  qk      : Sparse DWord
  qp      : Sparse DWord
  spill   : Memory
  stack   : List Ctl
  handler : Option TrapRec
  entryDepth : Nat
  queue   : List TrapRec
  qstat   : Sparse Word
  mstat   : Word
  mloss   : Word
  fpstat  : Word
  energy  : DWord
  crit    : Nat
  critSeq : Nat
  reserve : Option Nat
  batch   : Nat
  delay   : Option Nat
  parked  : List TileRef
  dbgStop   : Option VA
  stay    : Bool
  stayAt  : Nat
  stayDone : Bool
  reissue : Bool
  tmap    : Option TileRef
  evicts  : Option TileRef
  gdesc   : Option (Nat × Option (List Byte))
  rejHeld : Option Memory
  waiting : Option Nat
  counted : Nat
  smpl    : Option Smpl
  deriving DecidableEq, Repr

/-- An accumulator tile (R12, R236, R249): elements by 64 i + j, empty mark, status record. -/
structure Tile where
  elems  : Sparse Word
  empty  : Bool
  status : Word
  deriving DecidableEq, Repr

/-- What a block is doing about a pre-emption (R299). -/
inductive Phase where
  | running
  | draining (deadline : Nat)
  | saving
  deriving DecidableEq, Repr

/-- A placed block (R127, R130, R135, R147, R216, R299). `arrived` holds the groups at the block barrier with their arrival
cycles, `passed` those it has let go with the cycle from which they retire. -/
structure Block where
  bid    : Nat
  ctx    : Nat
  grid   : Nat
  idx    : Nat
  core   : Nat
  places : List Nat
  nthr   : Nat
  shmem  : Nat
  sh     : Memory
  ntile  : Nat
  tiles  : List Tile
  idem   : Bool
  expcnt : Nat
  retcnt : Nat
  carryE : DWord
  carryN : Nat
  energy : DWord
  fused  : List Bool
  arrived : List (Nat × Nat)
  passed : List (Nat × Nat)
  phase  : Phase
  deriving DecidableEq, Repr

/-- A run of a block that was discarded (R299): the block's name, which its next run takes again, its index in the grid, what the
runs so far pass to its energy record (R356), and its core. -/
structure Again where
  bid    : Nat
  idx    : Nat
  energy : DWord
  count  : Nat
  core   : Nat
  deriving DecidableEq, Repr

/-- A grid (R127, R148, R166, R350); `num` is its number in the context. -/
structure Grid where
  gid    : Nat
  ctx    : Nat
  num    : Word
  entry  : VA
  gx     : Nat
  gy     : Nat
  gz     : Nat
  nthr   : Nat
  shmem  : Nat
  ntile  : Nat
  expcnt : Nat
  idem   : Bool
  params : List Word
  depth  : Nat
  cores  : List Nat
  ptr    : Nat
  next   : Nat
  again  : List Again
  retired : Nat
  parent : Option Nat
  proc   : Word
  thread : Word
  deriving DecidableEq, Repr

/-- A context (R167, R188, R274, R283, R297, R302, R310, R315, R351, R357). -/
structure Ctx where
  no     : Nat
  dies   : List Nat
  slot   : Nat
  ctl    : Control
  ptRoot : Nat
  scBase : Nat
  scSize : Nat
  frames : Nat
  quota  : Nat
  logCap : Nat
  log    : List (BitVec 512)
  drop   : Nat
  gridCtr : Word
  comms  : List Comm
  breaks : List VA
  kinds  : Byte
  smplN  : Nat
  smplCtr : Sparse Nat
  skip   : Sparse Bool
  steps  : Sparse Word
  collSeq : Sparse Nat
  deriving DecidableEq, Repr

/-- A register write of a result in flight. -/
structure RegW where
  vec : Bool
  reg : Nat
  thr : Nat
  val : Word
  deriving DecidableEq, Repr

/-- Long-latency producers (R19) by the event that writes them. -/
inductive ResultKind where
  | mem | sfu | rej | mld | smpl | coll
  deriving DecidableEq, Repr

/-- A result in flight (R18, R19, R117, R118): the registers it fills, in which bank, the stream positions and
status bits it commits, the floating causes it raises by thread, and the tile it fills. -/
structure Result where
  rid    : Nat
  gid    : Nat
  kind   : ResultKind
  writes : List RegW
  bank   : Bool
  slots  : List (Nat × DWord)
  words  : Nat
  qstat  : List (Nat × Word)
  causes : List (Nat × BitVec 5)
  pc     : VA
  tile   : Option (Nat × Nat × Sparse Word)
  tagged : Bool
  deriving DecidableEq, Repr

/-- Operations on memory (R187, R210). -/
inductive MemOp where
  | st | add | min | max | and | or | xor
  deriving DecidableEq, Repr

/-- A write of .sc performed at its core and not yet at the die (R227, R229). `past` are the groups whose next access it
happens before (R224), its own first; `freed` when one of them has released since; `sync` when an atomic operation at .die or wider
made it (R225). Log entry 34. -/
structure ScWrite where
  wid   : Nat
  gid   : Nat
  bid   : Nat
  past  : List Nat
  freed : Bool
  sync  : Bool
  core  : Nat
  die   : Nat
  addr  : Nat
  width : Nat
  op    : MemOp
  ty    : At
  val   : DWord
  deriving DecidableEq, Repr

/-- An entry of a hod (R187): an element of 4 or 8 bytes, or a chunk of 4-byte elements. -/
structure HodEntry where
  off   : Nat
  len   : Nat
  chunk : Bool
  op    : MemOp
  ty    : At
  data  : List Byte
  deriving DecidableEq, Repr

/-- The entries of one operation on their way to the log controller, one accepted after the other (R189); `begun` once the
first has been; `sync` when an atomic operation at .die or wider made them (R225); `tagged` counts the leading ones that belong to
the group's tagged request (R357). -/
structure Append where
  aid    : Nat
  gid    : Nat
  bid    : Nat
  core   : Nat
  tile   : TileRef
  entries : List HodEntry
  begun  : Bool
  cid    : Option Nat
  did    : Option Nat
  sync   : Bool
  tagged : Nat
  deriving DecidableEq, Repr

/-- The states of a window tile (R183). -/
inductive TileState where
  | absent | arriving | resident
  deriving DecidableEq, Repr

/-- A tile of a window (R181 to R187): its hod, its bytes and dirty marks while resident, who holds it, when it was last
accessed, for an absent tile since when a fetch waits to start, and for a fetch the core that asked for it, the page that its
start translated to and whether its fill stands in a fault buffer. -/
structure WTile where
  st    : TileState
  hod   : List HodEntry
  data  : Memory
  dirty : Sparse Bool
  held  : List Nat
  used  : Nat
  wanted : Option Nat
  pa    : Nat
  attr  : Nat
  fault : Bool
  core  : Nat
  deriving DecidableEq, Repr

/-- A mapped window (R181, R197). -/
structure Window where
  die  : Nat
  ctx  : Nat
  win  : Nat
  base : Nat
  len  : Nat
  closing : Bool
  tiles : Sparse WTile
  deriving DecidableEq, Repr

/-- A write-back on its way to main memory (R184), or parked on a fault (R179). -/
structure WriteBack where
  wid   : Nat
  tile  : TileRef
  va    : Nat
  bytes : List (Nat × Byte)
  core  : Nat
  parked : Bool
  deriving DecidableEq, Repr

/-- What waits in a fault buffer (R178): a tile fetch, or a job. -/
inductive Faulted where
  | fetch (t : TileRef)
  | job (cid : Nat)
  deriving DecidableEq, Repr

/-- An entry of a core's fault buffer (R178). -/
structure FaultEntry where
  fid  : Nat
  core : Nat
  ctx  : Nat
  va   : Nat
  who  : Faulted
  deriving DecidableEq, Repr

/-- A parked engine store or write-back (R179); `fault` while its own translation has faulted, not only one ahead of it, and service of
that is awaited. -/
structure Replay where
  pid  : Nat
  core : Nat
  ctx  : Nat
  va   : Nat
  bytes : List Byte
  copy : Bool
  wb   : Option Nat
  cid  : Option Nat
  fault : Bool
  deriving DecidableEq, Repr

/-- An operation of the churn (R237, R243 to R249), with what it will write; `mid` once it has been frozen while running
(R256), `dur` then being the cycles it has left. -/
structure ChurnOp where
  gid   : Nat
  bid   : Nat
  core  : Nat
  tile  : Nat
  early : Nat
  dur   : Nat
  elems : Sparse Word
  status : Word
  mstat : Word
  mloss : Option Word
  mid   : Bool
  deriving DecidableEq, Repr

/-- The space of a drain or an engine operand: .sh, .sc, main memory, a window (R266). -/
inductive Place where
  | sh | sc | mem | win
  deriving DecidableEq, Repr

/-- A drain in a drain port (R252 to R255); `parts` are what it has still to write, as address and data. `tagged` when its group's
tagged request is its MDRAIN (R357). -/
structure Drain where
  did   : Nat
  gid   : Nat
  core  : Nat
  bid   : Nat
  ctx   : Nat
  place : Place
  parts : List (Nat × List Byte)
  add   : Bool
  ty    : Ty
  sat   : Bool
  tagged : Bool
  deriving DecidableEq, Repr

/-- A footprint region (R266). -/
structure Region where
  place : Place
  rd    : Bool
  wr    : Bool
  len   : Nat
  base  : Nat
  deriving DecidableEq, Repr

/-- An engine address (R259). -/
structure EAddr where
  place : Place
  addr  : Nat
  deriving DecidableEq, Repr

/-- What a job does (R261, R262, R274, R275, R313). -/
inductive Job where
  | copy (dst src : EAddr) (n : Nat)
  | fill (dst : EAddr) (pat : Word) (n : Nat)
  | copy2d (dst src : EAddr) (rows rowb dstr sstr : Nat)
  | rows (scatter : Bool) (dst src ix : EAddr) (nidx nrows rowb : Nat) (bar : Option EAddr)
  | upd (adamw : Bool) (words : List Word)
  | updstep
  | skpset (flag : Bool)
  | coll (opc : BitVec 8) (var comm seq : Nat) (dst : EAddr) (src : Option EAddr) (count root : Nat)
  deriving DecidableEq, Repr

/-- What a job does after its reads: a write, an arrival on a barrier word (R263), an IDXR record (R262). -/
inductive JobItem where
  | write (a : EAddr) (bytes : List Byte)
  | arrive (a : EAddr)
  | idxr (p : Nat)
  deriving DecidableEq, Repr

/-- A running job: the element that an update is at (R276), its index vector, the ranges still to read, the bytes read so far,
and once all are read what it has still to do. -/
structure JobRun where
  elem  : Nat
  idx   : List Nat
  reads : List (EAddr × Nat)
  got   : List Byte
  out   : Option (List JobItem)
  deriving DecidableEq, Repr

/-- A joined name without its group part (R350). -/
structure Name where
  proc   : Nat
  thread : Nat
  ctx    : Nat
  grid   : Nat
  block  : Nat
  deriving DecidableEq, Repr

/-- A job card (R257, R266 to R271) with its poster's name (R350); what its STATE field says follows from the rest. -/
structure Card where
  cid    : Nat
  gid    : Nat
  num    : Nat
  ctx    : Nat
  bid    : Nat
  name   : Name
  core   : Nat
  slot   : Nat
  kind   : BitVec 8
  serial : Nat
  regs   : List Region
  rflag  : Bool
  wflag  : Bool
  rcnt   : Bool
  wcnt   : Bool
  job    : Job
  run    : Option JobRun
  deriving DecidableEq, Repr

/-- The contribution of a register form to a collective operation (R315, R318, R319), with its poster's name (R350) and the
result it is to fill. -/
structure Contrib where
  ctx   : Nat
  die   : Nat
  comm  : Nat
  seq   : Nat
  rank  : RankData
  num   : Nat
  name  : Name
  rid   : Nat
  deriving DecidableEq, Repr

/-- An item of a spawn queue (R142). -/
structure Item where
  pc   : VA
  arg  : DWord
  bid  : Nat
  depth : Nat
  deriving DecidableEq, Repr

/-- An open or sealed spawned group (R143). -/
structure OpenGroup where
  oid   : Nat
  core  : Nat
  pc    : VA
  bid   : Nat
  depth : Nat
  args  : List DWord
  since : Nat
  deriving DecidableEq, Repr

/-- A pre-emption request on one core (R134, R299). -/
structure PreReq where
  ctx  : Nat
  core : Nat
  at_  : Nat
  critx : Bool
  deriving DecidableEq, Repr

/-- The header of a save image (R300). -/
structure ImgHead where
  vmaj   : Nat
  vmin   : Nat
  kind   : Nat
  midmma : Bool
  idem  : Bool
  arrv  : Byte
  ndie  : Nat
  scsz  : Nat
  nsl   : Nat
  ntile : Nat
  ctx   : Nat
  grid  : Nat
  block : Nat
  retcnt : Nat
  expcnt : Nat
  shmem : Nat
  len   : Nat
  nsec  : Nat
  deriving DecidableEq, Repr

/-- A save image (R300): its header, the block and its groups as they stand, its churn operations with a frozen one first,
and its spawned work. -/
structure SaveImage where
  head   : ImgHead
  block  : Block
  groups : List Group
  ops    : List ChurnOp
  items  : List Item
  opens  : List OpenGroup
  sealeds : List OpenGroup
  deriving DecidableEq, Repr

/-- A switch of a resident pair on a core (R303); `held` while a slice waits for its start (R325). -/
structure Switch where
  core : Nat
  dest : Nat
  at_  : Nat
  critx : Bool
  held : Bool
  deriving DecidableEq, Repr

/-- A time slice across modules (R325, R326). -/
structure Slice where
  x : Nat
  y : Nat
  start : Nat
  modules : List Nat
  ready : List (Nat × Nat)
  deriving DecidableEq, Repr

/-- A partition of compute dies (R294 to R296, R348): its halt, the stop records written, and whether they have been read. -/
structure Part where
  dies   : List Nat
  halted : Option (BitVec 8)
  haltAt : Nat
  origin : StopUnit
  addr   : Nat
  recs   : List (BitVec 512)
  stopped : List StopUnit
  read   : Bool
  deriving DecidableEq, Repr

/-- The boot of the system die (R342, R343): the stage to run next (6 when it has booted), what the outside supplies, in the
safe state the failing stage and unit, the self-test record, and whether DRAM refresh runs (R346). -/
structure Boot where
  stage : Nat
  input : Option BootInput
  safe  : Option (Nat × Nat)
  record : List Nat
  refresh : Bool
  deriving DecidableEq, Repr

/-- The state of a link (R307, R308, R349). -/
structure LinkState where
  link : Link
  up   : Bool
  minor : Nat
  waiting : List (Nat × Bool)
  deriving DecidableEq, Repr

/-- The event counters of a die's cores (R354): the event and context named last for them, the snapshot cycle after which they
count, the cycle up to which counts of cycles are in, and the counts by core. -/
structure Perf where
  die   : Nat
  event : Nat
  ctx   : Option Nat
  since : Nat
  upto  : Nat
  count : Sparse DWord
  deriving DecidableEq, Repr

/-- A snapshot to come (R354): its cycle, the event and context that it names, and the dies of its partition. -/
structure Snap where
  at_   : Nat
  event : Nat
  ctx   : Option Nat
  dies  : List Nat
  deriving DecidableEq, Repr

/-- What a firmware call returns (R347, R354): its status and its values. -/
structure Reply where
  status : Nat
  vals   : List Nat
  recs   : List (BitVec 512)
  deriving DecidableEq, Repr

/-- A place in the walk through the groups of a turn: the group whose quartet or self issues, the places it has used,
and whether a point of re-fusion has been retired in this turn (R136). -/
structure TurnItem where
  gid  : Nat
  used : Nat
  point : Bool
  deriving DecidableEq, Repr

/-- The memory that barrier words lie in, as the turn under way began (R132, R215): the scratchpads, the writes of .sc on their
way to them, and each block's shared memory. -/
structure TurnMem where
  scratch : Memory
  scw   : List ScWrite
  sh    : List (Nat × Memory)
  deriving DecidableEq, Repr

/-- A root port that a policy has enabled (R341, R346): the links it is cut into, and the PCI Express generation it runs at. -/
structure RootPort where
  port  : Nat
  links : Nat
  gen   : Nat
  deriving DecidableEq, Repr

/-- An operation of a communicator in flight over which a link has gone down, and whether it must fail for it (R315). -/
structure Broken where
  ctx  : Nat
  comm : Nat
  seq  : Nat
  must : Bool
  deriving DecidableEq, Repr

/-- The state of the module. `agenda` has the events to come with their cycles, and `fills` the threads in which each next one of the
results to land does so, all of them once it is empty: what the spec leaves open of both stands here as data. Log entries 2, 60. -/
structure State where
  cycle  : Nat
  now    : Nat
  fabricTime : DWord
  turn   : List TurnItem
  began  : TurnMem
  splits : List (Nat × Nat)
  refuse : List (Nat × Nat)
  agenda : List (Nat × Instr)
  fills  : List Mask
  nextId : Nat
  boot   : Boot
  dev    : Word
  gatedDies : List Nat
  gatedClusters : List Nat
  gatings : List (Nat × Nat)
  links  : List LinkState
  linkLog : List Link
  broken : List Broken
  rootPorts : List RootPort
  svnRaised : Nat
  measured : List (List Byte)
  weights : List Byte
  perfs  : List Perf
  snaps  : List Snap
  trace  : Sparse (List (BitVec 512))
  loss   : Sparse Nat
  ring   : List (BitVec 512)
  lastCtx : Sparse Nat
  replies : List Reply
  mctp   : List (List Nat)
  reports : List (List Byte)
  slice  : Option Slice
  parts  : List Part
  ctxs   : List Ctx
  active : Sparse Nat
  switches : List Switch
  grids  : List Grid
  blocks : List Block
  groups : List Group
  results : List Result
  scw    : List ScWrite
  appends : List Append
  windows : List Window
  wbacks : List WriteBack
  faults : List FaultEntry
  replay : List Replay
  churn  : List ChurnOp
  churnEnd : Sparse Nat
  frozen : List ChurnOp
  drains : List Drain
  cards  : List Card
  contribs : List Contrib
  spawnQ : List (Nat × Item)
  openG  : List OpenGroup
  sealedG : List OpenGroup
  prereqs : List PreReq
  images : List SaveImage
  dram   : Memory
  scratch : Memory
  deriving DecidableEq, Repr

/-- How a step can stop. -/
inductive Fault where
  /-- Raised when `exec` is given an encoded instruction while no group stands at the head of the turn: there is no issuer
  whose state the instruction could act on. `step` never does so. Safe: a claim about issue has an issuer. -/
  | noIssuer
  deriving DecidableEq, Repr

/-- How a step can be refused. -/
inductive Refusal where
  /-- Raised by an arm of `exec` that has no meaning yet, with the instruction's name. Safe. -/
  | notModelled (mnemonic : String)
  deriving DecidableEq, Repr

abbrev Regs.init : Regs := ⟨[], [], [], [], []⟩

/-- A control block with the reset values of R283. -/
def controlReset : Control :=
  { defer := 0x0001E848, draint := 0, drainw := 0x000030D4, rstt := 0, wdlim := 0x07735940, grace := 0x0003D090,
    dbg := false, split := 0, fpctl := 0, hentry := 0 }

/-- The links of the module (R307, R308). -/
def allLinks : List Link :=
  [.die 0 1, .die 0 2, .die 0 3, .die 1 2, .die 1 3, .die 2 3, .sd 0, .sd 1, .sd 2, .sd 3] ++ (List.range 18).map fun n => .port n

/-- The module right after reset (R342): boot is to begin, nothing is resident, memory lists nothing. Values the spec does
not give are named in log entries 1 to 8. -/
def State.reset : State :=
  { cycle := 0, now := 0, fabricTime := 0, turn := [], began := ⟨[], [], []⟩, splits := [], refuse := [], agenda := [], fills := [],
    nextId := 0,
    boot := ⟨1, none, none, [], false⟩, dev := 0, gatedDies := [0, 1, 2, 3], gatedClusters := [], gatings := [],
    links := allLinks.map fun l => ⟨l, false, 0, []⟩, linkLog := [], broken := [], rootPorts := [], svnRaised := 0,
    measured := [], weights := List.replicate 9 0,
    perfs := [], snaps := [], trace := [], loss := [], ring := [], lastCtx := [], replies := [], mctp := [],
    reports := [], slice := none, parts := [], ctxs := [], active := [], switches := [], grids := [], blocks := [],
    groups := [], results := [], scw := [], appends := [], windows := [], wbacks := [], faults := [], replay := [],
    churn := [], churnEnd := [], frozen := [], drains := [], cards := [], contribs := [], spawnQ := [], openG := [],
    sealedG := [], prereqs := [], images := [], dram := [], scratch := [] }

end Sys2Proof.Machine
end

