-- ==== Sys2Proof/Machine/Ops.lean ====
section
/-! DEFINITION. Named operations over the state: finding and replacing what it holds, registers and their banks, masks,
records and counters, taking a trap and returning from one, halting a partition, spaces and translation. -/

namespace Sys2Proof.Machine

/-! Finding and replacing -/

/-- The first element a test accepts replaced. -/
def replaceBy {α : Type} (p : α → Bool) (x : α) : List α → List α
  | [] => []
  | y :: rest => if p y then x :: rest else y :: replaceBy p x rest

def State.group? (s : State) (gid : Nat) : Option Group := s.groups.find? fun g => g.gid == gid
def State.block? (s : State) (bid : Nat) : Option Block := s.blocks.find? fun b => b.bid == bid
def State.ctx? (s : State) (no : Nat) : Option Ctx := s.ctxs.find? fun c => c.no == no
def State.grid? (s : State) (ctx num : Nat) : Option Grid := s.grids.find? fun g => g.ctx == ctx && g.num.toNat == num
def State.part? (s : State) (die : Nat) : Option Part := s.parts.find? fun p => p.dies.contains die
def State.window? (s : State) (die ctx win : Nat) : Option Window :=
  s.windows.find? fun w => w.die == die && w.ctx == ctx && w.win == win

def State.setGroup (s : State) (g : Group) : State := { s with groups := replaceBy (fun x => x.gid == g.gid) g s.groups }
def State.setBlock (s : State) (b : Block) : State := { s with blocks := replaceBy (fun x => x.bid == b.bid) b s.blocks }
def State.setCtx (s : State) (c : Ctx) : State := { s with ctxs := replaceBy (fun x => x.no == c.no) c s.ctxs }
def State.setGrid (s : State) (g : Grid) : State := { s with grids := replaceBy (fun x => x.gid == g.gid) g s.grids }
def State.setPart (s : State) (p : Part) : State := { s with parts := replaceBy (fun x => x.dies == p.dies) p s.parts }
def State.setWindow (s : State) (w : Window) : State :=
  { s with windows := replaceBy (fun x => x.die == w.die && x.ctx == w.ctx && x.win == w.win) w s.windows }
def State.setCard (s : State) (c : Card) : State := { s with cards := replaceBy (fun x => x.cid == c.cid) c s.cards }

/-- A group changed where it stands. -/
def State.modGroup (s : State) (gid : Nat) (f : Group → Group) : State :=
  match s.group? gid with
  | some g => s.setGroup (f g)
  | none => s
def State.modBlock (s : State) (bid : Nat) (f : Block → Block) : State :=
  match s.block? bid with
  | some b => s.setBlock (f b)
  | none => s
def State.modCtx (s : State) (no : Nat) (f : Ctx → Ctx) : State :=
  match s.ctx? no with
  | some c => s.setCtx (f c)
  | none => s

/-- A name never used before. -/
def State.fresh (s : State) : Nat × State := (s.nextId, { s with nextId := s.nextId + 1 })

/-! Masks -/

/-- The threads of a mask in ascending order. -/
def Mask.threads (m : Mask) : List Nat := (List.range 32).filter fun t => m.getLsbD t
def maskBit (t : Nat) : Mask := BitVec.ofNat 32 (2 ^ t)
def Mask.ofList (l : List Nat) : Mask := l.foldl (fun m t => m ||| maskBit t) 0
/-- The number of set bits. -/
def popCount (x n : Nat) : Nat := ((List.range n).filter fun i => x.testBit i).length

/-- The full mask of a group (R128). -/
def Group.full (g : Group) : Mask := g.exist &&& ~~~g.fin
def Group.converged (g : Group) : Bool := g.amask == g.full

/-! Registers (R12, R14, R19, R31) -/

def vKey (r t : Nat) : Nat := 32 * r + t
def Group.vget (g : Group) (r t : Nat) : Word := Sparse.get 0 g.regs.v (vKey r t)
def Group.vset (g : Group) (r t : Nat) (x : Word) : Group :=
  { g with regs := { g.regs with v := Sparse.put 0 g.regs.v (vKey r t) x } }
def Group.vempty (g : Group) (r t : Nat) : Bool := Sparse.get false g.regs.ve (vKey r t)
def Group.vmark (g : Group) (r t : Nat) (e : Bool) : Group :=
  { g with regs := { g.regs with ve := Sparse.put false g.regs.ve (vKey r t) e } }
def Group.sget (g : Group) (r : Nat) : Word := Sparse.get 0 g.regs.s r
def Group.sset (g : Group) (r : Nat) (x : Word) : Group :=
  { g with regs := { g.regs with s := Sparse.put 0 g.regs.s r x } }
def Group.sempty (g : Group) (r : Nat) : Bool := Sparse.get false g.regs.se r
def Group.smark (g : Group) (r : Nat) (e : Bool) : Group :=
  { g with regs := { g.regs with se := Sparse.put false g.regs.se r e } }
/-- k0 reads as all ones and ignores writes (R12). -/
def Group.kget (g : Group) (r : Nat) : Word := if r = 0 then 0xFFFFFFFF else Sparse.get 0 g.regs.k r
def Group.kset (g : Group) (r : Nat) (x : Word) : Group :=
  if r = 0 then g else { g with regs := { g.regs with k := Sparse.put 0 g.regs.k r x } }
def Group.dget (g : Group) (r : Nat) : DWord := Sparse.get 0 g.d r
def Group.qpos (g : Group) (slot t : Nat) : DWord := Sparse.get 0 g.qp (4 * t + slot)
def Group.qkey (g : Group) (slot t : Nat) : DWord := Sparse.get 0 g.qk (4 * t + slot)
def Group.setQpos (g : Group) (slot t : Nat) (x : DWord) : Group := { g with qp := Sparse.put 0 g.qp (4 * t + slot) x }
def Group.setQkey (g : Group) (slot t : Nat) (x : DWord) : Group := { g with qk := Sparse.put 0 g.qk (4 * t + slot) x }

/-- A pair of s registers, low word first (R12, R43). -/
def Group.spair (g : Group) (r : Nat) : DWord := g.sget (r + 1) ++ g.sget r

/-- Whether a register stands in the handler bank (R31): v120 to v127, s56 to s63, k7. -/
def bankedV (key : Nat) : Bool := decide (32 * 120 ≤ key)
def bankedS (r : Nat) : Bool := decide (56 ≤ r)

/-- One bank's registers with the banked ones of another. -/
def mergeBank {β : Type} (banked : Nat → Bool) (keep take : Sparse β) : Sparse β :=
  keep.filter (fun e => !banked e.1) ++ take.filter (fun e => banked e.1)

/-- The two copies of the bank registers exchanged, full marks included (R31). -/
def Group.switchBank (g : Group) : Group :=
  let mix (a b : Regs) : Regs :=
    { v := mergeBank bankedV a.v b.v, ve := mergeBank bankedV a.ve b.ve, s := mergeBank bankedS a.s b.s,
      se := mergeBank bankedS a.se b.se, k := mergeBank (fun r => r == 7) a.k b.k }
  let only (a : Regs) : Regs :=
    { v := a.v.filter fun e => bankedV e.1, ve := a.ve.filter fun e => bankedV e.1, s := a.s.filter fun e => bankedS e.1,
      se := a.se.filter fun e => bankedS e.1, k := a.k.filter fun e => e.1 == 7 }
  { g with regs := mix g.regs g.other, other := only g.regs }

/-- A register write that a result makes, and the mark it clears; `bank` tells which copy of a bank register it was
issued for (R31). -/
def Group.land (g : Group) (bank : Bool) (w : RegW) : Group :=
  let banked := if w.vec then bankedV (vKey w.reg w.thr) else bankedS w.reg
  let put (r : Regs) : Regs :=
    if w.vec then
      { r with v := Sparse.put 0 r.v (vKey w.reg w.thr) w.val, ve := Sparse.put false r.ve (vKey w.reg w.thr) false }
    else { r with s := Sparse.put 0 r.s w.reg w.val, se := Sparse.put false r.se w.reg false }
  if banked && bank != g.handler.isSome then { g with other := put g.other } else { g with regs := put g.regs }

/-! Places in the device (R2, R129) -/

def dieOf (core : Nat) : Nat := core / 160
def clusterOf (core : Nat) : Nat := core / 8
def Group.place (g : Group) : Nat := 4 * g.pos + g.slice / 4
/-- The group slot number (R143). -/
def Group.slot (g : Group) : Nat := 16 * g.pos + g.slice

/-- A compute die that is powered and in no halted partition. -/
def State.dieRuns (s : State) (die : Nat) : Bool :=
  !s.gatedDies.contains die && match s.part? die with | some p => p.halted.isNone | none => true

/-- A core whose die runs and whose cluster is not gated (R353). -/
def State.coreRuns (s : State) (core : Nat) : Bool := s.dieRuns (dieOf core) && !s.gatedClusters.contains (clusterOf core)

/-! Names and records (R296, R297, R350, R351) -/

/-- A record from its fields, highest first: each a width and a value. -/
def record (fields : List (Nat × Nat)) : BitVec 512 :=
  BitVec.ofNat 512 (fields.foldl (fun acc f => acc * 2 ^ f.1 + f.2 % 2 ^ f.1) 0)

def allOnes32 : Nat := 0xFFFFFFFF

/-- A joined name as the fields of a record. -/
def Name.fields (n : Name) : List (Nat × Nat) := [(32, n.proc), (32, n.thread), (32, n.ctx), (32, n.grid), (32, n.block)]

/-- The name of nothing. -/
def noName : Name := ⟨allOnes32, allOnes32, allOnes32, allOnes32, allOnes32⟩

def State.nameOf (s : State) (ctx grid block : Nat) : Name :=
  match s.grid? ctx grid with
  | some g => ⟨g.proc.toNat, g.thread.toNat, ctx, grid, block⟩
  | none => { noName with ctx := ctx, grid := grid, block := block }

/-- The name of a block, resident or saved. -/
def State.blockName (s : State) (bid : Nat) : Name :=
  match s.block? bid with
  | some b => s.nameOf b.ctx b.grid b.idx
  | none =>
    match s.images.find? fun m => m.block.bid == bid with
    | some m => s.nameOf m.block.ctx m.block.grid m.block.idx
    | none => noName

/-- A record of a context's log (R297), dropped and counted when the ring is full. -/
def State.log (s : State) (ctx cause fpc : Nat) (lanes : Mask) (pc : Nat) (name : Name) (group detail : Nat) : State :=
  let r := record ([(8, 1), (8, 0), (8, cause), (8, fpc), (32, lanes.toNat), (64, s.now), (52, pc), (12, 0)] ++ name.fields ++
    [(32, group), (128, detail)])
  s.modCtx ctx fun c => if c.log.length < c.logCap then { c with log := c.log ++ [r] } else { c with drop := c.drop + 1 }

def traceCap : Nat := 1024

/-- Where a record stands among those of its cycle: its core and slice (R352). -/
def traceKey (r : BitVec 512) : Nat := 64 * (r.extractLsb' 478 10).toNat + (r.extractLsb' 464 6).toNat
def traceCycle (r : BitVec 512) : Nat := (r.extractLsb' 400 64).toNat
def traceKind (r : BitVec 512) : Nat := (r.extractLsb' 488 8).toNat

/-- A record put into a buffer, given latest first: behind those of its cycle with a higher core or slice, but never before a
gap record (R352, R353). -/
def insertTrace (r : BitVec 512) : List (BitVec 512) → List (BitVec 512)
  | [] => [r]
  | x :: rest =>
    if traceCycle x = traceCycle r ∧ traceKey r < traceKey x ∧ traceKind x ≠ 8 then x :: insertTrace r rest
    else r :: x :: rest

/-- A record put into a cluster's trace buffer, after the gap record that an earlier loss owes (R352, R353). The buffer keeps the
first in order, so that where a cycle has more records than it has room for, its last ones are lost. -/
def State.putTrace (s : State) (cluster : Nat) (r gap : BitVec 512) : State :=
  let buf := Sparse.get [] s.trace cluster
  let lost := Sparse.get 0 s.loss cluster
  let (buf, lost) := if lost ≠ 0 ∧ buf.length < traceCap then (buf ++ [gap], 0) else (buf, lost)
  let all := (insertTrace r buf.reverse).reverse
  let lost := if all.length ≤ traceCap then lost else min (lost + 1) allOnes32
  { s with trace := Sparse.put [] s.trace cluster (all.take traceCap), loss := Sparse.put 0 s.loss cluster lost }

def traceRecord (s : State) (kind core cluster slice : Nat) (name : Name) (group pc detail : Nat) : BitVec 512 :=
  record ([(8, 1), (8, 0), (8, kind), (10, core), (6, cluster % 20), (2, cluster / 20), (6, slice), (64, s.now)] ++ name.fields ++
    [(32, group), (32, 0), (52, pc), (60, 0), (64, detail)])

def gapRecordOf (s : State) (cluster : Nat) : BitVec 512 :=
  traceRecord s 8 0x3FF cluster 0 noName allOnes32 0 (Sparse.get 0 s.loss cluster)

/-- A traced event (R351): written when the context traces its kind. -/
def State.traceEvent (s : State) (ctx kind core slice : Nat) (coreField : Nat) (name : Name) (group pc detail : Nat) : State :=
  match s.ctx? ctx with
  | some c =>
    if c.kinds.getLsbD (kind - 1) && !s.gatedClusters.contains (clusterOf core) then
      s.putTrace (clusterOf core) (traceRecord s kind coreField (clusterOf core) slice name group pc detail)
        (gapRecordOf s (clusterOf core))
    else s
  | none => s

/-- An event counted at a core (R354), from the cycle after the snapshot that named it on. -/
def State.count (s : State) (core event ctx n : Nat) : State :=
  { s with perfs := s.perfs.map fun p =>
      if p.event == event && p.die == dieOf core && (p.ctx.isNone || p.ctx == some ctx) && decide (p.since < s.now) then
        { p with count := Sparse.put 0 p.count core (Sparse.get 0 p.count core + BitVec.ofNat 64 n) }
      else p }

/-! Halting (R294, R295) -/

def haltMemory : BitVec 8 := 0x01
def haltProtection : BitVec 8 := 0x02
def haltHandler : BitVec 8 := 0x03
def haltQueue : BitVec 8 := 0x04
def haltRestore : BitVec 8 := 0x05
def haltThermal : BitVec 8 := 0x07

/-- A halt of the partition that holds a die, with the unit that found it and the address concerned. A partition already
halted keeps its first cause. -/
def State.halt (s : State) (die : Nat) (cause : BitVec 8) (unit : StopUnit) (addr : Nat) : State :=
  match s.part? die with
  | some p =>
    if p.halted.isSome then s
    else s.setPart { p with halted := some cause, haltAt := s.now, origin := unit, addr := addr }
  | none => s

def sliceUnit (g : Group) : StopUnit := ⟨1, g.core, dieOf g.core, g.slice, 0⟩
def churnUnit (core : Nat) : StopUnit := ⟨2, core, dieOf core, 0, 0⟩
def copyUnit (core : Nat) : StopUnit := ⟨3, core, dieOf core, 0, 0⟩
/-- An update engine, by the first core of its cluster. -/
def updateUnit (core : Nat) : StopUnit := ⟨4, 8 * clusterOf core, dieOf core, 0, 0⟩
def collUnit (die : Nat) : StopUnit := ⟨5, 0x3FF, die, 0, 0⟩
def tileUnit (die : Nat) : StopUnit := ⟨7, 0x3FF, die, 0, 0⟩

/-- A unit's place among those whose last context is kept (R296). -/
def unitKey (u : StopUnit) : Nat :=
  u.unit * 2 ^ 16 + (if u.unit = 1 then 16 * u.core + u.slice else if u.unit ≤ 4 then u.core else u.die)

/-- A unit's operation for a context. -/
def State.ran (s : State) (u : StopUnit) (ctx : Nat) : State :=
  { s with lastCtx := Sparse.put allOnes32 s.lastCtx (unitKey u) ctx }

/-! Traps (R285 to R289) -/

def trapIllegal : BitVec 8 := 0x01
def trapMisframe : BitVec 8 := 0x02
def trapEmpty : BitVec 8 := 0x03
def trapJtbound : BitVec 8 := 0x04
def trapPadtag : BitVec 8 := 0x05
def trapStack : BitVec 8 := 0x06
def trapDepth : BitVec 8 := 0x07
def trapTrap : BitVec 8 := 0x08
def trapBkpt : BitVec 8 := 0x09
def trapFp : BitVec 8 := 0x0A
def trapWdog : BitVec 8 := 0x0B

/-- s registers written, which then are full. -/
def Group.putS (g : Group) (l : List (Nat × Word)) : Group := l.foldl (fun g e => (g.sset e.1 e.2).smark e.1 false) g

/-- What the handler finds in its bank (R288): s56 to s63. -/
def TrapRec.bank (r : TrapRec) (pending : Nat) : List (Nat × Word) :=
  [(56, r.resume.extractLsb' 0 32), (57, (r.resume.extractLsb' 32 20).zeroExtend 32), (58, (r.detail ++ r.cause).zeroExtend 32),
   (59, r.lanes), (60, r.amask), (61, r.oper), (62, r.pc.extractLsb' 2 32), (63, BitVec.ofNat 32 pending)]

/-- Entry to the handler with a record (R288), `pending` records left in the queue. -/
def Group.enter (g : Group) (hentry : VA) (r : TrapRec) (pending : List TrapRec) : Group :=
  { g.switchBank.putS (r.bank pending.length) with
    pc := hentry, handler := some r, entryDepth := g.stack.length, queue := pending, waiting := none, counted := 0,
    stay := false, stayDone := false, reissue := false, tmap := none, evicts := none, gdesc := none, rejHeld := none }

/-- The tag of a request is lost when its instruction traps (R357). -/
def Group.loseTag (g : Group) : Group :=
  match g.smpl with
  | some t => if t.issued then g else { g with smpl := none }
  | none => g

/-- The word that s58 and a trace record of a trap carry. -/
def TrapRec.word (r : TrapRec) : Nat := r.detail.toNat * 256 + r.cause.toNat

/-- Delivery of a record to a group out of its handler (R287, R288): the handler is entered, or with HENTRY zero the
partition halts. -/
def State.deliver (s : State) (g : Group) (r : TrapRec) (pending : List TrapRec) : State :=
  match s.block? g.bid with
  | none => s
  | some b =>
    match s.ctx? b.ctx with
    | none => s
    | some c =>
      if c.ctl.hentry = 0 then s.halt (dieOf g.core) haltHandler (sliceUnit g) r.pc.toNat
      else
        let s := s.setGroup (g.loseTag.enter c.ctl.hentry r pending)
        let s := s.count g.core 0x0B b.ctx 1
        s.traceEvent b.ctx 3 g.core g.slice g.core (s.blockName b.bid) g.num r.pc.toNat r.word

/-- A precise trap of a group (R287): taken at once, or inside the handler a halt. -/
def State.takeTrap (s : State) (g : Group) (r : TrapRec) : State :=
  match g.handler with
  | some _ => s.halt (dieOf g.core) haltHandler (sliceUnit g) r.pc.toNat
  | none => s.deliver g r []

/-- A record that joins the queue (R287): delivered at once out of the handler, a halt when it would be the ninth. -/
def State.queueTrap (s : State) (g : Group) (r : TrapRec) : State :=
  if g.handler.isNone then s.deliver g r []
  else if 8 ≤ g.queue.length then s.halt (dieOf g.core) haltQueue (sliceUnit g) r.pc.toNat
  else s.setGroup { g with queue := g.queue ++ [r] }

/-- Return from the handler (R289): none when it is a fault inside the handler. The queue's first record, if any, is to be
delivered next. -/
def Group.returnFrom (g : Group) : Option Group :=
  let pcr := g.spair 56
  let m := g.sget 60 &&& g.full
  if g.stack.length ≠ g.entryDepth ∨ pcr.extractLsb' 52 12 ≠ 0 ∨ pcr.extractLsb' 0 2 ≠ 0 ∨ m = 0 then none
  else
    let g := g.switchBank
    some { g with amask := m, pc := pcr.extractLsb' 0 52, handler := none }

/-- No handler bank register is empty. -/
def Group.bankFull (g : Group) : Bool := g.regs.ve.all (fun e => !bankedV e.1) && g.regs.se.all fun e => !bankedS e.1

/-! Bytes of main memory (R175, R177) -/

/-- A translation's result (R177). -/
inductive Xlat where
  | fault
  | violation
  | ok (pa : Nat) (attr : Nat)
  deriving DecidableEq, Repr

/-- A malformed entry (R177). A pointer to a table whose ATTR, WR or EX is not zero is walked through. Log entry 69. -/
def pteMalformed (e : Nat) (level : Nat) : Bool :=
  let leaf := e.testBit 58
  let attr := e / 2 ^ 61 % 4
  let addr := e / 2 ^ 8 % 2 ^ 44 * 2 ^ 8
  let size := if leaf then (if level = 1 then 2 ^ 30 else if level = 2 then 2 ^ 21 else 2 ^ 16)
    else (if level ≤ 1 then 2 ^ 12 else 2 ^ 8)
  let span := if leaf then size else (if level = 0 then 8 * 2 ^ 9 else if level = 1 then 8 * 2 ^ 9 else 8 * 2 ^ 5)
  e / 2 ^ 52 % 2 ^ 6 != 0 || e % 2 ^ 8 != 0 || attr == 3 || (leaf && level == 0) ||
    (!leaf && level == 3) || addr % size != 0 || decide (2 ^ 39 < addr + span) ||
    (leaf && attr == 2 && decide (2 ^ 37 ≤ addr))

/-- The walk of the page table (R177) from an entry's address; the level is 4 − fuel. -/
def walk (mem : Memory) (va : Nat) (write copyEngine data : Bool) : Nat → Nat → Xlat
  | 0, _ => .violation
  | n + 1, at_ =>
    let level := 3 - n
    let e := mem.readN at_ 8
    if !e.testBit 63 then .fault
    else if pteMalformed e level then .violation
    else if e.testBit 58 then
      let size := if level = 1 then 2 ^ 30 else if level = 2 then 2 ^ 21 else 2 ^ 16
      let ex := e.testBit 59
      let attr := e / 2 ^ 61 % 4
      if write && !e.testBit 60 then .fault
      else if ex && data then .violation
      else if !ex && !data then .violation
      else if write && attr == 2 && !copyEngine then .violation
      else .ok (e / 2 ^ 8 % 2 ^ 44 * 2 ^ 8 + va % size) attr
    else
      let idx := if level = 0 then va / 2 ^ 30 % 2 ^ 9 else if level = 1 then va / 2 ^ 21 % 2 ^ 9 else va / 2 ^ 16 % 2 ^ 5
      walk mem va write copyEngine data n (e / 2 ^ 8 % 2 ^ 44 * 2 ^ 8 + 8 * idx)

/-- Translation of a data access (R177): reads and writes of a page with EX = 1 are violations. -/
def State.translate (s : State) (c : Ctx) (va : Nat) (write copyEngine : Bool) : Xlat :=
  walk s.dram va write copyEngine true 4 (c.ptRoot + 8 * (va / 2 ^ 39 % 2 ^ 13))

/-- Translation of an instruction fetch: the page must be executable. Log entry 11. -/
def State.fetchXlat (s : State) (c : Ctx) (va : Nat) : Xlat :=
  walk s.dram va false false false 4 (c.ptRoot + 8 * (va / 2 ^ 39 % 2 ^ 13))

/-- The address a die reads at for a translated byte (R180): a REPLICATED page has a copy on each die. -/
def readPa (die : Nat) (pa attr : Nat) : Nat := if attr = 2 then die * 2 ^ 37 + pa % 2 ^ 37 else pa

/-- The addresses a write of a byte reaches (R180). -/
def writePas (dies : List Nat) (pa attr : Nat) : List Nat :=
  if attr = 2 then dies.map fun d => d * 2 ^ 37 + pa % 2 ^ 37 else [pa]

/-! Scratchpads (R174). Offsets of a context's region start at its base. Log entry 12. -/

def scratchKey (c : Ctx) (die off : Nat) : Nat := die * 2 ^ 28 + c.scBase + off

/-! Residency -/

/-- The context a core runs (R303); a core with no entry runs whatever is resident. -/
def State.activeOn (s : State) (core ctx : Nat) : Bool :=
  match s.active.find? (fun e => e.1 == core) with
  | some e => e.2 == ctx
  | none => true

/-- The positions a context owns on each slice (R302), first and one past the last. -/
def Ctx.positions (c : Ctx) : Nat × Nat :=
  let p := c.ctl.split.toNat
  if p = 0 then (0, 4) else if c.slot = 0 then (0, p) else (p, 4)

/-- Removing repeats, the first kept. -/
def nubNat (l : List Nat) : List Nat := l.foldl (fun acc x => if acc.contains x then acc else acc ++ [x]) []

end Sys2Proof.Machine
end

