-- ==== Sys2Proof/Machine/Draws.lean ====
section
/-! DEFINITION. Streams and variates (R109 to R119, R122). -/

namespace Sys2Proof.Machine

def mixConst : DWord := 0xD2B74407B1CE6E93

/-- One round of mix64 (R109). -/
def mixRound (k x : DWord) : DWord :=
  let x := x * mixConst
  let x := x ^^^ (x >>> 31)
  x + k.rotateLeft 17

def mixRounds (k : DWord) : Nat → DWord → DWord
  | 0, x => x
  | n + 1, x => mixRounds k n (mixRound k x)

def mix64 (k x : DWord) : DWord := mixRounds k 4 (x ^^^ k)

/-- The raw word of a key at a position (R109). -/
def rawWord (k p : DWord) : Word := (mix64 k p).extractLsb' 32 32

/-- What an instruction's draws have moved so far: positions by 4 t + slot, status bits by thread, raw words drawn, and whether
a REJ register was drawn from. -/
structure Draw where
  pos   : Sparse DWord
  qstat : List (Nat × Word)
  words : Nat
  rej   : Bool
  deriving DecidableEq, Repr

def Draw.start : Draw := ⟨[], [], 0, false⟩

/-- The fields of a descriptor (R111). -/
def descKind (d : DWord) : Nat := (d.extractLsb' 0 4).toNat
def descSlot (d : DWord) : Nat := (d.extractLsb' 4 2).toNat
def descInt (d : DWord) : Bool := d.getLsbD 6
def descLogn (d : DWord) : Nat := (d.extractLsb' 7 3).toNat
def descBase (d : DWord) : Nat := (d.extractLsb' 32 32).toNat

/-- The position a thread's slot stands at within an instruction. -/
def Draw.at (dr : Draw) (g : Group) (slot t : Nat) : DWord :=
  match dr.pos.find? (fun e => e.1 == 4 * t + slot) with
  | some e => e.2
  | none => g.qpos slot t

/-- A raw draw (R109). -/
def Draw.raw (dr : Draw) (g : Group) (slot t : Nat) : Word × Draw :=
  let p := dr.at g slot t
  (rawWord (g.qkey slot t) p, { dr with pos := Sparse.insert (4 * t + slot) (p + 1) dr.pos, words := dr.words + 1 })

/-- INV (R114): an entry pair of the table at a base, by one raw word. -/
def drawInv (sh : Memory) (base : Nat) (w : Word) : Nat :=
  let i := w.toNat / 2 ^ 24
  let f := w.toNat / 2 ^ 8 % 2 ^ 16
  let y0 := sh.readN (base + 4 * i) 4
  let y1 := sh.readN (base + 4 * (i + 1)) 4
  let dlt := subF32 y1 y0
  let frac := (fmtF32.round .rne false false false f (-16) false).1
  fmaF32 frac dlt y0

/-- ALIAS (R113). -/
def drawAlias (sh : Memory) (base b : Nat) (int : Bool) (w : Word) : Nat :=
  let i := w.toNat / 2 ^ (32 - b)
  let u := w.toNat / 2 ^ (16 - b) % 2 ^ 16
  let e := sh.readN (base + 8 * i) 8
  let j := if u < e % 2 ^ 16 then i else e / 2 ^ 16 % 2 ^ b
  if int then j else sh.readN (base + 8 * j) 8 / 2 ^ 32

/-- REJ (R115): attempts of two words; the 32nd proposal sets REJX. -/
def drawRej (sh : Memory) (base : Nat) (g : Group) (slot t : Nat) : Nat → Draw → Word × Draw
  | 0, dr => (0, dr)
  | n + 1, dr =>
    let (w1, dr) := dr.raw g slot t
    let (w2, dr) := dr.raw g slot t
    let prop := BitVec.ofNat 32 (drawInv sh base w1)
    if w2.toNat / 2 ^ 16 < sh.readN (base + 1028 + 2 * (w1.toNat / 2 ^ 24)) 2 then (prop, dr)
    else if n = 0 then (prop, { dr with qstat := dr.qstat ++ [(t, 1)] })
    else drawRej sh base g slot t n dr

/-- One draw of a thread from a d register (R112). -/
def drawWord (sh : Memory) (g : Group) (t : Nat) (d : Nat) (dr : Draw) : Word × Draw :=
  let desc := g.dget d
  let slot := descSlot desc
  let base := descBase desc
  match descKind desc with
  | 1 =>
    let (w, dr) := dr.raw g slot t
    let n := w.toNat / 2 ^ 8
    (if descInt desc then BitVec.ofNat 32 n else BitVec.ofNat 32 (fmtF32.round .rne false false false n (-24) false).1, dr)
  | 2 => dr.raw g slot t
  | 3 =>
    let (w, dr) := dr.raw g slot t
    (BitVec.ofNat 32 (drawAlias sh base (descLogn desc) (descInt desc) w), dr)
  | 4 =>
    let (w, dr) := dr.raw g slot t
    (BitVec.ofNat 32 (drawInv sh base w), dr)
  | 5 => drawRej sh base g slot t 32 { dr with rej := true }
  | _ => (0, { dr with qstat := dr.qstat ++ [(t, 2)] })

/-- The bytes of a draw's table in the block's shared memory (R113 to R115): first and count. -/
def drawTable (d : DWord) : Option (Nat × Nat) :=
  match descKind d with
  | 3 => some (descBase d, 8 * 2 ^ descLogn d)
  | 4 => some (descBase d, 4 * 257)
  | 5 => some (descBase d, 4 * 257 + 2 * 256)
  | _ => none

/-- Of the status bits that draws set, those of REJX, which wait for the positions (R122), and the others. -/
def rejxOf (l : List (Nat × Word)) : List (Nat × Word) := l.filter fun e => e.2 == 1
def noneOf (l : List (Nat × Word)) : List (Nat × Word) := l.filter fun e => e.2 != 1

/-- n draws in order. -/
def drawWords (sh : Memory) (g : Group) (t : Nat) (d : Nat) : Nat → Draw → List Word × Draw
  | 0, dr => ([], dr)
  | n + 1, dr =>
    let (w, dr) := drawWord sh g t d dr
    let (ws, dr) := drawWords sh g t d n dr
    (w :: ws, dr)

/-- Status bits set in the threads' sr.qstat (R122). -/
def Group.setQstat (g : Group) (l : List (Nat × Word)) : Group :=
  l.foldl (fun g e => { g with qstat := Sparse.put 0 g.qstat e.1 (Sparse.get 0 g.qstat e.1 ||| e.2) }) g

/-- The draws committed (R117): positions and status. -/
def Group.commit (g : Group) (slots : List (Nat × DWord)) (qstat : List (Nat × Word)) : Group :=
  (slots.foldl (fun g e => { g with qp := Sparse.put 0 g.qp e.1 e.2 }) g).setQstat qstat

end Sys2Proof.Machine
end

