-- ==== Sys2Proof/Machine/Operands.lean ====
section
/-! DEFINITION. Operands at issue: the acting threads (R15), what is empty (R19, R20), what each source reads (R40, R41,
R70), and where results go (R18, R71, R72). -/

namespace Sys2Proof.Machine

/-- What an instruction's issue in one group starts from. `act` is the acting threads of a vector form, the active mask
of a uniform one. -/
structure Cx where
  s    : State
  g    : Group
  b    : Block
  c    : Ctx
  f    : Fields
  spec : Spec
  act  : Mask
  deriving DecidableEq, Repr

def Cx.die (x : Cx) : Nat := dieOf x.g.core
def Cx.opc (x : Cx) : Nat := x.f.opc.toNat
def Cx.threads (x : Cx) : List Nat := Mask.threads x.act
def Cx.exa (x : Cx) : Word := x.f.ext.extractLsb' 0 32
def Cx.exb (x : Cx) : Word := x.f.ext.extractLsb' 32 32
/-- The next instruction's address (R32). -/
def Cx.nextPc (x : Cx) : VA := x.g.pc + BitVec.ofNat 52 x.f.len.bytes
/-- A target by the signed byte offset in EXA (R27). -/
def Cx.target (x : Cx) : VA := x.g.pc + BitVec.ofInt 52 x.exa.toInt

/-- The guard's mask, negated where GNEG says so (R15, R38). -/
def guardMask (g : Group) (f : Fields) : Mask :=
  if f.gidx = 0 then BitVec.allOnes 32
  else if f.gneg then ~~~(g.kget f.gidx.toNat) else g.kget f.gidx.toNat

def Src.of (b : BitVec 9) : Src := (Src.ofCode b).getD (.v 0)

/-- The last byte of a tagged request has come (R358). -/
def Group.sampleEnd (g : Group) (now : Nat) : Group :=
  match g.smpl with
  | some t => { g with smpl := some { t with finish := some now } }
  | none => g

/-- The barrel position that a turn belongs to (R132). -/
def positionOf (cycle : Nat) : Nat := cycle / 8 % 6

/-- The registers a field names: vector or scalar, first and count; none for another class (R43). -/
def fieldRegs (cls : Cls) (b : BitVec 9) : Option (Bool × Nat × Nat) :=
  if cls.nil && b == 0 then none
  else match Src.ofCode b with
    | some (.v r) => some (true, r.val, cls.v)
    | some (.s r) => some (false, r.val, cls.s)
    | _ => none

/-- The threads in which a field's registers are empty; every examined thread for a scalar one (R19). -/
def emptyIn (g : Group) (act : Mask) (r : Option (Bool × Nat × Nat)) : Mask :=
  match r with
  | none => 0
  | some (true, r, n) =>
    Mask.ofList ((Mask.threads act).filter fun t => (List.range n).any fun i => g.vempty (r + i) t)
  | some (false, r, n) => if (List.range n).any fun i => g.sempty (r + i) then act else 0

/-- The tile a specifier names for a group (R11, R236). -/
def tileNo (g : Group) (b : BitVec 9) : Option Nat :=
  match Src.ofCode b with
  | some (.c r) => some (r.val + g.member)
  | _ => none

def Block.tileEmpty (b : Block) (n : Nat) : Bool :=
  match b.tiles[n]? with
  | some t => t.empty
  | none => false

/-- The threads in which a source field is empty, its tile included. -/
def Cx.emptyField (x : Cx) (cls : Cls) (bits : BitVec 9) : Mask :=
  match tileNo x.g bits with
  | some n => if cls.tile ≠ 0 ∧ x.b.tileEmpty n then x.act else 0
  | none => emptyIn x.g x.act (fieldRegs cls bits)

/-- The source fields with their EF bits, in the order A, B, C. -/
def Cx.sources (x : Cx) : List (Cls × BitVec 9 × Bool) :=
  [(x.spec.a, x.f.a, x.f.aef), (x.spec.b, x.f.b, x.f.bef), (x.spec.c, x.f.c, x.f.cef)]

/-- EMPTY (R19): the fields found empty with EF = 1, as detail bits, and the threads. -/
def Cx.emptyTrap (x : Cx) : Nat × Mask :=
  let one (i : Nat) (e : Cls × BitVec 9 × Bool) : Nat × Mask :=
    if e.2.2 then
      let m := x.emptyField e.1 e.2.1
      (if m = 0 then 0 else 2 ^ i, m)
    else (0, 0)
  let l := List.zipWith one [0, 1, 2] x.sources
  l.foldl (fun acc e => (acc.1 + e.1, acc.2 ||| e.2)) (0, 0)

/-- A slot whose positions are to be committed by a REJ draw in flight, in some thread (R118). -/
def slotLocked (s : State) (gid slot : Nat) (act : Mask) : Bool :=
  s.results.any fun r => r.gid == gid && r.slots.any fun e => e.1 % 4 == slot && act.getLsbD (e.1 / 4)

/-- The descriptors of the d registers that the sources name. -/
def Cx.descs (x : Cx) : List DWord :=
  x.sources.filterMap fun e =>
    match Src.ofCode e.2.1 with
    | some (.d r) => if e.1.d then some (x.g.dget r.val) else none
    | _ => none

/-- The stream slots an instruction reads or writes: those of its d registers of a kind that draws (R111), and those its
modifier names. -/
def Cx.slotsUsed (x : Cx) : List Nat :=
  let stream := if 0xA1 ≤ x.opc ∧ x.opc ≤ 0xA8 then
      [(x.f.mod.extractLsb' 8 2).toNat] ++ (if x.opc = 0xA4 then [(x.f.mod.extractLsb' 6 2).toNat] else [])
    else []
  ((x.descs.filter fun d => decide (1 ≤ descKind d ∧ descKind d ≤ 5)).map descSlot) ++ stream

def rangesMeet (a n b m : Nat) : Bool := decide (a < b + m ∧ b < a + n)

/-- A drain of a group has still to write bytes of a range of a place (R255). -/
def State.drainMeets (s : State) (gid : Nat) (place : Place) (a n : Nat) : Bool :=
  s.drains.any fun d => d.gid == gid && d.place == place && d.parts.any fun p => rangesMeet p.1 p.2.length a n

/-- A space as a drain names it; none for .sp, which no drain writes. -/
def placeOf : Space → Option Place
  | .sp => none
  | .sh => some .sh
  | .sc => some .sc
  | .tw => some .win

/-- The bytes a group's drain has still to write, met by a range of a space (R255). -/
def Cx.drained (x : Cx) (spc : Space) (a n : Nat) : Bool :=
  match placeOf spc with
  | some p => x.s.drainMeets x.g.gid p a n
  | none => false

/-- A table that a draw is to read lies where a drain of the group has still to write (R119, R206, R255). -/
def Cx.tablesWait (x : Cx) : Bool :=
  x.act != 0 && (x.descs.filterMap drawTable).any fun r => x.drained .sh r.1 r.2

/-! Outstanding memory requests (R3). Log entry 81, which says also that an MLD, whose fill is no result of a thread, counts none. -/

/-- The memory requests that a core can have outstanding. -/
def requestCap : Nat := 2048

/-- The requests of a result in flight: one for each thread that it is to reach. -/
def Result.requests (r : Result) : Nat := if r.kind == .mem then (nubNat (r.writes.map (·.thr))).length else 0

def State.outstanding (s : State) (core : Nat) : Nat :=
  ((s.results.filter fun r => (s.group? r.gid).any fun g => g.core == core).map Result.requests).sum

/-- The requests that an instruction makes: loads, atomics and BARA one for each acting thread. -/
def Cx.requests (x : Cx) : Nat :=
  if x.opc = 0x46 ∨ x.opc = 0xC0 ∨ (0xC2 ≤ x.opc ∧ x.opc ≤ 0xCA) ∨ x.opc = 0xD1 then
    (if x.f.s then 1 else (Mask.threads x.act).length)
  else 0

/-- An instruction for whose requests its core has no room. -/
def Cx.requestsWait (x : Cx) : Bool :=
  x.requests != 0 && decide (requestCap < x.s.outstanding x.g.core + x.requests)

/-- Held back under R19 (sources with EF = 0), R20 (the destination), R118 (a slot), R206 (a table) or R3 (requests). A register
that no acting thread examines holds nothing back, an s destination included. Log entry 18. -/
def Cx.heldBack (x : Cx) : Bool :=
  x.sources.any (fun e => !e.2.2 && x.emptyField e.1 e.2.1 != 0) || x.emptyField x.spec.dst x.f.dst != 0 ||
    (x.slotsUsed.any fun sl => slotLocked x.s x.g.gid sl x.act) || x.tablesWait || x.requestsWait

/-! Reading sources -/

/-- The FP32 code of a small integer, and the packed pairs of R40. -/
def immF32 (v : Int) : Nat := (fmtF32.round .rne false false (decide (v < 0)) v.natAbs 0 false).1
def immHalf (f : Fmt) (v : Int) : Nat :=
  let c := (f.round .rne false false (decide (v < 0)) v.natAbs 0 false).1
  c + 2 ^ 16 * c

/-- An inline immediate by the operand's kind (R40). -/
def immValue (kind : ImmKind) (b : BitVec 8) : DWord :=
  match kind with
  | .int => (b.signExtend 32).zeroExtend 64
  | .i64 | .n64 => b.signExtend 64
  | .f32 => BitVec.ofNat 64 (immF32 b.toInt)
  | .f16 => BitVec.ofNat 64 (immHalf fmtF16 b.toInt)
  | .bf16 => BitVec.ofNat 64 (immHalf fmtBF16 b.toInt)
  | .code => 0

/-- An extension word by the operand's kind (R40). -/
def extValue (kind : ImmKind) (w : Word) : DWord :=
  match kind with
  | .i64 => w.signExtend 64
  | _ => w.zeroExtend 64

/-- The number of a grid, and coordinates of a block (R127). -/
def Cx.gridExtents (x : Cx) : Nat × Nat :=
  match x.s.grid? x.b.ctx x.b.grid with
  | some g => (g.gx, g.gy)
  | none => (1, 1)

/-- The cycle at which an instruction issued (R132): that of its first attempt where it has stayed in issue since (R21). -/
def Cx.clock (x : Cx) : Nat := if x.g.stay then x.g.stayAt else x.s.cycle

/-- The values that shortcuts and special registers share (R41, R105). -/
def Cx.shortValue (x : Cx) (r : Short) : Word :=
  let n (v : Nat) : Word := BitVec.ofNat 32 v
  match r with
  | .grp => n x.g.num
  | .blkx => n (x.b.idx % x.gridExtents.1)
  | .blky => n (x.b.idx / x.gridExtents.1 % x.gridExtents.2)
  | .blkz => n (x.b.idx / (x.gridExtents.1 * x.gridExtents.2))
  | .grid => n x.b.grid
  | .core => n (x.g.core % 160)
  | .die => n x.die
  | .dev => x.s.dev
  | .ctx => n x.b.ctx
  | .clock => n x.clock
  | .zero => 0

/-- Shared memory as the draws of an instruction read it: at its issue (R119), also where its REJ draws have held it since. -/
def Cx.tables (x : Cx) : Memory := x.g.rejHeld.getD x.b.sh

/-- A source read by a thread, 64 bits wide where the class is a pair. -/
def Cx.read (x : Cx) (cls : Cls) (bits : BitVec 9) (t : Nat) (dr : Draw) : DWord × Draw :=
  match Src.of bits with
  | .v r =>
    if cls.v = 2 then (x.g.vget (r.val + 1) t ++ x.g.vget r.val t, dr) else ((x.g.vget r.val t).zeroExtend 64, dr)
  | .s r => if cls.s = 2 then (x.g.spair r.val, dr) else ((x.g.sget r.val).zeroExtend 64, dr)
  | .k r => ((x.g.kget r.val).zeroExtend 64, dr)
  | .d r => let (w, dr) := drawWord x.tables x.g t r.val dr; (w.zeroExtend 64, dr)
  | .c _ => (0, dr)
  | .exa => (extValue cls.kind x.exa, dr)
  | .exb => (extValue cls.kind x.exb, dr)
  | .ex64 => (x.f.ext, dr)
  | .short r => ((x.shortValue r).zeroExtend 64, dr)
  | .imm b => (immValue cls.kind b, dr)

/-- A source with no draw: uniform forms and address fields. -/
def Cx.get (x : Cx) (cls : Cls) (bits : BitVec 9) (t : Nat) : DWord := (x.read cls bits t Draw.start).1
def Cx.getA (x : Cx) (t : Nat) : DWord := x.get x.spec.a x.f.a t
def Cx.getB (x : Cx) (t : Nat) : DWord := x.get x.spec.b x.f.b t
def Cx.getC (x : Cx) (t : Nat) : DWord := x.get x.spec.c x.f.c t

/-- The three sources of a thread in the order A, B, C (R116). An unused field reads what it names and is ignored. -/
def Cx.args (x : Cx) (t : Nat) (dr : Draw) : (DWord × DWord × DWord) × Draw :=
  let (a, dr) := x.read x.spec.a x.f.a t dr
  let (b, dr) := x.read x.spec.b x.f.b t dr
  let (c, dr) := x.read x.spec.c x.f.c t dr
  ((a, b, c), dr)

/-- A run of n registers named by a field, lowest first. -/
def Cx.run (x : Cx) (bits : BitVec 9) (n t : Nat) : List Word :=
  match Src.of bits with
  | .v r => (List.range n).map fun i => x.g.vget (r.val + i) t
  | .s r => (List.range n).map fun i => x.g.sget (r.val + i)
  | _ => []

/-! Where results go -/

/-- What one thread's share of an instruction gives: the registers of its destination run, the exceptions. -/
structure Share where
  t : Nat
  words : List Word
  causes : Causes
  deriving DecidableEq, Repr

/-- The two words of a 64-bit result, low first. -/
def wordsOf (n : Nat) (x : DWord) : List Word :=
  if n = 2 then [x.extractLsb' 0 32, x.extractLsb' 32 32] else [x.extractLsb' 0 32]

/-- Words written to a run of registers of a thread. -/
def Group.vsetRun (g : Group) (r t : Nat) : List Word → Group
  | [] => g
  | w :: ws => Group.vsetRun (g.vset r t w) (r + 1) t ws

def Group.ssetRun (g : Group) (r : Nat) : List Word → Group
  | [] => g
  | w :: ws => Group.ssetRun (g.sset r w) (r + 1) ws

/-- A result written at once (R18). -/
def Group.writeDst (g : Group) (dst : BitVec 9) (t : Nat) (ws : List Word) : Group :=
  match Src.of dst with
  | .v r => g.vsetRun r.val t ws
  | .s r => g.ssetRun r.val ws
  | .k r => g.kset r.val (ws.headD 0)
  | _ => g

/-- The register writes of a result in flight. -/
def regWrites (dst : BitVec 9) (t : Nat) (ws : List Word) : List RegW :=
  match Src.of dst with
  | .v r => (List.range ws.length).zipWith (fun i w => ⟨true, r.val + i, t, w⟩) ws
  | .s r => (List.range ws.length).zipWith (fun i w => ⟨false, r.val + i, 0, w⟩) ws
  | _ => []

/-- Registers marked empty at issue (R19). -/
def Group.markEmpty (g : Group) (ws : List RegW) : Group :=
  ws.foldl (fun g w => if w.vec then g.vmark w.reg w.thr true else g.smark w.reg true) g

/-- Causes whose action in FPCTL (R284) a test accepts: 0 ignore, 1 log, 2 and 3 trap. -/
def fpActions (ctl : BitVec 10) (test : Nat → Bool) : Causes :=
  (List.range 5).foldl (fun (m : Causes) i =>
    if test ((ctl.extractLsb' (2 * i) 2).toNat) then m ||| BitVec.ofNat 5 (2 ^ i) else m) 0

def fpTrapped (ctl : BitVec 10) : Causes := fpActions ctl fun a => decide (2 ≤ a)
def fpLogged (ctl : BitVec 10) : Causes := fpActions ctl fun a => a == 1

end Sys2Proof.Machine
end

