-- ==== Sys2Proof/Machine/Issue.lean ====
section
/-! DEFINITION. Issue (R15, R17 to R21, R132 to R138): what an attempt to issue an instruction comes to in one group, how a
gang combines its members' attempts, retirement, and the end of a turn. -/

namespace Sys2Proof.Machine

/-- What an attempt comes to in one group. -/
inductive Fate where
  /-- retires; pc goes to the next instruction or to the one given; `ends` where the entry ends the turn -/
  | done (s : State) (pc : Option VA) (ends : Bool)
  /-- held back: no effect -/
  | hold
  /-- stays in issue (R21) -/
  | stay (s : State)
  /-- its condition holds (R21): it retires with `s`; while another member keeps its gang in issue, `now` is what it has done -/
  | met (now s : State)
  /-- a precise trap with its detail and faulting lanes: no effect -/
  | trap (cause : BitVec 8) (detail : Nat) (lanes : Mask)
  /-- TRAP and BKPT retire and raise (R286) -/
  | raise (cause : BitVec 8) (detail : Nat) (oper : Word)
  /-- an instruction breakpoint before an instruction of so many bytes (R292) -/
  | brk (detail len : Nat)
  /-- parked until tiles are resident (R185) -/
  | park (s : State) (tiles : List TileRef)
  /-- a fatal fault of the slice (R294) -/
  | halt (cause : BitVec 8) (addr : Nat)
  deriving DecidableEq, Repr

/-- The quartet of a group (R11): its number, and whether it is fused. -/
def Group.quartet (g : Group) : Nat := g.num / 4
def State.fusedGroup (s : State) (g : Group) : Bool :=
  !g.spawned && match s.block? g.bid with
    | some b => (b.fused[g.quartet]?).getD false
    | none => false

/-- The resident members of a group's quartet. -/
def State.quartetOf (s : State) (g : Group) : List Group :=
  if g.spawned then [g] else s.groups.filter fun x => x.bid == g.bid && !x.spawned && x.quartet == g.quartet

/-- The members a group issues with: the gang when fused, in ascending member order, itself when split. -/
def State.gangOf (s : State) (g : Group) : List Nat :=
  if s.fusedGroup g then
    [0, 1, 2, 3].filterMap fun m => ((s.quartetOf g).find? fun x => x.member == m).map (·.gid)
  else [g.gid]

/-- The context of an attempt. -/
def State.cx? (s : State) (gid : Nat) (f : Fields) : Option Cx :=
  match s.group? gid with
  | none => none
  | some g =>
    match s.block? g.bid with
    | none => none
    | some b =>
      match s.ctx? b.ctx with
      | none => none
      | some c =>
        some { s := s, g := g, b := b, c := c, f := f, spec := specOf f,
               act := if f.s then g.amask else g.amask &&& guardMask g f }

/-- A uniform instruction acts when its guard holds in every active thread (R15). -/
def Cx.skipped (x : Cx) : Bool := x.f.s && x.g.amask &&& ~~~(guardMask x.g x.f) != 0

/-- The order of the checks at issue (R19, R20, R150): skip, the entry's early checks, EMPTY, hold-back, then the rest. -/
def Cx.gate (x : Cx) (pre : Cx → Option Fate) (body : Cx → Fate) : Fate :=
  if x.skipped then .done x.s none false
  else match pre x with
    | some r => r
    | none =>
      if x.emptyTrap.1 ≠ 0 then .trap trapEmpty x.emptyTrap.1 x.emptyTrap.2
      else if x.heldBack then .hold
      else body x

def noPre : Cx → Option Fate := fun _ => none

def attempt (f : Fields) (pre : Cx → Option Fate) (body : Cx → Fate) (s : State) (gid : Nat) : Fate :=
  match s.cx? gid f with
  | some x => x.gate pre body
  | none => .hold

/-! Retirement -/

/-- The energy class of an opcode (R355). -/
def energyClass (o : Nat) : Nat :=
  if o ≤ 0x1F then 0 else if o ≤ 0x5F then 1 else if o ≤ 0x9F then 2 else if o ≤ 0xAF then 3 else if o ≤ 0xBF then 4
  else if o ≤ 0xDF then 5 else if o ≤ 0xEF then 6 else if o ≤ 0xF7 then 7 else 8

/-- The energy an instruction's retirement adds to its group's sum (R355). -/
def State.weightOf (s : State) (f : Fields) : DWord := ((s.weights[energyClass f.opc.toNat]?).getD 0).zeroExtend 64

/-- A group that has retired an instruction: its pc at the next one or at the one given, its waits ended. -/
def Group.retired (g : Group) (f : Fields) (weight : DWord) (pc : Option VA) : Group :=
  { g with
    pc := pc.getD (g.pc + BitVec.ofNat 52 f.len.bytes), energy := g.energy + weight, stay := false, stayDone := false,
    reissue := false, tmap := none, evicts := none, gdesc := none, rejHeld := none, waiting := none, counted := 0 }

/-- Retirement of an instruction in a group (R299, R354, R355): pc, energy, counts; waits end. A group that retired with it
(EXIT) is gone and its sums are with its block already. -/
def State.retire (s : State) (gid : Nat) (f : Fields) (pc : Option VA) : State :=
  match s.group? gid with
  | none => s
  | some g =>
    let s := s.setGroup (g.retired f (s.weightOf f) pc)
    let s := s.modBlock g.bid fun b => { b with retcnt := b.retcnt + 1 }
    match s.block? g.bid with
    | some b => s.count g.core 2 b.ctx 1
    | none => s

/-- A wait begun (R298): 1 at the block barrier, 3 at a rendezvous, 2 any other. -/
def Group.await (g : Group) (kind : Nat) : Group :=
  if g.waiting = some kind then g else { g with waiting := some kind, counted := 0 }

/-- An instruction stays in issue (R21), from the cycle of its first attempt on. -/
def Group.stayFrom (g : Group) (cycle : Nat) : Group :=
  { g.await 2 with stay := true, stayAt := if g.stay then g.stayAt else cycle }

/-- A WDOG record of a group waits in its handler's queue (R298). -/
def Group.raised (g : Group) : Bool := g.queue.any fun r => r.cause == trapWdog

/-- A group parked until tiles are resident (R185): no wait of its instruction goes on (R298), and one whose REJ draws have issued
is still in issue (R118). Where there is no tile, nothing happens to it. -/
def Group.parkOn (g : Group) (tiles : List TileRef) : Group :=
  if tiles.isEmpty then g
  else { g with parked := tiles, stay := g.rejHeld.isSome, waiting := none, counted := 0 }

def trapRecOf (g : Group) (cause : BitVec 8) (detail : Nat) (lanes : Mask) (resume : VA) (oper : Word) : TrapRec :=
  { cause := cause, detail := BitVec.ofNat 16 detail, lanes := lanes, amask := g.amask, pc := g.pc, resume := resume,
    oper := oper }

/-- BARB, and MMA.q and SHFL.g until their quartet is fused, wait under the barrier watchdog (R298). -/
def waitKind (f : Fields) (fused : Bool) : Nat :=
  if f.opc = 0xD4 then 1 else if (f.opc = 0xF0 ∨ f.opc = 0xB7) ∧ !fused then 3 else 2

/-- The detail of a watchdog's record (R298): 1 the barrier watchdog's, 2 the hang watchdog's. -/
def waitDetail (kind : Nat) : Nat := if kind = 2 then 2 else 1

/-! Sampling (R357) -/

/-- The space of a memory instruction that sampling counts; none for any other. -/
def sampledSpace (f : Fields) : Option Space :=
  let o := f.opc.toNat
  let spc : Option Space :=
    if o = 0xC0 ∨ o = 0xC1 ∨ o = 0xC2 ∨ o = 0xD3 ∨ o = 0xF2 then (MemMod.ofBits f.mod).map (·.space)
    else if 0xC3 ≤ o ∧ o ≤ 0xD2 then (AtomMod.ofBits f.mod).map (·.asp)
    else if o = 0xF3 then (DrainMod.ofBits f.mod).map (·.space)
    else none
  spc.filter (· != .sp)

/-- A memory instruction of a group counted at its core: whether it is the one to be tagged, which a group that holds a tagged
request, or an instruction in which no thread acts, passes on. -/
def State.sampleTick (s : State) (c : Ctx) (g : Group) (lanes : Mask) : Bool × State :=
  if c.smplN = 0 then (false, s)
  else
    let n := Sparse.get 0 c.smplCtr g.core + 1
    let tag := decide (c.smplN ≤ n) && g.smpl.isNone && lanes != 0
    (tag, s.modCtx c.no fun c => { c with smplCtr := Sparse.put 0 c.smplCtr g.core (if tag then n - c.smplN else n) })

/-- An instruction that traps at its first issue is counted, and loses the tag it would have had (R357). -/
def State.sampleTrap (s : State) (gid : Nat) (f : Fields) : State :=
  match sampledSpace f, s.cx? gid f with
  | some _, some x => if x.g.reissue then s else (s.sampleTick x.c x.g x.act).2
  | _, _ => s

/-- A tile with nothing about it (R181). -/
def absentTile : WTile := ⟨.absent, [], [], [], [], 0, none, 0, 0, false, 0⟩

def State.tile (s : State) (t : TileRef) : WTile :=
  match s.window? t.die t.ctx t.win with
  | some w => Sparse.get absentTile w.tiles t.tile
  | none => absentTile

/-- A holder's holds on window tiles ended (R184): a group's on those it waited for, once it issues again. -/
def State.unhold (s : State) (gid : Nat) : State :=
  { s with windows := s.windows.map fun w =>
      if w.tiles.any fun e => e.2.held.contains gid then
        { w with tiles := (w.tiles.map fun e => (e.1, { e.2 with held := e.2.held.filter fun x => x != gid })).filter fun e =>
            e.2 != absentTile }
      else w }

/-- A group that retires nothing at its breakpoint: the debugger has it, or its handler with the record given (R292). -/
def State.stopAt (s : State) (g : Group) (r : TrapRec) : State :=
  if (((s.block? g.bid).bind fun b => s.ctx? b.ctx).map (·.ctl.dbg)).getD false then
    s.setGroup { g with dbgStop := some r.resume, pc := r.pc }
  else s.takeTrap g r

/-- An attempt's fate carried out for one member. -/
def State.settle (s : State) (gid : Nat) (f : Fields) (fate : Fate) : State :=
  match fate with
  | .done s' pc _ => s'.retire gid f pc
  | .hold => s.modGroup gid fun g => g.await (waitKind f (s.fusedGroup g))
  | .stay s' => s'.modGroup gid fun g => g.stayFrom s'.cycle
  | .met _ s' => s'.retire gid f none
  | .trap cause detail lanes =>
    match s.group? gid with
    | some g =>
      ((s.sampleTrap gid f).unhold gid).takeTrap { g with stay := false, stayDone := false, reissue := false }
        (trapRecOf g cause detail lanes g.pc 0)
    | none => s
  | .raise cause detail oper =>
    match s.group? gid with
    | some g =>
      let s := s.retire gid f none
      match s.group? gid with
      | some g' =>
        let r := trapRecOf g cause detail g.amask g'.pc oper
        if cause = trapBkpt then s.stopAt g' r else s.takeTrap g' r
      | none => s
    | none => s
  | .brk detail len =>
    match s.group? gid with
    | some g => s.stopAt g (trapRecOf g trapBkpt detail g.amask (g.pc + BitVec.ofNat 52 len) 0)
    | none => s
  | .park s' tiles => s'.modGroup gid fun g => g.parkOn tiles
  | .halt cause addr =>
    match s.group? gid with
    | some g => s.halt (dieOf g.core) cause (sliceUnit g) addr
    | none => s

/-- The members' attempts, each on the state the earlier ones leave. -/
def State.settleAll (s : State) (f : Fields) (body : State → Nat → Fate) : List Nat → State
  | [] => s
  | gid :: rest => (s.settle gid f (body s gid)).settleAll f body rest

def Fate.isHold : Fate → Bool | .hold => true | _ => false
def Fate.isStay : Fate → Bool | .stay _ => true | _ => false
def Fate.isTrap : Fate → Bool | .trap .. => true | .brk .. => true | .halt .. => true | _ => false
def Fate.isDone : Fate → Bool | .done .. => true | .met .. => true | _ => false
def Fate.stops : Fate → Bool
  | .done _ _ e => e
  | .met .. => false
  | _ => true
def Fate.movesPc : Fate → Bool
  | .done _ (some _) _ => true
  | _ => false

/-- Each member's fate, on the state the earlier members' leave: the members act in ascending order. -/
def State.fates (s : State) (f : Fields) (body : State → Nat → Fate) : List Nat → List (Nat × Fate)
  | [] => []
  | m :: rest =>
    let r := body s m
    (m, r) :: (s.settle m f r).fates f body rest

/-- How a gang's attempt goes on. -/
inductive GangWay where
  | hold | stay | each
  deriving DecidableEq, Repr

/-- One member held back holds all (R137). While one member's condition does not hold all stay in issue (R21): a trap of a first
attempt ends that, one that comes of the wait, a GLAUNCH descriptor's refusal, waits for its end. Otherwise every member's fate is
its own. -/
def State.gangWay (s : State) (fates : List (Nat × Fate)) : GangWay :=
  let waiting := fates.all fun x => (s.group? x.1).any (·.stay)
  if fates.any fun x => x.2.isHold then .hold
  else if (fates.any fun x => x.2.isStay) && (waiting || !(fates.any fun x => x.2.isTrap)) then .stay
  else .each

/-- A member of a gang that stays in issue (R21): one whose condition holds has it noted, with what its issue does, and takes no
further step meanwhile. -/
def State.linger (s : State) (gid : Nat) (f : Fields) (fate : Fate) : State :=
  match fate with
  | .stay _ => s.settle gid f fate
  | .met now _ => now.modGroup gid fun g => { g.stayFrom now.cycle with stayDone := true }
  | _ => s.modGroup gid fun g => g.stayFrom s.cycle

/-- The attempt of a whole gang (R137). -/
def State.gangIssue (s : State) (f : Fields) (body : State → Nat → Fate) (members : List Nat) : State :=
  match s.gangWay (s.fates f body members) with
  | .hold => members.foldl (fun s m => s.settle m f .hold) s
  | .stay => members.foldl (fun s m => s.linger m f (body s m)) s
  | .each => s.settleAll f body members

/-- The members of a gang for which its attempt issues nothing (R354): all that are kept, and one that another member's trap leaves
where it stands. -/
def idleMembers (way : GangWay) (fates : List (Nat × Fate)) : List Nat :=
  let idle (r : Fate) : Bool := match way, r with
    | .each, .stay _ => true
    | .each, .park _ tiles => tiles.isEmpty
    | .each, _ => false
    | _, _ => true
  (fates.filter fun x => idle x.2).map (·.1)

/-! The end of a turn -/

/-- A context whose critical groups are deferred for, once a request has come and while its limit has not passed (R134). -/
def State.defers (s : State) (ctx : Nat) (critx : Bool) : Bool :=
  !critx && ((s.ctx? ctx).map (·.ctl.defer)).getD 0 != 0

/-- What a switch of resident contexts lets issue on a core (R303, R325): while it is under way the critical groups it
defers for, after it while the slice is held nothing. -/
def State.switchAllows (s : State) (g : Group) (ctx : Nat) : Bool :=
  match s.switches.find? fun w => w.core == g.core with
  | none => s.activeOn g.core ctx
  | some w =>
    if s.activeOn g.core w.dest then false
    else s.activeOn g.core ctx && decide (g.crit ≠ 0) && s.defers ctx w.critx

/-- The request under which a block is still to be decided (R299). -/
def State.preemptOf (s : State) (b : Block) : Option PreReq :=
  if b.phase == .running then s.prereqs.find? fun r => r.ctx == b.ctx && r.core == b.core else none

/-- What a request to pre-empt a block lets issue until it is decided: the critical groups that are deferred for (R134). -/
def State.preemptAllows (s : State) (g : Group) (b : Block) : Bool :=
  match s.preemptOf b with
  | none => true
  | some r => decide (g.crit ≠ 0) && s.defers b.ctx r.critx

/-- A group that no save, switch or request to pre-empt stops. One that is stopped counts as pre-empted. Log entry 92. -/
def State.lets (s : State) (b : Block) (g : Group) : Bool :=
  b.phase != .saving && s.switchAllows g b.ctx && s.preemptAllows g b

/-- A group parked on a replayable fault (R135, R178): the fetch of a tile that it waits for has faulted. -/
def State.faulted (s : State) (g : Group) : Bool := g.parked.any fun t => (s.tile t).fault

/-- The members of quartet j of a block. -/
def State.membersOf (s : State) (bid j : Nat) : List Group :=
  s.groups.filter fun x => x.bid == bid && !x.spawned && x.quartet == j

/-- Four members at one pc, each converged and out of its handler (R135, R136). -/
def aligned (q : List Group) : Bool :=
  q.length == 4 && (q.all fun x => x.converged && x.handler.isNone) &&
    match q with
    | x :: rest => rest.all fun y => y.pc == x.pc
    | [] => false

/-- A member of a block that is not pre-empted. -/
def State.unstopped (s : State) (g : Group) : Bool :=
  match s.block? g.bid with
  | some b => s.lets b g
  | none => false

/-- A quartet that a point of re-fusion fuses (R136): its members aligned, none of them parked or pre-empted. Log entry 64. -/
def State.together (s : State) (bid j : Nat) : Bool :=
  let q := s.membersOf bid j
  aligned q && q.all fun x => x.parked.isEmpty && s.unstopped x

/-- A fused quartet that stays so at the end of a turn of its own (R135): its members aligned, none of them parked on a replayable
fault, pre-empted, or halted for the debugger (R292). -/
def State.whole (s : State) (bid j : Nat) : Bool :=
  let q := s.membersOf bid j
  aligned q && q.all fun x => !s.faulted x && x.dbgStop.isNone && s.unstopped x

def Block.setFused (b : Block) (j : Nat) (v : Bool) : Block := { b with fused := b.fused.set j v }

def State.split (s : State) (bid j : Nat) : State := s.modBlock bid fun b => b.setFused j false

/-- A quartet split when its members are not aligned, or one of them is halted for the debugger (R135, R292). Nothing in the rest of a
turn undoes that, so it need not wait for the turn's end. Log entry 64. -/
def State.splitCheck (s : State) (bid j : Nat) : State :=
  let q := s.membersOf bid j
  if aligned q && q.all fun x => x.dbgStop.isNone then s else s.split bid j

/-- The turn in which some fused quartets issued has ended (R135): those that are not whole are split. -/
def State.endSplits (s : State) : State :=
  let s' := s.splits.foldl (fun s e => if s.whole e.1 e.2 then s else s.split e.1 e.2) s
  { s' with splits := [] }

/-- A fused quartet with a member that has become parked on a replayable fault outside a turn of its own, split at once (R135). -/
def State.splitNext (s : State) : Option State :=
  s.blocks.findSome? fun b => (List.range b.fused.length).findSome? fun j =>
    if (b.fused.getD j false) && !s.splits.contains (b.bid, j) && (s.membersOf b.bid j).any s.faulted then some (s.split b.bid j)
    else none

/-- Reserve positions (R133): released at depth 0, granted to critical groups of the active context in the order they
became critical, position 4 before 5. -/
def State.releaseReserves (s : State) : State :=
  { s with groups := s.groups.map fun g => if g.crit = 0 then { g with reserve := none } else g }

def State.grantReserve (s : State) (g : Group) : State :=
  match [4, 5].filter fun p => s.groups.all fun x => x.core != g.core || x.slice != g.slice || x.reserve != some p with
  | p :: _ => s.modGroup g.gid fun h => { h with reserve := some p }
  | [] => s

/-- A critical group that waits for a reserve position. -/
def State.wantsReserve (s : State) (g : Group) : Bool :=
  decide (g.crit ≠ 0) && g.reserve.isNone && match s.block? g.bid with
    | some b => s.activeOn g.core b.ctx && b.phase != .saving
    | none => false

/-- Groups in the order in which they became critical. -/
def insertCrit (g : Group) : List Group → List Group
  | [] => [g]
  | h :: rest => if g.critSeq < h.critSeq then g :: h :: rest else h :: insertCrit g rest

/-- The reserve positions of every slice as a turn ends: those freed in it go to the groups that wait. -/
def State.settleReserves (s : State) : State :=
  let s := s.releaseReserves
  ((s.groups.filter s.wantsReserve).foldl (fun l g => insertCrit g l) []).foldl State.grantReserve s

/-- Members have issued in a turn: what holds at its end already splits a fused quartet now, the rest of R135 is left to the turn's
end; and so is the re-fusion check when one is due. -/
def State.endTurn (s : State) (members : List Nat) (refusion : Bool) : State :=
  match members.findSome? s.group? with
  | none => s
  | some g =>
    if g.spawned then s
    else
      let e := (g.bid, g.quartet)
      let s := if s.fusedGroup g then s.splitCheck g.bid g.quartet else s
      if s.fusedGroup g then { s with splits := if s.splits.contains e then s.splits else s.splits ++ [e] }
      else if refusion && !s.refuse.contains e then
        { s with refuse := s.refuse ++ [e] }
      else s

/-- The instructions whose retirement is a point of re-fusion (R136). -/
def refusePoint (f : Fields) : Bool :=
  f.opc = 0x0A || f.opc = 0xD4 || f.opc = 0xF0 || f.opc = 0xB7 || (f.opc = 0x02 && f.mod.getLsbD 9)

/-- The rendezvous instructions (R138). -/
def rendezvous (f : Fields) : Bool := f.opc = 0xF0 || f.opc = 0xB7

/-- A turn of these members in which nothing issued, counted for those whose own position it is (R354). -/
def State.countIdle (s : State) (members : List Nat) : State :=
  members.foldl (fun s m => match s.group? m with
    | some x =>
      if x.pos = positionOf s.cycle then s.count x.core 3 (((s.block? x.bid).map (·.ctx)).getD 0) 1 else s
    | none => s) s

/-- Issue for the group at the head of the turn: its gang's attempt, then the place in the turn it has used (R17). A rendezvous brings the
re-fusion check in turns of the members' own position (R136). Log entry 64. -/
def issueWith (f : Fields) (body : State → Nat → Fate) (s : State) : Host.Outcome State Fault Refusal :=
  match s.turn with
  | [] => .fault .noIssuer
  | it :: rest =>
    match s.group? it.gid with
    | none => .next { s with turn := rest }
    | some g =>
      let members := s.gangOf g
      let each := s.fates f body members
      let fates := each.map (·.2)
      let s' := s.gangIssue f body members
      let s' := if fates.all Fate.isHold then s' else members.foldl (fun t m => match s.group? m with
        | some x => t.ran (sliceUnit x) (((s.block? x.bid).map (·.ctx)).getD allOnes32)
        | none => t) s'
      let used := it.used + 1
      let point := it.point || (refusePoint f && fates.any Fate.isDone)
      if fates.any Fate.stops || fates.any Fate.movesPc || !f.s || decide (3 ≤ used) then
        let s' := if it.used = 0 then s'.countIdle (idleMembers (s.gangWay each) each) else s'
        let held := rendezvous f && fates.any Fate.isHold && decide (g.pos = positionOf s.cycle)
        .next ({ s' with turn := rest }.endTurn members (point || held))
      else .next { s' with turn := ⟨it.gid, used, point⟩ :: rest }

/-- The meaning of an encoded instruction from its attempt in one group. -/
def issue (f : Fields) (pre : Cx → Option Fate) (body : Cx → Fate) (s : State) : Host.Outcome State Fault Refusal :=
  issueWith f (attempt f pre body) s

/-! The shared arithmetic shape -/

/-- One FP record of a context log (R72, R297). -/
def State.logFp (s : State) (g : Group) (ctx : Nat) (causes : Causes) (lanes : Mask) (pc : VA) : State :=
  if causes = 0 then s else s.log ctx 0x01 causes.toNat lanes pc.toNat (s.blockName g.bid) g.num 0

/-- An instruction that names a REJ register in a thread it acts in (R118). -/
def Cx.namesRej (x : Cx) : Bool :=
  let isRej (b : BitVec 9) : Bool :=
    match Src.ofCode b with
    | some (.d r) => descKind (x.g.dget r.val) == 5
    | _ => false
  x.act != 0 && !x.f.s && (isRej x.f.a || isRej x.f.b || isRej x.f.c)

/-- The exceptions of an instruction that retires (R72): sticky bits, and one record of those set to log, or
set to trap in an instruction that names a REJ register. -/
def State.raiseFp (s : State) (x : Cx) (per : List (Nat × Causes)) : State :=
  let all := per.foldl (fun (m : Causes) e => m ||| e.2) 0
  let logged := fpLogged x.c.ctl.fpctl ||| (if x.namesRej then fpTrapped x.c.ctl.fpctl else 0)
  let lanes := if x.f.s then x.g.amask else Mask.ofList ((per.filter fun e => e.2 &&& logged != 0).map (·.1))
  let s := if all = 0 then s else s.modGroup x.g.gid fun g => { g with fpstat := g.fpstat ||| all.zeroExtend 32 }
  s.logFp x.g x.b.ctx (all &&& logged) lanes x.g.pc

/-- The FP trap (R72, R285), when some thread raised a trapped cause; none once the instruction stays in issue (R21). -/
def Cx.fpTrap (x : Cx) (per : List (Nat × Causes)) : Option Fate :=
  let trapped := fpTrapped x.c.ctl.fpctl
  let all := per.foldl (fun (m : Causes) e => m ||| e.2) 0
  if x.g.stay || all &&& trapped == 0 then none
  else
    let lanes := if x.f.s then x.g.amask else Mask.ofList ((per.filter fun e => e.2 &&& trapped != 0).map (·.1))
    some (.trap trapFp ((all &&& trapped).toNat + 256 * all.toNat) lanes)

/-- The draws of an instruction committed at its retirement (R117), and counted (R354). -/
def State.commitDraws (s : State) (x : Cx) (dr : Draw) : State :=
  if dr.pos.isEmpty && dr.qstat.isEmpty then s
  else (s.modGroup x.g.gid fun g => g.commit dr.pos dr.qstat).count x.g.core 0x0C x.b.ctx dr.words

/-- The threads an instruction computes for: each acting one, or one for a uniform form. -/
def Cx.each (x : Cx) : List Nat := if x.f.s then [0] else x.threads

/-- The shares of the threads in ascending order, with their draws (R116). -/
def sharesOf (x : Cx) (compute : Nat → Draw → Share × Draw) : List Nat → Draw → List Share × Draw
  | [], dr => ([], dr)
  | t :: ts, dr =>
    let (p, dr) := compute t dr
    let (ps, dr) := sharesOf x compute ts dr
    (p :: ps, dr)

/-- A result in flight made, its registers marked empty (R19). -/
def State.putResult (s : State) (x : Cx) (kind : ResultKind) (ws : List RegW) (slots : List (Nat × DWord))
    (words : Nat) (qstat : List (Nat × Word)) (causes : List (Nat × Causes)) (tagged : Bool) : State :=
  let (rid, s) := s.fresh
  let s := s.modGroup x.g.gid fun g => g.markEmpty ws
  let r : Result := ⟨rid, x.g.gid, kind, ws, x.g.handler.isSome, slots, words, qstat, causes, x.g.pc, none, tagged⟩
  { s with results := s.results ++ [r] }

/-- An instruction held in issue until its REJ draws end (R118): its first attempt starts them on the tables as they stand
(R119), and it completes once they have ended. -/
def Cx.rejHold (x : Cx) (body : Cx → Fate) : Fate :=
  if x.namesRej && !x.g.stayDone then
    if x.g.rejHeld.isSome then .stay x.s
    else
      .stay ((x.s.putResult x .rej [] [] 0 [] [] false).modGroup x.g.gid fun g => { g with rejHeld := some x.b.sh })
  else body x

/-- The status bits of draws set at the retirement of an instruction whose REJ draws are still in flight: NONE (R122). -/
def State.commitNone (s : State) (x : Cx) (dr : Draw) : State := s.modGroup x.g.gid fun g => g.setQstat (noneOf dr.qstat)

/-- The shape of every instruction that reads operands, computes a destination and has no other effect: exceptions first,
then draws, then the destination, at once or as a result in flight when a REJ register is named. -/
def Cx.finish (x : Cx) (shares : List Share) (dr : Draw) : Fate :=
  let per := shares.map fun p => (p.t, p.causes)
  let toV := match Src.of x.f.dst with | .v _ => true | _ => false
  if x.namesRej && toV then
    let ws := shares.flatMap fun p => regWrites x.f.dst p.t p.words
    .done ((x.s.commitNone x dr).putResult x .rej ws dr.pos dr.words (rejxOf dr.qstat) per false) none false
  else
    match if x.namesRej then none else x.fpTrap per with
    | some r => r
    | none =>
      let s := x.s.raiseFp x per
      let s := s.commitDraws x dr
      .done (s.modGroup x.g.gid fun g => shares.foldl (fun g p => g.writeDst x.f.dst p.t p.words) g) none false

/-- The number of registers of the destination. -/
def Cx.dstWidth (x : Cx) : Nat := if x.f.s then x.spec.dst.s else x.spec.dst.v

/-- A thread's share of a computation from the three sources to a destination of one or two registers. -/
def aluShare (compute : DWord → DWord → DWord → DWord × Causes) (x : Cx) (t : Nat) (dr : Draw) : Share × Draw :=
  let ((a, b, c), dr) := x.args t dr
  let (r, fl) := compute a b c
  (⟨t, wordsOf x.dstWidth r, fl⟩, dr)

/-- An instruction that is its threads' shares. -/
def sharesBody (one : Cx → Nat → Draw → Share × Draw) (x : Cx) : Fate :=
  let (shares, dr) := sharesOf x (one x) x.each Draw.start
  x.finish shares dr

def aluBody (compute : DWord → DWord → DWord → DWord × Causes) : Cx → Fate := sharesBody (aluShare compute)

/-- An instruction of that shape. -/
def issueAlu (f : Fields) (compute : DWord → DWord → DWord → DWord × Causes) (s : State) :
    Host.Outcome State Fault Refusal :=
  issue f noPre (aluBody compute) s

end Sys2Proof.Machine
end

