-- ==== Sys2Proof/Machine/Fetch.lean ====
section
/-! DEFINITION. Fetching and decoding the next instruction of a group (R32, R33, R35, R50, R292), and the checks of a word
that trap before it is an instruction. -/

namespace Sys2Proof.Machine

/-- What fetching at a group's pc comes to. -/
inductive Fetched where
  | run (i : Instr)
  | trap (cause : BitVec 8) (detail : Nat)
  /-- the context's breakpoint n, before an instruction of so many bytes -/
  | brk (n len : Nat)
  | halt (addr : Nat)
  deriving DecidableEq, Repr

/-- A word that crosses its 32-byte frame (R33). -/
def crosses (pc : VA) (len : Len) : Bool := decide (32 < pc.toNat % 32 + len.bytes)

/-- The checks of R50 on the word at an address, in order. -/
def decodeAt (pc : VA) (w : BitVec 128) : Fetched :=
  match lenOf (w.extractLsb' 0 2) with
  | none => .trap trapIllegal 1
  | some len =>
    if crosses pc len then .trap trapMisframe 0
    else match decodeWord w with
      | .ok i => .run i
      | .error n => .trap trapIllegal n

/-- The first of the context's four instruction breakpoints at an address (R292). -/
def breakAt (c : Ctx) (pc : VA) : Option Nat := (c.breaks.take 4).findIdx? fun a => a == pc

/-- The sixteen bytes from an address of executable memory, as a die reads them (R180). -/
def State.fetchWord (s : State) (c : Ctx) (die : Nat) (pc : VA) : Option (BitVec 128) :=
  match s.fetchXlat c pc.toNat with
  | .ok pa attr => some (BitVec.ofNat 128 (s.dram.readN (readPa die pa attr) 16))
  | _ => none

/-- The bytes of a word by its length field; a word with the undefined one counts none. Log entry 24. -/
def wordBytes (w : BitVec 128) : Nat := ((lenOf (w.extractLsb' 0 2)).map Len.bytes).getD 0

/-- The next instruction at an address: a breakpoint there comes before the checks of the word (R292). -/
def State.fetch (s : State) (c : Ctx) (die : Nat) (pc : VA) : Fetched :=
  match s.fetchWord c die pc with
  | none => .halt pc.toNat
  | some w =>
    match breakAt c pc with
    | some n => .brk n (wordBytes w)
    | none => decodeAt pc w

/-- Fields that stand for no instruction: the attempt of a word that traps at decode. -/
def noFields : Fields :=
  { len := .w64, s := true, opc := 0, gneg := false, gidx := 0, dst := 0, a := 0, aef := false, b := 0, bef := false,
    c := 0, cef := false, mod := 0, ext := 0 }

/-- A trap of every member of the gang at decode, whatever the guard (R50). -/
def trapAtDecode (cause : BitVec 8) (detail : Nat) (s : State) : Host.Outcome State Fault Refusal :=
  issueWith noFields (fun s gid =>
    match s.group? gid with
    | some g => .trap cause detail g.amask
    | none => .hold) s

/-- An instruction breakpoint in every member of the gang: cause BKPT with the next instruction as its resume pc (R286), or a
halt for the debugger (R292). Log entry 24. -/
def breakAtFetch (n len : Nat) (s : State) : Host.Outcome State Fault Refusal :=
  issueWith noFields (fun _ _ => .brk (0x100 + n) len) s

/-- A fetch outside executable memory halts the partition. Log entry 11. -/
def haltAtFetch (addr : Nat) (s : State) : Host.Outcome State Fault Refusal :=
  issueWith noFields (fun _ _ => .halt haltProtection addr) s

end Sys2Proof.Machine
end

