-- ==== Sys2Proof/Machine/TileOps.lean ====
section
/-! DEFINITION. Memory operations on values, hods, tiles and their states (R181 to R195, R210), and the scratchpad as one core
sees it (R227). -/

namespace Sys2Proof.Machine

/-! Operations on values (R187, R210) -/

/-- The signed or unsigned value of an operand of an atomic type. -/
def atRead (ty : At) (x : Nat) : Int :=
  match ty with
  | .i32 => IFmt.read .i32 x
  | .n32 | .f32 => (x % 2 ^ 32 : Nat)
  | .i64 => IFmt.read .i64 x

def opMinMax (max : Bool) (ty : At) (old x : Nat) : Nat :=
  if ty == .f32 then (fpMinMax fmtF32 max false old x).1
  else if (if max then decide (atRead ty old < atRead ty x) else decide (atRead ty x < atRead ty old)) then x else old

/-- The value an operation leaves; width in bytes. -/
def opValue (op : MemOp) (ty : At) (width old x : Nat) : Nat :=
  match op with
  | .st => x
  | .add => if ty == .f32 then addF32 old x else (old + x) % 2 ^ (8 * width)
  | .min => opMinMax false ty old x
  | .max => opMinMax true ty old x
  | .and => old &&& x
  | .or => old ||| x
  | .xor => old ^^^ x

/-- A number of so many bytes, little-endian, as a list and back. -/
def bytesOf (width x : Nat) : List Byte := (List.range width).map fun i => BitVec.ofNat 8 (x / 256 ^ i)
def numOf (l : List Byte) : Nat := l.foldr (fun b n => b.toNat + 256 * n) 0

/-- An operation performed on memory. -/
def performOp (m : Memory) (op : MemOp) (ty : At) (a width x : Nat) : Memory :=
  m.writeN a width (opValue op ty width (m.readN a width) x)

/-! The scratchpad as a core sees it (R227, R229) -/

def ScWrite.perform (m : Memory) (w : ScWrite) : Memory := performOp m w.op w.ty w.addr w.width w.val.toNat

/-- The scratchpads with a core's own writes that have left its groups. -/
def State.coreScratch (s : State) (core : Nat) : Memory :=
  (s.scw.filter fun w => w.core == core).foldl ScWrite.perform s.scratch

/-- A core's pending writes performed at the die, in order. -/
def State.performCore (s : State) (core : Nat) : State :=
  { s with scratch := (s.scw.filter fun w => w.core == core).foldl ScWrite.perform s.scratch
           scw := s.scw.filter fun w => w.core != core }

/-- A core's pending writes performed at the die when one of them meets a range. -/
def State.flushSc (s : State) (core a n : Nat) : State :=
  if (s.scw.filter fun w => w.core == core).any fun w => rangesMeet w.addr w.width a n then s.performCore core else s

/-- What a core reads where an operation other than a store is pending, it reads once that has been performed (R221, R225). -/
def State.flushOps (s : State) (core a n : Nat) : State :=
  if s.scw.any fun w => w.core == core && w.op != .st && rangesMeet w.addr w.width a n then s.performCore core else s

/-- A write that leaves a group for the scratchpad: it happens before what its group does next. -/
def State.postSc (s : State) (gid bid core die a width : Nat) (op : MemOp) (ty : At) (x : Nat) (sync : Bool) : State :=
  let (wid, s) := s.fresh
  { s with scw := s.scw ++ [⟨wid, gid, bid, [gid], false, sync, core, die, a, width, op, ty, BitVec.ofNat 64 x⟩] }

/-- Before an atomic operation of a group, the writes of earlier ones in its past are performed at the die: atomic operations are seen
in one order that keeps each agent's program order (R225). Log entry 93. -/
def State.syncFirst (s : State) (gid core : Nat) : State :=
  if s.scw.any fun w => w.sync && w.past.contains gid then s.performCore core else s

/-- An atomic operation of a group on its way to a log controller, which its next one waits for (R225). -/
def State.syncPending (s : State) (gid : Nat) : Bool := s.appends.any fun a => a.gid == gid && a.sync

/-! What happens before what (R224). Log entry 34. -/

def ScWrite.mine (w : ScWrite) (gids : List Nat) : Bool := w.past.any gids.contains

/-- Writes that happen before the accesses of some groups now happen before those of others too. -/
def ScWrite.joins (w : ScWrite) (gids more : List Nat) : ScWrite :=
  if w.mine gids then { w with past := w.past ++ more.filter fun n => !w.past.contains n } else w

/-- A release of a group below die scope: the writes that happen before it are there to be acquired. -/
def State.released (s : State) (gid : Nat) : State :=
  { s with scw := s.scw.map fun w => if w.past.contains gid then { w with freed := true } else w }

/-- An acquire of a group: what has been released on its core happens before what it does next. -/
def State.acquired (s : State) (gid core : Nat) : State :=
  { s with scw := s.scw.map fun w =>
      if w.freed && w.core == core && !w.past.contains gid then { w with past := w.past ++ [gid] } else w }

/-- What happens before the accesses of one of some groups now happens before those of all others given. -/
def State.joinPast (s : State) (gids more : List Nat) : State := { s with scw := s.scw.map fun w => w.joins gids more }

/-! Hods (R187, R190, R191, R193) -/

/-- The elements of an entry: offset, width and value, a chunk's ascending. -/
def HodEntry.elems (e : HodEntry) : List (Nat × Nat × Nat) :=
  if e.chunk then
    (List.range (e.len / 4)).map fun i => (e.off + 4 * i, 4, numOf ((e.data.drop (4 * i)).take 4))
  else [(e.off, e.len, numOf e.data)]

def HodEntry.meets (e f : HodEntry) : Bool := rangesMeet e.off e.len f.off f.len
def HodEntry.covers (e f : HodEntry) : Bool := decide (e.off ≤ f.off ∧ f.off + f.len ≤ e.off + e.len)

/-- One type for adds: AT codes 00 and 01 name one 32-bit add (R47, R209). -/
def sameAdd (a b : At) : Bool := a == b || ((a == .i32 || a == .n32) && (b == .i32 || b == .n32))

/-- The pair of entries that one entry replaces (R190): f with e combined into it. -/
def HodEntry.merge (f e : HodEntry) : Option HodEntry :=
  let same := f.chunk == e.chunk && f.off == e.off && f.len == e.len && f.op == e.op
  let typed := match e.op with
    | .st => false
    | .add => sameAdd f.ty e.ty
    | .min | .max => f.ty == e.ty && !e.chunk
    | _ => !e.chunk
  if same && typed then
    let w := if e.chunk then 4 else e.len
    let vals := List.zipWith (fun a b => opValue e.op e.ty w a.2.2 b.2.2) f.elems e.elems
    some { f with data := vals.flatMap (bytesOf w) }
  else none

/-- The latest earlier entry that meets e, with the entries around it: later ones, itself, earlier ones. -/
def splitMeet (e : HodEntry) : List HodEntry → Option (List HodEntry × HodEntry × List HodEntry)
  | [] => none
  | f :: rest =>
    if f.meets e then some ([], f, rest)
    else (splitMeet e rest).map fun r => (f :: r.1, r.2.1, r.2.2)

/-- One entry of the pass (R190) against the earlier ones, latest first. -/
def compactOne (e : HodEntry) : Nat → List HodEntry → List HodEntry
  | 0, acc => e :: acc
  | n + 1, acc =>
    match splitMeet e acc with
    | none => e :: acc
    | some (later, f, earlier) =>
      if e.op == .st && e.covers f then compactOne e n (later ++ earlier)
      else match f.merge e with
        | some f' => later ++ f' :: earlier
        | none => e :: acc

def compactHod (hod : List HodEntry) : List HodEntry :=
  (hod.foldl (fun acc e => compactOne e 17 acc) []).reverse

/-- The entries of an operation appended, compacted after each append that leaves twelve or more; none when one would be
the seventeenth, or the log store has no room for it (R190, R192). -/
def appendHod (room : List HodEntry → HodEntry → Bool) (hod : List HodEntry) : List HodEntry → Option (List HodEntry)
  | [] => some hod
  | e :: rest =>
    if 16 ≤ hod.length ∨ !room hod e then none
    else
      let h := hod ++ [e]
      appendHod room (if 12 ≤ h.length then compactHod h else h) rest

/-- The chunks a hod takes in the log store (R188). -/
def hodChunks (hod : List HodEntry) : Nat :=
  if hod.isEmpty then 0
  else 1 + (hod.map fun e => if e.chunk then (e.len + 255) / 256 else 0).sum

/-- The byte a hod gives: that of the latest entry that touches it, when it is a store (R191). -/
def hodByte (hod : List HodEntry) (off : Nat) : Option Byte :=
  match hod.reverse.find? fun e => decide (e.off ≤ off ∧ off < e.off + e.len) with
  | some e => if e.op == .st then some (e.data.getD (off - e.off) 0) else none
  | none => none

/-- A tile's bytes with the pending FP32 sums of R193. -/
structure HodRun where
  mem  : Memory
  pend : Sparse Nat
  deriving DecidableEq, Repr

def HodRun.flush (r : HodRun) (x : Nat × Nat) : HodRun :=
  { r with mem := r.mem.writeN x.1 4 (addF32 (r.mem.readN x.1 4) x.2) }

/-- One operation of R193 on one element. -/
def HodRun.apply (r : HodRun) (op : MemOp) (ty : At) (x : Nat × Nat × Nat) : HodRun :=
  let (off, w, v) := x
  if op == .add && ty == .f32 then
    match r.pend.find? fun p => p.1 == off with
    | some p => { r with pend := Sparse.insert off (addF32 p.2 v) r.pend }
    | none => { r with pend := Sparse.insert off v r.pend }
  else
    let hit := r.pend.filter fun p => rangesMeet p.1 4 off w
    let r := hit.foldl HodRun.flush { r with pend := r.pend.filter fun p => !rangesMeet p.1 4 off w }
    { r with mem := performOp r.mem op ty off w v }

/-- R193: the fetched bytes with the hod applied in one batch. -/
def applyHod (mem : Memory) (hod : List HodEntry) : Memory :=
  let r := hod.foldl (fun r e => e.elems.foldl (fun r x => HodRun.apply r e.op e.ty x) r) ⟨mem, []⟩
  (r.pend.foldl HodRun.flush { r with pend := [] }).mem

/-- Entries applied to a resident tile, each element a step of its own (R186). -/
def applyDirect (mem : Memory) (es : List HodEntry) : Memory :=
  es.foldl (fun m e => e.elems.foldl (fun m x => performOp m e.op e.ty x.1 x.2.1 x.2.2) m) mem

/-! Tiles -/

def tileBytes : Nat := 4096

/-- The tile a .tw address names; none for no such tile: its window is unmapped or closing, or the offset lies beyond
(R198). -/
def State.findTile (s : State) (die ctx : Nat) (addr : Nat) : Option TileRef :=
  if 2 ^ 32 ≤ addr then none
  else match s.window? die ctx (addr / 2 ^ 26) with
    | some w =>
      if !w.closing && decide (addr % 2 ^ 26 < tileBytes * w.len) then
        some ⟨die, ctx, addr / 2 ^ 26, addr % 2 ^ 26 / tileBytes⟩
      else none
    | none => none

/-- The tile of an access that has issued, in a window that may be closing since (R118). -/
def State.issuedTile (s : State) (die ctx : Nat) (addr : Nat) : Option TileRef :=
  (s.window? die ctx (addr / 2 ^ 26)).map fun _ => ⟨die, ctx, addr / 2 ^ 26, addr % 2 ^ 26 / tileBytes⟩

def State.setTile (s : State) (t : TileRef) (x : WTile) : State :=
  match s.window? t.die t.ctx t.win with
  | some w => s.setWindow { w with tiles := Sparse.put absentTile w.tiles t.tile x }
  | none => s

/-- The virtual address of a tile's first byte. Of a window that passes 2^52 the bytes beyond are those from address 0 on, as the
translation takes 52 bits. Log entry 91. -/
def State.tileVa (s : State) (t : TileRef) : Nat :=
  match s.window? t.die t.ctx t.win with
  | some w => w.base + tileBytes * t.tile
  | none => 0

/-- The tiles of a context on a die. -/
def State.tilesOf (s : State) (die ctx : Nat) : List (TileRef × WTile) :=
  (s.windows.filter fun w => w.die == die && w.ctx == ctx).flatMap fun w =>
    w.tiles.map fun e => (⟨die, ctx, w.win, e.1⟩, e.2)

/-- An access to a resident tile (R184). -/
def State.touch (s : State) (t : TileRef) : State :=
  let (n, s) := s.fresh
  s.setTile t { s.tile t with used := n }

/-- The tile's dirty bytes with so many more from an offset. -/
def markDirty (d : Sparse Bool) (off n : Nat) : Sparse Bool :=
  (List.range n).foldl (fun d i => Sparse.put false d (off + i) true) d

/-- Entries applied to a resident tile, which they dirty. -/
def State.applyTile (s : State) (t : TileRef) (es : List HodEntry) : State :=
  let x := s.tile t
  let s := s.setTile t { x with data := applyDirect x.data es,
                                dirty := es.foldl (fun d e => markDirty d e.off e.len) x.dirty }
  s.touch t

/-- A core's appends to a tile still on their way to the log controller. -/
def State.appendsTo (s : State) (core : Nat) (t : TileRef) : List Append :=
  s.appends.filter fun a => a.core == core && a.tile == t

/-- The tagged request changed of the group of an append that still has some of it (R357, R358). -/
def State.appendSample (s : State) (a : Append) (f : Smpl → Smpl) : State :=
  if a.tagged = 0 then s else s.modGroup a.gid fun g => { g with smpl := g.smpl.map f }

/-- An append whose tile is resident, applied to it, and so done: its hold ends, and the bank has served what there was left of a
tagged request (R358). -/
def State.applyAppend (s : State) (a : Append) : State :=
  let s : State := { s with appends := s.appends.filter fun b => b.aid != a.aid }
  ((s.unhold a.aid).applyTile a.tile a.entries).appendSample a fun t => { t with bank := true, finish := some s.now }

/-- A core's own appends to a resident tile applied before it makes another access there. -/
def State.flushTile (s : State) (core : Nat) (t : TileRef) : State := (s.appendsTo core t).foldl State.applyAppend s

/-- The hod as a core sees it: what is accepted, then its own appends. -/
def State.coreHod (s : State) (core : Nat) (t : TileRef) : List HodEntry :=
  (s.tile t).hod ++ (s.appendsTo core t).flatMap fun a => a.entries

/-! The log store (R188, R192) -/

def logChunks : Nat := 65536

/-- The most chunks that a hod takes while entries are appended to it. -/
def hodPeak (hod : List HodEntry) : List HodEntry → Nat
  | [] => hodChunks hod
  | e :: rest =>
    let h := hod ++ [e]
    max (hodChunks h) (hodPeak (if 12 ≤ h.length then compactHod h else h) rest)

/-- An append that the log controller has refused: its tile is held for it (R192). -/
def State.refused (s : State) (a : Append) : Bool := (s.tile a.tile).held.contains a.aid

/-- The entries on their way to a tile's hod, in their order. Those of an append that has been refused take no room any more, and
others go on while they fit (R192). -/
def State.toCome (s : State) (t : TileRef) : List HodEntry :=
  (s.appends.filter fun a => a.tile == t && !s.refused a).flatMap fun a => a.entries

/-- The chunks that the tiles of a die, or of one context on it, take, but for one tile: what is on its way is taken already, so that
an append for which there was room when it was made has it still (R185, R192). -/
def State.logUse (s : State) (die : Nat) (ctx : Option Nat) (but : TileRef) : Nat :=
  ((s.windows.filter fun w => w.die == die && (ctx.isNone || ctx == some w.ctx)).map fun w =>
    (w.tiles.map fun e =>
      let t : TileRef := ⟨die, w.ctx, w.win, e.1⟩
      if t == but then 0 else hodPeak e.2.hod (s.toCome t)).sum).sum

/-- The log store takes one more entry of a tile's hod: the chunks that it needs are there, be they the last (R186, R188). Log entry
86. -/
def State.logHolds (s : State) (t : TileRef) (hod : List HodEntry) (e : HodEntry) : Bool :=
  let quota := ((s.ctx? t.ctx).map (·.quota)).getD 0
  let more := hodChunks (hod ++ [e])
  decide (s.logUse t.die none t + more ≤ logChunks ∧ s.logUse t.die (some t.ctx) t + more ≤ quota)

/-- The hod after entries are appended to it, when neither it nor the log store overflows (R192). -/
def State.tryAppend (s : State) (t : TileRef) (hod es : List HodEntry) : Option (List HodEntry) :=
  appendHod (s.logHolds t) hod es

/-- An append is refused at issue when the entries on their way and its own would not all fit (R192). -/
def State.appendFits (s : State) (t : TileRef) (es : List HodEntry) : Bool :=
  (s.tryAppend t (s.tile t).hod (s.toCome t ++ es)).isSome

/-- Entries sent to the log controller (R189). -/
def State.postAppend (s : State) (gid bid core : Nat) (t : TileRef) (es : List HodEntry) (cid did : Option Nat) (sync : Bool)
    (tagged : Nat) : State :=
  let (aid, s) := s.fresh
  { s with appends := s.appends ++ [⟨aid, gid, bid, core, t, es, false, cid, did, sync, tagged⟩] }

/-! Fetches and eviction (R178, R183, R184, R195) -/

def faultCap : Nat := 64

/-- The frames that a context's tiles occupy on a die (R182). -/
def State.framesUsed (s : State) (die ctx : Nat) : Nat :=
  ((s.tilesOf die ctx).filter fun e => e.2.st != .absent).length

/-- A tile's dirty bytes sent back to main memory (R184, R196); the tile stays. Those of one tile arrive there in their order. -/
def State.writeBack (s : State) (t : TileRef) (core : Nat) : State :=
  let x := s.tile t
  if x.dirty.isEmpty then s
  else
    let (wid, s) := s.fresh
    let s : State := { s with
      wbacks := s.wbacks ++ [⟨wid, t, s.tileVa t, x.dirty.map fun e => (e.1, x.data.read e.1), core, false⟩] }
    s.setTile t { x with dirty := [] }

/-- A resident tile becomes absent; its dirty bytes go back to main memory (R184). An append to it that has begun is done before.
`core`, whose fetch or TEVICT evicts it, is the one whose replay queue takes its write-back if that faults (R179). Log entry 32. -/
def State.evict (s : State) (t : TileRef) (core : Nat) : State :=
  let s := (s.appends.filter fun a => a.begun && a.tile == t).foldl State.applyAppend s
  (s.writeBack t core).setTile t absentTile

/-- The least recently accessed resident tile of a context on a die that is not held. -/
def State.victim (s : State) (die ctx : Nat) : Option TileRef :=
  ((s.tilesOf die ctx).filter fun e => e.2.st == .resident && e.2.held.isEmpty).foldl
    (fun (m : Option (TileRef × Nat)) e =>
      match m with
      | some v => if e.2.used < v.2 then some (e.1, e.2.used) else some v
      | none => some (e.1, e.2.used)) none |>.map (·.1)

/-- A frame for a fetch: a free one, or that of an evicted tile; none while every resident tile is held. -/
def State.takeFrame (s : State) (t : TileRef) (core : Nat) : Option State :=
  let frames := ((s.ctx? t.ctx).map (·.frames)).getD 0
  if s.framesUsed t.die t.ctx < frames then some s
  else (s.victim t.die t.ctx).map fun v => s.evict v core

/-- What starting a fetch comes to. -/
inductive FetchStart where
  | ok (s : State)
  /-- the translation faults and the core's fault buffer is full -/
  | full
  deriving DecidableEq, Repr

/-- A fault put in a core's buffer; none when it is full (R178). -/
def State.bufferFault (s : State) (core ctx va : Nat) (who : Faulted) : Option State :=
  if faultCap ≤ (s.faults.filter fun f => f.core == core).length then none
  else
    let (fid, s) := s.fresh
    let s : State := { s with faults := s.faults ++ [⟨fid, core, ctx, va, who⟩] }
    some (s.count core 0x0A ctx 1)

/-- A fetch that waits to start: its tile stays absent. -/
def State.wantTile (s : State) (t : TileRef) (core : Nat) : State :=
  if (s.tile t).wanted.isSome then s
  else
    let (n, s) := s.fresh
    s.setTile t { s.tile t with wanted := some n, core := core }

/-- A fetch starts (R182, R183, R195): it takes a frame, its page is translated, and the tile becomes arriving. While every
frame holds a held or an arriving tile the fetch waits. A violation halts the partition. -/
def State.startFetch (s : State) (t : TileRef) (core : Nat) : FetchStart :=
  match s.ctx? t.ctx, s.takeFrame t core with
  | none, _ => .ok s
  | some _, none => .ok (s.wantTile t core)
  | some c, some s' =>
    let va := s.tileVa t
    let begin_ (s : State) (fault : Bool) (pa attr : Nat) : State :=
      let s := s.ran (tileUnit t.die) t.ctx
      let x := s.tile t
      (s.setTile t { x with st := .arriving, wanted := none, pa := pa, attr := attr, fault := fault, core := core }).count
        core 0x09 t.ctx 1
    match s.translate c va false false with
    | .ok pa attr => .ok (begin_ s' false pa attr)
    | .violation => .ok ((begin_ s' true 0 0).halt t.die haltProtection (tileUnit t.die) va)
    | .fault =>
      match s'.bufferFault core t.ctx va (.fetch t) with
      | some s' => .ok (begin_ s' true 0 0)
      | none => .full

/-- A fetch that no party waits for: with the fault buffer full it waits to start (R178, R198). -/
def State.askFetch (s : State) (t : TileRef) (core : Nat) : State :=
  match s.startFetch t core with
  | .ok s => s
  | .full => s.wantTile t core

/-- The fetches that wait to start, in the order in which they were asked for. -/
def insertWanted (e : Nat × TileRef × Nat) : List (Nat × TileRef × Nat) → List (Nat × TileRef × Nat)
  | [] => [e]
  | f :: rest => if e.1 < f.1 then e :: f :: rest else f :: insertWanted e rest

def State.wantedTiles (s : State) : List (Nat × TileRef × Nat) :=
  (s.windows.flatMap fun w => w.tiles.filterMap fun e =>
    e.2.wanted.map fun n => (n, (⟨w.die, w.ctx, w.win, e.1⟩ : TileRef), e.2.core)).foldl (fun l e => insertWanted e l) []

/-- The first waiting fetch that can start now, started. -/
def State.fetchNext (s : State) : Option State :=
  s.wantedTiles.findSome? fun e =>
    if s.dieRuns e.2.1.die then
      match s.startFetch e.2.1 e.2.2 with
      | .ok s' => if (s'.tile e.2.1).st == .arriving then some s' else none
      | .full => none
    else none

/-- Fetches for those of some tiles that are absent, in order; none when a fault finds the buffer full. -/
def startFetches (core : Nat) : List TileRef → State → Option State
  | [], s => some s
  | t :: rest, s =>
    if (s.tile t).st == .absent then
      match s.startFetch t core with
      | .ok s => startFetches core rest s
      | .full => none
    else startFetches core rest s

/-- Tiles held for what waits for them: a group, or by its number an append, a drain or a card. -/
def State.holdFor (s : State) (gid : Nat) (ts : List TileRef) : State :=
  ts.foldl (fun s t =>
    let x := s.tile t
    s.setTile t { x with held := if x.held.contains gid then x.held else x.held ++ [gid] }) s

/-! What an ordering operation waits for (R179, R189, R217, R229, R255) -/

/-- Earlier appends of a group accepted and its drains performed. -/
def State.groupSettled (s : State) (gid : Nat) : Bool :=
  !(s.appends.any fun a => a.gid == gid && a.cid.isNone) && !(s.drains.any fun d => d.gid == gid)

/-- The .sc writes that happen before a group's next access performed at the die. -/
def State.atDie (s : State) (gid : Nat) : Bool := !(s.scw.any fun w => w.past.contains gid)

def State.replayEmpty (s : State) (core : Nat) : Bool := !(s.replay.any fun r => r.core == core)

def Scope.wide : Scope → Bool
  | .die | .dev | .sys => true
  | _ => false

/-- A release of a group at a scope may take effect. -/
def State.releaseReady (s : State) (g : Group) (sc : Scope) : Bool :=
  s.groupSettled g.gid && s.replayEmpty g.core && (!Scope.wide sc || s.atDie g.gid)

end Sys2Proof.Machine
end

