-- ==== Sys2Proof/Machine/Barrel.lean ====
section
/-! DEFINITION. The barrel (R129, R132, R133, R134, R298, R303): which groups may issue in a turn, the walk through them, and
the counts that pass with a turn. -/

namespace Sys2Proof.Machine

/-- A group whose die, context and block let it go on, and that is not parked, halted or delayed (R132). -/
def State.able (s : State) (g : Group) : Bool :=
  s.coreRuns g.core && g.parked.isEmpty && g.dbgStop.isNone &&
    (match g.delay with | some d => decide (d ≤ s.cycle) | none => true) &&
    match s.block? g.bid with
    | some b => s.lets b g
    | none => false

/-- A group that may issue: one with an instruction in issue issues nothing (R21). -/
def State.mayIssue (s : State) (g : Group) : Bool := s.able g && !g.stay

/-- A group's claim on a position: its own, or a reserve position it holds (R133). -/
def Group.holds (g : Group) (p : Nat) : Bool := if p < 4 then g.pos == p else g.reserve == some p

/-- A group that issues in a position with its gang (R137); a fused one in a reserve position only when every member holds it
(R133). -/
def State.gangMay (s : State) (g : Group) (p : Nat) : Bool :=
  if s.fusedGroup g then (s.quartetOf g).all fun x => x.holds p && s.mayIssue x else s.mayIssue g

/-- The gang stands for its lowest member. -/
def State.leads (s : State) (g : Group) (p : Nat) : Bool := (!s.fusedGroup g || g.member == 0) && s.gangMay g p

/-- The order of a turn: by core, then slice. -/
def insertGroup (g : Group) : List Group → List Group
  | [] => [g]
  | h :: rest => if g.core < h.core ∨ (g.core = h.core ∧ g.slice < h.slice) then g :: h :: rest else h :: insertGroup g rest

/-- The groups, one for each gang, that try to issue in the turn that begins now. -/
def State.turnOf (s : State) : List TurnItem :=
  let p := positionOf s.cycle
  let l := (s.groups.filter fun g => g.holds p && s.leads g p).foldl (fun l g => insertGroup g l) []
  l.map fun g => ⟨g.gid, 0, false⟩

/-- A request to pre-empt a block, or a switch away from its context, may stop its groups. -/
def State.stopping (s : State) (b : Block) : Bool :=
  (s.preemptOf b).isSome || s.switches.any fun w => w.core == b.core && w.dest != b.ctx

/-- Quartets of which a request to pre-empt or to switch has stopped a member split at once (R134, R135). -/
def State.splitStopped (s : State) : State :=
  { s with blocks := s.blocks.map fun b =>
      if s.stopping b then
        { b with fused := (List.range b.fused.length).map fun j =>
            (b.fused.getD j false) && (s.membersOf b.bid j).all (s.lets b) }
      else b }

/-- A party is runnable unless halted for the debugger, parked on a replayable fault or pre-empted (R298). One that a request to
pre-empt or a switch has stopped from issuing is pre-empted in this sense. Log entry 92. -/
def State.runnable (s : State) (g : Group) : Bool :=
  g.dbgStop.isNone && !s.faulted g && match s.block? g.bid with
    | some b => s.lets b g
    | none => true

/-- The parties that have not arrived for a wait at the block barrier, or at a rendezvous (R298). -/
def State.awaited (s : State) (g : Group) : List Group :=
  if g.waiting == some 1 then
    match s.block? g.bid with
    | some b => s.groups.filter fun x => x.bid == g.bid && !x.spawned && x.gid != g.gid && !(b.arrived.any fun e => e.1 == x.gid)
    | none => []
  else (s.quartetOf g).filter fun x => x.gid != g.gid && !(x.waiting == some 3 && x.pc == g.pc)

/-- The block barrier has let a group go: it waits no more. -/
def State.letGo (s : State) (g : Group) : Bool :=
  match s.block? g.bid with
  | some b => b.passed.any fun e => e.1 == g.gid
  | none => false

/-- A cycle counts for a group's watchdog (R298): it waits, no record of its watchdog waits in its queue, and who should be runnable
is. -/
def State.counting (s : State) (g : Group) : Bool :=
  !g.raised && match g.waiting with
    | none => false
    | some 2 => s.runnable g
    | some _ => !s.letGo g && (s.awaited g).all s.runnable

/-- The watchdog's count of n cycles in which nothing changes. -/
def State.watch (s : State) (n : Nat) (g : Group) : Group :=
  if s.counting g then { g with counted := g.counted + n } else g

/-! Counters (R354) -/

/-- The cycles after `a` and up to `b` of a stretch that begins after `lo` and ends at `hi`. -/
def stretch (a b lo hi : Nat) : Nat := min b hi - max a lo

/-- Cycles added to a core's count. -/
def Perf.add (p : Perf) (core n : Nat) : Perf :=
  if n = 0 then p else { p with count := Sparse.put 0 p.count core (Sparse.get 0 p.count core + BitVec.ofNat 64 n) }

/-- The context of a churn operation. -/
def State.opCtx (s : State) (o : ChurnOp) : Nat := ((s.block? o.bid).map (·.ctx)).getD 0

/-- A counter of cycles brought up to a cycle: the cycles of its cores, or those in which their churns were busy. -/
def State.accrued (s : State) (t : Nat) (p : Perf) : Perf :=
  let lo := max p.since p.upto
  let named (ctx : Nat) : Bool := p.ctx.isNone || p.ctx == some ctx
  let p' : Perf :=
    if p.event = 1 then
      ((List.range 160).map fun i => 160 * p.die + i).foldl (fun (q : Perf) core =>
        let runs := s.coreRuns core && (p.ctx.isNone || match s.active.find? fun e => e.1 == core with
          | some e => named e.2
          | none => false)
        if runs then q.add core (t - lo) else q) p
    else if p.event = 5 then
      (nubNat (s.churn.map (·.core))).foldl (fun (q : Perf) core =>
        match s.churn.find? fun o => o.core == core with
        | some o =>
          let begins := max o.early (Sparse.get 0 s.churnEnd core)
          if p.die == dieOf core && s.coreRuns core && named (s.opCtx o) then
            q.add core (stretch lo t begins (begins + o.dur))
          else q
        | none => q) p
    else p
  { p' with upto := max p.upto t }

/-- The counts of cycles, the event counters' and the watchdogs', brought up to a cycle: `step` does so before every event and as every
turn begins. -/
def State.accrue (s : State) (t : Nat) : State :=
  { s with perfs := s.perfs.map (s.accrued t), groups := s.groups.map (s.watch (t - s.now)) }

/-- Owned positions that cannot issue in the turn that begins now. -/
def State.countTurn (s : State) : State :=
  let p := positionOf s.cycle
  s.countIdle ((s.groups.filter fun g => g.pos == p && s.coreRuns g.core && !s.gangMay g p).map (·.gid))

end Sys2Proof.Machine
end

