-- ==== Sys2Proof/Machine/Integer.lean ====
section
/-! DEFINITION. Integer arithmetic (R74 to R77). -/

namespace Sys2Proof.Machine

open Sys2Proof

/-- Width and sign of an operand type (R47). -/
def tyWidth (t : Ty) : Nat := if t.wide then 64 else 32
def tySigned (t : Ty) : Bool := t == .i32 || t == .i64
def tyMin (t : Ty) : Int := if tySigned t then -(2 ^ (tyWidth t - 1) : Nat) else 0
def tyMax (t : Ty) : Int := if tySigned t then (2 ^ (tyWidth t - 1) : Nat) - 1 else (2 ^ tyWidth t : Nat) - 1

/-- An operand read as its type. -/
def tyRead (t : Ty) (x : DWord) : Int :=
  if t.wide then (if tySigned t then x.toInt else x.toNat)
  else (if tySigned t then (x.extractLsb' 0 32).toInt else (x.extractLsb' 0 32).toNat)

/-- An exact result saturated where SAT says so, then taken mod 2^w (R74). -/
def tyWrite (t : Ty) (sat : Bool) (x : Int) : DWord :=
  let y := if sat then clampInt (tyMin t) (tyMax t) x else x
  if t.wide then BitVec.ofInt 64 y else (BitVec.ofInt 32 y).zeroExtend 64

/-- A row of R74: the exact result of the operands read as TY. -/
def intRow (m : IntMod) (op : Int → Int → Int → Int) (a b c : DWord) : DWord × Causes :=
  (tyWrite m.ty m.sat (op (tyRead m.ty a) (tyRead m.ty b) (tyRead m.ty c)), 0)

def execIadd (w : W) (m : IntMod) : State → Host.Outcome State Fault Refusal :=
  issueAlu (w.fields 0x20 m.bits) (intRow m fun a b _ => a + b)
def execIsub (w : W) (m : IntMod) : State → Host.Outcome State Fault Refusal :=
  issueAlu (w.fields 0x21 m.bits) (intRow m fun a b _ => a - b)
def execImul (w : W) (m : IntMod) : State → Host.Outcome State Fault Refusal :=
  issueAlu (w.fields 0x22 m.bits) (intRow m fun a b _ => a * b)
/-- The high half of the product. -/
def execImulh (w : W) (m : IntMod) : State → Host.Outcome State Fault Refusal :=
  issueAlu (w.fields 0x23 m.bits) (intRow m fun a b _ => (a * b) / (2 ^ tyWidth m.ty : Nat))
def execImad (w : W) (m : IntMod) : State → Host.Outcome State Fault Refusal :=
  issueAlu (w.fields 0x24 m.bits) (intRow m fun a b c => a * b + c)
def execIneg (w : W) (m : IntMod) : State → Host.Outcome State Fault Refusal :=
  issueAlu (w.fields 0x25 m.bits) (intRow m fun a _ _ => -a)
def execIabs (w : W) (m : IntMod) : State → Host.Outcome State Fault Refusal :=
  issueAlu (w.fields 0x26 m.bits) (intRow m fun a _ _ => if a < 0 then -a else a)
def execImin (w : W) (m : IntMod) : State → Host.Outcome State Fault Refusal :=
  issueAlu (w.fields 0x27 m.bits) (intRow m fun a b _ => min a b)
def execImax (w : W) (m : IntMod) : State → Host.Outcome State Fault Refusal :=
  issueAlu (w.fields 0x28 m.bits) (intRow m fun a b _ => max a b)
def execIclamp (w : W) (m : IntMod) : State → Host.Outcome State Fault Refusal :=
  issueAlu (w.fields 0x2B m.bits) (intRow m fun a b c => min (max a b) c)

/-- The 64-bit product of 32-bit operands (R75). -/
def execImulw (w : W) (m : IntMod) : State → Host.Outcome State Fault Refusal :=
  issueAlu (w.fields 0x2C m.bits) fun a b _ => (BitVec.ofInt 64 (tyRead m.ty a * tyRead m.ty b), 0)

/-- Bit 0 of a carry operand (R75). -/
def carryIn (c : DWord) : Nat := if c.getLsbD 0 then 1 else 0

def addCarry (a b c : DWord) : DWord :=
  BitVec.ofNat 64 ((tyRead .n32 a + tyRead .n32 b).toNat + carryIn c)
def subBorrow (a b c : DWord) : DWord :=
  let x := tyRead .n32 a - tyRead .n32 b - carryIn c
  (if x < 0 then (1 : Word) else 0) ++ BitVec.ofInt 32 x

def execIaddc (w : W) (m : IntMod) : State → Host.Outcome State Fault Refusal :=
  issueAlu (w.fields 0x2D m.bits) fun a b c => (addCarry a b c, 0)
def execIsubb (w : W) (m : IntMod) : State → Host.Outcome State Fault Refusal :=
  issueAlu (w.fields 0x2E m.bits) fun a b c => (subBorrow a b c, 0)

/-- Sums of absolute differences (R75): of the words, or under .n8 of their bytes. -/
def absDiff (ty : Ty) (a b c : DWord) : DWord :=
  let byte (x : DWord) (j : Nat) : Int := (x.extractLsb' (8 * j) 8).toNat
  let d : Int := if ty == .n8 then ((List.range 4).map fun j => |byte a j - byte b j|).sum
    else |tyRead ty a - tyRead ty b|
  (BitVec.ofInt 32 (d + tyRead .n32 c)).zeroExtend 64

def execIsad (w : W) (m : IntMod) : State → Host.Outcome State Fault Refusal :=
  issueAlu (w.fields 0x2F m.bits) fun a b c => (absDiff m.ty a b c, 0)

/-! Compares (R10): a uniform one writes its result to every bit, a vector one to the bits of its acting threads. -/

/-- A mask with the bits of some threads set to their results. -/
def mergeMask (old : Word) (rs : List (Nat × Bool)) : Word :=
  rs.foldl (fun m r => if r.2 then m ||| maskBit r.1 else m &&& ~~~(maskBit r.1)) old

/-- A thread's share of a compare: 1 where it holds. -/
def cmpShare (compute : DWord → DWord → Bool × Causes) (x : Cx) (t : Nat) (dr : Draw) : Share × Draw :=
  let ((a, b, _), dr) := x.args t dr
  let (r, fl) := compute a b
  (⟨t, [if r then 1 else 0], fl⟩, dr)

/-- The shape of ICMP and FCMP: a result and the exceptions of each thread. -/
def cmpBody (compute : DWord → DWord → Bool × Causes) (x : Cx) : Fate :=
  x.rejHold fun x =>
    let (shares, dr) := sharesOf x (cmpShare compute x) x.each Draw.start
    let per := shares.map fun p => (p.t, p.causes)
    match if x.namesRej then none else x.fpTrap per with
    | some r => r
    | none =>
      let s := (x.s.raiseFp x per).commitDraws x dr
      let rs := shares.map fun p => (p.t, p.words.headD 0 == 1)
      .done (s.modGroup x.g.gid fun g =>
        match Src.of x.f.dst with
        | .k r => g.kset r.val (if x.f.s then (if rs.any (·.2) then 0xFFFFFFFF else 0) else mergeMask (g.kget r.val) rs)
        | _ => g) none false

/-- ICMP (R76). -/
def intCmp (ty : Ty) (cond : Cond) (a b : DWord) : Bool :=
  let x := tyRead ty a
  let y := tyRead ty b
  relHolds cond.code.toNat (decide (x < y)) (x == y)

def execIcmp (w : W) (m : CmpMod) : State → Host.Outcome State Fault Refusal :=
  issue (w.fields 0x29 m.bits) noPre (cmpBody fun a b => (intCmp m.ty m.cond a b, 0))

/-- SEL (R77): by the thread's bit of C, in uniform form by the bits of every active thread. Both sources are read. -/
def selShare (x : Cx) (t : Nat) (dr : Draw) : Share × Draw :=
  let mask := match Src.of x.f.c with | .k r => x.g.kget r.val | _ => 0
  let ((a, b, _), dr) := x.args t dr
  let takeA := if x.f.s then x.act &&& ~~~mask == 0 else mask.getLsbD t
  (⟨t, wordsOf x.dstWidth (if takeA then a else b), 0⟩, dr)

def execSel (w : W) (m : IntMod) : State → Host.Outcome State Fault Refusal :=
  issue (w.fields 0x2A m.bits) noPre (sharesBody selShare)

end Sys2Proof.Machine
end

