-- ==== Sys2Proof/Machine/FloatOps.lean ====
section
/-! DEFINITION. Floating-point instructions (R85 to R90, R94). -/

namespace Sys2Proof.Machine

open Sys2Proof

def FpMod.rounding (m : FpMod) : Rounding := ⟨m.rnd, m.sat, m.ftz⟩

/-- A 32-bit code from a source. -/
def codeOf (x : DWord) : Nat := (x.extractLsb' 0 32).toNat
def fpOut (r : Nat × Causes) : DWord × Causes := (BitVec.ofNat 64 r.1, r.2)

def execFadd (w : W) (m : FpMod) : State → Host.Outcome State Fault Refusal :=
  issueAlu (w.fields 0x60 m.bits) fun a b _ => fpOut (fpAdd fmtF32 (FpMod.rounding m) (codeOf a) (codeOf b))
def execFsub (w : W) (m : FpMod) : State → Host.Outcome State Fault Refusal :=
  issueAlu (w.fields 0x61 m.bits) fun a b _ => fpOut (fpSub fmtF32 (FpMod.rounding m) (codeOf a) (codeOf b))
def execFmul (w : W) (m : FpMod) : State → Host.Outcome State Fault Refusal :=
  issueAlu (w.fields 0x62 m.bits) fun a b _ => fpOut (fpMul fmtF32 (FpMod.rounding m) (codeOf a) (codeOf b))
def execFfma (w : W) (m : FpMod) : State → Host.Outcome State Fault Refusal :=
  issueAlu (w.fields 0x63 m.bits) fun a b c => fpOut (fpFma fmtF32 (FpMod.rounding m) (codeOf a) (codeOf b) (codeOf c))
def execFmin (w : W) (m : FpMod) : State → Host.Outcome State Fault Refusal :=
  issueAlu (w.fields 0x64 m.bits) fun a b _ => fpOut (fpMinMax fmtF32 false m.ftz (codeOf a) (codeOf b))
def execFmax (w : W) (m : FpMod) : State → Host.Outcome State Fault Refusal :=
  issueAlu (w.fields 0x65 m.bits) fun a b _ => fpOut (fpMinMax fmtF32 true m.ftz (codeOf a) (codeOf b))
/-- Bit 31 cleared; not arithmetic. -/
def execFabs (w : W) (m : FpMod) : State → Host.Outcome State Fault Refusal :=
  issueAlu (w.fields 0x66 m.bits) fun a _ _ => fpOut (codeOf a % 2 ^ 31, 0)
/-- Bit 31 inverted; not arithmetic. -/
def execFneg (w : W) (m : FpMod) : State → Host.Outcome State Fault Refusal :=
  issueAlu (w.fields 0x67 m.bits) fun a _ _ => fpOut ((codeOf a + 2 ^ 31) % 2 ^ 32, 0)
def execFrnd (w : W) (m : FpMod) : State → Host.Outcome State Fault Refusal :=
  issueAlu (w.fields 0x6A m.bits) fun a _ _ => fpOut (fpRnd (FpMod.rounding m) (codeOf a))
def execFscl (w : W) (m : FpMod) : State → Host.Outcome State Fault Refusal :=
  issueAlu (w.fields 0x6B m.bits) fun a b _ => fpOut (fpScl (FpMod.rounding m) (codeOf a) (b.extractLsb' 0 32).toInt)
def execFclamp (w : W) (m : FpMod) : State → Host.Outcome State Fault Refusal :=
  issueAlu (w.fields 0x6C m.bits) fun a b c => fpOut (fpClamp fmtF32 m.ftz (codeOf a) (codeOf b) (codeOf c))
def execFfrc (w : W) (m : FpMod) : State → Host.Outcome State Fault Refusal :=
  issueAlu (w.fields 0x6D m.bits) fun a _ _ => fpOut (fpFrc (FpMod.rounding m) (codeOf a))
/-- a[30:0] under the sign of b; not arithmetic. -/
def execFcpys (w : W) (m : FpMod) : State → Host.Outcome State Fault Refusal :=
  issueAlu (w.fields 0x6E m.bits) fun a b _ => fpOut (codeOf a % 2 ^ 31 + codeOf b / 2 ^ 31 * 2 ^ 31, 0)

def execFcmp (w : W) (m : CmpMod) : State → Host.Outcome State Fault Refusal :=
  issue (w.fields 0x68 m.bits) noPre (cmpBody fun a b => fpCmp m.cond m.ftz (codeOf a) (codeOf b))
def execFclass (w : W) (m : IntMod) : State → Host.Outcome State Fault Refusal :=
  issueAlu (w.fields 0x69 m.bits) fun a _ _ => fpOut (fpClass (codeOf a), 0)

/-! Packed halves (R90) -/

def halfFmt (ty : Ty) : Fmt := if ty == .bf16 then fmtBF16 else fmtF16

/-- An operation on the low and on the high halves, their exceptions joined. -/
def onHalves (op : Nat → Nat → Nat → Nat × Causes) (a b c : DWord) : DWord × Causes :=
  let part (x : DWord) (h : Nat) : Nat := codeOf x / 2 ^ (16 * h) % 2 ^ 16
  let lo := op (part a 0) (part b 0) (part c 0)
  let hi := op (part a 1) (part b 1) (part c 1)
  fpOut (lo.1 % 2 ^ 16 + 2 ^ 16 * hi.1, lo.2 ||| hi.2)

def execHadd2 (w : W) (m : FpMod) : State → Host.Outcome State Fault Refusal :=
  issueAlu (w.fields 0x90 m.bits) (onHalves fun a b _ => fpAdd (halfFmt m.ty) (FpMod.rounding m) a b)
def execHmul2 (w : W) (m : FpMod) : State → Host.Outcome State Fault Refusal :=
  issueAlu (w.fields 0x91 m.bits) (onHalves fun a b _ => fpMul (halfFmt m.ty) (FpMod.rounding m) a b)
def execHfma2 (w : W) (m : FpMod) : State → Host.Outcome State Fault Refusal :=
  issueAlu (w.fields 0x92 m.bits) (onHalves fun a b c => fpFma (halfFmt m.ty) (FpMod.rounding m) a b c)
def execHmin2 (w : W) (m : FpMod) : State → Host.Outcome State Fault Refusal :=
  issueAlu (w.fields 0x93 m.bits) (onHalves fun a b _ => fpMinMax (halfFmt m.ty) false m.ftz a b)
def execHmax2 (w : W) (m : FpMod) : State → Host.Outcome State Fault Refusal :=
  issueAlu (w.fields 0x94 m.bits) (onHalves fun a b _ => fpMinMax (halfFmt m.ty) true m.ftz a b)

/-! Packed dot products (R94) -/

/-- The dot product of n packed elements of a format, added to C. -/
def dotOf (ty : Ty) (n : Nat) (m : FpMod) (a b c : DWord) : DWord × Causes :=
  fpOut (dotProduct ty n (FpMod.rounding m) (codeOf a) (codeOf b) (codeOf c))

def execDot2Bf16 (w : W) (m : FpMod) : State → Host.Outcome State Fault Refusal :=
  issueAlu (w.fields 0x78 m.bits) (dotOf .bf16 2 m)
def execDot4E4m3 (w : W) (m : FpMod) : State → Host.Outcome State Fault Refusal :=
  issueAlu (w.fields 0x79 m.bits) (dotOf .e4m3 4 m)
def execDot4E5m2 (w : W) (m : FpMod) : State → Host.Outcome State Fault Refusal :=
  issueAlu (w.fields 0x7A m.bits) (dotOf .e5m2 4 m)
def execDot8E2m1 (w : W) (m : FpMod) : State → Host.Outcome State Fault Refusal :=
  issueAlu (w.fields 0x7B m.bits) (dotOf .e2m1 8 m)
def execDot8Q4x (w : W) (m : FpMod) : State → Host.Outcome State Fault Refusal :=
  issueAlu (w.fields 0x7C m.bits) (dotOf .q4x 8 m)

end Sys2Proof.Machine
end

