-- ==== Sys2Proof/Machine/Launch.lean ====
section
/-! DEFINITION. Groups, blocks and contexts as they stand at launch (R13, R144, R173, R283), and the state in which a given
word is the next to be fetched. -/

namespace Sys2Proof.Machine

/-- The s registers that hold launch parameters (R13). -/
def paramRegs (params : List Word) : Sparse Word :=
  (List.range params.length).foldl (fun m i => Sparse.put 0 m i (params.getD i 0)) []

/-- A group at launch (R13, R129). -/
def Group.launch (gid bid num core slice pos depth : Nat) (exist : Mask) (entry : VA) (params : List Word) : Group :=
  { gid := gid, bid := bid, spawned := false, num := num, member := num % 4, core := core, slice := slice, pos := pos,
    depth := depth, exist := exist, fin := 0, pc := entry, amask := exist,
    regs := { Regs.init with s := paramRegs params }, other := Regs.init, d := [], qk := [], qp := [], spill := [],
    stack := [], handler := none, entryDepth := 0, queue := [], qstat := [], mstat := 0, mloss := 0, fpstat := 0,
    energy := 0, crit := 0, critSeq := 0, reserve := none, batch := 0, delay := none, parked := [], dbgStop := none,
    stay := false, stayAt := 0, stayDone := false, reissue := false, tmap := none, evicts := none, gdesc := none, rejHeld := none,
    waiting := none, counted := 0, smpl := none }

/-- The threads of group j of a block of n threads (R127). -/
def groupMask (n j : Nat) : Mask := BitVec.ofNat 32 (2 ^ (min 32 (n - 32 * j)) - 1)

def tileFresh : Tile := ⟨[], false, 0⟩

/-- A block of a grid placed on a core at quartet places (R13, R129, R135, R173). -/
def Block.launch (bid : Nat) (g : Grid) (idx core : Nat) (places : List Nat) : Block :=
  let groups := (g.nthr + 31) / 32
  { bid := bid, ctx := g.ctx, grid := g.num.toNat, idx := idx, core := core, places := places, nthr := g.nthr,
    shmem := g.shmem, sh := [], ntile := g.ntile, tiles := List.replicate g.ntile tileFresh, idem := g.idem,
    expcnt := g.expcnt, retcnt := 0, carryE := 0, carryN := 0, energy := 0,
    fused := (List.range ((groups + 3) / 4)).map fun j => decide (4 * j + 4 ≤ groups), arrived := [], passed := [],
    phase := .running }

/-- The groups of a block at its places, gids counted up (R129). -/
def blockGroups (s : State) (b : Block) (g : Grid) : List Group × State :=
  let n := (g.nthr + 31) / 32
  let gs := (List.range n).map fun j =>
    let place := b.places.getD (j / 4) 0
    Group.launch (s.nextId + j) b.bid j b.core (4 * (place % 4) + j % 4) (place / 4) g.depth (groupMask g.nthr j) g.entry
      g.params
  (gs, { s with nextId := s.nextId + n })

/-- A context as CTXNEW makes it (R347): what it names, everything else at its value at creation. -/
def Ctx.create (n : NewCtx) : Ctx :=
  { no := n.no, dies := n.dies, slot := n.slot, ctl := n.ctl, ptRoot := n.ptRoot, scBase := n.scBase, scSize := n.scSize,
    frames := n.frames, quota := n.quota, logCap := n.logCap, log := [], drop := 0, gridCtr := 0, comms := n.comms,
    breaks := n.breaks, kinds := 0, smplN := 0, smplCtr := [], skip := [], steps := [], collSeq := [] }

/-! A state whose next fetch is a given word. Log entry 9: how a program comes to run from reset. -/

/-- The page tables of the launched program: one executable 1 GiB page at virtual address 0. -/
def launchTables (m : Memory) : Memory :=
  (m.writeN 0x40000000 8 (2 ^ 63 + 0x40010000)).writeN 0x40010000 8 (2 ^ 63 + 2 ^ 59 + 2 ^ 58)

def launchNew : NewCtx :=
  { no := 0, dies := [0], slot := 0, ctl := controlReset, ptRoot := 0x40000000, scBase := 0, scSize := 65536,
    frames := 128, quota := 1024, logCap := 64, comms := [], breaks := [] }

def launchGrid : Grid :=
  { gid := 0, ctx := 0, num := 0, entry := 0, gx := 1, gy := 1, gz := 1, nthr := 32, shmem := 4096, ntile := 4,
    expcnt := 0, idem := false, params := [], depth := 0, cores := List.range 160, ptr := 1, next := 1, again := [],
    retired := 0, parent := none, proc := 0, thread := 0 }

/-- A booted module with one context on die 0 whose one block of one group stands at virtual address 0, at the head of the
turn, with the word in its page. Where a group already stands at the head of the turn and its pc is mapped, only the word is
placed. -/
def State.launched (s : State) (_nbits w : Nat) : State :=
  let placed : Option State :=
    match s.turn with
    | [] => none
    | it :: _ =>
      match s.group? it.gid with
      | none => none
      | some g =>
        match (s.block? g.bid).bind fun b => s.ctx? b.ctx with
        | none => none
        | some c =>
          match s.fetchXlat c g.pc.toNat with
          | .ok pa attr => some { s with dram := s.dram.writeN (readPa (dieOf g.core) pa attr) 16 w }
          | _ => none
  match placed with
  | some s' => s'
  | none =>
    let b := Block.launch 0 launchGrid 0 0 [0]
    let (gs, s) := blockGroups { s with nextId := 1 } b launchGrid
    { s with
      boot := ⟨6, none, none, [], true⟩, gatedDies := [], parts := [⟨[0], none, 0, ⟨0, 0, 0, 0, 0⟩, 0, [], [], false⟩],
      ctxs := [Ctx.create launchNew], active := [(0, 0)], grids := [launchGrid], blocks := [b], groups := gs,
      turn := gs.map fun g => ⟨g.gid, 0, false⟩, agenda := [], dram := (launchTables s.dram).writeN 0 16 w }

end Sys2Proof.Machine
end

