-- ==== Sys2Proof/Machine/GroupOps.lean ====
section
/-! DEFINITION. Masks, shuffles, reductions, scans, matching, spawned work and child grids (R142 to R146, R150 to R153, R159
to R169). -/

namespace Sys2Proof.Machine

open Sys2Proof

/-! Masks (R151 to R153) -/

def maskOp (op : Word → Word → Word) (a b _c : DWord) : DWord × Causes :=
  ((op (a.extractLsb' 0 32) (b.extractLsb' 0 32)).zeroExtend 64, 0)

def execKand (w : W) : State → Host.Outcome State Fault Refusal :=
  issueAlu (w.fields 0xB0 0) (maskOp fun a b => a &&& b)
def execKor (w : W) : State → Host.Outcome State Fault Refusal :=
  issueAlu (w.fields 0xB1 0) (maskOp fun a b => a ||| b)
def execKxor (w : W) : State → Host.Outcome State Fault Refusal :=
  issueAlu (w.fields 0xB2 0) (maskOp fun a b => a ^^^ b)
def execKnot (w : W) : State → Host.Outcome State Fault Refusal :=
  issueAlu (w.fields 0xB3 0) (maskOp fun a _ => ~~~a)
def execKmov (w : W) : State → Host.Outcome State Fault Refusal :=
  issueAlu (w.fields 0xB4 0) (maskOp fun a _ => a)
def execKpopc (w : W) : State → Host.Outcome State Fault Refusal :=
  issueAlu (w.fields 0xBE 0) fun a _ _ => (BitVec.ofNat 64 (popCount (codeOf a) 32), 0)

/-- POLL (R153): the answer for an s destination, or for a k one. -/
def pollValue (var : Nat) (toK : Bool) (act a : Mask) : Word :=
  let x := a &&& act
  let flag (b : Bool) : Word := if b then (if toK then 0xFFFFFFFF else 1) else 0
  match var with
  | 0 => x
  | 1 => flag (x != 0)
  | 2 => flag (x == act)
  | 3 => flag (x == 0 || x == act)
  | _ =>
    let n := popCount x.toNat 32
    if toK then BitVec.ofNat 32 (2 ^ n - 1) else BitVec.ofNat 32 n

def pollBody (var : Nat) (x : Cx) : Fate :=
  let toK := match Src.of x.f.dst with | .k _ => true | _ => false
  let r := pollValue var toK x.g.amask ((x.getA 0).extractLsb' 0 32)
  .done (x.s.modGroup x.g.gid fun g => g.writeDst x.f.dst 0 [r]) none false

def execPoll (w : W) (var : Fin 16) : State → Host.Outcome State Fault Refusal :=
  issue (w.fields 0xB5 (varBits var.val)) noPre (pollBody var.val)

/-! Shuffles (R159, R160) -/

/-- The source of place t among n, by variant; none where it is undefined. -/
def shuffleSource (var n t : Nat) (b : Word) : Option Nat :=
  match var with
  | 0 => some (b.toNat % n)
  | 1 =>
    let u : Int := t + b.toInt
    if 0 ≤ u ∧ u < n then some u.toNat else none
  | 2 => some ((t + b.toNat) % n)
  | _ => some (t ^^^ (b.toNat % n))

/-- Register words of a thread of a group as the exchange reads them. -/
def Group.exchange (g : Group) (bits : BitVec 9) (n t : Nat) : List Word :=
  match Src.of bits with
  | .v r => (List.range n).map fun i => g.vget (r.val + i) t
  | _ => []

def shflBody (var : Nat) (x : Cx) : Fate :=
  let n := x.spec.a.v
  let shares := x.threads.map fun t =>
    let b := (x.getB t).extractLsb' 0 32
    let u := match shuffleSource var 32 t b with
      | some u => if x.act.getLsbD u then u else t
      | none => t
    ({ t := t, words := x.g.exchange x.f.a n u, causes := 0 } : Share)
  x.finish shares Draw.start

def execShfl (w : W) (m : IntMod) : State → Host.Outcome State Fault Refusal :=
  issue (w.fields 0xB6 m.bits) noPre (shflBody m.var.val)

/-- A quartet formed at launch with four members (R11, R150). -/
def Cx.wholeQuartet (x : Cx) : Bool :=
  !x.g.spawned && decide (4 * x.g.quartet + 4 ≤ (x.b.nthr + 31) / 32)

/-- The checks and the wait of a rendezvous (R138, R150): codes 12 and 13, in the acting threads, then held until the quartet is fused.
Log entry 100. -/
def rendezvousPre (x : Cx) : Option Fate :=
  if !x.g.converged then some (.trap trapIllegal 12 x.act)
  else if !x.wholeQuartet then some (.trap trapIllegal 13 x.act)
  else if !x.s.fusedGroup x.g then some .hold
  else none

/-- SHFL.g in one member: every source is read from the state at issue, s0. -/
def shflGBody (var : Nat) (s0 : State) (x : Cx) : Fate :=
  let n := x.spec.a.v
  let gang := s0.quartetOf x.g
  let shares := x.threads.map fun t =>
    let b := (x.getB t).extractLsb' 0 32
    let own := x.g.exchange x.f.a n t
    let words := match shuffleSource var 128 (32 * x.g.member + t) b with
      | some u =>
        match gang.find? fun g => g.member == u / 32 with
        | some g => if (g.amask &&& guardMask g x.f).getLsbD (u % 32) then g.exchange x.f.a n (u % 32) else own
        | none => own
      | none => own
    ({ t := t, words := words, causes := 0 } : Share)
  x.finish shares Draw.start

def execShflG (w : W) (m : IntMod) (s : State) : Host.Outcome State Fault Refusal :=
  issue (w.fields 0xB7 m.bits) rendezvousPre (shflGBody m.var.val s) s

/-! Reductions, scans and matching (R161 to R163) -/

/-- The identity of an operation (R161). -/
def redIdentity (var : Nat) (ty : Ty) : DWord :=
  match var with
  | 0 => 0
  | 1 => if ty == .f32 then 0x7F800000 else tyWrite ty false (tyMax ty)
  | 2 => if ty == .f32 then 0xFF800000 else tyWrite ty false (tyMin ty)
  | 3 => BitVec.allOnes 64
  | _ => 0

/-- The rounded exact sum of FP32 codes (R161), NaNs taken in ascending thread order. -/
def sumF32 (codes : List Nat) : Nat × Causes :=
  match fmtF32.nanOf codes, codes with
  | some r, _ => r
  | none, [] => (0, 0)
  | none, c :: rest => sumProducts {} c (rest.map fun x => (fmtF32.val false x, fmtF32.one)) []

/-- FP32 minimum or maximum, folded under R86. -/
def foldMinMax (max : Bool) : List Nat → Nat × Causes
  | [] => (0, 0)
  | c :: rest => rest.foldl (fun acc x => let r := fpMinMax fmtF32 max false acc.1 x; (r.1, acc.2 ||| r.2)) (c, 0)

/-- An operation over the values of some threads, in ascending order; the identity over none. -/
def reduce (var : Nat) (m : IntMod) (xs : List DWord) : DWord × Causes :=
  match xs with
  | [] => (redIdentity var m.ty, 0)
  | x :: rest =>
    if m.ty == .f32 then
      fpOut (if var = 0 then sumF32 (xs.map codeOf) else foldMinMax (var == 2) (xs.map codeOf))
    else match var with
      | 0 => (tyWrite m.ty m.sat ((xs.map (tyRead m.ty)).sum), 0)
      | 1 => (tyWrite m.ty false (rest.foldl (fun a y => min a (tyRead m.ty y)) (tyRead m.ty x)), 0)
      | 2 => (tyWrite m.ty false (rest.foldl (fun a y => max a (tyRead m.ty y)) (tyRead m.ty x)), 0)
      | 3 => (rest.foldl (fun a y => a &&& y) x, 0)
      | 4 => (rest.foldl (fun a y => a ||| y) x, 0)
      | _ => (rest.foldl (fun a y => a ^^^ y) x, 0)

/-- The values of A in the acting threads, with their draws. -/
def valuesOf (x : Cx) : List Nat → Draw → List (Nat × DWord) × Draw
  | [], dr => ([], dr)
  | t :: ts, dr =>
    let (a, dr) := x.read x.spec.a x.f.a t dr
    let (rest, dr) := valuesOf x ts dr
    ((t, a) :: rest, dr)

/-- GRED (R161): one result, to every acting thread or to s registers; its exceptions are of all acting threads. -/
def gredBody (m : IntMod) (x : Cx) : Fate :=
  let (vals, dr) := valuesOf x x.threads Draw.start
  let (r, fl) := reduce m.var.val m (vals.map (·.2))
  let words := wordsOf (if m.ty.wide then 2 else 1) r
  let toS := match Src.of x.f.dst with | .s _ => true | _ => false
  if toS then
    x.rejHold fun x =>
      let per := x.threads.map fun t => (t, fl)
      match if x.namesRej then none else x.fpTrap per with
      | some r => r
      | none =>
        let s := (x.s.raiseFp x per).commitDraws x dr
        .done (s.modGroup x.g.gid fun g => g.writeDst x.f.dst 0 words) none false
  else
    x.finish (x.threads.map fun t => ⟨t, words, fl⟩) dr

def execGred (w : W) (m : IntMod) : State → Host.Outcome State Fault Refusal :=
  issue (w.fields 0xB8 m.bits) noPre (gredBody m)

/-- The segment of thread t among the acting threads (R162). -/
def segment (act : List Nat) (heads : Word) (incl : Bool) (t : Nat) : List Nat :=
  let upTo := act.filter fun u => decide (u ≤ t)
  let h := match (upTo.filter fun u => heads.getLsbD u).getLast? with
    | some h => h
    | none => act.headD 0
  act.filter fun u => decide (h ≤ u) && (if incl then decide (u ≤ t) else decide (u < t))

def gscanBody (m : IntMod) (x : Cx) : Fate :=
  let incl := decide (8 ≤ m.var.val)
  let var := if incl then m.var.val - 8 else m.var.val
  let (vals, dr) := valuesOf x x.threads Draw.start
  let shares := x.threads.map fun t =>
    let heads := (x.getB t).extractLsb' 0 32
    let seg := segment x.threads heads incl t
    let (r, fl) := reduce var m ((vals.filter fun v => seg.contains v.1).map (·.2))
    ({ t := t, words := wordsOf x.dstWidth r, causes := fl } : Share)
  x.finish shares dr

def execGscan (w : W) (m : IntMod) : State → Host.Outcome State Fault Refusal :=
  issue (w.fields 0xB9 m.bits) noPre (gscanBody m)

/-- MATCH (R163). -/
def mtchBody (ty : Ty) (x : Cx) : Fate :=
  let (vals, dr) := valuesOf x x.threads Draw.start
  let key (v : DWord) : DWord := if ty.wide then v else (v.extractLsb' 0 32).zeroExtend 64
  let shares := vals.map fun p =>
    let m := Mask.ofList ((vals.filter fun q => key q.2 == key p.2).map (·.1))
    ({ t := p.1, words := [m], causes := 0 } : Share)
  x.finish shares dr

def execMtch (w : W) (m : IntMod) : State → Host.Outcome State Fault Refusal :=
  issue (w.fields 0xBD m.bits) noPre (mtchBody m.ty)

/-! Spawned work (R142 to R144, R146, R164) -/

def maxDepth : Nat := 10
def spawnCap : Nat := 4096

def depthPre (x : Cx) : Option Fate := if maxDepth ≤ x.g.depth then some (.trap trapDepth 0 x.act) else none

/-- A group's drains still under way, whose bytes a group it spawns must find (R165, R255). -/
def State.drains? (s : State) (gid : Nat) : Bool := s.drains.any fun d => d.gid == gid

/-- SPAWN (R164); it waits for its group's drains (R165, R255). Log entry 95. -/
def spawnBody (x : Cx) : Fate :=
  let ofs (t : Nat) : Word := (x.getB t).extractLsb' 0 32
  let bad := Mask.ofList (x.threads.filter fun t => (ofs t).extractLsb' 0 2 != 0)
  if bad ≠ 0 then .trap trapIllegal 14 bad
  else
    let queued := (x.s.spawnQ.filter fun q => q.1 == x.g.core).length
    if spawnCap < queued + x.threads.length ∨ x.s.drains? x.g.gid then .hold
    else
      let items := x.threads.map fun t =>
        (x.g.core, ({ pc := x.g.pc + BitVec.ofInt 52 (ofs t).toInt, arg := x.getA t, bid := x.b.bid,
                      depth := x.g.depth + 1 } : Item))
      .done { x.s with spawnQ := x.s.spawnQ ++ items } none false

def execSpawn (w : W) : State → Host.Outcome State Fault Refusal := issue (w.fields 0xBA 0) depthPre spawnBody

/-- An open group that an item joins, or the one it opens; sealed at its 32nd thread (R143). The key leaves depth out, and the
group has that of its first item. Log entry 70. -/
def State.packItem (s : State) (core : Nat) (it : Item) : Option State :=
  match s.openG.find? fun o => o.core == core && o.pc == it.pc && o.bid == it.bid with
  | some o =>
    let o' := { o with args := o.args ++ [it.arg] }
    if o'.args.length = 32 then
      some { s with openG := s.openG.filter fun p => p.oid != o.oid, sealedG := s.sealedG ++ [o'] }
    else some { s with openG := replaceBy (fun p => p.oid == o.oid) o' s.openG }
  | none =>
    if 16 ≤ (s.openG.filter fun o => o.core == core).length then none
    else
      let (oid, s) := s.fresh
      some { s with openG := s.openG ++ [⟨oid, core, it.pc, it.bid, it.depth, [it.arg], s.now⟩] }

/-- The first item of a core taken from the spawn queue. -/
def takeItem (core : Nat) : List (Nat × Item) → Option (Item × List (Nat × Item))
  | [] => none
  | q :: rest =>
    if q.1 = core then some (q.2, rest) else (takeItem core rest).map fun r => (r.1, q :: r.2)

/-- SPAWN_PACK_ITEM: the packing unit takes the item at the head of a core's queue; with 16 groups open an item of a new
key waits there. -/
def execSpawnPackItem (core : Nat) (s : State) : Host.Outcome State Fault Refusal :=
  match takeItem core s.spawnQ with
  | none => .next s
  | some (it, rest) =>
    match { s with spawnQ := rest }.packItem core it with
    | some s' => if s.coreRuns core then .next s' else .next s
    | none => .next s

/-- PARTIAL_GROUP_SEAL: 256 cycles after its first thread joined. -/
def execPartialGroupSeal (core oid : Nat) (s : State) : Host.Outcome State Fault Refusal :=
  match s.openG.find? fun o => o.core == core && o.oid == oid with
  | some o =>
    if o.since + 256 ≤ s.now && s.coreRuns core then
      .next { s with openG := s.openG.filter fun p => p.oid != oid, sealedG := s.sealedG ++ [o] }
    else .next s
  | none => .next s

/-- A group slot that is not free: a resident group holds it, or it lies in a place of a block whose member it would be
does not exist, and stays unowned for the life of the block (R129, R147). -/
def State.slotTaken (s : State) (core slot : Nat) : Bool :=
  (s.groups.any fun g => g.core == core && g.slot == slot) ||
    s.blocks.any fun b => b.core == core &&
      match b.places.findIdx? fun p => p == 4 * (slot / 16) + slot % 16 / 4 with
      | some j => decide ((b.nthr + 31) / 32 ≤ 4 * j + slot % 4)
      | none => false

/-- A quartet place is free when its four slots are (R129, R130). -/
def State.placeFree (s : State) (core p : Nat) : Bool :=
  (List.range 4).all fun m => !s.slotTaken core (16 * (p / 4) + 4 * (p % 4) + m)

/-- The lowest free group slot of a core over a context's positions (R143, R302). -/
def State.freeSlot (s : State) (core : Nat) (c : Ctx) : Option Nat :=
  (List.range 64).find? fun slot =>
    decide (c.positions.1 ≤ slot / 16 ∧ slot / 16 < c.positions.2) && !s.slotTaken core slot

/-- A spawned group as it starts (R144): thread t holds its argument in v0 and v1. -/
def spawnedGroup (gid : Nat) (o : OpenGroup) (slot : Nat) : Group :=
  let n := o.args.length
  let g := Group.launch gid o.bid allOnes32 o.core (slot % 16) (slot / 16) o.depth (groupMask n 0) o.pc []
  let g := { g with spawned := true, member := 0 }
  (List.range n).foldl (fun g t =>
    let a := o.args.getD t 0
    (g.vset 0 t (a.extractLsb' 0 32)).vset 1 t (a.extractLsb' 32 32)) g

/-- What happens before the accesses of a block's groups, resident or gone, happens before those of one more group (R165, R169).
A block's name in a write's past stands for its groups that are gone; no group has a block's name. -/
def State.inherit (s : State) (bid gid : Nat) : State :=
  let gids := bid :: (s.groups.filter fun g => g.bid == bid).map (·.gid)
  { s with scw := s.scw.map fun w =>
      if (w.bid == bid || w.mine gids) && !w.past.contains gid then { w with past := w.past ++ [gid] } else w }

/-- SPAWNED_GROUP_START: the first sealed group of a core takes the lowest free slot. -/
def execSpawnedGroupStart (core : Nat) (s : State) : Host.Outcome State Fault Refusal :=
  match s.sealedG.find? fun o => o.core == core with
  | none => .next s
  | some o =>
    match s.block? o.bid with
    | none => .next s
    | some b =>
      match s.ctx? b.ctx with
      | none => .next s
      | some c =>
        match s.freeSlot core c with
        | none => .next s
        | some slot =>
          if !s.coreRuns core || b.phase == .saving then .next s
          else
            let (gid, s) := s.fresh
            .next { s.inherit o.bid gid with groups := s.groups ++ [spawnedGroup gid o slot],
                                             sealedG := s.sealedG.filter fun p => p.oid != o.oid }

/-! Child grids (R145, R146, R166 to R169) -/

/-- A grid descriptor's header (R166), as a number of 512 bits. -/
structure GridDesc where
  entry  : VA
  gx     : Nat
  gy     : Nat
  gz     : Nat
  nthr   : Nat
  ntile  : Nat
  shmem  : Nat
  nparam : Nat
  idem   : Bool
  expcnt : Nat
  deriving DecidableEq, Repr

/-- The header read, and whether its own fields are refused. -/
def readDesc (h : Nat) : GridDesc × Bool :=
  let f (lo n : Nat) : Nat := h / 2 ^ lo % 2 ^ n
  let d : GridDesc :=
    { entry := BitVec.ofNat 52 (f 0 52), gx := f 64 32 + 1, gy := f 96 32 + 1, gz := f 128 32 + 1, nthr := f 160 10 + 1,
      ntile := f 176 5, shmem := f 192 20, nparam := f 224 6, idem := h.testBit 231, expcnt := f 256 64 }
  let bad := f 52 12 != 0 || f 0 2 != 0 || f 170 6 != 0 || f 181 11 != 0 || f 212 12 != 0 || f 230 1 != 0 ||
    f 232 24 != 0 || f 320 192 != 0 || decide (32 < d.nparam) || decide (16 < d.ntile) || d.shmem % 16 != 0 ||
    decide (524288 < d.shmem) || decide (2 ^ 32 < d.gx * d.gy * d.gz)
  (d, bad)

/-- A grid whose block its context cannot hold on a core (R166). -/
def tooLarge (d : GridDesc) (c : Ctx) : Bool :=
  decide (4 * (c.positions.2 - c.positions.1) < ((d.nthr + 31) / 32 + 3) / 4)

/-- A grid's placement cores, and a grid with blocks still to place (R148, R167). -/
def coresOf (dies : List Nat) : List Nat := dies.flatMap fun d => (List.range 160).map fun i => 160 * d + i
def Grid.size (g : Grid) : Nat := g.gx * g.gy * g.gz
def Grid.pending (g : Grid) : Bool := decide (g.next < g.size) || !g.again.isEmpty

/-- A launch whose descriptor is being read, on a die of its context: the grid it may make has its place already. -/
def State.launching (s : State) (die : Nat) (g : Group) : Bool :=
  g.gdesc.isSome && match (s.block? g.bid).bind fun b => s.ctx? b.ctx with
    | some c => c.dies.contains die
    | none => false

/-- One more grid would pass the limit of 1,024 on some of the dies (R167). -/
def State.gridLimit (s : State) (dies : List Nat) : Bool :=
  dies.any fun d =>
    decide (1024 ≤ (s.grids.filter fun g => g.pending && g.cores.any fun c => dieOf c == d).length +
      (s.groups.filter (s.launching d)).length)

/-- A grid made from a descriptor, with the context's next number (R167). -/
def State.makeGrid (s : State) (ctx : Nat) (d : GridDesc) (params : List Word) (depth : Nat) (cores : List Nat) (ptr : Nat)
    (parent : Option Nat) (proc thread : Word) : Word × State :=
  match s.ctx? ctx with
  | none => (0, s)
  | some c =>
    let (gid, s) := s.fresh
    let g : Grid :=
      { gid := gid, ctx := ctx, num := c.gridCtr, entry := d.entry, gx := d.gx, gy := d.gy, gz := d.gz, nthr := d.nthr,
        shmem := d.shmem, ntile := d.ntile, expcnt := d.expcnt, idem := d.idem, params := params, depth := depth,
        cores := cores, ptr := ptr, next := 0, again := [], retired := 0, parent := parent, proc := proc,
        thread := thread }
    (c.gridCtr, ({ s with grids := s.grids ++ [g] }).setCtx { c with gridCtr := c.gridCtr + 1 })

/-- An offset whose header lies within the context's region (R167). -/
def descPlaced (c : Ctx) (off : Nat) : Bool :=
  decide (off ≤ 2 ^ 28 - 64) && off % 64 == 0 && decide (off + 64 ≤ c.scSize)

def bytesNat (l : List Byte) : Nat := l.foldr (fun b n => b.toNat + 256 * n) 0
def wordsFrom (l : List Byte) (n : Nat) : List Word :=
  (List.range n).map fun i => BitVec.ofNat 32 (bytesNat ((l.drop (4 * i)).take 4))

/-- GLAUNCH (R167): its checks and its release (R168), then held in issue until its descriptor has been read, then the grid or
the refusal. -/
def glaunchBody (x : Cx) : Fate :=
  let off := codeOf (x.getA 0)
  match x.g.gdesc with
  | none =>
    if !descPlaced x.c off then .trap trapIllegal 15 x.g.amask
    else if x.s.gridLimit x.c.dies || !x.s.releaseReady x.g .dev then .hold
    else .stay (x.s.modGroup x.g.gid fun g => { g with gdesc := some (off, none) })
  | some (_, none) => .stay x.s
  | some (_, some bytes) =>
    let (d, bad) := readDesc (bytesNat (bytes.take 64))
    if bad || tooLarge d x.c || decide (x.c.scSize < off + 64 + 4 * d.nparam) then .trap trapIllegal 15 x.g.amask
    else
      let pg := x.s.grid? x.b.ctx x.b.grid
      let cores := coresOf x.c.dies
      let (num, s) := x.s.makeGrid x.b.ctx d (wordsFrom (bytes.drop 64) d.nparam) (x.g.depth + 1) cores
        (cores.findIdx fun c => c == x.g.core) (some x.b.bid) ((pg.map (·.proc)).getD 0) ((pg.map (·.thread)).getD 0)
      .done (s.modGroup x.g.gid fun g => if x.f.dst = 0 then g else g.writeDst x.f.dst 0 [num]) none false

def execGlaunch (w : W) : State → Host.Outcome State Fault Refusal := issue (w.fields 0xBB 0) depthPre glaunchBody

/-- DWAIT (R169): detail 11 in a spawned group; held while the block has a live descendant. -/
def dwaitPre (x : Cx) : Option Fate := if x.g.spawned then some (.trap trapIllegal 11 x.g.amask) else none

/-- A block with a live descendant. -/
def State.descends (s : State) (bid : Nat) : Bool :=
  (s.spawnQ.any fun q => q.2.bid == bid) || (s.openG.any fun o => o.bid == bid) || (s.sealedG.any fun o => o.bid == bid) ||
    (s.groups.any fun g => g.spawned && g.bid == bid) || s.grids.any fun g => g.parent == some bid

/-- The appends and drains of a block's groups that have gone are done. Log entry 85. -/
def State.goneSettled (s : State) (bid : Nat) : Bool :=
  let gone (gid : Nat) : Bool := !(s.groups.any fun g => g.gid == gid)
  !(s.appends.any fun a => a.bid == bid && a.cid.isNone && gone a.gid) && !(s.drains.any fun d => d.bid == bid && gone d.gid)

/-- DWAIT's wait has ended (R169): what its descendants did is done, and happens before what its group does next. That it waits too
for what groups that have gone still have under way is the model's reading of the acquire (log entry 85). -/
def dwaitBody (x : Cx) : Fate :=
  if x.s.descends x.b.bid || !x.s.goneSettled x.b.bid then .hold else .done (x.s.inherit x.b.bid x.g.gid) none false

def execDwait (w : W) : State → Host.Outcome State Fault Refusal := issue (w.fields 0xBC 0) dwaitPre dwaitBody

end Sys2Proof.Machine
end

