-- ==== Sys2Proof/Machine/Placement.lean ====
section
/-! DEFINITION. Placing blocks, retiring them, and fusing quartets (R129, R130, R135, R136, R147, R148, R356). -/

namespace Sys2Proof.Machine

open Sys2Proof

/-! Room (R130) -/

/-- The lowest free quartet places of a context on a core, by place number. -/
def State.freePlaces (s : State) (c : Ctx) (core : Nat) : List Nat :=
  (List.range 16).filter fun p =>
    decide (c.positions.1 ≤ p / 4 ∧ p / 4 < c.positions.2) && s.placeFree core p

/-- A block that still holds its shared memory (R147): groups of its own or spawned ones, or work for them, or an engine's
or a drain's for it. -/
def State.holdsShared (s : State) (b : Block) : Bool :=
  (s.groups.any fun g => g.bid == b.bid) || (s.spawnQ.any fun q => q.2.bid == b.bid) ||
    (s.openG.any fun o => o.bid == b.bid) || (s.sealedG.any fun o => o.bid == b.bid) ||
    (s.cards.any fun k => k.bid == b.bid) || s.drains.any fun d => d.bid == b.bid && d.place == .sh

/-- Operations in flight into a block's tiles (R236). -/
def State.tilesBusy (s : State) (bid : Nat) : Bool :=
  (s.churn.any fun o => o.bid == bid) || (s.frozen.any fun o => o.bid == bid) ||
    s.results.any fun r => match r.tile with | some (b, _, _) => b == bid | none => false

/-- A block that still holds its tiles (R147, R236): until the last of its own groups has retired. -/
def State.holdsTiles (s : State) (b : Block) : Bool :=
  (s.groups.any fun g => g.bid == b.bid && !g.spawned) || s.tilesBusy b.bid

def sharedSize : Nat := 524288
def tileCount : Nat := 16

/-- The places a core gives a block of n threads, so much shared memory and so many tiles; none without room. -/
def State.roomFor (s : State) (c : Ctx) (core nthr shmem ntile : Nat) : Option (List Nat) :=
  let here := s.blocks.filter fun b => b.core == core
  let need := ((nthr + 31) / 32 + 3) / 4
  let places := s.freePlaces c core
  let sh := ((here.filter s.holdsShared).map (·.shmem)).sum
  let tiles := ((here.filter fun b => b.ctx == c.no && s.holdsTiles b).map (·.ntile)).sum
  if need ≤ places.length ∧ sh + shmem ≤ sharedSize ∧ tiles + ntile ≤ tileCount then some (places.take need) else none

/-- Placement of a context's blocks goes on on a core that no pre-emption of it names and whose cluster is powered (R299,
R353). -/
def State.placesOn (s : State) (ctx core : Nat) : Bool :=
  !(s.prereqs.any fun r => r.ctx == ctx && r.core == core) && s.coreRuns core

/-! PLACE_BLOCK (R148) -/

/-- A list from a place on, cyclically. -/
def cyclicFrom (l : List Nat) (n : Nat) : List Nat := l.drop n ++ l.take n

/-- The core a block goes to: the first with room, or one of the eight after it that has room and is not over
threshold. -/
def chooseCore (room hot : Nat → Bool) (cyclic : List Nat) : Option Nat :=
  match cyclic.dropWhile fun c => !room c with
  | [] => none
  | q :: rest => some (((q :: rest.take 8).find? fun c => room c && !hot c).getD q)

/-- The next block of a grid: a flushed one whose core's pre-emption has ended, or the next unplaced one, under a new name, with the
grid that is left. -/
def State.nextBlock (s : State) (g : Grid) : Option (Again × Grid) :=
  match g.again.find? fun e => !(s.prereqs.any fun r => r.ctx == g.ctx && r.core == e.core) with
  | some e => some (e, { g with again := g.again.erase e })
  | none => if g.next < g.size then some (⟨s.nextId, g.next, 0, 0, 0⟩, { g with next := g.next + 1 }) else none

/-- A block placed on a core at its places, with its groups. One that runs again keeps its name: what its discarded runs still have
under way is waited for as its own (R169). -/
def State.putBlock (s : State) (g : Grid) (e : Again) (core : Nat) (places : List Nat) : State :=
  let s : State := { s with nextId := max s.nextId (e.bid + 1) }
  let b := { Block.launch e.bid g e.idx core places with carryE := e.energy, carryN := e.count }
  let (gs, s) := blockGroups s b g
  let s : State := { s with blocks := s.blocks ++ [b], groups := s.groups ++ gs }
  s.traceEvent g.ctx 1 core 0 core (s.blockName e.bid) allOnes32 0 0

/-- PLACE_BLOCK: the distributor places the next block of a grid on a core that has room, by what it samples of the cores' sensors. -/
def execPlaceBlock (ctx : Nat) (next : Placing) (s : State) : Host.Outcome State Fault Refusal :=
  match s.grid? ctx next.grid, s.ctx? ctx with
  | some g, some c =>
    match s.nextBlock g with
    | none => .next s
    | some (e, g') =>
      let room (core : Nat) : Bool :=
        s.placesOn ctx core && (s.roomFor c core g.nthr g.shmem g.ntile).isSome
      match chooseCore room next.hot.contains (cyclicFrom g.cores g.ptr) with
      | none => .next s
      | some core =>
        match s.roomFor c core g.nthr g.shmem g.ntile with
        | none => .next s
        | some places =>
          let at_ := g.cores.findIdx fun x => x == core
          let g' := { g' with ptr := (at_ + 1) % g.cores.length }
          .next ((s.setGrid g').putBlock g' e core places)
  | _, _ => .next s

/-! BLOCK_RETIRE (R147, R356) -/

/-- Nothing keeps a block from retiring: its groups, descendants, cards, appends, drains and operations into its tiles are
done. -/
def State.blockDone (s : State) (b : Block) : Bool :=
  !(s.groups.any fun g => g.bid == b.bid) && !s.descends b.bid && !(s.cards.any fun k => k.bid == b.bid) &&
    s.goneSettled b.bid && !s.tilesBusy b.bid && b.phase != .saving

/-- The block's energy record (R356). -/
def State.logEnergy (s : State) (b : Block) : State :=
  s.log b.ctx 0x08 0 0 0 (s.blockName b.bid) allOnes32
    ((b.energy + b.carryE).toNat + 2 ^ 64 * ((b.retcnt + b.carryN) % 2 ^ 64))

/-- A grid one of whose blocks has retired; it retires with its last (R147). -/
def State.countRetired (s : State) (ctx grid : Nat) : State :=
  match s.grid? ctx grid with
  | none => s
  | some g =>
    if g.size ≤ g.retired + 1 then { s with grids := s.grids.filter fun x => x.gid != g.gid }
    else s.setGrid { g with retired := g.retired + 1 }

/-- A block's own writes of .sc performed at the die with those that happen before its groups' accesses, in its core's order
(R224). -/
def State.performBlock (s : State) (bid core : Nat) : State :=
  if s.scw.any fun w => w.bid == bid || w.past.contains bid then s.performCore core else s

/-- BLOCK_RETIRE (R147, R169): what the block wrote is at the die from then on. -/
def execBlockRetire (bid : Nat) (s : State) : Host.Outcome State Fault Refusal :=
  match s.block? bid with
  | none => .next s
  | some b =>
    if !s.blockDone b || !s.coreRuns b.core then .next s
    else
      let s := (s.performBlock bid b.core).logEnergy b
      let s := s.traceEvent b.ctx 2 b.core 0 b.core (s.blockName bid) allOnes32 0 0
      .next ({ s with blocks := s.blocks.filter fun x => x.bid != bid }.countRetired b.ctx b.grid)

/-- QUARTET_FUSE (R136): a check that a point of re-fusion has called for, at the end of its turn. -/
def execQuartetFuse (bid j : Nat) (s : State) : Host.Outcome State Fault Refusal :=
  if !s.refuse.contains (bid, j) || s.now < s.cycle + 7 then .next s
  else
    let s : State := { s with refuse := s.refuse.erase (bid, j) }
    .next (if s.together bid j then s.modBlock bid fun b => b.setFused j true else s)

end Sys2Proof.Machine
end

