-- ==== Sys2Proof/Machine/Due.lean ====
section
/-! DEFINITION. What happens between turns: the events whose moment the state fixes, the agenda of the others, and which
comes first (R132, R136, R143, R147, R170, R237, R298, R299, R325, R353, R354). -/

namespace Sys2Proof.Machine

/-- The first operation of each core's churn, with the cycle it ends at (R237). -/
def State.churnDue (s : State) : List (Nat × Instr) :=
  ((nubNat (s.churn.map (·.core))).filter s.coreRuns).filterMap fun core =>
    (s.churn.find? fun o => o.core == core).map fun o =>
      (max o.early (Sparse.get 0 s.churnEnd core) + o.dur, .churnOpComplete core)

def State.wdogDue (s : State) : List (Nat × Instr) :=
  s.groups.filterMap fun g =>
    match (s.block? g.bid).bind fun b => s.ctx? b.ctx with
    | some c =>
      let lim := c.ctl.wdlim.toNat
      if s.coreRuns g.core && lim != 0 && s.counting g then some (s.now + (lim - g.counted), .wdogExpiry g.gid) else none
    | none => none

/-- Requests whose deferral limit has passed (R134): pre-emptions, and switches. -/
def State.critxDue (s : State) : List (Nat × Instr) :=
  let one (ctx core at_ : Nat) : Option (Nat × Instr) :=
    match s.ctx? ctx with
    | some c => if c.ctl.defer = 0 || !s.coreRuns core then none else some (at_ + c.ctl.defer.toNat, .critx ctx core)
    | none => none
  (s.prereqs.filterMap fun r => if r.critx then none else one r.ctx r.core r.at_) ++
    s.switches.filterMap fun w =>
      match s.active.find? fun e => e.1 == w.core with
      | some e => if e.2 == w.dest || w.critx then none else one e.2 w.core w.at_
      | none => none

/-- The start time of the slice under way, once every module has reported (R325). -/
def Slice.startAt (sl : Slice) : Option Nat :=
  if sl.modules.all fun m => sl.ready.any fun r => r.1 == m then
    let last := sl.ready.foldl (fun m r => max m r.2) 0
    some (if last ≤ sl.start then sl.start else (last + 1249) / 1250 * 1250)
  else none

/-- The cycles until fabric time, a 64-bit count (R309), reaches a value; none when it has passed it. -/
def State.fabricWait (s : State) (f : Nat) : Nat :=
  let d := (BitVec.ofNat 64 f - s.fabricTime).toNat
  if d < 2 ^ 63 then d else 0

def State.sliceDue (s : State) : List (Nat × Instr) :=
  match s.slice with
  | none => []
  | some sl =>
    let grace := ((s.ctx? sl.y).map (·.ctl.grace.toNat)).getD 0
    let limit := sl.start + grace
    let at_ (f : Nat) : Nat := s.cycle + s.fabricWait f
    match sl.startAt with
    | some t => if t ≤ limit then [(at_ t, .sliceStart)] else [(at_ limit, .slicex)]
    | none => [(at_ limit, .slicex)]

/-- Blocks that nothing keeps from retiring. -/
def State.retireDue (s : State) : List (Nat × Instr) :=
  (s.blocks.filter fun b => s.blockDone b && s.coreRuns b.core).map fun b => (s.cycle, .blockRetire b.bid)

/-- Every event whose moment the state fixes, with its cycle, but for the re-fusion checks that end a turn (`step`). -/
def State.due (s : State) : List (Nat × Instr) :=
  s.retireDue ++ s.churnDue ++
  (s.openG.filter fun o => s.coreRuns o.core).map (fun o => (o.since + 256, .partialGroupSeal o.core o.oid)) ++
  s.wdogDue ++ s.critxDue ++
  (s.blocks.filterMap fun b => match b.phase with
    | .draining d => if s.coreRuns b.core then some (d, .drainTimeout b.bid) else none
    | _ => none) ++
  (s.groups.filterMap fun g => g.delay.map fun d => (d, .delayDeadline g.gid)) ++ s.sliceDue ++
  s.gatings.map (fun g => (g.2, .gatingDrainTimeout g.1)) ++
  s.snaps.map fun c => (c.at_, .perfSnapshot)

def earliest : List (Nat × Instr) → Option (Nat × Instr)
  | [] => none
  | e :: rest =>
    match earliest rest with
    | some f => if f.1 < e.1 then some f else some e
    | none => some e

/-- The next event before the next turn begins: the earliest of those the state fixes and the agenda's first, with its
cycle and the state without the agenda entry it takes. -/
def State.nextEvent (s : State) : Option (Nat × Instr × State) :=
  let fixed := (earliest s.due).filter fun e => decide (e.1 < s.cycle + 8)
  match fixed, s.agenda with
  | some e, (t, i) :: rest =>
    if t < s.cycle + 8 ∧ t < e.1 then some (max t s.now, i, { s with agenda := rest })
    else some (max e.1 s.now, e.2, s)
  | some e, [] => some (max e.1 s.now, e.2, s)
  | none, (t, i) :: rest => if t < s.cycle + 8 then some (max t s.now, i, { s with agenda := rest }) else none
  | none, [] => none

end Sys2Proof.Machine
end

