-- ==== Sys2Proof/Machine/Keccak.lean ====
section
/-! DEFINITION. SHA3-256 and the SHAKE functions (FIPS 202), as R344 and R345 use them. -/

namespace Sys2Proof.Machine

open Sys2Proof

/-! The permutation Keccak-f[1600] on 25 lanes; lane (x, y) is the one at x + 5 y. -/

abbrev Lanes := List DWord

def laneAt (a : Lanes) (x y : Nat) : DWord := a.getD (x % 5 + 5 * (y % 5)) 0

/-- The lanes given by their places. -/
def lanesOf (f : Nat → Nat → DWord) : Lanes := (List.range 25).map fun i => f (i % 5) (i / 5)

/-- The turns of ρ, by the walk over the lanes on which they are the triangular numbers: the places still to visit, the place
reached, and the turns found. -/
def rhoWalk : Nat → Nat → Nat → List (Nat × Nat) → List (Nat × Nat)
  | 0, _, _, l => l
  | n + 1, x, y, l =>
    let t := 24 - n
    rhoWalk n y ((2 * x + 3 * y) % 5) ((x + 5 * y, t * (t + 1) / 2 % 64) :: l)

def rhoTurns : List (Nat × Nat) := rhoWalk 24 1 0 []

/-- How far ρ turns a lane; lane 0 stays. -/
def rhoTurn (i : Nat) : Nat := ((rhoTurns.find? fun e => e.1 == i).map (·.2)).getD 0

/-- The shift register of ι, whose feedback is x⁸ + x⁶ + x⁵ + x⁴ + 1. -/
def iotaShift (r : Byte) : Byte := (r <<< 1) ^^^ (if r.getLsbD 7 then 0x71 else 0)

/-- The bits that the register gives, one a step. -/
def iotaBits : Nat → Byte → List Bool
  | 0, _ => []
  | n + 1, r => r.getLsbD 0 :: iotaBits n (iotaShift r)

/-- The constant of a round: seven bits of the register, bit j at place 2^j − 1. -/
def iotaOf (bits : List Bool) : DWord :=
  (List.range 7).foldl (fun w j => if bits.getD j false then w ||| (1#64 <<< (2 ^ j - 1)) else w) 0

def iotaConstants : Nat → List Bool → List DWord
  | 0, _ => []
  | n + 1, bits => iotaOf bits :: iotaConstants n (bits.drop 7)

def keccakTheta (a : Lanes) : Lanes :=
  let c := (List.range 5).map fun x => (List.range 5).foldl (fun (p : DWord) y => p ^^^ laneAt a x y) 0
  let d := (List.range 5).map fun x => c.getD ((x + 4) % 5) 0 ^^^ (c.getD ((x + 1) % 5) 0).rotateLeft 1
  lanesOf fun x y => laneAt a x y ^^^ d.getD x 0

/-- ρ and π: each lane turned and moved. -/
def keccakMove (a : Lanes) : Lanes :=
  lanesOf fun x y =>
    let x' := (x + 3 * y) % 5
    (laneAt a x' x).rotateLeft (rhoTurn (x' + 5 * x))

def keccakChi (a : Lanes) : Lanes := lanesOf fun x y => laneAt a x y ^^^ (~~~laneAt a (x + 1) y &&& laneAt a (x + 2) y)

def keccakRound (a : Lanes) (rc : DWord) : Lanes :=
  let b := keccakChi (keccakMove (keccakTheta a))
  b.set 0 (b.getD 0 0 ^^^ rc)

/-- The 24 rounds. -/
def keccakF (a : Lanes) : Lanes := (iotaConstants 24 (iotaBits 168 1)).foldl keccakRound a

/-! The sponge -/

/-- The lanes of bytes, lowest byte first. -/
def bytesLanes : Nat → List Byte → Lanes
  | 0, _ => []
  | n + 1, l => (l.take 8).foldr (fun b x => x <<< 8 ||| b.zeroExtend 64) 0 :: bytesLanes n (l.drop 8)

def laneBytes (x : DWord) : List Byte := (List.range 8).map fun i => x.extractLsb' (8 * i) 8

/-- A block of `rate` bytes taken in. -/
def absorbBlock (a : Lanes) (block : List Byte) : Lanes := keccakF (List.zipWith (· ^^^ ·) a (bytesLanes 25 block))

/-- A message padded to whole blocks: its suffix bits and first pad bit in `suffix`, the last pad bit at the end. -/
def spongePad (rate : Nat) (suffix : Byte) (m : List Byte) : List Byte :=
  let n := rate - m.length % rate
  if n = 1 then m ++ [suffix ||| 0x80] else m ++ suffix :: List.replicate (n - 2) 0 ++ [0x80]

def absorb (rate : Nat) : Nat → List Byte → Lanes → Lanes
  | 0, _, a => a
  | n + 1, m, a => absorb rate n (m.drop rate) (absorbBlock a (m.take rate))

def squeeze (rate : Nat) : Nat → Lanes → List Byte
  | 0, _ => []
  | n + 1, a => (a.flatMap laneBytes).take rate ++ squeeze rate n (keccakF a)

/-- A sponge's first n bytes. -/
def sponge (rate : Nat) (suffix : Byte) (m : List Byte) (n : Nat) : List Byte :=
  let p := spongePad rate suffix m
  (squeeze rate (n / rate + 1) (absorb rate (p.length / rate) p (List.replicate 25 0))).take n

def sha3 (m : List Byte) : List Byte := sponge 136 0x06 m 32
def shake128 (m : List Byte) (n : Nat) : List Byte := sponge 168 0x1F m n
def shake256 (m : List Byte) (n : Nat) : List Byte := sponge 136 0x1F m n

end Sys2Proof.Machine
end

