-- ==== Sys2Proof/Machine/MlDsa.lean ====
section
/-! DEFINITION. ML-DSA-44 (FIPS 204), as R344 and R345 use it, in its pure form with an empty context string: verification of a
signature, keys made from a seed, and signing. Log entry 83. -/

namespace Sys2Proof.Machine

open Sys2Proof

/-! The ring: 256 coefficients modulo q -/

def dsaQ : Nat := 8380417

abbrev Poly := List Nat

def polyZip (f : Nat → Nat → Nat) (a b : Poly) : Poly := List.zipWith (fun x y => f x y % dsaQ) a b
def polyAdd : Poly → Poly → Poly := polyZip (· + ·)
def polyMul : Poly → Poly → Poly := polyZip (· * ·)
def polySub : Poly → Poly → Poly := polyZip fun x y => x + (dsaQ - y)

/-- The low 8 bits of a number in reverse. -/
def bitReverse (n : Nat) : Nat := (List.range 8).foldl (fun m i => 2 * m + n / 2 ^ i % 2) 0

/-- The points at which the number-theoretic transform evaluates: odd powers of a 512th root of unity, in reversed order; and their
inverses. -/
def nttPoints : List Nat := (List.range 256).map fun i => 1753 ^ (2 * bitReverse i + 1) % dsaQ
def nttInverses : List Nat := (List.range 256).map fun i => 1753 ^ (511 - 2 * bitReverse i) % dsaQ

def ntt (f : Poly) : Poly := nttPoints.map fun x => f.foldr (fun c acc => (c + x * acc) % dsaQ) 0

/-- Coefficients of the inverse transform from terms, which each step multiplies by its point's inverse. 8347681 is the
inverse of 256. -/
def nttBackFrom : Nat → List Nat → Poly
  | 0, _ => []
  | n + 1, terms => terms.foldl (· + ·) 0 * 8347681 % dsaQ :: nttBackFrom n (polyMul terms nttInverses)

def nttBack (f : Poly) : Poly := nttBackFrom 256 f

/-! Bits and bytes -/

/-- The number of some bytes, lowest first. -/
def littleNat (l : List Byte) : Nat := l.foldr (fun b n => b.toNat + 256 * n) 0

/-- n fields of some bits each from bytes. -/
def unpackBits (width n : Nat) (l : List Byte) : List Nat :=
  let x := littleNat l
  (List.range n).map fun i => x / 2 ^ (width * i) % 2 ^ width

/-- Fields of some bits each, as bytes. -/
def packBits (width : Nat) (l : List Nat) : List Byte :=
  let x := l.foldr (fun v n => v + 2 ^ width * n) 0
  (List.range (width * l.length / 8)).map fun i => BitVec.ofNat 8 (x / 256 ^ i)

/-- Pieces of n bytes, k of them. -/
def piecesOf (n : Nat) : Nat → List Byte → List (List Byte)
  | 0, _ => []
  | k + 1, l => l.take n :: piecesOf n k (l.drop n)

/-! Sampling. The bytes drawn are as many as the bounds FIPS 204 allows on its loops. -/

def rejectSamples : List Byte → List Nat
  | a :: b :: c :: rest =>
    let z := a.toNat + 256 * b.toNat + 65536 * (c.toNat % 128)
    if z < dsaQ then z :: rejectSamples rest else rejectSamples rest
  | _ => []

/-- An entry of the public matrix, in the transform's domain. -/
def matrixEntry (rho : List Byte) (r s : Nat) : Poly :=
  (rejectSamples (shake128 (rho ++ [BitVec.ofNat 8 s, BitVec.ofNat 8 r]) 894)).take 256

/-- One coefficient of the challenge from the first byte that is not above its place. -/
def ballFrom (signs : List Nat) : Nat → Nat → List Byte → Poly → Poly
  | 0, _, _, c => c
  | n + 1, i, bytes, c =>
    match bytes.dropWhile fun b => decide (i < b.toNat) with
    | [] => c
    | b :: rest =>
      let j := b.toNat
      let c := (c.set i (c.getD j 0)).set j (if signs.getD (i - 217) 0 = 0 then 1 else dsaQ - 1)
      ballFrom signs n (i + 1) rest c

/-- The challenge: 39 coefficients of ±1. -/
def sampleBall (seed : List Byte) : Poly :=
  let s := shake256 seed 221
  ballFrom (unpackBits 1 64 (s.take 8)) 39 217 (s.drop 8) (List.replicate 256 0)

/-! Hints -/

/-- The positions of one polynomial's hints are rising. -/
def rising : List Nat → Bool
  | a :: b :: rest => decide (a < b) && rising (b :: rest)
  | _ => true

/-- The hints of polynomials from their ends among the positions; none for a malformed list. -/
def hintsFrom (y : List Nat) (first : Nat) : List Nat → Option (List (List Nat))
  | [] => if (y.drop first).all (· == 0) then some [] else none
  | e :: ends =>
    let mine := (y.drop first).take (e - first)
    if e < first ∨ 80 < e ∨ !rising mine then none else (hintsFrom y e ends).map fun h => mine :: h

/-- The high part of a coefficient as its hint corrects it: the coefficient lies within 95232 of that multiple of 190464, of which
44 wrap around. -/
def useHint (hint : Bool) (r : Nat) : Nat :=
  let low := r % 190464
  let up := decide (low ≤ 95232)
  let high := (r / 190464 + if up then 0 else 1) % 44
  if !hint then high else if up && low != 0 then (high + 1) % 44 else (high + 43) % 44

/-- A coefficient, as a number modulo q, lies less than n from 0. -/
def within (n v : Nat) : Bool := decide (v < n ∨ dsaQ - n < v)

/-- What is signed of a message under a public key's hash: that hash, the prefix of the pure form, and the message. -/
def messageHash (tr message : List Byte) : List Byte := shake256 (tr ++ [0, 0] ++ message) 64

/-- A row of the public matrix times a vector, in the transform's domain. -/
def rowTimes (rho : List Byte) (r : Nat) (v : List Poly) : Poly :=
  ((List.range 4).zip v).foldl (fun acc e => polyAdd acc (polyMul (matrixEntry rho r e.1) e.2)) (List.replicate 256 0)

/-! Verification -/

/-- A signature of a message under a public key. -/
def mldsaVerify (key message sig : List Byte) : Bool :=
  let rho := key.take 32
  let t1 := (piecesOf 320 4 (key.drop 32)).map (unpackBits 10 256)
  let seed := sig.take 32
  let z := (piecesOf 576 4 (sig.drop 32)).map fun p => (unpackBits 18 256 p).map fun v => (dsaQ + 2 ^ 17 - v) % dsaQ
  let y := (sig.drop 2336).map fun b => b.toNat
  match hintsFrom (y.take 80) 0 (y.drop 80) with
  | none => false
  | some hints =>
    let mu := messageHash (shake256 key 64) message
    let zt := z.map ntt
    let c := ntt (sampleBall seed)
    let rows := (List.range 4).map fun r =>
      let ct := polyMul c (ntt ((t1.getD r []).map fun v => v * 2 ^ 13))
      let w := nttBack (polySub (rowTimes rho r zt) ct)
      let hint := hints.getD r []
      ((List.range 256).zip w).map fun e => useHint (hint.contains e.1) e.2
    (z.all fun p => p.all (within (2 ^ 17 - 78))) && seed == shake256 (mu ++ rows.flatMap (packBits 6)) 32

/-! Keys -/

/-- Secret coefficients from −2 to 2, one from each half of a byte that is below 15. -/
def secretSamples : List Byte → List Nat
  | [] => []
  | b :: rest =>
    let one (x : Nat) : List Nat := if x < 15 then [(dsaQ + 2 - x % 5) % dsaQ] else []
    one (b.toNat % 16) ++ one (b.toNat / 16) ++ secretSamples rest

def secretPoly (seed : List Byte) (r : Nat) : Poly :=
  (secretSamples (shake256 (seed ++ [BitVec.ofNat 8 r, 0]) 481)).take 256

/-- The high part of a coefficient of t, the multiple of 2^13 that it lies nearest to. -/
def highT (v : Nat) : Nat := (v + 2 ^ 12 - 1) / 2 ^ 13

/-- A key pair: the public key, and of the secret one the seed of its matrix, its own seed, and its vectors in the transform's
domain. -/
structure DsaKey where
  pub : List Byte
  rho : List Byte
  own : List Byte
  s1  : List Poly
  s2  : List Poly
  t0  : List Poly
  deriving DecidableEq, Repr

/-- The key pair of a seed of 32 bytes. -/
def mldsaKey (seed : List Byte) : DsaKey :=
  let x := shake256 (seed ++ [4, 4]) 128
  let rho := x.take 32
  let secret := (x.drop 32).take 64
  let s1 := (List.range 4).map fun r => ntt (secretPoly secret r)
  let s2 := (List.range 4).map fun r => secretPoly secret (r + 4)
  let t := ((List.range 4).zip s2).map fun e => polyAdd (nttBack (rowTimes rho e.1 s1)) e.2
  { pub := rho ++ t.flatMap fun p => packBits 10 (p.map highT)
    rho := rho
    own := x.drop 96
    s1 := s1
    s2 := s2.map ntt
    t0 := t.map fun p => ntt (p.map fun v => (v + (dsaQ - highT v * 2 ^ 13 % dsaQ)) % dsaQ) }

/-! Signing -/

/-- The mask of one polynomial. -/
def maskPoly (seed : List Byte) (n : Nat) : Poly :=
  (unpackBits 18 256 (shake256 (seed ++ bytesOfNat 2 n) 576)).map fun v => (dsaQ + 2 ^ 17 - v) % dsaQ

/-- How far the low part of a coefficient lies from 0. -/
def lowSize (r : Nat) : Nat :=
  let low := r % 190464
  if low ≤ 95232 then low else 190464 - low + if r / 190464 = 43 then 1 else 0

/-- The positions at which a polynomial's high parts differ from another's. -/
def hintsOf (a b : Poly) : List Nat :=
  (((List.range 256).zip (List.zipWith (fun x y => useHint false x != useHint false y) a b)).filter (·.2)).map (·.1)

/-- Hints as bytes: the positions in order, zeros up to 80 of them, and where each polynomial's end. -/
def packHints (hints : List (List Nat)) : List Byte :=
  let all := hints.flatten
  let ends := (List.range 4).map fun i => ((hints.take (i + 1)).map List.length).sum
  (all ++ List.replicate (80 - all.length) 0 ++ ends).map fun n => BitVec.ofNat 8 n

/-- One attempt at a signature, with masks from a place on; none where it must be rejected. -/
def signOnce (key : DsaKey) (mu seed : List Byte) (place : Nat) : Option (List Byte) :=
  let y := (List.range 4).map fun r => maskPoly seed (place + r)
  let yt := y.map ntt
  let w := (List.range 4).map fun r => nttBack (rowTimes key.rho r yt)
  let tag := shake256 (mu ++ w.flatMap fun p => packBits 6 (p.map (useHint false))) 32
  let c := ntt (sampleBall tag)
  let times (v : List Poly) : List Poly := v.map fun p => nttBack (polyMul c p)
  let z := List.zipWith polyAdd y (times key.s1)
  let low := List.zipWith polySub w (times key.s2)
  let ct0 := times key.t0
  let hints := List.zipWith hintsOf (List.zipWith polyAdd low ct0) low
  let ok := (z.all fun p => p.all (within (2 ^ 17 - 78))) && (low.all fun p => p.all fun v => decide (lowSize v < 95232 - 78)) &&
    (ct0.all fun p => p.all (within 95232)) && decide (hints.flatten.length ≤ 80)
  if ok then
    some (tag ++ (z.flatMap fun p => packBits 18 (p.map fun v => (dsaQ + 2 ^ 17 - v) % dsaQ)) ++ packHints hints)
  else none

/-- Attempts until one is not rejected. -/
def signFrom (key : DsaKey) (mu seed : List Byte) : Nat → Nat → List Byte
  | 0, _ => []
  | n + 1, place =>
    match signOnce key mu seed place with
    | some sig => sig
    | none => signFrom key mu seed n (place + 4)

/-- The signature of a message by a key, with 32 random bytes: within as many attempts as the bound that FIPS 204 allows, of which it
fails with less than one chance in 2^256. -/
def mldsaSign (key : DsaKey) (random message : List Byte) : List Byte :=
  let mu := messageHash (shake256 key.pub 64) message
  signFrom key mu (shake256 (key.own ++ random ++ mu) 64) 814 0

end Sys2Proof.Machine
end

