-- ==== Sys2Proof/Machine/Special.lean ====
section
/-! DEFINITION. The special functions (R98): reciprocal and roots by integer arithmetic, the transcendental ones by series
in fixed point with 320 fraction bits, which decides the rounding to FP32 (log entry 10). -/

namespace Sys2Proof.Machine

/-- The integer square root, bit by bit from bit k down: r is what the higher bits give. -/
def isqrtFrom (n : Nat) : Nat → Nat → Nat
  | 0, r => r
  | k + 1, r => isqrtFrom n k (if (r + 2 ^ k) * (r + 2 ^ k) ≤ n then r + 2 ^ k else r)

def isqrt (n : Nat) : Nat := isqrtFrom n (Nat.log2 n / 2 + 1) 0

/-- Fraction bits of the fixed-point series. -/
def fxBits : Nat := 320
def fxOne : Nat := 2 ^ fxBits
def fxMul (a b : Nat) : Nat := (a * b) >>> fxBits

/-- atanh z = z + z³/3 + z⁵/5 + …, from the term z^k. -/
def atanhFrom (zz : Nat) : Nat → Nat → Nat → Nat
  | 0, _, _ => 0
  | n + 1, pow, k => pow / k + atanhFrom zz n (fxMul pow zz) (k + 2)

def fxAtanh (z : Nat) : Nat := atanhFrom (fxMul z z) 110 z 1

/-- ln 2 = 2 atanh (1/3). -/
def fxLn2 : Nat := 2 * fxAtanh (fxOne / 3)

/-- exp x = 1 + x + x²/2 + …, from the term t = x^k / k!. -/
def expFrom (x : Nat) : Nat → Nat → Nat → Nat
  | 0, _, _ => 0
  | n + 1, t, k => t + expFrom x n (fxMul t x / (k + 1)) (k + 1)

def fxExp (x : Nat) : Nat := expFrom x 90 fxOne 0

/-- sin x = x − x³/6 + …: the positive and the negative terms. -/
def sinFrom (xx : Nat) : Nat → Nat → Nat → Bool → Int
  | 0, _, _, _ => 0
  | n + 1, t, k, neg =>
    (if neg then -(t : Int) else t) + sinFrom xx n (fxMul t xx / ((k + 1) * (k + 2))) (k + 2) (!neg)

/-- atan (1/n) = 1/n − 1/(3n³) + …, for π by Machin's formula. -/
def atanFrom (nn : Nat) : Nat → Nat → Nat → Bool → Int
  | 0, _, _, _ => 0
  | m + 1, pow, k, neg => (if neg then -((pow / k : Nat) : Int) else (pow / k : Nat)) + atanFrom nn m (pow / nn) (k + 2) (!neg)

def fxPi : Nat := (16 * atanFrom 25 75 (fxOne / 5) 1 false - 4 * atanFrom (239 * 239) 24 (fxOne / 239) 1 false).toNat

/-- sin (2π r) for 0 < r < 1/4 given as m × 2^e. -/
def fxSin2Pi (m : Nat) (e : Int) : Nat :=
  let r := if 0 ≤ e + fxBits then m <<< (e + fxBits).toNat else m >>> (-(e + fxBits)).toNat
  let x := fxMul (2 * fxPi) r
  (sinFrom (fxMul x x) 50 x 1 false).toNat

def sfuRound (ftz neg : Bool) (m : Nat) (e : Int) (more : Bool) : Nat × Causes :=
  fmtF32.round .rne false ftz neg m e more

def sfuNan : Nat × Causes := (fmtF32.nan, causeINV)

/-- 1 / a. -/
def sfuRcp (ftz : Bool) (a : Nat) : Nat × Causes :=
  match fmtF32.nanOf [a], fmtF32.val ftz a with
  | some x, _ => x
  | _, .nan _ => sfuNan
  | _, .inf n => (fmtF32.signed n 0, 0)
  | _, .fin n m e =>
    if m = 0 then (fmtF32.signed n fmtF32.inf, causeDZ)
    else sfuRound ftz n (2 ^ 64 / m) (-64 - e) (decide (2 ^ 64 % m ≠ 0))

/-- An even exponent, for a root. -/
def evenExp (m : Nat) (e : Int) : Nat × Int := if e % 2 = 0 then (m, e) else (2 * m, e - 1)

/-- √a. -/
def sfuSqrt (ftz : Bool) (a : Nat) : Nat × Causes :=
  match fmtF32.nanOf [a], fmtF32.val ftz a with
  | some x, _ => x
  | _, .nan _ => sfuNan
  | _, .inf n => if n then sfuNan else (fmtF32.inf, 0)
  | _, .fin n m e =>
    if m = 0 then (fmtF32.signed n 0, 0)
    else if n then sfuNan
    else
      let (m, e) := evenExp m e
      let r := isqrt (m <<< 80)
      sfuRound ftz false r (e / 2 - 40) (decide (r * r ≠ m <<< 80))

/-- 1 / √a. -/
def sfuRsq (ftz : Bool) (a : Nat) : Nat × Causes :=
  match fmtF32.nanOf [a], fmtF32.val ftz a with
  | some x, _ => x
  | _, .nan _ => sfuNan
  | _, .inf n => if n then sfuNan else (0, 0)
  | _, .fin n m e =>
    if m = 0 then (fmtF32.signed n fmtF32.inf, causeDZ)
    else if n then sfuNan
    else
      let (m, e) := evenExp m e
      let r := isqrt (2 ^ 160 / m)
      sfuRound ftz false r (-80 - e / 2) (decide (r * r * m ≠ 2 ^ 160))

/-- 2^x for x = i + f, f given with the fraction bits. -/
def fxExp2 (f : Nat) : Nat := fxExp (fxMul f fxLn2)

/-- 2^a. -/
def sfuEx2 (ftz : Bool) (a : Nat) : Nat × Causes :=
  match fmtF32.nanOf [a], fmtF32.val ftz a with
  | some x, _ => x
  | _, .nan _ => sfuNan
  | _, .inf n => (if n then 0 else fmtF32.inf, 0)
  | _, .fin n m e =>
    if m = 0 then (0x3F800000, 0)
    else if 12 < e + Nat.log2 m then
      -- far beyond the range either way
      if n then sfuRound ftz false 1 (-400) true else sfuRound ftz false 1 400 false
    else
      let x : Int := (if n then -1 else 1) * (if 0 ≤ e + fxBits then (m <<< (e + fxBits).toNat : Nat) else 0)
      let i := x / (fxOne : Int)
      let f := (x % (fxOne : Int)).toNat
      if e + fxBits < 0 then
        -- 2^a differs from 1 by less than any place of the fixed point
        if n then sfuRound ftz false (fxOne - 1) (-fxBits) true else sfuRound ftz false fxOne (-fxBits) true
      else if f = 0 then sfuRound ftz false 1 i false
      else sfuRound ftz false (fxExp2 f) (i - fxBits) true

/-- log2 a. -/
def sfuLg2 (ftz : Bool) (a : Nat) : Nat × Causes :=
  match fmtF32.nanOf [a], fmtF32.val ftz a with
  | some x, _ => x
  | _, .nan _ => sfuNan
  | _, .inf n => if n then sfuNan else (fmtF32.inf, 0)
  | _, .fin n m e =>
    if m = 0 then (fmtF32.signed true fmtF32.inf, causeDZ)
    else if n then sfuNan
    else
      let bl := Nat.log2 m
      let i : Int := e + bl
      if m = 2 ^ bl then sfuRound ftz (decide (i < 0)) i.natAbs 0 false
      else
        let y := m <<< (fxBits - bl)
        let z := ((y - fxOne) <<< fxBits) / (y + fxOne)
        let frac := ((2 * fxAtanh z) <<< fxBits) / fxLn2
        let t : Int := i * (fxOne : Int) + frac
        sfuRound ftz (decide (t < 0)) t.natAbs (-fxBits) true

/-- |a| mod 1 as m × 2^e. -/
def mod1 (m : Nat) (e : Int) : Nat := if 0 ≤ e then 0 else m % 2 ^ (-e).toNat

/-- sin (2πa). -/
def sfuSin (ftz : Bool) (a : Nat) : Nat × Causes :=
  match fmtF32.nanOf [a], fmtF32.val ftz a with
  | some x, _ => x
  | _, .nan _ => sfuNan
  | _, .inf _ => sfuNan
  | _, .fin n m e =>
    if m = 0 then (fmtF32.signed n 0, 0)
    else
      let r := 4 * mod1 m e
      let one : Nat := 4 * (if 0 ≤ e then 1 else 2 ^ (-e).toNat)
      let neg := n != decide (one ≤ 2 * r)
      let r := if one ≤ 2 * r then r - one / 2 else r
      if r = 0 then (0, 0)
      else if 4 * r = one then (fmtF32.signed neg 0x3F800000, 0)
      else
        let r := if one < 4 * r then one / 2 - r else r
        sfuRound ftz neg (fxSin2Pi r (e - 2)) (-fxBits) true

/-- cos (2πa). -/
def sfuCos (ftz : Bool) (a : Nat) : Nat × Causes :=
  match fmtF32.nanOf [a], fmtF32.val ftz a with
  | some x, _ => x
  | _, .nan _ => sfuNan
  | _, .inf _ => sfuNan
  | _, .fin _ m e =>
    if m = 0 then (0x3F800000, 0)
    else
      let r := 4 * mod1 m e
      let one : Nat := 4 * (if 0 ≤ e then 1 else 2 ^ (-e).toNat)
      let r := if one < 2 * r then one - r else r
      if r = 0 then (0x3F800000, 0)
      else if 2 * r = one then (0xBF800000, 0)
      else if 4 * r = one then (0, 0)
      else
        let neg := decide (one < 4 * r)
        let r := if neg then one / 2 - r else r
        sfuRound ftz neg (fxSin2Pi (one / 4 - r) (e - 2)) (-fxBits) true

/-- tanh a. Below 2^-12 it lies between a and half a place under a; above 10, likewise under 1. -/
def sfuTanh (ftz : Bool) (a : Nat) : Nat × Causes :=
  match fmtF32.nanOf [a], fmtF32.val ftz a with
  | some x, _ => x
  | _, .nan _ => sfuNan
  | _, .inf n => (fmtF32.signed n 0x3F800000, 0)
  | _, .fin n m e =>
    if m = 0 then (fmtF32.signed n 0, 0)
    else
      let top := e + Nat.log2 m
      if top < -12 then sfuRound ftz n (m * 2 ^ 64 - 1) (e - 64) true
      else if 3 < top then sfuRound ftz n (2 ^ 64 - 1) (-64) true
      else
        let x := m <<< (e + fxBits).toNat
        let t := ((2 * x) <<< fxBits) / fxLn2
        let y := fxExp2 (t % fxOne) <<< (t / fxOne)
        sfuRound ftz n (((y - fxOne) <<< fxBits) / (y + fxOne)) (-fxBits) true

end Sys2Proof.Machine
end

