-- ==== Sys2Proof/Machine/Sfu.lean ====
section
/-! DEFINITION. Special functions (R98): long-latency producers, whose exceptions come with their result (R72). -/

namespace Sys2Proof.Machine

open Sys2Proof

/-- A thread's share of a special function: its result and exceptions. -/
def sfuShare (fn : Nat → Nat × Causes) (x : Cx) (t : Nat) (dr : Draw) : Share × Draw :=
  let (a, dr) := x.read x.spec.a x.f.a t dr
  let (r, fl) := fn (codeOf a)
  (⟨t, [BitVec.ofNat 32 r], fl⟩, dr)

/-- A special function's issue: its operand is read, its destination marked empty; the result waits to be written. The
draw of a REJ register ends with the result (R118). -/
def sfuBody (fn : Nat → Nat × Causes) (x : Cx) : Fate :=
  let (shares, dr) := sharesOf x (sfuShare fn x) x.each Draw.start
  let ws := shares.flatMap fun p => regWrites x.f.dst p.t p.words
  let per := shares.map fun p => (p.t, p.causes)
  if x.namesRej then .done ((x.s.commitNone x dr).putResult x .sfu ws dr.pos dr.words (rejxOf dr.qstat) per false) none false
  else .done ((x.s.commitDraws x dr).putResult x .sfu ws [] 0 [] per false) none false

def execRcp (w : W) (m : FpMod) : State → Host.Outcome State Fault Refusal :=
  issue (w.fields 0x88 m.bits) noPre (sfuBody (sfuRcp m.ftz))
def execRsq (w : W) (m : FpMod) : State → Host.Outcome State Fault Refusal :=
  issue (w.fields 0x89 m.bits) noPre (sfuBody (sfuRsq m.ftz))
def execSqrt (w : W) (m : FpMod) : State → Host.Outcome State Fault Refusal :=
  issue (w.fields 0x8A m.bits) noPre (sfuBody (sfuSqrt m.ftz))
def execEx2 (w : W) (m : FpMod) : State → Host.Outcome State Fault Refusal :=
  issue (w.fields 0x8B m.bits) noPre (sfuBody (sfuEx2 m.ftz))
def execLg2 (w : W) (m : FpMod) : State → Host.Outcome State Fault Refusal :=
  issue (w.fields 0x8C m.bits) noPre (sfuBody (sfuLg2 m.ftz))
def execSinr (w : W) (m : FpMod) : State → Host.Outcome State Fault Refusal :=
  issue (w.fields 0x8D m.bits) noPre (sfuBody (sfuSin m.ftz))
def execCosr (w : W) (m : FpMod) : State → Host.Outcome State Fault Refusal :=
  issue (w.fields 0x8E m.bits) noPre (sfuBody (sfuCos m.ftz))
def execTanh (w : W) (m : FpMod) : State → Host.Outcome State Fault Refusal :=
  issue (w.fields 0x8F m.bits) noPre (sfuBody (sfuTanh m.ftz))

/-- Results written to their registers (R19), draws committed and exceptions raised and logged (R72, R117, R118). A cause
set to trap is logged. -/
def State.landResult (s : State) (r : Result) : State :=
  let s : State := { s with results := s.results.filter fun x => x.rid != r.rid }
  match s.group? r.gid with
  | none => s
  | some g =>
    let all := r.causes.foldl (fun (m : Causes) e => m ||| e.2) 0
    let g := r.writes.foldl (fun g w => g.land r.bank w) g
    let g := g.commit r.slots r.qstat
    let g := if r.tagged then g.sampleEnd s.now else g
    let g := { g with fpstat := g.fpstat ||| all.zeroExtend 32 }
    let s := s.setGroup g
    match s.block? g.bid with
    | none => s
    | some b =>
      let s := s.count g.core 0x0C b.ctx r.words
      match s.ctx? b.ctx with
      | none => s
      | some c =>
        let logged := fpLogged c.ctl.fpctl ||| fpTrapped c.ctl.fpctl
        let lanes := Mask.ofList ((r.causes.filter fun e => e.2 &&& logged != 0).map (·.1))
        s.logFp g b.ctx (all &&& logged) lanes r.pc

/-- Registers of some threads written with what a result has for them: an instruction's threads may fill apart (R19), and the draws,
exceptions and status of the whole come with the last. A tagged request ends with its own thread's registers (R358). -/
def State.landSome (s : State) (r : Result) (who : Mask) : State :=
  let later := r.writes.filter fun w => !who.getLsbD w.thr
  if later.isEmpty then s.landResult r
  else
    let now := r.writes.filter fun w => who.getLsbD w.thr
    let ends (g : Group) : Bool := r.tagged && now.any fun w => g.smpl.any fun t => w.vec && t.lane == w.thr
    let last := (s.group? r.gid).any ends
    let s : State := { s with
      results := replaceBy (fun x => x.rid == r.rid) { r with writes := later, tagged := r.tagged && !last } s.results }
    s.modGroup r.gid fun g =>
      let g := now.foldl (fun g w => g.land r.bank w) g
      if last then g.sampleEnd s.now else g

/-- The threads in which the next result lands: all of them unless State says otherwise. Log entry 60. -/
def State.nextFill (s : State) : Mask := s.fills.headD (BitVec.allOnes 32)

/-- A result lands in the threads that are next. -/
def State.landNext (s : State) (r : Result) : State := { s with fills := s.fills.tail }.landSome r s.nextFill

/-- A result of a kind in flight that can land (R295): its group's core runs, or that of the tile which a group that is gone has it
fill. -/
def State.landing (s : State) (rid : Nat) (kind : ResultKind) : Option Result :=
  (s.results.find? fun r => r.rid == rid && r.kind == kind).filter fun r =>
    match s.group? r.gid with
    | some g => s.coreRuns g.core
    | none => match r.tile.bind fun e => s.block? e.1 with
      | some b => s.coreRuns b.core
      | none => true

/-- SFU_RESULT_WRITE: a special function's results arrive. -/
def execSfuResultWrite (rid : Nat) (s : State) : Host.Outcome State Fault Refusal :=
  match s.landing rid .sfu with
  | some r => .next (s.landNext r)
  | none => .next s

/-- REJ_DRAW_COMPLETE: results of draws of kind REJ arrive (R118). A result with no register releases the instruction held in
issue. -/
def execRejDrawComplete (rid : Nat) (s : State) : Host.Outcome State Fault Refusal :=
  match s.landing rid .rej with
  | some r =>
    let s := s.landNext r
    .next (if r.writes.isEmpty then s.modGroup r.gid fun g => if g.rejHeld.isSome then { g with stayDone := true } else g else s)
  | none => .next s

end Sys2Proof.Machine
end

