-- ==== Sys2Proof/Machine/Control.lean ====
section
/-! DEFINITION. Control flow, divergence, traps, waits and special registers (R23 to R31, R99 to R108, R139 to R141, R154 to
R158, R286 to R293). -/

namespace Sys2Proof.Machine

open Sys2Proof

/-- NOP (R99). -/
def execNop (w : W) : State → Host.Outcome State Fault Refusal :=
  issue (w.fields 0x00 0) noPre fun x => .done x.s none false

/-- PAD (R30, R103). -/
def execPad (tag : BitVec 12) : State → Host.Outcome State Fault Refusal :=
  issue { noFields with opc := 0x07, a := tag.extractLsb' 0 9, aef := tag.getLsbD 9,
                        b := (tag.extractLsb' 10 2).zeroExtend 9 } noPre fun x => .done x.s none false

/-! The control stack: its head is its top. -/

/-- Resolution of an empty mask (R141): the first entry with a thread; none when it would pop a return entry or empty the
stack. -/
def resolve : List Ctl → Option (Mask × VA × List Ctl)
  | [] => none
  | e :: rest => if e.kind = 1 then none else if e.mask = 0 then resolve rest else some (e.mask, e.addr, rest)

/-- A mask, pc and stack an instruction leaves, resolved when the mask is empty. -/
def settleMask (m : Mask) (pc : VA) (stack : List Ctl) : Option (Mask × VA × List Ctl) :=
  if m = 0 then resolve stack else some (m, pc, stack)

def Cx.stackTrap (x : Cx) (detail : Nat) : Fate := .trap trapStack detail x.g.amask

/-- A group's divergence state replaced. Setting pc to other than the next instruction's address ends the turn (R17). -/
def Cx.goto (x : Cx) (m : Mask) (pc : VA) (stack : List Ctl) (ends : Bool) : Fate :=
  .done (x.s.modGroup x.g.gid fun g => { g with amask := m, stack := stack }) (if pc = x.nextPc then none else some pc) ends

/-- A push that keeps the stack within 128 entries (R23). -/
def Cx.pushThen (x : Cx) (e : Ctl) (m : Mask) (pc : VA) (ends : Bool) : Fate :=
  if 128 ≤ x.g.stack.length then x.stackTrap 2 else x.goto m pc (e :: x.g.stack) ends

/-- BRA (R101). -/
def execBra (w : W) (fuse : Bool) : State → Host.Outcome State Fault Refusal :=
  issue (w.fields 0x02 (bit1 fuse ++ 0#9)) noPre fun x => .done x.s (some x.target) true

/-- BRA.d (R154). -/
def braDBody (x : Cx) : Fate :=
  let c := match Src.of x.f.a with | .k r => x.g.kget r.val | _ => 0
  let tk := x.g.amask &&& c
  let rest := x.g.amask &&& ~~~c
  if tk = 0 then .done x.s none false
  else if rest = 0 then x.goto x.g.amask x.target x.g.stack true
  else x.pushThen ⟨2, tk, x.target⟩ rest x.nextPc true

def execBraD (w : W) : State → Host.Outcome State Fault Refusal := issue (w.fields 0x03 0) noPre braDBody

/-- CALL (R25, R101). -/
def execCall (w : W) : State → Host.Outcome State Fault Refusal :=
  issue (w.fields 0x04 0) noPre fun x => x.pushThen ⟨1, x.g.amask, x.nextPc⟩ x.g.amask x.target true

/-- RET (R25, R23). -/
def retBody (x : Cx) : Fate :=
  match x.g.stack with
  | e :: rest =>
    if e.kind = 1 then
      match settleMask e.mask e.addr rest with
      | some (m, pc, st) => x.goto m pc st true
      | none => x.stackTrap 3
    else x.stackTrap 3
  | [] => x.stackTrap 3

def execRet (w : W) : State → Host.Outcome State Fault Refusal := issue (w.fields 0x05 0) noPre retBody

/-- The instruction at a target is PAD with the tag (R29). A target where an instruction cannot lie has none. Log entry 25. -/
def State.padAt (s : State) (c : Ctx) (die : Nat) (pc : VA) (tag : BitVec 12) : Bool :=
  pc.extractLsb' 0 2 == 0 &&
    match s.fetchWord c die pc with
    | some w => match decodeAt pc w with
      | .run (.pad t) => t == tag
      | _ => false
    | none => false

/-- BRT (R29, R102). -/
def brtBody (x : Cx) : Fate :=
  let index := (x.getA 0).extractLsb' 0 32
  let base : VA := (x.getB 0).extractLsb' 0 52
  let bound := (x.getC 0).extractLsb' 0 32
  let at_ := base + BitVec.ofNat 52 (8 * index.toNat)
  if base.extractLsb' 0 3 ≠ 0 then .trap trapIllegal 30 x.g.amask
  else if bound.toNat ≤ index.toNat then .trap trapJtbound 0 x.g.amask
  else
    match x.s.fetchXlat x.c at_.toNat with
    | .ok pa attr =>
      let e : DWord := BitVec.ofNat 64 (x.s.dram.readN (readPa x.die pa attr) 8)
      let target := e.extractLsb' 0 52
      if x.s.padAt x.c x.die target (e.extractLsb' 52 12) then .done x.s (some target) true
      else .trap trapPadtag 0 x.g.amask
    | _ => .halt haltProtection at_.toNat

def execBrt (w : W) : State → Host.Outcome State Fault Refusal := issue (w.fields 0x06 0) noPre brtBody

/-- PUSHJ and PUSHB (R140, R155). -/
def execPushj (w : W) : State → Host.Outcome State Fault Refusal :=
  issue (w.fields 0x08 0) noPre fun x => x.pushThen ⟨2, x.g.amask, x.target⟩ x.g.amask x.nextPc false
def execPushb (w : W) : State → Host.Outcome State Fault Refusal :=
  issue (w.fields 0x09 0) noPre fun x => x.pushThen ⟨3, 0, x.target⟩ x.g.amask x.nextPc false

/-- JOIN (R156). -/
def joinBody (x : Cx) : Fate :=
  match x.g.stack with
  | e :: rest =>
    if e.kind = 1 then x.stackTrap 3
    else
      match settleMask (if e.kind = 3 then e.mask ||| x.g.amask else e.mask) e.addr rest with
      | some (m, pc, st) => x.goto m pc st false
      | none => x.stackTrap 3
  | [] => x.stackTrap 3

def execJoin (w : W) : State → Host.Outcome State Fault Refusal := issue (w.fields 0x0A 0) noPre joinBody

/-- The stack after BREAK of some threads (R140): join tokens above the topmost break token lose them, the break token
gains them; none when a return entry or the bottom comes first. -/
def breakStack (act : Mask) : List Ctl → Option (List Ctl)
  | [] => none
  | e :: rest =>
    if e.kind = 1 then none
    else if e.kind = 3 then some ({ e with mask := e.mask ||| act } :: rest)
    else (breakStack act rest).map fun r => { e with mask := e.mask &&& ~~~act } :: r

/-- BREAK (R157). -/
def brkBody (x : Cx) : Fate :=
  match (breakStack x.g.amask x.g.stack).bind resolve with
  | some (m, pc, st) => x.goto m pc st true
  | none => x.stackTrap 3

def execBrk (w : W) : State → Host.Outcome State Fault Refusal := issue (w.fields 0x0B 0) noPre brkBody

/-! EXIT, and the retirement of a group -/

/-- Every group of a block that has not retired has arrived at its barrier (R216). -/
def State.barrierMet (s : State) (b : Block) : Bool :=
  !b.arrived.isEmpty && (s.groups.filter fun g => g.bid == b.bid && !g.spawned).all fun g => b.arrived.any fun e => e.1 == g.gid

/-- The block barrier when it is met (R216): by arrivals, of which those of this cycle retire BARB in it, or by a retirement;
the other groups retire it from the next turn on. What precedes any group's BARB happens before what follows any. -/
def State.barrierCheck (s : State) (bid : Nat) (arriving : Bool) : State :=
  match s.block? bid with
  | none => s
  | some b =>
    if s.barrierMet b then
      let s := s.joinPast (b.arrived.map (·.1)) (b.arrived.map (·.1))
      s.setBlock { b with
        passed := b.passed ++ b.arrived.map fun e => (e.1, if arriving ∧ e.2 = s.cycle then s.cycle else s.cycle + 8)
        arrived := [] }
    else s

/-- A group gone (R100, R147): its slot, registers and reserve position free, its energy with its block, and what happened before
its accesses with its block's name, under which a later group inherits it (R224). -/
def State.dropGroup (s : State) (g : Group) : State :=
  let s := s.modBlock g.bid fun b => { b with energy := b.energy + g.energy }
  let s := s.joinPast [g.gid] [g.bid]
  let s := { s with groups := s.groups.filter fun x => x.gid != g.gid }
  s.barrierCheck g.bid false

/-- No register that EXIT waits for is empty (R100). -/
def Group.allFull (g : Group) : Bool :=
  g.regs.ve.isEmpty && g.regs.se.isEmpty && g.other.ve.isEmpty && g.other.se.isEmpty

/-- EXIT (R100, R158): the active threads finish and leave every entry of the stack. -/
def exitBody (x : Cx) : Fate :=
  let fin := x.g.fin ||| x.g.amask
  let st := x.g.stack.map fun e => { e with mask := e.mask &&& ~~~x.g.amask }
  let finish (g : Group) : Group := { g with fin := fin }
  if !x.g.allFull then .hold
  else if x.g.exist &&& ~~~fin = 0 then
    let s := (x.s.modGroup x.g.gid finish).retire x.g.gid x.f none
    match s.group? x.g.gid with
    | some g => .done (s.dropGroup g) none true
    | none => .done s none true
  else
    match resolve st with
    | some (m, pc, st) =>
      .done (x.s.modGroup x.g.gid fun g => { finish g with amask := m, stack := st })
        (if pc = x.nextPc then none else some pc) false
    | none => x.stackTrap 3

def execExit (w : W) : State → Host.Outcome State Fault Refusal := issue (w.fields 0x01 0) noPre exitBody

/-! Traps -/

/-- TRAP (R291) and BKPT (R290): they retire and raise. -/
def execTrap (w : W) (code : Byte) : State → Host.Outcome State Fault Refusal :=
  issue (w.fields 0x0C (0#2 ++ code)) noPre fun x => .raise trapTrap code.toNat ((x.getA 0).extractLsb' 0 32)
def execBkpt (w : W) (code : Byte) : State → Host.Outcome State Fault Refusal :=
  issue (w.fields 0x0E (0#2 ++ code)) noPre fun _ => .raise trapBkpt code.toNat 0

/-- RTE (R289): the next queued record, if any, is delivered at once. -/
def rteBody (x : Cx) : Fate :=
  match x.g.handler with
  | none => .trap trapIllegal 26 x.g.amask
  | some r =>
    if !x.g.bankFull then .hold
    else
      match x.g.returnFrom with
      | none => .halt haltHandler x.g.pc.toNat
      | some g =>
        let s := x.s.traceEvent x.b.ctx 4 x.g.core x.g.slice x.g.core (x.s.blockName x.b.bid) x.g.num r.pc.toNat 0
        match g.queue with
        | [] => .done (s.setGroup g) (some g.pc) true
        | q :: rest =>
          let s := (s.setGroup { g with queue := rest }).deliver { g with queue := rest } q rest
          .done s ((s.group? g.gid).map (·.pc)) true

def execRte (w : W) : State → Host.Outcome State Fault Refusal := issue (w.fields 0x0D 0) noPre rteBody

/-! Special registers (R104, R105) -/

/-- A special register as a thread reads it at issue. -/
def Cx.special (x : Cx) (n t : Nat) : DWord :=
  let w (v : Nat) : DWord := BitVec.ofNat 64 v
  let sh (r : Short) : DWord := (x.shortValue r).zeroExtend 64
  match n with
  | 0x000 => w t
  | 0x001 => sh .grp
  | 0x002 => sh .blkx
  | 0x003 => sh .blky
  | 0x004 => sh .blkz
  | 0x005 => sh .grid
  | 0x006 => sh .core
  | 0x007 => sh .die
  | 0x008 => sh .dev
  | 0x009 => sh .ctx
  | 0x00A => sh .clock
  | 0x00B => w x.s.cycle
  | 0x00C => w (if x.g.spawned then 0 else x.g.member)
  | 0x00D => w x.g.depth
  | 0x00E => w (if x.g.spawned then popCount x.g.exist.toNat 32 else x.b.nthr)
  | 0x00F => x.g.amask.zeroExtend 64
  | 0x010 => (Sparse.get 0 x.g.qstat t).zeroExtend 64
  | 0x011 => x.g.mstat.zeroExtend 64
  | 0x012 => x.g.mloss.zeroExtend 64
  | 0x013 => x.g.fpstat.zeroExtend 64
  | 0x014 => x.c.ctl.fpctl.zeroExtend 64
  | 0x015 => x.g.energy
  | _ => 0

/-- GETSR sr.smpl (R105): a held record, or zeros where no request is tagged, fills at once; a request in flight leaves the
run empty until its record comes. The read releases the tag. Log entry 97. -/
def smplBody (x : Cx) : Fate :=
  let put (ws : List Word) : Fate :=
    .done (x.s.modGroup x.g.gid fun g => { g.writeDst x.f.dst 0 ws with smpl := none }) none false
  match x.g.smpl with
  | none => put (List.replicate 8 0)
  | some t =>
    match t.record with
    | some ws => put ws
    | none => .done (x.s.putResult x .smpl (regWrites x.f.dst 0 (List.replicate 8 0)) [] 0 [] [] false) none false

def getsrBody (n : Nat) (x : Cx) : Fate :=
  if n = 0x016 then smplBody x
  else
    let shares := x.each.map fun t => ({ t := t, words := wordsOf x.dstWidth (x.special n t), causes := 0 } : Share)
    x.finish shares Draw.start

def execGetsr (w : W) (srn : BitVec 10) : State → Host.Outcome State Fault Refusal :=
  issue (w.fields 0x11 srn) noPre (getsrBody srn.toNat)

/-- Bits written as one are cleared (R6). -/
def writeClear (old x : Word) : Word := old &&& ~~~x

/-- SETSR (R104): every writable register clears the bits written as one. A group's register takes the values of all acting
threads together. A status bit that the drawing of the written value sets is set before the clearing. Log entry 71. -/
def setsrBody (n : Nat) (x : Cx) : Fate :=
  x.rejHold fun x =>
    let one (t : Nat) (dr : Draw) : Share × Draw :=
      let (a, dr) := x.read x.spec.a x.f.a t dr
      (⟨t, [a.extractLsb' 0 32], 0⟩, dr)
    let (shares, dr) := sharesOf x one x.each Draw.start
    let all := shares.foldl (fun (m : Word) p => m ||| p.words.headD 0) 0
    let s := x.s.commitDraws x dr
    .done (s.modGroup x.g.gid fun g =>
      match n with
      | 0x010 => shares.foldl (fun g p =>
          { g with qstat := Sparse.put 0 g.qstat p.t (writeClear (Sparse.get 0 g.qstat p.t) (p.words.headD 0)) }) g
      | 0x011 => { g with mstat := writeClear g.mstat all }
      | 0x013 => { g with fpstat := writeClear g.fpstat all }
      | _ => g) none false

def execSetsr (w : W) (srn : BitVec 10) : State → Host.Outcome State Fault Refusal :=
  issue (w.fields 0x12 srn) noPre (setsrBody srn.toNat)

/-- The hops a tagged request passed (R358): the crossbar unless it stays in its core's shared memory, the bank that serves it,
the log controller of its hod, the die link to a page on another die, the memory controller of a fetch. Log entry 62. -/
def Smpl.hops (t : Smpl) : BitVec 5 :=
  bit1 t.parked ++ bit1 (t.parked && t.link) ++ bit1 t.hod ++ bit1 t.bank ++ bit1 (t.space != Space.sh.code)

/-- The time in the queue of a hop, none where it was not passed. -/
def Smpl.timed (t : Smpl) (hop : Nat) (time : BitVec 16) : BitVec 16 := if t.hops.getLsbD hop then time else 0

/-- SMPL_RECORD_FILL (R357, R358): a tagged request's record comes back, to the runs that wait for it or to the group. -/
def smplRecord (t : Smpl) (total : Nat) (times : SmplTimes) : List Word :=
  [record [(1, 1), (2, 0), (5, t.hops.toNat), (3, 0), (5, t.lane), (8, t.opc.toNat), (2, t.space.toNat),
     (1, if t.parked then 1 else 0), (1, if t.hod then 1 else 0), (4, 0)] |>.extractLsb' 0 32,
   t.addr, t.pc.extractLsb' 0 32, (t.pc.extractLsb' 32 20).zeroExtend 32,
   t.timed 1 times.bankq ++ t.timed 0 times.xbarq, t.timed 3 times.dlinkq ++ t.timed 2 times.logq,
   (t.timed 4 times.memq).zeroExtend 32, BitVec.ofNat 32 (min total allOnes32)]

def execSmplRecordFill (gid : Nat) (times : SmplTimes) (s : State) : Host.Outcome State Fault Refusal :=
  match s.group? gid with
  | none => .next s
  | some g =>
    match g.smpl with
    | none => .next s
    | some t =>
      -- not while the tagged instruction has still to take effect, nor while its own result, append or drain is under way
      if t.record.isSome || !t.issued || !s.coreRuns g.core || (s.results.any fun r => r.gid == gid && r.tagged) ||
          (s.appends.any fun a => a.gid == gid && a.tagged != 0) || s.drains.any fun d => d.gid == gid && d.tagged then .next s
      else
        let ws := smplRecord t (t.finish.getD s.now - t.first) times
        let waits := s.results.filter fun r => r.gid == gid && r.kind == .smpl
        if waits.isEmpty then .next (s.setGroup { g with smpl := some { t with record := some ws } })
        else
          let fill (g : Group) (r : Result) : Group :=
            (List.zipWith (fun (w : RegW) x => { w with val := x }) r.writes ws).foldl (fun g w => g.land r.bank w) g
          let g := waits.foldl fill { g with smpl := none }
          .next { s.setGroup g with results := s.results.filter fun r => !(r.gid == gid && r.kind == .smpl) }

/-! Waits and delay -/

/-- WAITF (R106): the examination of its operand is its whole effect. -/
def execWaitf (w : W) : State → Host.Outcome State Fault Refusal :=
  issue (w.fields 0x0F 0) noPre fun x => .done x.s none false

/-- DELAY (R108). -/
def execDelay (w : W) : State → Host.Outcome State Fault Refusal :=
  issue (w.fields 0x14 0) noPre fun x =>
    .done (x.s.modGroup x.g.gid fun g => { g with delay := some (x.s.cycle + codeOf (x.getA 0)) }) none true

/-- DELAY_DEADLINE (R108): the group's positions are used again. -/
def execDelayDeadline (gid : Nat) (s : State) : Host.Outcome State Fault Refusal :=
  .next (s.modGroup gid fun g =>
    match g.delay with
    | some d => if d ≤ s.now then { g with delay := none } else g
    | none => g)

/-- PCTL (R293): on the group's block; refused while the block's pre-emption is being decided. Log entry 72. -/
def Cx.pctl (x : Cx) (change : Block → Block) : Fate :=
  if (x.s.preemptOf x.b).isSome then .trap trapIllegal 27 x.g.amask
  else .done (x.s.modBlock x.b.bid change) none false

def execPctlNoidem (w : W) : State → Host.Outcome State Fault Refusal :=
  issue (w.fields 0x13 0) noPre fun x => x.pctl fun b => { b with idem := false }
def execPctlExpect (w : W) : State → Host.Outcome State Fault Refusal :=
  issue (w.fields 0x13 1) noPre fun x => x.pctl fun b => { b with expcnt := (x.getA 0).toNat }

/-- DEBUG_RESUME (R292): a group halted for the debugger goes on at its resume pc. -/
def execDebugResume (gid : Nat) (s : State) : Host.Outcome State Fault Refusal :=
  .next (s.modGroup gid fun g =>
    match g.dbgStop with
    | some pc => { g with dbgStop := none, pc := pc }
    | none => g)

end Sys2Proof.Machine
end

