-- ==== Sys2Proof/Machine/Memory.lean ====
section
/-! DEFINITION. Thread memory instructions (R83, R201 to R217), and the events by which their results, writes and appends
come about (R189, R204, R229). -/

namespace Sys2Proof.Machine

open Sys2Proof

/-! Addresses (R201, R202) -/

/-- The exact address of a thread. -/
def Cx.addr (x : Cx) (t : Nat) : Int :=
  (codeOf (x.getA t) : Int) + codeOf (x.getB t) * (2 ^ (x.exb.extractLsb' 0 2).toNat : Nat) + x.exa.toInt

/-- What is wrong with an access of w bytes at an address, in the order of R202: a trap and its detail. -/
def Cx.addrFault (x : Cx) (spc : Space) (a : Int) (w : Nat) : Option (BitVec 8 × Nat) :=
  let out (size : Nat) : Bool := decide (a < 0 ∨ (size : Int) < a + w)
  let aligned := decide (a % w = 0)
  match spc with
  | .sp => if !aligned || out 960 then some (trapStack, 1) else none
  | .sh => if !aligned then some (trapIllegal, 16) else if out x.b.shmem then some (trapIllegal, 17) else none
  | .sc => if !aligned then some (trapIllegal, 16) else if out x.c.scSize then some (trapIllegal, 17) else none
  | .tw =>
    if !aligned then some (trapIllegal, 16)
    else if a < 0 ∨ (x.s.findTile x.die x.b.ctx a.toNat).isNone then some (trapIllegal, 18) else none

/-- The trap of an instruction some of whose threads fail a check (R203): the lowest one's cause, the threads that share
it. Threads that fail with one cause and another detail are not among them. Log entry 73. -/
def Cx.firstFault (x : Cx) (fails : List (Nat × (BitVec 8 × Nat))) : Option Fate :=
  match fails with
  | [] => none
  | (_, c) :: _ =>
    some (.trap c.1 c.2
      (if x.f.s then x.g.amask else Mask.ofList ((fails.filter fun e => e.2 == c).map (·.1))))

/-- The instruction has issued, and its checks have been made (R21, R118): it stays in issue, or its REJ draws have issued. -/
def Cx.underWay (x : Cx) : Bool := x.g.stay || x.g.rejHeld.isSome

/-- The checks of R202 in every acting thread, made at issue: no trap arises once the instruction stays in issue (R21), or a REJ draw
has issued (R118). -/
def Cx.checkAddrs (x : Cx) (spc : Space) (w : Nat) : Option Fate :=
  if x.underWay then none
  else x.firstFault (x.each.filterMap fun t => (x.addrFault spc (x.addr t) w).map fun c => (t, c))

def Cx.addrN (x : Cx) (t : Nat) : Nat := (x.addr t).toNat

/-- The tile that an address of the instruction names in a state. -/
def Cx.findIn (x : Cx) (s : State) (a : Nat) : Option TileRef :=
  if x.underWay then s.issuedTile x.die x.b.ctx a else s.findTile x.die x.b.ctx a

/-! Sampling (R357) -/

def lowestThread (m : Mask) : Nat := (Mask.threads m).headD 0

/-- The address that thread t accesses. -/
def Cx.addrOf (x : Cx) (t : Nat) : Int := x.addr (if x.f.s then 0 else t)

/-- A memory instruction counted at its first issue, and tagged when its turn has come. -/
def State.sample (s : State) (x : Cx) (spc : Space) (at_ : Nat → Int) : State :=
  if x.g.reissue || spc == .sp then s
  else
    let (tag, s) := s.sampleTick x.c x.g x.act
    if tag then
      let lane := lowestThread x.act
      s.modGroup x.g.gid fun g =>
        { g with smpl := some { lane := lane, opc := x.f.opc, space := spc.code, parked := false, hod := false, bank := false,
                                link := false, addr := BitVec.ofInt 32 (at_ lane), pc := x.g.pc, first := s.now,
                                issued := false, finish := none, record := none } }
    else s

/-- A tile that a tagged request accesses: that of its thread's address, for an MLD any that its instruction does. -/
def Smpl.covers (t : Smpl) (r : TileRef) : Bool :=
  t.opc == 0xF2 || (r.win == t.addr.toNat / 2 ^ 26 && r.tile == t.addr.toNat % 2 ^ 26 / tileBytes)

/-- A tagged request of an instruction that parks: it waits for a tile fetch when its own tile is among those waited for (R358). -/
def State.sampleParks (s : State) (gid : Nat) (waits : List TileRef) : State :=
  let parks (t : Smpl) : Smpl := if !t.issued && waits.any t.covers then { t with parked := true } else t
  s.modGroup gid fun g => { g with smpl := g.smpl.map parks }

/-- A tagged request that takes effect now: the tagged thread's tile tells whether a hod serves its load, or a scratchpad bank serves
it (R358). -/
def State.sampleDone (s : State) (x : Cx) (spc : Space) : State :=
  s.modGroup x.g.gid fun g =>
    match g.smpl with
    | some t =>
      if t.issued then g
      else
        let absent := spc == .tw && match x.findIn x.s t.addr.toNat with
          | some r => (x.s.tile r).st != .resident
          | none => false
        { g with smpl := some { t with issued := true, hod := absent && t.opc == 0xC0,
                                       bank := spc == .sc || (spc == .tw && !absent), finish := some s.now } }
    | none => g

/-- The instruction that takes effect now carries the tag. -/
def Cx.tagged (x : Cx) : Bool :=
  match (x.s.group? x.g.gid).bind (·.smpl) with
  | some t => !t.issued
  | none => false

/-! Reads and writes by space -/

def spillKey (t off : Nat) : Nat := 1024 * t + off

/-- Bytes of a tile as a core's load sees them: a resident tile's with the core's own appends, or the hod's. -/
def State.tileByte (s : State) (core : Nat) (t : TileRef) (off : Nat) : Byte :=
  let x := s.tile t
  if x.st == .resident then
    (applyDirect x.data ((s.appendsTo core t).flatMap fun a => a.entries)).read off
  else (hodByte (s.coreHod core t) off).getD 0

/-- n bytes a group's load reads at an address of a space. -/
def Cx.loadN (x : Cx) (spc : Space) (t a n : Nat) : Nat :=
  match spc with
  | .sp => x.g.spill.readN (spillKey t a) n
  | .sh => x.b.sh.readN a n
  | .sc => (x.s.coreScratch x.g.core).readN (scratchKey x.c x.die a) n
  | .tw =>
    match x.findIn x.s a with
    | some r => numOf ((List.range n).map fun i => x.s.tileByte x.g.core r (a % tileBytes + i))
    | none => 0

/-- The tiles that some addresses lie in, each once. -/
def Cx.tilesAt (x : Cx) (addrs : List Nat) : List TileRef :=
  (addrs.filterMap fun a => x.findIn x.s a).foldl (fun l r => if l.contains r then l else l ++ [r]) []

/-- Before a load of n bytes at some addresses: its core's pending operations there, other than stores, are performed, so that
what it reads is what a write has left (R221, R225). -/
def Cx.ownFirst (x : Cx) (spc : Space) (addrs : List Nat) (n : Nat) : Cx :=
  match spc with
  | .sc => { x with s := addrs.foldl (fun s a => s.flushOps x.g.core (scratchKey x.c x.die a) n) x.s }
  | .tw => { x with s := (x.tilesAt addrs).foldl (fun s r =>
      if (s.tile r).st == .resident then s.flushTile x.g.core r else s) x.s }
  | _ => x

/-- The operations of R186 by their rows. -/
inductive TileRow where
  | load | store | atomic
  deriving DecidableEq, Repr

/-- Whether a portion of an access must wait for its tile (R186, R191, R192). -/
def Cx.mustWait (x : Cx) (row : TileRow) (r : TileRef) (offs : List Nat) (w : Nat) (es : List HodEntry) : Bool :=
  match (x.s.tile r).st, row with
  | .resident, _ => false
  | .arriving, .store | .absent, .store => !x.s.appendFits r es
  | .arriving, _ => true
  | .absent, .load =>
    let hod := x.s.coreHod x.g.core r
    offs.any fun o => (List.range w).any fun i => (hodByte hod (o + i)).isNone
  | .absent, .atomic => true

/-- Those of some tiles that an access waits for: its portions are the bytes at its addresses, and for a store the entries it makes by
tile, of which each has room beside the ones before it (R185, R192). -/
def Cx.waitsIn (x : Cx) (row : TileRow) (addrs : List Nat) (w : Nat) (entries : TileRef → List HodEntry) :
    List TileRef → State → List TileRef
  | [], _ => []
  | r :: rest, s =>
    let offs := (addrs.filter fun a => x.findIn x.s a == some r).map fun a => a % tileBytes
    let y : Cx := { x with s := s }
    if y.mustWait row r offs w (entries r) then r :: Cx.waitsIn x row addrs w entries rest s
    else
      let appends := row == .store && (s.tile r).st != .resident
      Cx.waitsIn x row addrs w entries rest
        (if appends then s.postAppend x.g.gid x.b.bid x.g.core r (entries r) none none false 0 else s)

/-- The tiles an access waits for. -/
def Cx.waitsFor (x : Cx) (row : TileRow) (addrs : List Nat) (w : Nat) (entries : TileRef → List HodEntry) : List TileRef :=
  x.waitsIn row addrs w entries (x.tilesAt addrs) x.s

/-- Parking (R185): fetches start for the absent tiles, all are held for the group from now on, be it before a frame is free. With the
fault buffer full the instruction is held back. Log entry 102. -/
def Cx.parkOn (x : Cx) (spc : Space) (waits : List TileRef) (at_ : Nat → Int) : Fate :=
  match startFetches x.g.core waits (x.s.unhold x.g.gid) with
  | some s => .park (((s.sample x spc at_).sampleParks x.g.gid waits).holdFor x.g.gid waits) waits
  | none => .hold

/-- The frame of every access after its checks: held while it meets a drain of its group, parked while it must wait. Thread t's
address is that of `at_`. -/
def Cx.access (x : Cx) (spc : Space) (row : TileRow) (addrs : List Nat) (w : Nat) (entries : TileRef → List HodEntry)
    (effect : Cx → Fate) (at_ : Nat → Int := x.addrOf) : Fate :=
  if addrs.any fun a => x.drained spc a w then .hold
  else
    let waits := if spc == .tw then x.waitsFor row addrs w entries else []
    if waits.isEmpty then effect { x with s := (x.s.unhold x.g.gid).sample x spc at_ }
    else x.parkOn spc waits at_

/-- A memory instruction held in issue until its REJ draws end (R118): it is counted, and its times run, from its first issue
(R357). -/
def Cx.drawFirst (x : Cx) (spc : Space) (run : Cx → Fate) : Fate :=
  if x.namesRej && !x.g.stayDone && x.g.rejHeld.isNone then
    { x with s := (x.s.sample x spc x.addrOf).modGroup x.g.gid fun g => { g with reissue := true } }.rejHold run
  else x.rejHold run

/-- Resident tiles accessed (R184). -/
def State.touchAll (s : State) (rs : List TileRef) : State :=
  rs.foldl (fun s r => if (s.tile r).st == .resident then s.touch r else s) s

/-! Loads (R83, R204, R208) -/

def tyBytes (ty : Ty) : Nat :=
  match ty with
  | .i8 | .n8 => 1
  | .i16 | .n16 => 2
  | .b64 => 8
  | .b128 => 16
  | _ => 4

/-- The registers a loaded value fills (R71, R204). -/
def loadedWords (ty : Ty) (v : Nat) : List Word :=
  match ty with
  | .i8 => [BitVec.ofInt 32 (IFmt.read .i8 v)]
  | .i16 => [BitVec.ofInt 32 (IFmt.read .i16 v)]
  | .b64 => (List.range 2).map fun j => BitVec.ofNat 32 (v / 2 ^ (32 * j))
  | .b128 => (List.range 4).map fun j => BitVec.ofNat 32 (v / 2 ^ (32 * j))
  | _ => [BitVec.ofNat 32 v]

/-- A load's registers in flight, with the sample's end. -/
def Cx.loadResult (x : Cx) (spc : Space) (ws : List RegW) : State :=
  (x.s.sampleDone x spc).putResult x .mem ws [] 0 [] [] x.tagged

/-- A load takes its value at its issue, in program order: of the orders that R227 leaves a relaxed load, the model takes that
one. Log entry 74. -/
def ldBody (m : MemMod) (x : Cx) : Fate :=
  let n := tyBytes m.ty
  match x.checkAddrs m.space n with
  | some r => r
  | none =>
    let addrs := x.each.map x.addrN
    x.access m.space .load addrs n (fun _ => []) fun x =>
      let x := x.ownFirst m.space addrs n
      let ws := x.each.flatMap fun t => regWrites x.f.dst t (loadedWords m.ty (x.loadN m.space t (x.addrN t) n))
      .done ((x.loadResult m.space ws).touchAll (if m.space == .tw then x.tilesAt addrs else [])) none false

def execLd (w : W) (m : MemMod) : State → Host.Outcome State Fault Refusal :=
  issue (w.fields 0xC0 m.bits) noPre (ldBody m)

/-- MEMORY_RESULT_WRITE: a load's or an atomic's results arrive. -/
def execMemoryResultWrite (rid : Nat) (s : State) : Host.Outcome State Fault Refusal :=
  match s.landing rid .mem with
  | some r => .next (s.landNext r)
  | none => .next s

/-- LDT (R208): each thread receives its column. -/
def ldtWidth (ty : Ty) : Nat :=
  match ty with
  | .n8 | .i8 | .e4m3 | .e5m2 | .e2m1 | .q4x => 1
  | .n16 | .i16 | .f16 | .bf16 => 2
  | _ => 4

def ldtBody (m : MemMod) (x : Cx) : Fate :=
  let e := ldtWidth m.ty
  let stride := codeOf (x.getC 0)
  let base := x.addr 0
  let at_ (t r : Nat) : Int := base + r * stride + t * e
  let size := if m.space == .sh then x.b.shmem else x.c.scSize
  let rows := List.range (16 / e)
  let misaligned := decide (base % e ≠ 0) || decide (stride % e ≠ 0)
  let bad (t : Nat) : Option (BitVec 8 × Nat) :=
    if misaligned then some (trapIllegal, 16)
    else if rows.any fun r => decide (at_ t r < 0 ∨ (size : Int) < at_ t r + e) then some (trapIllegal, 17) else none
  match x.firstFault (x.threads.filterMap fun t => (bad t).map fun c => (t, c)) with
  | some r => r
  | none =>
    let addrs := x.threads.flatMap fun t => rows.map fun r => (at_ t r).toNat
    x.access m.space .load addrs e (fun _ => []) (at_ := fun t => at_ t 0) fun x =>
      let x := x.ownFirst m.space addrs e
      let word (t j : Nat) : Word :=
        BitVec.ofNat 32 ((List.range (4 / e)).foldr (fun i n =>
          x.loadN m.space t (at_ t (4 / e * j + i)).toNat e + 256 ^ e * n) 0)
      let ws := x.threads.flatMap fun t => regWrites x.f.dst t ((List.range 4).map (word t))
      .done (x.loadResult m.space ws) none false

def execLdt (w : W) (m : MemMod) : State → Host.Outcome State Fault Refusal :=
  issue (w.fields 0xC2 m.bits) noPre (ldtBody m)

/-! Spill runs (R83) -/

/-- The offset of a spill run, when it lies within a thread's data. -/
def spillOffset (o : Word) (n : Nat) : Option Nat :=
  if o.toInt < 0 ∨ o.toNat % 4 ≠ 0 ∨ 960 < o.toNat + 4 * n then none else some o.toNat

def spstBody (x : Cx) : Fate :=
  let n := (immOf x.f.b).toNat
  match spillOffset ((x.getC 0).extractLsb' 0 32) n with
  | none => if x.act = 0 then .done x.s none false else .trap trapStack 1 x.act
  | some off =>
    .done (x.s.modGroup x.g.gid fun g => { g with
      spill := x.threads.foldl (fun m t =>
        (List.range n).foldl (fun m j => m.writeN (spillKey t (off + 4 * j)) 4 ((x.run x.f.a n t).getD j 0).toNat) m)
        g.spill }) none false

def execSpst (w : W) (m : IntMod) : State → Host.Outcome State Fault Refusal :=
  issue (w.fields 0x45 m.bits) noPre spstBody

def spldBody (x : Cx) : Fate :=
  let n := (immOf x.f.a).toNat
  match spillOffset ((x.getB 0).extractLsb' 0 32) n with
  | none => if x.act = 0 then .done x.s none false else .trap trapStack 1 x.act
  | some off =>
    let ws := x.threads.flatMap fun t => regWrites x.f.dst t
      ((List.range n).map fun j => BitVec.ofNat 32 (x.g.spill.readN (spillKey t (off + 4 * j)) 4))
    .done (x.s.putResult x .mem ws [] 0 [] [] false) none false

def execSpld (w : W) (m : IntMod) : State → Host.Outcome State Fault Refusal :=
  issue (w.fields 0x46 m.bits) noPre spldBody

/-! Stores (R205 to R207) -/

/-- One write of a group to a space: address, width in bytes, operation and value. -/
structure Write where
  addr  : Nat
  width : Nat
  op    : MemOp
  ty    : At
  val   : Nat
  deriving DecidableEq, Repr

def Write.entry (w : Write) : HodEntry := ⟨w.addr % tileBytes, w.width, false, w.op, w.ty, bytesOf w.width w.val⟩

/-- Writes carried out in order (R206): in .sp by the thread, at once in .sh, from the group to the die in .sc, applied to
or logged for their tiles in .tw. -/
def Cx.writeAll (x : Cx) (spc : Space) (t : Nat) (ws : List Write) (sync : Bool) (s : State) : State :=
  match spc with
  | .sp => s.modGroup x.g.gid fun g => { g with
      spill := ws.foldl (fun m w => m.writeN (spillKey t w.addr) w.width w.val) g.spill }
  | .sh => s.modBlock x.b.bid fun b => { b with
      sh := ws.foldl (fun m w => performOp m w.op w.ty w.addr w.width w.val) b.sh }
  | .sc => ws.foldl (fun s w =>
      s.postSc x.g.gid x.b.bid x.g.core x.die (scratchKey x.c x.die w.addr) w.width w.op w.ty w.val sync) s
  | .tw => s

/-- The entries that writes make in a tile (R207). -/
def Cx.entriesIn (x : Cx) (ws : List Write) (r : TileRef) : List HodEntry :=
  (ws.filter fun w => x.findIn x.s w.addr == some r).map Write.entry

/-- The tagged request of the group accesses a tile. -/
def Cx.tagCovers (x : Cx) (r : TileRef) : Bool := ((x.s.group? x.g.gid).bind (·.smpl)).any (·.covers r)

/-- Writes to window tiles: each tile's in ascending thread order, applied or appended together (R186, R207). The tagged thread is the
lowest, so that its entries lead those of its tile. -/
def Cx.writeTiles (x : Cx) (ws : List Write) (sync : Bool) (s : State) : State :=
  (x.tilesAt (ws.map (·.addr))).foldl (fun s r =>
    let es := x.entriesIn ws r
    let lead := if x.tagged && x.tagCovers r then ws.length / x.each.length else 0
    if (s.tile r).st == .resident then (s.flushTile x.g.core r).applyTile r es
    else s.postAppend x.g.gid x.b.bid x.g.core r es none none sync lead) s

/-- The writes of a store's data: two of eight bytes for .b128 (R207, R220). -/
def storeWrites (ty : Ty) (a v : Nat) : List Write :=
  if ty == .b128 then [⟨a, 8, .st, .i64, v % 2 ^ 64⟩, ⟨a + 8, 8, .st, .i64, v / 2 ^ 64⟩]
  else [⟨a, tyBytes ty, .st, if ty == .b64 then .i64 else .n32, v % 2 ^ (8 * tyBytes ty)⟩]

/-- The data of a store in a thread. -/
def Cx.storeData (x : Cx) (ty : Ty) (t : Nat) (dr : Draw) : Nat × Draw :=
  if ty == .b128 then ((x.run x.f.c 4 t).foldr (fun w n => w.toNat + 2 ^ 32 * n) 0, dr)
  else let (v, dr) := x.read x.spec.c x.f.c t dr; (v.toNat, dr)

/-- Each acting thread's writes, in ascending order, with their draws. -/
def writesOf (x : Cx) (one : Nat → Draw → List Write × Draw) : List Nat → Draw → List (Nat × List Write) × Draw
  | [], dr => ([], dr)
  | t :: ts, dr =>
    let (ws, dr) := one t dr
    let (rest, dr) := writesOf x one ts dr
    ((t, ws) :: rest, dr)

def Ord.releases : Ord → Bool
  | .rel | .ar | .relCrit => true
  | _ => false

def Ord.acquires : Ord → Bool
  | .acq | .ar | .acqCrit => true
  | _ => false

/-- What a release or an acquire of some acting thread puts in order (R224). -/
def State.ordered (s : State) (x : Cx) (ord : Ord) : State :=
  if x.act = 0 then s
  else
    let s := if Ord.releases ord then s.released x.g.gid else s
    if Ord.acquires ord then s.acquired x.g.gid x.g.core else s

/-- An atomic operation of some acting thread waits while an earlier one of its group is on its way to a log controller (R225). Log
entry 93. -/
def Cx.syncWaits (x : Cx) : Bool := x.act != 0 && x.s.syncPending x.g.gid

/-- The context in which an atomic operation of some acting thread is made: earlier ones on their way to a scratchpad are at the die. -/
def Cx.afterSync (x : Cx) : Cx := if x.act = 0 then x else { x with s := x.s.syncFirst x.g.gid x.g.core }

/-- An atomic operation keeps the order of its group's (R225). -/
def Cx.inOrder (x : Cx) (run : Cx → Fate) : Fate := if x.syncWaits then .hold else run x.afterSync

/-- The shape of ST, and of RED without an acquire and BARI, which at .die or wider are `sync`: data read, the fate of every portion
settled, then the writes, and what they put in order as a release. -/
def Cx.writeOut (x : Cx) (spc : Space) (row : TileRow) (w : Nat) (one : Cx → Nat → Draw → List Write × Draw)
    (ord : Ord := .relaxed) (sync : Bool := false) : Fate :=
  match x.checkAddrs spc w with
  | some r => r
  | none =>
    x.drawFirst spc fun x =>
      let (ws, dr) := writesOf x (one x) x.each Draw.start
      let all := ws.flatMap (·.2)
      let addrs := x.each.map x.addrN
      x.access spc row addrs w (x.entriesIn all) fun x =>
        let s := ((x.s.ordered x ord).sampleDone x spc).commitDraws x dr
        let s := if spc == .tw then x.writeTiles all sync s else ws.foldl (fun s e => x.writeAll spc e.1 e.2 sync s) s
        .done s none false

def stBody (m : MemMod) (x : Cx) : Fate :=
  let narrow := decide (tyBytes m.ty < 4)
  x.writeOut m.space (if narrow then .atomic else .store) (tyBytes m.ty) fun x t dr =>
    let (v, dr) := x.storeData m.ty t dr
    (storeWrites m.ty (x.addrN t) v, dr)

def execSt (w : W) (m : MemMod) : State → Host.Outcome State Fault Refusal :=
  issue (w.fields 0xC1 m.bits) noPre (stBody m)

/-! Atomics and reductions (R209 to R211) -/

def atBytes (ty : At) : Nat := if ty == .i64 then 8 else 4

/-- One location's contents changed at the point of coherence, after the core's own earlier writes to it: the value it held
and the state. A failed compare writes nothing. -/
def Cx.swap (x : Cx) (spc : Space) (a n : Nat) (f : Nat → Option Nat) (s : State) : Nat × State :=
  match spc with
  | .sh =>
    match s.block? x.b.bid with
    | some b =>
      let old := b.sh.readN a n
      (old, match f old with
        | some v => s.setBlock { b with sh := b.sh.writeN a n v }
        | none => s)
    | none => (0, s)
  | .sc =>
    let k := scratchKey x.c x.die a
    let s := s.flushSc x.g.core k n
    let old := s.scratch.readN k n
    (old, match f old with
      | some v => { s with scratch := s.scratch.writeN k n v }
      | none => s)
  | .tw =>
    match x.findIn s a with
    | some r =>
      let s := s.flushTile x.g.core r
      let old := (s.tile r).data.readN (a % tileBytes) n
      (old, match f old with
        | some v => s.applyTile r [⟨a % tileBytes, n, false, .st, .i64, bytesOf n v⟩]
        | none => s.touch r)
    | none => (0, s)
  | .sp => (0, s)

/-- The operation of each acting thread in ascending order, each indivisible (R206): old values by thread. -/
def Cx.swapAll (x : Cx) (spc : Space) (n : Nat) : List (Nat × (Nat → Option Nat)) → State → List (Nat × Nat) × State
  | [], s => ([], s)
  | (t, f) :: rest, s =>
    let (old, s) := x.swap spc (x.addrN t) n f s
    let (olds, s) := Cx.swapAll x spc n rest s
    ((t, old) :: olds, s)

/-- The critical depth after an atomic with at least one acting thread (R133). -/
def State.critical (s : State) (x : Cx) (ord : Ord) : State :=
  if x.act = 0 then s
  else match ord with
    | .acqCrit =>
      let (n, s) := s.fresh
      s.modGroup x.g.gid fun g => { g with crit := min 15 (g.crit + 1), critSeq := if g.crit = 0 then n else g.critSeq }
    | .relCrit => s.modGroup x.g.gid fun g => { g with crit := g.crit - 1 }
    | _ => s

/-- A release of some acting thread whose waits have not ended. A CAS with a release order waits before its compare, also where
the compare then fails and it is none. Log entry 75. -/
def Cx.waitsRelease (x : Cx) (ord : Ord) (sc : Scope) : Bool :=
  Ord.releases ord && x.act != 0 && !x.s.releaseReady x.g sc

/-- The operands of C in each acting thread with their draws; CAS has a pair of them. -/
def Cx.operands (x : Cx) (ty : At) (cas : Bool) (op : Nat → Nat → Nat) :
    List Nat → Draw → List (Nat × (Nat → Option Nat)) × Draw
  | [], dr => ([], dr)
  | t :: ts, dr =>
    let n := if ty == .i64 then 2 else 1
    let num (ws : List Word) : Nat := ws.foldr (fun w m => w.toNat + 2 ^ 32 * m) 0
    let run := x.run x.f.c (2 * n) t
    let (v, dr') := x.read x.spec.c x.f.c t dr
    let f : Nat → Option Nat :=
      if cas then fun old => if old = num (run.take n) then some (num (run.drop n)) else none
      else fun old => some (op old (v.toNat % 2 ^ (8 * atBytes ty)))
    let (rest, dr') := Cx.operands x ty cas op ts (if cas then dr else dr')
    ((t, f) :: rest, dr')

/-- ATOM, CAS, and RED with an acquire: a release waits, then each thread's operation at the location, its old value to
the destination when it has one. -/
def atomBody (m : AtomMod) (cas : Bool) (op : Nat → Nat → Nat) (x : Cx) : Fate :=
  let n := atBytes m.at_
  match x.checkAddrs m.asp n with
  | some r => r
  | none =>
    if x.waitsRelease m.ord m.scope then .hold
    else x.inOrder fun x =>
      let run (x : Cx) : Fate :=
        let (ops, dr) := x.operands m.at_ cas op x.each Draw.start
        let addrs := x.each.map x.addrN
        x.access m.asp .atomic addrs n (fun _ => []) fun x =>
          let (olds, s) := x.swapAll m.asp n ops (x.s.sampleDone x m.asp)
          let s := (s.critical x m.ord).ordered x m.ord
          let ws := olds.flatMap fun e =>
            regWrites x.f.dst e.1 (wordsOf (if m.at_ == .i64 then 2 else 1) (BitVec.ofNat 64 e.2))
          .done (if x.spec.dst.nil then s.commitDraws x dr
            else if x.namesRej then
              (s.commitNone x dr).putResult x .mem ws dr.pos dr.words (rejxOf dr.qstat) [] x.tagged
            else (s.commitDraws x dr).putResult x .mem ws [] 0 [] [] x.tagged) none false
      if x.spec.dst.nil then x.drawFirst m.asp run else run x

/-- An atomic operation at its type and width. -/
def atomOp (op : MemOp) (ty : At) (old v : Nat) : Nat := opValue op ty (atBytes ty) old v

def execAtomAdd (w : W) (m : AtomMod) : State → Host.Outcome State Fault Refusal :=
  issue (w.fields 0xC3 m.bits) noPre (atomBody m false (atomOp .add m.at_))
def execAtomMin (w : W) (m : AtomMod) : State → Host.Outcome State Fault Refusal :=
  issue (w.fields 0xC4 m.bits) noPre (atomBody m false (atomOp .min m.at_))
def execAtomMax (w : W) (m : AtomMod) : State → Host.Outcome State Fault Refusal :=
  issue (w.fields 0xC5 m.bits) noPre (atomBody m false (atomOp .max m.at_))
def execAtomAnd (w : W) (m : AtomMod) : State → Host.Outcome State Fault Refusal :=
  issue (w.fields 0xC6 m.bits) noPre (atomBody m false (atomOp .and m.at_))
def execAtomOr (w : W) (m : AtomMod) : State → Host.Outcome State Fault Refusal :=
  issue (w.fields 0xC7 m.bits) noPre (atomBody m false (atomOp .or m.at_))
def execAtomXor (w : W) (m : AtomMod) : State → Host.Outcome State Fault Refusal :=
  issue (w.fields 0xC8 m.bits) noPre (atomBody m false (atomOp .xor m.at_))
def execAtomExch (w : W) (m : AtomMod) : State → Host.Outcome State Fault Refusal :=
  issue (w.fields 0xC9 m.bits) noPre (atomBody m false (atomOp .st m.at_))
def execCas (w : W) (m : AtomMod) : State → Host.Outcome State Fault Refusal :=
  issue (w.fields 0xCA m.bits) noPre (atomBody m true (atomOp .st m.at_))

/-- RED (R207, R210): with an acquire as an atomic, otherwise its writes go out as a store's do. -/
def redBody (m : AtomMod) (op : MemOp) (x : Cx) : Fate :=
  if m.ord == .acq || m.ord == .ar then atomBody m false (atomOp op m.at_) x
  else
    let n := atBytes m.at_
    let go (x : Cx) : Fate :=
      x.writeOut m.asp .store n (ord := m.ord) (sync := Scope.wide m.scope) fun x t dr =>
        let (v, dr) := x.read x.spec.c x.f.c t dr
        ([⟨x.addrN t, n, op, m.at_, v.toNat % 2 ^ (8 * n)⟩], dr)
    match x.checkAddrs m.asp n with
    | some r => r
    | none => if x.waitsRelease m.ord m.scope then .hold else x.inOrder go

def execRedAdd (w : W) (m : AtomMod) : State → Host.Outcome State Fault Refusal :=
  issue (w.fields 0xCB m.bits) noPre (redBody m .add)
def execRedMin (w : W) (m : AtomMod) : State → Host.Outcome State Fault Refusal :=
  issue (w.fields 0xCC m.bits) noPre (redBody m .min)
def execRedMax (w : W) (m : AtomMod) : State → Host.Outcome State Fault Refusal :=
  issue (w.fields 0xCD m.bits) noPre (redBody m .max)
def execRedAnd (w : W) (m : AtomMod) : State → Host.Outcome State Fault Refusal :=
  issue (w.fields 0xCE m.bits) noPre (redBody m .and)
def execRedOr (w : W) (m : AtomMod) : State → Host.Outcome State Fault Refusal :=
  issue (w.fields 0xCF m.bits) noPre (redBody m .or)
def execRedXor (w : W) (m : AtomMod) : State → Host.Outcome State Fault Refusal :=
  issue (w.fields 0xD0 m.bits) noPre (redBody m .xor)

/-! Barrier words (R212 to R215) -/

def barExpect (w : Nat) : Nat := w / 2 ^ 32 % 2 ^ 24
def barPhase (w : Nat) : Nat := w / 2 ^ 24 % 256
def barCount (w : Nat) : Nat := w % 2 ^ 24

/-- The word after n arrivals, by the pseudocode of R214 also where n is 0. Log entry 76. -/
def barArrive (n w : Nat) : Nat :=
  let e := barExpect w
  let count := barCount w + n
  let phases := if e = 0 then 0 else count / e
  let count := if e = 0 then min count 0xFFFFFF else count % e
  w / 2 ^ 32 * 2 ^ 32 + (barPhase w + phases) % 256 * 2 ^ 24 + count

/-- A word of a space as its core saw it when the turn under way began (R132). -/
def Cx.wordBegan (x : Cx) (spc : Space) (a : Nat) : Nat :=
  let m := x.s.began
  let sh : Memory := (m.sh.find? fun e => e.1 == x.b.bid).elim [] (·.2)
  match spc with
  | .sh => sh.readN a 8
  | _ => (({ x.s with scratch := m.scratch, scw := m.scw } : State).coreScratch x.g.core).readN (scratchKey x.c x.die a) 8

/-- A thread has observed a phase other than p: the word shows one to this access, after its group's earlier ones (R206), and showed
one as the turn began, since an advance within a turn is seen by later turns alone (R132, R215). Log entry 87. -/
def Cx.phaseMoved (x : Cx) (spc : Space) (t : Nat) : Bool :=
  let p := codeOf (x.getC t) % 256
  barPhase (x.loadN spc t (x.addrN t) 8) != p && barPhase (x.wordBegan spc (x.addrN t)) != p

/-- BARA (R214): each acting thread arrives once and receives the phase it found. -/
def baraBody (m : AtomMod) (x : Cx) : Fate :=
  match x.checkAddrs m.asp 8 with
  | some r => r
  | none =>
    if x.waitsRelease m.ord m.scope then .hold
    else x.inOrder fun x =>
      let ops := x.each.map fun t => (t, fun old => some (barArrive (codeOf (x.getC t) % 2 ^ 24) old))
      x.access m.asp .atomic (x.each.map x.addrN) 8 (fun _ => []) fun x =>
        let (olds, s) := x.swapAll m.asp 8 ops (x.s.sampleDone x m.asp)
        let ws := olds.flatMap fun e => regWrites x.f.dst e.1 [BitVec.ofNat 32 (barPhase e.2)]
        .done ((s.ordered x m.ord).putResult x .mem ws [] 0 [] [] x.tagged) none false

def execBara (w : W) (m : AtomMod) : State → Host.Outcome State Fault Refusal :=
  issue (w.fields 0xD1 m.bits) noPre (baraBody m)

/-- What an atomic load of n bytes at some addresses reads is performed at the die first (R225). -/
def Cx.atDieFirst (x : Cx) (spc : Space) (addrs : List Nat) (n : Nat) : Cx :=
  match spc with
  | .sc => { x with s := addrs.foldl (fun s a => s.flushSc x.g.core (scratchKey x.c x.die a) n) x.s }
  | _ => x

/-- BARW (R215): held back until every acting thread sees another phase, in a turn that began after it advanced (R132). -/
def barwBody (m : AtomMod) (x : Cx) : Fate :=
  match x.checkAddrs m.asp 8 with
  | some r => r
  | none =>
    x.inOrder fun x =>
      x.access m.asp .load (x.each.map x.addrN) 8 (fun _ => []) fun y =>
        let z := y.atDieFirst m.asp (y.each.map y.addrN) 8
        if z.each.all (z.phaseMoved m.asp) then .done ((z.s.sampleDone z m.asp).ordered z m.ord) none false else .hold

def execBarw (w : W) (m : AtomMod) : State → Host.Outcome State Fault Refusal :=
  issue (w.fields 0xD2 m.bits) noPre (barwBody m)

/-- BARI (R213): an expected count of 0 raises detail 19 among the address checks. -/
def bariBody (m : MemMod) (x : Cx) : Fate :=
  let n (t : Nat) : Nat := codeOf (x.getC t) % 2 ^ 24
  let fails := x.each.filterMap fun t =>
    match x.addrFault m.space (x.addr t) 8 with
    | some c => some (t, c)
    | none => if n t = 0 then some (t, trapIllegal, 19) else none
  match x.firstFault fails with
  | some r => r
  | none =>
    x.inOrder fun x =>
      x.writeOut m.space .store 8 (sync := true) fun x t dr => ([⟨x.addrN t, 8, .st, .i64, n t * 2 ^ 32⟩], dr)

def execBari (w : W) (m : MemMod) : State → Host.Outcome State Fault Refusal :=
  issue (w.fields 0xD3 m.bits) noPre (bariBody m)

/-! The block barrier and fences (R216, R217) -/

def barbPre (x : Cx) : Option Fate := if x.g.spawned then some (.trap trapIllegal 11 x.g.amask) else none

/-- BARB (R216): its group arrives as a turn begins (`State.arriveAll`), and it retires once the barrier has let the group go. -/
def barbBody (x : Cx) : Fate :=
  match x.b.passed.find? fun e => e.1 == x.g.gid with
  | some e =>
    if e.2 ≤ x.s.cycle then
      .done (x.s.modBlock x.b.bid fun b => { b with passed := b.passed.filter fun e => e.1 != x.g.gid }) none false
    else .hold
  | none => .hold

def execBarb (w : W) : State → Host.Outcome State Fault Refusal := issue (w.fields 0xD4 0) barbPre barbBody

/-- FENCE (R217): stays in issue until its three conditions hold. -/
def fenceReady (s : State) (g : Group) (sc : Scope) : Bool :=
  s.groupSettled g.gid && (sc == .grp || sc == .blk || s.replayEmpty g.core) && (!Scope.wide sc || s.atDie g.gid)

def fenceBody (sc : Scope) (x : Cx) : Fate :=
  let s := (x.s.released x.g.gid).acquired x.g.gid x.g.core
  if x.g.stayDone then .done s none false else if fenceReady x.s x.g sc then .met x.s s else .stay x.s

def execFence (w : W) (sc : Scope) : State → Host.Outcome State Fault Refusal :=
  issue (w.fields 0xD5 (sc.code ++ 0#7)) noPre (fenceBody sc)

/-! Events of the memory levels that end what these instructions begin -/

/-- WRITE_PERFORMED_AT_DIE (R229): a .sc write reaches its bank; a core's writes to one address do so in order. -/
def execWritePerformedAtDie (wid : Nat) (s : State) : Host.Outcome State Fault Refusal :=
  match s.scw.find? fun w => w.wid == wid with
  | none => .next s
  | some w =>
    let earlier := (s.scw.takeWhile fun v => v.wid != wid).any fun v =>
      v.core == w.core && rangesMeet v.addr v.width w.addr w.width
    if earlier || !s.dieRuns w.die then .next s
    else .next { s with scratch := w.perform s.scratch, scw := s.scw.filter fun v => v.wid != wid }

/-- The first entry of an append accepted: the hod holds it, and the others are still to come. -/
def State.acceptEntry (s : State) (a : Append) (e : HodEntry) (rest : List HodEntry) (hod : List HodEntry) : State :=
  let left := if rest.isEmpty then s.appends.filter fun b => b.aid != a.aid
    else replaceBy (fun b => b.aid == a.aid) { a with entries := rest, begun := true, tagged := a.tagged - 1 } s.appends
  let s : State := { s with appends := left }
  let s := s.ran (tileUnit a.tile.die) a.tile.ctx
  let s := ((appendHod (s.logHolds a.tile) hod [e]).elim s fun h => s.setTile a.tile { s.tile a.tile with hod := h }).count
    a.core 0x08 a.tile.ctx 1
  s.appendSample a fun t => { t with hod := true, finish := some s.now }

/-- An append that is refused waits for its tile, which is held for it (R192). A tagged request among it then waits for a tile
fetch (R358). -/
def State.refuseAppend (s : State) (a : Append) : State :=
  ((if (s.tile a.tile).st == .absent then s.askFetch a.tile a.core else s).holdFor a.aid [a.tile]).appendSample a
    fun t => { t with parked := true }

/-- An append comes after those of its core to the same tile that came before it. One that has been refused lets others pass that
touch none of its bytes (R192, R206). -/
def State.behind (s : State) (a : Append) : Bool :=
  (s.appends.takeWhile fun b => b.aid != a.aid).any fun b =>
    b.core == a.core && b.tile == a.tile && (!s.refused b || b.entries.any fun e => a.entries.any e.meets)

/-- HOD_APPEND (R189, R190, R192): the log controller accepts one entry of a core's first append to a tile. It takes one
operation at a time, whose entries all fit or none is accepted: the room of those to come is kept for it (`State.logUse`). One that
has been refused waits until the tile is resident. Entries for a resident tile are applied to it. -/
def execHodAppend (aid : Nat) (s : State) : Host.Outcome State Fault Refusal :=
  match s.appends.find? fun a => a.aid == aid with
  | none => .next s
  | some a =>
    let busy := s.appends.any fun b => b.begun && b.tile == a.tile && b.aid != aid
    let x := s.tile a.tile
    if s.behind a || busy || !s.dieRuns a.tile.die then .next s
    else if x.st == .resident then .next ((s.ran (tileUnit a.tile.die) a.tile.ctx).applyAppend a)
    else if s.refused a then .next s
    else match a.entries, s.tryAppend a.tile x.hod a.entries with
      | e :: rest, some _ => .next (s.acceptEntry a e rest x.hod)
      | _, _ => .next (s.refuseAppend a)

/-- DESCRIPTOR_READ_DONE (R167): the distributor has read a descriptor's header and parameters, as the group's loads. -/
def execDescriptorReadDone (gid : Nat) (s : State) : Host.Outcome State Fault Refusal :=
  match s.group? gid with
  | none => .next s
  | some g =>
    match g.gdesc, (s.block? g.bid).bind fun b => s.ctx? b.ctx with
    | some (off, none), some c =>
      if !s.dieRuns (dieOf g.core) then .next s
      else
        let k := scratchKey c (dieOf g.core) off
        let s := s.flushOps g.core k (64 + 4 * 32)
        let m := s.coreScratch g.core
        let (d, _) := readDesc (m.readN k 64)
        let n := if d.nparam ≤ 32 ∧ off + 64 + 4 * d.nparam ≤ c.scSize then d.nparam else 0
        .next (s.setGroup { g with gdesc := some (off, some (m.readList k (64 + 4 * n))) })
    | _, _ => .next s

end Sys2Proof.Machine
end

