-- ==== Sys2Proof/Machine/Windows.lean ====
section
/-! DEFINITION. Tile windows (R181 to R184, R193, R195 to R200), and translation faults (R178, R179). -/

namespace Sys2Proof.Machine

open Sys2Proof

/-! Instructions -/

/-- A tile that R196 still has work for: a fetch, a hod, dirty bytes, or an access that waits for it. -/
def WTile.busy (v : WTile) : Bool :=
  v.st == .arriving || v.wanted.isSome || !v.hod.isEmpty || !v.dirty.isEmpty || !v.held.isEmpty

/-- Work of R196 that a window still needs: its tiles', appends, write-backs and drains into it, and accesses that have issued
and wait for their draws (R118). -/
def State.windowBusy (s : State) (w : Window) : Bool :=
  let here (t : TileRef) : Bool := t.die == w.die && t.ctx == w.ctx && t.win == w.win
  (w.tiles.any fun e => e.2.busy) || (s.appends.any fun a => here a.tile) || (s.wbacks.any fun b => here b.tile) ||
    (s.drains.any fun d => d.place == .win && d.ctx == w.ctx && dieOf d.core == w.die &&
      d.parts.any fun p => p.1 / 2 ^ 26 == w.win) ||
    s.groups.any fun g => g.rejHeld.isSome && dieOf g.core == w.die && ((s.block? g.bid).map (·.ctx)) == some w.ctx

/-- A window unmapped: the TMAPs that wait for it have met their condition (R197). -/
def State.dropWindow (s : State) (w : Window) : State :=
  let ref : TileRef := ⟨w.die, w.ctx, w.win, 0⟩
  { s with
    windows := s.windows.filter fun v => !(v.die == w.die && v.ctx == w.ctx && v.win == w.win)
    groups := s.groups.map fun g => if g.tmap == some ref then { g with stayDone := true } else g }

/-- TMAP (R197). What it does at issue, it does also while another member keeps its gang in issue (R21). -/
def tmapBody (x : Cx) : Fate :=
  let w := codeOf (x.getA 0)
  let base := (x.getB 0).toNat
  let n := codeOf (x.getC 0)
  let ref : TileRef := ⟨x.die, x.b.ctx, w, 0⟩
  if x.g.stayDone then .done x.s none false
  else if x.g.tmap.isSome then .stay x.s
  else if n ≠ 0 then
    if 63 < w ∨ (x.s.window? x.die x.b.ctx w).isSome ∨ base % 2 ^ 12 ≠ 0 ∨ 2 ^ 52 ≤ base ∨ 16384 < n ∨ x.c.frames < 128 then
      .trap trapIllegal 20 x.g.amask
    else
      let s : State := { x.s with windows := x.s.windows ++ [⟨x.die, x.b.ctx, w, base, n, false, []⟩] }
      .met s s
  else
    match x.s.window? x.die x.b.ctx w with
    | none => .met x.s x.s
    | some v =>
      if !v.closing && !x.s.windowBusy v then .met (x.s.dropWindow v) (x.s.dropWindow v)
      else .stay ((x.s.setWindow { v with closing := true }).modGroup x.g.gid fun g => { g with tmap := some ref })

def execTmapMap (w : W) : State → Host.Outcome State Fault Refusal := issue (w.fields 0xD6 0) noPre tmapBody
def execTmapUnmap (w : W) : State → Host.Outcome State Fault Refusal := issue (w.fields 0xD6 0) noPre tmapBody

/-- The tile that an instruction names: once it stays in issue, that of its issue, in a window that may be closing since (R199). -/
def Cx.tileArg (x : Cx) : Option TileRef :=
  let a := codeOf (x.getA 0)
  if x.g.stay then x.s.issuedTile x.die x.b.ctx a else x.s.findTile x.die x.b.ctx a

/-- TFETCH (R198): it retires in every case; a fetch that cannot start yet waits by itself. -/
def tfetchBody (x : Cx) : Fate :=
  match x.tileArg with
  | none => .done x.s none false
  | some t => .done (if (x.s.tile t).st == .absent then x.s.askFetch t x.g.core else x.s) none false

def execTfetch (w : W) : State → Host.Outcome State Fault Refusal := issue (w.fields 0xD7 0) noPre tfetchBody

/-- A tile that a TEVICT evicts as it retires (R199). One that is not resident then, or held again, which can be while its group's
gang waits for another member, stays as it is. Log entry 16. -/
def State.evictFree (s : State) (t : TileRef) (core : Nat) : State :=
  let v := s.tile t
  if v.st == .resident && v.held.isEmpty then s.evict t core else s

/-- TEVICT (R199), by the tile's state at issue; one that stays in issue waits until its tile is resident and not held. -/
def tevictBody (x : Cx) : Fate :=
  if x.g.stayDone then .done (x.g.evicts.elim x.s fun t => x.s.evictFree t x.g.core) none false
  else match x.tileArg with
    | none => .met x.s x.s
    | some t =>
      let v := x.s.tile t
      let named : State := x.s.modGroup x.g.gid fun g => { g with evicts := some t }
      match v.st with
      | .absent => .met x.s x.s
      | .arriving => .stay x.s
      | .resident => if v.held.isEmpty then .met named (x.s.evict t x.g.core) else .stay x.s

def execTevict (w : W) : State → Host.Outcome State Fault Refusal := issue (w.fields 0xD8 0) noPre tevictBody

/-- The word TSTAT writes (R200). -/
def tileStat (s : State) (t : Option TileRef) : Word :=
  match t with
  | none => 3
  | some t =>
    let v := s.tile t
    let b (c : Bool) (n : Nat) : Nat := if c then n else 0
    let st := match v.st with | .absent => 0 | .arriving => 1 | .resident => 2
    BitVec.ofNat 32 (b (!v.held.isEmpty) 1024 + b (v.st == .resident && !v.dirty.isEmpty) 512 + 16 * v.hod.length + st)

def execTstat (w : W) : State → Host.Outcome State Fault Refusal :=
  issue (w.fields 0xD9 0) noPre fun x =>
    .done (x.s.modGroup x.g.gid fun g => g.writeDst x.f.dst 0 [tileStat x.s x.tileArg]) none false

/-! Events -/

/-- Groups whose tiles are all resident issue again (R185). -/
def State.unpark (s : State) : State :=
  { s with groups := s.groups.map fun g =>
      if !g.parked.isEmpty && g.parked.all fun t => (s.tile t).st == .resident then
        { g with parked := [], reissue := true }
      else g }

/-- The tagged requests that wait for a tile whose page lies on another die have passed the die link (R358): one of an instruction
parked for it, of an append refused for it, or of a drain that waits for it. -/
def State.markLink (s : State) (t : TileRef) (far : Bool) : State :=
  if far then
    let held (n : Nat) : Bool := (s.tile t).held.contains n
    let waits (g : Group) (m : Smpl) : Bool :=
      if m.issued then
        (s.drains.any fun d => d.gid == g.gid && d.tagged && held d.did) ||
          s.appends.any fun a => a.gid == g.gid && a.tagged != 0 && held a.aid
      else g.parked.contains t && m.covers t
    { s with groups := s.groups.map fun g =>
        { g with smpl := g.smpl.map fun m => if waits g m then { m with link := true } else m } }
  else s

/-- TILE_ARRIVE (R193, R195): a fetch with no write-back of its tile before it reads main memory at the page that its start
translated to, and the hod is applied in one batch. -/
def execTileArrive (t : TileRef) (s : State) : Host.Outcome State Fault Refusal :=
  let v := s.tile t
  if v.st != .arriving || v.fault || !s.dieRuns t.die || s.wbacks.any fun b => b.tile == t then .next s
  else
    let s := (s.ran (tileUnit t.die) t.ctx).markLink t (readPa t.die v.pa v.attr / 2 ^ 37 != t.die)
    let m := s.dram
    let bytes := (List.range tileBytes).foldl (fun (l : Memory) i =>
      let b := m.read (readPa t.die (v.pa + i) v.attr)
      if b = 0 then l else l ++ [(i, b)]) []
    let s := s.setTile t { v with
      st := .resident, hod := [], data := applyHod bytes v.hod
      dirty := v.hod.foldl (fun d e => markDirty d e.off e.len) [], wanted := none, fault := false }
    .next (s.touch t).unpark

/-- The queue of parked stores of a core (R179). -/
def replayCap : Nat := 128

/-- The bytes that the entry governs at which a walk for an address ends (R177): its page, where the entry is a leaf. -/
def walkSpan (mem : Memory) (va : Nat) : Nat → Nat → Nat
  | 0, _ => 2 ^ 16
  | n + 1, at_ =>
    let level := 3 - n
    let e := mem.readN at_ 8
    if !e.testBit 63 || e.testBit 58 || pteMalformed e level then
      if level = 0 then 2 ^ 39 else if level = 1 then 2 ^ 30 else if level = 2 then 2 ^ 21 else 2 ^ 16
    else
      let idx := if level = 0 then va / 2 ^ 30 % 2 ^ 9 else if level = 1 then va / 2 ^ 21 % 2 ^ 9 else va / 2 ^ 16 % 2 ^ 5
      walkSpan mem va n (e / 2 ^ 8 % 2 ^ 44 * 2 ^ 8 + 8 * idx)

/-- Two addresses of a context lie in one page, of the size that the tables now give it. -/
def State.samePage (s : State) (ctx va va' : Nat) : Bool :=
  match s.ctx? ctx with
  | some c =>
    let n := walkSpan s.dram va 4 (c.ptRoot + 8 * (va / 2 ^ 39 % 2 ^ 13))
    va / n == va' / n
  | none => false

/-- A parked store to the same page is ahead. -/
def State.pageBlocked (s : State) (core ctx va : Nat) : Bool :=
  s.replay.any fun r => r.core == core && r.ctx == ctx && s.samePage ctx r.va va

/-- The core's engines accept no further store (R179). -/
def State.replayFull (s : State) (core : Nat) : Bool := decide (replayCap ≤ (s.replay.filter fun r => r.core == core).length)

/-- A store parked in a core's replay queue, on its own fault or behind one to its page; none when it is full. Faults alone are
counted (R354). -/
def State.parkStore (s : State) (core ctx va : Nat) (bytes : List Byte) (copy : Bool) (wb cid : Option Nat) (fault : Bool) :
    Option State :=
  if s.replayFull core then none
  else
    let (pid, s) := s.fresh
    let s : State := { s with replay := s.replay ++ [⟨pid, core, ctx, va, bytes, copy, wb, cid, fault⟩] }
    some (if fault then s.count core 0x0A ctx 1 else s)

/-- Bytes written to main memory at a translated address, in every copy the page has (R180). -/
def State.writeMain (s : State) (c : Ctx) (pa attr : Nat) (bytes : List (Nat × Byte)) : State :=
  { s with dram := bytes.foldl (fun m e => (writePas c.dies (pa + e.1) attr).foldl (fun m a => m.write a e.2) m) s.dram }

/-- A write-back parked on a fault, or behind one to its page (R179); with its core's replay queue full it stays as it is. -/
def State.parkBack (s : State) (b : WriteBack) (fault : Bool) : State :=
  match s.parkStore b.core b.tile.ctx b.va [] false (some b.wid) none fault with
  | some s => { s with wbacks := replaceBy (fun v => v.wid == b.wid) { b with parked := true } s.wbacks }
  | none => s

/-- An earlier write-back of the same tile that this one is not to pass: any but one it would queue behind (R184). -/
def State.backBehind (s : State) (b : WriteBack) : Bool :=
  (s.wbacks.takeWhile fun v => v.wid != b.wid).any fun v => v.tile == b.tile && !(v.parked && v.core == b.core)

/-- TILE_WRITEBACK_DONE (R184, R195): dirty bytes reach main memory, or park on a fault. -/
def execTileWritebackDone (wid : Nat) (s : State) : Host.Outcome State Fault Refusal :=
  match s.wbacks.find? fun b => b.wid == wid with
  | none => .next s
  | some b =>
    match s.ctx? b.tile.ctx with
    | none => .next s
    | some c =>
      if b.parked || s.backBehind b || !s.dieRuns b.tile.die then .next s
      else
        let s := s.ran (tileUnit b.tile.die) b.tile.ctx
        if s.pageBlocked b.core b.tile.ctx b.va then .next (s.parkBack b false)
        else match s.translate c b.va true false with
          | .ok pa attr =>
            .next ({ s with wbacks := s.wbacks.filter fun v => v.wid != wid }.writeMain c pa attr b.bytes)
          | .violation => .next (s.halt b.tile.die haltProtection (tileUnit b.tile.die) b.va)
          | .fault => .next (s.parkBack b true)

/-- A tile's dirty bytes written back and a hod's tile fetched, as an unmapping and a save ask (R196). -/
def State.cleanTile (s : State) (core : Nat) (e : TileRef × WTile) : State :=
  if e.2.st == .resident then s.writeBack e.1 core
  else if e.2.st == .absent && !e.2.hod.isEmpty && e.2.wanted.isNone then s.askFetch e.1 core
  else s

/-- UNMAP_COMPLETE (R196, R197): the closing window's tiles with hods are fetched, its dirty tiles written back, and when
nothing is left it is unmapped with its tiles. -/
def execUnmapComplete (die ctx win : Nat) (s : State) : Host.Outcome State Fault Refusal :=
  match s.window? die ctx win with
  | none => .next s
  | some w =>
    if !w.closing || !s.dieRuns die then .next s
    else
      let core := match s.groups.find? fun g => g.tmap == some ⟨die, ctx, win, 0⟩ with
        | some g => g.core
        | none => 160 * die
      let s := (w.tiles.map fun e => ((⟨die, ctx, win, e.1⟩ : TileRef), e.2)).foldl (fun s e => s.cleanTile core e) s
      match s.window? die ctx win with
      | some w => .next (if s.windowBusy w then s else s.dropWindow w)
      | none => .next s

/-- The engine that runs a card (R257, R311), by its kind. -/
def engineUnit (k : Card) : StopUnit :=
  if k.kind.toNat ≤ 0x05 then copyUnit k.core
  else if k.kind.toNat ≤ 0x09 then updateUnit k.core else collUnit (dieOf k.core)

/-- The unit that a parked access belongs to (R295): the engine of a job, or the die's tile and log controller. -/
def State.unitOf (s : State) (core : Nat) (cid : Option Nat) : StopUnit :=
  match cid.bind fun n => s.cards.find? fun k => k.cid == n with
  | none => tileUnit (dieOf core)
  | some k => engineUnit k

/-- A fetch replayed from its walk (R178): its page is translated again, and a fault waits again for service. -/
def State.replayFetch (s : State) (t : TileRef) : State :=
  let x := s.tile t
  match s.ctx? t.ctx with
  | none => s
  | some c =>
    let s := s.ran (tileUnit t.die) t.ctx
    let va := s.tileVa t
    match s.translate c va false false with
    | .ok pa attr => s.setTile t { x with pa := pa, attr := attr, fault := false }
    | .violation => s.halt t.die haltProtection (tileUnit t.die) va
    | .fault => (s.bufferFault x.core t.ctx va (.fetch t)).getD s

def State.setReplay (s : State) (r : Replay) : State :=
  { s with replay := replaceBy (fun q => q.pid == r.pid) r s.replay }

/-- FAULT_SERVICE (R178, R179): the system die writes entries of a page table and has the access replayed, or rejects it. -/
def execFaultService (fid : Nat) (accept : Bool) (ptes : List (Nat × DWord)) (s : State) :
    Host.Outcome State Fault Refusal :=
  let s' : State := { s with dram := ptes.foldl (fun m e => m.writeN e.1 8 e.2.toNat) s.dram }
  match s.faults.find? fun f => f.fid == fid with
  | some f =>
    let cid := match f.who with | .job n => some n | .fetch _ => none
    if !accept then .next (s.halt (dieOf f.core) haltProtection (s.unitOf f.core cid) f.va)
    else
      let s' : State := { s' with faults := s'.faults.filter fun g => g.fid != fid }
      .next (match f.who with
        | .fetch t => s'.replayFetch t
        | .job _ => s')
  | none =>
    match s.replay.find? fun r => r.pid == fid with
    | some r =>
      .next (if accept then s'.setReplay { r with fault := false }
        else s.halt (dieOf r.core) haltProtection (s.unitOf r.core r.cid) r.va)
    | none => .next s

/-- A parked store whose own translation faults, the first time or again after service, counted (R354). -/
def State.replayFault (s : State) (r : Replay) : State :=
  if r.fault then s
  else (s.setReplay { r with fault := true }).count r.core 0x0A r.ctx 1

/-- STORE_REPLAY (R179): the first parked store of its page is tried again. -/
def execStoreReplay (pid : Nat) (s : State) : Host.Outcome State Fault Refusal :=
  match s.replay.find? fun r => r.pid == pid with
  | none => .next s
  | some r =>
    let earlier := (s.replay.takeWhile fun q => q.pid != pid).any fun q =>
      q.core == r.core && q.ctx == r.ctx && s.samePage r.ctx q.va r.va
    match s.ctx? r.ctx with
    | none => .next s
    | some c =>
      if earlier || !s.dieRuns (dieOf r.core) then .next s
      else
        let s := s.ran (s.unitOf r.core r.cid) r.ctx
        match s.translate c r.va true r.copy with
        | .fault => .next (s.replayFault r)
        | .violation => .next (s.halt (dieOf r.core) haltProtection (s.unitOf r.core r.cid) r.va)
        | .ok pa attr =>
          let s' : State := { s with replay := s.replay.filter fun q => q.pid != pid }
          match r.wb with
          | none =>
            .next (s'.writeMain c pa attr ((List.range r.bytes.length).zip r.bytes))
          | some wid =>
            match s.wbacks.find? fun b => b.wid == wid with
            | some b =>
              .next ({ s' with wbacks := s'.wbacks.filter fun v => v.wid != wid }.writeMain c pa attr b.bytes)
            | none => .next s'

end Sys2Proof.Machine
end

