-- ==== Sys2Proof/Machine/Engines.lean ====
section
/-! DEFINITION. The copy and update engines (R257 to R276): posting cards, edges, running jobs, batches. -/

namespace Sys2Proof.Machine

open Sys2Proof

/-! Engine addresses and their checks (R259, R260) -/

/-- A .mem operand: a virtual address, a window address, or another pattern. -/
def memAddr (x : DWord) : Option EAddr :=
  if x.extractLsb' 52 12 = 0 then some ⟨.mem, x.toNat⟩
  else if x.extractLsb' 62 2 = 0b10#2 ∧ x.extractLsb' 32 30 = 0 then some ⟨.win, (x.extractLsb' 0 32).toNat⟩
  else none

def engAddr (spc : ESpace) (x : DWord) : Option EAddr :=
  match spc with
  | .sh => some ⟨.sh, (x.extractLsb' 0 32).toNat⟩
  | .sc => some ⟨.sc, (x.extractLsb' 0 32).toNat⟩
  | .mem => memAddr x

/-- The bytes of a range that lie in one window lie within its length, and it is mapped and open. -/
def State.openFrom (s : State) (die ctx a n : Nat) : Bool :=
  match s.window? die ctx (a / 2 ^ 26) with
  | some w => !w.closing && decide (a % 2 ^ 26 + n ≤ tileBytes * w.len)
  | none => false

/-- Every byte of a range of window addresses lies in a mapped, open window (R202), in as many windows as it meets. -/
def State.windowHolds (s : State) (die ctx a n : Nat) : Bool :=
  decide (a + n ≤ 2 ^ 32) &&
    (List.range (n / 2 ^ 26 + 2)).all fun i =>
      let lo := if i = 0 then a else (a / 2 ^ 26 + i) * 2 ^ 26
      let hi := min (a + n) ((a / 2 ^ 26 + i + 1) * 2 ^ 26)
      decide (hi ≤ lo) || s.openFrom die ctx lo (hi - lo)

/-- What is wrong with a range: its alignment, then its bounds, which an empty range cannot break. -/
def Cx.rangeFault (x : Cx) (a : EAddr) (n : Nat) : Option Nat :=
  if a.addr % 4 ≠ 0 ∨ n % 4 ≠ 0 then some 16
  else if n = 0 then none
  else match a.place with
    | .sh => if x.b.shmem < a.addr + n then some 17 else none
    | .sc => if x.c.scSize < a.addr + n then some 17 else none
    | .win => if x.s.windowHolds x.die x.b.ctx a.addr n then none else some 18
    | .mem => if 2 ^ 52 < a.addr + n then some 24 else none

/-- The first fault of some ranges: all that is wrong with one comes before what is wrong with the next. Log entry 88. -/
def Cx.rangesFault (x : Cx) (l : List (EAddr × Nat)) : Option Nat := l.findSome? fun r => x.rangeFault r.1 r.2

def regionOf (a : EAddr) (rd wr : Bool) (n : Nat) : Region := ⟨a.place, rd, wr, n, a.addr⟩

/-! Posting (R257, R260, R268, R273) -/

/-- A command that an instruction posts. -/
structure Command where
  kind  : BitVec 8
  regs  : List Region
  rflag : Bool := false
  wflag : Bool := false
  rcnt  : Bool := false
  wcnt  : Bool := false
  job   : Job
  deriving DecidableEq, Repr

/-- What one thread posts: a detail of ILLEGAL, nothing, or a command. -/
inductive Posting where
  | bad (detail : Nat)
  | nothing
  | card (c : Command)
  deriving DecidableEq, Repr

/-- The engine of a card among copy, update and collective, by its kind. -/
def engineOf (kind : BitVec 8) : Nat := if kind.toNat ≤ 0x05 then 0 else if kind.toNat ≤ 0x09 then 1 else 2
def engineRoom (e : Nat) : Nat := if e = 1 then 16 else 64

/-- The cards in the engine that serves a core. -/
def State.queued (s : State) (core e : Nat) : Nat :=
  (s.cards.filter fun k => engineOf k.kind == e &&
    (if e = 0 then k.core == core else if e = 1 then clusterOf k.core == clusterOf core else dieOf k.core == dieOf core)).length

/-- Two regions overlap (R269); .sh ones by block, which stands on one core. -/
def regionsMeet (bid : Nat) (r : Region) (bid' : Nat) (r' : Region) : Bool :=
  r.place == r'.place && (r.place != .sh || bid == bid') && rangesMeet r.base r.len r'.base r'.len

/-- An edge from i to j (R269). -/
def edge (i j : Card) : Bool :=
  i.ctx == j.ctx && dieOf i.core == dieOf j.core &&
    ((i.regs.any fun r => j.regs.any fun r' =>
        regionsMeet i.bid r j.bid r' && ((r.wr && (r'.rd || r'.wr)) || (r.rd && r'.wr))) ||
      (i.wflag && (j.rflag || j.wflag)) || (i.rflag && j.wflag) || (i.wcnt && (j.rcnt || j.wcnt)) || (i.rcnt && j.wcnt))

/-- A card accepted earlier holds this one back. -/
def State.edged (s : State) (k : Card) : Bool := (s.cards.takeWhile fun i => i.cid != k.cid).any fun i => edge i k

/-- A card placed: accepted after all cards before it. -/
def State.place (s : State) (x : Cx) (c : Command) : State :=
  let (cid, s) := s.fresh
  let k : Card :=
    { cid := cid, gid := x.g.gid, num := x.g.num, ctx := x.b.ctx, bid := x.b.bid, name := s.blockName x.b.bid, core := x.g.core,
      slot := x.g.slot, kind := c.kind, serial := 0, regs := c.regs, rflag := c.rflag, wflag := c.wflag, rcnt := c.rcnt,
      wcnt := c.wcnt, job := c.job, run := none }
  { s with cards := s.cards ++ [k] }

/-- A posting instruction is a release for its own jobs (R273). -/
def Cx.postReady (x : Cx) : Bool := x.s.groupSettled x.g.gid && x.s.replayEmpty x.g.core && x.s.atDie x.g.gid

/-- A posting instruction from what each thread posts: all checks, then the release and the room, then the cards. -/
def Cx.post (x : Cx) (one : Nat → Posting) : Fate :=
  let all := x.each.map fun t => (t, one t)
  match x.firstFault (all.filterMap fun e => match e.2 with | .bad d => some (e.1, trapIllegal, d) | _ => none) with
  | some r => r
  | none =>
    let cmds := all.filterMap fun e => match e.2 with | .card c => some c | _ => none
    let room := cmds.all fun c => decide (x.s.queued x.g.core (engineOf c.kind) + cmds.length ≤ engineRoom (engineOf c.kind))
    if !x.postReady || !room then .hold else .done (cmds.foldl (fun s c => s.place x c) x.s) none false

/-! Copy commands (R261, R262) -/

/-- The two engine addresses of a command, when both patterns are legal. -/
def Cx.engPair (x : Cx) (m : EngMod) (t : Nat) : Option (EAddr × EAddr) :=
  match engAddr m.dsp (x.getA t), engAddr m.ssp (x.getB t) with
  | some d, some s => some (d, s)
  | _, _ => none

def copyOne (m : EngMod) (x : Cx) (t : Nat) : Posting :=
  match x.engPair m t with
  | none => .bad 24
  | some (dst, src) =>
    let n := codeOf (x.getC t)
    match x.rangesFault [(dst, n), (src, n)] with
    | some d => .bad d
    | none =>
      if n = 0 then .nothing
      else .card { kind := 0x01, regs := [regionOf src true false n, regionOf dst false true n], job := .copy dst src n }

def execCopy (w : W) (m : EngMod) : State → Host.Outcome State Fault Refusal :=
  issue (w.fields 0xE0 m.bits) noPre fun x => x.post (copyOne m x)

def cfillOne (m : EngMod) (x : Cx) (t : Nat) : Posting :=
  match engAddr m.dsp (x.getA t) with
  | none => .bad 24
  | some dst =>
    let n := codeOf (x.getC t)
    match x.rangeFault dst n with
    | some d => .bad d
    | none =>
      if n = 0 then .nothing
      else .card { kind := 0x05, regs := [regionOf dst false true n], job := .fill dst ((x.getB t).extractLsb' 0 32) n }

def execCfill (w : W) (m : EngMod) : State → Host.Outcome State Fault Refusal :=
  issue (w.fields 0xE8 m.bits) noPre fun x => x.post (cfillOne m x)

/-- A run of s registers read at issue, as numbers. -/
def Cx.runNat (x : Cx) (bits : BitVec 9) (n : Nat) : List Nat := (x.run bits n 0).map fun w => w.toNat

def copy2dOne (m : EngMod) (x : Cx) (t : Nat) : Posting :=
  let r := x.runNat x.f.c 4
  let rows := r.getD 0 0
  let rowb := r.getD 1 0
  let dstr := r.getD 2 0
  let sstr := r.getD 3 0
  match x.engPair m t with
  | none => .bad 24
  | some (dst, src) =>
    if rows < 1 ∨ 65536 < rows ∨ rowb < 4 ∨ 1048576 < rowb then .bad 24
    else if rowb % 4 ≠ 0 ∨ dstr % 4 ≠ 0 ∨ sstr % 4 ≠ 0 then .bad 16
    else
      let nd := (rows - 1) * dstr + rowb
      let ns := (rows - 1) * sstr + rowb
      match x.rangesFault [(dst, nd), (src, ns)] with
      | some d => .bad d
      | none =>
        .card { kind := 0x04, regs := [regionOf src true false ns, regionOf dst false true nd],
                job := .copy2d dst src rows rowb dstr sstr }

def execCopy2d (w : W) (m : EngMod) : State → Host.Outcome State Fault Refusal :=
  issue (w.fields 0xE7 m.bits) noPre fun x => x.post (copy2dOne m x)

/-- GATHER and SCATTER: the command block of R262. With no index there is no card, but every address is checked. -/
def rowsOne (scatter : Bool) (m : EngMod) (x : Cx) (t : Nat) : Posting :=
  let r := x.runNat x.f.c 8
  let w (i : Nat) : Nat := r.getD i 0
  let rowb := w 3 % 2 ^ 13
  let bit (i : Nat) : Bool := (w 3).testBit i
  match x.engPair m t with
  | none => .bad 24
  | some (dst, src) =>
    if w 3 / 2 ^ 19 ≠ 0 ∨ w 3 / 2 ^ 13 % 8 ≠ 0 ∨ w 5 ≠ 0 ∨ w 6 ≠ 0 ∨ w 7 ≠ 0 ∨ 65536 < w 1 ∨ w 2 < 1 ∨ rowb < 4 ∨
        4096 < rowb ∨ (!bit 17 ∧ w 4 ≠ 0) ∨ 2 ^ 40 ≤ w 2 * rowb then .bad 24
    else if rowb % 4 ≠ 0 ∨ (bit 17 ∧ w 4 % 8 ≠ 0) then .bad 16
    else
      let ix : EAddr := ⟨if bit 16 then .sc else .sh, w 0⟩
      let bar : Option EAddr := if bit 17 then some ⟨if bit 18 then .sc else .sh, w 4⟩ else none
      let nd := (if scatter then w 2 else w 1) * rowb
      let ns := (if scatter then w 1 else w 2) * rowb
      match x.rangesFault ([(ix, 4 * w 1), (dst, nd), (src, ns)] ++ (bar.toList.map fun b => (b, 8))) with
      | some d => .bad d
      | none =>
        if w 1 = 0 then .nothing
        else
          .card { kind := if scatter then 0x03 else 0x02,
                  regs := [regionOf ix true false (4 * w 1), regionOf src true false ns, regionOf dst false true nd],
                  job := .rows scatter dst src ix (w 1) (w 2) rowb bar }

def execGather (w : W) (m : EngMod) : State → Host.Outcome State Fault Refusal :=
  issue (w.fields 0xE1 m.bits) noPre fun x => x.post (rowsOne false m x)
def execScatter (w : W) (m : EngMod) : State → Host.Outcome State Fault Refusal :=
  issue (w.fields 0xE2 m.bits) noPre fun x => x.post (rowsOne true m x)

/-! Batches (R271, R272): serial numbers count a group's BCLOSEs; a batch's number is its serial brought into 1 to 2^32 − 1. -/

def batchMod : Nat := 2 ^ 32 - 1
def batchNumber (serial : Nat) : Nat := if serial = 0 then 0 else (serial - 1) % batchMod + 1

/-- BCLOSE (R271). -/
def bcloseBody (x : Cx) : Fate :=
  let n := x.g.batch + 1
  let s : State := { x.s with cards := x.s.cards.map fun k => if k.gid = x.g.gid ∧ k.serial = 0 then { k with serial := n } else k }
  .done (s.modGroup x.g.gid fun g => { g with batch := n }.writeDst x.f.dst 0 [BitVec.ofNat 32 (batchNumber n)]) none false

def execBclose (w : W) : State → Host.Outcome State Fault Refusal := issue (w.fields 0xE3 0) noPre bcloseBody

/-- The serial of the latest batch a group has closed with a number. -/
def latestBatch (closed n : Nat) : Option Nat :=
  if n = 0 ∨ closed < n then none else some (closed - (closed - n) % batchMod)

/-- WAITB (R107, R272). -/
def waitbBody (x : Cx) : Fate :=
  let n := codeOf (x.getA 0)
  if n = 0 then .done x.s none false
  else match latestBatch x.g.batch n with
    | none => .trap trapIllegal 25 x.g.amask
    | some m =>
      if x.s.cards.any fun k => k.gid = x.g.gid && decide (0 < k.serial ∧ k.serial ≤ m) then .hold else .done x.s none false

def execWaitb (w : W) : State → Host.Outcome State Fault Refusal := issue (w.fields 0x10 0) noPre waitbBody

/-! The update engine's commands (R274, R275) -/

/-- A posting of one thread made by a uniform instruction. -/
def execSkpset (w : W) : State → Host.Outcome State Fault Refusal :=
  issue (w.fields 0xE6 0) noPre fun x =>
    x.post fun t => .card { kind := 0x09, regs := [], wflag := true, job := .skpset (codeOf (x.getA t) != 0) }

def execUpdstep (w : W) : State → Host.Outcome State Fault Refusal :=
  issue (w.fields 0xE5 0) noPre fun x =>
    x.post fun _ => .card { kind := 0x08, regs := [], rflag := true, rcnt := true, wcnt := true, job := .updstep }

/-- The addresses of an UPD's arrays: PARAM, GRAD, MOM, and for .adamw SECM. -/
def updArrays (adamw : Bool) (ws : List Nat) : List Nat :=
  (List.range (if adamw then 4 else 3)).map fun k => ws.getD (2 * k) 0 + 2 ^ 32 * ws.getD (2 * k + 1) 0

def arrayFault (n a : Nat) : Option Nat :=
  if 2 ^ 52 ≤ a then some 24 else if a % 4 ≠ 0 then some 16 else if 2 ^ 52 < a + 4 * n then some 24 else none

/-- Two of some arrays of n bytes meet. -/
def arraysMeet (n : Nat) : List Nat → Bool
  | [] => false
  | a :: rest => (rest.any fun b => rangesMeet a n b n) || arraysMeet n rest

def updOne (adamw : Bool) (x : Cx) : Posting :=
  let ws := x.runNat x.f.a 16
  let w (i : Nat) : Nat := ws.getD i 0
  let n := w 8
  if n < 1 ∨ 16777216 < n ∨ w 14 ≠ 0 ∨ w 15 ≠ 0 ∨ (!adamw ∧ (w 6 ≠ 0 ∨ w 7 ≠ 0 ∨ w 11 ≠ 0 ∨ w 12 ≠ 0)) then .bad 24
  else
    let arrays := updArrays adamw ws
    match arrays.findSome? (arrayFault n) with
    | some d => .bad d
    | none =>
      if arraysMeet (4 * n) arrays then .bad 24
      else
        .card { kind := if adamw then 0x07 else 0x06,
                regs := (List.range arrays.length).map fun k => ⟨.mem, true, k != 1, 4 * n, arrays.getD k 0⟩,
                rflag := true, rcnt := adamw, job := .upd adamw (x.run x.f.a 16 0) }

def execUpdSgdm (w : W) : State → Host.Outcome State Fault Refusal :=
  issue (w.fields 0xE4 (varBits 0)) noPre fun x => x.post fun _ => updOne false x
def execUpdAdamw (w : W) : State → Host.Outcome State Fault Refusal :=
  issue (w.fields 0xE4 (varBits 1)) noPre fun x => x.post fun _ => updOne true x

/-! The accesses of a job (R264, R265) -/

/-- A range cut where its next access begins: at tiles of a window, at the smallest pages of main memory. -/
def cutFrom (p : Place) (size : Nat) : Nat → Nat → Nat → List (EAddr × Nat)
  | 0, _, _ => []
  | fuel + 1, a, n =>
    if n = 0 then []
    else let k := min n (size - a % size); (⟨p, a⟩, k) :: cutFrom p size fuel (a + k) (n - k)

def cutRange (a : EAddr) (n : Nat) : List (EAddr × Nat) :=
  match a.place with
  | .win => cutFrom .win tileBytes (n / tileBytes + 2) a.addr n
  | .mem => cutFrom .mem (2 ^ 16) (n / 2 ^ 16 + 2) a.addr n
  | _ => [(a, n)]

/-- What an access comes to: made, with the bytes read, or waiting. -/
inductive Access where
  | ok (s : State) (bytes : List Byte)
  | wait (s : State)
  deriving DecidableEq, Repr

/-- An engine waits for a tile, which is held for its job or drain; a fetch of an absent one starts (R264, R254). -/
def State.awaitTile (s : State) (holder core : Nat) (t : TileRef) : State :=
  (if (s.tile t).st == .absent then s.askFetch t core else s).holdFor holder [t]

/-- The tile of a window address of an engine; a closing window still serves what was posted before. -/
def State.engineTile (s : State) (die ctx a : Nat) : Option TileRef :=
  (s.window? die ctx (a / 2 ^ 26)).map fun _ => ⟨die, ctx, a / 2 ^ 26, a % 2 ^ 26 / tileBytes⟩

/-- A job parks on a fault of a read (R178); with the buffer full it waits. Log entry 77: that holds the job alone, its engine's
other cards go on. -/
def State.parkJob (s : State) (k : Card) (va : Nat) : State := (s.bufferFault k.core k.ctx va (.job k.cid)).getD s

/-- An engine that writes as the copy engine does, under R180. -/
def Card.copies (k : Card) : Bool := engineOf k.kind == 0

/-- The bytes of one read of a job. -/
def State.readPiece (s : State) (c : Ctx) (k : Card) (a : EAddr) (n : Nat) : Access :=
  match a.place with
  | .sh => .ok s (((s.block? k.bid).map fun b => b.sh.readList a.addr n).getD [])
  | .sc =>
    let key := scratchKey c (dieOf k.core) a.addr
    let s := s.flushOps k.core key n
    .ok s ((s.coreScratch k.core).readList key n)
  | .mem =>
    match s.translate c a.addr false false with
    | .ok pa attr => .ok s ((List.range n).map fun i => s.dram.read (readPa (dieOf k.core) (pa + i) attr))
    | .fault => .wait (s.parkJob k a.addr)
    | .violation => .wait (s.halt (dieOf k.core) haltProtection (engineUnit k) a.addr)
  | .win =>
    match s.engineTile (dieOf k.core) k.ctx a.addr with
    | none => .wait s
    | some t =>
      let off := a.addr % tileBytes
      let served := (s.tile t).st == .resident || ((s.tile t).st == .absent &&
        (List.range n).all fun i => (hodByte (s.coreHod k.core t) (off + i)).isSome)
      if served then
        let s := if (s.tile t).st == .resident then (s.flushTile k.core t).touch t else s
        .ok (s.unhold k.cid) ((List.range n).map fun i => s.tileByte k.core t (off + i))
      else .wait (s.awaitTile k.cid k.core t)

/-- Nothing of a job is parked or on its way. -/
def State.jobSettled (s : State) (cid : Nat) : Bool :=
  !(s.replay.any fun r => r.cid == some cid) && !(s.appends.any fun a => a.cid == some cid)

/-- One write of a job. With its core's replay queue full its engine makes no further store (R179). -/
def State.writePiece (s : State) (c : Ctx) (k : Card) (a : EAddr) (bytes : List Byte) : Access :=
  if s.replayFull k.core then .wait s
  else match a.place with
  | .sh => .ok (s.modBlock k.bid fun b => { b with sh := b.sh.writeList a.addr bytes }) []
  | .sc =>
    let key := scratchKey c (dieOf k.core) a.addr
    let s := s.flushSc k.core key bytes.length
    .ok { s with scratch := s.scratch.writeList key bytes } []
  | .mem =>
    let park (fault : Bool) : Access :=
      match s.parkStore k.core k.ctx a.addr bytes k.copies none (some k.cid) fault with
      | some s => .ok s []
      | none => .wait s
    if s.pageBlocked k.core k.ctx a.addr then park false
    else match s.translate c a.addr true k.copies with
      | .ok pa attr => .ok (s.writeMain c pa attr ((List.range bytes.length).zip bytes)) []
      | .fault => park true
      | .violation => .wait (s.halt (dieOf k.core) haltProtection (engineUnit k) a.addr)
  | .win =>
    match s.engineTile (dieOf k.core) k.ctx a.addr with
    | none => .wait s
    | some t =>
      let e : HodEntry := ⟨a.addr % tileBytes, bytes.length, true, .st, .n32, bytes⟩
      if (s.tile t).st == .resident then .ok (((s.flushTile k.core t).applyTile t [e]).unhold k.cid) []
      else if !(s.tile t).held.contains k.cid && s.appendFits t [e] then
        .ok (s.postAppend k.gid k.bid k.core t [e] (some k.cid) none false 0) []
      else .wait (s.awaitTile k.cid k.core t)

/-- One item of a job. An arrival follows every byte of its row, and is a release at .die (R263): it waits for its core's replay
queue (R179). -/
def State.jobItem (s : State) (c : Ctx) (k : Card) : JobItem → Access
  | .write a bytes => s.writePiece c k a bytes
  | .idxr p => .ok (s.log k.ctx 0x03 0 0 0 k.name k.num p) []
  | .arrive a =>
    if !s.jobSettled k.cid || !s.replayEmpty k.core then .wait s
    else match a.place with
      | .sh => .ok (s.modBlock k.bid fun b => { b with sh := b.sh.writeN a.addr 8 (barArrive 1 (b.sh.readN a.addr 8)) }) []
      | _ =>
        let key := scratchKey c (dieOf k.core) a.addr
        let s := s.flushSc k.core key 8
        .ok { s with scratch := s.scratch.writeN key 8 (barArrive 1 (s.scratch.readN key 8)) } []

/-- Reads in order until one waits: what is left, and the bytes read. -/
def State.readAll (c : Ctx) (k : Card) : List (EAddr × Nat) → State → State × List (EAddr × Nat) × List Byte
  | [], s => (s, [], [])
  | (a, n) :: rest, s =>
    match s.readPiece c k a n with
    | .ok s bytes =>
      let (s, left, more) := State.readAll c k rest s
      (s, left, bytes ++ more)
    | .wait s => (s, (a, n) :: rest, [])

/-- Items in order until one waits: what is left. -/
def State.doAll (c : Ctx) (k : Card) : List JobItem → State → State × List JobItem
  | [], s => (s, [])
  | it :: rest, s =>
    match s.jobItem c k it with
    | .ok s _ => State.doAll c k rest s
    | .wait s => (s, it :: rest)

/-! The arithmetic of UPD (R276) -/

/-- The quotient rounded, with R54 for NaNs. -/
def divF32 (a b : Nat) : Nat :=
  match fmtF32.nanOf [a, b] with
  | some r => r.1
  | none =>
    match fmtF32.val false a, fmtF32.val false b with
    | .inf n, .fin n' _ _ => fmtF32.signed (n != n') fmtF32.inf
    | .fin n _ _, .inf n' => fmtF32.signed (n != n') 0
    | .fin n m e, .fin n' m' e' =>
      if m' = 0 then (if m = 0 then fmtF32.nan else fmtF32.signed (n != n') fmtF32.inf)
      else
        let q := (m <<< 64) / m'
        (fmtF32.round .rne false false (n != n') q (e - e' - 64) (decide ((m <<< 64) % m' ≠ 0))).1
    | _, _ => fmtF32.nan

/-- round(1 − b^t), the power exact. -/
def onePow (b t : Nat) : Nat :=
  match fmtF32.nanOf [b] with
  | some r => r.1
  | none =>
    match fmtF32.val false b with
    | .fin n m e => (fmtF32.roundExact .rne false false false (Exact.add (1, 0) (exactOf (!(n && t % 2 == 1)) (m ^ t) (e * t)))).1
    | .inf n => fmtF32.signed (!(n && t % 2 == 1)) fmtF32.inf
    | .nan _ => fmtF32.nan

def oneF32 : Nat := 0x3F800000
def negF32 (a : Nat) : Nat := (a + 2 ^ 31) % 2 ^ 32

/-- The hyperparameters of an UPD. -/
structure Hyper where
  lr  : Nat
  b1  : Nat
  b2  : Nat
  eps : Nat
  wd  : Nat
  deriving DecidableEq, Repr

def hyperOf (ws : List Word) : Hyper :=
  let w (i : Nat) : Nat := (ws.getD i 0).toNat
  ⟨w 9, w 10, w 11, w 12, w 13⟩

/-- One element of .sgdm: the new moment and parameter. -/
def sgdmElem (h : Hyper) (p g m : Nat) : Nat × Nat :=
  let m := fmaF32 h.b1 m g
  let s := addF32 m (mulF32 h.wd p)
  (m, fmaF32 (negF32 h.lr) s p)

/-- One element of .adamw at step t: the new first and second moments and parameter. -/
def adamwElem (h : Hyper) (t p g m v : Nat) : Nat × Nat × Nat :=
  let m := fmaF32 (subF32 oneF32 h.b1) g (mulF32 h.b1 m)
  let v := fmaF32 (mulF32 (subF32 oneF32 h.b2) g) g (mulF32 h.b2 v)
  let d := addF32 (sfuSqrt false (divF32 v (onePow h.b2 t))).1 h.eps
  let s := addF32 (divF32 (divF32 m (onePow h.b1 t)) d) (mulF32 h.wd p)
  (m, v, fmaF32 (negF32 h.lr) s p)

/-! Running a job -/

/-- The 32-bit words of bytes, and back. -/
def wordList : List Byte → List Nat
  | a :: b :: c :: d :: rest => numOf [a, b, c, d] :: wordList rest
  | _ => []

def byteList (ws : List Nat) : List Byte := ws.flatMap (bytesOf 4)

def EAddr.plus (a : EAddr) (n : Nat) : EAddr := { a with addr := a.addr + n }

/-- Writes of bytes from an address, cut as accesses are. -/
def writesFrom (a : EAddr) (bytes : List Byte) : List JobItem :=
  ((cutRange a bytes.length).foldl (fun (acc : List JobItem × List Byte) r =>
    (acc.1 ++ [.write r.1 (acc.2.take r.2)], acc.2.drop r.2)) ([], bytes)).1

/-- The index vector of a GATHER or SCATTER, each index one access. -/
def State.jobIndex (s : State) (c : Ctx) (k : Card) (ix : EAddr) (n : Nat) : List Nat :=
  match s.readPiece c k ix (4 * n) with
  | .ok _ bytes => wordList bytes
  | .wait _ => []

/-- Element i of an update's array: 0 PARAM, 1 GRAD, 2 MOM, 3 SECM. -/
def updAt (adamw : Bool) (ws : List Word) (array i : Nat) : EAddr :=
  ⟨.mem, (updArrays adamw (ws.map fun w => w.toNat)).getD array 0 + 4 * i⟩

/-- An update at one of its elements: what it reads for it, in the order of R276: GRAD, PARAM, MOM, SECM. -/
def updElem (adamw : Bool) (ws : List Word) (i : Nat) : JobRun :=
  ⟨i, [], (if adamw then [1, 0, 2, 3] else [1, 0, 2]).map fun j => (updAt adamw ws j i, 4), [], none⟩

/-- The elements of an update. -/
def updCount (ws : List Word) : Nat := (ws.getD 8 0).toNat

/-- What a job reads, with its index vector (R261, R262); an update reads an element at a time (R276). -/
def State.jobStart (s : State) (c : Ctx) (k : Card) : JobRun :=
  match k.job with
  | .copy _ src n => ⟨0, [], cutRange src n, [], none⟩
  | .copy2d _ src rows rowb _ sstr =>
    ⟨0, [], (List.range rows).flatMap fun r => cutRange (src.plus (r * sstr)) rowb, [], none⟩
  | .rows scatter _ src ix nidx nrows rowb _ =>
    let idx := s.jobIndex c k ix nidx
    let ps := (List.range nidx).filter fun p => decide (idx.getD p 0 < nrows)
    ⟨0, idx, ps.flatMap fun p => cutRange (src.plus ((if scatter then p else idx.getD p 0) * rowb)) rowb, [], none⟩
  | .upd adamw ws => if Sparse.get false c.skip (dieOf k.core) then ⟨0, [], [], [], some []⟩ else updElem adamw ws 0
  | _ => ⟨0, [], [], [], none⟩

/-- Rows in ascending position: each written, or recorded, and its arrival. -/
def rowItems (dst : EAddr) (scatter : Bool) (idx : List Nat) (nrows rowb : Nat) (bar : Option EAddr) :
    List Nat → List Byte → List JobItem
  | [], _ => []
  | p :: ps, bytes =>
    let x := idx.getD p 0
    let arr := (bar.map fun b => [JobItem.arrive b]).getD []
    if x < nrows then
      writesFrom (dst.plus ((if scatter then x else p) * rowb)) (bytes.take rowb) ++ arr ++
        rowItems dst scatter idx nrows rowb bar ps (bytes.drop rowb)
    else .idxr p :: arr ++ rowItems dst scatter idx nrows rowb bar ps bytes

/-- What an update writes for the element it is at, in the order of R276: SECM, MOM, PARAM. -/
def updItems (adamw : Bool) (ws : List Word) (steps : Word) (run : JobRun) : List JobItem :=
  let h := hyperOf ws
  let x (j : Nat) : Nat := (wordList run.got).getD j 0
  let put (j v : Nat) : JobItem := .write (updAt adamw ws j run.elem) (bytesOf 4 v)
  if adamw then
    let r := adamwElem h (steps.toNat + 1) (x 1) (x 0) (x 2) (x 3)
    [put 3 r.2.1, put 2 r.1, put 0 r.2.2]
  else
    let r := sgdmElem h (x 1) (x 0) (x 2)
    [put 2 r.1, put 0 r.2]

/-- What a job does once it has read. -/
def jobItems (c : Ctx) (k : Card) (run : JobRun) : List JobItem :=
  match k.job with
  | .copy dst _ _ => writesFrom dst run.got
  | .fill dst pat n => writesFrom dst ((List.replicate (n / 4) pat.toNat).flatMap (bytesOf 4))
  | .copy2d dst _ rows rowb dstr _ =>
    (List.range rows).flatMap fun r => writesFrom (dst.plus (r * dstr)) ((run.got.drop (r * rowb)).take rowb)
  | .rows scatter dst _ _ nidx nrows rowb bar => rowItems dst scatter run.idx nrows rowb bar (List.range nidx) run.got
  | .upd adamw ws => updItems adamw ws (Sparse.get 0 c.steps (dieOf k.core)) run
  | _ => []

/-- One part of a job goes as far as it can: its reads, then what it does. -/
def State.partOn (s : State) (c : Ctx) (k : Card) (run : JobRun) : State × JobRun :=
  match run.out with
  | some items =>
    let (s, left) := State.doAll c k items s
    (s, { run with out := some left })
  | none =>
    let (s, left, bytes) := State.readAll c k run.reads s
    let run := { run with reads := left, got := run.got ++ bytes }
    if left.isEmpty then
      let (s, rest) := State.doAll c k (jobItems c k run) s
      (s, { run with out := some rest })
    else (s, run)

/-- The parts that a job has after the one it is at: an update has one for each of its elements, in ascending order (R276), any
other a single one. One that found the skip flag set has written nothing and has none. -/
def partsAfter (c : Ctx) (k : Card) (run : JobRun) : Nat :=
  match k.job with
  | .upd _ ws => if Sparse.get false c.skip (dieOf k.core) && run.got.isEmpty then 0 else updCount ws - 1 - run.elem
  | _ => 0

def nextPart (k : Card) (run : JobRun) : JobRun :=
  match k.job with
  | .upd adamw ws => updElem adamw ws (run.elem + 1)
  | _ => run

/-- A job goes through its parts until one waits. -/
def State.partsOn (c : Ctx) (k : Card) : Nat → State → JobRun → State × JobRun
  | 0, s, run => s.partOn c k run
  | n + 1, s, run =>
    let (s, run) := s.partOn c k run
    if run.out == some [] then State.partsOn c k n s (nextPart k run) else (s, run)

/-- A job that is under way goes as far as it can. -/
def State.goOn (s : State) (c : Ctx) (k : Card) (run : JobRun) : State :=
  let (s, run) := State.partsOn c k (partsAfter c k run) s run
  s.setCard { k with run := some run }

/-- The engine of a card runs: a collective engine with its die, another with its core's cluster (R353). -/
def State.engineRuns (s : State) (k : Card) : Bool :=
  if 9 < k.kind.toNat then s.dieRuns (dieOf k.core) else s.coreRuns k.core

/-- A read of a job is parked on a fault (R178). -/
def State.jobParked (s : State) (cid : Nat) : Bool := s.faults.any fun f => f.who == .job cid

/-- A card's job may act: its engine runs, no edge holds it, and it is not parked on a fault. -/
def State.jobReady (s : State) (k : Card) : Bool := s.engineRuns k && !s.edged k && !s.jobParked k.cid

/-! The job card (R266) -/

/-- A job has made every access, and none is parked or on its way. -/
def State.jobDone (s : State) (k : Card) : Bool := s.jobSettled k.cid && (k.run.bind (·.out)) == some []

/-- The STATE field of a card. Log entry 78: a job whose write stands in the replay queue is parked on a fault, and one that has
only to leave its engine is complete. -/
def State.cardState (s : State) (k : Card) : Nat :=
  if s.edged k then 0
  else if s.jobParked k.cid || s.replay.any fun r => r.cid == some k.cid then 3
  else if k.run.isNone then 1
  else if s.jobDone k then 4 else 2

def placeCode : Place → Nat
  | .sh => 0
  | .sc => 1
  | .mem => 2
  | .win => 3

/-- The BASE of a region: in the core's shared memory, in the die scratchpad, or the address itself. -/
def State.regionBase (s : State) (k : Card) (r : Region) : Nat :=
  match r.place with
  | .sh => Config.shBase k.bid + r.base
  | .sc => ((s.ctx? k.ctx).map (·.scBase)).getD 0 + r.base
  | _ => r.base

/-- A footprint region of a card as its 96 bits. LEN has 40 of them: of a footprint of 2^40 bytes or more, which COPY2D can have, the
low ones. Log entry 89. -/
def State.regionCode (s : State) (k : Card) (r : Region) : Nat :=
  s.regionBase k r % 2 ^ 52 + 2 ^ 52 * (r.len % 2 ^ 40) + 2 ^ 92 * (if r.wr then 1 else 0) + 2 ^ 93 * (if r.rd then 1 else 0) +
    2 ^ 94 * placeCode r.place

/-- A job card as its 64 bytes. -/
def State.cardCode (s : State) (k : Card) : BitVec 512 :=
  let bit (v : Bool) : Nat := if v then 1 else 0
  let head := (record [(8, 1), (8, 0), (8, k.kind.toNat), (4, s.cardState k), (4, k.regs.length), (10, k.core), (6, k.slot),
    (32, k.ctx), (32, batchNumber k.serial), (1, bit k.rflag), (1, bit k.wflag), (1, bit k.rcnt), (1, bit k.wcnt), (12, 0),
    (384, 0)]).toNat
  BitVec.ofNat 512 (head + (k.regs.map (s.regionCode k)).foldr (fun r n => r + 2 ^ 96 * n) 0)

/-- A job of some kinds begins or goes on. -/
def State.runJob (s : State) (cid : Nat) (kinds : List (BitVec 8)) : State :=
  match s.cards.find? fun k => k.cid == cid && kinds.contains k.kind with
  | none => s
  | some k =>
    match s.ctx? k.ctx with
    | none => s
    | some c => if s.jobReady k then (s.ran (engineUnit k) k.ctx).goOn c k (k.run.getD (s.jobStart c k)) else s

/-- COPY_JOB (R261): COPY, COPY2D and CFILL. -/
def execCopyJob (cid : Nat) (s : State) : Host.Outcome State Fault Refusal := .next (s.runJob cid [0x01, 0x04, 0x05])
/-- GATHER_SCATTER_JOB (R262, R263). -/
def execGatherScatterJob (cid : Nat) (s : State) : Host.Outcome State Fault Refusal := .next (s.runJob cid [0x02, 0x03])
/-- UPD_JOB (R276). -/
def execUpdJob (cid : Nat) (s : State) : Host.Outcome State Fault Refusal := .next (s.runJob cid [0x06, 0x07])

/-- A job that only writes the flag or the counter (R270, R274), once. -/
def State.runFlag (s : State) (cid : Nat) (kind : BitVec 8) (effect : Job → Nat → Ctx → Ctx) : State :=
  match s.cards.find? fun k => k.cid == cid && k.kind == kind && k.run.isNone with
  | none => s
  | some k =>
    match s.ctx? k.ctx with
    | none => s
    | some c =>
      if s.jobReady k then
        ((s.ran (engineUnit k) k.ctx).setCtx (effect k.job (dieOf k.core) c)).setCard { k with run := some ⟨0, [], [], [], some []⟩ }
      else s

def skipEffect (j : Job) (die : Nat) (c : Ctx) : Ctx :=
  match j with
  | .skpset v => { c with skip := Sparse.put false c.skip die v }
  | _ => c

/-- The counter saturates (R274). -/
def stepEffect (_ : Job) (die : Nat) (c : Ctx) : Ctx :=
  if Sparse.get false c.skip die then c
  else { c with steps := Sparse.put 0 c.steps die (BitVec.ofNat 32 (min allOnes32 ((Sparse.get 0 c.steps die).toNat + 1))) }

def execSkpsetJob (cid : Nat) (s : State) : Host.Outcome State Fault Refusal := .next (s.runFlag cid 0x09 skipEffect)
def execUpdstepJob (cid : Nat) (s : State) : Host.Outcome State Fault Refusal := .next (s.runFlag cid 0x08 stepEffect)

/-- A complete card leaves its engine and the scheduler, and with it its edges (R257, R270). -/
def State.completeCard (s : State) (k : Card) : State :=
  let s : State := { s with cards := s.cards.filter fun i => i.cid != k.cid }
  let s := s.unhold k.cid
  let s := if engineOf k.kind = 0 then s.count k.core 0x0D k.ctx 1 else s
  let coreField := if engineOf k.kind = 1 then 0x3FF else k.core
  s.traceEvent k.ctx 6 k.core (k.slot % 16) coreField k.name k.num 0
    (k.kind.toNat * 2 ^ 32 + batchNumber k.serial)

/-- JOB_COMPLETE (R270): every access made, nothing parked or on its way. -/
def execJobComplete (cid : Nat) (s : State) : Host.Outcome State Fault Refusal :=
  match s.cards.find? fun k => k.cid == cid with
  | none => .next s
  | some k =>
    .next (if s.engineRuns k && s.jobDone k then s.completeCard k else s)

end Sys2Proof.Machine
end

