-- ==== Sys2Proof/Machine/Collectives.lean ====
section
/-! DEFINITION. Collective instructions and operations (R310 to R320). -/

namespace Sys2Proof.Machine

open Sys2Proof

/-- The rank of a communicator that a die of a module is. -/
def rankOf (cm : Comm) (module : Word) (die : Nat) : Option Nat :=
  cm.ranks.findIdx? fun r => r.1 == module && r.2.toNat == die

def Ctx.comm? (c : Ctx) (n : Nat) : Option Comm := c.comms.find? fun m => m.no.toNat == n && m.valid

/-- The communicator an instruction names and the issuing die's rank; none for detail 28 (R312, R313). -/
def Cx.commOf (x : Cx) : Option (Nat × Comm × Nat) :=
  let n := codeOf (x.getB 0)
  if 255 < n then none
  else match x.c.comm? n with
    | some cm => (rankOf cm x.s.dev x.die).map fun r => (n, cm, r)
    | none => none

/-- A die's next sequence number on a communicator, taken (R315). -/
def State.takeSeq (s : State) (ctx die comm : Nat) : Nat × State :=
  match s.ctx? ctx with
  | some c =>
    let key := 256 * die + comm
    let n := Sparse.get 0 c.collSeq key
    (n, s.setCtx { c with collSeq := Sparse.put 0 c.collSeq key (n + 1) })
  | none => (0, s)

/-- A COLL is a release at .sys (R320). -/
def Cx.collReady (x : Cx) : Bool := x.s.releaseReady x.g .sys

/-- COLL.ar in register form (R313, R318): its destination empty until every rank has issued. -/
def collRegBody (var : Nat) (x : Cx) : Fate :=
  match x.commOf with
  | none => .trap trapIllegal 28 x.g.amask
  | some (n, _, rank) =>
    if !x.collReady then .hold
    else
      let (seq, s) := x.s.takeSeq x.b.ctx x.die n
      let rid := s.nextId
      let s := s.putResult x .coll (regWrites x.f.dst 0 [0]) [] 0 [] [] false
      let data : RankData := ⟨rank, 0xF8, var, 1, 0, [(x.getA 0).extractLsb' 0 32]⟩
      let e : Contrib := ⟨x.b.ctx, x.die, n, seq, data, x.g.num, s.blockName x.b.bid, rid⟩
      .done ({ s with contribs := s.contribs ++ [e] }.ran (collUnit x.die) x.b.ctx) none false

def execCollArReg (w : W) (var : Fin 16) : State → Host.Outcome State Fault Refusal :=
  issue (w.fields 0xF8 (varBits var.val)) noPre (collRegBody var.val)

/-- An address of a command block (R314): a fault's detail, or the address. -/
def blockAddr (spc lo hi : Nat) : Nat ⊕ EAddr :=
  if spc = 1 then (if hi = 0 then .inr ⟨.sc, lo⟩ else .inl 29)
  else match memAddr (BitVec.ofNat 64 (lo + 2 ^ 32 * hi)) with
    | some a => .inr a
    | none => .inl 24

/-- A command block whose fields break R314; `src` tells whether this rank reads a source. -/
def badBlock (opc : Nat) (w : Nat → Nat) (ranks : Nat) (src : Bool) : Bool :=
  let dsp := w 6 / 4 % 4
  let ssp := w 6 % 4
  let root := w 5 % 2 ^ 12
  decide (w 5 / 2 ^ 12 ≠ 0 ∨ w 6 / 16 ≠ 0 ∨ w 7 ≠ 0 ∨ w 4 < 1 ∨ 16777216 < w 4) ||
    (dsp != 1 && dsp != 2) || (if opc = 0xFA then decide (ranks ≤ root) else root != 0) ||
    (if src then ssp != 1 && ssp != 2 else ssp != 0 || w 0 != 0 || w 1 != 0)

/-- The command of a buffer form, with sequence number `seq`. -/
def collOne (opc : Nat) (kind : BitVec 8) (var seq : Nat) (x : Cx) : Posting :=
  match x.commOf with
  | none => .bad 28
  | some (n, cm, rank) =>
    let r := x.runNat x.f.a 8
    let w (i : Nat) : Nat := r.getD i 0
    let root := w 5 % 2 ^ 12
    let src := opc != 0xFA || rank == root
    if badBlock opc w cm.ranks.length src then .bad 29
    else
      match (if src then blockAddr (w 6 % 4) (w 0) (w 1) else .inr ⟨.sc, 0⟩), blockAddr (w 6 / 4 % 4) (w 2) (w 3) with
      | .inl d, _ => .bad d
      | .inr _, .inl d => .bad d
      | .inr sa, .inr da =>
        let ns := 4 * w 4
        let nd := if opc = 0xF9 then 4 * w 4 * cm.ranks.length else 4 * w 4
        let srcs := if src then [(sa, ns)] else []
        match x.rangesFault (srcs ++ [(da, nd)]) with
        | some d => .bad d
        | none =>
          .card { kind := kind, regs := (srcs.map fun e => regionOf e.1 true false e.2) ++ [regionOf da false true nd],
                  job := .coll (BitVec.ofNat 8 opc) var n seq da (if src then some sa else none) (w 4)
                    (if opc = 0xFA then root else 0) }

/-- A buffer form (R313): posts a card with the die's next sequence number on its communicator. -/
def collBufBody (opc : Nat) (kind : BitVec 8) (var : Nat) (x : Cx) : Fate :=
  let (seq, s) := x.s.takeSeq x.b.ctx x.die (codeOf (x.getB 0))
  { x with s := s }.post fun _ => collOne opc kind var seq x

def execCollArBuf (w : W) (var : Fin 16) : State → Host.Outcome State Fault Refusal :=
  issue (w.fields 0xF8 (varBits var.val)) noPre (collBufBody 0xF8 0x0A var.val)
def execCollAg (w : W) : State → Host.Outcome State Fault Refusal :=
  issue (w.fields 0xF9 0) noPre (collBufBody 0xF9 0x0B 0)
def execCollBc (w : W) : State → Host.Outcome State Fault Refusal :=
  issue (w.fields 0xFA 0) noPre (collBufBody 0xFA 0x0C 0)

/-! Operations (R315 to R318) -/

/-- A card of an operation. -/
def Card.ofOp (k : Card) (ctx comm seq : Nat) : Bool :=
  k.ctx == ctx && match k.job with
    | .coll _ _ m q _ _ _ _ => m == comm && q == seq
    | _ => false

/-- The source of a card read as far as it can be; `run` is some run with nothing left to read once it is taken. -/
def State.collRead (s : State) (c : Ctx) (k : Card) : State :=
  match k.job with
  | .coll _ _ _ _ _ src count _ =>
    let run := k.run.getD ⟨0, [], (src.map fun a => cutRange a (4 * count)).getD [], [], none⟩
    if !s.jobReady k || run.out.isSome then s
    else
      let (s, left, bytes) := State.readAll c k run.reads (s.ran (engineUnit k) k.ctx)
      s.setCard { k with run := some { run with reads := left, got := run.got ++ bytes } }
  | _ => s

/-- The sources of an operation's cards read as far as they can be. -/
def State.collReads (s : State) (c : Ctx) (comm seq : Nat) : State :=
  (s.cards.filter fun k => k.ofOp c.no comm seq).foldl (fun s k => s.collRead c k) s

/-- What a card contributes (R315); none while its source is not read. -/
def Card.contribution (k : Card) (rank : Nat) : Option RankData :=
  match k.job, k.run with
  | .coll opc var _ _ _ _ count root, some run =>
    if run.reads.isEmpty && run.out.isNone then
      some ⟨rank, opc.toNat, var, count, root, (wordList run.got).map fun w => BitVec.ofNat 32 w⟩
    else none
  | _, _ => none

/-- The contribution of a rank on this module. -/
def State.localRank (s : State) (ctx comm seq die rank : Nat) : Option RankData :=
  match s.contribs.find? fun e => e.ctx == ctx && e.comm == comm && e.seq == seq && e.die == die with
  | some e => if s.dieRuns die then some { e.rank with rank := rank } else none
  | none =>
    (s.cards.find? fun k => k.ofOp ctx comm seq && dieOf k.core == die && s.dieRuns die).bind fun k => k.contribution rank

/-- The contributions of every rank in rank order, those of other modules from outside; none while one is missing. -/
def State.allRanks (s : State) (ctx comm seq : Nat) (cm : Comm) (remote : List RankData) : Option (List RankData) :=
  ((List.range cm.ranks.length).zip cm.ranks).mapM fun e =>
    if e.2.1 = s.dev then s.localRank ctx comm seq e.2.2.toNat e.1 else remote.find? fun r => r.rank == e.1

def rankSignature (r : RankData) : Nat × Nat × Nat × Nat := (r.opc, r.var, r.count, r.root)

def sameSignatures (l : List RankData) : Bool :=
  match l with
  | [] => true
  | r :: rest => rest.all fun q => rankSignature q == rankSignature r

/-- One element of COLL.ar (R316). -/
def collCombine (var : Nat) (r x : Word) : Word :=
  match var with
  | 0 => BitVec.ofNat 32 (addF32 r.toNat x.toNat)
  | 1 => BitVec.ofNat 32 (fpMinMax fmtF32 true false r.toNat x.toNat).1
  | 2 => BitVec.ofNat 32 (fpMinMax fmtF32 false false r.toNat x.toNat).1
  | _ => r ||| x

/-- The destination elements of an operation (R316, R317). -/
def collResult (l : List RankData) : List Word :=
  match l with
  | [] => []
  | r :: rest =>
    if r.opc = 0xF8 then rest.foldl (fun acc q => List.zipWith (collCombine r.var) acc q.data) r.data
    else if r.opc = 0xF9 then l.flatMap (·.data)
    else (l.getD r.root r).data

/-- A register form's result comes: to its group, or, while that is saved, held for its restoring (R319). -/
def State.fillColl (s : State) (e : Contrib) (x : Word) : State :=
  let s : State := { s with
    contribs := s.contribs.filter fun f => f.rid != e.rid
    results := s.results.map fun r => if r.rid = e.rid then { r with writes := r.writes.map fun w => { w with val := x } } else r }
  let s := s.ran (collUnit e.die) e.ctx
  match s.results.find? fun r => r.rid == e.rid with
  | some r => if (s.group? r.gid).isSome then s.landResult r else s
  | none => s

/-! The links of an operation (R307, R308, R315). The spec gives no route over them: log entry 79. -/

/-- The dies of this module among a communicator's ranks. -/
def State.ownDies (s : State) (cm : Comm) : List Nat := (cm.ranks.filter fun r => r.1 == s.dev).map fun r => r.2.toNat

def State.otherModules (s : State) (cm : Comm) : Bool := cm.ranks.any fun r => r.1 != s.dev

def State.dieLinked (s : State) (a b : Nat) : Bool := s.links.any fun l => l.link == .die (min a b) (max a b) && l.up

/-- The dies of a list that die links between them, in so many rounds, reach from some of them. -/
def State.reach (s : State) (dies : List Nat) : Nat → List Nat → List Nat
  | 0, l => l
  | n + 1, l => s.reach dies n (dies.filter fun d => l.contains d || l.any fun e => s.dieLinked d e)

/-- Links over which an operation can run are up: from each die of this module to each other, and a port to other modules. -/
def State.connected (s : State) (cm : Comm) : Bool :=
  let own := s.ownDies cm
  (own.all fun d => (s.reach own 3 (own.take 1)).contains d) &&
    (!s.otherModules cm || s.links.any fun l => l.up && match l.link with | .port _ => true | _ => false)

/-- An operation may use a link. -/
def State.mayUse (s : State) (cm : Comm) (l : Link) : Bool :=
  match l with
  | .die a b => (s.ownDies cm).contains a && (s.ownDies cm).contains b
  | .port _ => s.otherModules cm
  | .sd _ => false

/-- The operations in flight: those some rank of this module has issued. -/
def State.inFlight (s : State) : List (Nat × Nat × Nat) :=
  (s.contribs.map fun e => (e.ctx, e.comm, e.seq)) ++ s.cards.filterMap fun k =>
    match k.job, k.run.bind (·.out) with
    | .coll _ _ comm seq _ _ _ _, none => some (k.ctx, comm, seq)
    | _, _ => none

/-- What a link that goes down has cut: an operation that may use it may fail, and it must where it can run no more. -/
def State.cut (s : State) (l : Link) (op : Nat × Nat × Nat) : Option Broken :=
  match (s.ctx? op.1).bind fun c => c.comm? op.2.1 with
  | some cm => if s.mayUse cm l then some ⟨op.1, op.2.1, op.2.2, !s.connected cm⟩ else none
  | none => none

def Broken.is (b : Broken) (ctx comm seq : Nat) : Bool := b.ctx == ctx && b.comm == comm && b.seq == seq

/-- An operation is over: no link concerns it further. -/
def State.opOver (s : State) (ctx comm seq : Nat) : State :=
  { s with broken := s.broken.filter fun b => !b.is ctx comm seq }

/-- An operation can complete: it can run now, and no link has gone down that it needed. -/
def State.canComplete (s : State) (ctx comm seq : Nat) (cm : Comm) : Bool :=
  s.connected cm && !(s.broken.any fun b => b.is ctx comm seq && b.must)

/-- A link that an operation uses has gone down: one of this module, or one that other modules tell of. -/
def State.linkLost (s : State) (ctx comm seq : Nat) (cm : Comm) : Bool :=
  (s.broken.any fun b => b.is ctx comm seq) || !s.connected cm || s.otherModules cm

def wordsBytes (l : List Word) : List Byte := byteList (l.map fun w => w.toNat)

/-- The items of a card's job for the operation's result. -/
def Card.deliver (k : Card) (items : List Word) : Card :=
  match k.job, k.run with
  | .coll _ _ _ _ dst _ _ _, some run => { k with run := some { run with out := some (writesFrom dst (wordsBytes items)) } }
  | _, _ => k

/-- The contributions and cards of an operation on this module given its result. -/
def State.collDeliver (s : State) (ctx comm seq : Nat) (value : Contrib → Word) (items : List Word) : State :=
  let mine := s.contribs.filter fun e => e.ctx == ctx && e.comm == comm && e.seq == seq
  let s := mine.foldl (fun s e => s.fillColl e (value e)) s
  { s with cards := s.cards.map fun k => if k.ofOp ctx comm seq then k.deliver items else k }

/-- A delivered card's writes go as far as they can. -/
def State.collWrite (s : State) (c : Ctx) (k : Card) : State :=
  match k.run with
  | some run =>
    match run.out with
    | some items =>
      if !s.dieRuns (dieOf k.core) || items.isEmpty then s
      else
        let (s, left) := State.doAll c k items (s.ran (engineUnit k) k.ctx)
        s.setCard { k with run := some { run with out := some left } }
    | none => s
  | none => s

/-- COLL_OPERATION (R315 to R318): the cards of an operation take their contributions; once every rank has issued, the
signatures agree and links carry it, every rank gets the result. -/
def execCollOperation (ctx comm seq : Nat) (remote : List RankData) (s : State) : Host.Outcome State Fault Refusal :=
  match s.ctx? ctx with
  | none => .next s
  | some c =>
    match c.comm? comm with
    | none => .next s
    | some cm =>
      let s := s.collReads c comm seq
      let s := match s.allRanks ctx comm seq cm remote with
        | some l =>
          if sameSignatures l && s.canComplete ctx comm seq cm then
            (s.collDeliver ctx comm seq (fun _ => (collResult l).headD 0) (collResult l)).opOver ctx comm seq
          else s
        | none => s
      .next ((s.cards.filter fun k => k.ofOp ctx comm seq).foldl (fun s k => s.collWrite c k) s)

/-- The value of a failed register form (R315). -/
def failValue (var : Nat) : Word := if var ≤ 2 then 0x7FC00000 else 0xFFFFFFFF

/-- A COLLF record (R312), with its poster's name (R350). -/
def State.logCollf (s : State) (ctx comm seq code : Nat) (name : Name) (num : Nat) : State :=
  s.log ctx 0x06 0 0 0 name num (code + 256 * comm + 2 ^ 32 * (seq % 2 ^ 32))

/-- Every rank of this module has issued an operation that has not completed. -/
def State.localIssued (s : State) (ctx comm seq : Nat) (cm : Comm) : Bool :=
  (s.ownDies cm).all fun d =>
    (s.contribs.any fun e => e.ctx == ctx && e.comm == comm && e.seq == seq && e.die == d && s.dieRuns d) ||
    s.cards.any fun k => k.ofOp ctx comm seq && dieOf k.core == d && s.jobReady k && ((k.run.bind (·.out)).isNone)

/-- Every rank on another module has issued an operation: the outside supplies what each of them contributes (R315). -/
def State.remoteIssued (s : State) (cm : Comm) (remote : List RankData) : Bool :=
  ((List.range cm.ranks.length).zip cm.ranks).all fun e => e.2.1 == s.dev || remote.any fun r => r.rank == e.1

/-- A rank of this module has issued an operation, whether or not its die's engine can act on it yet. -/
def State.rankIssued (s : State) (ctx comm seq die : Nat) : Bool :=
  (s.contribs.any fun e => e.ctx == ctx && e.comm == comm && e.seq == seq && e.die == die) ||
    s.cards.any fun k => k.ofOp ctx comm seq && dieOf k.core == die

/-- Every rank of a card's operation is known to have issued it: its result has come, or no other module takes part and
each die of this one has (R319). -/
def State.everyRank (s : State) (k : Card) : Bool :=
  match k.job with
  | .coll _ _ comm seq _ _ _ _ =>
    (k.run.bind (·.out)).isSome ||
      match (s.ctx? k.ctx).bind fun c => c.comm? comm with
      | some cm => !s.otherModules cm && (s.ownDies cm).all (s.rankIssued k.ctx comm seq)
      | none => false
  | _ => true

/-- COLLF (R315, R318): an operation that every rank has issued fails, their signatures differing, or a link it uses having gone
down. -/
def execCollf (ctx comm seq : Nat) (linkDown : Bool) (remote : List RankData) (s : State) :
    Host.Outcome State Fault Refusal :=
  match s.ctx? ctx with
  | none => .next s
  | some c =>
    match c.comm? comm with
    | none => .next s
    | some cm =>
      let s' := s.collReads c comm seq
      let fails :=
        if linkDown then
          decide (1 < cm.ranks.length) && s'.localIssued ctx comm seq cm && s'.remoteIssued cm remote &&
            s'.linkLost ctx comm seq cm
        else match s'.allRanks ctx comm seq cm remote with
          | some l => !sameSignatures l
          | none => false
      if !fails then .next s'
      else
        let code := if linkDown then 2 else 1
        let mine := s'.contribs.filter fun e => e.ctx == ctx && e.comm == comm && e.seq == seq
        let cards := s'.cards.filter fun k => k.ofOp ctx comm seq
        let s' := mine.foldl (fun s e => s.logCollf ctx comm seq code e.name e.num) s'
        let s' := cards.foldl (fun s k => s.logCollf ctx comm seq code k.name k.num) s'
        let s' : State := mine.foldl (fun s e => s.fillColl e (failValue e.rank.var)) s'
        let ended (k : Card) : Card := if k.ofOp ctx comm seq then { k with run := some ⟨0, [], [], [], some []⟩ } else k
        .next ({ s' with cards := s'.cards.map ended }.opOver ctx comm seq)

end Sys2Proof.Machine
end

