-- ==== Sys2Proof/Machine/BlockFormat.lean ====
section
/-! DEFINITION. Block scales and quantisation (R61 to R65, R95, R96). -/

namespace Sys2Proof.Machine

/-- emax of R63 in element units. -/
def blockMax (ty : Ty) : Nat :=
  match ty with
  | .e4m3 => 448 | .e5m2 => 57344 | .e2m1 => 6 | .q4x => 7 | _ => 127

def blockNibbles (ty : Ty) : Bool := ty == .e2m1 || ty == .q4x

/-- A magnitude as an exact value; zero for what is not finite. -/
def magOf : Val → Nat × Int
  | .fin _ m e => (m, e)
  | _ => (0, 0)

/-- a × 2^p ≤ b, for magnitudes. -/
def magLe (a b : Nat × Int) : Bool :=
  let e := min a.2 b.2
  decide (a.1 <<< (a.2 - e).toNat ≤ b.1 <<< (b.2 - e).toNat)

def magMax (a b : Nat × Int) : Nat × Int := if magLe a b then b else a
def magShift (a : Nat × Int) (p : Int) : Nat × Int := (a.1, a.2 + p)

/-- The index of the largest magnitude not in a list, ties to the smaller index. -/
def largestBut (xs : List (Nat × Int)) (skip : List Nat) : Nat :=
  (List.range xs.length).foldl (fun best i =>
    if skip.contains i then best
    else if skip.contains best || !magLe (xs.getD i (0, 0)) (xs.getD best (0, 0)) then i else best) 0

/-- The outliers of a Q4X block (R63). -/
def outliersOf (xs : List (Nat × Int)) : List Nat :=
  let i1 := largestBut xs []
  let i2 := largestBut xs [i1]
  let i3 := largestBut xs [i1, i2]
  let third := xs.getD i3 (0, 0)
  let far (i : Nat) : Bool := !magLe (xs.getD i (0, 0)) (magShift third 3)
  if third.1 ≠ 0 && far i1 then
    if far i2 && i2 / 2 != i1 / 2 then [i1, i2] else [i1]
  else []

/-- The least scale code that holds a magnitude (R63): counted up from c. -/
def scaleFrom (emax : Nat) (big : Nat × Int) : Nat → Nat → Nat
  | 0, _ => 254
  | n + 1, c => if magLe big (emax, (c : Int) - 127) then c else scaleFrom emax big n (c + 1)

/-- An element rounded into its format, saturating, a zero result +0 (R63): its code and exceptions (R55). The word is drawn
under .sr. -/
def encodeElement (ty : Ty) (neg : Bool) (m : Nat) (e : Int) (word : Option Nat) : Nat × Causes :=
  let float (f : Fmt) : Nat × Causes :=
    let (mag, inexact) : Nat × Bool :=
      match word with
      | some w => if m = 0 then (0, false) else f.roundSr m e w
      | none => if m = 0 then (0, false) else
          let q := f.place m e
          let (n, ix) := roundAt .rne neg m e q false
          ((q - f.last).toNat * 2 ^ f.p + n, ix)
    if f.top < mag then (f.signed neg f.top, causeOVF ||| causeINX)
    else (if mag = 0 then 0 else f.signed neg mag,
      if inexact then causeINX ||| (if mag < 2 ^ f.p then causeUNF else 0) else 0)
  let int (max : Nat) : Nat × Bool × Causes :=
    let (n, ix) : Nat × Bool :=
      match word with
      | some w =>
        let base := min e (-32)
        let x := m <<< (e - base).toNat + w <<< (-32 - base).toNat
        let n := x >>> (-base).toNat
        (n, decide (n <<< (-base).toNat ≠ m <<< (e - base).toNat))
      | none => if 0 ≤ e then (m <<< e.toNat, false) else roundAt .rne neg m e 0 false
    if max < n then (max, neg, causeOVF ||| causeINX) else (n, neg && n != 0, if ix then causeINX else 0)
  match ty with
  | .e4m3 => float fmtE4M3
  | .e5m2 => float fmtE5M2
  | .e2m1 => float fmtE2M1
  | .q4x => let (n, s, fl) := int 7; ((if s then 8 else 0) + n, fl)
  | _ => let (n, s, fl) := int 127; (if s then 256 - n else n, fl)

/-- The k in 0..7 that brings 2^(3+k) nearest to a magnitude, ties to the smaller k (R63). -/
def payloadOf (y : Nat × Int) : Nat :=
  let dist (k : Nat) : Nat × Int :=
    let d := Exact.add (y.1, y.2) (-(2 ^ (3 + k) : Nat), 0)
    (d.1.natAbs, d.2)
  (List.range 8).foldl (fun best k => if magLe (dist best) (dist k) then best else k) 0

/-- QNT of sixteen FP32 codes (R63, R64): element codes by index (nibbles or bytes), the scale record, the exceptions.
Words are those drawn under .sr, one for each element. -/
def encodeBlock (ty : Ty) (xs : List Nat) (words : Option (List Nat)) : List Nat × Nat × Causes :=
  let vals := xs.map (fmtF32.val false)
  let bad := vals.any fun v => match v with | .fin .. => false | _ => true
  let mags := vals.map magOf
  if bad then (List.replicate 16 0, 0x00FF, causeINV)
  else if mags.all fun m => m.1 == 0 then (List.replicate 16 0, 0, 0)
  else
    let out := if ty == .q4x then outliersOf mags else []
    let big := ((List.range 16).filter fun i => !out.contains i).foldl
      (fun b i => magMax b (mags.getD i (0, 0))) (0, 0)
    let emax := blockMax ty
    let e := scaleFrom emax big 255 0
    let micro (p : Nat) : Bool :=
      !(out.contains (2 * p) || out.contains (2 * p + 1)) &&
        magLe (magMax (mags.getD (2 * p) (0, 0)) (mags.getD (2 * p + 1) (0, 0))) (emax, (e : Int) - 128)
    let scaled (i : Nat) : Nat × Int :=
      magShift (mags.getD i (0, 0)) (127 - (e : Int) + (if micro (i / 2) then 1 else 0))
    let neg (i : Nat) : Bool := match vals.getD i (.inf false) with | .fin n _ _ => n | _ => false
    let partner (i : Nat) : Nat := if i % 2 = 0 then i + 1 else i - 1
    let elem (i : Nat) : Nat × Causes :=
      if out.contains i then
        let y := scaled i
        let k := payloadOf y
        -- with −2^3 in the odd slot both nibbles are 8, which R61 reads as an outlier in the even one
        let other := i % 2 = 1 ∧ neg i ∧ k = 0
        (8, if magLe y (2 ^ (3 + k), 0) && magLe (2 ^ (3 + k), 0) y && !other then 0 else causeINX)
      else if out.contains (partner i) then
        let j := partner i
        ((if neg j then 8 else 0) + payloadOf (scaled j), if (mags.getD i (0, 0)).1 = 0 then 0 else causeINX)
      else
        let y := scaled i
        encodeElement ty (neg i) y.1 y.2 (words.map fun ws => ws.getD i 0)
    let es := (List.range 16).map elem
    let m := (List.range 8).foldl (fun acc p => acc + (if micro p then 2 ^ p else 0)) 0
    (es.map (·.1), 256 * m + e, es.foldl (fun acc x => acc ||| x.2) 0)

/-- Element codes packed into registers, lowest first, the scale record last (R95). -/
def packBlock (ty : Ty) (codes : List Nat) (record : Nat) : List Nat :=
  let w := if blockNibbles ty then 4 else 8
  let n := codes.foldr (fun c acc => c + 2 ^ w * acc) 0
  (List.range (if blockNibbles ty then 2 else 4)).map (fun j => n / 2 ^ (32 * j) % 2 ^ 32) ++ [record]

/-- The value of element i of a block under its record (R62). -/
def blockValue (ty : Ty) (bits i record : Nat) : Val :=
  let e : Int := (record % 256 : Nat)
  let m : Int := if (record / 256).testBit (i % 16 / 2) then 1 else 0
  if record % 256 = 255 then .nan false
  else match elementOf ty bits i with
    | .fin n k x => .fin n k (x + e - 127 - m)
    | v => v

/-- DQNT of one value (R96); under SAT an infinite element becomes the largest finite value (R56). Log entry 96. -/
def decodeElement (ty : Ty) (sat : Bool) (bits i record : Nat) : Nat × Causes :=
  if record % 256 = 255 then (fmtF32.nan, 0)
  else match elementNan ty bits i, blockValue ty bits i record with
    | some c, _ => (c, 0)
    | none, .inf n => fmtF32.roundInf sat n
    | none, .fin n m e =>
      let (c, fl) := fmtF32.round .rne sat false n m e false
      (c, if fl &&& causeOVF = 0 then 0 else fl)
    | none, .nan _ => (fmtF32.nan, 0)

end Sys2Proof.Machine
end

