-- ==== Sys2Proof/Machine/Matrix.lean ====
section
/-! DEFINITION. The matrix engine (R66 to R68, R235 to R255): MMA.q and its coursing, tiles cleared, loaded, drained and
inspected. -/

namespace Sys2Proof.Machine

open Sys2Proof

/-! Format blocks (R240, R241) -/

def bitsOf (x lo n : Nat) : Nat := x / 2 ^ lo % 2 ^ n

/-- The element types of the format codes. -/
def mmaTy (code : Nat) : Option Ty :=
  match code with
  | 1 => some .e4m3 | 2 => some .e5m2 | 3 => some .e2m1 | 4 => some .q4x | 5 => some .i8 | 6 => some .bf16 | 7 => some .f16
  | _ => none

def mmaWidth (ty : Ty) : Nat :=
  match ty with
  | .e2m1 | .q4x => 4
  | .bf16 | .f16 => 16
  | _ => 8

/-- The elements a row of A holds. -/
def mmaK (ty : Ty) : Nat := 512 / mmaWidth ty
def mmaScaled (ty : Ty) : Bool := ty != .bf16 && ty != .f16 && ty != .i8

/-- A format block by its fields. -/
structure FmtBlock where
  ta : Ty
  tb : Ty
  bla : Nat
  blb : Nat
  rnd : Rnd
  strict : Bool
  sat : Bool
  tmax : Nat
  dropb : Bool
  loss : Nat
  sca : Nat
  scb : Nat
  deriving DecidableEq, Repr

/-- A format block read; none when it breaks R241. -/
def readFmt (w : List Nat) : Option FmtBlock :=
  let w0 := w.getD 0 0
  let w1 := w.getD 1 0
  let sca := w.getD 3 0
  let scb := w.getD 4 0
  let rnd := bitsOf w0 14 2
  let ba := bitsOf w0 8 2
  let bb := bitsOf w0 10 2
  let tmax := bitsOf w1 0 3
  match mmaTy (bitsOf w0 0 4), mmaTy (bitsOf w0 4 4) with
  | some ta, some tb =>
    let int := ta == .i8
    let operand (ty : Ty) (bl sc : Nat) : Bool :=
      bl == 3 || (!mmaScaled ty && (bl != 0 || sc != 0)) || sc % 16 != 0
    let bad := bitsOf w0 18 14 != 0 || bitsOf w1 6 26 != 0 || w1.testBit 3 || w.getD 5 0 != 0 || w.getD 6 0 != 0 ||
      w.getD 7 0 != 0 || mmaWidth ta != mmaWidth tb || int != (tb == .i8) || bitsOf w0 12 2 != (if int then 1 else 0) ||
      (if int then rnd != 0 else w0.testBit 17) || operand ta ba sca || operand tb bb scb || tmax == 0 || decide (4 < tmax) ||
      decide (2 ≤ bitsOf w1 4 2)
    if bad then none
    else some
      { ta := ta, tb := tb, bla := 16 * 2 ^ ba, blb := 16 * 2 ^ bb, rnd := Rnd.ofCode (BitVec.ofNat 2 rnd),
        strict := w0.testBit 16, sat := w0.testBit 17, tmax := tmax, dropb := bitsOf w1 4 2 == 1, loss := w.getD 2 0,
        sca := sca, scb := scb }
  | _, _ => none

/-- The scale records lie within shared memory. -/
def FmtBlock.recordsIn (f : FmtBlock) (shmem : Nat) : Bool :=
  (!mmaScaled f.ta || decide (f.sca + 4 * mmaK f.ta ≤ shmem)) && (!mmaScaled f.tb || decide (f.scb + 8 * mmaK f.tb ≤ shmem))

/-! Operands (R239) -/

def valZero : Val := .fin false 0 0

/-- The values of a row of A or a column of B: `n` is its number among the records at `sc` in shared memory. -/
def rowValues (ty : Ty) (bl sc n bits : Nat) (sh : Memory) : List Val :=
  let k := mmaK ty
  let rec_ (q : Nat) : Nat := sh.readN (sc + 2 * (n * (k / 16) + q)) 2
  (List.range k).map fun e =>
    if mmaScaled ty then
      blockValue ty bits e (rec_ (e / 16) / 256 * 256 + rec_ (e / bl * bl / 16) % 256)
    else elementOf ty bits e

def runBits (ws : List Word) : Nat := ws.foldr (fun w n => w.toNat + 2 ^ 32 * n) 0

/-- A vector run of a group's thread as a number; registers named by a field. -/
def Group.vRun (g : Group) (bits : BitVec 9) (ofs n t : Nat) : Nat :=
  match Src.of bits with
  | .v r => runBits ((List.range n).map fun i => g.vget (r.val + ofs + i) t)
  | _ => 0

/-- A member's A: row i of a thread that does not exist is +0. -/
def aRows (g : Group) (f : Fields) (fb : FmtBlock) (sh : Memory) : List (List Val) :=
  (List.range 32).map fun t =>
    if g.exist.getLsbD t then rowValues fb.ta fb.bla fb.sca t (g.vRun f.a 0 16 t) sh
    else List.replicate (mmaK fb.ta) valZero

/-- The columns of B assembled from the members' quarters. -/
def bCols (gang : List Group) (f : Fields) (fb : FmtBlock) (sh : Memory) : List (List Val) :=
  let quarter := mmaK fb.tb / 4
  (List.range 64).map fun j =>
    let parts := gang.map fun g => g.vRun f.b (4 * (j % 2)) 4 (j / 2)
    let bits := parts.foldr (fun p n => p + 2 ^ 128 * n) 0
    let vals := rowValues fb.tb fb.blb fb.scb j bits sh
    List.zipWith (fun k v =>
      match gang[k / quarter]? with
      | some g => if g.exist.getLsbD (j / 2) then v else valZero
      | none => v) (List.range (mmaK fb.tb)) vals

/-! Coursing (R244 to R247) -/

def Val.nonzero : Val → Bool
  | .fin _ m _ => m != 0
  | _ => true

def Val.isNan : Val → Bool | .nan _ => true | _ => false
def Val.isFin : Val → Bool | .fin .. => true | _ => false

/-- v ranks above w: NaN, then infinity, then the larger magnitude. -/
def outranks (v w : Val) : Bool :=
  match v, w with
  | .nan _, .nan _ => false
  | .nan _, _ => true
  | _, .nan _ => false
  | .inf _, .inf _ => false
  | .inf _, _ => true
  | _, .inf _ => false
  | .fin _ m e, .fin _ m' e' => !magLe (m, e) (m', e')

/-- The ranks from 0 of the nonzeros of a group of four, ties by position. -/
def groupRanks (g : List Val) : List (Option Nat) :=
  (List.range g.length).map fun p =>
    let v := g.getD p valZero
    if v.nonzero then
      some (((List.range g.length).filter fun q =>
        let w := g.getD q valZero
        w.nonzero && (outranks w v || (q < p && !outranks v w))).length)
    else none

def rowRanks : List Val → List (Option Nat)
  | a :: b :: c :: d :: rest => groupRanks [a, b, c, d] ++ rowRanks rest
  | rest => groupRanks rest

/-- A decomposition: the courses, the mortar in order, the effective Tmax. -/
structure Courses where
  crs    : Nat
  mortar : List (Nat × Nat)
  tmax   : Nat
  deriving DecidableEq, Repr

/-- Positions of a row that a test of their rank accepts. -/
def ranked (p : Nat → Bool) (row : List (Option Nat)) : List Nat :=
  (List.range row.length).filter fun k => match row.getD k none with | some r => p r | none => false

def decomposeFrom (ranks : List (List (Option Nat))) : Nat → Nat → Courses
  | 0, tmax => ⟨0, [], tmax⟩
  | fuel + 1, tmax =>
    let mortar := ((List.range ranks.length).zip ranks).flatMap fun e =>
      (ranked (fun r => decide (tmax ≤ r)) e.2).map fun k => (e.1, k)
    if mortar.length ≤ 128 then
      let crs := ranks.foldl (fun m row => row.foldl (fun m r => match r with
        | some r => max m (min (r + 1) tmax)
        | none => m) m) 0
      ⟨crs, mortar, tmax⟩
    else decomposeFrom ranks fuel (tmax + 1)

/-- fp32 of a magnitude (R245). -/
def absF32 : Val → Nat
  | .nan _ => fmtF32.nan
  | .inf _ => fmtF32.inf
  | .fin _ m e => (fmtF32.round .rne false false false m e false).1

/-- λ (R245). -/
def lambdaOf (a : List (List Val)) (mortar : List (Nat × Nat)) : Nat :=
  let sa := a.foldl (fun acc row => row.foldl (fun acc v => addF32 acc (absF32 v)) acc) 0
  let sm := mortar.foldl (fun acc p => addF32 acc (absF32 ((a.getD p.1 []).getD p.2 valZero))) 0
  divF32 sm sa

/-! One member's operation (R243) -/

/-- Products that write the canonical NaN: a NaN, 0 × ∞, or infinities of both signs. -/
def badSegment (ps : List (Val × Val)) : Bool :=
  let one (p : Val × Val) : Bool :=
    p.1.isNan || p.2.isNan || (!p.1.isFin && !p.2.nonzero) || (!p.2.isFin && !p.1.nonzero)
  let sign (v : Val) : Bool := match v with | .inf n => n | .fin n _ _ => n | .nan _ => false
  let infs := (ps.filter fun p => !p.1.isFin || !p.2.isFin).map fun p => sign p.1 != sign p.2
  ps.any one || (infs.contains true && infs.contains false)

/-- An accumulator element, whether a NaN was written to it, and whether it overflowed or saturated. -/
structure AccElem where
  code : Nat
  nan  : Bool
  ovf  : Bool
  deriving DecidableEq, Repr

/-- One segment's kept products added (R67). -/
def addSegment (rnd : Rnd) (acc : AccElem) (ps : List (Val × Val)) : AccElem :=
  if ps.isEmpty then acc
  else if badSegment ps then { acc with code := fmtF32.nan, nan := true }
  else
    let (c, fl) := sumSegment rnd acc.code ps
    ⟨c, acc.nan || (fmtF32.val false c).isNan, acc.ovf || fl &&& causeOVF != 0⟩

/-- A list cut into pieces of n. -/
def chunked {α : Type} (n : Nat) : Nat → List α → List (List α)
  | 0, _ => []
  | fuel + 1, l => if l.isEmpty then [] else l.take n :: chunked n fuel (l.drop n)

/-- The kept products of a row and a column, each position with its keeping. -/
def keptPairs (keep : List Bool) (a b : List Val) : List (Bool × Val × Val) := keep.zip (a.zip b)

def floatElem (rnd : Rnd) (g : Nat) (acc : Nat) (ps : List (Bool × Val × Val)) : AccElem :=
  (chunked g ps.length ps).foldl (fun e seg => addSegment rnd e ((seg.filter (·.1)).map (·.2))) ⟨acc, false, false⟩

def valInt : Val → Int
  | .fin n m _ => if n then -(m : Int) else m
  | _ => 0

/-- An INT32 element (R68). -/
def intElem (sat : Bool) (acc : Nat) (ps : List (Bool × Val × Val)) : AccElem :=
  let sum := ((ps.filter (·.1)).map fun p => valInt p.2.1 * valInt p.2.2).sum
  let x := IFmt.read .i32 acc + sum
  let y := if sat then clampInt (-(2 ^ 31)) (2 ^ 31 - 1) x else x
  ⟨(BitVec.ofInt 32 y).toNat, false, sat && y != x⟩

/-- What a member's operation comes to. -/
structure MmaResult where
  elems  : Sparse Word
  dur    : Nat
  status : Word
  mstat  : Word
  mloss  : Option Word
  deriving DecidableEq, Repr

def mmaMember (fb : FmtBlock) (a b : List (List Val)) (tile : Sparse Word) : MmaResult :=
  let ranks := a.map rowRanks
  let crs := decomposeFrom ranks 4 fb.tmax
  let crs : Courses := if fb.strict then ⟨0, [], 0⟩ else crs
  let lam := if fb.dropb && !crs.mortar.isEmpty then some (lambdaOf a crs.mortar) else none
  let drop := match lam with
    | some l => (fpCmp .le false l fb.loss).1
    | none => false
  let keep (row : List (Option Nat)) : List Bool := row.map fun r =>
    fb.strict || match r with
      | some r => !(drop && decide (crs.tmax ≤ r))
      | none => false
  let g := min fb.bla fb.blb
  let elem (i j : Nat) (row : List Val) (ks : List Bool) (col : List Val) : Nat × AccElem :=
    let acc := (Sparse.get 0 tile (64 * i + j)).toNat
    (64 * i + j, if fb.ta == .i8 then intElem fb.sat acc (keptPairs ks row col)
      else floatElem fb.rnd g acc (keptPairs ks row col))
  let cols := (List.range 64).zip b
  let out := ((List.range 32).zip (a.zip ranks)).flatMap fun r =>
    cols.map fun c => elem r.1 c.1 r.2.1 (keep r.2.2) c.2
  let nan := out.any fun e => e.2.nan
  let ovf := out.any fun e => e.2.ovf
  let wild := (List.range (mmaK fb.tb)).map fun k => b.any fun col => !(col.getD k valZero).isFin
  let znf := !fb.strict && a.any fun row => (row.zip wild).any fun p => !p.1.nonzero && p.2
  let zero := a.all fun row => row.all fun v => !v.nonzero
  let mort := crs.mortar.length
  let dur := if fb.strict then 8 else if zero then 1 else 2 * crs.crs + (if drop then 0 else (mort + 7) / 8)
  let bit (c : Bool) (n : Nat) : Nat := if c then 2 ^ n else 0
  { elems := (out.filter fun e => e.2.code != 0).map fun e => (e.1, BitVec.ofNat 32 e.2.code)
    dur := dur
    status := BitVec.ofNat 32 (mort * 2 ^ 24 + dur * 2 ^ 19 + crs.crs * 2 ^ 16 + crs.tmax * 2 ^ 13 + bit drop 12 +
      bit znf 11 + bit nan 10 + bit ovf 9 + bit fb.strict 8 + 0x30)
    mstat := BitVec.ofNat 32 (bit ovf 4 + bit nan 3 + bit (decide (fb.tmax < crs.tmax)) 2 + bit znf 1 + bit drop 0)
    mloss := if drop then lam.map (BitVec.ofNat 32) else none }

/-! MMA.q at issue (R235, R242) -/

/-- A tile operand beyond the block's tiles. -/
def Cx.badTile (x : Cx) (bits : BitVec 9) : Bool :=
  match tileNo x.g bits with
  | some n => decide (x.b.ntile ≤ n)
  | none => true

/-- The checks a member makes by itself: 21, 22, 12, 13, in its acting threads, and the rendezvous (R235). Log entry 100. -/
def mmaPre (x : Cx) : Option Fate :=
  if x.f.gidx ≠ 0 then some (.trap trapIllegal 21 x.act)
  else if x.badTile x.f.dst then some (.trap trapIllegal 22 x.act)
  else rendezvousPre x

/-- The words of a member's format block; none when its image lies outside shared memory. -/
def Cx.fmtWords (x : Cx) : Option (List Nat) :=
  if x.f.len = .w64 then some (x.runNat x.f.c 8)
  else
    let off := x.exa.toNat
    if x.b.shmem < off + 32 then none else some ((List.range 8).map fun i => x.b.sh.readN (off + 4 * i) 4)

/-- The stages of R242 a member can trap at: its own checks, EMPTY, the image, the format block, the records. -/
def Cx.mmaTrap (x : Cx) (stage : Nat) : Option Fate :=
  match stage with
  | 0 => match mmaPre x with
    | some (.trap c d l) => some (.trap c d l)
    | _ => none
  | 1 => if x.emptyTrap.1 ≠ 0 then some (.trap trapEmpty x.emptyTrap.1 x.emptyTrap.2) else none
  | 2 => if x.fmtWords.isNone then some (.trap trapIllegal 17 x.act) else none
  | 3 => if (x.fmtWords.bind readFmt).isNone then some (.trap trapIllegal 23 x.act) else none
  | _ =>
    match x.fmtWords.bind readFmt with
    | some fb => if fb.recordsIn x.b.shmem then none else some (.trap trapIllegal 17 x.act)
    | none => none

/-- The traps of the first of some stages at which a member traps, by member: those that would trap at a later one stay (R242). Log entry
103. -/
def mmaTraps (xs : List Cx) : List Nat → List (Nat × Fate)
  | [] => []
  | st :: rest =>
    let hits := xs.filterMap fun x => (x.mmaTrap st).map fun r => (x.g.gid, r)
    if hits.isEmpty then mmaTraps xs rest else hits

/-- A member's format-block image, a .sh load of its own, waits for a drain of its group (R228, R240, R255). -/
def Cx.imageWaits (x : Cx) : Bool := x.f.len != .w64 && x.fmtWords.isSome && x.drained .sh x.exa.toNat 32

/-- A member's scale records wait so (R228, R242). -/
def Cx.recordsWait (x : Cx) : Bool :=
  match x.fmtWords.bind readFmt with
  | some fb => (mmaScaled fb.ta && x.drained .sh fb.sca (4 * mmaK fb.ta)) || (mmaScaled fb.tb && x.drained .sh fb.scb (8 * mmaK fb.tb))
  | none => false

/-- What the whole gang's attempt comes to: traps, a hold, or issue. -/
inductive GangFate where
  | traps (l : List (Nat × Fate))
  | hold
  | go
  deriving DecidableEq, Repr

def churnCap : Nat := 16

/-- A member's own checks come before the rendezvous, all others with the gang's issue after it (R138, R242). A member whose drain
has still to write its format image is waited for before the traps that an image brings, one whose drain has still to write its
scale records after them. Log entry 90. -/
def State.mmaGang (s : State) (xs : List Cx) (core : Nat) : GangFate :=
  let own := mmaTraps xs [0]
  let empty := mmaTraps xs [1]
  let late := mmaTraps xs [2, 3, 4]
  if !own.isEmpty then .traps own
  else if xs.any fun x => (mmaPre x).isSome then .hold
  else if !empty.isEmpty then .traps empty
  else if xs.any fun x => x.heldBack || x.imageWaits then .hold
  else if !late.isEmpty then .traps late
  else if xs.any Cx.recordsWait || churnCap < (s.churn.filter fun o => o.core == core).length + 4 then .hold
  else .go

/-- A member's operation accepted by the churn, its tile marked empty (R237, R242). The operands are read from the state
at issue, s0. -/
def State.acceptMma (s : State) (x : Cx) (gang : List Group) : State :=
  match x.fmtWords.bind readFmt, tileNo x.g x.f.dst with
  | some fb, some n =>
    let old := ((x.b.tiles[n]?).map (·.elems)).getD []
    let r := mmaMember fb (aRows x.g x.f fb x.b.sh) (bCols gang x.f fb x.b.sh) old
    let op : ChurnOp := ⟨x.g.gid, x.b.bid, x.g.core, n, s.cycle + 8, r.dur, r.elems, r.status, r.mstat, r.mloss, false⟩
    ({ s with churn := s.churn ++ [op] }.ran (churnUnit x.g.core) x.b.ctx).modBlock x.b.bid fun b =>
      { b with tiles := b.tiles.modify n fun t => { t with empty := true } }
  | _, _ => s

/-- MMA.q (R242): one attempt for the gang. A trap of any member leaves the others where they stand. -/
def mmaFate (f : Fields) (s0 : State) (s : State) (gid : Nat) : Fate :=
  match s0.cx? gid f with
  | none => .hold
  | some x =>
    let gang := (s0.gangOf x.g).filterMap s0.group?
    let xs := gang.filterMap fun g => s0.cx? g.gid f
    match s0.mmaGang xs x.g.core with
    | .traps l =>
      match l.find? fun e => e.1 == gid with
      | some e => e.2
      | none => .park s []
    | .hold => .hold
    | .go => .done (s.acceptMma x gang) none true

def execMmaQ (w : W) (s : State) : Host.Outcome State Fault Refusal :=
  issueWith (w.fields 0xF0 0) (mmaFate (w.fields 0xF0 0) s) s
def execMmaQImage (w : W) (s : State) : Host.Outcome State Fault Refusal :=
  issueWith (w.fields 0xF0 0) (mmaFate (w.fields 0xF0 0) s) s

/-- CHURN_OP_COMPLETE (R237, R248): the running operation of a core ends; its tile fills and its flags are set. -/
def execChurnOpComplete (core : Nat) (s : State) : Host.Outcome State Fault Refusal :=
  match s.churn.find? fun o => o.core == core with
  | none => .next s
  | some o =>
    let ends := max o.early (Sparse.get 0 s.churnEnd core) + o.dur
    if s.now < ends || !s.coreRuns core then .next s
    else
      let ctx := s.opCtx o
      let s : State := { s with
        churn := s.churn.erase o
        churnEnd := Sparse.put 0 s.churnEnd core ends }
      let s := s.modBlock o.bid fun b => { b with tiles := b.tiles.set o.tile ⟨o.elems, false, o.status⟩ }
      let s := s.modGroup o.gid fun g => { g with mstat := g.mstat ||| o.mstat, mloss := o.mloss.getD g.mloss }
      let st := o.status.toNat
      let s := ((s.ran (churnUnit core) ctx).count core 0x04 ctx 1).count core 0x06 ctx (bitsOf st 16 3)
      .next (s.count core 0x07 ctx (if st.testBit 12 then 0 else bitsOf st 24 8))

/-! MZERO, MSTAT, MLD (R249 to R251) -/

/-- Detail 11 in a spawned group, then 22 for a tile beyond the block's (R236). -/
def tilePre (field : Fields → BitVec 9) (x : Cx) : Option Fate :=
  if x.g.spawned then some (.trap trapIllegal 11 x.g.amask)
  else if x.badTile (field x.f) then some (.trap trapIllegal 22 x.g.amask)
  else none

/-- The block's tile that a field names. -/
def Cx.tileOf (x : Cx) (bits : BitVec 9) : Nat := (tileNo x.g bits).getD 0
def Cx.tileAt (x : Cx) (bits : BitVec 9) : Tile := x.b.tiles.getD (x.tileOf bits) ⟨[], false, 0⟩

def execMzero (w : W) : State → Host.Outcome State Fault Refusal :=
  issue (w.fields 0xF1 0) (tilePre (·.dst)) fun x =>
    .done (x.s.modBlock x.b.bid fun b => { b with tiles := b.tiles.set (x.tileOf x.f.dst) ⟨[], false, 0x10⟩ }) none false

def execMstat (w : W) : State → Host.Outcome State Fault Refusal :=
  issue (w.fields 0xF4 0) (tilePre (·.a)) fun x =>
    .done (x.s.modGroup x.g.gid fun g => g.writeDst x.f.dst 0 [(x.tileAt x.f.a).status]) none false

def mldWidth (ty : Ty) : Nat :=
  match ty with
  | .e4m3 | .e5m2 => 1
  | .bf16 | .f16 => 2
  | _ => 4

/-- A tile's address in a space: a multiple of 4, every byte within (R251). -/
def Cx.tileFault (x : Cx) (spc : Space) (n : Nat) : Option Nat :=
  let a := x.addr 0
  if a % 4 ≠ 0 then some 16
  else match spc with
    | .tw => if a < 0 ∨ !x.s.windowHolds x.die x.b.ctx a.toNat n then some 18 else none
    | .sh => if a < 0 ∨ (x.b.shmem : Int) < a + n then some 17 else none
    | _ => if a < 0 ∨ (x.c.scSize : Int) < a + n then some 17 else none

/-- The words of a tile from numbers in order. -/
def tileWords (l : List Nat) : Sparse Word :=
  (((List.range l.length).zip l).filter fun e => e.2 % 2 ^ 32 != 0).map fun e => (e.1, BitVec.ofNat 32 e.2)

/-- An element widened to FP32 (R58). -/
def widenElem (ty : Ty) (v : Nat) : Nat :=
  match ty with
  | .bf16 => (cvtFloat .f32 .bf16 {} v).1
  | .f16 => (cvtFloat .f32 .f16 {} v).1
  | _ => v

def mldBody (m : MemMod) (x : Cx) : Fate :=
  let w := mldWidth m.ty
  match x.tileFault m.space (2048 * w) with
  | some d => .trap trapIllegal d x.g.amask
  | none =>
    let base := x.addrN 0
    let addrs := (List.range 2048).map fun e => base + e * w
    x.access m.space .load addrs w (fun _ => []) fun x =>
      let x := x.ownFirst m.space addrs w
      let elems := tileWords (addrs.map fun a => widenElem m.ty (x.loadN m.space 0 a w))
      let n := x.tileOf x.f.dst
      let (rid, s) := (x.s.sampleDone x m.space).fresh
      let s := s.modBlock x.b.bid fun b => { b with tiles := b.tiles.modify n fun t => { t with empty := true } }
      let r : Result := ⟨rid, x.g.gid, .mld, [], x.g.handler.isSome, [], 0, [], [], x.g.pc, some (x.b.bid, n, elems), x.tagged⟩
      let s : State := { s with results := s.results ++ [r] }
      .done (s.touchAll (if m.space == .tw then x.tilesAt addrs else [])) none false

def execMld (w : W) (m : MemMod) : State → Host.Outcome State Fault Refusal :=
  issue (w.fields 0xF2 m.bits) (tilePre (·.dst)) (mldBody m)

/-- MLD_FILL (R251): every element of the tile is written. -/
def execMldFill (rid : Nat) (s : State) : Host.Outcome State Fault Refusal :=
  match s.landing rid .mld with
  | none => .next s
  | some r =>
    let s : State := { s with results := s.results.filter fun q => q.rid != rid }
    let s := if r.tagged then s.modGroup r.gid fun g => g.sampleEnd s.now else s
    match r.tile with
    | some (bid, n, elems) => .next (s.modBlock bid fun b => { b with tiles := b.tiles.set n ⟨elems, false, 0x20⟩ })
    | none => .next s

/-! MDRAIN (R252 to R255) -/

def drainCap : Nat := 8

/-- An element as it is written. -/
def drainElem (m : DrainMod) (v : Nat) : Nat :=
  let to_ (d : FFmt) : Nat := (cvtFloat d .f32 ⟨.rne, m.sat, false⟩ v).1
  match m.ty with
  | .bf16 => to_ .bf16
  | .f16 => to_ .f16
  | .e4m3 => to_ .e4m3
  | .e5m2 => to_ .e5m2
  | _ => v

/-- The tagged request of a drain's MDRAIN changed (R357, R358). -/
def State.drainSample (s : State) (d : Drain) (f : Smpl → Smpl) : State :=
  if d.tagged then s.modGroup d.gid fun g => { g with smpl := g.smpl.map f } else s

/-- MDRAIN (R252): its address checked, a hold while the port is full, then the whole tile read into the port. A tagged one is done with
its drain. Log entry 101. -/
def mdrainBody (m : DrainMod) (x : Cx) : Fate :=
  let w := mldWidth m.ty
  match x.tileFault m.space (2048 * w) with
  | some d => .trap trapIllegal d x.g.amask
  | none =>
    if drainCap ≤ (x.s.drains.filter fun d => d.core == x.g.core).length then .hold
    else
      let t := x.tileAt x.f.c
      let bytes := (List.range 2048).flatMap fun e => bytesOf w (drainElem m (Sparse.get 0 t.elems e).toNat)
      let place := (placeOf m.space).getD .sc
      let parts := ((cutRange ⟨place, x.addrN 0⟩ bytes.length).foldl (fun (acc : List (Nat × List Byte) × List Byte) r =>
        (acc.1 ++ [(r.1.addr, acc.2.take r.2)], acc.2.drop r.2)) ([], bytes)).1
      let (did, s) := (x.s.sample x m.space x.addrOf).fresh
      let tagged := { x with s := s }.tagged
      let d : Drain := ⟨did, x.g.gid, x.g.core, x.b.bid, x.b.ctx, place, parts, m.add, m.ty, m.sat, tagged⟩
      let s : State := { s with drains := s.drains ++ [d] }
      .done (s.drainSample d fun t => { t with issued := true, bank := m.space == .sc }) none false

def execMdrain (w : W) (m : DrainMod) : State → Host.Outcome State Fault Refusal :=
  issue (w.fields 0xF3 m.bits) (tilePre (·.c)) (mdrainBody m)

/-- A saturating or wrapping sum of INT32 words. -/
def addSat (a b : Nat) : Nat := (BitVec.ofInt 32 (clampInt (-(2 ^ 31)) (2 ^ 31 - 1) (IFmt.read .i32 a + IFmt.read .i32 b))).toNat

/-- The bytes of a drain's part written over or added to memory (R252). -/
def Drain.onto (d : Drain) (m : Memory) (a : Nat) (bytes : List Byte) : Memory :=
  if !d.add then m.writeList a bytes
  else
    let old := wordList (m.readList a bytes.length)
    let add (x y : Nat) : Nat := if d.ty == .f32 then addF32 x y else if d.sat then addSat x y else (x + y) % 2 ^ 32
    m.writeList a (byteList (List.zipWith add old (wordList bytes)))

def Drain.entry (d : Drain) (p : Nat × List Byte) : HodEntry :=
  ⟨p.1 % tileBytes, p.2.length, true, if d.add then .add else .st, if d.ty == .f32 then .f32 else .i32, p.2⟩

/-- A portion of a drain into a window tile (R254): done, or held until its tile is resident and then applied to it. -/
def State.drainTile (s : State) (d : Drain) (p : Nat × List Byte) : Option State × State :=
  match s.engineTile (dieOf d.core) d.ctx p.1 with
  | none => (none, s)
  | some t =>
    let e := d.entry p
    if (s.tile t).st == .resident then
      let s := s.flushTile d.core t
      let x := s.tile t
      let s := s.setTile t { x with
        data := d.onto x.data e.off e.data, dirty := markDirty x.dirty e.off e.len, held := x.held.filter fun n => n != d.did }
      (some ((s.touch t).drainSample d fun m => { m with bank := true }), s)
    else if !(d.add && d.sat) && !(s.tile t).held.contains d.did && s.appendFits t [e] then
      (some (s.postAppend d.gid d.bid d.core t [e] none (some d.did) false (if d.tagged then 1 else 0)), s)
    else (none, (s.awaitTile d.did d.core t).drainSample d fun m => { m with parked := true })

/-- The portions of a drain into a window, each by itself: those that are left. -/
def State.drainTiles (d : Drain) : List (Nat × List Byte) → State → State × List (Nat × List Byte)
  | [], s => (s, [])
  | p :: rest, s =>
    match s.drainTile d p with
    | (some s, _) => State.drainTiles d rest s
    | (none, s) =>
      let (s, left) := State.drainTiles d rest s
      (s, p :: left)

/-- An earlier drain of the same group that meets one of some parts comes first (R255). -/
def State.drainBlocked (s : State) (d : Drain) : Bool :=
  (s.drains.takeWhile fun e => e.did != d.did).any fun e =>
    e.gid == d.gid && e.place == d.place &&
      e.parts.any fun p => d.parts.any fun q => rangesMeet p.1 p.2.length q.1 q.2.length

def State.setDrain (s : State) (d : Drain) : State := { s with drains := replaceBy (fun e => e.did == d.did) d s.drains }
/-- A drain leaves its port: every byte is written. -/
def State.dropDrain (s : State) (d : Drain) : State :=
  { s with drains := s.drains.filter fun e => e.did != d.did }.drainSample d fun m => { m with finish := some s.now }

/-- DRAIN_PERFORM (R253 to R255): the port writes a drain. Into .sh and .sc it is one step; into .tw one for each
portion, and the drain leaves the port when its appends are accepted. -/
def execDrainPerform (did : Nat) (s : State) : Host.Outcome State Fault Refusal :=
  match s.drains.find? fun d => d.did == did with
  | none => .next s
  | some d =>
    match s.ctx? d.ctx with
    | none => .next s
    | some c =>
      if !s.coreRuns d.core || s.drainBlocked d then .next s
      else match d.place with
        | .sh =>
          .next ((s.modBlock d.bid fun b => { b with sh := d.parts.foldl (fun (m : Memory) p => d.onto m p.1 p.2) b.sh }).dropDrain d)
        | .win =>
          let (s, left) := State.drainTiles d d.parts s
          let waits := !left.isEmpty || s.appends.any fun a => a.did == some did
          .next (if waits then s.setDrain { d with parts := left } else s.dropDrain d)
        | _ =>
          let key (a : Nat) : Nat := scratchKey c (dieOf d.core) a
          let s : State := d.parts.foldl (fun s p => s.flushSc d.core (key p.1) p.2.length) s
          let mem : Memory := d.parts.foldl (fun (m : Memory) p => d.onto m (key p.1) p.2) s.scratch
          .next ({ s with scratch := mem }.dropDrain d)

end Sys2Proof.Machine
end

