-- ==== Sys2Proof/Machine/Preempt.lean ====
section
/-! DEFINITION. Watchdogs, stops and trips, pre-emption and its images, resident pairs and time slices (R134, R256,
R294 to R303, R325, R326, R346). -/

namespace Sys2Proof.Machine

open Sys2Proof

/-! Firmware calls (R347, R349) -/

/-- The agreed version with a peer (R349): this side supports major 1 up to minor 0. -/
def agreed (peer : Versions) : Option (Nat × Nat) := (peer.find? fun v => v.1 == 1).map fun v => (1, min 0 v.2)

def State.reply (s : State) (status : Nat) (vals : List Nat) : State :=
  { s with replies := s.replies ++ [⟨status, vals, []⟩] }

/-- The system die takes calls once it has booted (R342, R343). -/
def State.booted (s : State) : Bool := s.boot.stage == 6 && s.boot.safe.isNone

/-- A call: ignored before boot ends, status 3 without a common version, else its own effect. -/
def State.call (s : State) (v : Versions) (effect : State → State) : Host.Outcome State Fault Refusal :=
  if !s.booted then .next s
  else if (agreed v).isNone then .next (s.reply 3 [])
  else .next (effect s)

def State.haltedDies (s : State) (dies : List Nat) : Bool :=
  dies.any fun d => match s.part? d with | some p => p.halted.isSome | none => false

/-! Watchdogs (R298) -/

/-- WDOG_EXPIRY: a record in the context's log, and a trap that enters the handler or joins the queue. A trap has no effect
(R286), so an arrival at the block barrier is undone by its delivery, and a hold for REJ draws ends with it. Log entry 99. -/
def execWdogExpiry (gid : Nat) (s : State) : Host.Outcome State Fault Refusal :=
  match s.group? gid with
  | none => .next s
  | some g =>
    match g.waiting, s.block? g.bid with
    | some kind, some b =>
      let lim := ((s.ctx? b.ctx).map (·.ctl.wdlim.toNat)).getD 0
      if g.raised || lim = 0 || g.counted < lim || !s.coreRuns g.core then .next s
      else
        let s := s.log b.ctx 0x05 0 0 g.pc.toNat (s.blockName g.bid) g.num (waitDetail kind)
        let s := if g.handler.isNone then
            s.modBlock b.bid fun b => { b with arrived := b.arrived.filter fun e => e.1 != gid }
          else s
        let s := s.queueTrap g (trapRecOf g trapWdog (waitDetail kind) g.amask g.pc 0)
        .next (if g.spawned then s else s.splitCheck g.bid g.quartet)
    | _, _ => .next s

/-! Stops and trips (R295, R296, R346) -/

/-- The skid a unit may take; none for no such unit. -/
def skidLimit (unit : Nat) : Option Nat :=
  match unit with
  | 1 => some 64
  | 2 => some 16
  | 3 | 4 | 7 => some 512
  | 5 => some (2 ^ 16 - 1)
  | _ => none

/-- Whether a unit exists: cores of its die, slices 0 to 15, update engines by the first core of a cluster. -/
def unitExists (u : StopUnit) : Bool :=
  if u.unit = 1 then decide (dieOf u.core = u.die ∧ u.slice < 16)
  else if u.unit = 2 ∨ u.unit = 3 then decide (dieOf u.core = u.die ∧ u.slice = 0)
  else if u.unit = 4 then decide (dieOf u.core = u.die ∧ u.core % 8 = 0 ∧ u.slice = 0)
  else decide ((u.unit = 5 ∨ u.unit = 7) ∧ u.core = 0x3FF ∧ u.slice = 0)

def sameUnit (a b : StopUnit) : Bool := a.unit == b.unit && a.core == b.core && a.die == b.die && a.slice == b.slice

/-- The card that an engine has begun and not completed: the first of them. -/
def State.inProgress (s : State) (u : StopUnit) : Option Card := s.cards.find? fun k => k.run.isSome && sameUnit (engineUnit k) u

/-- STATE of a unit (R296). -/
def State.stopState (s : State) (u : StopUnit) : Nat :=
  if u.unit = 1 then
    (List.range 4).foldr (fun p n => (match s.groups.find? fun g => g.core == u.core && g.slice == u.slice && g.pos == p with
      | some g => g.pc.toNat
      | none => 0) + 2 ^ 64 * n) 0
  else if u.unit = 3 ∨ u.unit = 4 ∨ u.unit = 5 then
    match s.inProgress u with
    | some k => ((s.cardCode k).extractLsb' 256 256).toNat
    | none => 0
  else 0

/-- The stop record of a unit. -/
def State.stopRecord (s : State) (p : Part) (u : StopUnit) : BitVec 512 :=
  let origin := sameUnit p.origin u
  let core := if u.unit ≤ 3 then u.core else 0x3FF
  record [(8, 1), (8, 0), (8, u.unit), (8, if origin then (p.halted.getD 0).toNat else 0x06), (10, core), (2, u.die),
    (4, u.slice), (32, Sparse.get allOnes32 s.lastCtx (unitKey u)), (64, s.now), (16, u.skid),
    (52, if origin then p.addr else 0), (44, 0), (256, s.stopState u)]

/-- UNIT_STOP: a unit of a halted partition stops within its skid and writes its record, once. With an address, a unit of a
running partition has read an error there that it cannot repair, and the partition halts (R294). -/
def execUnitStop (e : UnitEvent) (s : State) : Host.Outcome State Fault Refusal :=
  let u := e.unit
  match s.part? u.die, skidLimit u.unit with
  | some p, some lim =>
    let arrived := s.now - u.skid
    if !unitExists u || s.gatedDies.contains u.die then .next s
    else match e.error with
      | some a => .next (if p.halted.isNone then s.halt u.die haltMemory { u with skid := 0 } a else s)
      | none =>
        if p.halted.isNone || p.stopped.any (sameUnit u) || lim < u.skid || arrived < p.haltAt || p.haltAt + 125 < arrived then
          .next s
        else .next (s.setPart { p with recs := p.recs ++ [s.stopRecord p u], stopped := p.stopped ++ [u] })
  | _, _ => .next s

/-- The records a die's clusters lose when it is gated by force (R353): those in their buffers. Log entry 80: the gating record
itself, which reaches no buffer, is not counted. -/
def State.loseTrace (s : State) (die : Nat) : State :=
  (List.range 20).foldl (fun s i =>
    let c := 20 * die + i
    let n := (Sparse.get [] s.trace c).length
    { s with trace := Sparse.put [] s.trace c [], loss := Sparse.put 0 s.loss c (min allOnes32 (Sparse.get 0 s.loss c + n)) }) s

def State.gateDie (s : State) (die : Nat) : State :=
  let s := s.loseTrace die
  { s with gatedDies := if s.gatedDies.contains die then s.gatedDies else s.gatedDies ++ [die]
           gatings := s.gatings.filter fun g => g.1 / 20 != die }

/-- The safe state (R343): compute dies gated, links, fabric ports and root ports disabled. -/
def State.safeState (s : State) (unit : Nat) : State :=
  { s with
    boot := { s.boot with safe := some (s.boot.stage, unit) }
    gatedDies := [0, 1, 2, 3]
    links := s.links.map fun l => { l with up := false, waiting := [] }
    rootPorts := [] }

/-- A partition as it is made. -/
def Part.fresh (dies : List Nat) : Part := ⟨dies, none, 0, ⟨0, 0, 0, 0, 0⟩, 0, [], [], false⟩

/-- A die that lies in no partition is one of its own (R294). -/
def State.ownPart (s : State) (die : Nat) : State :=
  if (s.part? die).isSome then s else { s with parts := s.parts ++ [Part.fresh [die]] }

/-- THERMAL_TRIP (R346): during boot it leads to the safe state; later the die is gated at once, its partition halts, and SD
records the stop. -/
def execThermalTrip (die : Nat) (s : State) : Host.Outcome State Fault Refusal :=
  if 4 ≤ die ∨ s.gatedDies.contains die ∧ s.booted then .next s
  else if !s.booted then .next (if s.boot.safe.isSome then s else s.safeState 6)
  else
    let s := ((s.gateDie die).ownPart die).halt die haltThermal ⟨6, 0x3FF, die, 0, 0⟩ 0
    match s.part? die with
    | some p =>
      let r := record [(8, 1), (8, 0), (8, 6), (8, 0x07), (10, 0x3FF), (2, die), (4, 0), (32, 0), (64, s.now), (16, 0),
        (52, 0), (44, 0), (256, 0)]
      .next (s.setPart { p with recs := p.recs ++ [r] })
    | none => .next s

/-! Churn operations set aside and accepted again (R256) -/

/-- An operation as it is set aside at a cycle: one that has run some cycles is frozen with those it has left. -/
def ChurnOp.freeze (o : ChurnOp) (begins now : Nat) (first : Bool) : ChurnOp :=
  if first ∧ begins < now then { o with dur := o.dur - (now - begins), mid := true } else o

/-- A core's operations that a test names leave the churn. -/
def State.freezeOps (s : State) (core : Nat) (which : ChurnOp → Bool) : State :=
  match s.churn.find? fun o => o.core == core with
  | none => s
  | some f =>
    let begins := max f.early (Sparse.get 0 s.churnEnd core)
    let mine (o : ChurnOp) : Bool := o.core == core && which o
    let out := (s.churn.filter mine).map fun o => o.freeze begins s.now (o == f)
    let ran := which f && decide (begins < s.now)
    { s with churn := s.churn.filter fun o => !mine o, frozen := s.frozen ++ out
             churnEnd := if ran then Sparse.put 0 s.churnEnd core s.now else s.churnEnd }

/-- A core's operations that a test names are accepted again at the tail of the queue, which they may take beyond its 16 places. Log
entry 46. -/
def State.thawOps (s : State) (core : Nat) (which : ChurnOp → Bool) : State :=
  let mine (o : ChurnOp) : Bool := o.core == core && which o
  let back := s.frozen.filter mine
  let s : State := { s with churn := s.churn ++ back.map fun o => { o with early := s.now }
                            frozen := s.frozen.filter fun o => !mine o }
  back.foldl (fun s o => s.ran (churnUnit core) (s.opCtx o)) s

/-! Pre-emption decisions (R134, R299) -/

def State.criticalIn (s : State) (bid : Nat) : Bool := s.groups.any fun g => g.bid == bid && decide (g.crit ≠ 0)

/-- A block with a critical group that its pre-emption is still deferred for (R134). -/
def State.deferred (s : State) (b : Block) (critx : Bool) : Bool := s.defers b.ctx critx && s.criticalIn b.bid

/-- A group as a pre-emption leaves it: its wait's count starts afresh (R298), it holds no reserve position (R133), and
what it waited for in issue or on a fetch it issues again (R300), with its own condition met where it has been (R21). One whose REJ
draws have issued stands as it is: its instruction goes on (R118). -/
def Group.setAside (g : Group) : Group :=
  let g := { g with waiting := none, counted := 0, reserve := none }
  if g.rejHeld.isSome then g
  else { g with reissue := g.reissue || !g.parked.isEmpty, parked := [], stay := false, tmap := none, gdesc := none }

/-- A block to be saved stops issuing; its operations leave the churn, its quartets split (R135, R256, R299). -/
def State.toSave (s : State) (b : Block) : State :=
  let mine := s.groups.filter fun g => g.bid == b.bid && g.rejHeld.isNone
  let s := mine.foldl (fun s g => s.unhold g.gid) s
  let s : State := { s with groups := s.groups.map fun g => if g.bid = b.bid then g.setAside else g }
  let s := s.modBlock b.bid fun b => { b with phase := .saving, fused := b.fused.map fun _ => false }
  let s := s.freezeOps b.core fun o => o.bid == b.bid
  s.traceEvent b.ctx 5 b.core 0 b.core (s.blockName b.bid) allOnes32 0 2

/-- A block is to run again from its start (R299): the sums of the run that ends pass on. -/
def State.runAgain (s : State) (b : Block) (gs : List Group) : State :=
  let energy := gs.foldl (fun (n : DWord) g => n + g.energy) (b.energy + b.carryE)
  match s.grid? b.ctx b.grid with
  | some g => s.setGrid { g with again := g.again ++ [⟨b.bid, b.idx, energy, b.retcnt + b.carryN, b.core⟩] }
  | none => s

/-- A block discarded, to be placed again (R299): its groups' sums pass on, and its operations leave the churn, of which the running
one ends there (R237). What it wrote stays made: its writes of .sc are at the die, and its appends and drains go on, which are waited
for under its name (R169, R224), but for drains into the shared memory that is discarded. Log entry 94. -/
def State.flushBlock (s : State) (b : Block) : State :=
  let mine := s.groups.filter fun g => g.bid == b.bid
  let gids := mine.map (·.gid)
  let s := mine.foldl (fun s g => s.unhold g.gid) (s.performCore b.core)
  let s := s.runAgain b mine
  let s := s.traceEvent b.ctx 5 b.core 0 b.core (s.blockName b.bid) allOnes32 0 1
  let s := s.freezeOps b.core fun o => o.bid == b.bid
  { s with
    groups := s.groups.filter fun g => g.bid != b.bid
    blocks := s.blocks.filter fun x => x.bid != b.bid
    results := s.results.filter fun r => !gids.contains r.gid
    drains := s.drains.filter fun d => !(d.bid == b.bid && d.place == .sh)
    frozen := s.frozen.filter fun o => o.bid != b.bid
    turn := s.turn.filter fun t => !gids.contains t.gid }

/-- What R299 decides for a block. -/
inductive Decision where
  | drain | flush | save
  deriving DecidableEq, Repr

def State.decision (s : State) (c : Ctx) (b : Block) : Decision :=
  if b.expcnt ≠ 0 ∧ b.retcnt < b.expcnt ∧ b.expcnt - b.retcnt < c.ctl.draint.toNat then .drain
  else if b.idem && decide (b.retcnt < c.ctl.rstt.toNat) && !s.criticalIn b.bid && !s.descends b.bid &&
      !(s.cards.any fun k => k.bid == b.bid) then .flush
  else .save

def State.decideBlock (s : State) (c : Ctx) (b : Block) : State :=
  match s.decision c b with
  | .drain =>
    let s := s.setBlock { b with phase := .draining (s.now + c.ctl.drainw.toNat) }
    s.traceEvent b.ctx 5 b.core 0 b.core (s.blockName b.bid) allOnes32 0 0
  | .flush => s.flushBlock b
  | .save => s.toSave b

/-- REJ draws in flight for some groups, or an instruction that is held in issue for some: their pre-emption waits for them (R118). -/
def State.drawsOf (s : State) (which : Group → Bool) : Bool :=
  (s.results.any fun r => (r.kind == .rej || !r.slots.isEmpty) && (s.group? r.gid).any which) ||
    s.groups.any fun g => g.rejHeld.isSome && which g

def State.drawsIn (s : State) (bid : Nat) : Bool := s.drawsOf fun g => g.bid == bid

/-- A block for which a request waits no more: none of its groups is deferred for, and no discard would overtake a draw. -/
def State.decidable (s : State) (c : Ctx) (b : Block) : Bool :=
  match s.preemptOf b with
  | some r => s.coreRuns b.core && !s.deferred b r.critx && !(s.decision c b == .flush && s.drawsIn b.bid)
  | none => false

/-- The first block whose pre-emption can be decided, decided (R299). -/
def State.decide? (s : State) : Option State :=
  s.blocks.findSome? fun b =>
    match s.ctx? b.ctx with
    | some c => if s.decidable c b then some (s.decideBlock c b) else none
    | none => none

/-- CRITX (R134): the deferral limit of a request or a switch has passed; each critical group of the blocks it concerns has its
record. -/
def State.logCritx (s : State) (which : Block → Bool) (at_ : Nat) : State :=
  (s.groups.filter fun g => decide (g.crit ≠ 0) && (match s.block? g.bid with
    | some b => which b
    | none => false)).foldl (fun s g =>
      match s.block? g.bid with
      | some b => s.log b.ctx 0x02 0 0 g.pc.toNat (s.blockName g.bid) g.num ((s.now - at_) % 2 ^ 32)
      | none => s) s

def execCritx (ctx core : Nat) (s : State) : Host.Outcome State Fault Refusal :=
  match s.ctx? ctx with
  | none => .next s
  | some c =>
    let passed (at_ : Nat) : Bool := c.ctl.defer != 0 && s.coreRuns core && decide (at_ + c.ctl.defer.toNat ≤ s.now)
    match s.prereqs.find? fun r => r.ctx == ctx && r.core == core && !r.critx && passed r.at_ with
    | some r =>
      let s := s.logCritx (fun b => b.ctx == ctx && b.core == core && (s.preemptOf b).isSome) r.at_
      .next { s with prereqs := s.prereqs.map fun q =>
        if q.ctx = ctx ∧ q.core = core then { q with critx := true } else q }
    | none =>
      match s.switches.find? fun w => w.core == core && w.dest != ctx && !w.critx && passed w.at_ with
      | some w =>
        if s.activeOn core ctx then
          let s := s.logCritx (fun b => b.ctx == ctx && b.core == core && b.phase != .saving) w.at_
          .next { s with switches := s.switches.map fun v => if v.core = core then { v with critx := true } else v }
        else .next s
      | none => .next s

/-- PREEMPT (R299, R347). -/
def preemptCall (ctx : Nat) (cores : List Nat) (s : State) : State :=
  match s.ctx? ctx with
  | none => s.reply 1 []
  | some c =>
    if s.haltedDies c.dies then s.reply 2 []
    else if cores.any fun x => !c.dies.contains (dieOf x) then s.reply 1 []
    else
      let new := (nubNat cores).filter fun x => !(s.prereqs.any fun r => r.ctx == ctx && r.core == x)
      let more : List PreReq := new.map fun x => ⟨ctx, x, s.now, false⟩
      let s : State := { s with prereqs := s.prereqs ++ more }
      s.reply 0 []

def execPreempt (v : Versions) (ctx : Nat) (cores : List Nat) (s : State) : Host.Outcome State Fault Refusal :=
  s.call v (preemptCall ctx cores)

/-- DRAIN_TIMEOUT (R299): a block that has not retired by its deadline is saved, also with a critical group. Log entry 98. -/
def execDrainTimeout (bid : Nat) (s : State) : Host.Outcome State Fault Refusal :=
  match s.block? bid with
  | none => .next s
  | some b =>
    match b.phase with
    | .draining d => if d ≤ s.now && s.coreRuns b.core then .next (s.toSave b) else .next s
    | _ => .next s

/-! Saving (R196, R256, R272, R300, R319) -/

/-- Tiles of a context, on whatever die, that hold hods or dirty bytes (R196). -/
def State.tilesUnsaved (s : State) (ctx : Nat) : List (TileRef × WTile) :=
  ([0, 1, 2, 3].flatMap fun die => s.tilesOf die ctx).filter fun e => !e.2.hod.isEmpty || !e.2.dirty.isEmpty

/-- The contribution of a card is taken: its source is read (R319). -/
def Card.taken (k : Card) : Bool :=
  match k.job, k.run with
  | .coll .., some run => run.reads.isEmpty
  | _, _ => false

/-- A card that a save waits for (R272): a collective one once every rank has issued, and before that until its contribution is
taken (R319). -/
def State.holdsSave (s : State) (k : Card) : Bool := s.everyRank k || !k.taken

/-- A result that a block's save waits for: one of its groups, or a tile's fill that a group which is gone has left (R300). -/
def Result.into (r : Result) (bid : Nat) (gids : List Nat) : Bool :=
  (gids.contains r.gid && r.kind != .coll) || match r.tile with | some e => e.1 == bid | none => false

/-- What a save waits for is done (R300). -/
def State.saveReady (s : State) (b : Block) : Bool :=
  let die := dieOf b.core
  let gids := (s.groups.filter fun g => g.bid == b.bid).map (·.gid)
  !s.drawsIn b.bid && !(s.results.any fun r => r.into b.bid gids) && !(s.scw.any fun w => w.bid == b.bid) &&
    (s.tilesUnsaved b.ctx).isEmpty && !(s.appends.any fun a => a.tile.ctx == b.ctx) &&
    !(s.wbacks.any fun w => w.tile.ctx == b.ctx) &&
    !(s.cards.any fun k => k.ctx == b.ctx && dieOf k.core == die && s.holdsSave k) &&
    !(s.drains.any fun d => d.core == b.core && d.ctx == b.ctx)

/-- The core that asks for what a save or an unmapping needs of a tile: the one it is for where it lies on the tile's die, the lowest
of that die where it does not. Log entry 32. -/
def askingCore (core die : Nat) : Nat := if dieOf core = die then core else 160 * die

/-- The work of R196 and R319: the context's tiles with hods fetched, its dirty ones written back, contributions to collectives
taken. -/
def State.settleSave (s : State) (b : Block) : State :=
  let s := (s.tilesUnsaved b.ctx).foldl (fun s e => s.cleanTile (askingCore b.core e.1.die) e) s
  match s.ctx? b.ctx with
  | some c =>
    (s.cards.filter fun k => k.ctx == c.no && dieOf k.core == dieOf b.core && !k.taken).foldl (fun s k => s.collRead c k) s
  | none => s

/-- The slices a block has used, plus one. -/
def Block.slices (b : Block) (extra : List Nat) : Nat :=
  let own := (List.range ((b.nthr + 31) / 32)).map fun j => 4 * (b.places.getD (j / 4) 0 % 4) + j % 4
  (own ++ extra).foldl (fun m x => max m (x + 1)) 0

/-- The image of a block (R300), the n-th of the machine's. -/
def State.imageOf (s : State) (b : Block) (n : Nat) : SaveImage :=
  let gs := s.groups.filter fun g => g.bid == b.bid
  let ops := s.frozen.filter fun o => o.bid == b.bid
  let c := s.ctx? b.ctx
  { head :=
      { vmaj := 1, vmin := 0, kind := 1, midmma := ops.any fun o => o.mid
        idem := b.idem, arrv := Config.arrayVersion b.core, ndie := (c.map (·.dies.length)).getD 0
        scsz := ((c.map (·.scSize)).getD 0 + 65535) / 65536, nsl := b.slices (gs.map (·.slice)), ntile := b.ntile, ctx := b.ctx
        grid := b.grid, block := b.idx, retcnt := b.retcnt, expcnt := b.expcnt, shmem := b.shmem
        len := (Config.imageLen n).toNat, nsec := (Config.imageSections n).toNat }
    block := b, groups := gs, ops := ops
    items := (s.spawnQ.filter fun q => q.2.bid == b.bid).map (·.2)
    opens := s.openG.filter fun o => o.bid == b.bid
    sealeds := s.sealedG.filter fun o => o.bid == b.bid }

/-- The 64 bytes of an image's header (R300). -/
def ImgHead.code (h : ImgHead) : BitVec 512 :=
  let bit (v : Bool) : Nat := if v then 1 else 0
  record [(8, h.vmaj), (8, h.vmin), (8, h.kind), (1, bit h.midmma), (1, bit h.idem), (6, 0), (8, h.arrv.toNat), (8, h.ndie),
    (16, h.scsz), (8, h.nsl), (8, h.ntile), (32, h.ctx), (32, h.grid), (32, h.block), (64, h.retcnt), (64, h.expcnt),
    (32, h.shmem), (32, h.len), (16, h.nsec), (128, 0)]

/-- SAVE_COMPLETE: the work a save waits for, and once it is done the image. The core's writes of .sc are at the die by then: some may
happen before what the block's groups do next, on whatever core (R221, R224). -/
def execSaveComplete (bid : Nat) (s : State) : Host.Outcome State Fault Refusal :=
  match s.block? bid with
  | none => .next s
  | some b =>
    if b.phase != .saving || !s.coreRuns b.core then .next s
    else if !s.saveReady b then .next (s.settleSave b)
    else
      let (n, s) := (s.performCore b.core).fresh
      .next { s with
        images := s.images ++ [s.imageOf b n]
        blocks := s.blocks.filter fun x => x.bid != bid
        groups := s.groups.filter fun g => g.bid != bid
        frozen := s.frozen.filter fun o => o.bid != bid
        spawnQ := s.spawnQ.filter fun q => q.2.bid != bid
        openG := s.openG.filter fun o => o.bid != bid
        sealedG := s.sealedG.filter fun o => o.bid != bid }

/-! Restoring (R301) -/

/-- Spawned groups at the lowest free slots; none without one for each. -/
def seatSpawned (core : Nat) (c : Ctx) : List Group → State → Option State
  | [], s => some s
  | g :: rest, s =>
    match s.freeSlot core c with
    | none => none
    | some slot =>
      seatSpawned core c rest
        { s with groups := s.groups ++ [{ g with core := core, slice := slot % 16, pos := slot / 16 }] }

/-- A member group at its place. -/
def Group.seat (g : Group) (core : Nat) (places : List Nat) : Group :=
  let place := places.getD (g.num / 4) 0
  { g with core := core, slice := 4 * (place % 4) + g.num % 4, pos := place / 4 }

/-- The results of collectives that ended while their groups were saved (R319). -/
def State.landCollectives (s : State) (gids : List Nat) : State :=
  (s.results.filter fun r => r.kind == .coll && gids.contains r.gid && !(s.contribs.any fun e => e.rid == r.rid)).foldl
    (fun s r => s.landResult r) s

/-- A block restored on a core with room. -/
def State.restoreOn (s : State) (c : Ctx) (m : SaveImage) (core : Nat) : Option State :=
  match s.roomFor c core m.block.nthr m.block.shmem m.block.ntile with
  | none => none
  | some places =>
    let opens := (s.openG.filter fun o => o.core == core).length + m.opens.length
    let items := (s.spawnQ.filter fun q => q.1 == core).length + m.items.length
    if 16 < opens ∨ spawnCap < items ∨ 16 < m.head.nsl then none
    else
      let b := { m.block with core := core, places := places, phase := .running }
      let own := (m.groups.filter fun g => !g.spawned).map fun g => g.seat core places
      let s : State := { s with
        images := s.images.erase m
        blocks := s.blocks ++ [b]
        groups := s.groups ++ own
        frozen := s.frozen ++ m.ops.map fun o => { o with core := core }
        spawnQ := s.spawnQ ++ m.items.map fun i => (core, i)
        openG := s.openG ++ m.opens.map fun o => { o with core := core }
        sealedG := s.sealedG ++ m.sealeds.map fun o => { o with core := core } }
      match seatSpawned core c (m.groups.filter fun g => g.spawned) s with
      | none => none
      | some s =>
        let s := if s.activeOn core c.no then s.thawOps core fun o => o.bid == b.bid else s
        some (s.landCollectives (m.groups.map (·.gid)))

/-- An image that was saved in the middle of an operation meets another array version (R301). -/
def SaveImage.misfit (m : SaveImage) (core : Nat) : Bool :=
  m.head.midmma && Config.arrayVersion core != m.head.arrv

/-- RSTGEO: a record, then a restart as after a flush, or a halt with the restore rejected. -/
def State.rstgeo (s : State) (m : SaveImage) (core : Nat) : State :=
  let b := m.block
  let s := s.log b.ctx 0x04 0 0 0 (s.blockName b.bid) allOnes32
    (m.head.arrv.toNat + 256 * (Config.arrayVersion core).toNat)
  if m.head.idem then State.runAgain { s with images := s.images.erase m } b m.groups
  else s.halt (dieOf core) haltRestore (tileUnit (dieOf core)) 0

/-- The images of a context restored on their targets in order; none when one has no room. -/
def restoreAll (c : Ctx) : List (SaveImage × Nat) → State → Option State
  | [], s => some s
  | (m, core) :: rest, s =>
    if m.misfit core then restoreAll c rest (s.rstgeo m core)
    else match s.restoreOn c m core with
      | some s => restoreAll c rest s
      | none => none

/-- The pre-emption of a context on some cores ends: draining blocks and blocks not yet saved go on. -/
def State.endPreempt (s : State) (ctx : Nat) (cores : List Nat) : State :=
  let here (b : Block) : Bool := b.ctx == ctx && cores.contains b.core && b.phase != .running
  let back := s.blocks.filter here
  let run (b : Block) : Block := if here b then { b with phase := .running } else b
  let s : State := { s with
    prereqs := s.prereqs.filter fun r => !(r.ctx == ctx && cores.contains r.core)
    blocks := s.blocks.map run }
  back.foldl (fun s b => if s.activeOn b.core ctx then s.thawOps b.core fun o => o.bid == b.bid else s) s

/-- An image whose header the context's restore accepts (R301, R349). -/
def ImgHead.fits (h : ImgHead) (c : Ctx) : Bool :=
  (agreed [(h.vmaj, h.vmin)]).isSome && h.ndie == c.dies.length && decide (h.scsz * 65536 ≤ c.scSize)

/-- RESUME (R301, R347): `targets` gives the core for each saved block. The whole restore is refused when an image does not
fit the context. -/
def resumeCall (ctx : Nat) (cores : List Nat) (targets : List (Nat × Nat)) (s : State) : State :=
  match s.ctx? ctx with
  | none => s.reply 1 []
  | some c =>
    let mine := s.images.filter fun m => m.block.ctx == ctx
    let named := targets.filterMap fun t => (mine.find? fun m => m.block.bid == t.1).map fun m => (m, t.2)
    let owed := mine.filter fun m => cores.contains m.block.core
    if s.haltedDies c.dies then s.reply 2 []
    else if cores.any fun x => !c.dies.contains (dieOf x) then s.reply 1 []
    else if named.length ≠ targets.length ∨ (nubNat (targets.map (·.1))).length ≠ targets.length then s.reply 1 []
    else if named.any fun t => !cores.contains t.2 || dieOf t.2 != dieOf t.1.block.core || !t.1.head.fits c then s.reply 1 []
    else if owed.any fun m => !(named.any fun t => t.1.block.bid == m.block.bid) then s.reply 1 []
    else
      match restoreAll c named (s.endPreempt ctx cores) with
      | none => s.reply 4 []
      | some s => s.reply (if s.haltedDies c.dies then 2 else 0) []

def execResume (v : Versions) (ctx : Nat) (cores : List Nat) (targets : List (Nat × Nat)) (s : State) :
    Host.Outcome State Fault Refusal :=
  s.call v (resumeCall ctx cores targets)

/-! Resident pairs (R303) -/

/-- The contexts resident on a core. -/
def State.residents (s : State) (core : Nat) : List Ctx := s.ctxs.filter fun c => c.dies.contains (dieOf core)

/-- The context active on a core, and the other of its pair. -/
def State.pair (s : State) (core : Nat) : Option (Nat × Nat) :=
  match s.residents core with
  | [a, b] => if s.activeOn core a.no then some (a.no, b.no) else some (b.no, a.no)
  | _ => none

/-- CTXSW: a switch begins on each core that holds a pair. -/
def ctxswCall (cores : List Nat) (s : State) : State :=
  if s.haltedDies (cores.map dieOf) then s.reply 2 []
  else if cores.any fun x => (s.pair x).isNone || s.switches.any fun w => w.core == x then s.reply 1 []
  else
    let new : List Switch := (nubNat cores).filterMap fun x => (s.pair x).map fun p => ⟨x, p.2, s.now, false, false⟩
    let s : State := { s with switches := s.switches ++ new }
    s.reply 0 []

def execCtxsw (v : Versions) (cores : List Nat) (s : State) : Host.Outcome State Fault Refusal := s.call v (ctxswCall cores)

/-- The other context of a pair made active: operations of the one frozen, those of the other accepted again (R256). -/
def State.exchange (s : State) (core dest : Nat) : State :=
  let ofDest (bid : Nat) : Bool := match s.block? bid with
    | some b => b.ctx == dest
    | none => false
  let running (bid : Nat) : Bool := match s.block? bid with
    | some b => b.ctx == dest && b.phase != .saving
    | none => false
  let s := s.freezeOps core fun o => !ofDest o.bid
  let s : State := { s with
    active := Sparse.insert core dest s.active
    groups := s.groups.map fun g => if g.core = core ∧ !ofDest g.bid then { g with reserve := none } else g }
  s.thawOps core fun o => running o.bid

/-- Critical groups of the context that leaves a core, which its switch is deferred for. -/
def State.switchDeferred (s : State) (w : Switch) (leaving : Nat) : Bool :=
  s.defers leaving w.critx && s.blocks.any fun b =>
    b.core == w.core && b.ctx == leaving && b.phase != .saving && s.criticalIn b.bid

/-- SWITCH_COMPLETE: a core has exchanged, once no REJ draw of the leaving groups is in flight (R118); a slice's core then waits for
the slice to start. -/
def execSwitchComplete (core : Nat) (s : State) : Host.Outcome State Fault Refusal :=
  match s.switches.find? fun w => w.core == core, s.pair core with
  | some w, some (leaving, _) =>
    let mine (g : Group) : Bool := g.core == core && ((s.block? g.bid).map (·.ctx)) == some leaving
    if leaving = w.dest || s.switchDeferred w leaving || s.drawsOf mine || !s.coreRuns core then .next s
    else
      let s := s.exchange core w.dest
      .next { s with switches := if w.held then s.switches else s.switches.filter fun v => v.core != core }
  | _, _ => .next s

/-! Time slices across modules (R325, R326) -/

/-- Fabric time at the moment of an event (R309). -/
def State.fabricNow (s : State) : DWord := s.fabricTime + BitVec.ofNat 64 (s.now - s.cycle)

/-- Fabric time has come to a value: the 64-bit count is at it or less than half its range past it. -/
def State.fabricReached (s : State) (f : Nat) : Bool := decide ((s.fabricNow - BitVec.ofNat 64 f).toNat < 2 ^ 63)

/-- The module's cores (R2). -/
def moduleCores : List Nat := coresOf [0, 1, 2, 3]

/-- SLICE: switches from x to y begin on every core of the module, on each of which the pair is resident, y's groups held. -/
def sliceCall (x y start : Nat) (modules : List Nat) (s : State) : State :=
  match s.ctx? x, s.ctx? y with
  | some cx, some cy =>
    if s.haltedDies cx.dies then s.reply 2 []
    else if s.slice.isSome || cx.dies != cy.dies || !modules.contains s.dev.toNat ||
        moduleCores.any fun k => s.pair k != some (x, y) || s.switches.any fun w => w.core == k then s.reply 1 []
    else
      let new : List Switch := moduleCores.map fun k => ⟨k, y, s.now, false, true⟩
      let s : State := { s with slice := some ⟨x, y, start, modules, []⟩, switches := s.switches ++ new }
      s.reply 0 []
  | _, _ => s.reply 1 []

def execSlice (v : Versions) (x y start : Nat) (modules : List Nat) (s : State) : Host.Outcome State Fault Refusal :=
  s.call v (sliceCall x y start modules)

/-- Every core of this module has completed the slice's switch. -/
def State.sliceSwitched (s : State) (sl : Slice) : Bool :=
  (s.switches.filter fun w => w.held).all fun w => s.activeOn w.core sl.y

/-- MODULE_READY: a module's report; this one's own comes when its cores have switched. -/
def execModuleReady (module at_ : Nat) (s : State) : Host.Outcome State Fault Refusal :=
  match s.slice with
  | none => .next s
  | some sl =>
    if !sl.modules.contains module || (sl.ready.any fun r => r.1 == module) then .next s
    else if module = s.dev.toNat then
      if s.sliceSwitched sl then .next { s with slice := some { sl with ready := sl.ready ++ [(module, s.fabricNow.toNat)] } }
      else .next s
    else .next { s with slice := some { sl with ready := sl.ready ++ [(module, at_)] } }

def State.sliceLimit (s : State) (sl : Slice) : Nat := sl.start + ((s.ctx? sl.y).map (·.ctl.grace.toNat)).getD 0

/-- SLICE_START: at fabric time S the second context's groups may issue. -/
def execSliceStart (s : State) : Host.Outcome State Fault Refusal :=
  match s.slice with
  | none => .next s
  | some sl =>
    match sl.startAt with
    | some t =>
      if decide (t ≤ s.sliceLimit sl) && s.fabricReached t then
        .next { s with slice := none, switches := s.switches.filter fun w => !w.held }
      else .next s
    | none => .next s

/-- SLICEX: the slice is abandoned; every core that runs goes back to the first context, and both logs have a record. -/
def execSlicex (s : State) : Host.Outcome State Fault Refusal :=
  match s.slice with
  | none => .next s
  | some sl =>
    let lost := match sl.startAt with
      | some t => decide (s.sliceLimit sl < t)
      | none => true
    if !lost || !s.fabricReached (s.sliceLimit sl) then .next s
    else
      let held := s.switches.filter fun w => w.held
      let s := held.foldl (fun s w => if s.activeOn w.core sl.y && s.coreRuns w.core then s.exchange w.core sl.x else s) s
      let note (s : State) (ctx : Nat) : State :=
        s.log ctx 0x07 0 0 0 { noName with ctx := ctx } allOnes32
          (sl.start % 2 ^ 64)
      .next (note (note { s with slice := none, switches := s.switches.filter fun w => !w.held } sl.x) sl.y)

end Sys2Proof.Machine
end

