-- ==== Sys2Proof/Machine/Firmware.lean ====
section
/-! DEFINITION. The firmware calls that make and destroy contexts, launch grids and read stop records, the reset of a halted
partition, and the consumption of log records (R297, R302, R347, R348). -/

namespace Sys2Proof.Machine

open Sys2Proof

/-! Creating contexts (R302, R347) -/

/-- A set of compute dies in ascending order. -/
def orderDies (dies : List Nat) : List Nat := (List.range 4).filter fun d => dies.contains d

/-- Distinct compute dies, 1, 2 or 4 of them (R294), that are a partition already or lie in none. -/
def State.partitionable (s : State) (dies : List Nat) : Bool :=
  let ds := orderDies dies
  ds.length == dies.length && [1, 2, 4].contains ds.length && s.parts.all fun p => p.dies == ds || p.dies.all fun d => !ds.contains d

/-- A context that shares a core with one of slot `slot` and split `split`, and keeps it out (R302). -/
def Ctx.clashes (c : Ctx) (slot : Nat) (split : BitVec 2) : Bool :=
  c.slot == slot || c.ctl.split != split || c.ctl.split == 0 || split == 0

/-- The part of a scratchpad that contexts share (R174). -/
def contextRegion : Nat := 176 * 2 ^ 20
def frameSize : Nat := 4096

/-- A power of two from 2^lo to 2^hi. -/
def powerOfTwo (lo hi n : Nat) : Bool := (List.range (hi + 1)).any fun k => decide (lo ≤ k) && n == 2 ^ k

/-- No element of a list stands in it twice. -/
def distinct {α : Type} [BEq α] : List α → Bool
  | [] => true
  | x :: rest => !rest.contains x && distinct rest

/-- A communicator as R310 wants it: 1 to 4,096 ranks, no die twice. -/
def Comm.legal (m : Comm) : Bool := decide (1 ≤ m.ranks.length ∧ m.ranks.length ≤ 4096) && distinct m.ranks

/-- The arguments of CTXNEW that break a rule whatever the other contexts are. -/
def badNewCtx (n : NewCtx) : Bool :=
  decide (allOnes32 ≤ n.no ∨ 1 < n.slot ∨ 4 < n.breaks.length) || n.ctl.hentry.extractLsb' 0 2 != 0 ||
    !powerOfTwo 6 20 n.logCap || decide (contextRegion < n.scBase + n.scSize) || !n.comms.all Comm.legal ||
    !distinct (n.comms.map (·.no))

/-- The contexts that share a die with some dies. -/
def State.sharing (s : State) (dies : List Nat) : List Ctx := s.ctxs.filter fun c => c.dies.any fun d => dies.contains d

/-- A region of .sc that overlaps another context's. -/
def Ctx.overlaps (c : Ctx) (base size : Nat) : Bool := decide (c.scBase < base + size ∧ base < c.scBase + c.scSize)

/-- A region and a frame pool for which the context regions of a die have no room beside the others (R174). -/
def newCtxTooBig (n : NewCtx) (others : List Ctx) : Bool :=
  decide (contextRegion < n.scSize + frameSize * n.frames + (others.map fun c => c.scSize + frameSize * c.frames).sum)

/-- A region zeroed on its dies (R173). -/
def State.zeroRegion (s : State) (dies : List Nat) (base size : Nat) : State :=
  let inside (a : Nat) : Bool := dies.any fun d => decide (d * 2 ^ 28 + base ≤ a ∧ a < d * 2 ^ 28 + base + size)
  { s with scratch := s.scratch.filter fun e => !inside e.1, scw := s.scw.filter fun w => !inside w.addr }

/-- A context active at once on the cores where no other is resident (R303). -/
def State.activate (s : State) (dies : List Nat) (no : Nat) : State :=
  (coresOf dies).foldl (fun s k =>
    if s.active.any fun e => e.1 == k then s else { s with active := Sparse.insert k no s.active }) s

/-- CTXNEW. -/
def ctxnewCall (n : NewCtx) (s : State) : State :=
  let dies := orderDies n.dies
  let others := s.sharing dies
  if s.haltedDies dies then s.reply 2 []
  else if !s.partitionable n.dies then s.reply 1 []
  else if badNewCtx n || (s.ctx? n.no).isSome then s.reply 1 []
  else if others.any fun c => c.clashes n.slot n.ctl.split || c.overlaps n.scBase n.scSize then s.reply 1 []
  else if newCtxTooBig n others then s.reply 4 []
  else
    let parts : List Part := if s.parts.any fun p => p.dies == dies then s.parts else s.parts ++ [Part.fresh dies]
    let s := s.zeroRegion dies n.scBase n.scSize
    let s : State := { s with parts := parts, ctxs := s.ctxs ++ [Ctx.create { n with dies := dies }] }
    (s.activate dies n.no).reply 0 []

def execCtxnew (v : Versions) (n : NewCtx) (s : State) : Host.Outcome State Fault Refusal := s.call v (ctxnewCall n)

/-! Destroying contexts (R347, R348) -/

/-- Everything that belongs to some contexts discarded. -/
def State.discard (s : State) (gone : Nat → Bool) : State :=
  let bids := (s.blocks.filter fun b => gone b.ctx).map (·.bid)
  let gids := (s.groups.filter fun g => bids.contains g.bid).map (·.gid)
  { s with
    turn := s.turn.filter fun t => !gids.contains t.gid
    refuse := s.refuse.filter fun r => !bids.contains r.1
    ctxs := s.ctxs.filter fun c => !gone c.no
    active := s.active.filter fun e => !gone e.2
    grids := s.grids.filter fun g => !gone g.ctx
    blocks := s.blocks.filter fun b => !gone b.ctx
    groups := s.groups.filter fun g => !bids.contains g.bid
    results := s.results.filter fun r => !gids.contains r.gid
    scw := s.scw.filter fun w => !bids.contains w.bid
    broken := s.broken.filter fun b => !gone b.ctx
    appends := s.appends.filter fun a => !gone a.tile.ctx
    windows := s.windows.filter fun w => !gone w.ctx
    wbacks := s.wbacks.filter fun w => !gone w.tile.ctx
    faults := s.faults.filter fun f => !gone f.ctx
    replay := s.replay.filter fun r => !gone r.ctx
    churn := s.churn.filter fun o => !bids.contains o.bid
    frozen := s.frozen.filter fun o => !bids.contains o.bid
    drains := s.drains.filter fun d => !gone d.ctx
    cards := s.cards.filter fun k => !gone k.ctx
    contribs := s.contribs.filter fun e => !gone e.ctx
    spawnQ := s.spawnQ.filter fun q => !bids.contains q.2.bid
    openG := s.openG.filter fun o => !bids.contains o.bid
    sealedG := s.sealedG.filter fun o => !bids.contains o.bid
    prereqs := s.prereqs.filter fun r => !gone r.ctx
    images := s.images.filter fun m => !gone m.block.ctx
    slice := s.slice.filter fun sl => !gone sl.x && !gone sl.y }

/-- A core whose active context is gone runs the one still resident (R303). -/
def State.succeed (s : State) (dies : List Nat) : State :=
  (coresOf dies).foldl (fun s k =>
    match s.residents k with
    | [c] => if s.active.any fun e => e.1 == k then s else s.exchange k c.no
    | _ => s) s

/-- CTXFREE: refused while a grid of the context has not retired. -/
def ctxfreeCall (no : Nat) (s : State) : State :=
  match s.ctx? no with
  | none => s.reply 1 []
  | some c =>
    if s.haltedDies c.dies then s.reply 2 []
    else if s.grids.any fun g => g.ctx == no then s.reply 1 []
    else
      let s := s.zeroRegion c.dies c.scBase c.scSize
      let s := s.discard fun x => x == no
      let s : State := { s with
        switches := s.switches.filter fun w => !c.dies.contains (dieOf w.core)
        parts := s.parts.filter fun p => p.dies != c.dies || s.ctxs.any fun x => x.dies == p.dies }
      (s.succeed c.dies).reply 0 []

def execCtxfree (v : Versions) (ctx : Nat) (s : State) : Host.Outcome State Fault Refusal := s.call v (ctxfreeCall ctx)

/-! Launching (R148, R166, R167) -/

/-- GRIDRUN: the descriptor lies in the region's copy on die `die`; `named` tells whether the call names that die for the
grid's blocks. -/
def gridrunCall (ctx die : Nat) (named : Bool) (desc : Nat) (proc thread : Word) (s : State) : State :=
  match s.ctx? ctx with
  | none => s.reply 1 []
  | some c =>
    if s.haltedDies c.dies then s.reply 2 []
    else if !c.dies.contains die || !descPlaced c desc then s.reply 1 []
    else
      let at_ := scratchKey c die desc
      let (d, bad) := readDesc (s.scratch.readN at_ 64)
      let dies := if named then [die] else c.dies
      if bad || tooLarge d c || decide (c.scSize < desc + 64 + 4 * d.nparam) then s.reply 1 []
      else if s.gridLimit dies then s.reply 4 []
      else
        let params := wordsFrom (s.scratch.readList (at_ + 64) (4 * d.nparam)) d.nparam
        let (num, s) := s.makeGrid ctx d params 0 (coresOf dies) 0 none proc thread
        s.reply 0 [num.toNat]

def execGridrun (v : Versions) (ctx die : Nat) (named : Bool) (desc : Nat) (proc thread : Word) (s : State) :
    Host.Outcome State Fault Refusal :=
  s.call v (gridrunCall ctx die named desc proc thread)

/-! Halted partitions (R295, R296, R348) -/

/-- STOPREAD: the stop records of a halted partition. -/
def stopreadCall (dies : List Nat) (s : State) : State :=
  match s.parts.find? fun p => p.dies == orderDies dies && p.halted.isSome with
  | none => s.reply 1 []
  | some p =>
    let s : State := { s with replies := s.replies ++ [⟨0, [], p.recs⟩] }
    s.setPart { p with read := true }

def execStopread (v : Versions) (dies : List Nat) (s : State) : Host.Outcome State Fault Refusal := s.call v (stopreadCall dies)

/-- PARTITION_RESET: a halted partition whose records have been read; its dies are gated and ungated and its contexts
discarded. -/
def execPartitionReset (dies : List Nat) (s : State) : Host.Outcome State Fault Refusal :=
  match s.parts.find? fun p => p.dies == orderDies dies && p.halted.isSome && p.read with
  | none => .next s
  | some p =>
    if !s.booted then .next s
    else
      let nos := (s.ctxs.filter fun c => c.dies == p.dies).map (·.no)
      let s := p.dies.foldl (fun s d => if s.gatedDies.contains d then s else s.loseTrace d) s
      let s := s.discard fun x => nos.contains x
      .next { s with
        switches := s.switches.filter fun w => !p.dies.contains (dieOf w.core)
        gatedDies := s.gatedDies.filter fun d => !p.dies.contains d
        gatedClusters := s.gatedClusters.filter fun k => !p.dies.contains (k / 20)
        gatings := s.gatings.filter fun g => !p.dies.contains (g.1 / 20)
        parts := s.parts.filter fun q => q.dies != p.dies }

/-! The log (R297) -/

/-- LOG_RECORD_CONSUMED: the oldest records of a context's log leave it. -/
def execLogRecordConsumed (ctx n : Nat) (s : State) : Host.Outcome State Fault Refusal :=
  .next (s.modCtx ctx fun c => { c with log := c.log.drop n })

end Sys2Proof.Machine
end

