-- ==== Sys2Proof/Machine/Observe.lean ====
section
/-! DEFINITION. Traces and gatings, counters, energy weights, sampling (R351 to R355, R357). -/

namespace Sys2Proof.Machine

open Sys2Proof

/-! Trace (R351 to R353) -/

/-- A call that changes one context. -/
def State.ctxCall (s : State) (ctx : Nat) (f : Ctx → Ctx) : State :=
  match s.ctx? ctx with
  | none => s.reply 1 []
  | some c => if s.haltedDies c.dies then s.reply 2 [] else (s.setCtx (f c)).reply 0 []

/-- TRACECTL: bit k − 1 of `kinds` traces kind k. -/
def execTracectl (v : Versions) (ctx : Nat) (kinds : Byte) (s : State) : Host.Outcome State Fault Refusal :=
  s.call v fun s => s.ctxCall ctx fun c => { c with kinds := kinds }

/-- A cluster's buffer drained as far as the ring has room; a gating that waited for it is done. The records of the cycle that is
under way stay: others may still come among them in their order (R352). -/
def State.drainTrace (s : State) (cluster : Nat) : State :=
  let buf := Sparse.get [] s.trace cluster
  let n := min (buf.takeWhile fun r => decide (traceCycle r < s.now)).length (Config.traceRing - s.ring.length)
  let left := buf.drop n
  { s with
    trace := Sparse.put [] s.trace cluster left
    ring := s.ring ++ buf.take n
    gatings := if left.isEmpty then s.gatings.filter fun g => g.1 != cluster else s.gatings }

/-- The clusters of the module: 20 to a die (R2). -/
def clusterCount : Nat := 80

/-- TRACE_DRAIN. -/
def execTraceDrain (cluster : Nat) (s : State) : Host.Outcome State Fault Refusal :=
  .next (if cluster < clusterCount then s.drainTrace cluster else s)

/-- The cycles a gating waits for the buffer (R353). -/
def gatingWait : Nat := 25000

/-- CLUSTER_GATING: the units stop, the gating record is written, and the wait for the buffer begins. -/
def execClusterGating (cluster : Nat) (s : State) : Host.Outcome State Fault Refusal :=
  if clusterCount ≤ cluster || s.gatedDies.contains (cluster / 20) || s.gatedClusters.contains cluster then .next s
  else
    let s := s.putTrace cluster (traceRecord s 7 0x3FF cluster 0 noName allOnes32 0 0) (gapRecordOf s cluster)
    .next { s with gatedClusters := s.gatedClusters ++ [cluster], gatings := s.gatings ++ [(cluster, s.now + gatingWait)] }

/-- GATING_DRAIN_TIMEOUT: the cluster is gated; what is still in its buffer is lost and counted. -/
def execGatingDrainTimeout (cluster : Nat) (s : State) : Host.Outcome State Fault Refusal :=
  match s.gatings.find? fun g => g.1 == cluster with
  | none => .next s
  | some g =>
    if s.now < g.2 then .next s
    else
      let n := (Sparse.get [] s.trace cluster).length
      .next { s with
        trace := Sparse.put [] s.trace cluster []
        loss := Sparse.put 0 s.loss cluster (min allOnes32 (Sparse.get 0 s.loss cluster + n))
        gatings := s.gatings.filter fun g => g.1 != cluster }

/-- The gap record of a cluster with a loss and room in its buffer. -/
def State.writeGap (s : State) (cluster : Nat) : State :=
  let buf := Sparse.get [] s.trace cluster
  if Sparse.get 0 s.loss cluster ≠ 0 ∧ buf.length < traceCap then
    { s with trace := Sparse.put [] s.trace cluster (buf ++ [gapRecordOf s cluster]), loss := Sparse.put 0 s.loss cluster 0 }
  else s

/-- GAP_RECORD: a gated cluster powers up, and a cluster that has lost records and has room says so. -/
def execGapRecord (cluster : Nat) (s : State) : Host.Outcome State Fault Refusal :=
  if clusterCount ≤ cluster || s.gatedDies.contains (cluster / 20) || s.gatings.any fun g => g.1 == cluster then .next s
  else .next ({ s with gatedClusters := s.gatedClusters.filter fun k => k != cluster }.writeGap cluster)

/-! Counters (R354) -/

/-- The cycles from a PERFRD to its snapshot are at least these. -/
def snapshotDelay : Nat := 1250

/-- Counters of a die's cores before any event is named. -/
def perfFresh (die : Nat) : Perf := ⟨die, 0, none, 0, 0, []⟩

/-- PERFRD: the snapshot comes `after` cycles later, 1,250 at the least. A core has one counter, in whatever partition its die is. -/
def perfrdCall (event : Nat) (ctx : Option Nat) (dies : List Nat) (after : Nat) (s : State) : State :=
  let ds := orderDies dies
  if event < 1 ∨ 0x0D < event then s.reply 1 []
  else if !(s.parts.any fun p => p.dies == ds) || (match ctx with | some n => (s.ctx? n).isNone | none => false) then s.reply 1 []
  else if s.haltedDies ds then s.reply 2 []
  else
    { s with
      perfs := s.perfs ++ (ds.filter fun d => !(s.perfs.any fun p => p.die == d)).map perfFresh
      snaps := s.snaps ++ [⟨s.now + max after snapshotDelay, event, ctx, ds⟩] }

def execPerfrd (v : Versions) (event : Nat) (ctx : Option Nat) (dies : List Nat) (after : Nat) (s : State) :
    Host.Outcome State Fault Refusal :=
  s.call v (perfrdCall event ctx dies after)

/-- A core's counter. -/
def State.counter (s : State) (core : Nat) : Nat :=
  match s.perfs.find? fun p => p.die == dieOf core with
  | some p => (Sparse.get 0 p.count core).toNat
  | none => 0

/-- The reduction of a partition's counts: sum, minimum, maximum, and the lowest cores that hold the two. -/
def State.reduceCounts (s : State) (dies : List Nat) : List Nat :=
  let cores := coresOf dies
  let at_ := s.counter
  let least := cores.foldl (fun m k => if at_ k < at_ m then k else m) (cores.headD 0)
  let most := cores.foldl (fun m k => if at_ m < at_ k then k else m) (cores.headD 0)
  [(cores.map at_).sum % 2 ^ 64, at_ least, at_ most, least, most]

/-- The counters of a die as a snapshot leaves them: an event or a context that is new on any die of the partition clears all of its
counters, which then count from the next cycle. -/
def Snap.renew (c : Snap) (perfs : List Perf) (now : Nat) (p : Perf) : Perf :=
  let new := perfs.any fun q => c.dies.contains q.die && (q.event != c.event || q.ctx != c.ctx)
  if new && c.dies.contains p.die then ⟨p.die, c.event, c.ctx, now, now, []⟩ else p

/-- PERF_SNAPSHOT: the counts are latched, and a newly named event or context clears them. -/
def execPerfSnapshot (s : State) : Host.Outcome State Fault Refusal :=
  let s := s.accrue s.now
  match s.snaps.find? fun c => decide (c.at_ ≤ s.now) with
  | none => .next s
  | some c =>
    let t : State := { s with perfs := s.perfs.map (c.renew s.perfs s.now), snaps := s.snaps.erase c }
    .next (t.reply 0 (s.reduceCounts c.dies ++ [c.at_]))

/-! Energy weights and sampling (R355, R357) -/

/-- EWSET. -/
def execEwset (v : Versions) (weights : List Byte) (s : State) : Host.Outcome State Fault Refusal :=
  s.call v fun s => if weights.length = 9 then { s with weights := weights }.reply 0 [] else s.reply 1 []

/-- SMPLCTL: a power of two from 2^8 to 2^20, or 0 for off; each core counts afresh. -/
def execSmplctl (v : Versions) (ctx interval : Nat) (s : State) : Host.Outcome State Fault Refusal :=
  s.call v fun s =>
    if interval != 0 && !powerOfTwo 8 20 interval then s.reply 1 []
    else s.ctxCall ctx fun c => { c with smplN := interval, smplCtr := [] }

end Sys2Proof.Machine
end

