-- ==== Sys2Proof/Machine/Boot.lean ====
section
/-! DEFINITION. The system die: boot and the safe state, signed images, management and attestation, links (R308, R309,
R341 to R346, R349). -/

namespace Sys2Proof.Machine

open Sys2Proof

/-! Signed images (R344) -/

/-- A field of an image's header. -/
def imageField (m : Image) (lo n : Nat) : Nat := m.header.toNat / 2 ^ lo % 2 ^ n


/-- What an image's digest covers: header, key block and body. -/
def imageCover (m : Image) : List Byte := bytesOf 64 m.header.toNat ++ m.key ++ m.body

/-- An image is accepted as one of a kind, under a minimum SVN. -/
def imageAccepted (kind minSvn : Nat) (m : Image) : Bool :=
  imageField m 504 8 == 1 && imageField m 488 8 == kind && imageField m 480 8 == 0 && imageField m 0 416 == 0 &&
    imageField m 416 32 == m.body.length && m.body.length % 256 == 0 && m.key.length == 1312 && m.sig.length == 2420 &&
    decide (minSvn ≤ imageField m 448 32) && sha3 m.key == Config.fusedKeyDigest &&
    mldsaVerify m.key (sha3 (imageCover m)) m.sig

/-- The minimum SVN: fused, and raised by policies; nothing lowers it. -/
def State.minSvn (s : State) : Nat := max Config.fusedSvn s.svnRaised

/-- An accepted image measured in load order (R345). -/
def State.measure (s : State) (m : Image) : State := { s with measured := s.measured ++ [sha3 (imageCover m)] }

/-- A root port as it is enabled at boot (R341): one link, or bifurcated into two or four, at generation 6 or the lower one that
its partner supports. Log entry 84. -/
def rootPortOf (b : BootInput) (p : Nat) : RootPort :=
  let at_ (l : List (Nat × Nat)) : Option Nat := (l.find? fun e => e.1 == p).map (·.2)
  let links := (at_ b.bifurcation).getD 1
  ⟨p, if links = 2 ∨ links = 4 then links else 1, min 6 (max 1 ((at_ b.partners).getD 6))⟩

/-- A signed policy: when accepted it raises the minimum SVN and enables the root ports it lists (R344, R346). -/
def State.applyPolicy (b : BootInput) (s : State) (m : Image) : State :=
  if imageAccepted 4 s.minSvn m then
    let s := s.measure m
    let ports := (nubNat (Config.policyRootPorts m.body)).filter fun p =>
      decide (p < 4) && !(s.rootPorts.any fun q => q.port == p)
    { s with
      svnRaised := max s.svnRaised (Config.policySvn m.body)
      rootPorts := s.rootPorts ++ ports.map (rootPortOf b) }
  else s

/-! Boot (R342) -/

/-- Stage 4 begins: the compute dies have power, and refresh runs from then on (R346). -/
def State.startDies (s : State) : State := { s with boot := { s.boot with refresh := true }, gatedDies := [] }

/-- The compute dies' links trained. -/
def State.trainDies (s : State) : State :=
  { s with links := s.links.map fun l => match l.link with
      | .port _ => l
      | _ => { l with up := true } }

/-- A fabric port trained: with a version in common it is up, else it stays down and is logged (R349). -/
def State.trainPort (s : State) (e : Nat × Versions) : State :=
  match agreed e.2 with
  | some (_, minor) =>
    { s with links := s.links.map fun l => if l.link = .port e.1 then { l with up := true, minor := minor } else l }
  | none => { s with linkLog := s.linkLog ++ [.port e.1] }

/-- A fabric port is up. -/
def State.portUp (s : State) : Bool :=
  s.links.any fun l => l.up && match l.link with | .port _ => true | _ => false

/-- One stage; the state of the next, or the safe state. -/
def bootStage (b : BootInput) (s : State) : State :=
  let pass (s : State) : State := { s with boot := { s.boot with stage := s.boot.stage + 1 } }
  match s.boot.stage with
  | 1 =>
    if imageAccepted 1 s.minSvn b.slotA then pass (s.measure b.slotA)
    else if imageAccepted 1 s.minSvn b.slotB then pass (s.measure b.slotB)
    else s.safeState 0
  | 2 =>
    if !imageAccepted 2 s.minSvn b.firmware then s.safeState 0
    else
      let s := s.measure b.firmware
      if !imageAccepted 3 s.minSvn b.microcode then s.safeState 0
      else pass (b.policies.foldl (fun s m => s.applyPolicy b m) (s.measure b.microcode))
  | 3 =>
    match b.selfTestFails with
    | some u => State.safeState { s with boot := { s.boot with record := [u] } } u
    | none => pass s
  | 4 =>
    let s := s.startDies
    match b.linksFail with
    | some u => s.safeState u
    -- without a record format in common with the firmware the compute dies can write no record. Log entry 82
    | none => if (agreed b.formats).isNone then s.safeState 0 else pass s.trainDies
  | _ =>
    let s := b.portsTrained.foldl (fun s e => if e.1 < 18 then s.trainPort e else s) s
    pass { s with dev := if s.portUp then b.moduleNo else 0 }

/-- The next boot stage, if boot is under way. -/
def State.bootNext (s : State) : Option State :=
  match s.boot.input, s.boot.safe with
  | some b, none => if s.boot.stage ≤ 5 then some (bootStage b s) else none
  | _, _ => none

/-- MODULE_RESET: everything as after reset, but for what the module keeps: the minimum SVN, which nothing lowers,
refresh, which runs until power is removed, what the outside has been answered, and memory's contents. -/
def execModuleReset (b : BootInput) (s : State) : Host.Outcome State Fault Refusal :=
  .next { State.reset with
    boot := ⟨1, some b, none, [], s.boot.refresh⟩
    agenda := s.agenda
    fills := s.fills
    nextId := s.nextId
    svnRaised := s.svnRaised
    replies := s.replies
    mctp := s.mctp
    reports := s.reports
    dram := s.dram
    scratch := s.scratch }

/-- SUPPLY_FAULT: during any stage it leads to the safe state. -/
def execSupplyFault (s : State) : Host.Outcome State Fault Refusal :=
  .next (if s.booted || s.boot.safe.isSome then s else s.safeState 0)

/-! Management and attestation (R343, R345) -/

/-- A link's place among the module's, as a log answer names it. -/
def linkNumber (l : Link) : Nat := allLinks.findIdx fun x => x == l

/-- MCTP_QUERY, in every state: the stage and, in the safe state, the failing stage and unit; a log query gets the self-test
record and the links that were logged. -/
def execMctpQuery (log : Bool) (s : State) : Host.Outcome State Fault Refusal :=
  let safe := match s.boot.safe with
    | some (stage, unit) => [1, stage, unit]
    | none => [0, 0, 0]
  let answer := if log then s.boot.record ++ s.linkLog.map linkNumber else s.boot.stage :: safe ++ s.boot.record
  .next { s with mctp := s.mctp ++ [answer] }

/-- The report for a nonce, before its signature. -/
def State.reportBody (s : State) (nonce : List Byte) : List Byte :=
  nonce ++ s.measured.flatten ++ bytesOf 4 s.minSvn ++ Config.identityCert

/-- The device identity key (R345). -/
def deviceKey : DsaKey := mldsaKey (bytesOfNat 32 Config.deviceSeed.toNat)

/-- The signature of the n-th report. -/
def reportSignature (n : Nat) (body : List Byte) : List Byte :=
  mldsaSign deviceKey (bytesOfNat 32 (Config.signRandom n).toNat) body

/-- ATTESTATION_REQUEST: SD answers with a signed report, whatever it is doing, on what it has measured so far. -/
def execAttestationRequest (nonce : List Byte) (s : State) : Host.Outcome State Fault Refusal :=
  if nonce.length == 32 then
    let body := s.reportBody nonce
    .next { s with reports := s.reports ++ [body ++ reportSignature s.reports.length body] }
  else .next s

/-! Links (R308, R349) -/

/-- A link changed where it stands. -/
def State.modLink (s : State) (l : Link) (f : LinkState → LinkState) : State :=
  { s with links := s.links.map fun x => if x.link = l then f x else x }

/-- LINK_PACKET: a packet that is new, or that a grant has called for again, is accepted or rejected. -/
def execLinkPacket (l : Link) (pkt : Nat) (accept : Bool) (s : State) : Host.Outcome State Fault Refusal :=
  .next (s.modLink l fun x =>
    if !x.up || x.waiting.any fun w => w.1 == pkt && !w.2 then x
    else
      let rest := x.waiting.filter fun w => w.1 != pkt
      { x with waiting := if accept then rest else rest ++ [(pkt, false)] })

/-- RESERVATION_GRANT: a rejected packet may be sent again. -/
def execReservationGrant (l : Link) (pkt : Nat) (s : State) : Host.Outcome State Fault Refusal :=
  .next (s.modLink l fun x => { x with waiting := x.waiting.map fun w => if w.1 = pkt then (w.1, true) else w })

/-- LINK_DOWN: the link's retries have failed; operations in flight that may use it have lost it (R315). -/
def execLinkDown (l : Link) (s : State) : Host.Outcome State Fault Refusal :=
  let s := s.modLink l fun x => { x with up := false, waiting := [] }
  .next { s with broken := s.broken ++ s.inFlight.filterMap (s.cut l) }

/-- LINK_RETRAIN: SD trains a link that is down; without a common version it stays down and is logged. -/
def execLinkRetrain (l : Link) (peer : Versions) (s : State) : Host.Outcome State Fault Refusal :=
  if !s.booted || !(s.links.any fun x => x.link == l && !x.up) then .next s
  else match agreed peer with
    | some (_, minor) => .next (s.modLink l fun x => { x with up := true, minor := minor })
    | none => .next { s with linkLog := s.linkLog ++ [l] }

end Sys2Proof.Machine
end

