-- ==== Sys2Proof/Machine/Internal.lean ====
section
/-! DEFINITION. What the module does of itself between turns: the next boot stage (R342), or the decisions of a pre-emption
whose deferral has ended (R299). -/

namespace Sys2Proof.Machine

def State.internal (s : State) : Option State :=
  match s.bootNext with
  | some t => some t
  | none => s.decide?

end Sys2Proof.Machine
end

