-- ==== Sys2Proof/Machine/Bits.lean ====
section
/-! DEFINITION. Logic, bits, moves, shifts, fields, byte selection and address arithmetic (R78 to R82, R84). -/

namespace Sys2Proof.Machine

open Sys2Proof

/-- A result of 64 bits, or of 32 (R71). -/
def clip (ty : Ty) (x : DWord) : DWord := if ty.wide then x else (x.extractLsb' 0 32).zeroExtend 64

def execAnd (w : W) (m : IntMod) : State → Host.Outcome State Fault Refusal :=
  issueAlu (w.fields 0x30 m.bits) fun a b _ => (clip m.ty (a &&& b), 0)
def execOr (w : W) (m : IntMod) : State → Host.Outcome State Fault Refusal :=
  issueAlu (w.fields 0x31 m.bits) fun a b _ => (clip m.ty (a ||| b), 0)
def execXor (w : W) (m : IntMod) : State → Host.Outcome State Fault Refusal :=
  issueAlu (w.fields 0x32 m.bits) fun a b _ => (clip m.ty (a ^^^ b), 0)
def execNot (w : W) (m : IntMod) : State → Host.Outcome State Fault Refusal :=
  issueAlu (w.fields 0x33 m.bits) fun a _ _ => (clip m.ty (~~~a), 0)
def execAndn (w : W) (m : IntMod) : State → Host.Outcome State Fault Refusal :=
  issueAlu (w.fields 0x34 m.bits) fun a b _ => (clip m.ty (a &&& ~~~b), 0)

/-- Shifts and rotations by an unsigned 32-bit amount (R79). -/
def shiftLeft (ty : Ty) (a b : DWord) : DWord :=
  let n := (b.extractLsb' 0 32).toNat
  if tyWidth ty ≤ n then 0 else clip ty (a <<< n)
def shiftRight (ty : Ty) (a b : DWord) : DWord :=
  let n := (b.extractLsb' 0 32).toNat
  if tyWidth ty ≤ n then 0 else (clip ty a) >>> n
def shiftArith (ty : Ty) (a b : DWord) : DWord :=
  let n := min ((b.extractLsb' 0 32).toNat) (tyWidth ty)
  let x : Int := if ty.wide then a.toInt else (a.extractLsb' 0 32).toInt
  clip ty (BitVec.ofInt 64 (x / (2 ^ n : Nat)))
def rotate (ty : Ty) (left : Bool) (a b : DWord) : DWord :=
  let n := (b.extractLsb' 0 32).toNat % tyWidth ty
  if ty.wide then (if left then a.rotateLeft n else a.rotateRight n)
  else
    let x := a.extractLsb' 0 32
    (if left then x.rotateLeft n else x.rotateRight n).zeroExtend 64

def execShl (w : W) (m : IntMod) : State → Host.Outcome State Fault Refusal :=
  issueAlu (w.fields 0x35 m.bits) fun a b _ => (shiftLeft m.ty a b, 0)
def execShr (w : W) (m : IntMod) : State → Host.Outcome State Fault Refusal :=
  issueAlu (w.fields 0x36 m.bits) fun a b _ => (shiftRight m.ty a b, 0)
def execSar (w : W) (m : IntMod) : State → Host.Outcome State Fault Refusal :=
  issueAlu (w.fields 0x37 m.bits) fun a b _ => (shiftArith m.ty a b, 0)
def execRol (w : W) (m : IntMod) : State → Host.Outcome State Fault Refusal :=
  issueAlu (w.fields 0x38 m.bits) fun a b _ => (rotate m.ty true a b, 0)
def execRor (w : W) (m : IntMod) : State → Host.Outcome State Fault Refusal :=
  issueAlu (w.fields 0x39 m.bits) fun a b _ => (rotate m.ty false a b, 0)

/-- The value of an operand's w bits. -/
def clippedNat (ty : Ty) (a : DWord) : Nat := (clip ty a).toNat

def countLeading (ty : Ty) (a : DWord) : Nat :=
  if clippedNat ty a = 0 then tyWidth ty else tyWidth ty - 1 - Nat.log2 (clippedNat ty a)
def findFirst (ty : Ty) (a : DWord) : Nat :=
  ((List.range (tyWidth ty)).find? fun i => (clippedNat ty a).testBit i).getD (tyWidth ty)
def reverseBits (ty : Ty) (a : DWord) : DWord :=
  BitVec.ofNat 64 ((List.range (tyWidth ty)).foldl (fun n i => 2 * n + (if (clippedNat ty a).testBit i then 1 else 0)) 0)
def swapBytes (ty : Ty) (a : DWord) : DWord :=
  BitVec.ofNat 64 ((List.range (tyWidth ty / 8)).foldl (fun n i => 256 * n + clippedNat ty a / 2 ^ (8 * i) % 256) 0)

def execPopc (w : W) (m : IntMod) : State → Host.Outcome State Fault Refusal :=
  issueAlu (w.fields 0x3A m.bits) fun a _ _ => (BitVec.ofNat 64 (popCount (clippedNat m.ty a) (tyWidth m.ty)), 0)
def execClz (w : W) (m : IntMod) : State → Host.Outcome State Fault Refusal :=
  issueAlu (w.fields 0x3B m.bits) fun a _ _ => (BitVec.ofNat 64 (countLeading m.ty a), 0)
def execBrev (w : W) (m : IntMod) : State → Host.Outcome State Fault Refusal :=
  issueAlu (w.fields 0x3C m.bits) fun a _ _ => (reverseBits m.ty a, 0)
def execFfs (w : W) (m : IntMod) : State → Host.Outcome State Fault Refusal :=
  issueAlu (w.fields 0x43 m.bits) fun a _ _ => (BitVec.ofNat 64 (findFirst m.ty a), 0)
def execBswap (w : W) (m : IntMod) : State → Host.Outcome State Fault Refusal :=
  issueAlu (w.fields 0x47 m.bits) fun a _ _ => (swapBytes m.ty a, 0)
def execMov (w : W) (m : IntMod) : State → Host.Outcome State Fault Refusal :=
  issueAlu (w.fields 0x41 m.bits) fun a _ _ => (clip m.ty a, 0)
def execPack (w : W) (m : IntMod) : State → Host.Outcome State Fault Refusal :=
  issueAlu (w.fields 0x42 m.bits) fun a b _ =>
    (if m.ty.wide then b.extractLsb' 0 32 ++ a.extractLsb' 0 32
     else (b.extractLsb' 0 16 ++ a.extractLsb' 0 16).zeroExtend 64, 0)

/-- Position and length of a control word (R80). -/
def fieldPos (ctl : DWord) : Nat := (ctl.extractLsb' 0 8).toNat
def fieldLen (ctl : DWord) : Nat := (ctl.extractLsb' 8 8).toNat

def extractField (ty : Ty) (a ctl : DWord) : DWord :=
  let pos := fieldPos ctl
  let hi := min (pos + fieldLen ctl) (tyWidth ty)
  if fieldLen ctl = 0 ∨ tyWidth ty ≤ pos then 0
  else
    let n := hi - pos
    let f := clippedNat ty a / 2 ^ pos % 2 ^ n
    let x : Int := if tySigned ty && f.testBit (n - 1) then (f : Int) - (2 ^ n : Nat) else f
    clip ty (BitVec.ofInt 64 x)

def insertField (ty : Ty) (a b ctl : DWord) : DWord :=
  let pos := fieldPos ctl
  let hi := min (pos + fieldLen ctl) (tyWidth ty)
  if fieldLen ctl = 0 ∨ tyWidth ty ≤ pos then clip ty b
  else
    let n := hi - pos
    let base := clippedNat ty b
    BitVec.ofNat 64 (base / 2 ^ hi * 2 ^ hi + clippedNat ty a % 2 ^ n * 2 ^ pos + base % 2 ^ pos)

def execBfe (w : W) (m : IntMod) : State → Host.Outcome State Fault Refusal :=
  issueAlu (w.fields 0x3D m.bits) fun a b _ => (extractField m.ty a b, 0)
def execBfi (w : W) (m : IntMod) : State → Host.Outcome State Fault Refusal :=
  issueAlu (w.fields 0x3E m.bits) fun a b c => (insertField m.ty a b c, 0)

/-- BPICK (R81): a pool byte, or its sign fill, for each byte. -/
def pickBytes (a b c : DWord) : DWord :=
  let pool := (a.extractLsb' 0 32).toNat + 2 ^ 32 * (b.extractLsb' 0 32).toNat
  let byte (i : Nat) : Nat :=
    let sel := c.toNat / 2 ^ (4 * i) % 16
    let p := pool / 2 ^ (8 * (sel % 8)) % 256
    if sel < 8 then p else if p.testBit 7 then 0xFF else 0
  BitVec.ofNat 64 ((List.range 4).foldr (fun i n => byte i + 256 * n) 0)

def execBpick (w : W) (m : IntMod) : State → Host.Outcome State Fault Refusal :=
  issueAlu (w.fields 0x3F m.bits) fun a b c => (pickBytes a b c, 0)

/-- LEA (R82). -/
def scaledSum (ty : Ty) (sh : Nat) (a b : DWord) : DWord :=
  clip ty (a + (if ty.wide then (b.extractLsb' 0 32).signExtend 64 else b) <<< sh)

def execLea (w : W) (m : IntMod) : State → Host.Outcome State Fault Refusal :=
  issueAlu (w.fields 0x40 m.bits) fun a b _ => (scaledSum m.ty m.var.val a b, 0)

/-- UNPK (R84): byte i is element nibble i with its pair's micro bit above it. -/
def unpackNibbles (a b : DWord) : DWord :=
  let byte (i : Nat) : Nat := (if b.getLsbD (i / 2) then 16 else 0) + a.toNat / 2 ^ (4 * i) % 16
  BitVec.ofNat 64 ((List.range 8).foldr (fun i n => byte i + 256 * n) 0)

def execUnpk (w : W) (m : IntMod) : State → Host.Outcome State Fault Refusal :=
  issueAlu (w.fields 0x44 m.bits) fun a b _ => (unpackNibbles a b, 0)

end Sys2Proof.Machine
end

