-- ==== Sys2Proof/Machine/Convert.lean ====
section
/-! DEFINITION. Conversions (R57 to R60, R71, R91 to R93). -/

namespace Sys2Proof.Machine

open Sys2Proof

def CvtMod.rounding {δ σ : Type} (m : CvtMod δ σ) : Rounding := ⟨m.rnd, m.sat, m.ftz⟩

/-- The code of a floating source in the low bits of its register. -/
def srcCode (f : FFmt) (x : DWord) : Nat := codeOf x % 2 ^ (fmtOf f).width

/-- An integer result placed: 64 bits, or extended to 32 by its format's sign (R71). -/
def placeInt (f : IFmt) (x : Int) : DWord :=
  let y := f.read (BitVec.ofInt 64 x).toNat
  if f.wide then BitVec.ofInt 64 y else (BitVec.ofInt 32 y).zeroExtend 64

def execCvtFF (w : W) (m : CvtMod FFmt FFmt) : State → Host.Outcome State Fault Refusal :=
  issueAlu (w.fields 0x70 (m.bits FFmt.code FFmt.code)) fun a _ _ =>
    fpOut (cvtFloat m.df m.sf (CvtMod.rounding m) (srcCode m.sf a))
def execCvtFI (w : W) (m : CvtMod FFmt IFmt) : State → Host.Outcome State Fault Refusal :=
  issueAlu (w.fields 0x71 (m.bits FFmt.code IFmt.code)) fun a _ _ =>
    fpOut (cvtFromInt m.df (CvtMod.rounding m) (m.sf.read a.toNat))
def execCvtIF (w : W) (m : CvtMod IFmt FFmt) : State → Host.Outcome State Fault Refusal :=
  issueAlu (w.fields 0x72 (m.bits IFmt.code FFmt.code)) fun a _ _ =>
    let r := cvtToInt m.df m.sf (CvtMod.rounding m) (srcCode m.sf a)
    (placeInt m.df r.1, r.2)
def execCvtII (w : W) (m : CvtMod IFmt IFmt) : State → Host.Outcome State Fault Refusal :=
  issueAlu (w.fields 0x73 (m.bits IFmt.code IFmt.code)) fun a _ _ =>
    (placeInt m.df (cvtIntInt m.df m.sat (m.sf.read a.toNat)), 0)
def execCvtSr (w : W) (m : CvtMod FFmt FFmt) : State → Host.Outcome State Fault Refusal :=
  issueAlu (w.fields 0x74 (m.bits FFmt.code FFmt.code)) fun a b _ =>
    fpOut (cvtStochastic m.df (CvtMod.rounding m) (codeOf a) (codeOf b))

/-- CVTP's place in the destination (R93): its first bit and its width; the width of one code. -/
def cvtpPlace (df : FFmt) (c : Nat) : Nat × Nat × Nat :=
  match df with
  | .e4m3 | .e5m2 => (16 * c, 16, 8)
  | .e2m1 => (8 * c, 8, 4)
  | _ => (0, 32, 16)

/-- CVTP (R93): both codes put in their place, the rest of the destination unchanged. -/
def cvtpWord (m : CvtMod FFmt FFmt) (a b : Nat) (c old : Nat) : Nat × Causes :=
  let (ca, fa) := cvtFloat m.df .f32 (CvtMod.rounding m) a
  let (cb, fb) := cvtFloat m.df .f32 (CvtMod.rounding m) b
  let (lo, n, h) := cvtpPlace m.df c
  (old / 2 ^ (lo + n) * 2 ^ (lo + n) + (cb * 2 ^ h + ca) * 2 ^ lo + old % 2 ^ lo, fa ||| fb)

def cvtpShare (m : CvtMod FFmt FFmt) (x : Cx) (t : Nat) (dr : Draw) : Share × Draw :=
  let ((a, b, c), dr) := x.args t dr
  let old := (x.run x.f.dst 1 t).headD 0
  let (r, fl) := cvtpWord m (codeOf a) (codeOf b) (if x.spec.c.nil then 0 else codeOf c) old.toNat
  (⟨t, [BitVec.ofNat 32 r], fl⟩, dr)

def execCvtp (w : W) (m : CvtMod FFmt FFmt) : State → Host.Outcome State Fault Refusal :=
  issue (w.fields 0x75 (m.bits FFmt.code FFmt.code)) noPre (sharesBody (cvtpShare m))

end Sys2Proof.Machine
end

