-- ==== Sys2Proof/Machine/Quant.lean ====
section
/-! DEFINITION. Block quantisation and the non-finite count (R95 to R97). -/

namespace Sys2Proof.Machine

open Sys2Proof

/-- Words drawn from a source field that names a d register. -/
def Cx.drawN (x : Cx) (bits : BitVec 9) (t n : Nat) (dr : Draw) : List Word × Draw :=
  match Src.of bits with
  | .d r => drawWords x.tables x.g t r.val n dr
  | _ => ([], dr)

/-- QNT (R95): sixteen codes encoded, under .sr with one word drawn for each. -/
def qntShare (ty : Ty) (sr : Bool) (x : Cx) (t : Nat) (dr : Draw) : Share × Draw :=
  let xs := (x.run x.f.a 16 t).map BitVec.toNat
  let (ws, dr) := if sr then x.drawN x.f.b t 16 dr else ([], dr)
  let (codes, record, fl) := encodeBlock ty xs (if sr then some (ws.map BitVec.toNat) else none)
  (⟨t, (packBlock ty codes record).map (BitVec.ofNat 32), fl⟩, dr)

def execQnt (w : W) (m : IntMod) : State → Host.Outcome State Fault Refusal :=
  issue (w.fields 0x80 m.bits) noPre (sharesBody (qntShare m.ty (m.var.val == 1)))

/-- DQNT (R96). -/
def dqntShare (ty : Ty) (sat : Bool) (x : Cx) (t : Nat) (dr : Draw) : Share × Draw :=
  let n := if blockNibbles ty then 2 else 4
  let run := x.run x.f.a (n + 1) t
  let bits := (run.take n).foldr (fun w acc => w.toNat + 2 ^ 32 * acc) 0
  let record := (run.getD n 0).toNat % 2 ^ 16
  let rs := (List.range 16).map fun i => decodeElement ty sat bits i record
  (⟨t, rs.map fun r => BitVec.ofNat 32 r.1, rs.foldl (fun m r => m ||| r.2) 0⟩, dr)

def execDqnt (w : W) (m : IntMod) : State → Host.Outcome State Fault Refusal :=
  issue (w.fields 0x81 m.bits) noPre (sharesBody (dqntShare m.ty m.sat))

/-- A code that is an infinity or a NaN. -/
def Fmt.nonFinite (f : Fmt) (c : Nat) : Bool :=
  match f.val false c with
  | .fin .. => false
  | _ => true

/-- The non-finite values in a register (R97). -/
def countNonFinite (ty : Ty) (w : Word) : Nat :=
  let n (b : Bool) : Nat := if b then 1 else 0
  match ty with
  | .f32 => n (fmtF32.nonFinite w.toNat)
  | _ => n ((halfFmt ty).nonFinite (w.toNat % 2 ^ 16)) + n ((halfFmt ty).nonFinite (w.toNat / 2 ^ 16))

/-- FCHK (R97): a run counted onto B, held at the largest word. -/
def fchkShare (ty : Ty) (x : Cx) (t : Nat) (dr : Draw) : Share × Draw :=
  let n := (immOf x.f.c).toNat
  let (b, dr) := x.read x.spec.b x.f.b t dr
  let k := ((x.run x.f.a n t).map (countNonFinite ty)).sum
  (⟨t, [BitVec.ofNat 32 (min (codeOf b + k) (2 ^ 32 - 1))], 0⟩, dr)

def execFchk (w : W) (m : IntMod) : State → Host.Outcome State Fault Refusal :=
  issue (w.fields 0x82 m.bits) noPre (sharesBody (fchkShare m.ty))

end Sys2Proof.Machine
end

