-- ==== Sys2Proof/Machine/Variates.lean ====
section
/-! DEFINITION. Distribution registers and stream slots (R111, R123 to R125). -/

namespace Sys2Proof.Machine

open Sys2Proof

/-- The size of the table a descriptor names (R123). -/
def descTable (d : DWord) : Nat :=
  match descKind d with
  | 3 => 8 * 2 ^ descLogn d
  | 4 => 1028
  | 5 => 1540
  | _ => 0

/-- What DLOAD accepts of a descriptor, in a block with so much shared memory (R111, R112, R123). -/
def descOk (d : DWord) (shmem : Nat) : Bool :=
  let kind := descKind d
  let base := descBase d
  let logn := descLogn d
  let reserved := d.extractLsb' 10 22 == 0
  let inside := decide (base + descTable d ≤ shmem)
  let plain := base == 0 && logn == 0
  reserved &&
    match kind with
    | 0 | 1 => plain
    | 2 => plain && descInt d
    | 3 => decide (1 ≤ logn ∧ logn ≤ 6) && base % 8 == 0 && inside
    | 4 | 5 => logn == 0 && !descInt d && base % 4 == 0 && inside
    | _ => false

/-- DLOAD (R123): a descriptor that breaks a rule raises ILLEGAL with detail 10. -/
def dloadBody (var : Fin 16) (x : Cx) : Fate :=
  let d := x.getA 0
  if descOk d x.b.shmem then
    .done (x.s.modGroup x.g.gid fun g => { g with d := Sparse.put 0 g.d var.val d }) none false
  else .trap trapIllegal 10 x.act

def execDload (w : W) (var : Fin 16) : State → Host.Outcome State Fault Refusal :=
  issue (w.fields 0xA0 (varBits var.val)) noPre (dloadBody var)

/-- A change of the slots of each acting thread. -/
def streamBody (act : Cx → Nat → Group → Group) (x : Cx) : Fate :=
  .done (x.s.modGroup x.g.gid fun g => x.threads.foldl (fun g t => act x t g) g) none false

def execQkey (w : W) (m : SlotMod) : State → Host.Outcome State Fault Refusal :=
  issue (w.fields 0xA1 (m.bits 0)) noPre (streamBody fun x t g => g.setQkey m.slot.val t (x.getA t))
def execQpos (w : W) (m : SlotMod) : State → Host.Outcome State Fault Refusal :=
  issue (w.fields 0xA2 (m.bits 0)) noPre (streamBody fun x t g => g.setQpos m.slot.val t (x.getA t))
def execQskip (w : W) (m : SlotMod) : State → Host.Outcome State Fault Refusal :=
  issue (w.fields 0xA3 (m.bits 0)) noPre
    (streamBody fun x t g => g.setQpos m.slot.val t (g.qpos m.slot.val t + x.getA t))

/-- A derived key, its position at 0; the source key is read first. -/
def forkSlot (m : SlotMod) (i : DWord) (t : Nat) (g : Group) : Group :=
  (g.setQkey m.slot2.val t (mix64 (g.qkey m.slot.val t) i)).setQpos m.slot2.val t 0

def execQfork (w : W) (m : SlotMod) : State → Host.Outcome State Fault Refusal :=
  issue (w.fields 0xA4 (m.bits 0)) noPre (streamBody fun x t g => forkSlot m (x.getA t) t g)
def execQforkTop (w : W) (m : SlotMod) : State → Host.Outcome State Fault Refusal :=
  issue (w.fields 0xA4 (m.bits 1)) noPre (streamBody fun _ t g => forkSlot m 0x8000000000000000 t g)
def execQseek (w : W) (m : SlotMod) : State → Host.Outcome State Fault Refusal :=
  issue (w.fields 0xA5 (m.bits 0)) noPre
    (streamBody fun x t g => g.setQpos m.slot.val t (BitVec.ofNat 64 (codeOf (x.getA t)) * x.getB t))
def execQrest (w : W) (m : SlotMod) : State → Host.Outcome State Fault Refusal :=
  issue (w.fields 0xA7 (m.bits 0)) noPre (streamBody fun x t g => g.setQpos m.slot.val t (x.getA t))

/-- A slot's position or key written to a pair. -/
def streamOut (value : Group → Nat → DWord) : Cx → Fate :=
  streamBody fun x t g => g.writeDst x.f.dst t (wordsOf 2 (value g t))

def execQsave (w : W) (m : SlotMod) : State → Host.Outcome State Fault Refusal :=
  issue (w.fields 0xA6 (m.bits 0)) noPre (streamOut fun g t => g.qpos m.slot.val t)
def execQgetPos (w : W) (m : SlotMod) : State → Host.Outcome State Fault Refusal :=
  issue (w.fields 0xA8 (m.bits 0)) noPre (streamOut fun g t => g.qpos m.slot.val t)
def execQgetKey (w : W) (m : SlotMod) : State → Host.Outcome State Fault Refusal :=
  issue (w.fields 0xA8 (m.bits 1)) noPre (streamOut fun g t => g.qkey m.slot.val t)

/-- DDRAW (R124): n draws of each thread into a run. -/
def ddrawShare (x : Cx) (t : Nat) (dr : Draw) : Share × Draw :=
  let n := (immOf x.f.b).toNat
  let (ws, dr) := x.drawN x.f.a t n dr
  (⟨t, ws, 0⟩, dr)

def execDdraw (w : W) : State → Host.Outcome State Fault Refusal :=
  issue (w.fields 0xA9 0) noPre (sharesBody ddrawShare)

end Sys2Proof.Machine
end

