-- ==== Sys2Proof/Machine/Dispatch.lean ====
section
/-! DEFINITION. One arm for every instruction and event: a direct call of its meaning. -/

namespace Sys2Proof.Machine

open Sys2Proof

def exec (i : Instr) (s : State) : Host.Outcome State Fault Refusal :=
  match i with
  | .nop w => Sys2Proof.Machine.execNop w s
  | .exit w => Sys2Proof.Machine.execExit w s
  | .bra w fuse => Sys2Proof.Machine.execBra w fuse s
  | .braD w => Sys2Proof.Machine.execBraD w s
  | .call w => Sys2Proof.Machine.execCall w s
  | .ret w => Sys2Proof.Machine.execRet w s
  | .brt w => Sys2Proof.Machine.execBrt w s
  | .pad tag => Sys2Proof.Machine.execPad tag s
  | .pushj w => Sys2Proof.Machine.execPushj w s
  | .pushb w => Sys2Proof.Machine.execPushb w s
  | .join w => Sys2Proof.Machine.execJoin w s
  | .brk w => Sys2Proof.Machine.execBrk w s
  | .trap w code => Sys2Proof.Machine.execTrap w code s
  | .rte w => Sys2Proof.Machine.execRte w s
  | .bkpt w code => Sys2Proof.Machine.execBkpt w code s
  | .waitf w => Sys2Proof.Machine.execWaitf w s
  | .waitb w => Sys2Proof.Machine.execWaitb w s
  | .getsr w srn => Sys2Proof.Machine.execGetsr w srn s
  | .setsr w srn => Sys2Proof.Machine.execSetsr w srn s
  | .pctlNoidem w => Sys2Proof.Machine.execPctlNoidem w s
  | .pctlExpect w => Sys2Proof.Machine.execPctlExpect w s
  | .delay w => Sys2Proof.Machine.execDelay w s
  | .iadd w m => Sys2Proof.Machine.execIadd w m s
  | .isub w m => Sys2Proof.Machine.execIsub w m s
  | .imul w m => Sys2Proof.Machine.execImul w m s
  | .imulh w m => Sys2Proof.Machine.execImulh w m s
  | .imad w m => Sys2Proof.Machine.execImad w m s
  | .ineg w m => Sys2Proof.Machine.execIneg w m s
  | .iabs w m => Sys2Proof.Machine.execIabs w m s
  | .imin w m => Sys2Proof.Machine.execImin w m s
  | .imax w m => Sys2Proof.Machine.execImax w m s
  | .icmp w m => Sys2Proof.Machine.execIcmp w m s
  | .sel w m => Sys2Proof.Machine.execSel w m s
  | .iclamp w m => Sys2Proof.Machine.execIclamp w m s
  | .imulw w m => Sys2Proof.Machine.execImulw w m s
  | .iaddc w m => Sys2Proof.Machine.execIaddc w m s
  | .isubb w m => Sys2Proof.Machine.execIsubb w m s
  | .isad w m => Sys2Proof.Machine.execIsad w m s
  | .and w m => Sys2Proof.Machine.execAnd w m s
  | .or w m => Sys2Proof.Machine.execOr w m s
  | .xor w m => Sys2Proof.Machine.execXor w m s
  | .not w m => Sys2Proof.Machine.execNot w m s
  | .andn w m => Sys2Proof.Machine.execAndn w m s
  | .shl w m => Sys2Proof.Machine.execShl w m s
  | .shr w m => Sys2Proof.Machine.execShr w m s
  | .sar w m => Sys2Proof.Machine.execSar w m s
  | .rol w m => Sys2Proof.Machine.execRol w m s
  | .ror w m => Sys2Proof.Machine.execRor w m s
  | .popc w m => Sys2Proof.Machine.execPopc w m s
  | .clz w m => Sys2Proof.Machine.execClz w m s
  | .brev w m => Sys2Proof.Machine.execBrev w m s
  | .bfe w m => Sys2Proof.Machine.execBfe w m s
  | .bfi w m => Sys2Proof.Machine.execBfi w m s
  | .bpick w m => Sys2Proof.Machine.execBpick w m s
  | .lea w m => Sys2Proof.Machine.execLea w m s
  | .mov w m => Sys2Proof.Machine.execMov w m s
  | .pack w m => Sys2Proof.Machine.execPack w m s
  | .ffs w m => Sys2Proof.Machine.execFfs w m s
  | .unpk w m => Sys2Proof.Machine.execUnpk w m s
  | .spst w m => Sys2Proof.Machine.execSpst w m s
  | .spld w m => Sys2Proof.Machine.execSpld w m s
  | .bswap w m => Sys2Proof.Machine.execBswap w m s
  | .fadd w m => Sys2Proof.Machine.execFadd w m s
  | .fsub w m => Sys2Proof.Machine.execFsub w m s
  | .fmul w m => Sys2Proof.Machine.execFmul w m s
  | .ffma w m => Sys2Proof.Machine.execFfma w m s
  | .fmin w m => Sys2Proof.Machine.execFmin w m s
  | .fmax w m => Sys2Proof.Machine.execFmax w m s
  | .fabs w m => Sys2Proof.Machine.execFabs w m s
  | .fneg w m => Sys2Proof.Machine.execFneg w m s
  | .fcmp w m => Sys2Proof.Machine.execFcmp w m s
  | .fclass w m => Sys2Proof.Machine.execFclass w m s
  | .frnd w m => Sys2Proof.Machine.execFrnd w m s
  | .fscl w m => Sys2Proof.Machine.execFscl w m s
  | .fclamp w m => Sys2Proof.Machine.execFclamp w m s
  | .ffrc w m => Sys2Proof.Machine.execFfrc w m s
  | .fcpys w m => Sys2Proof.Machine.execFcpys w m s
  | .cvtFF w m => Sys2Proof.Machine.execCvtFF w m s
  | .cvtFI w m => Sys2Proof.Machine.execCvtFI w m s
  | .cvtIF w m => Sys2Proof.Machine.execCvtIF w m s
  | .cvtII w m => Sys2Proof.Machine.execCvtII w m s
  | .cvtSr w m => Sys2Proof.Machine.execCvtSr w m s
  | .cvtp w m => Sys2Proof.Machine.execCvtp w m s
  | .dot2Bf16 w m => Sys2Proof.Machine.execDot2Bf16 w m s
  | .dot4E4m3 w m => Sys2Proof.Machine.execDot4E4m3 w m s
  | .dot4E5m2 w m => Sys2Proof.Machine.execDot4E5m2 w m s
  | .dot8E2m1 w m => Sys2Proof.Machine.execDot8E2m1 w m s
  | .dot8Q4x w m => Sys2Proof.Machine.execDot8Q4x w m s
  | .qnt w m => Sys2Proof.Machine.execQnt w m s
  | .dqnt w m => Sys2Proof.Machine.execDqnt w m s
  | .fchk w m => Sys2Proof.Machine.execFchk w m s
  | .rcp w m => Sys2Proof.Machine.execRcp w m s
  | .rsq w m => Sys2Proof.Machine.execRsq w m s
  | .sqrt w m => Sys2Proof.Machine.execSqrt w m s
  | .ex2 w m => Sys2Proof.Machine.execEx2 w m s
  | .lg2 w m => Sys2Proof.Machine.execLg2 w m s
  | .sinr w m => Sys2Proof.Machine.execSinr w m s
  | .cosr w m => Sys2Proof.Machine.execCosr w m s
  | .tanh w m => Sys2Proof.Machine.execTanh w m s
  | .hadd2 w m => Sys2Proof.Machine.execHadd2 w m s
  | .hmul2 w m => Sys2Proof.Machine.execHmul2 w m s
  | .hfma2 w m => Sys2Proof.Machine.execHfma2 w m s
  | .hmin2 w m => Sys2Proof.Machine.execHmin2 w m s
  | .hmax2 w m => Sys2Proof.Machine.execHmax2 w m s
  | .dload w var => Sys2Proof.Machine.execDload w var s
  | .qkey w m => Sys2Proof.Machine.execQkey w m s
  | .qpos w m => Sys2Proof.Machine.execQpos w m s
  | .qskip w m => Sys2Proof.Machine.execQskip w m s
  | .qfork w m => Sys2Proof.Machine.execQfork w m s
  | .qforkTop w m => Sys2Proof.Machine.execQforkTop w m s
  | .qseek w m => Sys2Proof.Machine.execQseek w m s
  | .qsave w m => Sys2Proof.Machine.execQsave w m s
  | .qrest w m => Sys2Proof.Machine.execQrest w m s
  | .qgetPos w m => Sys2Proof.Machine.execQgetPos w m s
  | .qgetKey w m => Sys2Proof.Machine.execQgetKey w m s
  | .ddraw w => Sys2Proof.Machine.execDdraw w s
  | .kand w => Sys2Proof.Machine.execKand w s
  | .kor w => Sys2Proof.Machine.execKor w s
  | .kxor w => Sys2Proof.Machine.execKxor w s
  | .knot w => Sys2Proof.Machine.execKnot w s
  | .kmov w => Sys2Proof.Machine.execKmov w s
  | .poll w var => Sys2Proof.Machine.execPoll w var s
  | .shfl w m => Sys2Proof.Machine.execShfl w m s
  | .shflG w m => Sys2Proof.Machine.execShflG w m s
  | .gred w m => Sys2Proof.Machine.execGred w m s
  | .gscan w m => Sys2Proof.Machine.execGscan w m s
  | .spawn w => Sys2Proof.Machine.execSpawn w s
  | .glaunch w => Sys2Proof.Machine.execGlaunch w s
  | .dwait w => Sys2Proof.Machine.execDwait w s
  | .mtch w m => Sys2Proof.Machine.execMtch w m s
  | .kpopc w => Sys2Proof.Machine.execKpopc w s
  | .ld w m => Sys2Proof.Machine.execLd w m s
  | .st w m => Sys2Proof.Machine.execSt w m s
  | .ldt w m => Sys2Proof.Machine.execLdt w m s
  | .atomAdd w m => Sys2Proof.Machine.execAtomAdd w m s
  | .atomMin w m => Sys2Proof.Machine.execAtomMin w m s
  | .atomMax w m => Sys2Proof.Machine.execAtomMax w m s
  | .atomAnd w m => Sys2Proof.Machine.execAtomAnd w m s
  | .atomOr w m => Sys2Proof.Machine.execAtomOr w m s
  | .atomXor w m => Sys2Proof.Machine.execAtomXor w m s
  | .atomExch w m => Sys2Proof.Machine.execAtomExch w m s
  | .cas w m => Sys2Proof.Machine.execCas w m s
  | .redAdd w m => Sys2Proof.Machine.execRedAdd w m s
  | .redMin w m => Sys2Proof.Machine.execRedMin w m s
  | .redMax w m => Sys2Proof.Machine.execRedMax w m s
  | .redAnd w m => Sys2Proof.Machine.execRedAnd w m s
  | .redOr w m => Sys2Proof.Machine.execRedOr w m s
  | .redXor w m => Sys2Proof.Machine.execRedXor w m s
  | .bara w m => Sys2Proof.Machine.execBara w m s
  | .barw w m => Sys2Proof.Machine.execBarw w m s
  | .bari w m => Sys2Proof.Machine.execBari w m s
  | .barb w => Sys2Proof.Machine.execBarb w s
  | .fence w scope => Sys2Proof.Machine.execFence w scope s
  | .tmapMap w => Sys2Proof.Machine.execTmapMap w s
  | .tmapUnmap w => Sys2Proof.Machine.execTmapUnmap w s
  | .tfetch w => Sys2Proof.Machine.execTfetch w s
  | .tevict w => Sys2Proof.Machine.execTevict w s
  | .tstat w => Sys2Proof.Machine.execTstat w s
  | .copy w m => Sys2Proof.Machine.execCopy w m s
  | .gather w m => Sys2Proof.Machine.execGather w m s
  | .scatter w m => Sys2Proof.Machine.execScatter w m s
  | .bclose w => Sys2Proof.Machine.execBclose w s
  | .updSgdm w => Sys2Proof.Machine.execUpdSgdm w s
  | .updAdamw w => Sys2Proof.Machine.execUpdAdamw w s
  | .updstep w => Sys2Proof.Machine.execUpdstep w s
  | .skpset w => Sys2Proof.Machine.execSkpset w s
  | .copy2d w m => Sys2Proof.Machine.execCopy2d w m s
  | .cfill w m => Sys2Proof.Machine.execCfill w m s
  | .mmaQ w => Sys2Proof.Machine.execMmaQ w s
  | .mmaQImage w => Sys2Proof.Machine.execMmaQImage w s
  | .mzero w => Sys2Proof.Machine.execMzero w s
  | .mld w m => Sys2Proof.Machine.execMld w m s
  | .mdrain w m => Sys2Proof.Machine.execMdrain w m s
  | .mstat w => Sys2Proof.Machine.execMstat w s
  | .collArReg w var => Sys2Proof.Machine.execCollArReg w var s
  | .collArBuf w var => Sys2Proof.Machine.execCollArBuf w var s
  | .collAg w => Sys2Proof.Machine.execCollAg w s
  | .collBc w => Sys2Proof.Machine.execCollBc w s
  | .quartetFuse bid j => Sys2Proof.Machine.execQuartetFuse bid j s
  | .delayDeadline gid => Sys2Proof.Machine.execDelayDeadline gid s
  | .memoryResultWrite rid => Sys2Proof.Machine.execMemoryResultWrite rid s
  | .sfuResultWrite rid => Sys2Proof.Machine.execSfuResultWrite rid s
  | .rejDrawComplete rid => Sys2Proof.Machine.execRejDrawComplete rid s
  | .mldFill rid => Sys2Proof.Machine.execMldFill rid s
  | .smplRecordFill gid times => Sys2Proof.Machine.execSmplRecordFill gid times s
  | .spawnPackItem core => Sys2Proof.Machine.execSpawnPackItem core s
  | .partialGroupSeal core oid => Sys2Proof.Machine.execPartialGroupSeal core oid s
  | .spawnedGroupStart core => Sys2Proof.Machine.execSpawnedGroupStart core s
  | .placeBlock ctx next => Sys2Proof.Machine.execPlaceBlock ctx next s
  | .blockRetire bid => Sys2Proof.Machine.execBlockRetire bid s
  | .tileArrive t => Sys2Proof.Machine.execTileArrive t s
  | .tileWritebackDone wid => Sys2Proof.Machine.execTileWritebackDone wid s
  | .unmapComplete die ctx win => Sys2Proof.Machine.execUnmapComplete die ctx win s
  | .hodAppend aid => Sys2Proof.Machine.execHodAppend aid s
  | .faultService fid accept ptes => Sys2Proof.Machine.execFaultService fid accept ptes s
  | .storeReplay pid => Sys2Proof.Machine.execStoreReplay pid s
  | .churnOpComplete core => Sys2Proof.Machine.execChurnOpComplete core s
  | .drainPerform did => Sys2Proof.Machine.execDrainPerform did s
  | .copyJob cid => Sys2Proof.Machine.execCopyJob cid s
  | .gatherScatterJob cid => Sys2Proof.Machine.execGatherScatterJob cid s
  | .updJob cid => Sys2Proof.Machine.execUpdJob cid s
  | .skpsetJob cid => Sys2Proof.Machine.execSkpsetJob cid s
  | .updstepJob cid => Sys2Proof.Machine.execUpdstepJob cid s
  | .jobComplete cid => Sys2Proof.Machine.execJobComplete cid s
  | .collOperation ctx comm seq remote => Sys2Proof.Machine.execCollOperation ctx comm seq remote s
  | .collf ctx comm seq linkDown remote => Sys2Proof.Machine.execCollf ctx comm seq linkDown remote s
  | .wdogExpiry gid => Sys2Proof.Machine.execWdogExpiry gid s
  | .critx ctx core => Sys2Proof.Machine.execCritx ctx core s
  | .debugResume gid => Sys2Proof.Machine.execDebugResume gid s
  | .unitStop u => Sys2Proof.Machine.execUnitStop u s
  | .thermalTrip die => Sys2Proof.Machine.execThermalTrip die s
  | .preempt v ctx cores => Sys2Proof.Machine.execPreempt v ctx cores s
  | .drainTimeout bid => Sys2Proof.Machine.execDrainTimeout bid s
  | .saveComplete bid => Sys2Proof.Machine.execSaveComplete bid s
  | .resume v ctx cores targets => Sys2Proof.Machine.execResume v ctx cores targets s
  | .ctxsw v cores => Sys2Proof.Machine.execCtxsw v cores s
  | .switchComplete core => Sys2Proof.Machine.execSwitchComplete core s
  | .slice v x y start modules => Sys2Proof.Machine.execSlice v x y start modules s
  | .moduleReady module at_ => Sys2Proof.Machine.execModuleReady module at_ s
  | .sliceStart => Sys2Proof.Machine.execSliceStart s
  | .slicex => Sys2Proof.Machine.execSlicex s
  | .ctxnew v n => Sys2Proof.Machine.execCtxnew v n s
  | .ctxfree v ctx => Sys2Proof.Machine.execCtxfree v ctx s
  | .gridrun v ctx die named desc proc thread => Sys2Proof.Machine.execGridrun v ctx die named desc proc thread s
  | .stopread v dies => Sys2Proof.Machine.execStopread v dies s
  | .partitionReset dies => Sys2Proof.Machine.execPartitionReset dies s
  | .tracectl v ctx kinds => Sys2Proof.Machine.execTracectl v ctx kinds s
  | .perfrd v event ctx dies after => Sys2Proof.Machine.execPerfrd v event ctx dies after s
  | .perfSnapshot => Sys2Proof.Machine.execPerfSnapshot s
  | .ewset v weights => Sys2Proof.Machine.execEwset v weights s
  | .smplctl v ctx interval => Sys2Proof.Machine.execSmplctl v ctx interval s
  | .traceDrain cluster => Sys2Proof.Machine.execTraceDrain cluster s
  | .clusterGating cluster => Sys2Proof.Machine.execClusterGating cluster s
  | .gatingDrainTimeout cluster => Sys2Proof.Machine.execGatingDrainTimeout cluster s
  | .gapRecord cluster => Sys2Proof.Machine.execGapRecord cluster s
  | .moduleReset b => Sys2Proof.Machine.execModuleReset b s
  | .mctpQuery log => Sys2Proof.Machine.execMctpQuery log s
  | .attestationRequest nonce => Sys2Proof.Machine.execAttestationRequest nonce s
  | .linkPacket l pkt accept => Sys2Proof.Machine.execLinkPacket l pkt accept s
  | .reservationGrant l pkt => Sys2Proof.Machine.execReservationGrant l pkt s
  | .linkDown l => Sys2Proof.Machine.execLinkDown l s
  | .linkRetrain l peer => Sys2Proof.Machine.execLinkRetrain l peer s
  | .descriptorReadDone gid => Sys2Proof.Machine.execDescriptorReadDone gid s
  | .writePerformedAtDie wid => Sys2Proof.Machine.execWritePerformedAtDie wid s
  | .supplyFault => Sys2Proof.Machine.execSupplyFault s
  | .logRecordConsumed ctx n => Sys2Proof.Machine.execLogRecordConsumed ctx n s

end Sys2Proof.Machine
end

