-- ==== Sys2Proof/Machine/Stay.lean ====
section
/-! DEFINITION. What happens in the cycle in which its condition comes to hold: a fused quartet is split by a park on a fault (R135),
an instruction that stays in issue retires (R21, R118), and a tile fetch that waits for a frame or for room in a fault buffer starts
(R178, R182). -/

namespace Sys2Proof.Machine

open Sys2Proof

/-- The next instruction of a group. -/
def State.fetchFor (s : State) (g : Group) : Option Fetched :=
  match s.block? g.bid with
  | none => none
  | some b => (s.ctx? b.ctx).map fun c => s.fetch c (dieOf g.core) g.pc

/-- An instruction whose REJ draws have issued goes on whatever stops its groups from issuing (R118): its gang stands and runs. -/
def State.drawing (s : State) (q : List Group) : Bool :=
  (q.any fun x => x.rejHeld.isSome) && q.all fun x => s.coreRuns x.core && x.parked.isEmpty && x.dbgStop.isNone

/-- A group whose gang has an instruction in issue, for which its lowest member stands. -/
def State.staying (s : State) (g : Group) : Bool :=
  let q := if s.fusedGroup g then s.quartetOf g else [g]
  g.stay && (!s.fusedGroup g || g.member == 0) && (q.all s.able || s.drawing q)

/-- The members whose own condition has held (R21). -/
def State.metBy (s : State) : List Nat := (s.groups.filter (·.stayDone)).map (·.gid)

/-- A fused quartet of which a member is parked outside a turn of its own is split at once (R135). -/
def State.splitParked (s : State) (g : Group) : State :=
  if s.fusedGroup g && (s.quartetOf g).any fun x => !x.parked.isEmpty then s.split g.bid g.quartet else s

/-- An instruction in issue examined again: none while it has still to stay, but that the condition of one more member has come to
hold is noted. The turn under way is as it was. -/
def State.stayTry (s : State) (g : Group) : Option State :=
  match s.fetchFor g with
  | some (.run i) =>
    match exec i { s with turn := [⟨g.gid, 0, false⟩] } with
    | .next t =>
      if (t.group? g.gid).any (·.stay) && t.coreRuns g.core then
        if t.metBy == s.metBy then none else some { s with groups := t.groups }
      else some (State.splitParked { t with turn := s.turn, splits := s.splits } g)
    | _ => none
  | _ => none

/-- The first instruction in issue whose condition holds, carried out. -/
def State.stayNext (s : State) : Option State := (s.groups.filter s.staying).findSome? s.stayTry

/-- What happens before anything else, as its condition holds. -/
def State.prompt (s : State) : Option State :=
  match s.splitNext with
  | some t => some t
  | none =>
    match s.stayNext with
    | some t => some t
    | none => s.fetchNext

end Sys2Proof.Machine
end

