-- ==== Sys2Proof/Machine/Turn.lean ====
section
/-! DEFINITION. How a turn begins (R132, R133, R216): time goes on, reserve positions change hands, the position's groups are listed,
and those that stand at the block barrier arrive. -/

namespace Sys2Proof.Machine

open Sys2Proof

/-- The fields of BARB (R216). -/
def barbFields (w : W) : Fields := w.fields 0xD4 0

/-- A group whose next instruction is a BARB that does not skip, and whose waits as a release have ended (R216). -/
def State.arrives (s : State) (gid : Nat) : Bool :=
  match s.group? gid with
  | none => false
  | some g =>
    match s.block? g.bid with
    | none => false
    | some b =>
      let here (l : List (Nat × Nat)) : Bool := l.any fun e => e.1 == gid
      !g.spawned && !here b.arrived && !here b.passed && s.releaseReady g .blk &&
        match (s.ctx? b.ctx).map fun c => s.fetch c (dieOf g.core) g.pc with
        | some (.run (.barb w)) => (s.cx? gid (barbFields w)).any fun x => !x.skipped && !x.heldBack
        | _ => false

/-- The groups of the turn that stand at their block's barrier arrive, all in this cycle. -/
def State.arriveAll (s : State) : State :=
  let mine : List (Nat × Nat) := (s.turn.flatMap fun it =>
    match s.group? it.gid with
    | some g => (s.gangOf g).filter s.arrives
    | none => []).filterMap fun gid => (s.group? gid).map fun g => (gid, g.bid)
  let s := mine.foldl (fun s e => s.modBlock e.2 fun b => { b with arrived := b.arrived ++ [(e.1, s.cycle)] }) s
  (nubNat (mine.map (·.2))).foldl (fun s bid => s.barrierCheck bid true) s

/-- The memory of barrier words as it stands. -/
def State.turnMem (s : State) : TurnMem := ⟨s.scratch, s.scw, s.blocks.map fun b => (b.bid, b.sh)⟩

/-- Eight cycles on (R132, R309): watchdogs and counters take their cycles in, and what barrier words hold is kept. -/
def State.tick (s : State) : State :=
  let s := s.accrue (s.cycle + 8)
  { s with cycle := s.cycle + 8, now := s.cycle + 8, fabricTime := s.fabricTime + 8, began := s.turnMem }

/-- The next turn begins, with its position's groups to walk through. -/
def State.advance (s : State) : State :=
  let s := s.endSplits.tick.settleReserves.splitStopped.countTurn
  State.arriveAll { s with turn := s.turnOf }

end Sys2Proof.Machine
end

