-- ==== Sys2Proof/Machine/Step.lean ====
section
/-! DEFINITION. One step: what is prompt, else the next instruction of the group at the head of the turn, or between turns the next
event, what the module does of itself, the re-fusion checks of the turn's end, or the beginning of the next turn. -/

namespace Sys2Proof.Machine

open Sys2Proof

/-- The instruction that the head of the turn issues next. -/
def State.headFetch (s : State) : Option Fetched :=
  match s.turn with
  | [] => none
  | it :: _ => (s.group? it.gid).bind fun g => if s.mayIssue g then s.fetchFor g else none

def step (s : State) : Host.Outcome State Fault Refusal :=
  match s.prompt with
  | some t => .next t
  | none =>
    match s.turn with
    | _ :: rest =>
      match s.headFetch with
      | some (.run i) => exec i s
      | some (.trap cause detail) => trapAtDecode cause detail s
      | some (.brk n len) => breakAtFetch n len s
      | some (.halt addr) => haltAtFetch addr s
      | none => .next { s with turn := rest }
    | [] =>
      match s.nextEvent with
      | some (t, i, s') => exec i { s'.accrue t with now := t }
      | none =>
        match s.internal, s.refuse with
        | some s', _ => .next s'
        | none, r :: _ => exec (.quartetFuse r.1 r.2) { s.accrue (s.cycle + 7) with now := s.cycle + 7 }
        | none, [] => .next s.advance

/-- A state whose next step fetches and runs the instruction of the given bits (`launched` says how). -/
def State.withFetchWord (s : State) (nbits w : Nat) : State := s.launched nbits w

end Sys2Proof.Machine
end

