-- ==== Sys2Proof/Machine/Claims.lean ====
section
/-! DEFINITION. The words that claims are made in: a group that issues by itself, an instruction that acts, and what a
retirement, a held-back attempt and a trap leave. -/

namespace Sys2Proof.Machine

open Sys2Proof

/-- A group without its reserve position (R133), of which these claims say nothing: positions change hands between turns. -/
def Group.bare (g : Group) : Group := { g with reserve := none }

/-- The state without its blocks and groups and without the books that every turn keeps: the walk through the turn, re-fusion
checks that are due (R136), the last context of each unit (R296), event counts (R354). -/
def State.still (s : State) : State :=
  { s with turn := [], splits := [], refuse := [], lastCtx := [], perfs := [], groups := [], blocks := [] }

/-- t is u after group gid has retired an instruction with fields f, going to pc (none: the next instruction). -/
structure Retires (u : State) (gid : Nat) (f : Fields) (pc : Option VA) (t : State) : Prop where
  still : t.still = u.still
  group : ∀ g, u.group? gid = some g → ∃ g', t.group? gid = some g' ∧ g'.bare = (g.retired f (u.weightOf f) pc).bare
  others : ∀ h, h ≠ gid → (t.group? h).map Group.bare = (u.group? h).map Group.bare
  block : ∀ g b, u.group? gid = some g → u.block? g.bid = some b → t.block? g.bid = some { b with retcnt := b.retcnt + 1 }
  blocks : ∀ g bid, u.group? gid = some g → bid ≠ g.bid → t.block? bid = u.block? bid

/-- t is u but for the books that a turn keeps and reserve positions (R132, R133, R136). -/
structure Booked (u t : State) : Prop where
  still : t.still = u.still
  groups : ∀ h, (t.group? h).map Group.bare = (u.group? h).map Group.bare
  blocks : t.blocks = u.blocks

/-- x is the issue, by itself, of the group at the head of the turn: it belongs to no fused quartet (R11, R135). -/
structure Solo (s : State) (f : Fields) (x : Cx) : Prop where
  head : ∃ it rest, s.turn = it :: rest ∧ s.cx? it.gid f = some x
  alone : s.fusedGroup x.g = false

/-- An instruction that is not skipped, finds no source empty with EF = 1, and is not held back (R15, R19, R20, R118). -/
structure Cx.Acts (x : Cx) : Prop where
  guard : x.skipped = false
  full : x.emptyTrap.1 = 0
  free : x.heldBack = false

/-- The word that some threads' shares give register j of the destination run in thread t. -/
def shareWord (ps : List Share) (t j : Nat) : Option Word := (ps.find? fun p => p.t == t).bind fun p => p.words[j]?

/-- The causes that some threads' shares raise together (R72). -/
def causesOf (ps : List Share) : Causes := ps.foldl (fun (m : Causes) p => m ||| p.causes) 0

/-- g' is g after the shares were written to the run that `dst` names: each register of the run in each thread with a share
holds its word, every other register is what it was, and nothing but registers differs. A uniform instruction has one share. -/
structure Wrote (dst : Src) (ps : List Share) (g g' : Group) : Prop where
  rest : g' = { g with regs := { g.regs with v := g'.regs.v, s := g'.regs.s, k := g'.regs.k } }
  v : ∀ r0, dst = .v r0 → ∀ r t, t < 32 →
    g'.vget r t = if r0.val ≤ r then (shareWord ps t (r - r0.val)).getD (g.vget r t) else g.vget r t
  vOther : (∀ r0, dst ≠ .v r0) → ∀ r t, g'.vget r t = g.vget r t
  s : ∀ r0 p, dst = .s r0 → ps = [p] → ∀ r,
    g'.sget r = if r0.val ≤ r then (p.words[r - r0.val]?).getD (g.sget r) else g.sget r
  sOther : (∀ r0, dst ≠ .s r0) → ∀ r, g'.sget r = g.sget r
  k : ∀ r0 p, dst = .k r0 → ps = [p] → ∀ r, g'.kget r = if r = r0.val ∧ r ≠ 0 then p.words.headD 0 else g.kget r
  kOther : (∀ r0, dst ≠ .k r0) → ∀ r, g'.kget r = g.kget r

/-- exec i completes in s: it answers a next state, which is u after the group's retirement. -/
def Completes (i : Instr) (s u : State) (gid : Nat) (f : Fields) (pc : Option VA) : Prop :=
  ∃ t, exec i s = .next t ∧ Retires u gid f pc t

/-- exec i traps in s (R286, R287): it has no other effect than that sampling counts it (R357), that its group holds no tile
any more (R184), and that the group takes the trap, with its own pc as the place of the trap and as the place to resume at. -/
def Traps (i : Instr) (s : State) (x : Cx) (cause : BitVec 8) (detail : Nat) (lanes : Mask) : Prop :=
  ∃ t, exec i s = .next t ∧ Booked (((s.sampleTrap x.g.gid x.f).unhold x.g.gid).takeTrap
    { x.g with stay := false, stayDone := false, reissue := false }
    { cause := cause, detail := BitVec.ofNat 16 detail, lanes := lanes, amask := x.g.amask, pc := x.g.pc, resume := x.g.pc,
      oper := 0 }) t

/-- exec i is held back in s (R19, R298): nothing changes but the wait that begins. -/
def HoldsBack (i : Instr) (s : State) (x : Cx) (kind : Nat) : Prop :=
  ∃ t, exec i s = .next t ∧ Booked (s.setGroup (x.g.await kind)) t

/-- exec i stays in issue with state u (R21, R298). -/
def Stays (i : Instr) (s u : State) (gid : Nat) : Prop :=
  ∃ t, exec i s = .next t ∧ Booked (u.modGroup gid fun g => g.stayFrom u.cycle) t

/-! Gangs (R137) -/

/-- The members of a fused quartet, at whose turn f issues (R135, R137): xs are their contexts in ascending member order. -/
structure Ganged (s : State) (f : Fields) (g : Group) (xs : List Cx) : Prop where
  head : ∃ it rest, s.turn = it :: rest ∧ s.group? it.gid = some g
  fused : s.fusedGroup g = true
  found : (s.gangOf g).map (fun m => s.cx? m f) = xs.map some
  apart : (s.gangOf g).Nodup
  block : ∀ x ∈ xs, x.g.bid = g.bid ∧ x.g.spawned = false ∧ x.g.quartet = g.quartet ∧ x.g.core = g.core
  leads : g.gid ∈ s.gangOf g

/-- t is u after some members of a gang have retired an instruction with fields f; whether their quartet is still fused is looked
at. -/
structure GangRetires (u : State) (bid : Nat) (gids : List Nat) (f : Fields) (t : State) : Prop where
  still : t.still = u.still
  members : ∀ m ∈ gids, ∀ g, u.group? m = some g → (t.group? m).map Group.bare = some (g.retired f (u.weightOf f) none).bare
  others : ∀ h, h ∉ gids → (t.group? h).map Group.bare = (u.group? h).map Group.bare
  block : ∀ b, u.block? bid = some b → ∃ b', t.block? bid = some b' ∧ b'.retcnt = b.retcnt + gids.length ∧
    { b' with retcnt := b.retcnt, fused := b.fused } = b
  blocks : ∀ d, d ≠ bid → t.block? d = u.block? d

/-- t is s after a gang was held back (R19, R137, R298): every member waits, and nothing else changes; whether their quartet is still
fused is looked at. -/
structure GangWaits (s : State) (g : Group) (xs : List Cx) (t : State) : Prop where
  still : t.still = s.still
  members : ∀ x ∈ xs, (t.group? x.g.gid).map Group.bare = some (x.g.await 2).bare
  others : ∀ h, h ∉ s.gangOf g → (t.group? h).map Group.bare = (s.group? h).map Group.bare
  block : ∀ b, s.block? g.bid = some b → ∃ b', t.block? g.bid = some b' ∧ { b' with fused := b.fused } = b
  blocks : ∀ d, d ≠ g.bid → t.block? d = s.block? d

/-- In t member y of a gang has entered its handler with a cause and a detail (R287, R288), and its quartet is split (R135); groups
out of the gang are as they were. -/
structure GangSplits (s : State) (g : Group) (y : Cx) (cause : BitVec 8) (detail : Nat) (t : State) : Prop where
  entered : ∃ g', t.group? y.g.gid = some g' ∧ g'.pc = y.c.ctl.hentry ∧ g'.handler.isSome = true ∧ g'.amask = y.g.amask ∧
    (g'.sget 58).toNat = cause.toNat + 2 ^ 8 * (detail % 2 ^ 16)
  split : ∃ b, t.block? g.bid = some b ∧ b.fused[g.quartet]? = some false
  others : ∀ h, h ∉ s.gangOf g → (t.group? h).map Group.bare = (s.group? h).map Group.bare

end Sys2Proof.Machine
end

