-- ==== Sys2Proof/Safety.lean ====
section
/-! DEFINITION. What counts as a safe run: no partition is halted and the module is not in the safe state. -/

namespace Sys2Proof

open Sys2Proof.Machine

/-- No partition is halted (R294) and boot has not failed (R343). -/
def Safe (s : State) : Prop := (∀ p ∈ s.parts, p.halted = none) ∧ s.boot.safe = none

/-- A run of n steps that stays safe. -/
def SafeRun : Nat → State → Prop
  | 0, s => Safe s
  | n + 1, s => Safe s ∧ match step s with
    | .next s' => SafeRun n s'
    | _ => False

end Sys2Proof
end

