-- ==== Sys2Proof/Certificates/Slice0/Obligations.lean ====
section
/-! DEFINITION. The statements about the model, and the vocabulary they share: rows of instructions of one shape, and what
each leaves. -/


namespace Sys2Proof.Machine

open Sys2Proof

/-! Rows of instructions that are their threads' shares -/

/-- Integer arithmetic (R74, R75): the fields and a thread's share. -/
def integerRow : Instr → Option (Fields × (Cx → Nat → Draw → Share × Draw))
  | .iadd w m => some (w.fields 0x20 m.bits, aluShare fun a b _ => (tyWrite m.ty m.sat (tyRead m.ty a + tyRead m.ty b), 0))
  | .isub w m => some (w.fields 0x21 m.bits, aluShare fun a b _ => (tyWrite m.ty m.sat (tyRead m.ty a - tyRead m.ty b), 0))
  | .imul w m => some (w.fields 0x22 m.bits, aluShare fun a b _ => (tyWrite m.ty m.sat (tyRead m.ty a * tyRead m.ty b), 0))
  | .imulh w m => some (w.fields 0x23 m.bits, aluShare fun a b _ =>
      (tyWrite m.ty m.sat (tyRead m.ty a * tyRead m.ty b / (2 ^ tyWidth m.ty : Nat)), 0))
  | .imad w m => some (w.fields 0x24 m.bits, aluShare fun a b c =>
      (tyWrite m.ty m.sat (tyRead m.ty a * tyRead m.ty b + tyRead m.ty c), 0))
  | .ineg w m => some (w.fields 0x25 m.bits, aluShare fun a _ _ => (tyWrite m.ty m.sat (-tyRead m.ty a), 0))
  | .iabs w m => some (w.fields 0x26 m.bits, aluShare fun a _ _ =>
      (tyWrite m.ty m.sat (if tyRead m.ty a < 0 then -tyRead m.ty a else tyRead m.ty a), 0))
  | .imin w m => some (w.fields 0x27 m.bits, aluShare fun a b _ => (tyWrite m.ty m.sat (min (tyRead m.ty a) (tyRead m.ty b)), 0))
  | .imax w m => some (w.fields 0x28 m.bits, aluShare fun a b _ => (tyWrite m.ty m.sat (max (tyRead m.ty a) (tyRead m.ty b)), 0))
  | .iclamp w m => some (w.fields 0x2B m.bits, aluShare fun a b c =>
      (tyWrite m.ty m.sat (min (max (tyRead m.ty a) (tyRead m.ty b)) (tyRead m.ty c)), 0))
  | .imulw w m => some (w.fields 0x2C m.bits, aluShare fun a b _ => (BitVec.ofInt 64 (tyRead m.ty a * tyRead m.ty b), 0))
  | .iaddc w m => some (w.fields 0x2D m.bits, aluShare fun a b c =>
      (BitVec.ofNat 64 (codeOf a + codeOf b + if c.getLsbD 0 then 1 else 0), 0))
  | .isubb w m => some (w.fields 0x2E m.bits, aluShare fun a b c =>
      ((if codeOf a < codeOf b + (if c.getLsbD 0 then 1 else 0) then (1 : Word) else 0) ++
        (BitVec.ofNat 32 (codeOf a) - BitVec.ofNat 32 (codeOf b) - if c.getLsbD 0 then (1 : Word) else 0), 0))
  | .isad w m => some (w.fields 0x2F m.bits, aluShare fun a b c => (absDiff m.ty a b c, 0))
  | .sel w m => some (w.fields 0x2A m.bits, selShare)
  | _ => none

/-- Logic, shifts, bit fields and moves (R78 to R82, R84). -/
def bitsRow : Instr → Option (Fields × (Cx → Nat → Draw → Share × Draw))
  | .and w m => some (w.fields 0x30 m.bits, aluShare fun a b _ => (clip m.ty (a &&& b), 0))
  | .or w m => some (w.fields 0x31 m.bits, aluShare fun a b _ => (clip m.ty (a ||| b), 0))
  | .xor w m => some (w.fields 0x32 m.bits, aluShare fun a b _ => (clip m.ty (a ^^^ b), 0))
  | .not w m => some (w.fields 0x33 m.bits, aluShare fun a _ _ => (clip m.ty (~~~a), 0))
  | .andn w m => some (w.fields 0x34 m.bits, aluShare fun a b _ => (clip m.ty (a &&& ~~~b), 0))
  | .shl w m => some (w.fields 0x35 m.bits, aluShare fun a b _ => (shiftLeft m.ty a b, 0))
  | .shr w m => some (w.fields 0x36 m.bits, aluShare fun a b _ => (shiftRight m.ty a b, 0))
  | .sar w m => some (w.fields 0x37 m.bits, aluShare fun a b _ => (shiftArith m.ty a b, 0))
  | .rol w m => some (w.fields 0x38 m.bits, aluShare fun a b _ => (rotate m.ty true a b, 0))
  | .ror w m => some (w.fields 0x39 m.bits, aluShare fun a b _ => (rotate m.ty false a b, 0))
  | .popc w m => some (w.fields 0x3A m.bits, aluShare fun a _ _ => (BitVec.ofNat 64 (popCount (clippedNat m.ty a) (tyWidth m.ty)), 0))
  | .clz w m => some (w.fields 0x3B m.bits, aluShare fun a _ _ => (BitVec.ofNat 64 (countLeading m.ty a), 0))
  | .brev w m => some (w.fields 0x3C m.bits, aluShare fun a _ _ => (reverseBits m.ty a, 0))
  | .bfe w m => some (w.fields 0x3D m.bits, aluShare fun a b _ => (extractField m.ty a b, 0))
  | .bfi w m => some (w.fields 0x3E m.bits, aluShare fun a b c => (insertField m.ty a b c, 0))
  | .bpick w m => some (w.fields 0x3F m.bits, aluShare fun a b c => (pickBytes a b c, 0))
  | .lea w m => some (w.fields 0x40 m.bits, aluShare fun a b _ => (scaledSum m.ty m.var.val a b, 0))
  | .mov w m => some (w.fields 0x41 m.bits, aluShare fun a _ _ => (clip m.ty a, 0))
  | .pack w m => some (w.fields 0x42 m.bits, aluShare fun a b _ =>
      (if m.ty.wide then b.extractLsb' 0 32 ++ a.extractLsb' 0 32
       else (b.extractLsb' 0 16 ++ a.extractLsb' 0 16).zeroExtend 64, 0))
  | .ffs w m => some (w.fields 0x43 m.bits, aluShare fun a _ _ => (BitVec.ofNat 64 (findFirst m.ty a), 0))
  | .unpk w m => some (w.fields 0x44 m.bits, aluShare fun a b _ => (unpackNibbles a b, 0))
  | .bswap w m => some (w.fields 0x47 m.bits, aluShare fun a _ _ => (swapBytes m.ty a, 0))
  | _ => none

/-- Floating point, packed halves and dot products (R85 to R94). -/
def floatRow : Instr → Option (Fields × (Cx → Nat → Draw → Share × Draw))
  | .fadd w m => some (w.fields 0x60 m.bits, aluShare fun a b _ => fpOut (fpAdd fmtF32 (FpMod.rounding m) (codeOf a) (codeOf b)))
  | .fsub w m => some (w.fields 0x61 m.bits, aluShare fun a b _ => fpOut (fpSub fmtF32 (FpMod.rounding m) (codeOf a) (codeOf b)))
  | .fmul w m => some (w.fields 0x62 m.bits, aluShare fun a b _ => fpOut (fpMul fmtF32 (FpMod.rounding m) (codeOf a) (codeOf b)))
  | .ffma w m => some (w.fields 0x63 m.bits, aluShare fun a b c =>
      fpOut (fpFma fmtF32 (FpMod.rounding m) (codeOf a) (codeOf b) (codeOf c)))
  | .fmin w m => some (w.fields 0x64 m.bits, aluShare fun a b _ => fpOut (fpMinMax fmtF32 false m.ftz (codeOf a) (codeOf b)))
  | .fmax w m => some (w.fields 0x65 m.bits, aluShare fun a b _ => fpOut (fpMinMax fmtF32 true m.ftz (codeOf a) (codeOf b)))
  | .fabs w m => some (w.fields 0x66 m.bits, aluShare fun a _ _ => fpOut (codeOf a % 2 ^ 31, 0))
  | .fneg w m => some (w.fields 0x67 m.bits, aluShare fun a _ _ => fpOut ((codeOf a + 2 ^ 31) % 2 ^ 32, 0))
  | .fclass w m => some (w.fields 0x69 m.bits, aluShare fun a _ _ => fpOut (fpClass (codeOf a), 0))
  | .frnd w m => some (w.fields 0x6A m.bits, aluShare fun a _ _ => fpOut (fpRnd (FpMod.rounding m) (codeOf a)))
  | .fscl w m => some (w.fields 0x6B m.bits, aluShare fun a b _ =>
      fpOut (fpScl (FpMod.rounding m) (codeOf a) (b.extractLsb' 0 32).toInt))
  | .fclamp w m => some (w.fields 0x6C m.bits, aluShare fun a b c => fpOut (fpClamp fmtF32 m.ftz (codeOf a) (codeOf b) (codeOf c)))
  | .ffrc w m => some (w.fields 0x6D m.bits, aluShare fun a _ _ => fpOut (fpFrc (FpMod.rounding m) (codeOf a)))
  | .fcpys w m => some (w.fields 0x6E m.bits, aluShare fun a b _ => fpOut (codeOf a % 2 ^ 31 + codeOf b / 2 ^ 31 * 2 ^ 31, 0))
  | .hadd2 w m => some (w.fields 0x90 m.bits, aluShare (onHalves fun a b _ => fpAdd (halfFmt m.ty) (FpMod.rounding m) a b))
  | .hmul2 w m => some (w.fields 0x91 m.bits, aluShare (onHalves fun a b _ => fpMul (halfFmt m.ty) (FpMod.rounding m) a b))
  | .hfma2 w m => some (w.fields 0x92 m.bits, aluShare (onHalves fun a b c => fpFma (halfFmt m.ty) (FpMod.rounding m) a b c))
  | .hmin2 w m => some (w.fields 0x93 m.bits, aluShare (onHalves fun a b _ => fpMinMax (halfFmt m.ty) false m.ftz a b))
  | .hmax2 w m => some (w.fields 0x94 m.bits, aluShare (onHalves fun a b _ => fpMinMax (halfFmt m.ty) true m.ftz a b))
  | .dot2Bf16 w m => some (w.fields 0x78 m.bits, aluShare (dotOf .bf16 2 m))
  | .dot4E4m3 w m => some (w.fields 0x79 m.bits, aluShare (dotOf .e4m3 4 m))
  | .dot4E5m2 w m => some (w.fields 0x7A m.bits, aluShare (dotOf .e5m2 4 m))
  | .dot8E2m1 w m => some (w.fields 0x7B m.bits, aluShare (dotOf .e2m1 8 m))
  | .dot8Q4x w m => some (w.fields 0x7C m.bits, aluShare (dotOf .q4x 8 m))
  | _ => none

/-- Conversions, block quantisation and the non-finite count (R58, R92, R93, R95 to R97). -/
def convertRow : Instr → Option (Fields × (Cx → Nat → Draw → Share × Draw))
  | .cvtFF w m => some (w.fields 0x70 (m.bits FFmt.code FFmt.code), aluShare fun a _ _ =>
      fpOut (cvtFloat m.df m.sf (CvtMod.rounding m) (srcCode m.sf a)))
  | .cvtFI w m => some (w.fields 0x71 (m.bits FFmt.code IFmt.code), aluShare fun a _ _ =>
      fpOut (cvtFromInt m.df (CvtMod.rounding m) (m.sf.read a.toNat)))
  | .cvtIF w m => some (w.fields 0x72 (m.bits IFmt.code FFmt.code), aluShare fun a _ _ =>
      (placeInt m.df (cvtToInt m.df m.sf (CvtMod.rounding m) (srcCode m.sf a)).1,
        (cvtToInt m.df m.sf (CvtMod.rounding m) (srcCode m.sf a)).2))
  | .cvtII w m => some (w.fields 0x73 (m.bits IFmt.code IFmt.code), aluShare fun a _ _ =>
      (placeInt m.df (cvtIntInt m.df m.sat (m.sf.read a.toNat)), 0))
  | .cvtSr w m => some (w.fields 0x74 (m.bits FFmt.code FFmt.code), aluShare fun a b _ =>
      fpOut (cvtStochastic m.df (CvtMod.rounding m) (codeOf a) (codeOf b)))
  | .cvtp w m => some (w.fields 0x75 (m.bits FFmt.code FFmt.code), cvtpShare m)
  | .qnt w m => some (w.fields 0x80 m.bits, qntShare m.ty (m.var.val == 1))
  | .dqnt w m => some (w.fields 0x81 m.bits, dqntShare m.ty m.sat)
  | .fchk w m => some (w.fields 0x82 m.bits, fchkShare m.ty)
  | _ => none

/-- Mask logic and draws of runs (R124, R151, R152). -/
def maskRow : Instr → Option (Fields × (Cx → Nat → Draw → Share × Draw))
  | .kand w => some (w.fields 0xB0 0, aluShare (maskOp fun a b => a &&& b))
  | .kor w => some (w.fields 0xB1 0, aluShare (maskOp fun a b => a ||| b))
  | .kxor w => some (w.fields 0xB2 0, aluShare (maskOp fun a b => a ^^^ b))
  | .knot w => some (w.fields 0xB3 0, aluShare (maskOp fun a _ => ~~~a))
  | .kmov w => some (w.fields 0xB4 0, aluShare (maskOp fun a _ => a))
  | .kpopc w => some (w.fields 0xBE 0, aluShare fun a _ _ => (BitVec.ofNat 64 (popCount (codeOf a) 32), 0))
  | .ddraw w => some (w.fields 0xA9 0, ddrawShare)
  | _ => none

/-! Instructions that write a result to a run of registers -/

/-- A row of per-thread computations as results. -/
def lift (row : Instr → Option (Fields × (Cx → Nat → Draw → Share × Draw))) : Instr → Option (Fields × (Cx → List Share × Draw)) :=
  fun i => (row i).map fun r => (r.1, fun x => sharesOf x (r.2 x) x.each Draw.start)

/-- A group with an instruction's exceptions set and its draws committed (R72, R117). -/
def Group.settled (g : Group) (causes : Causes) (dr : Draw) : Group :=
  ({ g with fpstat := g.fpstat ||| causes.zeroExtend 32 } : Group).commit dr.pos dr.qstat

/-- No cause an instruction raises is set to log or to trap (R284). -/
def Cx.quiet (x : Cx) (causes : Causes) : Prop := causes &&& (fpLogged x.c.ctl.fpctl ||| fpTrapped x.c.ctl.fpctl) = 0

/-- The result of a row in a group by itself, where no REJ register is named and no cause raised is set to log or trap: each
thread's share stands in its destination, the draws are committed, the exceptions stick, the pc goes on, and nothing else
changes. -/
def RowCompletes (row : Instr → Option (Fields × (Cx → List Share × Draw))) : Prop :=
  ∀ i f sh s x, row i = some (f, sh) → Solo s f x → x.Acts → x.namesRej = false → x.quiet (causesOf (sh x).1) →
    ∃ g, Wrote (Src.of f.dst) (sh x).1 (x.g.settled (causesOf (sh x).1) (sh x).2) g ∧
      Completes i s (s.setGroup g) x.g.gid f none

/-! Effects on the issuing group alone -/

/-- Instructions whose effect is on the issuing group alone: its fields, the group they leave, and where pc goes when it is
not the next instruction (R99, R101, R103, R106, R108, R153). -/
def groupRow : Instr → Option (Fields × (Cx → Group) × (Cx → Option VA))
  | .nop w => some (w.fields 0x00 0, fun x => x.g, fun _ => none)
  | .pad tag => (fieldsOf (.pad tag)).map fun f => (f, fun x => x.g, fun _ => none)
  | .waitf w => some (w.fields 0x0F 0, fun x => x.g, fun _ => none)
  | .bra w b => some (w.fields 0x02 (bit1 b ++ 0#9), fun x => x.g, fun x => some x.target)
  | .delay w => some (w.fields 0x14 0, fun x => { x.g with delay := some (x.s.cycle + codeOf (x.getA 0)) }, fun _ => none)
  | .poll w var => some (w.fields 0xB5 (varBits var.val), fun x =>
      x.g.writeDst x.f.dst 0 [pollValue var.val (match Src.of x.f.dst with | .k _ => true | _ => false) x.g.amask
        ((x.getA 0).extractLsb' 0 32)], fun _ => none)
  | .tstat w => some (w.fields 0xD9 0, fun x => x.g.writeDst x.f.dst 0 [tileStat x.s x.tileArg], fun _ => none)
  | _ => none

/-- Instructions that change stream slots (R125): the key and the position that each acting thread's slot gets. -/
def streamRow : Instr → Option (Fields × Option (Fin 4 × (Cx → Nat → DWord)) × Option (Fin 4 × (Cx → Nat → DWord)))
  | .qkey w m => some (w.fields 0xA1 (m.bits 0), some (m.slot, fun x t => x.getA t), none)
  | .qpos w m => some (w.fields 0xA2 (m.bits 0), none, some (m.slot, fun x t => x.getA t))
  | .qskip w m => some (w.fields 0xA3 (m.bits 0), none, some (m.slot, fun x t => x.g.qpos m.slot.val t + x.getA t))
  | .qfork w m => some (w.fields 0xA4 (m.bits 0), some (m.slot2, fun x t => mix64 (x.g.qkey m.slot.val t) (x.getA t)),
      some (m.slot2, fun _ _ => 0))
  | .qforkTop w m => some (w.fields 0xA4 (m.bits 1),
      some (m.slot2, fun x t => mix64 (x.g.qkey m.slot.val t) 0x8000000000000000), some (m.slot2, fun _ _ => 0))
  | .qseek w m => some (w.fields 0xA5 (m.bits 0), none,
      some (m.slot, fun x t => BitVec.ofNat 64 (codeOf (x.getA t)) * x.getB t))
  | .qrest w m => some (w.fields 0xA7 (m.bits 0), none, some (m.slot, fun x t => x.getA t))
  | _ => none

/-- What a slot of a thread holds after a change of the acting threads' slots: the new value, or what it held. -/
def slotAfter (x : Cx) (change : Option (Fin 4 × (Cx → Nat → DWord))) (slot t : Nat) (old : DWord) : DWord :=
  match change with
  | some (sl, v) => if slot = sl.val ∧ x.act.getLsbD t then v x t else old
  | none => old

/-- Instructions that read slots to a pair of registers (R125): the value for each thread. -/
def slotReadRow : Instr → Option (Fields × (Cx → Nat → DWord))
  | .qsave w m => some (w.fields 0xA6 (m.bits 0), fun x t => x.g.qpos m.slot.val t)
  | .qgetPos w m => some (w.fields 0xA8 (m.bits 0), fun x t => x.g.qpos m.slot.val t)
  | .qgetKey w m => some (w.fields 0xA8 (m.bits 1), fun x t => x.g.qkey m.slot.val t)
  | _ => none

/-- Shares made without draws or exceptions: special registers, shuffles (R105, R159). -/
def quietRow : Instr → Option (Fields × (Cx → List Share))
  | .getsr w n => if n = 0x016 then none else some (w.fields 0x11 n, fun x =>
      x.each.map fun t => ⟨t, wordsOf x.dstWidth (x.special n.toNat t), 0⟩)
  | .shfl w m => some (w.fields 0xB6 m.bits, fun x => x.threads.map fun t =>
      ⟨t, x.g.exchange x.f.a x.spec.a.v (match shuffleSource m.var.val 32 t ((x.getB t).extractLsb' 0 32) with
        | some u => if x.act.getLsbD u then u else t
        | none => t), 0⟩)
  | _ => none

/-- An instruction whose destination is s registers. -/
def toScalar (f : Fields) : Bool := match Src.of f.dst with | .s _ => true | _ => false

/-- Shares made of every acting thread's value of A: reductions to v registers, scans, matches (R161 to R163), from the
values. -/
def crossRow : Instr → Option (Fields × (Cx → List (Nat × DWord) → List Share))
  | .gred w m => if toScalar (w.fields 0xB8 m.bits) then none
      else some (w.fields 0xB8 m.bits, fun x vals => x.threads.map fun t =>
        ⟨t, wordsOf (if m.ty.wide then 2 else 1) (reduce m.var.val m (vals.map (·.2))).1,
          (reduce m.var.val m (vals.map (·.2))).2⟩)
  | .gscan w m => some (w.fields 0xB9 m.bits, fun x vals => x.threads.map fun t =>
      let incl := decide (8 ≤ m.var.val)
      let r := reduce (if incl then m.var.val - 8 else m.var.val) m
        ((vals.filter fun v => (segment x.threads ((x.getB t).extractLsb' 0 32) incl t).contains v.1).map (·.2))
      ⟨t, wordsOf x.dstWidth r.1, r.2⟩)
  | .mtch w m => some (w.fields 0xBD m.bits, fun _ vals => vals.map fun p =>
      ⟨p.1, [Mask.ofList ((vals.filter fun q =>
        (if m.ty.wide then q.2 else (q.2.extractLsb' 0 32).zeroExtend 64) ==
          (if m.ty.wide then p.2 else (p.2.extractLsb' 0 32).zeroExtend 64)).map (·.1))], 0⟩)
  | _ => none

/-- Slot reads, special registers, shuffles and cross-thread results, as shares with their draws (R105, R125, R159 to R163). -/
def exchangeRow : Instr → Option (Fields × (Cx → List Share × Draw)) := fun i =>
  match quietRow i, crossRow i with
  | some (f, sh), _ => some (f, fun x => (sh x, Draw.start))
  | none, some (f, sh) => some (f, fun x => (sh x (valuesOf x x.threads Draw.start).1, (valuesOf x x.threads Draw.start).2))
  | none, none => none

/-- Every instruction that writes a result to registers by its threads' shares. -/
def resultRow : Instr → Option (Fields × (Cx → List Share × Draw)) := fun i =>
  (((lift integerRow i).or (lift bitsRow i)).or ((lift floatRow i).or (lift convertRow i))).or
    ((lift maskRow i).or (exchangeRow i))

/-- Compares (R76, R87): the fields and a thread's answer. -/
def compareRow : Instr → Option (Fields × (DWord → DWord → Bool × Causes))
  | .icmp w m => some (w.fields 0x29 m.bits, fun a b => (intCmp m.ty m.cond a b, 0))
  | .fcmp w m => some (w.fields 0x68 m.bits, fun a b => fpCmp m.cond m.ftz (codeOf a) (codeOf b))
  | _ => none

/-- Instructions that are held in issue until their REJ draws end and access no memory (R118): compares, SETSR, GRED to s
registers. -/
def heldRow (i : Instr) : Option Fields :=
  match i with
  | .setsr w n => some (w.fields 0x12 n)
  | .gred w m => if toScalar (w.fields 0xB8 m.bits) then some (w.fields 0xB8 m.bits) else none
  | _ => (compareRow i).map (·.1)

/-- A state in which the REJ draws of an instruction that stays in issue have begun (R118, R119): they read the block's shared
memory as it stands now. -/
def Cx.drawsBegin (x : Cx) (s : State) : State :=
  (s.putResult x .rej [] [] 0 [] [] false).modGroup x.g.gid fun g => { g with rejHeld := some x.b.sh }

/-- What bit t of a compare's k register holds after it (R10). -/
def maskAfter (ps : List Share) (old : Word) (t : Nat) : Bool :=
  match ps.find? fun p => p.t == t with
  | some p => p.words.headD 0 == 1
  | none => old.getLsbD t

/-- Special functions (R98): the fields and the function on FP32 codes. -/
def sfuRow : Instr → Option (Fields × (Nat → Nat × Causes))
  | .rcp w m => some (w.fields 0x88 m.bits, sfuRcp m.ftz)
  | .rsq w m => some (w.fields 0x89 m.bits, sfuRsq m.ftz)
  | .sqrt w m => some (w.fields 0x8A m.bits, sfuSqrt m.ftz)
  | .ex2 w m => some (w.fields 0x8B m.bits, sfuEx2 m.ftz)
  | .lg2 w m => some (w.fields 0x8C m.bits, sfuLg2 m.ftz)
  | .sinr w m => some (w.fields 0x8D m.bits, sfuSin m.ftz)
  | .cosr w m => some (w.fields 0x8E m.bits, sfuCos m.ftz)
  | .tanh w m => some (w.fields 0x8F m.bits, sfuTanh m.ftz)
  | _ => none

/-! Control stack (R23 to R25, R139 to R141, R154 to R158) -/

/-- The threads whose bit is set in the k register that a branch names (R154). -/
def takenMask (x : Cx) : Mask := match Src.of x.f.a with | .k r => x.g.kget r.val | _ => 0

/-- The mask, pc and stack that an instruction of the control stack leaves; none where it traps. -/
def stackRow : Instr → Option (Fields × (Cx → Option (Mask × VA × List Ctl)))
  | .braD w => some (w.fields 0x03 0, fun x =>
      let c := takenMask x
      if x.g.amask &&& c = 0 then some (x.g.amask, x.nextPc, x.g.stack)
      else if x.g.amask &&& ~~~c = 0 then some (x.g.amask, x.target, x.g.stack)
      else if 128 ≤ x.g.stack.length then none
      else some (x.g.amask &&& ~~~c, x.nextPc, ⟨2, x.g.amask &&& c, x.target⟩ :: x.g.stack))
  | .call w => some (w.fields 0x04 0, fun x => if 128 ≤ x.g.stack.length then none
      else some (x.g.amask, x.target, ⟨1, x.g.amask, x.nextPc⟩ :: x.g.stack))
  | .pushj w => some (w.fields 0x08 0, fun x => if 128 ≤ x.g.stack.length then none
      else some (x.g.amask, x.nextPc, ⟨2, x.g.amask, x.target⟩ :: x.g.stack))
  | .pushb w => some (w.fields 0x09 0, fun x => if 128 ≤ x.g.stack.length then none
      else some (x.g.amask, x.nextPc, ⟨3, 0, x.target⟩ :: x.g.stack))
  | .ret w => some (w.fields 0x05 0, fun x => match x.g.stack with
      | e :: rest => if e.kind = 1 then settleMask e.mask e.addr rest else none
      | [] => none)
  | .join w => some (w.fields 0x0A 0, fun x => match x.g.stack with
      | e :: rest => if e.kind = 1 then none
          else settleMask (if e.kind = 3 then e.mask ||| x.g.amask else e.mask) e.addr rest
      | [] => none)
  | .brk w => some (w.fields 0x0B 0, fun x => (breakStack x.g.amask x.g.stack).bind resolve)
  | _ => none

end Sys2Proof.Machine

/-! Traps, waits and exits -/

namespace Sys2Proof.Machine

open Sys2Proof

/-- What an instruction checks of a group before it looks at its sources (R20, R138, R145, R150, R169, R216, R236): the early
checks of its entry find nothing and it does not wait for a fused quartet. Of MMA.q the statements about gangs speak. -/
def entersPlain (i : Instr) (x : Cx) : Prop :=
  match i with
  | .spawn _ | .glaunch _ => x.g.depth < 10
  | .dwait _ | .barb _ => x.g.spawned = false
  | .mzero _ | .mld _ _ => x.g.spawned = false ∧ ∃ n, tileNo x.g x.f.dst = some n ∧ n < x.b.ntile
  | .mdrain _ _ => x.g.spawned = false ∧ ∃ n, tileNo x.g x.f.c = some n ∧ n < x.b.ntile
  | .mstat _ => x.g.spawned = false ∧ ∃ n, tileNo x.g x.f.a = some n ∧ n < x.b.ntile
  | .shflG _ _ | .mmaQ _ | .mmaQImage _ => False
  | _ => True

/-- MMA.q, whose gang attempts as one (R242). -/
def isMma : Instr → Bool
  | .mmaQ _ | .mmaQImage _ => true
  | _ => false

/-- The words SETSR takes from the acting threads, or from one for the uniform form (R104). -/
def setsrShares (x : Cx) : List Share × Draw :=
  sharesOf x (fun t dr => (⟨t, [(x.read x.spec.a x.f.a t dr).1.extractLsb' 0 32], 0⟩, (x.read x.spec.a x.f.a t dr).2)) x.each
    Draw.start

/-- All the bits that some words name. -/
def allBits (ps : List Share) : Word := ps.foldl (fun (m : Word) p => m ||| p.words.headD 0) 0

/-- The state with a group that has retired a TRAP or BKPT: it stands after it, its waits ended. -/
def Cx.retiredHere (x : Cx) (s : State) : Group := x.g.retired x.f (s.weightOf x.f) none

/-- The record of a trap raised at x with its resume address. -/
def Cx.recordOf (x : Cx) (cause : BitVec 8) (detail : Nat) (lanes : Mask) (resume : VA) (oper : Word) : TrapRec :=
  { cause := cause, detail := BitVec.ofNat 16 detail, lanes := lanes, amask := x.g.amask, pc := x.g.pc, resume := resume,
    oper := oper }

end Sys2Proof.Machine

open Sys2Proof Sys2Proof.Machine

/-- R74, R75, R77: integer arithmetic gives each thread the result its formula gives, saturated or wrapped as the type and
.sat say, and changes nothing else. -/
def Sys2Proof.Machine.IntegerResults : Prop := RowCompletes (lift integerRow)

/-- R78 to R82, R84: logic, shifts, bit fields and moves. -/
def Sys2Proof.Machine.BitResults : Prop := RowCompletes (lift bitsRow)

/-- R74, R75, R77 to R82, R84: integer arithmetic, logic, shifts, bit fields and moves give each acting thread what their formulas
give, and change nothing else. -/
def Obligations.ArithmeticResults : Prop := IntegerResults ∧ BitResults

/-- R85 to R94: floating point, packed halves and dot products. FSCL clamps its exponent as log entry 20 says; the
sign of a dot product that is zero and which of several NaN elements counts are the model's choices (log entries 67, 68). -/
def Sys2Proof.Machine.FloatResults : Prop := RowCompletes (lift floatRow)

/-- R58, R92, R93, R95 to R97: conversions, block quantisation, the non-finite count. Which causes QNT raises is the model's
reading (log entry 21). -/
def Sys2Proof.Machine.ConversionResults : Prop := RowCompletes (lift convertRow)

/-- R58, R85 to R97: floating point, packed halves, dot products, conversions, block quantisation and the non-finite count. -/
def Obligations.FloatingResults : Prop := FloatResults ∧ ConversionResults

/-- R124, R151, R152: mask logic and draws of runs. -/
def Sys2Proof.Machine.MaskResults : Prop := RowCompletes (lift maskRow)

/-- R105, R159 to R163: special registers, shuffles, reductions to v registers, scans, matches. Reductions fold in ascending
thread order from the first value (log entry 28). -/
def Sys2Proof.Machine.ExchangeResults : Prop := RowCompletes exchangeRow

/-- R105, R124, R151, R152, R159 to R163: mask logic, draws of runs, special registers, shuffles, reductions, scans, matches. -/
def Obligations.MaskAndExchangeResults : Prop := MaskResults ∧ ExchangeResults

/-- R125: QSAVE and QGET give each acting thread its slot's position or key, and change nothing else. -/
def Sys2Proof.Machine.SlotReads : Prop :=
  ∀ i f v s x, slotReadRow i = some (f, v) → Solo s f x → x.Acts →
    ∃ g, Wrote (Src.of f.dst) (x.threads.map fun t => ⟨t, wordsOf 2 (v x t), 0⟩) x.g g ∧
      Completes i s (s.setGroup g) x.g.gid f none

/-- R99, R101, R103, R106, R108, R153, R200: the instructions that change the issuing group alone. -/
def Obligations.GroupEffects : Prop :=
  ∀ i f eff pc s x, groupRow i = some (f, eff, pc) → Solo s f x → x.Acts →
    Completes i s (s.setGroup (eff x)) x.g.gid f (pc x)

/-- R125: what the stream instructions leave in each slot of each thread; nothing but the slots changes. -/
def Sys2Proof.Machine.StreamChanges : Prop :=
  ∀ i f keys poss s x, streamRow i = some (f, keys, poss) → Solo s f x → x.Acts →
    ∃ g, g = { x.g with qk := g.qk, qp := g.qp } ∧
      (∀ slot t, slot < 4 → t < 32 → g.qkey slot t = slotAfter x keys slot t (x.g.qkey slot t) ∧
        g.qpos slot t = slotAfter x poss slot t (x.g.qpos slot t)) ∧
      Completes i s (s.setGroup g) x.g.gid f none

/-- R125: the stream instructions change the slots that their entries name, or give what the slots hold, and nothing else. -/
def Obligations.StreamInstructions : Prop := SlotReads ∧ StreamChanges

/-- R118, R122: an instruction that names a REJ register has its result in flight: the registers are empty until it is written,
and its draws, REJX and its exceptions come with it; NONE is set as it retires. -/
def Obligations.RejResultsInFlight : Prop :=
  ∀ i f sh s x r0, resultRow i = some (f, sh) → Solo s f x → x.Acts → x.namesRej = true → Src.of f.dst = .v r0 →
    Completes i s ((s.setGroup (x.g.setQstat (noneOf (sh x).2.qstat))).putResult x .rej
      ((sh x).1.flatMap fun p => regWrites f.dst p.t p.words) (sh x).2.pos (sh x).2.words (rejxOf (sh x).2.qstat)
      ((sh x).1.map fun p => (p.t, p.causes)) false) x.g.gid f none

/-- R72, R285: a cause that is set to trap makes an instruction that is not in issue yet (R21) trap with the causes set to trap and all
causes in its detail; it has no other effect. -/
def Sys2Proof.Machine.FpTraps : Prop :=
  ∀ i f sh s x, resultRow i = some (f, sh) → Solo s f x → x.Acts → x.namesRej = false → x.g.stay = false →
    causesOf (sh x).1 &&& fpTrapped x.c.ctl.fpctl ≠ 0 →
    Traps i s x 0x0A
      ((causesOf (sh x).1 &&& fpTrapped x.c.ctl.fpctl).toNat + 256 * (causesOf (sh x).1).toNat)
      (if f.s then x.g.amask
        else Mask.ofList (((sh x).1.filter fun p => p.causes &&& fpTrapped x.c.ctl.fpctl != 0).map (·.t)))

/-- R72, R297: a cause that is set to log, none being set to trap, leaves one record in the context's log; the result is
written. -/
def Sys2Proof.Machine.FpLogs : Prop :=
  ∀ i f sh s x, resultRow i = some (f, sh) → Solo s f x → x.Acts → x.namesRej = false →
    causesOf (sh x).1 &&& fpTrapped x.c.ctl.fpctl = 0 → causesOf (sh x).1 &&& fpLogged x.c.ctl.fpctl ≠ 0 →
    ∃ g, Wrote (Src.of f.dst) (sh x).1 (x.g.settled (causesOf (sh x).1) (sh x).2) g ∧
      Completes i s ((s.log x.b.ctx 0x01 (causesOf (sh x).1 &&& fpLogged x.c.ctl.fpctl).toNat
        (if f.s then x.g.amask
          else Mask.ofList (((sh x).1.filter fun p => p.causes &&& fpLogged x.c.ctl.fpctl != 0).map (·.t)))
        x.g.pc.toNat (s.blockName x.g.bid) x.g.num 0).setGroup g) x.g.gid f none

/-- R72, R285, R297: a cause set to trap makes the instruction trap, with no other effect; a cause set to log leaves one record. -/
def Obligations.FpExceptions : Prop := FpTraps ∧ FpLogs

/-- R10, R76, R88: a compare writes its k register alone: all of its bits in the uniform form, in the vector form the bits of
the threads it acts in; k0 ignores the write. Causes set to log leave one record, a cause set to trap makes it trap (R72), but for a
compare that names a REJ register, which logs it (R118). -/
def Sys2Proof.Machine.Compares : Prop :=
  ∀ i f cmp s x r0, compareRow i = some (f, cmp) → Solo s f x → x.Acts → Src.of f.dst = .k r0 →
    let ps := (sharesOf x (cmpShare cmp x) x.each Draw.start).1
    let trapped := fpTrapped x.c.ctl.fpctl
    let logged := fpLogged x.c.ctl.fpctl ||| (if x.namesRej then trapped else 0)
    let lanes (c : Causes) : Mask := if f.s then x.g.amask else Mask.ofList ((ps.filter fun p => p.causes &&& c != 0).map (·.t))
    (x.namesRej = false → x.g.stay = false → causesOf ps &&& trapped ≠ 0 →
      Traps i s x 0x0A ((causesOf ps &&& trapped).toNat + 256 * (causesOf ps).toNat) (lanes trapped)) ∧
    ((x.namesRej = false ∧ causesOf ps &&& trapped = 0) ∨ (x.namesRej = true ∧ x.g.stayDone = true) →
      ∃ g, g = { x.g.settled (causesOf ps) (sharesOf x (cmpShare cmp x) x.each Draw.start).2 with
          regs := { x.g.regs with k := g.regs.k } } ∧
        (∀ n, n ≠ r0.val ∨ n = 0 → g.kget n = x.g.kget n) ∧
        (r0.val ≠ 0 → ∀ t, t < 32 → (g.kget r0.val).getLsbD t =
          if f.s then (cmp (x.args 0 Draw.start).1.1 (x.args 0 Draw.start).1.2.1).1 else maskAfter ps (x.g.kget r0.val) t) ∧
        Completes i s ((if causesOf ps &&& logged = 0 then s
          else s.log x.b.ctx 0x01 (causesOf ps &&& logged).toNat (lanes logged) x.g.pc.toNat (s.blockName x.g.bid) x.g.num 0).setGroup g)
          x.g.gid f none)

/-- R118: a compare, SETSR or GRED to s registers that names a REJ register stays in issue until its draws have ended; the first
attempt starts them. -/
def Sys2Proof.Machine.RejAttemptsWait : Prop :=
  ∀ i f s x, heldRow i = some f → Solo s f x → x.Acts → x.namesRej = true → x.g.stayDone = false →
    (x.g.rejHeld.isSome = true → Stays i s s x.g.gid) ∧
    (x.g.rejHeld = none → Stays i s (x.drawsBegin s) x.g.gid)

/-- R10: a uniform compare writes its result into all bits of its k register, a vector compare writes the bits of the threads
it acts in and leaves the others; a compare, SETSR or GRED to s registers that names a REJ register stays in issue until its draws
have ended (R118). That a compare with REJ logs what is set to trap is the model's reading (log entry 63). -/
def Obligations.CompareResults : Prop := Compares ∧ RejAttemptsWait

/-- R19, R72, R98, R122: a special function is issued with its result in flight: the destination is empty until then, the
exceptions come with it; its draws are committed at once but where it names a REJ register, whose draws come with the result. The
functions themselves are computed as log entry 10 says. -/
def Obligations.SpecialFunctionsInFlight : Prop :=
  ∀ i f fn s x, sfuRow i = some (f, fn) → Solo s f x → x.Acts →
    let r := sharesOf x (sfuShare fn x) x.each Draw.start
    let ws := r.1.flatMap fun p => regWrites f.dst p.t p.words
    let per := r.1.map fun p => (p.t, p.causes)
    Completes i s (if x.namesRej then
        (s.setGroup (x.g.setQstat (noneOf r.2.qstat))).putResult x .sfu ws r.2.pos r.2.words (rejxOf r.2.qstat) per false
      else (s.setGroup (x.g.settled 0 r.2)).putResult x .sfu ws [] 0 [] per false) x.g.gid f none

/-- R72, R161: GRED to s registers writes one result, whose exceptions are raised once, with the acting threads as their lanes: causes
set to log leave one record, a cause set to trap makes it trap, but for a GRED that names a REJ register, which logs it (R118; log
entry 63). Reductions fold in ascending thread order from the first value, a sum of zeros and several NaNs as log entry 28 says. -/
def Obligations.ScalarReductions : Prop :=
  ∀ w m s x r0, Solo s (w.fields 0xB8 m.bits) x → x.Acts → Src.of (w.fields 0xB8 m.bits).dst = .s r0 →
    let vals := valuesOf x x.threads Draw.start
    let r := reduce m.var.val m (vals.1.map (·.2))
    let causes : Causes := if x.threads = [] then 0 else r.2
    let trapped := fpTrapped x.c.ctl.fpctl
    let logged := fpLogged x.c.ctl.fpctl ||| (if x.namesRej then trapped else 0)
    (x.namesRej = false → x.g.stay = false → causes &&& trapped ≠ 0 →
      Traps (.gred w m) s x 0x0A ((causes &&& trapped).toNat + 256 * causes.toNat) x.act) ∧
    ((x.namesRej = false ∧ causes &&& trapped = 0) ∨ (x.namesRej = true ∧ x.g.stayDone = true) →
      ∃ g, Wrote (.s r0) [⟨0, wordsOf (if m.ty.wide then 2 else 1) r.1, 0⟩] (x.g.settled causes vals.2) g ∧
        Completes (.gred w m) s ((if causes &&& logged = 0 then s
          else s.log x.b.ctx 0x01 (causes &&& logged).toNat x.act x.g.pc.toNat (s.blockName x.g.bid) x.g.num 0).setGroup g)
          x.g.gid (w.fields 0xB8 m.bits) none)

/-- R6, R104: SETSR clears in its register the bits written as one, in sr.qstat those of each acting thread, in sr.mstat and
sr.fpstat those that any acting thread names. A status bit that drawing the written value sets is set before the clearing (log
entry 71). -/
def Obligations.SpecialRegisterClears : Prop :=
  ∀ w n s x, Solo s (w.fields 0x12 n) x → x.Acts → (x.namesRej = true → x.g.stayDone = true) →
    ∃ g, Completes (.setsr w n) s (s.setGroup g) x.g.gid (w.fields 0x12 n) none ∧
      g = { x.g.settled 0 (setsrShares x).2 with qstat := g.qstat, mstat := g.mstat, fpstat := g.fpstat } ∧
      g.mstat = (if n = 0x011 then x.g.mstat &&& ~~~(allBits (setsrShares x).1) else x.g.mstat) ∧
      g.fpstat = (if n = 0x013 then x.g.fpstat &&& ~~~(allBits (setsrShares x).1) else x.g.fpstat) ∧
      (∀ t, Sparse.get 0 g.qstat t = if n = 0x010
        then Sparse.get 0 (x.g.settled 0 (setsrShares x).2).qstat t &&& ~~~((shareWord (setsrShares x).1 t 0).getD 0)
        else Sparse.get 0 (x.g.settled 0 (setsrShares x).2).qstat t)

/-- R23 to R25, R139 to R141, R154 to R157: where the control stack allows it, the instruction leaves the active mask, the pc
and the stack that its rule gives. -/
def Sys2Proof.Machine.StackOperations : Prop :=
  ∀ i f eff s x m pc st, stackRow i = some (f, eff) → Solo s f x → x.Acts → eff x = some (m, pc, st) →
    Completes i s (s.setGroup { x.g with amask := m, stack := st }) x.g.gid f (some pc)

/-- R23: where it does not, the instruction traps: STACK with detail 2 for an entry too many, 3 for one that is missing or of
the wrong kind. -/
def Sys2Proof.Machine.StackTraps : Prop :=
  ∀ i f eff s x, stackRow i = some (f, eff) → Solo s f x → x.Acts → eff x = none →
    Traps i s x 0x06 (if f.opc ∈ [(0x03 : BitVec 8), 0x04, 0x08, 0x09] then 2 else 3) x.g.amask

/-- R23 to R25, R139 to R141, R154 to R157: what the control stack's instructions leave, and when they trap STACK. -/
def Obligations.ControlStack : Prop := StackOperations ∧ StackTraps

/-- R15: an instruction whose guard does not hold in every active thread, in its uniform form, has no effect but to retire. -/
def Sys2Proof.Machine.SkippedInstructions : Prop :=
  ∀ i f s x, fieldsOf i = some f → isMma i = false → Solo s f x → x.skipped = true → Completes i s s x.g.gid f none

/-- R19, R20, R285: a source with EF = 1 that is empty makes the instruction trap EMPTY, the sources in the detail. That this
comes before what holds the instruction back is the model's reading (log entries 15, 18, 19). -/
def Sys2Proof.Machine.EmptySourcesTrap : Prop :=
  ∀ i f s x, fieldsOf i = some f → Solo s f x → x.skipped = false → entersPlain i x → x.emptyTrap.1 ≠ 0 →
    Traps i s x 0x03 x.emptyTrap.1 x.emptyTrap.2

/-- R19, R20, R118, R298: an instruction that waits for a register or a slot is held back with no effect; its wait begins. So is one for
whose memory requests its core has no room (R3; what counts as one is log entry 81). -/
def Sys2Proof.Machine.HeldBackWaits : Prop :=
  ∀ i f s x, fieldsOf i = some f → Solo s f x → x.skipped = false → entersPlain i x → x.emptyTrap.1 = 0 → x.heldBack = true →
    HoldsBack i s x (if f.opc = 0xD4 then 1 else 2)

/-- R137: an instruction of results that every member of a fused quartet can issue is issued by all of them together: each one's
registers are what the instruction leaves in a group by itself, and no other group changes. -/
def Sys2Proof.Machine.GangResults : Prop :=
  ∀ i f sh s g xs, resultRow i = some (f, sh) → Ganged s f g xs →
    (∀ x ∈ xs, x.Acts ∧ x.namesRej = false ∧ x.quiet (causesOf (sh x).1)) →
    ∃ u t, exec i s = .next t ∧ GangRetires u g.bid (s.gangOf g) f t ∧ u.still = s.still ∧ u.blocks = s.blocks ∧
      (∀ h, h ∉ s.gangOf g → u.group? h = s.group? h) ∧
      ∀ x ∈ xs, ∃ g', u.group? x.g.gid = some g' ∧
        Wrote (Src.of f.dst) (sh x).1 (x.g.settled (causesOf (sh x).1) (sh x).2) g'

/-- R137: with one member held back every member of the gang is, and nothing changes but their waits. -/
def Sys2Proof.Machine.GangHolds : Prop :=
  ∀ i f sh s g xs, resultRow i = some (f, sh) → Ganged s f g xs →
    (∃ x ∈ xs, x.skipped = false ∧ x.emptyTrap.1 = 0 ∧ x.heldBack = true) → ∃ t, exec i s = .next t ∧ GangWaits s g xs t

/-- R135, R137: a member that finds a source with EF = 1 empty takes its trap, the others retire with their results, and the quartet
splits. -/
def Sys2Proof.Machine.GangTraps : Prop :=
  ∀ i f sh s g xs y, resultRow i = some (f, sh) → Ganged s f g xs → y ∈ xs → y.skipped = false → y.emptyTrap.1 ≠ 0 →
    y.g.handler = none → y.c.ctl.hentry ≠ 0 →
    (∀ x ∈ xs, x ≠ y → x.Acts ∧ x.namesRej = false ∧ x.quiet (causesOf (sh x).1)) →
    ∃ t, exec i s = .next t ∧ GangSplits s g y 0x03 y.emptyTrap.1 t ∧
      ∀ x ∈ xs, x ≠ y → ∃ g', Wrote (Src.of f.dst) (sh x).1 (x.g.settled (causesOf (sh x).1) (sh x).2) g' ∧
        (t.group? x.g.gid).map Group.bare = some (g'.retired f (s.weightOf f) none).bare

/-- R15, R19, R20, R118, R135, R137, R285, R298: skipped, trapping EMPTY, or held back: what an instruction does that does not act;
and what a gang that issues in a fused quartet does with its members' fates. That a gang is one step is the model's form (log entries
13, 16). -/
def Obligations.IssueGates : Prop :=
  SkippedInstructions ∧ EmptySourcesTrap ∧ HeldBackWaits ∧ GangResults ∧ GangHolds ∧ GangTraps

/-- R100, R158: EXIT of some of a group's threads: they are finished and leave every stack entry, and the group goes on where
the first entry with a thread left points. -/
def Sys2Proof.Machine.PartialExit : Prop :=
  ∀ w s x m pc st, Solo s (w.fields 0x01 0) x → x.Acts → x.g.allFull = true →
    x.g.exist &&& ~~~(x.g.fin ||| x.g.amask) ≠ 0 →
    resolve (x.g.stack.map fun e => { e with mask := e.mask &&& ~~~x.g.amask }) = some (m, pc, st) →
    Completes (.exit w) s (s.setGroup { x.g with fin := x.g.fin ||| x.g.amask, amask := m, stack := st }) x.g.gid
      (w.fields 0x01 0) (some pc)

/-- R100, R158: EXIT of some of a group's threads that leaves no entry of the stack with a thread traps STACK, and has no effect. -/
def Sys2Proof.Machine.ExitTraps : Prop :=
  ∀ w s x, Solo s (w.fields 0x01 0) x → x.Acts → x.g.allFull = true →
    x.g.exist &&& ~~~(x.g.fin ||| x.g.amask) ≠ 0 →
    resolve (x.g.stack.map fun e => { e with mask := e.mask &&& ~~~x.g.amask }) = none →
    Traps (.exit w) s x 0x06 3 x.g.amask

/-- The group's going completes its block's barrier (R216): some group has arrived, and every other own group of the block has. -/
def Sys2Proof.Machine.Cx.completesBarrier (x : Cx) : Prop :=
  x.b.arrived ≠ [] ∧ ∀ h ∈ x.s.groups, h.gid ≠ x.g.gid → h.bid = x.g.bid → h.spawned = false → ∃ c, (h.gid, c) ∈ x.b.arrived

/-- A state without what its writes on their way to the scratchpads happen before (R224). -/
def Sys2Proof.Machine.State.unpast (s : State) : State := { s with scw := s.scw.map fun w => { w with past := [] } }

/-- R100, R147, R216: EXIT of a group's last threads: the group is gone, and its energy is with its block. Where it completes the
block's barrier, every other group of the block having arrived, these are let go from the next turn on; where not, who has arrived
stays so. What happened before the group's accesses is kept under its block's name (log entry 34). That EXIT counts as retired is
the model's reading (log entry 17). -/
def Sys2Proof.Machine.FinalExit : Prop :=
  ∀ w s x, Solo s (w.fields 0x01 0) x → x.Acts → x.g.allFull = true → x.g.exist &&& ~~~(x.g.fin ||| x.g.amask) = 0 →
    ∃ t, exec (.exit w) s = .next t ∧ t.still.unpast = s.still.unpast ∧ t.group? x.g.gid = none ∧
      (∀ h, h ≠ x.g.gid → (t.group? h).map Group.bare = (s.group? h).map Group.bare) ∧
      (∀ bid, bid ≠ x.g.bid → t.block? bid = s.block? bid) ∧
      ∃ b, t.block? x.g.bid = some b ∧ b.retcnt = x.b.retcnt + 1 ∧
        b.energy = x.b.energy + (x.g.energy + s.weightOf (w.fields 0x01 0)) ∧
        { b with retcnt := x.b.retcnt, energy := x.b.energy, arrived := x.b.arrived, passed := x.b.passed } = x.b ∧
        (x.completesBarrier → b.arrived = [] ∧ b.passed = x.b.passed ++ x.b.arrived.map fun e => (e.1, s.cycle + 8)) ∧
        (¬ x.completesBarrier → b.arrived = x.b.arrived ∧ b.passed = x.b.passed) ∧
        ∀ v ∈ s.scw, x.g.gid ∈ v.past → ∃ v' ∈ t.scw, v'.wid = v.wid ∧ x.g.bid ∈ v'.past

/-- R100: EXIT waits while a register it waits for is empty. -/
def Sys2Proof.Machine.ExitWaits : Prop :=
  ∀ w s x, Solo s (w.fields 0x01 0) x → x.Acts → x.g.allFull = false → HoldsBack (.exit w) s x 2

/-- R100, R147, R158, R216: EXIT of some threads, with its trap, of a group's last threads, and while a register it waits for is
empty. -/
def Obligations.Exits : Prop := PartialExit ∧ ExitTraps ∧ FinalExit ∧ ExitWaits

/-- R29, R102, R180: BRT goes to the table entry's target when the index is within the bound and a PAD with the entry's tag stands
there, the entry and the PAD read as the group's die reads them; its traps otherwise; an entry outside executable memory halts the
partition. That memory without execute permission holds no PAD is the model's reading (log entry 25), and so is the halt (log
entry 11). -/
def Obligations.TableBranches : Prop :=
  ∀ w s x, Solo s (w.fields 0x06 0) x → x.Acts →
    let base := (x.getB 0).extractLsb' 0 52
    let index := codeOf (x.getA 0)
    let at_ : VA := base + BitVec.ofNat 52 (8 * index)
    (base.toNat % 8 ≠ 0 → Traps (.brt w) s x 0x01 30 x.g.amask) ∧
    (base.toNat % 8 = 0 → codeOf (x.getC 0) ≤ index → Traps (.brt w) s x 0x04 0 x.g.amask) ∧
    (∀ pa attr, base.toNat % 8 = 0 → index < codeOf (x.getC 0) → s.fetchXlat x.c at_.toNat = .ok pa attr →
      let entry := s.dram.readN (readPa (dieOf x.g.core) pa attr) 8
      let target : VA := BitVec.ofNat 52 entry
      (s.padAt x.c (dieOf x.g.core) target (BitVec.ofNat 12 (entry / 2 ^ 52)) = true →
        Completes (.brt w) s s x.g.gid (w.fields 0x06 0) (some target)) ∧
      (s.padAt x.c (dieOf x.g.core) target (BitVec.ofNat 12 (entry / 2 ^ 52)) = false → Traps (.brt w) s x 0x05 0 x.g.amask)) ∧
    (base.toNat % 8 = 0 → index < codeOf (x.getC 0) → (∀ pa attr, s.fetchXlat x.c at_.toNat ≠ .ok pa attr) →
      ∃ t, exec (.brt w) s = .next t ∧ Booked (s.halt (dieOf x.g.core) 0x02 (sliceUnit x.g) at_.toNat) t)

/-- R286, R290, R291: TRAP and BKPT retire and raise their trap with their code; with a debugger BKPT halts the group. -/
def Obligations.SoftwareTraps : Prop :=
  (∀ w code s x, Solo s (w.fields 0x0C (0#2 ++ code)) x → x.Acts →
    ∃ t, exec (.trap w code) s = .next t ∧
      Booked ((s.retire x.g.gid x.f none).takeTrap (x.retiredHere s)
        (x.recordOf 0x08 code.toNat x.g.amask x.nextPc ((x.getA 0).extractLsb' 0 32))) t) ∧
  (∀ w code s x, Solo s (w.fields 0x0E (0#2 ++ code)) x → x.Acts →
    ∃ t, exec (.bkpt w code) s = .next t ∧
      Booked (if x.c.ctl.dbg then (s.retire x.g.gid x.f none).setGroup { x.retiredHere s with dbgStop := some x.nextPc, pc := x.g.pc }
        else (s.retire x.g.gid x.f none).takeTrap (x.retiredHere s) (x.recordOf 0x09 code.toNat x.g.amask x.nextPc 0)) t)

/-- R289: RTE restores what the handler's registers say and leaves the handler; a queued record is delivered next. -/
def Obligations.HandlerReturn : Prop :=
  ∀ w s x, Solo s (w.fields 0x0D 0) x → x.Acts →
    (x.g.handler = none → Traps (.rte w) s x 0x01 26 x.g.amask) ∧
    (∀ r, x.g.handler = some r → x.g.bankFull = false → HoldsBack (.rte w) s x 2) ∧
    (∀ r, x.g.handler = some r → x.g.bankFull = true → x.g.returnFrom = none →
      ∃ t, exec (.rte w) s = .next t ∧ Booked (s.halt (dieOf x.g.core) 0x03 (sliceUnit x.g) x.g.pc.toNat) t) ∧
    (∀ r g, x.g.handler = some r → x.g.bankFull = true → x.g.returnFrom = some g →
      let v := s.traceEvent x.b.ctx 4 x.g.core x.g.slice x.g.core (s.blockName x.b.bid) x.g.num r.pc.toNat 0
      (g.queue = [] → Completes (.rte w) s (v.setGroup g) x.g.gid (w.fields 0x0D 0) (some g.pc)) ∧
      (∀ q rest, g.queue = q :: rest → x.c.ctl.hentry ≠ 0 →
        Completes (.rte w) s ((v.setGroup { g with queue := rest }).deliver { g with queue := rest } q rest) x.g.gid (w.fields 0x0D 0)
          (some x.c.ctl.hentry)))

/-- R105, R357: GETSR sr.smpl gives a record that is held, zeros with no request tagged, and waits in flight for one to come.
One record for every GETSR in flight is the model's reading (log entry 27). -/
def Obligations.SampleReads : Prop :=
  ∀ w s x, Solo s (w.fields 0x11 0x016) x → x.Acts →
    (∀ ws, (x.g.smpl = none ∧ ws = List.replicate 8 0) ∨ (∃ tag, x.g.smpl = some tag ∧ tag.record = some ws) →
      Completes (.getsr w 0x016) s (s.setGroup { x.g.writeDst x.f.dst 0 ws with smpl := none }) x.g.gid
        (w.fields 0x11 0x016) none) ∧
    (∀ tag, x.g.smpl = some tag → tag.record = none →
      Completes (.getsr w 0x016) s (s.putResult x .smpl (regWrites x.f.dst 0 (List.replicate 8 0)) [] 0 [] [] false) x.g.gid
        (w.fields 0x11 0x016) none)

/-- R293: PCTL acts on the group's block: it is no longer idempotent, or its expected count is set; while a request to pre-empt the
block is not decided it traps (log entry 72). -/
def Sys2Proof.Machine.BlockControls : Prop :=
  (∀ w s x, Solo s (w.fields 0x13 0) x → x.Acts →
    (s.preemptOf x.b = none →
      Completes (.pctlNoidem w) s (s.setBlock { x.b with idem := false }) x.g.gid (w.fields 0x13 0) none) ∧
    (∀ r, s.preemptOf x.b = some r → Traps (.pctlNoidem w) s x 0x01 27 x.g.amask)) ∧
  (∀ w s x, Solo s (w.fields 0x13 1) x → x.Acts →
    (s.preemptOf x.b = none →
      Completes (.pctlExpect w) s (s.setBlock { x.b with expcnt := (x.getA 0).toNat }) x.g.gid (w.fields 0x13 1) none) ∧
    (∀ r, s.preemptOf x.b = some r → Traps (.pctlExpect w) s x 0x01 27 x.g.amask))

/-- R123: DLOAD loads a distribution register with a descriptor that its rules accept, and traps on another. -/
def Sys2Proof.Machine.DistributionLoads : Prop :=
  ∀ w var s x, Solo s (w.fields 0xA0 (varBits var.val)) x → x.Acts →
    (descOk (x.getA 0) x.b.shmem = true →
      Completes (.dload w var) s (s.setGroup { x.g with d := Sparse.put 0 x.g.d var.val (x.getA 0) }) x.g.gid
        (w.fields 0xA0 (varBits var.val)) none) ∧
    (descOk (x.getA 0) x.b.shmem = false → Traps (.dload w var) s x 0x01 10 x.act)

/-- R123, R293: PCTL acts on the group's block, DLOAD loads a distribution register or traps. -/
def Obligations.BlocksAndDistributions : Prop := BlockControls ∧ DistributionLoads

/-! Memory accesses (R83, R201 to R215) -/

namespace Sys2Proof.Machine

open Sys2Proof

/-- Every address of an access of n bytes passes the checks of R202. -/
def Cx.inBounds (x : Cx) (spc : Space) (n : Nat) : Prop := ∀ t ∈ x.each, x.addrFault spc (x.addr t) n = none

/-- An access that takes effect at once: no drain of its group writes the bytes, and no tile is waited for (R185, R186, R255). -/
structure Cx.Reaches (x : Cx) (spc : Space) (row : TileRow) (n : Nat) (addrs : List Nat) (entries : TileRef → List HodEntry) :
    Prop where
  clear : ∀ a ∈ addrs, x.drained spc a n = false
  ready : spc = .tw → x.waitsFor row addrs n entries = []

/-- The context in which an access takes effect: tiles held for the group are let go (R185), the request is counted for
sampling (R357), thread t's address being `at_ t`. -/
def Cx.reachedAt (x : Cx) (spc : Space) (at_ : Nat → Int) : Cx := { x with s := (x.s.unhold x.g.gid).sample x spc at_ }
def Cx.reached (x : Cx) (spc : Space) : Cx := x.reachedAt spc x.addrOf

/-- The accesses of stores and reductions without an acquire (R205, R207, R210, R213): fields, space, row, width, the writes of
a thread. -/
def storeRow : Instr → Option (Fields × Space × TileRow × Nat × (Cx → Nat → Draw → List Write × Draw))
  | .st w m => some (w.fields 0xC1 m.bits, m.space, if tyBytes m.ty < 4 then .atomic else .store, tyBytes m.ty, fun x t dr =>
      (storeWrites m.ty (x.addrN t) (x.storeData m.ty t dr).1, (x.storeData m.ty t dr).2))
  | .bari w m => some (w.fields 0xD3 m.bits, m.space, .store, 8, fun x t dr =>
      ([⟨x.addrN t, 8, .st, .i64, codeOf (x.getC t) % 2 ^ 24 * 2 ^ 32⟩], dr))
  | .redAdd w m => red w m 0xCB .add
  | .redMin w m => red w m 0xCC .min
  | .redMax w m => red w m 0xCD .max
  | .redAnd w m => red w m 0xCE .and
  | .redOr w m => red w m 0xCF .or
  | .redXor w m => red w m 0xD0 .xor
  | _ => none
where
  red (w : W) (m : AtomMod) (opc : BitVec 8) (op : MemOp) :
      Option (Fields × Space × TileRow × Nat × (Cx → Nat → Draw → List Write × Draw)) :=
    if m.ord = .acq ∨ m.ord = .ar then none
    else some (w.fields opc m.bits, m.asp, .store, atBytes m.at_, fun x t dr =>
      ([⟨x.addrN t, atBytes m.at_, op, m.at_, (x.read x.spec.c x.f.c t dr).1.toNat % 2 ^ (8 * atBytes m.at_)⟩],
        (x.read x.spec.c x.f.c t dr).2))

/-- The order of a reduction; a store and BARI have none. -/
def storeOrd : Instr → Ord
  | .redAdd _ m | .redMin _ m | .redMax _ m | .redAnd _ m | .redOr _ m | .redXor _ m => m.ord
  | _ => .relaxed

/-- The writes of a reduction at .die or wider and of BARI are in the one order of atomic operations (R225; log entry 93). -/
def storeSync : Instr → Bool
  | .redAdd _ m | .redMin _ m | .redMax _ m | .redAnd _ m | .redOr _ m | .redXor _ m => Scope.wide m.scope
  | .bari _ _ => true
  | _ => false

/-- The writes of all acting threads in ascending order (R206). -/
def Cx.writes (x : Cx) (one : Cx → Nat → Draw → List Write × Draw) : List (Nat × List Write) :=
  (writesOf x (one x) x.each Draw.start).1

/-- Atomic instructions (R207, R209 to R211, R214): fields, modifiers, width, and the operations of the acting threads with
their draws. -/
def atomRow : Instr → Option (Fields × AtomMod × Nat × (Cx → List (Nat × (Nat → Option Nat)) × Draw))
  | .atomAdd w m => some (atom w m 0xC3 .add)
  | .atomMin w m => some (atom w m 0xC4 .min)
  | .atomMax w m => some (atom w m 0xC5 .max)
  | .atomAnd w m => some (atom w m 0xC6 .and)
  | .atomOr w m => some (atom w m 0xC7 .or)
  | .atomXor w m => some (atom w m 0xC8 .xor)
  | .atomExch w m => some (atom w m 0xC9 .st)
  | .cas w m => some (w.fields 0xCA m.bits, m, atBytes m.at_, fun x => x.operands m.at_ true (atomOp .st m.at_) x.each Draw.start)
  | .redAdd w m => red w m 0xCB .add
  | .redMin w m => red w m 0xCC .min
  | .redMax w m => red w m 0xCD .max
  | .redAnd w m => red w m 0xCE .and
  | .redOr w m => red w m 0xCF .or
  | .redXor w m => red w m 0xD0 .xor
  | .bara w m => some (w.fields 0xD1 m.bits, m, 8, fun x =>
      (x.each.map fun t => (t, fun old => some (barArrive (codeOf (x.getC t) % 2 ^ 24) old)), Draw.start))
  | _ => none
where
  atom (w : W) (m : AtomMod) (opc : BitVec 8) (op : MemOp) :
      Fields × AtomMod × Nat × (Cx → List (Nat × (Nat → Option Nat)) × Draw) :=
    (w.fields opc m.bits, m, atBytes m.at_, fun x => x.operands m.at_ false (atomOp op m.at_) x.each Draw.start)
  red (w : W) (m : AtomMod) (opc : BitVec 8) (op : MemOp) :
      Option (Fields × AtomMod × Nat × (Cx → List (Nat × (Nat → Option Nat)) × Draw)) :=
    if m.ord = .acq ∨ m.ord = .ar then some (atom w m opc op) else none

/-- The registers that an atomic's old values go to: the phase for BARA, the value for the others, none for RED. -/
def atomRegs (i : Instr) (f : Fields) (m : AtomMod) (olds : List (Nat × Nat)) : List RegW :=
  olds.flatMap fun e => regWrites f.dst e.1 (match i with
    | .bara _ _ => [BitVec.ofNat 32 (barPhase e.2)]
    | _ => wordsOf (if m.at_ == .i64 then 2 else 1) (BitVec.ofNat 64 e.2))

/-- What follows the operations of an atomic (R133, R224): the critical depth, which BARA leaves alone, and what is put in order. -/
def atomAfter (i : Instr) (m : AtomMod) (y : Cx) (s : State) : State :=
  match i with
  | .bara _ _ => s.ordered y m.ord
  | _ => (s.critical y m.ord).ordered y m.ord

/-- The operations of some threads on one memory in their order: the value each found, and the memory they leave (R206). -/
def atomicRun (key : Nat → Nat) (n : Nat) : List (Nat × (Nat → Option Nat)) → Memory → List (Nat × Nat) × Memory
  | [], m => ([], m)
  | (t, f) :: rest, m =>
    let old := m.readN (key t) n
    let r := atomicRun key n rest (match f old with | some v => m.writeN (key t) n v | none => m)
    ((t, old) :: r.1, r.2)

/-- Accesses whose addresses R202 checks: the fields, the space and the width. -/
def accessRow (i : Instr) : Option (Fields × Space × Nat) :=
  match i with
  | .ld w m => some (w.fields 0xC0 m.bits, m.space, tyBytes m.ty)
  | .barw w m => some (w.fields 0xD2 m.bits, m.asp, 8)
  | _ => match storeRow i, atomRow i with
    | some r, _ => some (r.1, r.2.1, r.2.2.2.1)
    | none, some r => some (r.1, r.2.1.asp, r.2.2.1)
    | none, none => none

/-- The row of R186 that an access takes, and the entries that it makes of a tile. -/
def tileRowOf (i : Instr) : TileRow :=
  match i with
  | .ld _ _ | .barw _ _ => .load
  | _ => match storeRow i with
    | some r => r.2.2.1
    | none => .atomic
def entriesOf (i : Instr) (x : Cx) : TileRef → List HodEntry :=
  match storeRow i with
  | some r => x.entriesIn ((x.writes r.2.2.2.2).flatMap (·.2))
  | none => fun _ => []

/-- Loads and stores, which alone of these accesses are no atomic operations (R225). -/
def isPlain : Instr → Bool
  | .ld _ _ | .st _ _ => true
  | _ => false

/-- What an access has beside its addresses: BARI's count is not 0 (R213), a release's waits have ended (R211). -/
def accessReady (i : Instr) (x : Cx) : Prop :=
  match i with
  | .bari _ _ => ∀ t ∈ x.each, codeOf (x.getC t) % 2 ^ 24 ≠ 0
  | .redAdd _ m | .redMin _ m | .redMax _ m | .redAnd _ m | .redOr _ m | .redXor _ m => x.waitsRelease m.ord m.scope = false
  | _ => match atomRow i with
    | some r => x.waitsRelease r.2.1.ord r.2.1.scope = false
    | none => True

/-- An access that follows the atomic operations of its group that come before it, which of an atomic operation is asked (R225; log
entry 93); and the context in which it is then made. -/
def inOrder (i : Instr) (x : Cx) : Prop := isPlain i = true ∨ x.syncWaits = false
def Cx.placed (x : Cx) (i : Instr) : Cx := if isPlain i then x else x.afterSync

/-- The REJ draws of an instruction that is held for them have ended (R118): of one that has no destination. -/
def drawsDone (i : Instr) (x : Cx) : Prop :=
  match i with
  | .ld _ _ | .barw _ _ => True
  | _ => x.spec.dst.nil = true → x.namesRej = true → x.g.stayDone = true

/-- The bytes of a space as a group's thread sees them in a state: its spill data, its block's shared memory, its context's
region with the core's own pending writes, a tile with the core's own appends (R172, R227). -/
def Cx.sees (x : Cx) (spc : Space) (t : State) (thread a : Nat) : Option Byte :=
  match spc with
  | .sp => (t.group? x.g.gid).map fun g => g.spill.read (spillKey thread a)
  | .sh => (t.block? x.b.bid).map fun b => b.sh.read a
  | .sc => some ((t.coreScratch x.g.core).read (scratchKey x.c x.die a))
  | .tw => (x.s.findTile x.die x.b.ctx a).map fun r => t.tileByte x.g.core r (a % tileBytes)

end Sys2Proof.Machine

open Sys2Proof Sys2Proof.Machine

/-- R83: SPST puts each acting thread's run into its spill data and changes nothing else; SPLD has the words it reads in
flight; a run outside the thread's 960 bytes makes them trap STACK with detail 1. -/
def Obligations.SpillRuns : Prop :=
  (∀ w m s x, Solo s (w.fields 0x45 m.bits) x → x.Acts →
    let n := (immOf x.f.b).toNat
    (∀ off, spillOffset ((x.getC 0).extractLsb' 0 32) n = some off →
      ∃ spill, Completes (.spst w m) s (s.setGroup { x.g with spill := spill }) x.g.gid (w.fields 0x45 m.bits) none ∧
        (∀ t ∈ x.threads, ∀ j < n, spill.readN (spillKey t (off + 4 * j)) 4 = ((x.run x.f.a n t).getD j 0).toNat) ∧
        (∀ t a, t < 32 → a < 1024 → t ∉ x.threads ∨ a < off ∨ off + 4 * n ≤ a →
          spill.read (spillKey t a) = x.g.spill.read (spillKey t a))) ∧
    (x.act ≠ 0 → spillOffset ((x.getC 0).extractLsb' 0 32) n = none → Traps (.spst w m) s x 0x06 1 x.act)) ∧
  (∀ w m s x, Solo s (w.fields 0x46 m.bits) x → x.Acts →
    let n := (immOf x.f.a).toNat
    (∀ off, spillOffset ((x.getB 0).extractLsb' 0 32) n = some off →
      Completes (.spld w m) s (s.putResult x .mem (x.threads.flatMap fun t => regWrites x.f.dst t
        ((List.range n).map fun j => BitVec.ofNat 32 (x.g.spill.readN (spillKey t (off + 4 * j)) 4))) [] 0 [] [] false) x.g.gid
        (w.fields 0x46 m.bits) none) ∧
    (x.act ≠ 0 → spillOffset ((x.getB 0).extractLsb' 0 32) n = none → Traps (.spld w m) s x 0x06 1 x.act))

/-- The lanes of a trap that some threads raise, each with its cause and detail: those that share them with the lowest one (R203). -/
def Sys2Proof.Machine.Cx.faultLanes (x : Cx) (c : BitVec 8 × Nat) (fails : List (Nat × (BitVec 8 × Nat))) : Mask :=
  if x.f.s then x.g.amask else Mask.ofList ((fails.filter fun e => e.2 == c).map (·.1))

/-- R202, R203, R213: an access whose checks fail in some acting thread traps with the lowest such thread's cause and detail, and the
threads that share both as its lanes (log entry 73); it has no other effect. Once it stays in issue (R21), or its REJ draws have issued
(R118), nothing is checked again. BARI checks its count beside its address: a count of 0 has detail 19, after what is wrong with the
thread's address. -/
def Obligations.AddressTraps : Prop :=
  (∀ i f spc n s x t c rest, accessRow i = some (f, spc, n) → (∀ w m, i ≠ .bari w m) → Solo s f x → x.Acts → x.underWay = false →
    (x.each.filterMap fun t => (x.addrFault spc (x.addr t) n).map fun c => (t, c)) = (t, c) :: rest →
    Traps i s x c.1 c.2 (x.faultLanes c ((t, c) :: rest))) ∧
  ∀ w m s x t c rest, Solo s (w.fields 0xD3 m.bits) x → x.Acts →
    (x.each.filterMap fun t => ((x.addrFault m.space (x.addr t) 8).or
      (if codeOf (x.getC t) % 2 ^ 24 = 0 then some (0x01, 19) else none)).map fun c => (t, c)) = (t, c) :: rest →
    Traps (.bari w m) s x c.1 c.2 (x.faultLanes c ((t, c) :: rest))

/-- R204, R227: LD has in flight, for each acting thread, what the thread sees at its address, extended as the type says, its core's
pending operations there other than stores having been performed. That the value is taken at issue is the model's choice (log entry
74). -/
def Obligations.LoadsInFlight : Prop :=
  ∀ w m s x, Solo s (w.fields 0xC0 m.bits) x → x.Acts → x.inBounds m.space (tyBytes m.ty) →
    x.Reaches m.space .load (tyBytes m.ty) (x.each.map x.addrN) (fun _ => []) →
    let y := (x.reached m.space).ownFirst m.space (x.each.map x.addrN) (tyBytes m.ty)
    Completes (.ld w m) s (((y.s.sampleDone y m.space).putResult y .mem
        (x.each.flatMap fun t => regWrites x.f.dst t (loadedWords m.ty (y.loadN m.space t (x.addrN t) (tyBytes m.ty))))
        [] 0 [] [] y.tagged).touchAll (if m.space == .tw then y.tilesAt (x.each.map x.addrN) else [])) x.g.gid
      (w.fields 0xC0 m.bits) none

/-- R208: LDT has in flight, for each acting thread, four words of its column of the tile in memory, read at issue (the model's
choice, log entry 74); its address checks. -/
def Obligations.ColumnLoads : Prop :=
  ∀ w m s x, Solo s (w.fields 0xC2 m.bits) x → x.Acts → (m.space = .sh ∨ m.space = .sc) →
    let e := ldtWidth m.ty
    let stride := codeOf (x.getC 0)
    let at_ (t r : Nat) : Int := x.addr 0 + r * stride + t * e
    let size := if m.space == .sh then x.b.shmem else x.c.scSize
    let bad := x.threads.filter fun t => (List.range (16 / e)).any fun r => decide (at_ t r < 0 ∨ (size : Int) < at_ t r + e)
    (x.threads ≠ [] → x.addr 0 % e ≠ 0 ∨ stride % e ≠ 0 → Traps (.ldt w m) s x 0x01 16 x.act) ∧
    (x.addr 0 % e = 0 → stride % e = 0 → bad ≠ [] →
      Traps (.ldt w m) s x 0x01 17 (if (w.fields 0xC2 m.bits).s then x.g.amask else Mask.ofList bad)) ∧
    (x.addr 0 % e = 0 → stride % e = 0 →
      (∀ t ∈ x.threads, ∀ r < 16 / e, 0 ≤ at_ t r ∧ at_ t r + e ≤ size ∧ x.drained m.space (at_ t r).toNat e = false) →
      let y := (x.reachedAt m.space fun t => at_ t 0).ownFirst m.space
        (x.threads.flatMap fun t => (List.range (16 / e)).map fun r => (at_ t r).toNat) e
      Completes (.ldt w m) s ((y.s.sampleDone y m.space).putResult y .mem (x.threads.flatMap fun t => regWrites x.f.dst t
          ((List.range 4).map fun j => BitVec.ofNat 32 ((List.range (4 / e)).foldr (fun i n =>
            y.loadN m.space t (at_ t (4 / e * j + i)).toNat e + 256 ^ e * n) 0))) [] 0 [] [] y.tagged) x.g.gid
        (w.fields 0xC2 m.bits) none)

/-- R205 to R207, R210, R213, R224, R225: stores, reductions and BARI whose accesses take effect at once carry out the writes of the
acting threads in ascending order and retire; a release puts what happened before it in order. That a store has its effect at the
core at issue, and how reductions and BARI keep the order of atomic operations, are the model's choices (log entries 74, 93). -/
def Obligations.StoresComplete : Prop :=
  ∀ i f spc row n one s x, storeRow i = some (f, spc, row, n, one) → Solo s f x → x.Acts → x.inBounds spc n → accessReady i x →
    inOrder i x → drawsDone i x →
    (x.placed i).Reaches spc row n (x.each.map x.addrN) (x.entriesIn ((x.writes one).flatMap (·.2))) →
    let y := (x.placed i).reached spc
    let u := ((y.s.ordered y (storeOrd i)).sampleDone y spc).commitDraws y (writesOf x (one x) x.each Draw.start).2
    Completes i s (if spc = .tw then y.writeTiles ((x.writes one).flatMap (·.2)) (storeSync i) u
      else (x.writes one).foldl (fun v e => y.writeAll spc e.1 e.2 (storeSync i) v) u) x.g.gid f none

/-- R205 to R207, R213: which bytes a store, a reduction or BARI changes: in a thread's range whatever its own writes make of it
when no other acting thread's range meets it; every byte outside the acting threads' ranges is as it was, and so is main
memory. -/
def Obligations.StoredBytes : Prop :=
  ∀ i f spc row n one s x, storeRow i = some (f, spc, row, n, one) → Solo s f x → x.Acts → x.inBounds spc n → accessReady i x →
    inOrder i x → drawsDone i x → spc ≠ .tw →
    (x.placed i).Reaches spc row n (x.each.map x.addrN) (x.entriesIn ((x.writes one).flatMap (·.2))) →
    ∃ t, exec i s = .next t ∧ t.dram = s.dram ∧
      (∀ thread a, (spc = .sp → a < 1024) →
        (∀ e ∈ x.each, (spc = .sp → e = thread) → a < x.addrN e ∨ x.addrN e + n ≤ a) →
        x.sees spc t thread a = x.sees spc s thread a) ∧
      (∀ e ws, (e, ws) ∈ x.writes one →
        (spc ≠ .sp → ∀ d ∈ x.each, d ≠ e → x.addrN d + n ≤ x.addrN e ∨ x.addrN e + n ≤ x.addrN d) →
        let after (m : Memory) (key : Nat → Nat) : Memory :=
          ws.foldl (fun m w => performOp m (if spc = .sp then .st else w.op) w.ty (key w.addr) w.width w.val) m
        (spc = .sp → ∃ g, t.group? x.g.gid = some g ∧ g.spill.readN (spillKey e (x.addrN e)) n =
          (after x.g.spill (spillKey e)).readN (spillKey e (x.addrN e)) n) ∧
        (spc = .sh → ∃ b, t.block? x.b.bid = some b ∧ b.sh.readN (x.addrN e) n = (after x.b.sh id).readN (x.addrN e) n) ∧
        (spc = .sc → (t.coreScratch x.g.core).readN (scratchKey x.c x.die (x.addrN e)) n =
          (after (s.coreScratch x.g.core) (scratchKey x.c x.die)).readN (scratchKey x.c x.die (x.addrN e)) n))

/-- R206, R209 to R211, R214, R224, R225: atomics, reductions with an acquire and BARA whose accesses take effect at once carry out the
threads' operations in ascending order; what each found is in flight to its destination; the critical depth follows. That a CAS with
a release order waits whatever its compare finds, BARA of 0, that all is done at issue, and what comes first so that atomic operations
keep one order, are the model's choices (log entries 74 to 76, 93). -/
def Obligations.AtomicsComplete : Prop :=
  ∀ i f m n ops s x, atomRow i = some (f, m, n, ops) → m.asp ≠ .sp → Solo s f x → x.Acts → x.inBounds m.asp n →
    x.waitsRelease m.ord m.scope = false → x.syncWaits = false → drawsDone i x →
    x.afterSync.Reaches m.asp .atomic n (x.each.map x.addrN) (fun _ => []) →
    let y := x.afterSync.reached m.asp
    let r := y.swapAll m.asp n (ops x).1 (y.s.sampleDone y m.asp)
    let u := atomAfter i m y r.2
    let dr := (ops x).2
    Completes i s (if x.spec.dst.nil then u.commitDraws y dr
      else if x.namesRej then
        (u.commitNone y dr).putResult y .mem (atomRegs i f m r.1) dr.pos dr.words (rejxOf dr.qstat) [] y.tagged
      else (u.commitDraws y dr).putResult y .mem (atomRegs i f m r.1) [] 0 [] [] y.tagged) x.g.gid f none

/-- R206, R209: atomics on shared memory: the block's memory is what the threads' operations leave in their order, each one on
what the earlier ones left, and main memory, scratchpads and tiles are as they were; but that what earlier atomic operations of the
group wrote to a scratchpad is at the die first (log entry 93). -/
def Obligations.SharedAtomics : Prop :=
  ∀ i f m n ops s x, atomRow i = some (f, m, n, ops) → m.asp = .sh → Solo s f x → x.Acts → x.inBounds .sh n →
    x.waitsRelease m.ord m.scope = false → x.syncWaits = false → drawsDone i x →
    x.Reaches .sh .atomic n (x.each.map x.addrN) (fun _ => []) →
    ∃ t, exec i s = .next t ∧ t.dram = s.dram ∧ t.scratch = x.afterSync.s.scratch ∧ t.scw = (x.afterSync.s.ordered x m.ord).scw ∧
      t.appends = s.appends ∧
      (∃ b, t.block? x.b.bid = some b ∧ b.sh = (atomicRun x.addrN n (ops x).1 x.b.sh).2) ∧
      (∀ bid, bid ≠ x.b.bid → t.block? bid = s.block? bid) ∧
      (x.spec.dst.nil = false → ∃ r ∈ t.results, r.gid = x.g.gid ∧ r.kind = .mem ∧
        r.writes = atomRegs i f m (atomicRun x.addrN n (ops x).1 x.b.sh).1)

/-- R211, R212, R229: a release whose waits have not ended holds its instruction back. -/
def Sys2Proof.Machine.ReleasesWait : Prop :=
  ∀ i f m s x, (∃ n ops, atomRow i = some (f, m, n, ops) ∧ x.inBounds m.asp n) ∨
      (∃ w opc, (i = .redAdd w m ∧ opc = 0xCB ∨ i = .redMin w m ∧ opc = 0xCC ∨ i = .redMax w m ∧ opc = 0xCD ∨
        i = .redAnd w m ∧ opc = 0xCE ∨ i = .redOr w m ∧ opc = 0xCF ∨ i = .redXor w m ∧ opc = 0xD0) ∧ f = w.fields opc m.bits ∧
        x.inBounds m.asp (atBytes m.at_)) →
    Solo s f x → x.Acts → x.waitsRelease m.ord m.scope = true → HoldsBack i s x 2

/-- R225: an atomic operation of some acting thread is held back while an earlier one of its group is on its way to a log controller.
That is how the model keeps their one order (log entry 93). -/
def Sys2Proof.Machine.AtomicsFollow : Prop :=
  ∀ i f spc n s x, accessRow i = some (f, spc, n) → isPlain i = false → Solo s f x → x.Acts → x.inBounds spc n → accessReady i x →
    x.syncWaits = true → HoldsBack i s x 2

/-- R132, R206, R215: BARW retires when every acting thread's word, what its core has pending there at the die, shows another phase than
its operand names, and showed another one as the turn began too; it is held back while one does not. That the word must show it both
then and now, that all words are looked at in one attempt, and what comes first, are the model's readings (log entries 87, 30, 93). -/
def Sys2Proof.Machine.BarrierWaits : Prop :=
  ∀ w m s x, Solo s (w.fields 0xD2 m.bits) x → x.Acts → x.inBounds m.asp 8 → x.syncWaits = false →
    x.afterSync.Reaches m.asp .load 8 (x.each.map x.addrN) (fun _ => []) →
    let y := (x.afterSync.reached m.asp).atDieFirst m.asp (x.each.map x.addrN) 8
    let other (t : Nat) : Prop := barPhase (y.loadN m.asp t (x.addrN t) 8) ≠ codeOf (x.getC t) % 256 ∧
      barPhase (y.wordBegan m.asp (x.addrN t)) ≠ codeOf (x.getC t) % 256
    ((∀ t ∈ x.each, other t) →
      Completes (.barw w m) s ((y.s.sampleDone y m.asp).ordered y m.ord) x.g.gid (w.fields 0xD2 m.bits) none) ∧
    ((∃ t ∈ x.each, ¬ other t) → HoldsBack (.barw w m) s x 2)

/-- What becomes of an access that does not reach its bytes, made in the context y: it is held back while it meets a drain of its group
(R255); one that needs absent or arriving tiles parks the group until they are resident, their fetches begun (R185), and is held back
while the fault buffer has no room for one. -/
def Sys2Proof.Machine.Cx.Awaits (x : Cx) (i : Instr) (s : State) (y : Cx) (spc : Space) (row : TileRow) (n : Nat) (addrs : List Nat)
    (entries : TileRef → List HodEntry) : Prop :=
  ((∃ a ∈ addrs, y.drained spc a n = true) → HoldsBack i s x 2) ∧
  ((∀ a ∈ addrs, y.drained spc a n = false) → spc = .tw →
    let tiles := y.waitsFor row addrs n entries
    tiles ≠ [] →
    (startFetches x.g.core tiles (y.s.unhold x.g.gid) = none → HoldsBack i s x 2) ∧
    (∀ u, startFetches x.g.core tiles (y.s.unhold x.g.gid) = some u → ∃ t, exec i s = .next t ∧
      Booked ((((u.sample y .tw x.addrOf).sampleParks x.g.gid tiles).holdFor x.g.gid tiles).modGroup x.g.gid fun g =>
        { g with parked := tiles, stay := g.rejHeld.isSome, waiting := none, counted := 0 }) t))

/-- R185, R186, R208, R251, R255: loads, stores, atomics and barrier words, LDT and MLD, where they do not reach their bytes. -/
def Sys2Proof.Machine.AccessesWait : Prop :=
  (∀ i f spc n s x, accessRow i = some (f, spc, n) → Solo s f x → x.Acts → x.inBounds spc n → accessReady i x → inOrder i x →
    drawsDone i x → x.Awaits i s (x.placed i) spc (tileRowOf i) n (x.each.map x.addrN) (entriesOf i x)) ∧
  (∀ w m s x, Solo s (w.fields 0xC2 m.bits) x → x.Acts → (m.space = .sh ∨ m.space = .sc) →
    let e := ldtWidth m.ty
    let stride := codeOf (x.getC 0)
    let at_ (t r : Nat) : Int := x.addr 0 + r * stride + t * e
    let size := if m.space == .sh then x.b.shmem else x.c.scSize
    x.addr 0 % e = 0 → stride % e = 0 → (∀ t ∈ x.threads, ∀ r < 16 / e, 0 ≤ at_ t r ∧ at_ t r + e ≤ size) →
    x.Awaits (.ldt w m) s x m.space .load e (x.threads.flatMap fun t => (List.range (16 / e)).map fun r => (at_ t r).toNat)
      (fun _ => [])) ∧
  (∀ w m s x, Solo s (w.fields 0xF2 m.bits) x → x.Acts → x.g.spawned = false → x.badTile x.f.dst = false →
    x.tileFault m.space (2048 * mldWidth m.ty) = none →
    x.Awaits (.mld w m) s x m.space .load (mldWidth m.ty) ((List.range 2048).map fun e => x.addrN 0 + e * mldWidth m.ty)
      (fun _ => []))

/-- R118: a store, a reduction, or an atomic without a destination that names a REJ register stays in issue until its draws have ended;
its first attempt makes its checks, is counted for sampling (R357), and starts the draws. -/
def Sys2Proof.Machine.RejWritesWait : Prop :=
  ∀ i f spc n s x, accessRow i = some (f, spc, n) → (∀ w m, i ≠ .ld w m) → (∀ w m, i ≠ .barw w m) → x.spec.dst.nil = true →
    Solo s f x → x.Acts → x.namesRej = true → x.g.stayDone = false → x.inBounds spc n → accessReady i x → inOrder i x →
    (x.g.rejHeld.isSome = true → Stays i s (x.placed i).s x.g.gid) ∧
    (x.g.rejHeld = none → Stays i s (x.drawsBegin
      (((x.placed i).s.sample x spc x.addrOf).modGroup x.g.gid fun g => { g with reissue := true })) x.g.gid)

/-- R118, R132, R185, R186, R206, R208, R211, R212, R215, R225, R229, R251, R255: what holds a load, a store, an atomic operation, LDT or
MLD back, keeps it in issue or parks its group. -/
def Obligations.MemoryWaits : Prop := ReleasesWait ∧ AtomicsFollow ∧ BarrierWaits ∧ AccessesWait ∧ RejWritesWait

/-! Barriers, spawned work, windows, postings, tiles and gangs -/

namespace Sys2Proof.Machine

open Sys2Proof

/-- Memory and scratchpads are in t what they are in s, with the writes on their way to the scratchpads. -/
def MemoryKept (s t : State) : Prop := t.dram = s.dram ∧ t.scratch = s.scratch ∧ t.scw = s.scw

/-- Instructions that post a card (R257, R260, R268, R313): fields, what a thread posts, and the state the cards are placed on:
a collective has taken its sequence number (R315). -/
def postRow : Instr → Option (Fields × (Cx → Nat → Posting) × (Cx → State))
  | .copy w m => some (w.fields 0xE0 m.bits, copyOne m, fun x => x.s)
  | .gather w m => some (w.fields 0xE1 m.bits, rowsOne false m, fun x => x.s)
  | .scatter w m => some (w.fields 0xE2 m.bits, rowsOne true m, fun x => x.s)
  | .updSgdm w => some (w.fields 0xE4 (varBits 0), fun x _ => updOne false x, fun x => x.s)
  | .updAdamw w => some (w.fields 0xE4 (varBits 1), fun x _ => updOne true x, fun x => x.s)
  | .updstep w => some (w.fields 0xE5 0, fun _ _ => .card { kind := 0x08, regs := [], rflag := true, rcnt := true, wcnt := true, job := .updstep }, fun x => x.s)
  | .skpset w => some (w.fields 0xE6 0, fun x t => .card { kind := 0x09, regs := [], wflag := true, job := .skpset (codeOf (x.getA t) != 0) }, fun x => x.s)
  | .copy2d w m => some (w.fields 0xE7 m.bits, copy2dOne m, fun x => x.s)
  | .cfill w m => some (w.fields 0xE8 m.bits, cfillOne m, fun x => x.s)
  | .collArBuf w var => some (coll w (varBits var.val) 0xF8 0x0A var.val)
  | .collAg w => some (coll w 0 0xF9 0x0B 0)
  | .collBc w => some (coll w 0 0xFA 0x0C 0)
  | _ => none
where
  coll (w : W) (mod : BitVec 10) (opc : BitVec 8) (kind : BitVec 8) (var : Nat) :
      Fields × (Cx → Nat → Posting) × (Cx → State) :=
    (w.fields opc mod, fun x _ => collOne opc.toNat kind var (x.s.takeSeq x.b.ctx x.die (codeOf (x.getB 0))).1 x,
      fun x => (x.s.takeSeq x.b.ctx x.die (codeOf (x.getB 0))).2)

/-- The commands that the acting threads post, and the details of ILLEGAL that they raise. -/
def commandsOf (x : Cx) (one : Nat → Posting) : List Command :=
  x.each.filterMap fun t => match one t with | .card c => some c | _ => none
def badPosts (x : Cx) (one : Nat → Posting) : List (Nat × Nat) :=
  x.each.filterMap fun t => match one t with | .bad d => some (t, d) | _ => none

/-- The commands find room in their engines (R257). -/
def haveRoom (x : Cx) (l : List Command) : Prop :=
  ∀ c ∈ l, x.s.queued x.g.core (engineOf c.kind) + l.length ≤ engineRoom (engineOf c.kind)

/-- The operation that a member of a gang has accepted by the churn (R242, R243). -/
def churnOpOf (s : State) (f : Fields) (gang : List Group) (x : Cx) : Option ChurnOp :=
  match x.fmtWords.bind readFmt, tileNo x.g f.dst with
  | some fb, some n =>
    let r := mmaMember fb (aRows x.g f fb x.b.sh) (bCols gang f fb x.b.sh) (((x.b.tiles[n]?).map (·.elems)).getD [])
    some ⟨x.g.gid, x.b.bid, x.g.core, n, s.cycle + 8, r.dur, r.elems, r.status, r.mstat, r.mloss, false⟩
  | _, _ => none

/-- A block's tiles with some of them marked empty. -/
def emptied (tiles : List Tile) (ns : List Nat) : List Tile :=
  ns.foldl (fun l n => l.modify n fun t => { t with empty := true }) tiles

/-- The bytes of a drain by the ranges they go to. -/
def drainParts : List (EAddr × Nat) → List Byte → List (Nat × List Byte)
  | [], _ => []
  | r :: rest, l => (r.1.addr, l.take r.2) :: drainParts rest (l.drop r.2)

/-- What SHFL.g gives a member's threads (R159, R160): the word of the thread that its operand names, in whatever member, where
that thread acts; its own where not. -/
def gangShares (var : Nat) (gang : List Group) (x : Cx) : List Share :=
  let own (t : Nat) : List Word := x.g.exchange x.f.a x.spec.a.v t
  x.threads.map fun t => ⟨t, match shuffleSource var 128 (32 * x.g.member + t) ((x.getB t).extractLsb' 0 32) with
    | some u => match gang.find? fun g => g.member == u / 32 with
      | some g => if (g.amask &&& guardMask g x.f).getLsbD (u % 32) then g.exchange x.f.a x.spec.a.v (u % 32) else own t
      | none => own t
    | none => own t, 0⟩

end Sys2Proof.Machine

open Sys2Proof Sys2Proof.Machine

namespace Sys2Proof.Machine

/-- The groups that arrive at their block's barrier as the turn that s stands at begins: those of its gangs that stand at it. -/
def State.atBarrier (s : State) (gid : Nat) : Prop :=
  (∃ it ∈ s.turn, ∃ h, s.group? it.gid = some h ∧ gid ∈ s.gangOf h) ∧ s.arrives gid = true

/-- R132, R216: as a turn begins every group of it arrives that stands at a BARB whose waits as a release have ended, in that cycle, and
no other; a block all of whose own groups have arrived lets them go, those that arrived in this cycle in it and the others from the
next turn on, and then nothing is left of the arrivals. Nothing but blocks and what writes happen before changes. -/
def GroupsArrive : Prop :=
  ∀ (s : State) (bid : Nat) (b : Block), s.block? bid = some b →
    ∃ b', s.arriveAll.block? bid = some b' ∧ { b' with arrived := b.arrived, passed := b.passed } = b ∧
      (∀ g, s.group? g.gid = some g → g.bid = bid → s.atBarrier g.gid →
        (g.gid, s.cycle) ∈ b'.arrived ∨ (g.gid, s.cycle) ∈ b'.passed) ∧
      (∀ e, e ∈ b'.arrived ∨ e ∈ b'.passed → e ∈ b.arrived ∨ e ∈ b.passed ∨ e.2 = s.cycle ∧ s.atBarrier e.1 ∨
        e.2 = s.cycle + 8 ∧ ∃ c, (e.1, c) ∈ b.arrived) ∧
      ((∃ g, s.group? g.gid = some g ∧ g.bid = bid ∧ s.atBarrier g.gid) →
        (∀ g ∈ s.groups, g.bid = bid → g.spawned = false →
          s.group? g.gid = some g ∧ ((∃ c, (g.gid, c) ∈ b.arrived) ∨ s.atBarrier g.gid)) →
        b'.arrived = [] ∧ ∀ e ∈ b.arrived, (e.1, if e.2 = s.cycle then s.cycle else s.cycle + 8) ∈ b'.passed) ∧
      ((∃ g ∈ s.groups, g.bid = bid ∧ g.spawned = false ∧ (∀ c, (g.gid, c) ∉ b.arrived) ∧ ¬ s.atBarrier g.gid) →
        b'.passed = b.passed ∧ ∀ e ∈ b.arrived, e ∈ b'.arrived) ∧
      s.arriveAll.groups = s.groups ∧ ({ s.arriveAll with scw := s.scw, blocks := s.blocks } : State) = s

/-- R216: BARB waits at the barrier and retires when the barrier has let its group go; in a spawned group it traps. -/
def BarrierPasses : Prop :=
  ∀ w s x, Solo s (w.fields 0xD4 0) x → x.Acts →
    (x.g.spawned = true → Traps (.barb w) s x 0x01 11 x.g.amask) ∧
    (x.g.spawned = false →
      (∀ e, x.b.passed.find? (fun e => e.1 == x.g.gid) = some e →
        (e.2 ≤ s.cycle → Completes (.barb w) s
          (s.modBlock x.b.bid fun b => { b with passed := b.passed.filter fun e => e.1 != x.g.gid }) x.g.gid (w.fields 0xD4 0) none) ∧
        (s.cycle < e.2 → HoldsBack (.barb w) s x 1)) ∧
      (x.b.passed.find? (fun e => e.1 == x.g.gid) = none → HoldsBack (.barb w) s x 1))

end Sys2Proof.Machine

/-- R132, R216: groups arrive at their block's barrier as a turn begins with BARB next and its release ended, and BARB retires when the
barrier has let its group go; in a spawned group it traps. -/
def Obligations.BlockBarrier : Prop := GroupsArrive ∧ BarrierPasses
/-- R21, R169, R217, R224: FENCE retires when what it orders has been performed and stays in issue until then; DWAIT is held back while its
block has a live descendant, and in a spawned group it traps. A FENCE orders as a release and an acquire do, and what the descendants
wrote happens before what follows DWAIT. That DWAIT waits also until the appends and drains of groups of its block that are gone are
done is no rule of the spec but the model's inference from DWAIT's acquire (log entry 85). -/
def Obligations.FencesAndWaits : Prop :=
  (∀ w sc s x, Solo s (w.fields 0xD5 (sc.code ++ 0#7)) x → x.Acts →
    (fenceReady s x.g sc = true ∨ x.g.stayDone = true →
      Completes (.fence w sc) s ((s.released x.g.gid).acquired x.g.gid x.g.core) x.g.gid (w.fields 0xD5 (sc.code ++ 0#7)) none) ∧
    (fenceReady s x.g sc = false → x.g.stayDone = false → Stays (.fence w sc) s s x.g.gid)) ∧
  (∀ w s x, Solo s (w.fields 0xBC 0) x → x.Acts →
    (x.g.spawned = true → Traps (.dwait w) s x 0x01 11 x.g.amask) ∧
    (x.g.spawned = false → s.descends x.b.bid = false → s.goneSettled x.b.bid = true →
      Completes (.dwait w) s (s.inherit x.b.bid x.g.gid) x.g.gid (w.fields 0xBC 0) none) ∧
    (x.g.spawned = false → s.descends x.b.bid = true ∨ s.goneSettled x.b.bid = false → HoldsBack (.dwait w) s x 2))

/-- R146, R164: SPAWN puts one item for each acting thread at the end of its core's queue when all have room; at depth 10 it traps
DEPTH; an offset that is no multiple of 4 makes it trap. That it is held back also until its group's drains have ended is no rule of
the spec but the model's inference from R165 and R255: what they write happens before the spawned thread's accesses (log entry 95). -/
def Obligations.SpawnedItems : Prop :=
  ∀ w s x, Solo s (w.fields 0xBA 0) x → x.Acts →
    let ofs (t : Nat) : Word := (x.getB t).extractLsb' 0 32
    let bad := x.threads.filter fun t => (ofs t).extractLsb' 0 2 != 0
    let queued := (s.spawnQ.filter fun q => q.1 == x.g.core).length
    (10 ≤ x.g.depth → Traps (.spawn w) s x 0x07 0 x.act) ∧
    (x.g.depth < 10 → bad ≠ [] → Traps (.spawn w) s x 0x01 14 (Mask.ofList bad)) ∧
    (x.g.depth < 10 → bad = [] → 4096 < queued + x.threads.length ∨ s.drains? x.g.gid = true → HoldsBack (.spawn w) s x 2) ∧
    (x.g.depth < 10 → bad = [] → queued + x.threads.length ≤ 4096 → s.drains? x.g.gid = false →
      Completes (.spawn w) s { s with spawnQ := s.spawnQ ++ x.threads.map fun t =>
        (x.g.core, { pc := x.g.pc + BitVec.ofInt 52 (ofs t).toInt, arg := x.getA t, bid := x.b.bid, depth := x.g.depth + 1 }) }
        x.g.gid (w.fields 0xBA 0) none)

/-- R145, R146, R167: GLAUNCH checks its descriptor's place, is held back while a limit of grids is met, stays in issue while the
descriptor is read, and then makes the grid, whose number goes to its destination, or traps. That it is held back also until the waits
of a release at .dev have ended is the model's inference from the order that R168 gives (log entry 34). -/
def Obligations.ChildGrids : Prop :=
  ∀ w s x, Solo s (w.fields 0xBB 0) x → x.Acts →
    let off := codeOf (x.getA 0)
    (10 ≤ x.g.depth → Traps (.glaunch w) s x 0x07 0 x.act) ∧
    (x.g.depth < 10 → x.g.gdesc = none →
      (descPlaced x.c off = false → Traps (.glaunch w) s x 0x01 15 x.g.amask) ∧
      (descPlaced x.c off = true → s.gridLimit x.c.dies = true ∨ s.releaseReady x.g .dev = false → HoldsBack (.glaunch w) s x 2) ∧
      (descPlaced x.c off = true → s.gridLimit x.c.dies = false → s.releaseReady x.g .dev = true →
        Stays (.glaunch w) s (s.setGroup { x.g with gdesc := some (off, none) }) x.g.gid)) ∧
    (∀ o, x.g.depth < 10 → x.g.gdesc = some (o, none) → Stays (.glaunch w) s s x.g.gid) ∧
    (∀ o bytes, x.g.depth < 10 → x.g.gdesc = some (o, some bytes) →
      let d := (readDesc (bytesNat (bytes.take 64))).1
      let refused := (readDesc (bytesNat (bytes.take 64))).2 || tooLarge d x.c || decide (x.c.scSize < off + 64 + 4 * d.nparam)
      (refused = true → Traps (.glaunch w) s x 0x01 15 x.g.amask) ∧
      (refused = false →
        let cores := coresOf x.c.dies
        let parent := s.grid? x.b.ctx x.b.grid
        let made := s.makeGrid x.b.ctx d (wordsFrom (bytes.drop 64) d.nparam) (x.g.depth + 1) cores
          (cores.findIdx fun c => c == x.g.core) (some x.b.bid) ((parent.map (·.proc)).getD 0) ((parent.map (·.thread)).getD 0)
        Completes (.glaunch w) s (made.2.modGroup x.g.gid fun g => if x.f.dst = 0 then g else g.writeDst x.f.dst 0 [made.1])
          x.g.gid (w.fields 0xBB 0) none))

/-- R197: TMAP maps a window, or unmaps one: at once where nothing of it is left to do, and in issue until then where
something is. That an unmap with nothing left to do ends at the attempt is the model's reading (log entry 32). -/
def Obligations.WindowMaps : Prop :=
  ∀ i w s x, (i = .tmapMap w ∨ i = .tmapUnmap w) → Solo s (w.fields 0xD6 0) x → x.Acts →
    let n := codeOf (x.getA 0)
    let base := (x.getB 0).toNat
    let len := codeOf (x.getC 0)
    let done (u : State) : Prop := Completes i s u x.g.gid (w.fields 0xD6 0) none
    (x.g.stayDone = true → done s) ∧
    (x.g.stayDone = false → x.g.tmap.isSome = true → Stays i s s x.g.gid) ∧
    (x.g.stayDone = false → x.g.tmap = none → len ≠ 0 →
      let refused : Prop := 63 < n ∨ (s.window? x.die x.b.ctx n).isSome ∨ base % 2 ^ 12 ≠ 0 ∨ 2 ^ 52 ≤ base ∨ 16384 < len ∨
        x.c.frames < 128
      (refused → Traps i s x 0x01 20 x.g.amask) ∧
      (¬ refused → done { s with windows := s.windows ++ [⟨x.die, x.b.ctx, n, base, len, false, []⟩] })) ∧
    (x.g.stayDone = false → x.g.tmap = none → len = 0 →
      (s.window? x.die x.b.ctx n = none → done s) ∧
      (∀ v, s.window? x.die x.b.ctx n = some v →
        (v.closing = false → s.windowBusy v = false → done (s.dropWindow v)) ∧
        (v.closing = true ∨ s.windowBusy v = true →
          Stays i s ((s.setWindow { v with closing := true }).setGroup { x.g with tmap := some ⟨x.die, x.b.ctx, n, 0⟩ }) x.g.gid)))

/-- R21, R183, R184, R198, R199: TFETCH begins the fetch of an absent tile and retires in every case; TEVICT makes a resident tile absent
when no group or engine holds it, and stays in issue while one does or while it is arriving; no window, no effect. One whose condition
has held while its gang stayed in issue evicts, as it retires, the tile that it is to evict, if that is resident and free then (log
entry 16). That a fetch which finds the fault buffer full (R178) then waits to start by itself is the model's choice (log entry 31). -/
def Sys2Proof.Machine.TileCommands : Prop :=
  (∀ w s x, Solo s (w.fields 0xD7 0) x → x.Acts →
    (x.tileArg = none → Completes (.tfetch w) s s x.g.gid (w.fields 0xD7 0) none) ∧
    (∀ t, x.tileArg = some t → (s.tile t).st ≠ .absent → Completes (.tfetch w) s s x.g.gid (w.fields 0xD7 0) none) ∧
    (∀ t, x.tileArg = some t → (s.tile t).st = .absent →
      (∀ u, s.startFetch t x.g.core = .ok u → Completes (.tfetch w) s u x.g.gid (w.fields 0xD7 0) none) ∧
      (s.startFetch t x.g.core = .full → Completes (.tfetch w) s (s.wantTile t x.g.core) x.g.gid (w.fields 0xD7 0) none))) ∧
  (∀ w s x, Solo s (w.fields 0xD8 0) x → x.Acts →
    (x.g.stayDone = true → Completes (.tevict w) s (x.g.evicts.elim s fun t =>
      if (s.tile t).st = .resident ∧ (s.tile t).held = [] then s.evict t x.g.core else s) x.g.gid (w.fields 0xD8 0) none) ∧
    (x.g.stayDone = false → x.tileArg = none → Completes (.tevict w) s s x.g.gid (w.fields 0xD8 0) none) ∧
    (∀ t, x.g.stayDone = false → x.tileArg = some t →
      ((s.tile t).st = .absent → Completes (.tevict w) s s x.g.gid (w.fields 0xD8 0) none) ∧
      ((s.tile t).st = .resident → (s.tile t).held = [] →
        Completes (.tevict w) s (s.evict t x.g.core) x.g.gid (w.fields 0xD8 0) none) ∧
      ((s.tile t).st = .arriving ∨ (s.tile t).held ≠ [] ∧ (s.tile t).st = .resident → Stays (.tevict w) s s x.g.gid)))

/-- What TFETCH and TEVICT leave of their tile (R183, R184, R195): with a frame free and a page found, a fetched tile is arriving from
that page; an evicted tile is absent, the bytes it had dirty on their way back to main memory. No other tile changes. -/
def Sys2Proof.Machine.TilesMoved : Prop :=
  (∀ w s x t pa attr, Solo s (w.fields 0xD7 0) x → x.Acts → x.tileArg = some t → (s.tile t).st = .absent →
    s.framesUsed x.die x.b.ctx < x.c.frames → s.translate x.c (s.tileVa t) false false = .ok pa attr →
    ∃ u, Completes (.tfetch w) s u x.g.gid (w.fields 0xD7 0) none ∧
      u.tile t = { s.tile t with st := .arriving, wanted := none, pa := pa, attr := attr, fault := false, core := x.g.core } ∧
      (∀ r, r ≠ t → u.tile r = s.tile r) ∧ u.wbacks = s.wbacks ∧ MemoryKept s u) ∧
  ∀ w s x t, Solo s (w.fields 0xD8 0) x → x.Acts → x.g.stayDone = false → x.tileArg = some t → (s.tile t).st = .resident →
    (s.tile t).held = [] → (∀ a ∈ s.appends, a.begun = true → a.tile ≠ t) →
    ∃ u, Completes (.tevict w) s u x.g.gid (w.fields 0xD8 0) none ∧ u.tile t = absentTile ∧ (∀ r, r ≠ t → u.tile r = s.tile r) ∧
      u.wbacks = s.wbacks ++ (if (s.tile t).dirty = [] then []
        else [⟨s.nextId, t, s.tileVa t, (s.tile t).dirty.map fun e => (e.1, (s.tile t).data.read e.1), x.g.core, false⟩]) ∧
      MemoryKept s u

/-- R183, R184, R195, R198, R199: TFETCH and TEVICT, when they retire and what they leave of their tile. -/
def Obligations.TileMoves : Prop := TileCommands ∧ TilesMoved

/-- R257, R260, R268, R273, R313, R320: an instruction that posts places the cards of its acting threads in ascending order
when its release has ended and all find room, is held back until then, and traps where a thread's command breaks a rule. Which
windows a command may name is the model's reading (log entry 37). -/
def Obligations.Postings : Prop :=
  ∀ i f one base s x, postRow i = some (f, one, base) → Solo s f x → x.Acts →
    let cmds := commandsOf x (one x)
    (∀ t d rest, badPosts x (one x) = (t, d) :: rest →
      Traps i s x 0x01 d (if f.s then x.g.amask else Mask.ofList ((((t, d) :: rest).filter fun e => e.2 == d).map (·.1)))) ∧
    (badPosts x (one x) = [] →
      (x.postReady = true → haveRoom x cmds →
        Completes i s (cmds.foldl (fun s c => s.place x c) (base x)) x.g.gid f none) ∧
      (x.postReady = false ∨ ¬ haveRoom x cmds → HoldsBack i s x 2))

/-- R107, R271, R272: BCLOSE closes the group's batch of cards and gives its number; WAITB retires when the cards of the batches
up to the one named are gone, waits while one is left, and traps on a number not closed. -/
def Obligations.Batches : Prop :=
  (∀ w s x, Solo s (w.fields 0xE3 0) x → x.Acts →
    let n := x.g.batch + 1
    let numbered (k : Card) : Card := if k.gid = x.g.gid ∧ k.serial = 0 then { k with serial := n } else k
    Completes (.bclose w) s (State.setGroup { s with cards := s.cards.map numbered }
      (Group.writeDst { x.g with batch := n } x.f.dst 0 [BitVec.ofNat 32 (batchNumber n)])) x.g.gid (w.fields 0xE3 0) none) ∧
  (∀ w s x, Solo s (w.fields 0x10 0) x → x.Acts →
    let n := codeOf (x.getA 0)
    (n = 0 → Completes (.waitb w) s s x.g.gid (w.fields 0x10 0) none) ∧
    (n ≠ 0 → latestBatch x.g.batch n = none → Traps (.waitb w) s x 0x01 25 x.g.amask) ∧
    (∀ m, n ≠ 0 → latestBatch x.g.batch n = some m →
      ((∀ k ∈ s.cards, k.gid = x.g.gid → k.serial = 0 ∨ m < k.serial) →
        Completes (.waitb w) s s x.g.gid (w.fields 0x10 0) none) ∧
      ((∃ k ∈ s.cards, k.gid = x.g.gid ∧ 0 < k.serial ∧ k.serial ≤ m) → HoldsBack (.waitb w) s x 2)))

/-- R310 to R315, R318, R320: COLL.ar with register operands takes its die's next sequence number, contributes its value, and has
its destination in flight until every rank has issued. -/
def Obligations.RegisterCollectives : Prop :=
  ∀ w var s x, Solo s (w.fields 0xF8 (varBits var.val)) x → x.Acts →
    (x.commOf = none → Traps (.collArReg w var) s x 0x01 28 x.g.amask) ∧
    (∀ n cm rank, x.commOf = some (n, cm, rank) → s.releaseReady x.g .sys = false → HoldsBack (.collArReg w var) s x 2) ∧
    (∀ n cm rank, x.commOf = some (n, cm, rank) → s.releaseReady x.g .sys = true →
      let q := s.takeSeq x.b.ctx x.die n
      let u := q.2.putResult x .coll (regWrites x.f.dst 0 [0]) [] 0 [] [] false
      Completes (.collArReg w var) s { u with contribs := u.contribs ++
        [⟨x.b.ctx, x.die, n, q.1, ⟨rank, 0xF8, var.val, 1, 0, [(x.getA 0).extractLsb' 0 32]⟩, x.g.num, s.blockName x.b.bid, s.nextId⟩] }
        x.g.gid (w.fields 0xF8 (varBits var.val)) none)

/-- R236, R249, R250: MZERO clears a tile and its status, MSTAT reads a tile's status; both trap in a spawned group and on a tile
that the block does not have. -/
def Sys2Proof.Machine.TileStatus : Prop :=
  (∀ w s x, Solo s (w.fields 0xF1 0) x → x.Acts →
    (x.g.spawned = true → Traps (.mzero w) s x 0x01 11 x.g.amask) ∧
    (x.g.spawned = false → x.badTile x.f.dst = true → Traps (.mzero w) s x 0x01 22 x.g.amask) ∧
    (x.g.spawned = false → x.badTile x.f.dst = false →
      Completes (.mzero w) s (s.setBlock { x.b with tiles := x.b.tiles.set (x.tileOf x.f.dst) ⟨[], false, 0x10⟩ }) x.g.gid
        (w.fields 0xF1 0) none)) ∧
  (∀ w s x, Solo s (w.fields 0xF4 0) x → x.Acts →
    (x.g.spawned = true → Traps (.mstat w) s x 0x01 11 x.g.amask) ∧
    (x.g.spawned = false → x.badTile x.f.a = true → Traps (.mstat w) s x 0x01 22 x.g.amask) ∧
    (x.g.spawned = false → x.badTile x.f.a = false →
      ∃ g, Wrote (Src.of x.f.dst) [⟨0, [(x.tileAt x.f.a).status], 0⟩] x.g g ∧
        Completes (.mstat w) s (s.setGroup g) x.g.gid (w.fields 0xF4 0) none))

/-- R236, R251: MLD has the tile's 2,048 elements in flight from consecutive addresses, each widened to 32 bits; the tile is empty until
they arrive. It traps in a spawned group, on a tile that the block does not have, and on a bad address. -/
def Sys2Proof.Machine.TileLoads : Prop :=
  ∀ w m s x, Solo s (w.fields 0xF2 m.bits) x → x.Acts →
    let n := mldWidth m.ty
    let addrs := (List.range 2048).map fun e => x.addrN 0 + e * n
    (x.g.spawned = true → Traps (.mld w m) s x 0x01 11 x.g.amask) ∧
    (x.g.spawned = false → x.badTile x.f.dst = true → Traps (.mld w m) s x 0x01 22 x.g.amask) ∧
    (∀ d, x.g.spawned = false → x.badTile x.f.dst = false → x.tileFault m.space (2048 * n) = some d →
      Traps (.mld w m) s x 0x01 d x.g.amask) ∧
    (x.g.spawned = false → x.badTile x.f.dst = false → x.tileFault m.space (2048 * n) = none →
      x.Reaches m.space .load n addrs (fun _ => []) →
      let y := (x.reached m.space).ownFirst m.space addrs n
      let u := y.s.sampleDone y m.space
      let v := u.fresh.2.modBlock x.b.bid fun b =>
        { b with tiles := b.tiles.modify (x.tileOf x.f.dst) fun t => { t with empty := true } }
      Completes (.mld w m) s (State.touchAll { v with results := v.results ++
          [⟨u.nextId, x.g.gid, .mld, [], x.g.handler.isSome, [], 0, [], [], x.g.pc, some (x.b.bid, x.tileOf x.f.dst,
            tileWords (addrs.map fun a => widenElem m.ty (y.loadN m.space 0 a n))), y.tagged⟩] }
          (if m.space == .tw then y.tilesAt addrs else [])) x.g.gid (w.fields 0xF2 m.bits) none)

/-- R236, R249 to R251: MZERO, MSTAT and MLD on the block's tiles. -/
def Obligations.TileContents : Prop := TileStatus ∧ TileLoads

/-- R236, R252, R254: MDRAIN reads the whole tile, converts each element, and leaves the bytes in its core's drain port, cut where they
cross tiles of a window; with 8 drains there it is held back. It traps in a spawned group, on a tile that the block does not have, and
on a bad address, which comes before the port (log entry 101). -/
def Obligations.TileDrains : Prop :=
  ∀ w m s x, Solo s (w.fields 0xF3 m.bits) x → x.Acts →
    let n := mldWidth m.ty
    let port := (s.drains.filter fun d => d.core == x.g.core).length
    (x.g.spawned = true → Traps (.mdrain w m) s x 0x01 11 x.g.amask) ∧
    (x.g.spawned = false → x.badTile x.f.c = true → Traps (.mdrain w m) s x 0x01 22 x.g.amask) ∧
    (∀ d, x.g.spawned = false → x.badTile x.f.c = false → x.tileFault m.space (2048 * n) = some d →
      Traps (.mdrain w m) s x 0x01 d x.g.amask) ∧
    (x.g.spawned = false → x.badTile x.f.c = false → x.tileFault m.space (2048 * n) = none → 8 ≤ port →
      HoldsBack (.mdrain w m) s x 2) ∧
    (x.g.spawned = false → x.badTile x.f.c = false → x.tileFault m.space (2048 * n) = none → port < 8 →
      let bytes := (List.range 2048).flatMap fun e => bytesOf n (drainElem m (Sparse.get 0 (x.tileAt x.f.c).elems e).toNat)
      let place := (placeOf m.space).getD .sc
      let parts := drainParts (cutRange ⟨place, x.addrN 0⟩ bytes.length) bytes
      let v := s.sample x m.space x.addrOf
      let d : Drain := ⟨v.nextId, x.g.gid, x.g.core, x.b.bid, x.b.ctx, place, parts, m.add, m.ty, m.sat, Cx.tagged { x with s := v }⟩
      Completes (.mdrain w m) s (State.drainSample { v.fresh.2 with drains := v.drains ++ [d] } d fun t =>
        { t with issued := true, bank := m.space == .sc }) x.g.gid (w.fields 0xF3 m.bits) none)

/-- R138, R150, R160: SHFL.g of a group by itself traps with detail 12 where it is not converged, with 13 where its quartet was formed
with fewer than four members, and waits for its quartet where it is split. -/
def Sys2Proof.Machine.ShufflesMeet : Prop :=
  ∀ w m s x, Solo s (w.fields 0xB7 m.bits) x → x.skipped = false →
    (x.g.converged = false → Traps (.shflG w m) s x 0x01 12 x.act) ∧
    (x.g.converged = true → x.wholeQuartet = false → Traps (.shflG w m) s x 0x01 13 x.act) ∧
    (x.g.converged = true → x.wholeQuartet = true → HoldsBack (.shflG w m) s x 3)

/-- SHFL.g in a fused quartet (R137, R138, R159, R160). -/
def Sys2Proof.Machine.ShufflesExchange : Prop :=
  ∀ w m s g xs, Ganged s (w.fields 0xB7 m.bits) g xs → (∀ x ∈ xs, x.Acts ∧ x.g.converged = true ∧ x.wholeQuartet = true ∧
      x.namesRej = false) →
    ∃ u t, exec (.shflG w m) s = .next t ∧ GangRetires u g.bid (s.gangOf g) (w.fields 0xB7 m.bits) t ∧ u.still = s.still ∧
      u.blocks = s.blocks ∧ (∀ h, h ∉ s.gangOf g → u.group? h = s.group? h) ∧
      ∀ x ∈ xs, ∃ g', u.group? x.g.gid = some g' ∧
        Wrote (Src.of x.f.dst) (gangShares m.var.val (s.quartetOf x.g) x) x.g g'

/-- R137, R138, R150, R159, R160: SHFL.g in a fused quartet whose members stand converged gives every acting thread of every member
its source's word as it was before any of them was written; by itself a group traps or waits. That one step issues all members is
the model's form of a gang (log entries 13, 16). -/
def Obligations.GangShuffles : Prop := ShufflesExchange ∧ ShufflesMeet

/-- R138, R150, R235, R236, R242: MMA.q of a group by itself traps with details 21 for a guard, 22 for a tile that its block does not
have, 12 and 13, in this order, and waits for its quartet where it is split. -/
def Sys2Proof.Machine.MatrixMeets : Prop :=
  ∀ i w s x, (i = .mmaQ w ∨ i = .mmaQImage w) → Solo s (w.fields 0xF0 0) x →
    (x.f.gidx ≠ 0 → Traps i s x 0x01 21 x.act) ∧
    (x.f.gidx = 0 → x.badTile x.f.dst = true → Traps i s x 0x01 22 x.act) ∧
    (x.f.gidx = 0 → x.badTile x.f.dst = false →
      (x.g.converged = false → Traps i s x 0x01 12 x.act) ∧
      (x.g.converged = true → x.wholeQuartet = false → Traps i s x 0x01 13 x.act) ∧
      (x.g.converged = true → x.wholeQuartet = true → HoldsBack i s x 3))

/-- R19, R242, R285: MMA.q in a fused quartet, one member of which finds a source with EF = 1 empty: that member takes its trap, the
others stay at the MMA.q, the churn accepts nothing, and the quartet splits. -/
def Sys2Proof.Machine.MatrixTraps : Prop :=
  ∀ i w s g xs y, (i = .mmaQ w ∨ i = .mmaQImage w) → Ganged s (w.fields 0xF0 0) g xs → (∀ x ∈ xs, mmaPre x = none) → y ∈ xs →
    y.emptyTrap.1 ≠ 0 → (∀ x ∈ xs, x ≠ y → x.emptyTrap.1 = 0) → y.g.handler = none → y.c.ctl.hentry ≠ 0 →
    ∃ t, exec i s = .next t ∧ GangSplits s g y 0x03 y.emptyTrap.1 t ∧ t.churn = s.churn ∧
      ∀ x ∈ xs, x ≠ y → (t.group? x.g.gid).map Group.bare = some x.g.bare

/-- R237, R242, R298: MMA.q in a fused quartet no member of which traps waits, all members together, while one is held back or the queue
of the churn has no room for four. -/
def Sys2Proof.Machine.MatrixWaits : Prop :=
  ∀ i w s g xs, (i = .mmaQ w ∨ i = .mmaQImage w) → Ganged s (w.fields 0xF0 0) g xs →
    (∀ x ∈ xs, mmaPre x = none ∧ x.emptyTrap.1 = 0) →
    (∃ x ∈ xs, x.heldBack = true) ∨
      (∀ x ∈ xs, ∃ fb, x.fmtWords.bind readFmt = some fb ∧ fb.recordsIn x.b.shmem = true) ∧
        16 < (s.churn.filter fun o => o.core == g.core).length + 4 →
    ∃ t, exec i s = .next t ∧ GangWaits s g xs t

/-- MMA.q in a fused quartet that every check of R242 lets go (R235 to R237, R242, R243). -/
def Sys2Proof.Machine.MatrixAccepts : Prop :=
  ∀ i w s g xs, (i = .mmaQ w ∨ i = .mmaQImage w) → Ganged s (w.fields 0xF0 0) g xs → s.mmaGang xs g.core = .go →
    let gang := (s.gangOf g).filterMap s.group?
    ∃ u t, exec i s = .next t ∧ GangRetires u g.bid (s.gangOf g) (w.fields 0xF0 0) t ∧
      u.still = { s.still with churn := s.churn ++ xs.filterMap (churnOpOf s (w.fields 0xF0 0) gang) } ∧
      (∀ h, u.group? h = s.group? h) ∧ (∀ d, d ≠ g.bid → u.block? d = s.block? d) ∧
      (∀ b, s.block? g.bid = some b → u.block? g.bid = some { b with
        tiles := emptied b.tiles (xs.filterMap fun x => tileNo x.g (w.fields 0xF0 0).dst) })

/-- R138, R150, R235 to R237, R242, R243: MMA.q in a fused quartet that every check of R242 lets go: the churn of its core has accepted
one operation for each member, computed from the operands at issue; each member's tile is empty and the members stand after it.
Otherwise a member traps or all wait; by itself a group traps or waits for its quartet. That one step issues all members is the
model's form of a gang (log entries 13, 16). -/
def Obligations.MatrixIssues : Prop := MatrixAccepts ∧ MatrixMeets ∧ MatrixTraps ∧ MatrixWaits

/-! Events -/

namespace Sys2Proof.Machine

open Sys2Proof

/-- Event i answers a next state with the property P. -/
def Yields (i : Instr) (s : State) (P : State → Prop) : Prop := ∃ t, exec i s = .next t ∧ P t

/-- Group gid is g' in t, and every other group and every block is in t what it is in s. -/
def GroupNow (s t : State) (gid : Nat) (g' : Group) : Prop :=
  t.group? gid = some g' ∧ (∀ h, h ≠ gid → t.group? h = s.group? h) ∧ t.blocks = s.blocks

/-- Block bid is b' in t, and every other block and every group is in t what it is in s. -/
def BlockNow (s t : State) (bid : Nat) (b' : Block) : Prop :=
  t.block? bid = some b' ∧ (∀ h, h ≠ bid → t.block? h = s.block? h) ∧ t.groups = s.groups

/-- A result's write goes to the register that its number names now, in the bank in use (R31). -/
def inBank (g : Group) (r : Result) (w : RegW) : Bool :=
  !((if w.vec then bankedV (vKey w.reg w.thr) else bankedS w.reg) && r.bank != g.handler.isSome)

/-- g' is g after some registers of result r were written (R19): each of those holds its word and is full, every other one is as it
was. -/
structure Filled (r : Result) (g g' : Group) : Prop where
  rest : g' =
    { g with regs := g'.regs, other := g'.other, qp := g'.qp, qstat := g'.qstat, fpstat := g'.fpstat,
             stayDone := g'.stayDone, smpl := g'.smpl }
  v : ∀ w ∈ r.writes, w.vec = true → inBank g r w = true → (∀ u ∈ r.writes, u.vec = true → u.reg = w.reg → u.thr = w.thr → u = w) →
    g'.vget w.reg w.thr = w.val ∧ g'.vempty w.reg w.thr = false
  s : ∀ w ∈ r.writes, w.vec = false → inBank g r w = true → (∀ u ∈ r.writes, u.vec = false → u.reg = w.reg → u = w) →
    g'.sget w.reg = w.val ∧ g'.sempty w.reg = false
  vOther : ∀ q t, t < 32 → (∀ u ∈ r.writes, u.vec = true → (u.reg, u.thr) ≠ (q, t)) →
    g'.vget q t = g.vget q t ∧ g'.vempty q t = g.vempty q t
  sOther : ∀ q, (∀ u ∈ r.writes, u.vec = false → u.reg ≠ q) → g'.sget q = g.sget q ∧ g'.sempty q = g.sempty q
  k : ∀ q, g'.kget q = g.kget q

/-- t is s after all of result r has come: positions and status are committed, the sticky bits raised (R72, R117, R118), and a tagged
request has ended with it (R357). -/
structure Landed (s : State) (r : Result) (t : State) : Prop where
  gone : t.results = s.results.filter fun q => q.rid != r.rid
  used : t.fills = s.fills.tail
  group : ∀ g, s.group? r.gid = some g → ∃ g', Filled r g g' ∧ GroupNow s t r.gid g' ∧
    g'.smpl = (if r.tagged then (g.sampleEnd s.now).smpl else g.smpl) ∧
    (r.slots = [] → g'.qp = g.qp) ∧
    g'.fpstat = g.fpstat ||| (r.causes.foldl (fun (m : Causes) e => m ||| e.2) 0).zeroExtend 32 ∧
    g'.stayDone = (g.stayDone || (r.kind == .rej && r.writes.isEmpty && g.rejHeld.isSome))
  memory : MemoryKept s t

/-- What of a result comes now: the registers of some threads. -/
def Result.part (r : Result) (who : Mask) (now : Bool) : Result :=
  { r with writes := r.writes.filter fun w => who.getLsbD w.thr == now }

/-- The registers of a tagged request's thread are among those that come now (R358). -/
def Result.endsTag (r : Result) (who : Mask) (g : Group) : Bool :=
  r.tagged && (r.part who true).writes.any fun w => g.smpl.any fun t => w.vec && t.lane == w.thr

/-- t is s after result r has come in some threads and not in others yet, which stay empty until it does: an instruction's threads may
fill apart (R19). The tagged request ends with its own thread (R358). -/
structure LandedIn (s : State) (r : Result) (who : Mask) (t : State) : Prop where
  left : ∀ g, s.group? r.gid = some g → t.results =
    replaceBy (fun q => q.rid == r.rid) { r.part who false with tagged := r.tagged && !r.endsTag who g } s.results
  used : t.fills = s.fills.tail
  group : ∀ g, s.group? r.gid = some g → ∃ g', Filled (r.part who true) g g' ∧ GroupNow s t r.gid g' ∧
    g'.smpl = (if r.endsTag who g then (g.sampleEnd s.now).smpl else g.smpl) ∧
    g' = { g with regs := g'.regs, other := g'.other, smpl := g'.smpl }
  memory : MemoryKept s t

/-- The core of a group with a result in flight runs (R295, R353). -/
def State.receives (s : State) (r : Result) : Prop := ∀ g, s.group? r.gid = some g → s.coreRuns g.core = true

end Sys2Proof.Machine

open Sys2Proof Sys2Proof.Machine

/-- R19, R117, R118, R204, R358: the results of loads, atomics, special functions and REJ draws come and fill their registers while the
group's core runs, in all threads at once or in some before others. At which moment a result lands, and in which threads first, is free:
data of the state (log entries 2, 60). -/
def Obligations.ResultsLand : Prop :=
  ∀ (s : State) (rid : Nat) (r : Result), (∀ w ∈ r.writes, w.vec = true → w.thr < 32) → s.receives r →
    let lands (i : Instr) : Prop :=
      ((∀ w ∈ r.writes, s.nextFill.getLsbD w.thr = true) → Yields i s (Landed s r)) ∧
      ((∃ w ∈ r.writes, s.nextFill.getLsbD w.thr = false) → Yields i s (LandedIn s r s.nextFill))
    ((s.results.find? fun r => r.rid == rid && r.kind == .mem) = some r → lands (.memoryResultWrite rid)) ∧
    ((s.results.find? fun r => r.rid == rid && r.kind == .sfu) = some r → lands (.sfuResultWrite rid)) ∧
    ((s.results.find? fun r => r.rid == rid && r.kind == .rej) = some r → lands (.rejDrawComplete rid))

namespace Sys2Proof.Machine

/-- MLD_FILL (R251): every element of the tile is written, the tile is full, its status that of a load. -/
def TilesFill : Prop :=
  ∀ (s : State) (rid : Nat) (r : Result) (bid n : Nat) (elems : Sparse Word) (b : Block),
    (s.results.find? fun r => r.rid == rid && r.kind == .mld) = some r → r.tile = some (bid, n, elems) →
    s.block? bid = some b → n < b.tiles.length → s.receives r →
    Yields (.mldFill rid) s fun t => t.block? bid = some { b with tiles := b.tiles.set n ⟨elems, false, 0x20⟩ } ∧
      (∀ h, h ≠ bid → t.block? h = s.block? h) ∧
      (∀ h, t.group? h = if r.tagged = true ∧ h = r.gid then (s.group? h).map (·.sampleEnd s.now) else s.group? h) ∧
      t.results = s.results.filter (fun q => q.rid != rid) ∧ MemoryKept s t

/-- SMPL_RECORD_FILL (R357): once the tagged request is done, while the group's core runs (R295), with no GETSR.smpl waiting the group
holds the record; with one waiting for a run of eight s registers, register j of the run receives word j of the record, and the tag is
free again. -/
def SamplesFill : Prop :=
  ∀ (s : State) (gid : Nat) (times : SmplTimes) (g : Group) (m : Smpl), s.group? gid = some g → g.smpl = some m →
    m.record = none → m.issued = true → s.coreRuns g.core = true → (s.results.any fun r => r.gid == gid && r.tagged) = false →
    (s.appends.any fun a => a.gid == gid && a.tagged != 0) = false → (s.drains.any fun d => d.gid == gid && d.tagged) = false →
    let total := m.finish.getD s.now - m.first
    ((s.results.any fun r => r.gid == gid && r.kind == .smpl) = false →
      Yields (.smplRecordFill gid times) s fun t =>
        GroupNow s t gid { g with smpl := some { m with record := some (smplRecord m total times) } } ∧ t.results = s.results) ∧
    ((s.results.any fun r => r.gid == gid && r.kind == .smpl) = true →
      Yields (.smplRecordFill gid times) s fun t => ∃ g', GroupNow s t gid g' ∧ g'.smpl = none ∧ g'.pc = g.pc ∧
        t.results = (s.results.filter fun r => !(r.gid == gid && r.kind == .smpl)) ∧
        ∀ r r0, (s.results.filter fun r => r.gid == gid && r.kind == .smpl) = [r] →
          (r.writes.map fun w => (w.vec, w.reg)) = ((List.range 8).map fun j => (false, r0 + j)) → (∀ w ∈ r.writes, inBank g r w = true) →
          ∀ j, j < 8 → g'.sget (r0 + j) = (smplRecord m total times).getD j 0 ∧ g'.sempty (r0 + j) = false)

/-- DESCRIPTOR_READ_DONE (R167): the group that launches holds the bytes of the header, as its own loads would read them; main
memory and what the group's core sees of the scratchpads stay as they are. -/
def DescriptorsRead : Prop :=
  ∀ (s : State) (gid off : Nat) (g : Group) (b : Block) (c : Ctx), s.group? gid = some g → s.block? g.bid = some b →
    s.ctx? b.ctx = some c → g.gdesc = some (off, none) → s.dieRuns (dieOf g.core) = true →
    Yields (.descriptorReadDone gid) s fun t => ∃ bytes, GroupNow s t gid { g with gdesc := some (off, some bytes) } ∧
      bytes.take 64 = (s.coreScratch g.core).readList (scratchKey c (dieOf g.core) off) 64 ∧ t.dram = s.dram ∧
      t.coreScratch g.core = s.coreScratch g.core ∧ ∀ w ∈ s.scw, w.core ≠ g.core → w ∈ t.scw

/-- DELAY_DEADLINE (R108): from the deadline on the group's positions are used again. -/
def DelaysEnd : Prop :=
  ∀ (s : State) (gid : Nat) (g : Group) (d : Nat), s.group? gid = some g → g.delay = some d → d ≤ s.now →
    Yields (.delayDeadline gid) s fun t => GroupNow s t gid { g with delay := none } ∧ MemoryKept s t

/-- DEBUG_RESUME (R292): the group goes on at its resume pc. -/
def DebuggerResumes : Prop :=
  ∀ (s : State) (gid : Nat) (g : Group) (pc : VA), s.group? gid = some g → g.dbgStop = some pc →
    Yields (.debugResume gid) s fun t => GroupNow s t gid { g with dbgStop := none, pc := pc } ∧ MemoryKept s t

/-- QUARTET_FUSE (R136): at the end of a turn with a point of re-fusion four members at one pc with nothing that holds them apart are
fused again; otherwise no quartet changes. -/
def QuartetsFuse : Prop :=
  ∀ (s : State) (bid j : Nat) (b : Block), s.block? bid = some b → (bid, j) ∈ s.refuse → s.cycle + 7 ≤ s.now →
    (s.together bid j = true → Yields (.quartetFuse bid j) s fun t => BlockNow s t bid (b.setFused j true)) ∧
    (s.together bid j = false → Yields (.quartetFuse bid j) s fun t => BlockNow s t bid b)

/-- WDOG_EXPIRY (R297, R298): the context's log has a WDOG record with the watchdog as its detail; a group out of its handler enters it
with cause WDOG and that detail, and leaves the block barrier; in its handler the record joins the queue, the ninth halting the
partition (R287). -/
def WatchdogsExpire : Prop :=
  ∀ (s : State) (gid kind : Nat) (g : Group) (b : Block) (c : Ctx), s.group? gid = some g → g.waiting = some kind →
    s.block? g.bid = some b → s.ctx? b.ctx = some c → g.raised = false → c.ctl.wdlim ≠ 0 → c.ctl.wdlim.toNat ≤ g.counted →
    s.coreRuns g.core = true →
    (c.log.length < c.logCap → Yields (.wdogExpiry gid) s fun t => ∃ c' rec, t.ctx? b.ctx = some c' ∧ c'.log = c.log ++ [rec] ∧
      rec.extractLsb' 488 8 = 0x05#8 ∧ rec.extractLsb' 332 52 = g.pc ∧ rec.extractLsb' 0 16 = BitVec.ofNat 16 (waitDetail kind)) ∧
    (g.handler = none → c.ctl.hentry ≠ 0 → Yields (.wdogExpiry gid) s fun t =>
      t.group? gid = some (g.loseTag.enter c.ctl.hentry (trapRecOf g trapWdog (waitDetail kind) g.amask g.pc 0) []) ∧
      (∀ h, h ≠ gid → t.group? h = s.group? h) ∧ (∃ b', t.block? g.bid = some b' ∧ b'.arrived = b.arrived.filter fun e => e.1 != gid) ∧
      MemoryKept s t) ∧
    (g.handler.isSome = true → g.queue.length < 8 → Yields (.wdogExpiry gid) s fun t =>
      t.group? gid = some { g with queue := g.queue ++ [trapRecOf g trapWdog (waitDetail kind) g.amask g.pc 0] } ∧
      (∀ h, h ≠ gid → t.group? h = s.group? h) ∧ MemoryKept s t) ∧
    (g.handler.isSome = true → 8 ≤ g.queue.length → ∀ p, s.part? (dieOf g.core) = some p → p.halted = none →
      Yields (.wdogExpiry gid) s fun t => ∃ p', t.part? (dieOf g.core) = some p' ∧ p'.halted = some haltQueue ∧ p'.addr = g.pc.toNat ∧ t.groups = s.groups)

end Sys2Proof.Machine

/-- R108, R136, R167, R251, R292, R297, R298, R357: what the events of a group do to it and to its block. Model's readings: WDOG
enters the handler with one pc for both (log entry 23), one record fills every GETSR sr.smpl in flight (log entry 27). -/
def Obligations.GroupEventsAct : Prop :=
  TilesFill ∧ SamplesFill ∧ DescriptorsRead ∧ DelaysEnd ∧ DebuggerResumes ∧ QuartetsFuse ∧ WatchdogsExpire

namespace Sys2Proof.Machine

/-- SPAWN_PACK_ITEM (R143): the item at the head of a core's queue joins the open group of its pc and block as its next
thread, which is sealed at its 32nd; with no such group and fewer than 16 open it opens one. -/
def ItemsPack : Prop :=
  ∀ (s : State) (core : Nat) (it : Item) (rest : List (Nat × Item)), takeItem core s.spawnQ = some (it, rest) → s.coreRuns core = true →
    (∀ o, (s.openG.find? fun o => o.core == core && o.pc == it.pc && o.bid == it.bid) = some o →
      (o.args.length + 1 ≠ 32 → Yields (.spawnPackItem core) s fun t => t.spawnQ = rest ∧ t.sealedG = s.sealedG ∧
        t.openG = replaceBy (fun p => p.oid == o.oid) { o with args := o.args ++ [it.arg] } s.openG ∧ t.groups = s.groups) ∧
      (o.args.length + 1 = 32 → Yields (.spawnPackItem core) s fun t => t.spawnQ = rest ∧
        t.sealedG = s.sealedG ++ [{ o with args := o.args ++ [it.arg] }] ∧ t.openG = (s.openG.filter fun p => p.oid != o.oid) ∧
        t.groups = s.groups)) ∧
    ((s.openG.find? fun o => o.core == core && o.pc == it.pc && o.bid == it.bid) = none →
      (s.openG.filter fun o => o.core == core).length < 16 → Yields (.spawnPackItem core) s fun t => t.spawnQ = rest ∧
        t.openG = s.openG ++ [⟨s.nextId, core, it.pc, it.bid, it.depth, [it.arg], s.now⟩] ∧ t.sealedG = s.sealedG ∧ t.groups = s.groups)

/-- PARTIAL_GROUP_SEAL (R143): 256 cycles after its first thread joined an open group is sealed as it stands, while its core runs
(R295). -/
def PartialsSeal : Prop :=
  ∀ (s : State) (core oid : Nat) (o : OpenGroup), (s.openG.find? fun o => o.core == core && o.oid == oid) = some o →
    s.coreRuns core = true →
    (o.since + 256 ≤ s.now → Yields (.partialGroupSeal core oid) s fun t =>
      t.openG = (s.openG.filter fun p => p.oid != oid) ∧ t.sealedG = s.sealedG ++ [o] ∧ t.groups = s.groups) ∧
    (s.now < o.since + 256 → exec (.partialGroupSeal core oid) s = .next s)

/-- SPAWNED_GROUP_START (R144): a sealed group starts in the lowest free slot of its core, at the spawned pc with all its
threads active, thread t finding its argument in v0 and v1. -/
def SpawnedStart : Prop :=
  ∀ (s : State) (core slot : Nat) (o : OpenGroup) (b : Block) (c : Ctx), (s.sealedG.find? fun o => o.core == core) = some o →
    s.block? o.bid = some b → s.ctx? b.ctx = some c → s.freeSlot core c = some slot → s.coreRuns core = true → b.phase ≠ .saving →
    o.args.length ≤ 32 → s.group? s.nextId = none → Yields (.spawnedGroupStart core) s fun t => ∃ g, t.group? s.nextId = some g ∧
      g.spawned = true ∧ g.bid = o.bid ∧ g.pc = o.pc ∧ g.depth = o.depth ∧ g.core = core ∧ g.slot = slot ∧
      g.amask = groupMask o.args.length 0 ∧
      (∀ n a, o.args[n]? = some a → g.vget 0 n = a.extractLsb' 0 32 ∧ g.vget 1 n = a.extractLsb' 32 32) ∧
      t.sealedG = (s.sealedG.filter fun p => p.oid != o.oid) ∧ ∀ h, h ≠ s.nextId → t.group? h = s.group? h

/-- PLACE_BLOCK (R148, R299, R356): a block of the grid that was discarded, once the request that discarded it has ended, or else the
grid's next block goes to the first core with room, from the grid's pointer on, that is not over threshold as sampled (the eight after
the first with room being tried), and the pointer moves behind that core. A block that runs again has the name and the sums of its
discarded runs (log entry 94). -/
def BlocksPlace : Prop :=
  ∀ (s : State) (ctx num : Nat) (hot : List Nat) (g g1 : Grid) (e : Again) (c : Ctx) (core : Nat) (places : List Nat),
    s.grid? ctx num = some g → s.ctx? ctx = some c →
    (g.again = [] ∧ g.next < g.size ∧ e = ⟨s.nextId, g.next, 0, 0, 0⟩ ∧ g1 = { g with next := g.next + 1 }) ∨
      (g.again = [e] ∧ (∀ r ∈ s.prereqs, r.ctx = g.ctx → r.core ≠ e.core) ∧ e.bid < s.nextId ∧ g1 = { g with again := [] }) →
    chooseCore (fun k => s.placesOn ctx k && (s.roomFor c k g.nthr g.shmem g.ntile).isSome) (fun k => hot.contains k)
      (cyclicFrom g.cores g.ptr) = some core →
    s.roomFor c core g.nthr g.shmem g.ntile = some places → s.block? e.bid = none → (∀ h ∈ s.groups, h.gid < s.nextId) →
    let first := max s.nextId (e.bid + 1)
    Yields (.placeBlock ctx ⟨num, hot⟩) s fun t => ∃ b g', t.block? e.bid = some b ∧ b.grid = g.num.toNat ∧ b.ctx = g.ctx ∧ b.idx = e.idx ∧
      b.core = core ∧ b.places = places ∧ b.retcnt = 0 ∧ b.phase = .running ∧ b.carryE = e.energy ∧ b.carryN = e.count ∧ g' ∈ t.grids ∧
      g' = { g1 with ptr := (g.cores.findIdx (fun x => x == core) + 1) % g.cores.length } ∧
      (∀ j, j < (g.nthr + 31) / 32 → ∃ m, t.group? (first + j) = some m ∧ m.bid = e.bid ∧ m.num = j ∧ m.core = core ∧
        m.pc = g.entry ∧ m.amask = groupMask g.nthr j ∧ m.depth = g.depth) ∧ t.dram = s.dram

/-- BLOCK_RETIRE (R147, R169, R224, R356): a block whose groups, descendants, jobs and operations are done goes, with an energy record,
and with its last block the grid; what it wrote to the scratchpads, and what happens before the accesses of its groups, is at the die,
with its core's writes before. -/
def BlocksRetire : Prop :=
  ∀ (s : State) (bid : Nat) (b : Block) (g : Grid), s.block? bid = some b → s.blockDone b = true → s.coreRuns b.core = true →
    s.grid? b.ctx b.grid = some g → Yields (.blockRetire bid) s fun t =>
      t.blocks = (s.blocks.filter fun x => x.bid != bid) ∧ t.groups = s.groups ∧
      (g.size ≤ g.retired + 1 → t.grids = s.grids.filter fun x => x.gid != g.gid) ∧
      (g.retired + 1 < g.size → t.grids = replaceBy (fun x => x.gid == g.gid) { g with retired := g.retired + 1 } s.grids) ∧
      (∀ c, s.ctx? b.ctx = some c → c.log.length < c.logCap → ∃ c' rec, t.ctx? b.ctx = some c' ∧ c'.log = c.log ++ [rec]) ∧
      t.dram = s.dram ∧ ((∀ w ∈ s.scw, w.bid ≠ bid ∧ bid ∉ w.past) → t.scratch = s.scratch ∧ t.scw = s.scw) ∧
      ((∃ w ∈ s.scw, w.bid = bid ∨ bid ∈ w.past) → t.scratch = s.coreScratch b.core ∧ t.scw = s.scw.filter fun w => w.core != b.core)

end Sys2Proof.Machine

/-- R142 to R144, R147, R148, R169, R299, R356: spawned work is packed, sealed and started; blocks are placed and retire. The cores over
threshold are what the event samples (log entry 6), and an open group's depth is its first item's (log entry 70). That all the
scratchpad writes of a retiring block's core are at the die then is the model's reading of R147, R169 and R224 (log entry 34), and so is
that a block which runs again keeps its name (log entry 94). -/
def Obligations.PlacementEvents : Prop := ItemsPack ∧ PartialsSeal ∧ SpawnedStart ∧ BlocksPlace ∧ BlocksRetire

namespace Sys2Proof.Machine

open Sys2Proof

/-- WRITE_PERFORMED_AT_DIE (R229): the write reaches its bank once no earlier write of its core meets it; every byte outside it is
as before. -/
def ScratchWritesPerform : Prop :=
  ∀ (s : State) (wid : Nat) (w : ScWrite), (s.scw.find? fun w => w.wid == wid) = some w →
    ((s.scw.takeWhile fun v => v.wid != wid).any fun v => v.core == w.core && rangesMeet v.addr v.width w.addr w.width) = false →
    s.dieRuns w.die = true → Yields (.writePerformedAtDie wid) s fun t =>
      t.scratch.readN w.addr w.width = opValue w.op w.ty w.width (s.scratch.readN w.addr w.width) w.val.toNat % 256 ^ w.width ∧
      (∀ a, a < w.addr ∨ w.addr + w.width ≤ a → t.scratch.read a = s.scratch.read a) ∧
      t.scw = s.scw.filter (fun v => v.wid != wid) ∧ t.groups = s.groups ∧ t.dram = s.dram

/-- An append whose turn it is: no earlier one of its core comes first, none to its tile has begun, its die runs; no request sampled
goes with it. -/
def State.appendTurn (s : State) (aid : Nat) (a : Append) : Prop :=
  (s.appends.find? fun a => a.aid == aid) = some a ∧ s.behind a = false ∧
  (s.appends.any fun b => b.begun && b.tile == a.tile && b.aid != aid) = false ∧
  s.dieRuns a.tile.die = true ∧ (∃ w, s.window? a.tile.die a.tile.ctx a.tile.win = some w) ∧ a.tagged = 0

/-- HOD_APPEND (R186, R189, R190, R192): of an append all of whose entries fit the first is accepted into the tile's hod, and the others
are left for later; one that does not fit waits for its tile, which is held for it, none of its entries accepted; entries for a
resident tile are applied to it. -/
def AppendsAccept : Prop :=
  ∀ (s : State) (aid : Nat) (a : Append), s.appendTurn aid a →
    ((s.tile a.tile).st ≠ .resident → aid ∉ (s.tile a.tile).held →
      (∀ e rest hod, a.entries = e :: rest → (s.tryAppend a.tile (s.tile a.tile).hod a.entries).isSome = true →
        appendHod (s.logHolds a.tile) (s.tile a.tile).hod [e] = some hod →
        Yields (.hodAppend aid) s fun t => t.tile a.tile = { s.tile a.tile with hod := hod } ∧
          (∀ r, r ≠ a.tile → t.tile r = s.tile r) ∧ t.groups = s.groups ∧ MemoryKept s t ∧
          t.appends = if rest = [] then s.appends.filter fun b => b.aid != aid
            else replaceBy (fun b => b.aid == aid) { a with entries := rest, begun := true } s.appends) ∧
      (s.tryAppend a.tile (s.tile a.tile).hod a.entries = none → (∀ b ∈ s.appends, b.begun = false) →
        Yields (.hodAppend aid) s fun t => aid ∈ (t.tile a.tile).held ∧ (t.tile a.tile).hod = (s.tile a.tile).hod ∧
          t.appends = s.appends ∧ t.groups = s.groups)) ∧
    ((s.tile a.tile).st = .resident → (∀ w ∈ s.windows, (w.tiles.map (·.1)).Nodup) →
      Yields (.hodAppend aid) s fun t => (t.tile a.tile).data = applyDirect (s.tile a.tile).data a.entries ∧
        (t.tile a.tile).st = .resident ∧
        (∀ r, r ≠ a.tile → t.tile r = { s.tile r with held := (s.tile r).held.filter fun n => n != aid }) ∧
        t.appends = (s.appends.filter fun b => b.aid != aid) ∧ t.groups = s.groups ∧ MemoryKept s t)

/-- TILE_ARRIVE (R193, R195): a fetch brings the bytes of the page that its start translated to, with the hod applied to them in one
batch; the tile is resident, its hod empty, and a group that waited for it alone issues again. -/
def TilesArrive : Prop :=
  ∀ (s : State) (r : TileRef), (s.tile r).st = .arriving → (s.tile r).fault = false → s.dieRuns r.die = true →
    (s.wbacks.any fun b => b.tile == r) = false → (∃ w, s.window? r.die r.ctx r.win = some w) →
    Yields (.tileArrive r) s fun t => (t.tile r).st = .resident ∧ (t.tile r).hod = [] ∧
      (∃ m : Memory, (∀ i, i < tileBytes → m.read i = s.dram.read (readPa r.die ((s.tile r).pa + i) (s.tile r).attr)) ∧
        (t.tile r).data = applyHod m (s.tile r).hod) ∧ (∀ q, q ≠ r → t.tile q = s.tile q) ∧ MemoryKept s t ∧
      (∀ g ∈ s.groups, g.parked = [r] → ∃ g' ∈ t.groups, g' = { g with parked := [], reissue := true, smpl := g'.smpl } ∧
        (g.smpl = none → g'.smpl = none))

/-- TILE_WRITEBACK_DONE (R180, R184): the dirty bytes of an evicted tile reach main memory where their page is, in every copy it
has, after those that left it before, and no other byte changes. -/
def WriteBacksReach : Prop :=
  ∀ (s : State) (wid : Nat) (b : WriteBack) (c : Ctx) (pa attr : Nat), (s.wbacks.find? fun b => b.wid == wid) = some b →
    s.ctx? b.tile.ctx = some c → b.parked = false → s.backBehind b = false → s.dieRuns b.tile.die = true →
    s.pageBlocked b.core b.tile.ctx b.va = false →
    s.translate c b.va true false = .ok pa attr → attr ≠ 2 → (b.bytes.map (·.1)).Nodup →
    Yields (.tileWritebackDone wid) s fun t => (∀ e ∈ b.bytes, t.dram.read (pa + e.1) = e.2) ∧
      (∀ a, (∀ e ∈ b.bytes, a ≠ pa + e.1) → t.dram.read a = s.dram.read a) ∧ t.wbacks = (s.wbacks.filter fun v => v.wid != wid) ∧
      t.groups = s.groups ∧ t.scratch = s.scratch

/-- UNMAP_COMPLETE (R196, R197): a closing window with nothing left in it is unmapped, and the TMAPs that wait for it go on. -/
def WindowsUnmap : Prop :=
  ∀ (s : State) (die ctx win : Nat) (w : Window), s.window? die ctx win = some w → w.closing = true → s.dieRuns die = true →
    s.windowBusy w = false → Yields (.unmapComplete die ctx win) s fun t => t.window? die ctx win = none ∧
      (∀ d c n, (d, c, n) ≠ (die, ctx, win) → t.window? d c n = s.window? d c n) ∧
      (∀ g ∈ s.groups, g.tmap = some ⟨die, ctx, win, 0⟩ → { g with stayDone := true } ∈ t.groups) ∧ MemoryKept s t

/-- FAULT_SERVICE (R178, R179): an accepted fault leaves its buffer, the entries the system die wrote standing in the page table, and
its fetch is translated anew: it goes on at the page found, or waits with a new fault; a rejected one halts the partition with the
protection cause and its address. -/
def FaultsServed : Prop :=
  ∀ (s : State) (fid : Nat) (f : FaultEntry) (ptes : List (Nat × DWord)), (s.faults.find? fun f => f.fid == fid) = some f →
    let u : State := { s with dram := ptes.foldl (fun m e => m.writeN e.1 8 e.2.toNat) s.dram }
    let left := s.faults.filter fun g => g.fid != fid
    (∀ n, f.who = .job n → Yields (.faultService fid true ptes) s fun t => t.faults = left ∧ t.dram = u.dram ∧ t.groups = s.groups ∧
      t.parts = s.parts ∧ t.windows = s.windows) ∧
    (∀ r w c, f.who = .fetch r → s.window? r.die r.ctx r.win = some w → s.ctx? r.ctx = some c →
      (∀ pa attr, u.translate c (s.tileVa r) false false = .ok pa attr → Yields (.faultService fid true ptes) s fun t =>
        t.faults = left ∧ t.tile r = { s.tile r with pa := pa, attr := attr, fault := false } ∧ t.dram = u.dram ∧
        t.groups = s.groups ∧ t.parts = s.parts) ∧
      (u.translate c (s.tileVa r) false false = .fault → (left.filter fun g => g.core == (s.tile r).core).length < 64 →
        Yields (.faultService fid true ptes) s fun t =>
          t.faults = left ++ [⟨s.nextId, (s.tile r).core, r.ctx, s.tileVa r, .fetch r⟩] ∧ t.tile r = s.tile r ∧ t.dram = u.dram ∧
          t.groups = s.groups ∧ t.parts = s.parts)) ∧
    (∀ p, s.part? (dieOf f.core) = some p → p.halted = none → Yields (.faultService fid false ptes) s fun t =>
      ∃ p', t.part? (dieOf f.core) = some p' ∧ p'.halted = some haltProtection ∧ p'.addr = f.va ∧ t.groups = s.groups ∧ MemoryKept s t)

/-- STORE_REPLAY (R179): the first parked store of its page whose translation now succeeds is performed, and leaves the queue. -/
def StoresReplay : Prop :=
  ∀ (s : State) (pid : Nat) (r : Replay) (c : Ctx) (pa attr : Nat), (s.replay.find? fun r => r.pid == pid) = some r →
    ((s.replay.takeWhile fun q => q.pid != pid).any fun q => q.core == r.core && q.ctx == r.ctx && s.samePage r.ctx q.va r.va) = false →
    s.ctx? r.ctx = some c → s.dieRuns (dieOf r.core) = true → s.translate c r.va true r.copy = .ok pa attr → attr ≠ 2 → r.wb = none →
    Yields (.storeReplay pid) s fun t => (∀ i b, r.bytes[i]? = some b → t.dram.read (pa + i) = b) ∧
      (∀ a, a < pa ∨ pa + r.bytes.length ≤ a → t.dram.read a = s.dram.read a) ∧ t.replay = (s.replay.filter fun q => q.pid != pid) ∧
      t.groups = s.groups ∧ t.scratch = s.scratch

end Sys2Proof.Machine

open Sys2Proof Sys2Proof.Machine

/-- R178 to R180, R184, R186, R189, R190, R192, R193, R195 to R197, R229: the events of the memory levels. Model's readings: the log
controller takes one entry at an event (log entry 33), tiles wait and take frames as log entries 31 and 53 say, a .sc write stays with
its core until its event (log entry 34), a write to main memory is seen by every die at once (log entry 35). -/
def Obligations.MemoryEvents : Prop :=
  ScratchWritesPerform ∧ AppendsAccept ∧ TilesArrive ∧ WriteBacksReach ∧ WindowsUnmap ∧ FaultsServed ∧ StoresReplay

namespace Sys2Proof.Machine

/-- Card k is the first with its name, its engine may act for it, and its context is c. -/
def State.jobTurn (s : State) (cid : Nat) (k : Card) (c : Ctx) : Prop :=
  (s.cards.find? fun k => k.cid == cid) = some k ∧ s.ctx? k.ctx = some c ∧ s.jobReady k = true

/-- The card's job has made every access, with nothing left to do. -/
def Card.over_ (k : Card) : Prop := ∃ run, k.run = some run ∧ run.out = some []

/-- A job of card k can begin: it is the card's turn, no write is on its way to the scratchpads, the replay queue has room. -/
def State.jobBegins (s : State) (cid : Nat) (k : Card) (c : Ctx) : Prop :=
  s.jobTurn cid k c ∧ k.run = none ∧ s.scw = [] ∧ s.replayFull k.core = false

/-- In t card cid has made every access. -/
def State.jobOver (t : State) (cid : Nat) : Prop := ∃ k, (t.cards.find? fun k => k.cid == cid) = some k ∧ k.over_

/-- The memory that a job of card k finds a place in: its block's shared memory, the scratchpads, main memory. -/
def State.placeMem (s : State) (k : Card) : Place → Memory
  | .sh => ((s.block? k.bid).map (·.sh)).getD []
  | .sc => s.scratch
  | _ => s.dram

/-- A range of n bytes of a job lies at b in the memory of its place: in main memory in one copy, whatever the range's own bytes
hold. -/
def State.liesAt (s : State) (k : Card) (c : Ctx) (a : EAddr) (n : Nat) (wr : Bool) (b : Nat) : Prop :=
  match a.place with
  | .sh => b = a.addr ∧ (s.block? k.bid).isSome = true
  | .sc => b = scratchKey c (dieOf k.core) a.addr
  | .mem => s.replay = [] ∧ ∃ attr, attr ≠ 2 ∧ ∀ u : State, (∀ x, x < b ∨ b + n ≤ x → u.dram.read x = s.dram.read x) → ∀ i, i < n →
      u.translate c (a.addr + i) wr (wr && k.copies) = .ok (b + i) attr
  | .win => False

/-- COPY_JOB (R261): COPY moves its bytes from and to shared memory, a scratchpad or main memory, CFILL writes its pattern, COPY2D
moves its rows in a scratchpad, a later row over an earlier one; no other byte changes, and the card is left with nothing to do. -/
def CopiesRun : Prop :=
  ∀ (s : State) (cid : Nat) (k : Card) (c : Ctx), s.jobBegins cid k c →
    (∀ dst src n db sb, k.kind = 0x01 → k.job = .copy dst src n → s.liesAt k c dst n true db → s.liesAt k c src n false sb →
      Yields (.copyJob cid) s fun t =>
        (∀ i, i < n → (t.placeMem k dst.place).read (db + i) = (s.placeMem k src.place).read (sb + i)) ∧
        (∀ a, a < db ∨ db + n ≤ a → (t.placeMem k dst.place).read a = (s.placeMem k dst.place).read a) ∧
        (∀ p, p ≠ dst.place → p ≠ .win ∨ dst.place ≠ .mem → t.placeMem k p = s.placeMem k p) ∧ t.jobOver cid ∧ t.groups = s.groups) ∧
    (∀ dst pat n db, k.kind = 0x05 → k.job = .fill dst pat (4 * n) → s.liesAt k c dst (4 * n) true db →
      Yields (.copyJob cid) s fun t =>
        (∀ i, i < n → (t.placeMem k dst.place).readN (db + 4 * i) 4 = pat.toNat) ∧
        (∀ a, a < db ∨ db + 4 * n ≤ a → (t.placeMem k dst.place).read a = (s.placeMem k dst.place).read a) ∧
        (∀ p, p ≠ dst.place → p ≠ .win ∨ dst.place ≠ .mem → t.placeMem k p = s.placeMem k p) ∧ t.jobOver cid ∧ t.groups = s.groups) ∧
    (∀ dst src rows rowb dstr sstr, k.kind = 0x04 → k.job = .copy2d ⟨.sc, dst⟩ ⟨.sc, src⟩ rows rowb dstr sstr →
      let into (r : Nat) : Nat := scratchKey c (dieOf k.core) (dst + r * dstr)
      Yields (.copyJob cid) s fun t =>
        (∀ r i, r < rows → i < rowb → (∀ q, r < q → q < rows → into r + i < into q ∨ into q + rowb ≤ into r + i) →
          t.scratch.read (into r + i) = s.scratch.read (scratchKey c (dieOf k.core) (src + r * sstr) + i)) ∧
        (∀ a, (∀ r, r < rows → a < into r ∨ into r + rowb ≤ a) → t.scratch.read a = s.scratch.read a) ∧
        t.jobOver cid ∧ t.dram = s.dram ∧ t.groups = s.groups)

/-- GATHER_SCATTER_JOB (R262) in a scratchpad: GATHER moves the row that each index names to the index's place, SCATTER each row to the
place that its index names, a later one over an earlier one; an index out of range moves nothing and is recorded in the log with its
position. No other byte changes. -/
def GathersRun : Prop :=
  ∀ (s : State) (cid : Nat) (k : Card) (c : Ctx) (scatter : Bool) (dst src ix nidx nrows rowb : Nat), s.jobBegins cid k c →
    k.kind = (if scatter then 0x03 else 0x02) →
    k.job = .rows scatter ⟨.sc, dst⟩ ⟨.sc, src⟩ ⟨.sc, ix⟩ nidx nrows rowb none → c.log.length + nidx ≤ c.logCap →
    let at_ (a : Nat) : Nat := scratchKey c (dieOf k.core) a
    let idx (p : Nat) : Nat := s.scratch.readN (at_ ix + 4 * p) 4
    let into (p : Nat) : Nat := at_ (dst + (if scatter then idx p else p) * rowb)
    let from_ (p : Nat) : Nat := at_ (src + (if scatter then p else idx p) * rowb)
    Yields (.gatherScatterJob cid) s fun t =>
      (∀ p i, p < nidx → idx p < nrows → i < rowb → (∀ q, p < q → q < nidx → idx q < nrows → into q ≠ into p) →
        t.scratch.read (into p + i) = s.scratch.read (from_ p + i)) ∧
      (∀ a, (∀ p, p < nidx → idx p < nrows → a < into p ∨ into p + rowb ≤ a) → t.scratch.read a = s.scratch.read a) ∧
      (∃ c' recs, t.ctx? k.ctx = some c' ∧ c'.log = c.log ++ recs ∧
        (recs.map fun r => (r.extractLsb' 488 8, r.extractLsb' 0 32)) =
          ((List.range nidx).filter fun p => decide (nrows ≤ idx p)).map fun p => (0x03#8, BitVec.ofNat 32 p)) ∧
      t.jobOver cid ∧ t.dram = s.dram ∧ t.groups = s.groups

/-- Arrays of n words stand at some addresses of main memory apart from each other, each in one copy, whatever their own words hold;
GRAD, the second, need not be written. -/
def State.arraysAt (s : State) (c : Ctx) (n : Nat) (vas pas : List Nat) : Prop :=
  vas.length = pas.length ∧ (∀ i j, i < j → j < pas.length → pas.getD i 0 + 4 * n ≤ pas.getD j 0 ∨ pas.getD j 0 + 4 * n ≤ pas.getD i 0) ∧
  ∃ attr, attr ≠ 2 ∧ ∀ u : State, (∀ a, (∀ p ∈ pas, a < p ∨ p + 4 * n ≤ a) → u.dram.read a = s.dram.read a) →
    ∀ j i, j < pas.length → i < n → u.translate c (vas.getD j 0 + 4 * i) false false = .ok (pas.getD j 0 + 4 * i) attr ∧
      (j ≠ 1 → u.translate c (vas.getD j 0 + 4 * i) true false = .ok (pas.getD j 0 + 4 * i) attr)

/-- UPD_JOB (R274, R276): with the die's skip flag set nothing is read or written; otherwise every element of an update is changed by
the formulas of R276, the plain form's and AdamW's at the step the die's counter gives; no other byte of main memory changes. -/
def UpdatesRun : Prop :=
  ∀ (s : State) (cid : Nat) (k : Card) (c : Ctx) (adamw : Bool) (ws : List Word), s.jobTurn cid k c → k.run = none →
    k.kind = (if adamw then 0x07 else 0x06) → k.job = .upd adamw ws →
    (Sparse.get false c.skip (dieOf k.core) = true → Yields (.updJob cid) s fun t => MemoryKept s t ∧
      t.jobOver cid ∧ t.groups = s.groups ∧ t.ctxs = s.ctxs) ∧
    (∀ pas, Sparse.get false c.skip (dieOf k.core) = false → 1 ≤ updCount ws → s.replay = [] →
      s.arraysAt c (updCount ws) (updArrays adamw (ws.map (·.toNat))) pas →
      let word (u : State) (j e : Nat) : Nat := u.dram.readN (pas.getD j 0 + 4 * e) 4
      Yields (.updJob cid) s fun t =>
        (∀ e, e < updCount ws →
          (adamw = false →
            let r := sgdmElem (hyperOf ws) (word s 0 e) (word s 1 e) (word s 2 e)
            word t 2 e = r.1 % 2 ^ 32 ∧ word t 0 e = r.2 % 2 ^ 32) ∧
          (adamw = true →
            let r := adamwElem (hyperOf ws) ((Sparse.get 0 c.steps (dieOf k.core)).toNat + 1) (word s 0 e) (word s 1 e) (word s 2 e)
              (word s 3 e)
            word t 2 e = r.1 % 2 ^ 32 ∧ word t 3 e = r.2.1 % 2 ^ 32 ∧ word t 0 e = r.2.2 % 2 ^ 32)) ∧
        (∀ a, (∀ j, j < pas.length → j ≠ 1 → a < pas.getD j 0 ∨ pas.getD j 0 + 4 * updCount ws ≤ a) →
          t.dram.read a = s.dram.read a) ∧ t.jobOver cid ∧ t.groups = s.groups)

/-- SKPSET_JOB and UPDSTEP_JOB (R274): the die's skip flag is written; its step counter goes up by one and saturates, and stays with
the flag set. -/
def FlagJobsRun : Prop :=
  ∀ (s : State) (cid : Nat) (k : Card) (c : Ctx), s.jobTurn cid k c → k.run = none →
    (∀ v, k.kind = 0x09 → k.job = .skpset v → Yields (.skpsetJob cid) s fun t => ∃ c' k', t.ctx? k.ctx = some c' ∧
      c' = { c with skip := c'.skip } ∧ (∀ d, Sparse.get false c'.skip d = if d = dieOf k.core then v else Sparse.get false c.skip d) ∧
      (t.cards.find? fun k => k.cid == cid) = some k' ∧ k'.over_ ∧ t.groups = s.groups ∧ MemoryKept s t) ∧
    (k.kind = 0x08 → k.job = .updstep → Yields (.updstepJob cid) s fun t => ∃ c' k', t.ctx? k.ctx = some c' ∧
      c' = { c with steps := c'.steps } ∧ (∀ d, (Sparse.get 0 c'.steps d).toNat =
        if d = dieOf k.core ∧ Sparse.get false c.skip d = false then min 0xFFFFFFFF ((Sparse.get 0 c.steps d).toNat + 1)
        else (Sparse.get 0 c.steps d).toNat) ∧
      (t.cards.find? fun k => k.cid == cid) = some k' ∧ k'.over_ ∧ t.groups = s.groups ∧ MemoryKept s t)

/-- JOB_COMPLETE (R266, R270): a card with nothing left to do and nothing parked or on its way leaves its engine, and with it its
edges: a card that no other one holds back may begin. -/
def JobsComplete : Prop :=
  ∀ (s : State) (cid : Nat) (k : Card), (s.cards.find? fun k => k.cid == cid) = some k → s.engineRuns k = true →
    s.jobSettled cid = true → k.over_ → Yields (.jobComplete cid) s fun t =>
      t.cards = (s.cards.filter fun i => i.cid != cid) ∧ t.groups = s.groups ∧ MemoryKept s t ∧
      ∀ i ∈ t.cards, (∀ e ∈ t.cards, e.cid ≠ i.cid → edge e i = false) → t.edged i = false

end Sys2Proof.Machine

/-- R261 to R263, R270, R274, R276: jobs run and complete. Model's readings: a job makes all reads and then all writes in its
event (log entry 36). -/
def Obligations.EngineEvents : Prop := CopiesRun ∧ GathersRun ∧ UpdatesRun ∧ FlagJobsRun ∧ JobsComplete

namespace Sys2Proof.Machine

open Sys2Proof

/-- CHURN_OP_COMPLETE (R237, R248): at its end the operation's tile is full with its elements and status, and the group's MSTAT has
its flags; every other tile of the block is as it was. -/
def ChurnCompletes : Prop :=
  ∀ (s : State) (core : Nat) (o : ChurnOp) (b : Block) (g : Group), (s.churn.find? fun o => o.core == core) = some o →
    max o.early (Sparse.get 0 s.churnEnd core) + o.dur ≤ s.now → s.coreRuns core = true → s.block? o.bid = some b →
    s.group? o.gid = some g → Yields (.churnOpComplete core) s fun t =>
      t.block? o.bid = some { b with tiles := b.tiles.set o.tile ⟨o.elems, false, o.status⟩ } ∧
      t.group? o.gid = some { g with mstat := g.mstat ||| o.mstat, mloss := o.mloss.getD g.mloss } ∧
      (∀ h, h ≠ o.gid → t.group? h = s.group? h) ∧ t.churn = s.churn.erase o ∧ MemoryKept s t

/-- What adding an element of a drain to a word leaves (R252): FP32 with one rounding, INT32 saturating with SAT and wrapping without. -/
def Drain.sum (d : Drain) (x y : Nat) : Nat :=
  (if d.ty = .f32 then addF32 x y else if d.sat then addSat x y else x + y) % 2 ^ 32

/-- Memory m' is m with bytes of a drain at a (R252): stored, or every element added to what stood there; no other byte changes. -/
structure Drain.Lands (d : Drain) (a : Nat) (bytes : List Byte) (m m' : Memory) : Prop where
  outside : ∀ x, x < a ∨ a + bytes.length ≤ x → m'.read x = m.read x
  stored : d.add = false → ∀ i y, bytes[i]? = some y → m'.read (a + i) = y
  added : d.add = true → ∀ i, 4 * i + 4 ≤ bytes.length →
    m'.readN (a + 4 * i) 4 = d.sum (m.readN (a + 4 * i) 4) (numOf ((bytes.drop (4 * i)).take 4))

/-- DRAIN_PERFORM (R252 to R254): a drain's bytes reach shared memory, the scratchpad, what its core has pending there coming first, or
a resident tile, after its core's appends to it, and the drain leaves the port. A portion for a tile that is not resident is appended
to it as one entry; one that adds saturating, or has no room, waits for the tile, which is held for it. -/
def DrainsPerform : Prop :=
  ∀ (s : State) (did a : Nat) (d : Drain) (c : Ctx) (bytes : List Byte), (s.drains.find? fun d => d.did == did) = some d →
    s.ctx? d.ctx = some c → s.coreRuns d.core = true → s.drainBlocked d = false → d.parts = [(a, bytes)] → d.tagged = false →
    (∀ b, d.place = .sh → s.block? d.bid = some b → Yields (.drainPerform did) s fun t => ∃ b', BlockNow s t d.bid b' ∧
      b' = { b with sh := b'.sh } ∧ d.Lands a bytes b.sh b'.sh ∧ t.drains = (s.drains.filter fun e => e.did != did) ∧ MemoryKept s t) ∧
    (d.place = .sc → Yields (.drainPerform did) s fun t =>
      let u := s.flushSc d.core (scratchKey c (dieOf d.core) a) bytes.length
      d.Lands (scratchKey c (dieOf d.core) a) bytes u.scratch t.scratch ∧ t.scw = u.scw ∧ t.dram = s.dram ∧
      t.drains = (s.drains.filter fun e => e.did != did) ∧ t.groups = s.groups ∧ t.blocks = s.blocks) ∧
    ∀ r, d.place = .win → s.engineTile (dieOf d.core) d.ctx a = some r → (∀ p ∈ s.appends, p.did ≠ some did) →
      ((s.tile r).st = .resident → Yields (.drainPerform did) s fun t =>
        let u := s.flushTile d.core r
        d.Lands (a % tileBytes) bytes (u.tile r).data (t.tile r).data ∧ (t.tile r).st = .resident ∧
        (∀ i, i < bytes.length → Sparse.get false (t.tile r).dirty (a % tileBytes + i) = true) ∧ (∀ q, q ≠ r → t.tile q = u.tile q) ∧
        t.drains = (s.drains.filter fun e => e.did != did) ∧ t.blocks = s.blocks ∧ MemoryKept s t) ∧
      ((s.tile r).st ≠ .resident → did ∉ (s.tile r).held →
        let entry : HodEntry := ⟨a % tileBytes, bytes.length, true, if d.add then .add else .st, if d.ty = .f32 then .f32 else .i32, bytes⟩
        (¬(d.add = true ∧ d.sat = true) → s.appendFits r [entry] = true → Yields (.drainPerform did) s fun t =>
          t.appends = s.appends ++ [⟨s.nextId, d.gid, d.bid, d.core, r, [entry], false, none, some did, false, 0⟩] ∧
          t.drains = replaceBy (fun e => e.did == did) { d with parts := [] } s.drains ∧ t.windows = s.windows ∧ t.groups = s.groups ∧
          t.blocks = s.blocks ∧ MemoryKept s t) ∧
        ((d.add = true ∧ d.sat = true) ∨ s.appendFits r [entry] = false → Yields (.drainPerform did) s fun t =>
          did ∈ (t.tile r).held ∧ (t.tile r).hod = (s.tile r).hod ∧ d ∈ t.drains ∧ ∀ p ∈ t.appends, p.did ≠ some did))

/-- The one contribution of this module to operation seq of a communicator of two ranks, its group waiting for s register reg, and
the other module's contribution. -/
def State.twoRanks (s : State) (ctx comm seq : Nat) (c : Ctx) (e : Contrib) (r : Result) (g : Group) (reg : Nat) (q : RankData) : Prop :=
  ∃ cm die m d, s.ctx? ctx = some c ∧ c.comm? comm = some cm ∧ cm.ranks = [(s.dev, die), (m, d)] ∧ m ≠ s.dev ∧ s.cards = [] ∧
    s.canComplete ctx comm seq cm = true ∧
    s.contribs = [e] ∧ e.ctx = ctx ∧ e.comm = comm ∧ e.seq = seq ∧ e.die = die.toNat ∧ s.dieRuns die.toNat = true ∧ e.rank.rank = 0 ∧
    e.rank.opc = 0xF8 ∧ e.rank.count = 1 ∧ e.rank.root = 0 ∧ q.rank = 1 ∧ s.results = [r] ∧ r.rid = e.rid ∧ r.kind = .coll ∧
    r.writes = [⟨false, reg, 0, 0⟩] ∧ r.causes = [] ∧ s.group? r.gid = some g ∧ inBank g r ⟨false, reg, 0, 0⟩ = true

/-- COLL_OPERATION and COLLF (R315, R316): a register form of two ranks, whose links are up, gives the combined value once both have
issued it alike; and the failed value, with a record in the log, where they have not or where the other module's link has gone. -/
def CollectivesEnd : Prop :=
  ∀ (s : State) (ctx comm seq reg : Nat) (c : Ctx) (e : Contrib) (r : Result) (g : Group) (q : RankData) (x y : Word),
    s.twoRanks ctx comm seq c e r g reg q → e.rank.data = [x] → q.data = [y] →
    (q.opc = 0xF8 → q.var = e.rank.var → q.count = 1 → q.root = 0 → Yields (.collOperation ctx comm seq [q]) s fun t => ∃ g',
      t.group? r.gid = some g' ∧ g'.sget reg = collCombine e.rank.var x y ∧ g'.sempty reg = false ∧ g'.pc = g.pc ∧
      (∀ h, h ≠ r.gid → t.group? h = s.group? h) ∧ t.contribs = [] ∧ t.results = [] ∧ MemoryKept s t) ∧
    (∀ down : Bool, down = true ∨ rankSignature q ≠ rankSignature e.rank → c.log.length < c.logCap →
      Yields (.collf ctx comm seq down [q]) s fun t => ∃ g' c' rec,
        t.group? r.gid = some g' ∧ g'.sget reg = (if e.rank.var ≤ 2 then 0x7FC00000 else 0xFFFFFFFF) ∧ g'.sempty reg = false ∧
        (∀ h, h ≠ r.gid → t.group? h = s.group? h) ∧ t.ctx? ctx = some c' ∧ c'.log = c.log ++ [rec] ∧ rec.extractLsb' 488 8 = 0x06#8 ∧
        rec.extractLsb' 0 8 = (if down then 2#8 else 1#8) ∧ t.contribs = [] ∧ t.results = [] ∧ MemoryKept s t)

end Sys2Proof.Machine

open Sys2Proof Sys2Proof.Machine

/-- R237, R248, R252 to R254, R315, R316: the churn completes an operation, a drain is performed, a collective operation ends.
Model's readings: a collective takes what the ranks hold at its event (log entry 41), a drain is performed in one event (log
entry 44), which links an operation needs (log entry 79). -/
def Obligations.MatrixAndCollectiveEvents : Prop := ChurnCompletes ∧ DrainsPerform ∧ CollectivesEnd

namespace Sys2Proof.Machine

/-- A firmware call with a booted system die and a version in common (R342, R347, R349). -/
def State.takes (s : State) (v : Versions) : Prop := s.booted = true ∧ (agreed v).isSome = true

/-- The one reply of a call (R347). -/
def Replied (s t : State) (status : Nat) (vals : List Nat) : Prop := t.replies = s.replies ++ [⟨status, vals, []⟩]

/-- The versions a firmware call names. -/
def callOf : Instr → Option Versions
  | .preempt v .. | .resume v .. | .ctxsw v .. | .slice v .. | .ctxnew v .. | .ctxfree v .. | .gridrun v .. | .stopread v ..
  | .tracectl v .. | .perfrd v .. | .ewset v .. | .smplctl v .. => some v
  | _ => none

/-- R342, R347, R349: before boot has ended a call has no effect; without a version in common it is answered 3. -/
def CallsRefused : Prop :=
  ∀ (s : State) (i : Instr) (v : Versions), callOf i = some v →
    (s.booted = false → exec i s = .next s) ∧
    (s.booted = true → agreed v = none → exec i s = .next (s.reply 3 []))

/-- PREEMPT (R299, R347): a request for each core named, as of now, answered 0. -/
def PreemptsBegin : Prop :=
  ∀ (s : State) (v : Versions) (ctx : Nat) (cores : List Nat) (c : Ctx), s.takes v → s.ctx? ctx = some c → s.haltedDies c.dies = false →
    (∀ x ∈ cores, c.dies.contains (dieOf x) = true) → cores.Nodup →
    Yields (.preempt v ctx cores) s fun t => Replied s t 0 [] ∧ t.groups = s.groups ∧ t.blocks = s.blocks ∧
      (∀ r ∈ s.prereqs, r ∈ t.prereqs) ∧ (∀ x ∈ cores, (∀ r ∈ s.prereqs, r.ctx = ctx → r.core ≠ x) → (⟨ctx, x, s.now, false⟩ : PreReq) ∈ t.prereqs) ∧
      ∀ r ∈ t.prereqs, r ∈ s.prereqs ∨ r.ctx = ctx ∧ r.core ∈ cores

/-- CRITX (R134): once a deferral limit has passed the request is deferred no longer. -/
def DeferralsEnd : Prop :=
  ∀ (s : State) (ctx core : Nat) (c : Ctx) (r : PreReq), s.ctx? ctx = some c → c.ctl.defer ≠ 0 → r ∈ s.prereqs → r.ctx = ctx → r.core = core →
    r.critx = false → r.at_ + c.ctl.defer.toNat ≤ s.now → s.coreRuns core = true → Yields (.critx ctx core) s fun t =>
      t.prereqs = (s.prereqs.map fun q => if q.ctx = ctx ∧ q.core = core then { q with critx := true } else q) ∧
      t.groups = s.groups ∧ t.blocks = s.blocks ∧
      (∀ g b, s.groups = [g] → s.block? g.bid = some b → b.core = core → g.crit ≠ 0 → b.ctx = ctx → b.phase = .running → c.log.length < c.logCap →
        ∃ c' rec, t.ctx? ctx = some c' ∧ c'.log = c.log ++ [rec] ∧ rec.extractLsb' 488 8 = 0x02#8)

/-- DRAIN_TIMEOUT (R299): a draining block at its deadline is to be saved; its groups are set aside and its operations leave the
churn. -/
def DrainsTimeOut : Prop :=
  ∀ (s : State) (bid d : Nat) (b : Block), s.block? bid = some b → b.phase = .draining d → d ≤ s.now → s.coreRuns b.core = true →
    Yields (.drainTimeout bid) s fun t => (∃ b', t.block? bid = some b' ∧ b'.phase = .saving ∧ ∀ x ∈ b'.fused, x = false) ∧
      (∀ h g, s.group? h = some g → t.group? h = some (if g.bid = bid then g.setAside else g)) ∧
      (∀ o ∈ t.churn, o ∈ s.churn ∧ ¬(o.core = b.core ∧ o.bid = bid)) ∧ MemoryKept s t

/-- SAVE_COMPLETE (R224, R300): with everything a save waits for done, the block and its groups leave the core for an image, and the
core's writes are at the die. -/
def SavesComplete : Prop :=
  ∀ (s : State) (bid : Nat) (b : Block), s.block? bid = some b → b.phase = .saving → s.coreRuns b.core = true → s.saveReady b = true →
    Yields (.saveComplete bid) s fun t => (∃ m, t.images = s.images ++ [m] ∧ m.block = b ∧ m.groups = (s.groups.filter fun g => g.bid == bid) ∧
      m.ops = (s.frozen.filter fun o => o.bid == bid) ∧ m.head.vmaj = 1 ∧ m.head.kind = 1 ∧ m.head.retcnt = b.retcnt ∧
      m.head.expcnt = b.expcnt ∧ m.head.block = b.idx) ∧
      t.blocks = (s.blocks.filter fun x => x.bid != bid) ∧ t.groups = (s.groups.filter fun g => g.bid != bid) ∧ t.dram = s.dram ∧
      t.scratch = s.coreScratch b.core ∧ t.scw = s.scw.filter fun w => w.core != b.core

/-- RESUME (R301, R347): an image of no spawned work is restored on the core named for it, its block running and each group at its
place with everything else as saved, and the pre-emption ends. -/
def ResumesRestore : Prop :=
  ∀ (s : State) (v : Versions) (ctx core : Nat) (c : Ctx) (m : SaveImage) (places : List Nat), s.takes v → s.ctx? ctx = some c →
    s.haltedDies c.dies = false → c.dies.contains (dieOf core) = true → dieOf core = dieOf m.block.core →
    (s.images.filter fun m => m.block.ctx == ctx) = [m] → m.head.vmaj = 1 →
    m.head.ndie = c.dies.length → m.head.scsz * 65536 ≤ c.scSize → m.head.nsl ≤ 16 → m.misfit core = false →
    m.items = [] → m.opens = [] → m.sealeds = [] → m.ops = [] → s.openG = [] → s.spawnQ = [] → s.sealedG = [] →
    (∀ b ∈ s.blocks, b.ctx ≠ ctx) → s.results = [] → (∀ g ∈ m.groups, g.spawned = false ∧ s.group? g.gid = none) → (m.groups.map (·.gid)).Nodup →
    s.block? m.block.bid = none → s.roomFor c core m.block.nthr m.block.shmem m.block.ntile = some places →
    Yields (.resume v ctx [core] [(m.block.bid, core)]) s fun t => Replied s t 0 [] ∧ t.images = s.images.erase m ∧
      t.block? m.block.bid = some { m.block with core := core, places := places, phase := .running } ∧
      (∀ g ∈ m.groups, t.group? g.gid = some (g.seat core places)) ∧
      (∀ h g, s.group? h = some g → t.group? h = some g) ∧ (∀ r ∈ t.prereqs, ¬(r.ctx = ctx ∧ r.core = core)) ∧ MemoryKept s t

/-- CTXSW and SWITCH_COMPLETE (R118, R303): a switch begins on a core that holds a pair, and once no deferral holds it and no REJ draw
of the leaving context's groups is in flight the other context is active there. -/
def SwitchesRun : Prop :=
  (∀ (s : State) (v : Versions) (core a b : Nat), s.takes v → s.haltedDies [dieOf core] = false → s.pair core = some (a, b) →
    (∀ w ∈ s.switches, w.core ≠ core) → Yields (.ctxsw v [core]) s fun t => Replied s t 0 [] ∧
      t.switches = s.switches ++ [⟨core, b, s.now, false, false⟩] ∧ t.groups = s.groups ∧ t.blocks = s.blocks) ∧
  (∀ (s : State) (core a b : Nat) (w : Switch), (s.switches.find? fun w => w.core == core) = some w → s.pair core = some (a, b) →
    a ≠ w.dest → s.switchDeferred w a = false → s.coreRuns core = true →
    s.drawsOf (fun g => g.core == core && ((s.block? g.bid).map (·.ctx)) == some a) = false → Yields (.switchComplete core) s fun t =>
      t.activeOn core w.dest = true ∧ t.switches = (if w.held then s.switches else s.switches.filter fun v => v.core != core) ∧
      (∀ k d, k ≠ core → s.activeOn k d = t.activeOn k d) ∧ t.blocks = s.blocks ∧ MemoryKept s t)

/-- SLICE, MODULE_READY, SLICE_START and SLICEX (R325, R326): a slice begins with a held switch on every core; each module reports
once; from the start time the switches end; a slice whose start is not met is abandoned, each core going back and both logs having a
record. -/
def SlicesRun : Prop :=
  (∀ (s : State) (v : Versions) (x y start : Nat) (modules : List Nat) (cx cy : Ctx), s.takes v → s.ctx? x = some cx → s.ctx? y = some cy →
    s.haltedDies cx.dies = false → s.slice = none → cx.dies = cy.dies → modules.contains s.dev.toNat = true →
    (∀ k, k < 640 → s.pair k = some (x, y) ∧ ∀ w ∈ s.switches, w.core ≠ k) → Yields (.slice v x y start modules) s fun t =>
      Replied s t 0 [] ∧ t.slice = some ⟨x, y, start, modules, []⟩ ∧
      t.switches = s.switches ++ (List.range 640).map (fun k => (⟨k, y, s.now, false, true⟩ : Switch)) ∧ t.groups = s.groups ∧ t.blocks = s.blocks) ∧
  (∀ (s : State) (module at_ : Nat) (sl : Slice), s.slice = some sl → sl.modules.contains module = true →
    (∀ r ∈ sl.ready, r.1 ≠ module) → (module = s.dev.toNat → s.sliceSwitched sl = true) → Yields (.moduleReady module at_) s fun t =>
      t = { s with slice := some { sl with ready := sl.ready ++ [(module, if module = s.dev.toNat then s.fabricNow.toNat else at_)] } }) ∧
  (∀ (s : State) (sl : Slice) (n : Nat), s.slice = some sl → sl.startAt = some n → n ≤ s.sliceLimit sl →
    n < 2 ^ 63 → s.fabricNow.toNat < 2 ^ 63 → (n ≤ s.fabricNow.toNat → Yields .sliceStart s fun t => t = { s with slice := none, switches := s.switches.filter fun w => !w.held }) ∧
    (s.fabricNow.toNat < n → exec .sliceStart s = .next s)) ∧
  (∀ (s : State) (sl : Slice), s.slice = some sl → (∀ n, sl.startAt = some n → s.sliceLimit sl < n) → s.sliceLimit sl ≤ s.fabricNow.toNat →
    s.fabricNow.toNat < 2 ^ 63 → sl.x ≠ sl.y → Yields .slicex s fun t => t.slice = none ∧ t.switches = (s.switches.filter fun w => !w.held) ∧
      (∀ w ∈ s.switches, w.held = true → s.coreRuns w.core = true → s.activeOn w.core sl.y = true → t.activeOn w.core sl.x = true) ∧
      (∀ n c, n = sl.x ∨ n = sl.y → s.ctx? n = some c → c.log.length < c.logCap → ∃ c' rec, t.ctx? n = some c' ∧ c'.log = c.log ++ [rec] ∧
        rec.extractLsb' 488 8 = 0x07#8) ∧ MemoryKept s t)

end Sys2Proof.Machine

/-- R118, R134, R224, R299 to R303, R325, R326, R342, R347, R349: firmware calls are taken or refused; pre-emption, saving and restoring,
switches of a pair, slices across modules. Model's readings: what is saved with a block (log entry 42), that a save has its core's
scratchpad writes performed (log entry 34), a slice that is given up goes back at once (log entry 46), the order of refusals (log entry
48), a block whose drain has passed its time is saved whatever has become critical since (log entry 98). -/
def Obligations.PreemptionEvents : Prop :=
  CallsRefused ∧ PreemptsBegin ∧ DeferralsEnd ∧ DrainsTimeOut ∧ SavesComplete ∧ ResumesRestore ∧ SwitchesRun ∧ SlicesRun

namespace Sys2Proof.Machine

open Sys2Proof

/-- CTXNEW (R302, R347): a context with what the call names and everything else fresh, its region zeroed, active on the cores that
run no other. -/
def ContextsBegin : Prop :=
  ∀ (s : State) (v : Versions) (n : NewCtx), s.takes v → s.haltedDies (orderDies n.dies) = false → s.partitionable n.dies = true →
    badNewCtx n = false → s.ctx? n.no = none → (∀ c ∈ s.sharing (orderDies n.dies), c.clashes n.slot n.ctl.split = false ∧ c.overlaps n.scBase n.scSize = false) →
    newCtxTooBig n (s.sharing (orderDies n.dies)) = false → Yields (.ctxnew v n) s fun t => Replied s t 0 [] ∧
      (∃ c, t.ctx? n.no = some c ∧ c.dies = orderDies n.dies ∧ c.ctl = n.ctl ∧ c.ptRoot = n.ptRoot ∧ c.scBase = n.scBase ∧ c.scSize = n.scSize ∧
        c.log = [] ∧ c.drop = 0 ∧ c.gridCtr = 0 ∧ c.kinds = 0 ∧ c.smplN = 0) ∧
      (∀ m c, s.ctx? m = some c → t.ctx? m = some c) ∧
      (∀ d ∈ orderDies n.dies, ∀ i, i < n.scSize → t.scratch.read (d * 2 ^ 28 + n.scBase + i) = 0) ∧
      (∀ a, (∀ d ∈ orderDies n.dies, a < d * 2 ^ 28 + n.scBase ∨ d * 2 ^ 28 + n.scBase + n.scSize ≤ a) → t.scratch.read a = s.scratch.read a) ∧
      t.groups = s.groups ∧ t.blocks = s.blocks ∧ t.dram = s.dram

/-- CTXFREE (R347): a context all of whose grids have retired is gone, its region zeroed. -/
def ContextsEnd : Prop :=
  ∀ (s : State) (v : Versions) (no : Nat) (c : Ctx), s.takes v → s.ctx? no = some c → s.haltedDies c.dies = false →
    (∀ g ∈ s.grids, g.ctx ≠ no) → Yields (.ctxfree v no) s fun t => Replied s t 0 [] ∧ t.ctx? no = none ∧
      (∀ m, m ≠ no → t.ctx? m = s.ctx? m) ∧ t.grids = s.grids ∧ (∀ b ∈ t.blocks, b ∈ s.blocks ∧ b.ctx ≠ no) ∧
      (∀ d ∈ c.dies, ∀ i, i < c.scSize → t.scratch.read (d * 2 ^ 28 + c.scBase + i) = 0) ∧ t.dram = s.dram

/-- GRIDRUN (R166, R167): a grid by the descriptor that lies in the region, numbered by the context's counter, which moves on. -/
def GridsRun : Prop :=
  ∀ (s : State) (v : Versions) (ctx die desc : Nat) (named : Bool) (proc thread : Word) (c : Ctx) (d : GridDesc), s.takes v →
    s.ctx? ctx = some c → s.haltedDies c.dies = false → c.dies.contains die = true → descPlaced c desc = true →
    readDesc (s.scratch.readN (scratchKey c die desc) 64) = (d, false) → tooLarge d c = false → desc + 64 + 4 * d.nparam ≤ c.scSize →
    s.gridLimit (if named then [die] else c.dies) = false → Yields (.gridrun v ctx die named desc proc thread) s fun t =>
      Replied s t 0 [c.gridCtr.toNat] ∧ t.ctx? ctx = some { c with gridCtr := c.gridCtr + 1 } ∧ (∃ g, t.grids = s.grids ++ [g] ∧ g.ctx = ctx ∧
        g.num = c.gridCtr ∧ g.entry = d.entry ∧ (g.gx, g.gy, g.gz) = (d.gx, d.gy, d.gz) ∧ g.nthr = d.nthr ∧ g.shmem = d.shmem ∧ g.ntile = d.ntile ∧
        g.idem = d.idem ∧ g.expcnt = d.expcnt ∧ g.cores = coresOf (if named then [die] else c.dies) ∧ g.next = 0 ∧ g.retired = 0 ∧
        g.proc = proc ∧ g.thread = thread ∧ g.depth = 0) ∧ t.groups = s.groups ∧ MemoryKept s t

/-- STOPREAD (R295, R347): the stop records of a halted partition, which then may be reset. -/
def StopsRead : Prop :=
  ∀ (s : State) (v : Versions) (dies : List Nat) (p : Part), s.takes v →
    (s.parts.find? fun p => p.dies == orderDies dies && p.halted.isSome) = some p → Yields (.stopread v dies) s fun t =>
      t.replies = s.replies ++ [⟨0, [], p.recs⟩] ∧ ({ p with read := true } : Part) ∈ t.parts ∧ t.groups = s.groups ∧ MemoryKept s t

/-- PARTITION_RESET (R348): a halted partition whose records have been read is gone with its contexts, its dies powered and empty of
gatings. -/
def PartitionsReset : Prop :=
  ∀ (s : State) (dies : List Nat) (p : Part), s.booted = true →
    (s.parts.find? fun p => p.dies == orderDies dies && p.halted.isSome && p.read) = some p → Yields (.partitionReset dies) s fun t =>
      (∀ q ∈ t.parts, q ∈ s.parts ∧ q.dies ≠ p.dies) ∧ (∀ c ∈ t.ctxs, c ∈ s.ctxs ∧ c.dies ≠ p.dies) ∧ (∀ d ∈ t.gatedDies, d ∈ s.gatedDies ∧ d ∉ p.dies) ∧
      (∀ c ∈ s.ctxs, c.dies ≠ p.dies → (∀ e ∈ s.ctxs, e.no = c.no → e = c) → c ∈ t.ctxs) ∧ t.dram = s.dram ∧ t.scratch = s.scratch

/-- UNIT_STOP (R295, R296): a unit of a halted partition that stops within its skid writes one record, with the halt's cause when it
raised it and the cause of a stop by another unit otherwise, and none after it. -/
def UnitsStop : Prop :=
  ∀ (s : State) (u : StopUnit) (p : Part) (cause : BitVec 8) (lim : Nat), s.part? u.die = some p → p.halted = some cause →
    skidLimit u.unit = some lim → unitExists u = true → s.gatedDies.contains u.die = false → u.skid ≤ lim → p.haltAt + u.skid ≤ s.now →
    s.now ≤ p.haltAt + 125 + u.skid →
    (p.stopped.any (sameUnit u) = false → Yields (.unitStop ⟨u, none⟩) s fun t => ∃ p' rec, t.part? u.die = some p' ∧ p'.recs = p.recs ++ [rec] ∧
      p'.stopped = p.stopped ++ [u] ∧ p'.halted = some cause ∧ rec.extractLsb' 488 8 = BitVec.ofNat 8 u.unit ∧
      rec.extractLsb' 480 8 = (if sameUnit p.origin u then cause else 0x06#8) ∧ t.groups = s.groups ∧ MemoryKept s t) ∧
    (p.stopped.any (sameUnit u) = true → exec (.unitStop ⟨u, none⟩) s = .next s)

/-- A memory error that cannot be repaired (R294, R295): the unit that meets it halts its partition, with the error's address. -/
def MemoryErrorsHalt : Prop :=
  ∀ (s : State) (u : StopUnit) (p : Part) (lim addr : Nat), s.part? u.die = some p → p.halted = none → skidLimit u.unit = some lim →
    unitExists u = true → s.gatedDies.contains u.die = false → Yields (.unitStop ⟨u, some addr⟩) s fun t => ∃ p', t.part? u.die = some p' ∧
      p'.halted = some 0x01 ∧ p'.haltAt = s.now ∧ sameUnit p'.origin u = true ∧ p'.addr = addr ∧ p'.recs = p.recs ∧ t.groups = s.groups ∧
      MemoryKept s t

/-- THERMAL_TRIP (R346): a powered die is gated at once and its partition halts; during boot it leads to the safe state. -/
def TripsStop : Prop :=
  ∀ (s : State) (die : Nat), die < 4 →
    (∀ p, s.booted = true → s.gatedDies.contains die = false → s.part? die = some p → p.halted = none →
      Yields (.thermalTrip die) s fun t => die ∈ t.gatedDies ∧ (∀ d ∈ s.gatedDies, d ∈ t.gatedDies) ∧ ∃ p' rec, t.part? die = some p' ∧
        p'.halted = some haltThermal ∧ p'.recs = p.recs ++ [rec] ∧ rec.extractLsb' 480 8 = 0x07#8 ∧ t.groups = s.groups ∧ MemoryKept s t) ∧
    (s.booted = false → s.boot.safe = none → Yields (.thermalTrip die) s fun t => ∃ unit, t.boot.safe = some (s.boot.stage, unit) ∧
      t.gatedDies = [0, 1, 2, 3] ∧ (∀ l ∈ t.links, l.up = false) ∧ t.rootPorts = [])

end Sys2Proof.Machine

open Sys2Proof Sys2Proof.Machine

/-- R166, R167, R294 to R296, R302, R346 to R348: contexts, grids, stops and the reset of a partition. Model's readings: the
fields of stop records (log entry 45), what CTXFREE discards (log entry 49), what GRIDRUN names (log entry 50), what STOPREAD
answers (log entry 51), what a forced gating counts as lost (log entry 80). -/
def Obligations.FirmwareEvents : Prop :=
  ContextsBegin ∧ ContextsEnd ∧ GridsRun ∧ StopsRead ∧ PartitionsReset ∧ UnitsStop ∧ MemoryErrorsHalt ∧ TripsStop

namespace Sys2Proof.Machine

/-- TRACECTL and SMPLCTL (R351, R357): what a context traces and samples is what the call says; another interval is refused. -/
def ControlsSet : Prop :=
  ∀ (s : State) (v : Versions) (ctx : Nat) (c : Ctx), s.takes v → s.ctx? ctx = some c → s.haltedDies c.dies = false →
    (∀ kinds, Yields (.tracectl v ctx kinds) s fun t => Replied s t 0 [] ∧ t.ctx? ctx = some { c with kinds := kinds } ∧
      (∀ m, m ≠ ctx → t.ctx? m = s.ctx? m) ∧ t.groups = s.groups) ∧
    (∀ n, (n = 0 ∨ ∃ k, 8 ≤ k ∧ k ≤ 20 ∧ n = 2 ^ k) → Yields (.smplctl v ctx n) s fun t => Replied s t 0 [] ∧
      t.ctx? ctx = some { c with smplN := n, smplCtr := [] } ∧ (∀ m, m ≠ ctx → t.ctx? m = s.ctx? m) ∧ t.groups = s.groups) ∧
    (∀ n, n ≠ 0 → (∀ k, 8 ≤ k → k ≤ 20 → n ≠ 2 ^ k) → exec (.smplctl v ctx n) s = .next (s.reply 1 []))

/-- EWSET (R355): nine weights replace the weights. -/
def WeightsSet : Prop :=
  ∀ (s : State) (v : Versions) (ws : List Byte), s.takes v →
    (ws.length = 9 → Yields (.ewset v ws) s fun t => t = { s.reply 0 [] with weights := ws }) ∧
    (ws.length ≠ 9 → exec (.ewset v ws) s = .next (s.reply 1 []))

/-- PERFRD and PERF_SNAPSHOT (R354): the snapshot comes 1,250 cycles later at the earliest, gives the sum, the least and the greatest
count over the cores of the partition, cycles counted up to it, with the lowest cores that hold them, and clears the counts of its dies
when another event or context is named, to count from the next cycle on. -/
def CountersRead : Prop :=
  (∀ (s : State) (v : Versions) (event after : Nat) (ctx : Option Nat) (dies : List Nat), s.takes v → 1 ≤ event → event ≤ 0x0D →
    (∃ q ∈ s.parts, q.dies = orderDies dies) → (∀ n, ctx = some n → (s.ctx? n).isSome = true) → s.haltedDies (orderDies dies) = false →
    Yields (.perfrd v event ctx dies after) s fun t =>
      t.snaps = s.snaps ++ [⟨s.now + max after 1250, event, ctx, orderDies dies⟩] ∧ (∀ p ∈ s.perfs, p ∈ t.perfs) ∧
      (∀ p ∈ t.perfs, p ∈ s.perfs ∨ p = perfFresh p.die) ∧ (∀ d ∈ orderDies dies, ∃ p ∈ t.perfs, p.die = d) ∧
      t.replies = s.replies ∧ t.groups = s.groups) ∧
  (∀ (s : State) (c : Snap), s.snaps = [c] → c.at_ ≤ s.now →
    let n := (s.accrue s.now).counter
    (∀ k p, (s.perfs.find? fun p => p.die == dieOf k) = some p → p.event ≠ 1 → p.event ≠ 5 → n k = s.counter k) ∧
    Yields .perfSnapshot s fun t =>
      (∃ low high klow khigh, Replied s t 0 [((coresOf c.dies).map n).sum % 2 ^ 64, low, high, klow, khigh, c.at_] ∧
        (∀ k ∈ coresOf c.dies, low ≤ n k ∧ n k ≤ high) ∧
        (c.dies ≠ [] → klow ∈ coresOf c.dies ∧ khigh ∈ coresOf c.dies ∧ n klow = low ∧ n khigh = high) ∧
        (c.dies.Pairwise (· < ·) → ∀ k ∈ coresOf c.dies, (n k = low → klow ≤ k) ∧ (n k = high → khigh ≤ k))) ∧ t.snaps = [] ∧
      ((∀ p ∈ s.perfs, p.die ∈ c.dies → p.event = c.event ∧ p.ctx = c.ctx) → ∀ k, t.counter k = n k) ∧
      ((∃ p ∈ s.perfs, p.die ∈ c.dies ∧ ¬ (p.event = c.event ∧ p.ctx = c.ctx)) →
        (∀ p ∈ t.perfs, p.die ∈ c.dies → p = ⟨p.die, c.event, c.ctx, s.now, s.now, []⟩) ∧ ∀ k, dieOf k ∉ c.dies → t.counter k = n k))

/-- TRACE_DRAIN, CLUSTER_GATING, GATING_DRAIN_TIMEOUT and GAP_RECORD (R352, R353): buffers of records of cycles that are over drain into
the ring as far as it has room; a gating writes its record and waits 25,000 cycles, after which what is left is lost and counted; a gap
record tells of a loss. -/
def TracesMove : Prop :=
  (∀ (s : State) (k : Nat), k < 80 → (∀ r ∈ Sparse.get [] s.trace k, traceCycle r < s.now) →
    (Sparse.get [] s.trace k).length + s.ring.length ≤ Config.traceRing → Yields (.traceDrain k) s fun t =>
    t.ring = s.ring ++ Sparse.get [] s.trace k ∧ Sparse.get [] t.trace k = [] ∧ (∀ j, j ≠ k → Sparse.get [] t.trace j = Sparse.get [] s.trace j) ∧
    t.groups = s.groups) ∧
  (∀ (s : State) (k : Nat), k < 80 → s.gatedDies.contains (k / 20) = false → s.gatedClusters.contains k = false →
    (Sparse.get [] s.trace k).length < traceCap → Sparse.get 0 s.loss k = 0 → Yields (.clusterGating k) s fun t =>
      k ∈ t.gatedClusters ∧ (k, s.now + 25000) ∈ t.gatings ∧ (∃ rec l m, Sparse.get [] s.trace k = l ++ m ∧ Sparse.get [] t.trace k = l ++ rec :: m ∧
        rec.extractLsb' 488 8 = 7#8 ∧ ((∀ r ∈ Sparse.get [] s.trace k, traceCycle r < s.now) → s.now < 2 ^ 64 → m = [])) ∧
      (∀ core, clusterOf core = k → t.coreRuns core = false) ∧ t.groups = s.groups) ∧
  (∀ (s : State) (k d : Nat), (s.gatings.find? fun g => g.1 == k) = some (k, d) → d ≤ s.now → Yields (.gatingDrainTimeout k) s fun t =>
    Sparse.get [] t.trace k = [] ∧ Sparse.get 0 t.loss k = min allOnes32 (Sparse.get 0 s.loss k + (Sparse.get [] s.trace k).length) ∧
    (∀ g ∈ t.gatings, g.1 ≠ k) ∧ t.groups = s.groups) ∧
  (∀ (s : State) (k : Nat), k < 80 → s.gatedDies.contains (k / 20) = false → (∀ g ∈ s.gatings, g.1 ≠ k) → (Sparse.get [] s.trace k).length < traceCap →
    Sparse.get 0 s.loss k ≠ 0 → Yields (.gapRecord k) s fun t => k ∉ t.gatedClusters ∧ Sparse.get 0 t.loss k = 0 ∧
      (∃ rec, Sparse.get [] t.trace k = Sparse.get [] s.trace k ++ [rec] ∧ rec.extractLsb' 488 8 = 8#8 ∧
        rec.extractLsb' 0 64 = BitVec.ofNat 64 (Sparse.get 0 s.loss k)) ∧ t.groups = s.groups)

/-- LOG_RECORD_CONSUMED (R297): the oldest records leave the log. -/
def LogsConsumed : Prop :=
  ∀ (s : State) (ctx n : Nat) (c : Ctx), s.ctx? ctx = some c → Yields (.logRecordConsumed ctx n) s fun t =>
    t.ctx? ctx = some { c with log := c.log.drop n } ∧ (∀ m, m ≠ ctx → t.ctx? m = s.ctx? m) ∧ t.groups = s.groups

end Sys2Proof.Machine

/-- R297, R351 to R355, R357: tracing, counting, weighing, sampling and the logs. Model's readings: cores that no PERFRD has named count
nothing (log entry 5), a snapshot that names another event answers the old counts and then clears them (log entries 40, 47), when gap
records are written (log entry 52), the size of the trace ring (log entry 7). -/
def Obligations.ObservationEvents : Prop := ControlsSet ∧ WeightsSet ∧ CountersRead ∧ TracesMove ∧ LogsConsumed

namespace Sys2Proof.Machine

/-- MODULE_RESET (R342, R344): boot begins again with what the outside supplies, nothing is resident, all dies are gated, and the
minimum SVN is not lowered. -/
def ModulesReset : Prop :=
  ∀ (s : State) (b : BootInput), Yields (.moduleReset b) s fun t => t.boot.stage = 1 ∧ t.boot.input = some b ∧ t.boot.safe = none ∧
    t.ctxs = [] ∧ t.blocks = [] ∧ t.groups = [] ∧ t.parts = [] ∧ t.gatedDies = [0, 1, 2, 3] ∧ t.svnRaised = s.svnRaised ∧
    (∀ l ∈ t.links, l.up = false) ∧ t.cycle = 0 ∧ t.turn = []

/-- The five stages of boot, which the module does of itself (R342, R344 to R346, R349): each ends with the next, or in the safe state of
its number and of the unit that failed. Stage 1 takes the image of slot A, or that of slot B where A's is refused; stage 2 the
firmware and the microcode, then the policies, measured in this order; stage 3 tests itself; stage 4 gives the compute dies power and
trains their links; stage 5 trains the fabric ports, and the module has its number when one is up. -/
def BootAdvances : Prop :=
  ∀ (s : State) (b : BootInput), s.boot.input = some b → s.boot.safe = none →
    let accepts (kind : Nat) (m : Image) : Bool := imageAccepted kind s.minSvn m
    let fails (u : Nat) : Prop := ∃ t, s.internal = some t ∧ t.boot.safe = some (s.boot.stage, u) ∧ t.boot.stage = s.boot.stage ∧
      t.gatedDies = [0, 1, 2, 3] ∧ ∀ l ∈ t.links, l.up = false
    let passes (P : State → Prop) : Prop := ∃ t, s.internal = some t ∧ t.boot.stage = s.boot.stage + 1 ∧ t.boot.safe = none ∧ P t
    let digest (m : Image) : List Byte := sha3 (imageCover m)
    (s.boot.stage = 1 →
      (accepts 1 b.slotA = true → passes fun t => t.measured = s.measured ++ [digest b.slotA]) ∧
      (accepts 1 b.slotA = false → accepts 1 b.slotB = true → passes fun t => t.measured = s.measured ++ [digest b.slotB]) ∧
      (accepts 1 b.slotA = false → accepts 1 b.slotB = false → fails 0)) ∧
    (s.boot.stage = 2 →
      (accepts 2 b.firmware = true → accepts 3 b.microcode = true → passes fun t => s.minSvn ≤ t.minSvn ∧
        (∃ more, t.measured = s.measured ++ [digest b.firmware, digest b.microcode] ++ more) ∧
        (b.policies = [] → t.measured = s.measured ++ [digest b.firmware, digest b.microcode] ∧ t.svnRaised = s.svnRaised) ∧
        ∀ m, b.policies = [m] → accepts 4 m = true →
          t.measured = s.measured ++ [digest b.firmware, digest b.microcode, digest m] ∧
          t.svnRaised = max s.svnRaised (Config.policySvn m.body)) ∧
      (accepts 2 b.firmware = false ∨ accepts 3 b.microcode = false → fails 0)) ∧
    (s.boot.stage = 3 →
      (b.selfTestFails = none → passes fun t => t.measured = s.measured) ∧ ∀ u, b.selfTestFails = some u → fails u) ∧
    (s.boot.stage = 4 →
      (b.linksFail = none → (agreed b.formats).isSome = true → passes fun t => t.gatedDies = [] ∧ t.boot.refresh = true ∧
        ∀ l ∈ t.links, (∃ n, l.link = .port n) ∨ l.up = true) ∧
      ∀ u, b.linksFail = some u → fails u) ∧
    (s.boot.stage = 5 → passes fun t => t.booted = true ∧ (b.portsTrained = [] → t.links = s.links) ∧
      (∀ n v minor, b.portsTrained = [(n, v)] → n < 18 → agreed v = some (1, minor) →
        (∀ l ∈ t.links, l.link = .port n → l.up = true ∧ l.minor = minor) ∧ ((∃ l ∈ s.links, l.link = .port n) → t.dev = b.moduleNo)) ∧
      (∀ n v, b.portsTrained = [(n, v)] → n < 18 → agreed v = none → t.linkLog = s.linkLog ++ [.port n] ∧ t.links = s.links) ∧
      (s.portUp = false → b.portsTrained = [] → t.dev = 0))

/-- SUPPLY_FAULT (R342, R343): during boot it leads to the safe state, in which no compute die has power and no link is up. -/
def SuppliesFail : Prop :=
  ∀ s : State, s.booted = false → s.boot.safe = none → Yields .supplyFault s fun t => (∃ unit, t.boot.safe = some (s.boot.stage, unit)) ∧
    t.booted = false ∧ t.gatedDies = [0, 1, 2, 3] ∧ (∀ l ∈ t.links, l.up = false ∧ l.waiting = []) ∧ t.rootPorts = [] ∧ ∀ core, dieOf core < 4 → t.coreRuns core = false

/-- MCTP_QUERY (R343): answered in every state, with the failing stage and unit in the safe state. -/
def QueriesAnswered : Prop :=
  ∀ s : State, (∃ rest, exec (.mctpQuery false) s = .next { s with mctp := s.mctp ++ [s.boot.stage :: rest] } ∧
      ∀ stage unit, s.boot.safe = some (stage, unit) → ∃ more, rest = 1 :: stage :: unit :: more) ∧
    ∃ answer, exec (.mctpQuery true) s = .next { s with mctp := s.mctp ++ [answer] } ∧ ∃ more, answer = s.boot.record ++ more

/-- ATTESTATION_REQUEST (R345): in every state the report holds the nonce, the measurements in the order taken and the minimum SVN,
and is signed with the device key. -/
def ReportsSigned : Prop :=
  ∀ (s : State) (nonce : List Byte), nonce.length = 32 → Yields (.attestationRequest nonce) s fun t =>
    (∃ body more, t.reports = s.reports ++ [body ++ reportSignature s.reports.length body] ∧
      body = nonce ++ (s.measured.flatten ++ (bytesOf 4 s.minSvn ++ more))) ∧
    t = { s with reports := t.reports }

/-- LINK_PACKET, RESERVATION_GRANT, LINK_DOWN and LINK_RETRAIN (R308, R315, R349): a rejected packet waits for its grant and is then
sent again; a link goes down, which the collective operations in flight that may use it know of, and is trained again with a version in
common or stays down and is logged. -/
def LinksMove : Prop :=
  ∀ (s : State) (l : Link) (x : LinkState), x ∈ s.links → x.link = l →
    (∀ pkt, x.up = true → (∀ w ∈ x.waiting, w.1 ≠ pkt) →
      (Yields (.linkPacket l pkt false) s fun t => ({ x with waiting := x.waiting ++ [(pkt, false)] } : LinkState) ∈ t.links ∧ t.groups = s.groups) ∧
      (Yields (.linkPacket l pkt true) s fun t => x ∈ t.links ∧ t.groups = s.groups)) ∧
    (∀ pkt, x.waiting = [(pkt, false)] →
      (x.up = true → Yields (.linkPacket l pkt true) s fun t => x ∈ t.links) ∧
      Yields (.reservationGrant l pkt) s fun t => ({ x with waiting := [(pkt, true)] } : LinkState) ∈ t.links ∧ t.groups = s.groups) ∧
    (∀ pkt, x.up = true → x.waiting = [(pkt, true)] → Yields (.linkPacket l pkt true) s fun t => ({ x with waiting := [] } : LinkState) ∈ t.links) ∧
    (Yields (.linkDown l) s fun t => ({ x with up := false, waiting := [] } : LinkState) ∈ t.links ∧ (∀ y ∈ t.links, y.link = l → y.up = false) ∧
      (∀ y ∈ s.links, y.link ≠ l → y ∈ t.links) ∧ t.groups = s.groups ∧
      (∀ op ∈ s.inFlight, ∀ c cm, s.ctx? op.1 = some c → c.comm? op.2.1 = some cm → s.mayUse cm l = true →
        ∃ b ∈ t.broken, b.is op.1 op.2.1 op.2.2 = true)) ∧
    (s.booted = true → x.up = false →
      (∀ peer major minor, agreed peer = some (major, minor) → Yields (.linkRetrain l peer) s fun t =>
        ({ x with up := true, minor := minor } : LinkState) ∈ t.links ∧ t.linkLog = s.linkLog ∧ t.groups = s.groups) ∧
      (∀ peer, agreed peer = none → Yields (.linkRetrain l peer) s fun t => t.links = s.links ∧ t.linkLog = s.linkLog ++ [l] ∧ t.groups = s.groups))

end Sys2Proof.Machine

/-- R308, R342 to R346, R349: the system die boots through its five stages, answers, reports, and trains links. Model's readings: which
dies have power (log entry 3), that policies are applied in stage 2 and that unit 0 fails where an image is refused (log entry 54), the
module number (log entry 55), when reports are given (log entry 56), a format in common before the dies start (log entry 82), the form
of ML-DSA-44 that images are accepted and reports signed in (log entry 83); the device key and what a policy says are constants without
a body (log entry 4). -/
def Obligations.SystemDieEvents : Prop :=
  ModulesReset ∧ BootAdvances ∧ SuppliesFail ∧ QueriesAnswered ∧ ReportsSigned ∧ LinksMove

/-! Decoding, fetching, traps, reset -/

namespace Sys2Proof.Machine

open Sys2Proof

/-- An unguarded word whose sources have no block-or-trap bit. -/
def plainWord (len : Len) (uni : Bool) (dst a b c : Src) (ext : DWord) : W :=
  { len := len, uni := uni, gneg := false, gidx := 0, dst := dst, a := ⟨a, false⟩, b := ⟨b, false⟩, c := ⟨c, false⟩, ext := ext }

/-- The 65 instruction words that the sections write out whole, each with the instruction that the section says it is: those of the
rules (03, 05, 06, 08, 11, 14, 15, 18, 20) and those of the programs (09, 13, 16, 17, 19, 21). -/
def specWords : List (BitVec 128 × Instr) := plainWords ++ memoryWords ++ unitWords ++ programWords
where
  plainWords : List (BitVec 128 × Instr) := [
  (0x0000000000000004, .nop (plainWord .w64 true (.v 0) (.v 0) (.v 0) (.v 0) 0)),
  (0x2000040483418104, .iadd (plainWord .w64 true (.s 3) (.s 3) (.imm 1) (.v 0) 0) ⟨.i32, false, 0⟩),
  (0x2080000083608148, .icmp (plainWord .w64 false (.k 1) (.s 3) (.v 0) (.v 0) 0) ⟨.i32, false, .lt⟩),
  (0x3FC0000000000000E8010209, .mov (plainWord .w96 false (.v 2) .exa (.v 0) (.v 0) 0x3FC00000) ⟨.b32, false, 0⟩),
  (0x00000003A100003C, .pad 0x3A1),
  (0x0000004000000000C100001D,
    .braD (plainWord .w96 true (.v 0) (.k 1) (.v 0) (.v 0) 0x40)),
  (0x60000320020083A0, .cvtSr (plainWord .w64 false (.v 1) (.v 2) (.d 0) (.v 0) 0) ⟨.e4m3, .f32, .rne, false, false⟩),
  (0x0000000088000504, .dload (plainWord .w64 true (.v 0) (.s 8) (.v 0) (.v 0) 0) 0),
  (0x00C0000088000504, .dload (plainWord .w64 true (.v 0) (.s 8) (.v 0) (.v 0) 0) 3),
  (0x0000040C00000528, .qseek (plainWord .w64 false (.v 0) (.v 0) (.imm 3) (.v 0) 0) ⟨0, 0⟩),
  (0x4000000086000508, .qkey (plainWord .w64 false (.v 0) (.s 6) (.v 0) (.v 0) 0) ⟨1, 0⟩),
  (0x00000310C361858C, .kor (plainWord .w64 true (.k 3) (.k 3) (.k 4) (.v 0) 0)),
  (0x00000000C14305AC, .poll (plainWord .w64 true (.s 6) (.k 1) (.v 0) (.v 0) 0) 0),
  (0x0000000000000054, .join (plainWord .w64 true (.v 0) (.v 0) (.v 0) (.v 0) 0)),
  (0x000000000000005C, .brk (plainWord .w64 true (.v 0) (.v 0) (.v 0) (.v 0) 0)),
  (0x00C00440010105B0, .shfl (plainWord .w64 false (.v 2) (.v 1) (.imm 16) (.v 0) 0) ⟨.b32, false, 3⟩)]
  memoryWords : List (BitVec 128 × Instr) := [
  (0x0000040100028600, .ld (plainWord .w64 false (.v 5) (.imm 0) (.imm 0) (.v 0) 0) ⟨.b32, .sp⟩),
  (0x0400301482000608, .st (plainWord .w64 false (.v 0) (.s 2) (.v 5) (.v 3) 0) ⟨.b32, .sc⟩),
  (0x3208340082040610, .ldt (plainWord .w64 false (.v 8) (.s 2) (.imm 0) (.s 3) 0) ⟨.n8, .sh⟩),
  (0x3410140084010648, .atomExch (plainWord .w64 false (.v 2) (.s 4) (.imm 0) (.imm 1) 0) ⟨.blk, .acqCrit, .sh, .i32⟩),
  (0x00000000000006A4, .barb (plainWord .w64 true (.v 0) (.v 0) (.v 0) (.v 0) 0)),
  (0x60000000000006AC, .fence (plainWord .w64 true (.v 0) (.v 0) (.v 0) (.v 0) 0) .die),
  (0x6008C20082000704, .copy (plainWord .w64 true (.v 0) (.s 2) (.s 0) (.s 12) 0) ⟨.sc, .mem⟩),
  (0x1009020C8200070C, .gather (plainWord .w64 true (.v 0) (.s 2) (.s 3) (.s 16) 0) ⟨.sh, .sc⟩),
  (0x000000000046871C, .bclose (plainWord .w64 true (.s 13) (.v 0) (.v 0) (.v 0) 0)),
  (0x000000008D000084, .waitb (plainWord .w64 true (.v 0) (.s 13) (.v 0) (.v 0) 0)),
  (0x000000000000072C, .updstep (plainWord .w64 true (.v 0) (.v 0) (.v 0) (.v 0) 0)),
  (0x0040000090000724, .updAdamw (plainWord .w64 true (.v 0) (.s 16) (.v 0) (.v 0) 0))]
  unitWords : List (BitVec 128 × Instr) := [
  (0x00090040006C0780, .mmaQ (plainWord .w64 false (.c 0) (.v 0) (.v 16) (.s 16) 0)),
  (0x000000000000020000000040006E0782, .mmaQImage (plainWord .w128 false (.c 4) (.v 0) (.v 16) (.v 0) 0x200)),
  (0x00000000DC4287A4, .mstat (plainWord .w64 true (.s 5) (.c 4) (.v 0) (.v 0) 0)),
  (0x00000000006C078C, .mzero (plainWord .w64 true (.c 0) (.v 0) (.v 0) (.v 0) 0)),
  (0x000000000000006C, .rte (plainWord .w64 true (.v 0) (.v 0) (.v 0) (.v 0) 0)),
  (0x0140000000000074, .bkpt (plainWord .w64 true (.v 0) (.v 0) (.v 0) (.v 0) 0) 0x05),
  (0x0840000085000064, .trap (plainWord .w64 true (.v 0) (.s 5) (.v 0) (.v 0) 0) 0x21),
  (0x000000000000009C, .pctlNoidem (plainWord .w64 true (.v 0) (.v 0) (.v 0) (.v 0) 0)),
  (0x004000008800009C, .pctlExpect (plainWord .w64 true (.v 0) (.s 8) (.v 0) (.v 0) 0)),
  (0x00C0040C934A07C4, .collArReg (plainWord .w64 true (.s 20) (.s 19) (.imm 3) (.v 0) 0) 3),
  (0x540004008A6E0794, .mld (plainWord .w64 true (.c 4) (.s 10) (.imm 0) (.v 0) 0) ⟨.f32, .sc⟩),
  (0x540D84009800079C, .mdrain (plainWord .w64 true (.v 0) (.s 24) (.imm 0) (.c 0) 0) ⟨.f32, .sc, false, false⟩),
  (0x00000220900007D4, .collBc (plainWord .w64 true (.v 0) (.s 16) (.s 8) (.v 0) 0))]
  programWords : List (BitVec 128 × Instr) := [
  (0x0000001C00000000C200001D, .braD (plainWord .w96 true (.v 0) (.k 2) (.v 0) (.v 0) 0x1C)),
  (0x00000000FFFFFFB88000000000000016, .bra (plainWord .w128 true (.v 0) (.v 0) (.v 0) (.v 0) 0xFFFFFFB8) true),
  (0x00C00500010185B8, .shflG (plainWord .w64 false (.v 3) (.v 1) (.imm 64) (.v 0) 0) ⟨.b32, false, 3⟩),
  (0x0000020C001005B0, .shfl (plainWord .w64 false (.v 32) (.v 0) (.s 3) (.v 0) 0) ⟨.b32, false, 0⟩),
  (0x5100040020610340, .fcmp (plainWord .w64 false (.k 2) (.v 32) (.imm 0) (.v 0) 0) ⟨.f32, false, .gt⟩),
  (0x5000126425000318, .ffma (plainWord .w64 false (.v 0) (.v 37) (.s 25) (.v 1) 0) ⟨.f32, .rne, false, false⟩),
  (0x1009820C9300070C, .gather (plainWord .w64 true (.v 0) (.s 19) (.s 3) (.s 24) 0) ⟨.sh, .sc⟩),
  (0x00000002000010000210100900001E0A,
    .st { plainWord .w128 false (.v 0) (.imm 0) (.v 2) (.imm 1) 0x0000000200001000 with gidx := 3 } ⟨.b32, .sh⟩),
  (0x5200030807040DC8, .gscan { plainWord .w64 false (.v 8) (.v 7) (.k 2) (.v 0) 0 with gidx := 1 } ⟨.f32, false, 8⟩),
  (0xFFFFFF9C0000000000000015, .bra (plainWord .w96 true (.v 0) (.v 0) (.v 0) (.v 0) 0xFFFFFF9C) false),
  (0x0010220100001EB4, .tmapMap { plainWord .w64 true (.v 0) (.imm 0) (.s 0) (.imm 2) 0 with gidx := 3 }),
  (0x570D84010000079C, .mdrain (plainWord .w64 true (.v 0) (.imm 0) (.imm 0) (.c 0) 0) ⟨.f32, .tw, true, false⟩),
  (0x000000000000580C, .exit { plainWord .w64 true (.v 0) (.v 0) (.v 0) (.v 0) 0 with gneg := true, gidx := 3 }),
  (0x00000002000000000601F07900000E0A,
    .st { plainWord .w128 false (.v 0) (.imm 0) (.v 30) (.v 31) 0x0000000200000000 with gidx := 1 } ⟨.b32, .tw⟩),
  (0x00000001004A86CC, .tstat (plainWord .w64 true (.s 21) (.imm 0) (.v 0) (.v 0) 0)),
  (0x00000000000000040400040081030E02, .ld { plainWord .w128 false (.v 6) (.s 1) (.imm 0) (.v 0) 4 with gidx := 1 } ⟨.b32, .sc⟩),
  (0x50014818C80A0318,
    .ffma { plainWord .w64 false (.v 20) (.d 0) (.v 0) (.v 20) 0 with b := ⟨.v 6, true⟩ } ⟨.f32, .rne, false, false⟩),
  (0x000000000A000538, .qrest (plainWord .w64 false (.v 0) (.v 10) (.v 0) (.v 0) 0) ⟨0, 0⟩),
  (0x0000040CC80A8548, .ddraw (plainWord .w64 false (.v 21) (.d 0) (.imm 3) (.v 0) 0)),
  (0x0000000006000078, .waitf (plainWord .w64 false (.v 0) (.v 6) (.v 0) (.v 0) 0)),
  (0x00000000FFFFFFC80000000000001816, .bra { plainWord .w128 true (.v 0) (.v 0) (.v 0) (.v 0) 0xFFFFFFC8 with gidx := 3 } false),
  (0x00400210944C07C4, .collArReg (plainWord .w64 true (.s 24) (.s 20) (.s 4) (.v 0) 0) 1),
  (0x00000210964D07C4, .collArReg (plainWord .w64 true (.s 26) (.s 22) (.s 4) (.v 0) 0) 0),
  (0x5000000006039458, .ex2 { plainWord .w64 false (.v 7) (.v 6) (.v 0) (.v 0) 0 with gidx := 2 } ⟨.f32, .rne, false, false⟩)]

/-- The step at s makes the group of x trap before its word is an instruction, with its own pc and every active thread (R33, R50). -/
def FetchTraps (s : State) (x : Cx) (cause : BitVec 8) (detail : Nat) : Prop :=
  ∃ t, step s = .next t ∧ Booked ((s.unhold x.g.gid).takeTrap { x.g with stay := false, stayDone := false, reissue := false }
    { cause := cause, detail := BitVec.ofNat 16 detail, lanes := x.g.amask, amask := x.g.amask, pc := x.g.pc, resume := x.g.pc,
      oper := 0 }) t

/-- g' shares with g every register that is in no bank (R31). -/
structure SharesRest (g g' : Group) : Prop where
  v : ∀ r t, r < 120 → t < 32 → g'.vget r t = g.vget r t ∧ g'.vempty r t = g.vempty r t
  s : ∀ r, r < 56 → g'.sget r = g.sget r ∧ g'.sempty r = g.sempty r
  k : ∀ r, r ≠ 7 → g'.kget r = g.kget r

/-- The bank registers of g' that a trap record does not fill are the copies g keeps aside, full marks included (R31). -/
structure TakesCopies (g g' : Group) : Prop where
  v : ∀ r t, 120 ≤ r → t < 32 → g'.vget r t = Sparse.get 0 g.other.v (32 * r + t) ∧ g'.vempty r t = Sparse.get false g.other.ve (32 * r + t)
  k : g'.kget 7 = Sparse.get 0 g.other.k 7

/-- g' keeps the program's copies as g had them, full marks included (R31). -/
structure SavesCopies (g g' : Group) : Prop where
  v : ∀ r t, 120 ≤ r → t < 32 → Sparse.get 0 g'.other.v (32 * r + t) = g.vget r t ∧ Sparse.get false g'.other.ve (32 * r + t) = g.vempty r t
  s : ∀ r, 56 ≤ r → Sparse.get 0 g'.other.s r = g.sget r ∧ Sparse.get false g'.other.se r = g.sempty r
  k : Sparse.get 0 g'.other.k 7 = g.kget 7

/-- g' is g after entry to its handler (R288). -/
structure Entered (g g' : Group) (hentry : VA) (cause : BitVec 8) (detail : Nat) (lanes : Mask) : Prop where
  pc : g'.pc = hentry
  mask : g'.amask = g.amask
  stack : g'.stack = g.stack ∧ g'.entryDepth = g.stack.length
  handler : g'.handler.isSome = true ∧ g'.queue = []
  resume : (g'.sget 56).toNat + 2 ^ 32 * (g'.sget 57).toNat = g.pc.toNat
  cause : (g'.sget 58).toNat = cause.toNat + 2 ^ 8 * (detail % 2 ^ 16)
  lanes : g'.sget 59 = lanes
  active : g'.sget 60 = g.amask
  oper : g'.sget 61 = 0
  stopped : (g'.sget 62).toNat = g.pc.toNat / 4 % 2 ^ 32
  pending : g'.sget 63 = 0
  full : ∀ r, 56 ≤ r → r < 64 → g'.sempty r = false
  rest : SharesRest g g'
  copies : TakesCopies g g'
  saved : SavesCopies g g'

/-- g' is g after its return from the handler (R289). -/
structure Returned (g g' : Group) : Prop where
  depth : g.stack.length = g.entryDepth
  pc : g'.pc.toNat = (g.sget 56).toNat + 2 ^ 32 * (g.sget 57).toNat
  aligned : g'.pc.toNat % 4 = 0
  mask : g'.amask = g.sget 60 &&& g.full ∧ g'.amask ≠ 0
  handler : g'.handler = none ∧ g'.queue = g.queue ∧ g'.stack = g.stack
  rest : SharesRest g g'
  copies : TakesCopies g g'
  bank : ∀ r, 56 ≤ r → g'.sget r = Sparse.get 0 g.other.s r ∧ g'.sempty r = Sparse.get false g.other.se r

/-- What every step keeps: turns begin at multiples of eight cycles (R132), main memory and the scratchpads keep their form. -/
structure State.Inv (s : State) : Prop where
  cycle : s.cycle % 8 = 0
  dram : s.dram.wf = true
  scratch : s.scratch.wf = true

end Sys2Proof.Machine

open Sys2Proof Sys2Proof.Machine

/-- The decoder gives the instructions that the spec says the 65 words are that its sections write out whole. -/
def Obligations.SpecWordsDecode : Prop := ∀ e ∈ specWords, decodeWord e.1 = .ok e.2

/-- R32, R36, R48 to R50: the bytes of every well-formed encoded instruction decode to it, whatever follows them. -/
def Obligations.DecodeInvertsEncode : Prop :=
  ∀ (i : Instr) (f : Fields) (rest : List Byte), wf i = true → fieldsOf i = some f →
    encode i = some (packWord f) ∧ decodeWord (packWord f) = .ok i ∧ (encodeBytes i).length = f.len.bytes ∧
      decode (encodeBytes i ++ rest) = .ok (i, rest)

/-- R36, R48 to R50: a word that decodes is that of a well-formed instruction whose fields are the word's own: no bit of it is
dropped. -/
def Obligations.DecodedWordsAreWellFormed : Prop :=
  ∀ (w : BitVec 128) (i : Instr), decodeWord w = .ok i → wf i = true ∧ ∃ f, splitWord w = some f ∧ fieldsOf i = some f

/-- R17, R21, R32, R33, R132, R136, R180: what is to happen at once as its condition holds (an instruction in issue that retires, a fetch
that was waiting) happens first; then a step runs the instruction that the bytes at the pc of the group at the head of the turn, as its
die reads them, decode to; a group that cannot issue leaves the turn; with no turn the step runs the next event, or what the module does
of itself, or a re-fusion check that ends the turn (R136), or the next turn begins. That events stand in an agenda and run between turns,
in its order, is the model's choice (log entries 2, 13). -/
def Obligations.StepRunsDecoded : Prop :=
  (∀ s t : State, s.prompt = some t → step s = .next t) ∧
  (∀ (s : State) it rest g b c pa attr i bs, s.prompt = none → s.turn = it :: rest → s.group? it.gid = some g → s.mayIssue g = true →
    s.block? g.bid = some b → s.ctx? b.ctx = some c → breakAt c g.pc = none → s.fetchXlat c g.pc.toNat = .ok pa attr →
    decode (s.dram.readList (readPa (dieOf g.core) pa attr) 16) = .ok (i, bs) → g.pc.toNat % 32 + (16 - bs.length) ≤ 32 →
    step s = exec i s) ∧
  (∀ (s : State) it rest, s.prompt = none → s.turn = it :: rest → (∀ g, s.group? it.gid = some g → s.mayIssue g = false) →
    step s = .next { s with turn := rest }) ∧
  (∀ (s s' : State) t i, s.prompt = none → s.turn = [] → s.nextEvent = some (t, i, s') →
    step s = exec i { s'.accrue t with now := t }) ∧
  (∀ s t : State, s.prompt = none → s.turn = [] → s.nextEvent = none → s.internal = some t → step s = .next t) ∧
  (∀ (s : State) r rest, s.prompt = none → s.turn = [] → s.nextEvent = none → s.internal = none → s.refuse = r :: rest →
    step s = exec (.quartetFuse r.1 r.2) { s.accrue (s.cycle + 7) with now := s.cycle + 7 }) ∧
  ∀ s : State, s.prompt = none → s.turn = [] → s.nextEvent = none → s.internal = none → s.refuse = [] → step s = .next s.advance

/-- R33, R50, R180, R292: an instruction whose last byte lies in a later frame than its first byte raises MISFRAME, reported at its pc with
the active mask; a word that fails another check of R50 raises ILLEGAL with the number of the check, the word being the one that the
group's die reads; an instruction breakpoint before it raises BKPT with the next instruction as the place to resume at, or halts the
group for the debugger there. That the checks of R50 come before the guard is the model's reading (log entry 15), and so is where a
group goes on after a breakpoint (log entry 24). -/
def Obligations.FramesAndChecks : Prop :=
  (∀ (s : State) (x : Cx) pa attr n, Solo s noFields x → s.prompt = none → s.mayIssue x.g = true → breakAt x.c x.g.pc = some n →
    s.fetchXlat x.c x.g.pc.toNat = .ok pa attr →
    let w := BitVec.ofNat 128 (s.dram.readN (readPa (dieOf x.g.core) pa attr) 16)
    let next := x.g.pc + BitVec.ofNat 52 (wordBytes w)
    ∃ t, step s = .next t ∧ Booked (if x.c.ctl.dbg then s.setGroup { x.g with dbgStop := some next }
      else s.takeTrap x.g (x.recordOf 0x09 (0x100 + n) x.g.amask next 0)) t) ∧
  (∀ (s : State) (x : Cx) pa attr (w : BitVec 128), Solo s noFields x → s.prompt = none → s.mayIssue x.g = true →
    breakAt x.c x.g.pc = none →
    s.fetchXlat x.c x.g.pc.toNat = .ok pa attr → w = BitVec.ofNat 128 (s.dram.readN (readPa (dieOf x.g.core) pa attr) 16) →
    (lenOf (w.extractLsb' 0 2) = none → FetchTraps s x 0x01 1) ∧
    (∀ len, lenOf (w.extractLsb' 0 2) = some len →
      (x.g.pc.toNat / 32 ≠ (x.g.pc.toNat + len.bytes - 1) / 32 → FetchTraps s x 0x02 0) ∧
      (∀ n, x.g.pc.toNat / 32 = (x.g.pc.toNat + len.bytes - 1) / 32 → decodeWord w = .error n → FetchTraps s x 0x01 n))) ∧
  ∀ pc : VA, pc.toNat % 4 = 0 → (crosses pc .w64 = true ↔ pc.toNat % 32 = 28) ∧
    (crosses pc .w96 = true ↔ pc.toNat % 32 = 24 ∨ pc.toNat % 32 = 28) ∧
    (crosses pc .w128 = true ↔ pc.toNat % 32 = 20 ∨ pc.toNat % 32 = 24 ∨ pc.toNat % 32 = 28)

/-- R31, R287 to R289: a precise trap switches the group to the handler's copies of the bank registers, with the record in
s56 to s63, and RTE restores the program's copies exactly; a trap inside the handler, or with HENTRY 0, halts the partition. -/
def Obligations.HandlerBanks : Prop :=
  (∀ i f s x cause detail lanes, Solo s f x → Traps i s x cause detail lanes →
    (x.g.handler = none → x.c.ctl.hentry ≠ 0 →
      ∃ t g, exec i s = .next t ∧ t.group? x.g.gid = some g ∧ Entered x.g g x.c.ctl.hentry cause detail lanes) ∧
    (x.g.handler.isSome = true ∨ x.c.ctl.hentry = 0 →
      ∃ t, exec i s = .next t ∧
        Booked (((s.sampleTrap x.g.gid f).unhold x.g.gid).halt (dieOf x.g.core) 0x03 (sliceUnit x.g) x.g.pc.toNat) t)) ∧
  ∀ g g' : Group, g.returnFrom = some g' → Returned g g'

/-- R64: the block whose sixteen inputs are all zeros of either sign is encoded with scale and elements 0 and no exception, and
decodes to sixteen +0. -/
def Obligations.ZeroBlocks : Prop :=
  ∀ (x : Cx) (t : Nat) (dr : Draw) (ty : Ty), ty ∈ [Ty.e4m3, .e5m2, .e2m1, .q4x, .i8] →
    (∀ sr, (∀ v ∈ x.run x.f.a 16 t, v = 0 ∨ v = 0x80000000) →
      (qntShare ty sr x t dr).1 = ⟨t, List.replicate (if ty = .e2m1 ∨ ty = .q4x then 3 else 5) 0, 0⟩) ∧
    (∀ sat, (∀ v ∈ x.run x.f.a (if ty = .e2m1 ∨ ty = .q4x then 3 else 5) t, v = 0) →
      (dqntShare ty sat x t dr).1 = ⟨t, List.replicate 16 0, 0⟩)

/-- The state right after module reset (R342): boot is at its first stage, no die has power, nothing is resident, no link is
up, the memories have the form that every step keeps and list nothing (an unlisted byte of main memory reads 0: log entry 8).
That every die is gated then is the model's choice (log entry 3). -/
def Obligations.ResetState : Prop :=
  State.reset.Inv ∧ State.reset.boot.stage = 1 ∧ State.reset.booted = false ∧ State.reset.boot.safe = none ∧
    (∀ core, core < 640 → State.reset.coreRuns core = false) ∧
    State.reset.groups = [] ∧ State.reset.blocks = [] ∧ State.reset.ctxs = [] ∧ State.reset.parts = [] ∧
    (∀ l ∈ State.reset.links, l.up = false) ∧ (∀ a, State.reset.dram.read a = 0 ∧ State.reset.scratch.read a = 0)

/-- R132: every step keeps turns at multiples of eight cycles, and the canonical form of main memory and of the scratchpads. -/
def Obligations.StepsKeepInvariant : Prop := ∀ s t : State, s.Inv → step s = .next t → t.Inv
end

