-- ==== Sys2Proof/Laws/Encoding.lean ====
section
/-! SUPPORT. The encoding tables read back: specifiers, modifiers and fields of a word, and what a well-formed
instruction's fields pass. -/

namespace Sys2Proof

theorem Src.ofCode_code (s : Src) : Src.ofCode s.code = some s := by
  cases s with
  | v n => revert n; decide
  | s n => revert n; decide
  | k n => revert n; decide
  | d n => revert n; decide
  | c n => revert n; decide
  | exa => decide
  | exb => decide
  | ex64 => decide
  | short r => cases r <;> decide
  | imm b => revert b; decide

theorem append_low {n m i : Nat} {x : BitVec n} {y : BitVec m} (h : i < m) : (x ++ y).getLsbD i = y.getLsbD i := by
  rw [BitVec.getLsbD_append, if_pos h]

theorem append_high {n m i : Nat} {x : BitVec n} {y : BitVec m} (h : m ≤ i) : (x ++ y).getLsbD i = x.getLsbD (i - m) := by
  rw [BitVec.getLsbD_append, if_neg (by omega)]

theorem getLsbD_bit1 (b : Bool) : (bit1 b).getLsbD 0 = b := by cases b <;> rfl

theorem Len.ofCode (l : Len) : lenOf l.code = some l := by cases l <;> decide

theorem packWord_opc (f : Fields) : (packWord f).extractLsb' 3 8 = f.opc := by
  apply BitVec.eq_of_getLsbD_eq; intro i hi
  simp (disch := omega) only [packWord, BitVec.getLsbD_extractLsb', BitVec.getLsbD_setWidth, append_low, append_high]
  rw [decide_eq_true hi, decide_eq_true (show _ < 128 by omega), Bool.true_and, Bool.true_and]
  exact congrArg _ (by omega)

theorem packWord_gidx (f : Fields) : (packWord f).extractLsb' 11 3 = f.gidx := by
  apply BitVec.eq_of_getLsbD_eq; intro i hi
  simp (disch := omega) only [packWord, BitVec.getLsbD_extractLsb', BitVec.getLsbD_setWidth, append_low, append_high]
  rw [decide_eq_true hi, decide_eq_true (show _ < 128 by omega), Bool.true_and, Bool.true_and]
  exact congrArg _ (by omega)

theorem packWord_dst (f : Fields) : (packWord f).extractLsb' 15 9 = f.dst := by
  apply BitVec.eq_of_getLsbD_eq; intro i hi
  simp (disch := omega) only [packWord, BitVec.getLsbD_extractLsb', BitVec.getLsbD_setWidth, append_low, append_high]
  rw [decide_eq_true hi, decide_eq_true (show _ < 128 by omega), Bool.true_and, Bool.true_and]
  exact congrArg _ (by omega)

theorem packWord_a (f : Fields) : (packWord f).extractLsb' 24 9 = f.a := by
  apply BitVec.eq_of_getLsbD_eq; intro i hi
  simp (disch := omega) only [packWord, BitVec.getLsbD_extractLsb', BitVec.getLsbD_setWidth, append_low, append_high]
  rw [decide_eq_true hi, decide_eq_true (show _ < 128 by omega), Bool.true_and, Bool.true_and]
  exact congrArg _ (by omega)

theorem packWord_b (f : Fields) : (packWord f).extractLsb' 34 9 = f.b := by
  apply BitVec.eq_of_getLsbD_eq; intro i hi
  simp (disch := omega) only [packWord, BitVec.getLsbD_extractLsb', BitVec.getLsbD_setWidth, append_low, append_high]
  rw [decide_eq_true hi, decide_eq_true (show _ < 128 by omega), Bool.true_and, Bool.true_and]
  exact congrArg _ (by omega)

theorem packWord_c (f : Fields) : (packWord f).extractLsb' 44 9 = f.c := by
  apply BitVec.eq_of_getLsbD_eq; intro i hi
  simp (disch := omega) only [packWord, BitVec.getLsbD_extractLsb', BitVec.getLsbD_setWidth, append_low, append_high]
  rw [decide_eq_true hi, decide_eq_true (show _ < 128 by omega), Bool.true_and, Bool.true_and]
  exact congrArg _ (by omega)

theorem packWord_mod (f : Fields) : (packWord f).extractLsb' 54 10 = f.mod := by
  apply BitVec.eq_of_getLsbD_eq; intro i hi
  simp (disch := omega) only [packWord, BitVec.getLsbD_extractLsb', BitVec.getLsbD_setWidth, append_low, append_high]
  rw [decide_eq_true hi, decide_eq_true (show _ < 128 by omega), Bool.true_and, Bool.true_and]
  exact congrArg _ (by omega)

theorem packWord_ext (f : Fields) : (packWord f).extractLsb' 64 64 = f.ext := by
  apply BitVec.eq_of_getLsbD_eq; intro i hi
  simp (disch := omega) only [packWord, BitVec.getLsbD_extractLsb', BitVec.getLsbD_setWidth, append_low, append_high]
  rw [decide_eq_true hi, decide_eq_true (show _ < 128 by omega), Bool.true_and, Bool.true_and]
  exact congrArg _ (by omega)

theorem packWord_s (f : Fields) : (packWord f).getLsbD 2 = f.s := by
  simp (disch := omega) only [packWord, BitVec.getLsbD_setWidth, append_low, append_high, Nat.reduceSub, getLsbD_bit1]
  rfl

theorem packWord_gneg (f : Fields) : (packWord f).getLsbD 14 = f.gneg := by
  simp (disch := omega) only [packWord, BitVec.getLsbD_setWidth, append_low, append_high, Nat.reduceSub, getLsbD_bit1]
  rfl

theorem packWord_aef (f : Fields) : (packWord f).getLsbD 33 = f.aef := by
  simp (disch := omega) only [packWord, BitVec.getLsbD_setWidth, append_low, append_high, Nat.reduceSub, getLsbD_bit1]
  rfl

theorem packWord_bef (f : Fields) : (packWord f).getLsbD 43 = f.bef := by
  simp (disch := omega) only [packWord, BitVec.getLsbD_setWidth, append_low, append_high, Nat.reduceSub, getLsbD_bit1]
  rfl

theorem packWord_cef (f : Fields) : (packWord f).getLsbD 53 = f.cef := by
  simp (disch := omega) only [packWord, BitVec.getLsbD_setWidth, append_low, append_high, Nat.reduceSub, getLsbD_bit1]
  rfl

theorem packWord_len (f : Fields) : (packWord f).extractLsb' 0 2 = f.len.code := by
  apply BitVec.eq_of_getLsbD_eq; intro i hi
  simp (disch := omega) only [packWord, BitVec.getLsbD_extractLsb', BitVec.getLsbD_setWidth, append_low]
  rw [decide_eq_true hi, decide_eq_true (show _ < 128 by omega), Bool.true_and, Bool.true_and]
  exact congrArg _ (by omega)

theorem packWord_ext_low (f : Fields) : (packWord f).extractLsb' 64 32 = f.ext.extractLsb' 0 32 := by
  apply BitVec.eq_of_getLsbD_eq; intro i hi
  simp (disch := omega) only [packWord, BitVec.getLsbD_extractLsb', BitVec.getLsbD_setWidth, append_low, append_high]
  rw [decide_eq_true hi, decide_eq_true (show _ < 128 by omega), Bool.true_and, Bool.true_and]
  exact congrArg _ (by omega)

theorem splitWord_packWord (f : Fields) (h : lenExt f = true) : splitWord (packWord f) = some f := by
  unfold splitWord
  rw [packWord_len, Len.ofCode]
  simp only [Option.map_some, packWord_opc, packWord_gidx, packWord_dst, packWord_a, packWord_b, packWord_c, packWord_mod, packWord_s,
    packWord_gneg, packWord_aef, packWord_bef, packWord_cef, packWord_ext, packWord_ext_low]
  obtain ⟨len, s, opc, gneg, gidx, dst, a, aef, b, bef, c, cef, mod, ext⟩ := f
  cases len with
  | w64 => simp [lenExt] at h; simp [h]
  | w96 =>
    simp [lenExt] at h
    simp
    apply BitVec.eq_of_getLsbD_eq; intro i hi
    by_cases h32 : i < 32
    · simp [h32, hi]
    · have := congrArg (fun x => x.getLsbD (i - 32)) h
      simp only [BitVec.getLsbD_extractLsb', BitVec.getLsbD_zero] at this
      rw [decide_eq_true (show i - 32 < 32 by omega), Bool.true_and, show 32 + (i - 32) = i by omega] at this
      simp [h32, this]
  | w128 => rfl

theorem Ty.ofCode_code (t : Ty) : Ty.ofCode t.code = some t := by cases t <;> decide

theorem IntMod.ofBits_bits (m : IntMod) : IntMod.ofBits m.bits = some m := by
  obtain ⟨ty, sat, var⟩ := m; revert var; cases ty <;> cases sat <;> decide

theorem FpMod.ofBits_bits (m : FpMod) : FpMod.ofBits m.bits = some m := by
  obtain ⟨ty, r, s, f⟩ := m; cases ty <;> cases r <;> cases s <;> cases f <;> decide

theorem CmpMod.ofBits_bits (m : CmpMod) : CmpMod.ofBits m.bits = some m := by
  obtain ⟨ty, s, f⟩ := m; cases ty <;> cases s <;> cases f <;> decide

theorem MemMod.ofBits_bits (m : MemMod) : MemMod.ofBits m.bits = some m := by
  obtain ⟨ty, s⟩ := m; cases ty <;> cases s <;> decide

theorem DrainMod.ofBits_bits (m : DrainMod) : DrainMod.ofBits m.bits = some m := by
  obtain ⟨ty, s, a, b⟩ := m; cases ty <;> cases s <;> cases a <;> cases b <;> decide

theorem EngMod.ofBits_bits (m : EngMod) : EngMod.ofBits m.bits = some m := by
  obtain ⟨s, a⟩ := m; cases s <;> cases a <;> decide

theorem SlotMod.ofBits_bits (m : SlotMod) (k : BitVec 2) : SlotMod.ofBits (m.bits k) = some m := by
  obtain ⟨s, a⟩ := m; revert s a k; decide

theorem AtomMod.ofBits_bits (m : AtomMod) (h : m.asp ≠ .sp) : AtomMod.ofBits m.bits = some m := by
  obtain ⟨a, b, c, d⟩ := m; cases a <;> cases b <;> cases c <;> cases d <;> first | decide | exact absurd rfl h

theorem varOfBits_varBits (n : Nat) (v : Fin 16) (h : v.val < n) : varOfBits n (varBits v) = some v := by
  revert v h; intro v
  have : (varBits v).extractLsb' 4 6 = 0 ∧ ((varBits v).extractLsb' 0 4).toFin = v ∧ ((varBits v).extractLsb' 0 4).toNat = v.val := by revert v; decide
  intro h
  unfold varOfBits; rw [if_pos ⟨this.1, by omega⟩, this.2.1]

theorem CvtMod.ofBits_bits {δ σ : Type} {dc : BitVec 3 → Option δ} {sc : BitVec 3 → Option σ} {d : δ → BitVec 3} {s : σ → BitVec 3}
    (hd : ∀ x, dc (d x) = some x) (hs : ∀ x, sc (s x) = some x) (m : CvtMod δ σ) : CvtMod.ofBits dc sc (m.bits d s) = some m := by
  obtain ⟨df, sf, r, sat, ftz⟩ := m
  have e1 : (CvtMod.bits d s ⟨df, sf, r, sat, ftz⟩).extractLsb' 7 3 = d df := by
    apply BitVec.eq_of_getLsbD_eq; intro i hi
    simp (disch := omega) only [CvtMod.bits, BitVec.getLsbD_extractLsb', append_low, append_high]
    rw [decide_eq_true hi, Bool.true_and]; exact congrArg _ (by omega)
  have e2 : (CvtMod.bits d s ⟨df, sf, r, sat, ftz⟩).extractLsb' 4 3 = s sf := by
    apply BitVec.eq_of_getLsbD_eq; intro i hi
    simp (disch := omega) only [CvtMod.bits, BitVec.getLsbD_extractLsb', append_low, append_high]
    rw [decide_eq_true hi, Bool.true_and]; exact congrArg _ (by omega)
  have e3 : (CvtMod.bits d s ⟨df, sf, r, sat, ftz⟩).extractLsb' 2 2 = r.code := by
    apply BitVec.eq_of_getLsbD_eq; intro i hi
    simp (disch := omega) only [CvtMod.bits, BitVec.getLsbD_extractLsb', append_low, append_high]
    rw [decide_eq_true hi, Bool.true_and]; exact congrArg _ (by omega)
  have e4 : (CvtMod.bits d s ⟨df, sf, r, sat, ftz⟩).getLsbD 1 = sat := by
    simp (disch := omega) only [CvtMod.bits, append_low, append_high, Nat.reduceSub, getLsbD_bit1]
  have e5 : (CvtMod.bits d s ⟨df, sf, r, sat, ftz⟩).getLsbD 0 = ftz := by
    simp (disch := omega) only [CvtMod.bits, append_low, append_high, Nat.reduceSub, getLsbD_bit1]
  unfold CvtMod.ofBits
  rw [e1, e2, e3, e4, e5, hd, hs]
  cases r <;> rfl

theorem FFmt.ofCode_code (t : FFmt) : FFmt.ofCode t.code = some t := by cases t <;> decide

theorem IFmt.ofCode_code (t : IFmt) : IFmt.ofCode t.code = some t := by cases t <;> decide

theorem Scope.ofCode_code (t : Scope) : Scope.ofCode t.code = some t := by cases t <;> decide

theorem operandsOf_fields (w : W) (o : BitVec 8) (m : BitVec 10) : operandsOf (w.fields o m) = some w := by
  unfold operandsOf W.fields
  simp only [Src.ofCode_code]
  obtain ⟨len, uni, gneg, gidx, dst, ⟨a, ae⟩, ⟨b, be⟩, ⟨c, ce⟩, ext⟩ := w
  have : (BitVec.ofNat 3 gidx.val).toFin = gidx := by revert gidx; decide
  simp only [this]

theorem build_fields {w : W} {o : BitVec 8} {m : BitVec 10} {mk : Maker} (ho : o ≠ 0x07) (h : makers.lookup o.toNat = some mk) :
    build (w.fields o m) = mk (w.fields o m) w := by
  unfold build
  rw [if_neg (show ¬ (w.fields o m).opc = 7 from ho), operandsOf_fields]
  rw [show (w.fields o m).opc = o from rfl, h]

/-- What a well-formed instruction's fields pass (R50). -/
theorem wf_checks {i : Instr} {f : Fields} (h : wf i = true) (hf : fieldsOf i = some f) :
    checkFields f = none ∧ ownFields i = true ∧ lenExt f = true := by
  unfold wf at h
  rw [hf] at h
  simp only [Bool.and_eq_true, Option.isNone_iff_eq_none] at h
  exact ⟨h.1.1, h.1.2, h.2⟩

theorem checkFields_modOk {f : Fields} (h : checkFields f = none) (h7 : f.opc ≠ 0x07) : modOk f.opc.toNat f.s f.mod = true := by
  have h7' : (f.opc.toNat == 7) = false := by
    rw [beq_eq_false_iff_ne]; intro e; exact h7 (BitVec.eq_of_toNat_eq e)
  cases hm : modOk f.opc.toNat f.s f.mod with
  | true => rfl
  | false =>
    exfalso
    unfold checkFields at h
    dsimp only at h
    rw [hm, h7'] at h
    split at h
    · cases h
    · revert h; simp only [Bool.false_and, Bool.or_false, Bool.not_false, if_true, Bool.false_eq_true, if_false]
      split_ifs <;> exact fun h => nomatch h

theorem wf_modOk {i : Instr} {w : W} {o : BitVec 8} {m : BitVec 10} (h : wf i = true) (hf : fieldsOf i = some (w.fields o m)) (h7 : o ≠ 0x07) :
    modOk o.toNat w.uni m = true := checkFields_modOk (wf_checks h hf).1 h7

theorem asp_sp {m : AtomMod} (h : (AtomMod.ofBits m.bits).isSome = true) : m.asp ≠ .sp := by
  obtain ⟨a, b, c, d⟩ := m
  rintro rfl
  revert h; cases a <;> cases b <;> cases d <;> decide

theorem asp_ok {o : Nat} {u : Bool} {m : AtomMod} (h : modOk o u m.bits = true) (ho : 0xC3 ≤ o ∧ o ≤ 0xD2) : m.asp ≠ .sp := by
  refine asp_sp ?_
  unfold modOk at h
  iterate 30 try first
    | rw [if_neg (by omega)] at h
    | rw [if_pos (by omega)] at h
  cases e : AtomMod.ofBits m.bits with
  | some x => rfl
  | none => rw [e] at h; cases h

theorem var_of {n : Nat} {v : Fin 16} (h : (varOfBits n (varBits v)).isSome = true) : v.val < n := by
  have e := (show ∀ v : Fin 16, ((varBits v).extractLsb' 0 4).toNat = v.val by decide) v
  unfold varOfBits at h
  split at h
  · rename_i hc; omega
  · cases h

theorem high1 : ∀ b : Bool, (bit1 b ++ 0#9).getLsbD 9 = b := by decide

theorem slot_sel (m : SlotMod) (k : BitVec 2) : (m.bits k).extractLsb' 4 2 = k := by
  obtain ⟨a, b⟩ := m; revert a b k; decide

theorem low8 : ∀ k : BitVec 8, (0#2 ++ k).extractLsb' 0 8 = k := by decide

theorem code_zero {s : Src} (h : s.code = 0) : s = .v 0 := by
  have := Src.ofCode_code s
  rw [h] at this
  exact (Option.some.inj this).symm

theorem pad_tag (t : BitVec 12) : ((t.extractLsb' 10 2).zeroExtend 9).extractLsb' 0 2 ++ bit1 (t.getLsbD 9) ++ t.extractLsb' 0 9 = t := by
  apply BitVec.eq_of_getLsbD_eq; intro i hi
  by_cases h9 : i < 9
  · rw [append_low h9]; simp [h9]
  · by_cases h10 : i = 9
    · subst h10; rw [append_high (by omega), append_low (by omega)]; exact getLsbD_bit1 _
    · rw [append_high (by omega), append_high (by omega)]
      simp only [BitVec.getLsbD_extractLsb', BitVec.getLsbD_setWidth]
      rw [decide_eq_true (by omega), decide_eq_true (by omega), decide_eq_true (by omega)]
      simp only [Bool.true_and]; exact congrArg _ (by omega)

end Sys2Proof
end

