-- ==== Sys2Proof/Laws/State.lean ====
section
/-! SUPPORT. What each shared update of the state leaves of every field: one equation per field and update. -/

namespace Sys2Proof.Machine

open Sys2Proof

section
variable (s : State) (g : Group) (b : Block) (c : Ctx) (gr : Grid) (p : Part) (w : Window) (k : Card) (u : StopUnit)
variable (n core event ctx cause fpc pc group detail cluster kind slice cf : Nat) (lanes : Mask) (name : Name)
variable (fg : Group → Group) (fb : Block → Block) (fc : Ctx → Ctx) (r gap : BitVec 512)


@[simp] theorem setGroup_cycle : (s.setGroup g).cycle = s.cycle := rfl
@[simp] theorem setGroup_now : (s.setGroup g).now = s.now := rfl
@[simp] theorem setGroup_fabricTime : (s.setGroup g).fabricTime = s.fabricTime := rfl
@[simp] theorem setGroup_turn : (s.setGroup g).turn = s.turn := rfl
@[simp] theorem setGroup_began : (s.setGroup g).began = s.began := rfl
@[simp] theorem setGroup_splits : (s.setGroup g).splits = s.splits := rfl
@[simp] theorem setGroup_refuse : (s.setGroup g).refuse = s.refuse := rfl
@[simp] theorem setGroup_agenda : (s.setGroup g).agenda = s.agenda := rfl
@[simp] theorem setGroup_fills : (s.setGroup g).fills = s.fills := rfl
@[simp] theorem setGroup_nextId : (s.setGroup g).nextId = s.nextId := rfl
@[simp] theorem setGroup_boot : (s.setGroup g).boot = s.boot := rfl
@[simp] theorem setGroup_dev : (s.setGroup g).dev = s.dev := rfl
@[simp] theorem setGroup_gatedDies : (s.setGroup g).gatedDies = s.gatedDies := rfl
@[simp] theorem setGroup_gatedClusters : (s.setGroup g).gatedClusters = s.gatedClusters := rfl
@[simp] theorem setGroup_gatings : (s.setGroup g).gatings = s.gatings := rfl
@[simp] theorem setGroup_links : (s.setGroup g).links = s.links := rfl
@[simp] theorem setGroup_linkLog : (s.setGroup g).linkLog = s.linkLog := rfl
@[simp] theorem setGroup_broken : (s.setGroup g).broken = s.broken := rfl
@[simp] theorem setGroup_rootPorts : (s.setGroup g).rootPorts = s.rootPorts := rfl
@[simp] theorem setGroup_svnRaised : (s.setGroup g).svnRaised = s.svnRaised := rfl
@[simp] theorem setGroup_measured : (s.setGroup g).measured = s.measured := rfl
@[simp] theorem setGroup_weights : (s.setGroup g).weights = s.weights := rfl
@[simp] theorem setGroup_perfs : (s.setGroup g).perfs = s.perfs := rfl
@[simp] theorem setGroup_snaps : (s.setGroup g).snaps = s.snaps := rfl
@[simp] theorem setGroup_trace : (s.setGroup g).trace = s.trace := rfl
@[simp] theorem setGroup_loss : (s.setGroup g).loss = s.loss := rfl
@[simp] theorem setGroup_ring : (s.setGroup g).ring = s.ring := rfl
@[simp] theorem setGroup_lastCtx : (s.setGroup g).lastCtx = s.lastCtx := rfl
@[simp] theorem setGroup_replies : (s.setGroup g).replies = s.replies := rfl
@[simp] theorem setGroup_mctp : (s.setGroup g).mctp = s.mctp := rfl
@[simp] theorem setGroup_reports : (s.setGroup g).reports = s.reports := rfl
@[simp] theorem setGroup_slice : (s.setGroup g).slice = s.slice := rfl
@[simp] theorem setGroup_parts : (s.setGroup g).parts = s.parts := rfl
@[simp] theorem setGroup_ctxs : (s.setGroup g).ctxs = s.ctxs := rfl
@[simp] theorem setGroup_active : (s.setGroup g).active = s.active := rfl
@[simp] theorem setGroup_switches : (s.setGroup g).switches = s.switches := rfl
@[simp] theorem setGroup_grids : (s.setGroup g).grids = s.grids := rfl
@[simp] theorem setGroup_blocks : (s.setGroup g).blocks = s.blocks := rfl
@[simp] theorem setGroup_results : (s.setGroup g).results = s.results := rfl
@[simp] theorem setGroup_scw : (s.setGroup g).scw = s.scw := rfl
@[simp] theorem setGroup_appends : (s.setGroup g).appends = s.appends := rfl
@[simp] theorem setGroup_windows : (s.setGroup g).windows = s.windows := rfl
@[simp] theorem setGroup_wbacks : (s.setGroup g).wbacks = s.wbacks := rfl
@[simp] theorem setGroup_faults : (s.setGroup g).faults = s.faults := rfl
@[simp] theorem setGroup_replay : (s.setGroup g).replay = s.replay := rfl
@[simp] theorem setGroup_churn : (s.setGroup g).churn = s.churn := rfl
@[simp] theorem setGroup_churnEnd : (s.setGroup g).churnEnd = s.churnEnd := rfl
@[simp] theorem setGroup_frozen : (s.setGroup g).frozen = s.frozen := rfl
@[simp] theorem setGroup_drains : (s.setGroup g).drains = s.drains := rfl
@[simp] theorem setGroup_cards : (s.setGroup g).cards = s.cards := rfl
@[simp] theorem setGroup_contribs : (s.setGroup g).contribs = s.contribs := rfl
@[simp] theorem setGroup_spawnQ : (s.setGroup g).spawnQ = s.spawnQ := rfl
@[simp] theorem setGroup_openG : (s.setGroup g).openG = s.openG := rfl
@[simp] theorem setGroup_sealedG : (s.setGroup g).sealedG = s.sealedG := rfl
@[simp] theorem setGroup_prereqs : (s.setGroup g).prereqs = s.prereqs := rfl
@[simp] theorem setGroup_images : (s.setGroup g).images = s.images := rfl
@[simp] theorem setGroup_dram : (s.setGroup g).dram = s.dram := rfl
@[simp] theorem setGroup_scratch : (s.setGroup g).scratch = s.scratch := rfl

@[simp] theorem setBlock_cycle : (s.setBlock b).cycle = s.cycle := rfl
@[simp] theorem setBlock_now : (s.setBlock b).now = s.now := rfl
@[simp] theorem setBlock_fabricTime : (s.setBlock b).fabricTime = s.fabricTime := rfl
@[simp] theorem setBlock_turn : (s.setBlock b).turn = s.turn := rfl
@[simp] theorem setBlock_began : (s.setBlock b).began = s.began := rfl
@[simp] theorem setBlock_splits : (s.setBlock b).splits = s.splits := rfl
@[simp] theorem setBlock_refuse : (s.setBlock b).refuse = s.refuse := rfl
@[simp] theorem setBlock_agenda : (s.setBlock b).agenda = s.agenda := rfl
@[simp] theorem setBlock_fills : (s.setBlock b).fills = s.fills := rfl
@[simp] theorem setBlock_nextId : (s.setBlock b).nextId = s.nextId := rfl
@[simp] theorem setBlock_boot : (s.setBlock b).boot = s.boot := rfl
@[simp] theorem setBlock_dev : (s.setBlock b).dev = s.dev := rfl
@[simp] theorem setBlock_gatedDies : (s.setBlock b).gatedDies = s.gatedDies := rfl
@[simp] theorem setBlock_gatedClusters : (s.setBlock b).gatedClusters = s.gatedClusters := rfl
@[simp] theorem setBlock_gatings : (s.setBlock b).gatings = s.gatings := rfl
@[simp] theorem setBlock_links : (s.setBlock b).links = s.links := rfl
@[simp] theorem setBlock_linkLog : (s.setBlock b).linkLog = s.linkLog := rfl
@[simp] theorem setBlock_broken : (s.setBlock b).broken = s.broken := rfl
@[simp] theorem setBlock_rootPorts : (s.setBlock b).rootPorts = s.rootPorts := rfl
@[simp] theorem setBlock_svnRaised : (s.setBlock b).svnRaised = s.svnRaised := rfl
@[simp] theorem setBlock_measured : (s.setBlock b).measured = s.measured := rfl
@[simp] theorem setBlock_weights : (s.setBlock b).weights = s.weights := rfl
@[simp] theorem setBlock_perfs : (s.setBlock b).perfs = s.perfs := rfl
@[simp] theorem setBlock_snaps : (s.setBlock b).snaps = s.snaps := rfl
@[simp] theorem setBlock_trace : (s.setBlock b).trace = s.trace := rfl
@[simp] theorem setBlock_loss : (s.setBlock b).loss = s.loss := rfl
@[simp] theorem setBlock_ring : (s.setBlock b).ring = s.ring := rfl
@[simp] theorem setBlock_lastCtx : (s.setBlock b).lastCtx = s.lastCtx := rfl
@[simp] theorem setBlock_replies : (s.setBlock b).replies = s.replies := rfl
@[simp] theorem setBlock_mctp : (s.setBlock b).mctp = s.mctp := rfl
@[simp] theorem setBlock_reports : (s.setBlock b).reports = s.reports := rfl
@[simp] theorem setBlock_slice : (s.setBlock b).slice = s.slice := rfl
@[simp] theorem setBlock_parts : (s.setBlock b).parts = s.parts := rfl
@[simp] theorem setBlock_ctxs : (s.setBlock b).ctxs = s.ctxs := rfl
@[simp] theorem setBlock_active : (s.setBlock b).active = s.active := rfl
@[simp] theorem setBlock_switches : (s.setBlock b).switches = s.switches := rfl
@[simp] theorem setBlock_grids : (s.setBlock b).grids = s.grids := rfl
@[simp] theorem setBlock_groups : (s.setBlock b).groups = s.groups := rfl
@[simp] theorem setBlock_results : (s.setBlock b).results = s.results := rfl
@[simp] theorem setBlock_scw : (s.setBlock b).scw = s.scw := rfl
@[simp] theorem setBlock_appends : (s.setBlock b).appends = s.appends := rfl
@[simp] theorem setBlock_windows : (s.setBlock b).windows = s.windows := rfl
@[simp] theorem setBlock_wbacks : (s.setBlock b).wbacks = s.wbacks := rfl
@[simp] theorem setBlock_faults : (s.setBlock b).faults = s.faults := rfl
@[simp] theorem setBlock_replay : (s.setBlock b).replay = s.replay := rfl
@[simp] theorem setBlock_churn : (s.setBlock b).churn = s.churn := rfl
@[simp] theorem setBlock_churnEnd : (s.setBlock b).churnEnd = s.churnEnd := rfl
@[simp] theorem setBlock_frozen : (s.setBlock b).frozen = s.frozen := rfl
@[simp] theorem setBlock_drains : (s.setBlock b).drains = s.drains := rfl
@[simp] theorem setBlock_cards : (s.setBlock b).cards = s.cards := rfl
@[simp] theorem setBlock_contribs : (s.setBlock b).contribs = s.contribs := rfl
@[simp] theorem setBlock_spawnQ : (s.setBlock b).spawnQ = s.spawnQ := rfl
@[simp] theorem setBlock_openG : (s.setBlock b).openG = s.openG := rfl
@[simp] theorem setBlock_sealedG : (s.setBlock b).sealedG = s.sealedG := rfl
@[simp] theorem setBlock_prereqs : (s.setBlock b).prereqs = s.prereqs := rfl
@[simp] theorem setBlock_images : (s.setBlock b).images = s.images := rfl
@[simp] theorem setBlock_dram : (s.setBlock b).dram = s.dram := rfl
@[simp] theorem setBlock_scratch : (s.setBlock b).scratch = s.scratch := rfl

@[simp] theorem setCtx_cycle : (s.setCtx c).cycle = s.cycle := rfl
@[simp] theorem setCtx_now : (s.setCtx c).now = s.now := rfl
@[simp] theorem setCtx_fabricTime : (s.setCtx c).fabricTime = s.fabricTime := rfl
@[simp] theorem setCtx_turn : (s.setCtx c).turn = s.turn := rfl
@[simp] theorem setCtx_began : (s.setCtx c).began = s.began := rfl
@[simp] theorem setCtx_splits : (s.setCtx c).splits = s.splits := rfl
@[simp] theorem setCtx_refuse : (s.setCtx c).refuse = s.refuse := rfl
@[simp] theorem setCtx_agenda : (s.setCtx c).agenda = s.agenda := rfl
@[simp] theorem setCtx_fills : (s.setCtx c).fills = s.fills := rfl
@[simp] theorem setCtx_nextId : (s.setCtx c).nextId = s.nextId := rfl
@[simp] theorem setCtx_boot : (s.setCtx c).boot = s.boot := rfl
@[simp] theorem setCtx_dev : (s.setCtx c).dev = s.dev := rfl
@[simp] theorem setCtx_gatedDies : (s.setCtx c).gatedDies = s.gatedDies := rfl
@[simp] theorem setCtx_gatedClusters : (s.setCtx c).gatedClusters = s.gatedClusters := rfl
@[simp] theorem setCtx_gatings : (s.setCtx c).gatings = s.gatings := rfl
@[simp] theorem setCtx_links : (s.setCtx c).links = s.links := rfl
@[simp] theorem setCtx_linkLog : (s.setCtx c).linkLog = s.linkLog := rfl
@[simp] theorem setCtx_broken : (s.setCtx c).broken = s.broken := rfl
@[simp] theorem setCtx_rootPorts : (s.setCtx c).rootPorts = s.rootPorts := rfl
@[simp] theorem setCtx_svnRaised : (s.setCtx c).svnRaised = s.svnRaised := rfl
@[simp] theorem setCtx_measured : (s.setCtx c).measured = s.measured := rfl
@[simp] theorem setCtx_weights : (s.setCtx c).weights = s.weights := rfl
@[simp] theorem setCtx_perfs : (s.setCtx c).perfs = s.perfs := rfl
@[simp] theorem setCtx_snaps : (s.setCtx c).snaps = s.snaps := rfl
@[simp] theorem setCtx_trace : (s.setCtx c).trace = s.trace := rfl
@[simp] theorem setCtx_loss : (s.setCtx c).loss = s.loss := rfl
@[simp] theorem setCtx_ring : (s.setCtx c).ring = s.ring := rfl
@[simp] theorem setCtx_lastCtx : (s.setCtx c).lastCtx = s.lastCtx := rfl
@[simp] theorem setCtx_replies : (s.setCtx c).replies = s.replies := rfl
@[simp] theorem setCtx_mctp : (s.setCtx c).mctp = s.mctp := rfl
@[simp] theorem setCtx_reports : (s.setCtx c).reports = s.reports := rfl
@[simp] theorem setCtx_slice : (s.setCtx c).slice = s.slice := rfl
@[simp] theorem setCtx_parts : (s.setCtx c).parts = s.parts := rfl
@[simp] theorem setCtx_active : (s.setCtx c).active = s.active := rfl
@[simp] theorem setCtx_switches : (s.setCtx c).switches = s.switches := rfl
@[simp] theorem setCtx_grids : (s.setCtx c).grids = s.grids := rfl
@[simp] theorem setCtx_blocks : (s.setCtx c).blocks = s.blocks := rfl
@[simp] theorem setCtx_groups : (s.setCtx c).groups = s.groups := rfl
@[simp] theorem setCtx_results : (s.setCtx c).results = s.results := rfl
@[simp] theorem setCtx_scw : (s.setCtx c).scw = s.scw := rfl
@[simp] theorem setCtx_appends : (s.setCtx c).appends = s.appends := rfl
@[simp] theorem setCtx_windows : (s.setCtx c).windows = s.windows := rfl
@[simp] theorem setCtx_wbacks : (s.setCtx c).wbacks = s.wbacks := rfl
@[simp] theorem setCtx_faults : (s.setCtx c).faults = s.faults := rfl
@[simp] theorem setCtx_replay : (s.setCtx c).replay = s.replay := rfl
@[simp] theorem setCtx_churn : (s.setCtx c).churn = s.churn := rfl
@[simp] theorem setCtx_churnEnd : (s.setCtx c).churnEnd = s.churnEnd := rfl
@[simp] theorem setCtx_frozen : (s.setCtx c).frozen = s.frozen := rfl
@[simp] theorem setCtx_drains : (s.setCtx c).drains = s.drains := rfl
@[simp] theorem setCtx_cards : (s.setCtx c).cards = s.cards := rfl
@[simp] theorem setCtx_contribs : (s.setCtx c).contribs = s.contribs := rfl
@[simp] theorem setCtx_spawnQ : (s.setCtx c).spawnQ = s.spawnQ := rfl
@[simp] theorem setCtx_openG : (s.setCtx c).openG = s.openG := rfl
@[simp] theorem setCtx_sealedG : (s.setCtx c).sealedG = s.sealedG := rfl
@[simp] theorem setCtx_prereqs : (s.setCtx c).prereqs = s.prereqs := rfl
@[simp] theorem setCtx_images : (s.setCtx c).images = s.images := rfl
@[simp] theorem setCtx_dram : (s.setCtx c).dram = s.dram := rfl
@[simp] theorem setCtx_scratch : (s.setCtx c).scratch = s.scratch := rfl

@[simp] theorem setGrid_cycle : (s.setGrid gr).cycle = s.cycle := rfl
@[simp] theorem setGrid_now : (s.setGrid gr).now = s.now := rfl
@[simp] theorem setGrid_fabricTime : (s.setGrid gr).fabricTime = s.fabricTime := rfl
@[simp] theorem setGrid_turn : (s.setGrid gr).turn = s.turn := rfl
@[simp] theorem setGrid_began : (s.setGrid gr).began = s.began := rfl
@[simp] theorem setGrid_splits : (s.setGrid gr).splits = s.splits := rfl
@[simp] theorem setGrid_refuse : (s.setGrid gr).refuse = s.refuse := rfl
@[simp] theorem setGrid_agenda : (s.setGrid gr).agenda = s.agenda := rfl
@[simp] theorem setGrid_fills : (s.setGrid gr).fills = s.fills := rfl
@[simp] theorem setGrid_nextId : (s.setGrid gr).nextId = s.nextId := rfl
@[simp] theorem setGrid_boot : (s.setGrid gr).boot = s.boot := rfl
@[simp] theorem setGrid_dev : (s.setGrid gr).dev = s.dev := rfl
@[simp] theorem setGrid_gatedDies : (s.setGrid gr).gatedDies = s.gatedDies := rfl
@[simp] theorem setGrid_gatedClusters : (s.setGrid gr).gatedClusters = s.gatedClusters := rfl
@[simp] theorem setGrid_gatings : (s.setGrid gr).gatings = s.gatings := rfl
@[simp] theorem setGrid_links : (s.setGrid gr).links = s.links := rfl
@[simp] theorem setGrid_linkLog : (s.setGrid gr).linkLog = s.linkLog := rfl
@[simp] theorem setGrid_broken : (s.setGrid gr).broken = s.broken := rfl
@[simp] theorem setGrid_rootPorts : (s.setGrid gr).rootPorts = s.rootPorts := rfl
@[simp] theorem setGrid_svnRaised : (s.setGrid gr).svnRaised = s.svnRaised := rfl
@[simp] theorem setGrid_measured : (s.setGrid gr).measured = s.measured := rfl
@[simp] theorem setGrid_weights : (s.setGrid gr).weights = s.weights := rfl
@[simp] theorem setGrid_perfs : (s.setGrid gr).perfs = s.perfs := rfl
@[simp] theorem setGrid_snaps : (s.setGrid gr).snaps = s.snaps := rfl
@[simp] theorem setGrid_trace : (s.setGrid gr).trace = s.trace := rfl
@[simp] theorem setGrid_loss : (s.setGrid gr).loss = s.loss := rfl
@[simp] theorem setGrid_ring : (s.setGrid gr).ring = s.ring := rfl
@[simp] theorem setGrid_lastCtx : (s.setGrid gr).lastCtx = s.lastCtx := rfl
@[simp] theorem setGrid_replies : (s.setGrid gr).replies = s.replies := rfl
@[simp] theorem setGrid_mctp : (s.setGrid gr).mctp = s.mctp := rfl
@[simp] theorem setGrid_reports : (s.setGrid gr).reports = s.reports := rfl
@[simp] theorem setGrid_slice : (s.setGrid gr).slice = s.slice := rfl
@[simp] theorem setGrid_parts : (s.setGrid gr).parts = s.parts := rfl
@[simp] theorem setGrid_ctxs : (s.setGrid gr).ctxs = s.ctxs := rfl
@[simp] theorem setGrid_active : (s.setGrid gr).active = s.active := rfl
@[simp] theorem setGrid_switches : (s.setGrid gr).switches = s.switches := rfl
@[simp] theorem setGrid_blocks : (s.setGrid gr).blocks = s.blocks := rfl
@[simp] theorem setGrid_groups : (s.setGrid gr).groups = s.groups := rfl
@[simp] theorem setGrid_results : (s.setGrid gr).results = s.results := rfl
@[simp] theorem setGrid_scw : (s.setGrid gr).scw = s.scw := rfl
@[simp] theorem setGrid_appends : (s.setGrid gr).appends = s.appends := rfl
@[simp] theorem setGrid_windows : (s.setGrid gr).windows = s.windows := rfl
@[simp] theorem setGrid_wbacks : (s.setGrid gr).wbacks = s.wbacks := rfl
@[simp] theorem setGrid_faults : (s.setGrid gr).faults = s.faults := rfl
@[simp] theorem setGrid_replay : (s.setGrid gr).replay = s.replay := rfl
@[simp] theorem setGrid_churn : (s.setGrid gr).churn = s.churn := rfl
@[simp] theorem setGrid_churnEnd : (s.setGrid gr).churnEnd = s.churnEnd := rfl
@[simp] theorem setGrid_frozen : (s.setGrid gr).frozen = s.frozen := rfl
@[simp] theorem setGrid_drains : (s.setGrid gr).drains = s.drains := rfl
@[simp] theorem setGrid_cards : (s.setGrid gr).cards = s.cards := rfl
@[simp] theorem setGrid_contribs : (s.setGrid gr).contribs = s.contribs := rfl
@[simp] theorem setGrid_spawnQ : (s.setGrid gr).spawnQ = s.spawnQ := rfl
@[simp] theorem setGrid_openG : (s.setGrid gr).openG = s.openG := rfl
@[simp] theorem setGrid_sealedG : (s.setGrid gr).sealedG = s.sealedG := rfl
@[simp] theorem setGrid_prereqs : (s.setGrid gr).prereqs = s.prereqs := rfl
@[simp] theorem setGrid_images : (s.setGrid gr).images = s.images := rfl
@[simp] theorem setGrid_dram : (s.setGrid gr).dram = s.dram := rfl
@[simp] theorem setGrid_scratch : (s.setGrid gr).scratch = s.scratch := rfl

@[simp] theorem setPart_cycle : (s.setPart p).cycle = s.cycle := rfl
@[simp] theorem setPart_now : (s.setPart p).now = s.now := rfl
@[simp] theorem setPart_fabricTime : (s.setPart p).fabricTime = s.fabricTime := rfl
@[simp] theorem setPart_turn : (s.setPart p).turn = s.turn := rfl
@[simp] theorem setPart_began : (s.setPart p).began = s.began := rfl
@[simp] theorem setPart_splits : (s.setPart p).splits = s.splits := rfl
@[simp] theorem setPart_refuse : (s.setPart p).refuse = s.refuse := rfl
@[simp] theorem setPart_agenda : (s.setPart p).agenda = s.agenda := rfl
@[simp] theorem setPart_fills : (s.setPart p).fills = s.fills := rfl
@[simp] theorem setPart_nextId : (s.setPart p).nextId = s.nextId := rfl
@[simp] theorem setPart_boot : (s.setPart p).boot = s.boot := rfl
@[simp] theorem setPart_dev : (s.setPart p).dev = s.dev := rfl
@[simp] theorem setPart_gatedDies : (s.setPart p).gatedDies = s.gatedDies := rfl
@[simp] theorem setPart_gatedClusters : (s.setPart p).gatedClusters = s.gatedClusters := rfl
@[simp] theorem setPart_gatings : (s.setPart p).gatings = s.gatings := rfl
@[simp] theorem setPart_links : (s.setPart p).links = s.links := rfl
@[simp] theorem setPart_linkLog : (s.setPart p).linkLog = s.linkLog := rfl
@[simp] theorem setPart_broken : (s.setPart p).broken = s.broken := rfl
@[simp] theorem setPart_rootPorts : (s.setPart p).rootPorts = s.rootPorts := rfl
@[simp] theorem setPart_svnRaised : (s.setPart p).svnRaised = s.svnRaised := rfl
@[simp] theorem setPart_measured : (s.setPart p).measured = s.measured := rfl
@[simp] theorem setPart_weights : (s.setPart p).weights = s.weights := rfl
@[simp] theorem setPart_perfs : (s.setPart p).perfs = s.perfs := rfl
@[simp] theorem setPart_snaps : (s.setPart p).snaps = s.snaps := rfl
@[simp] theorem setPart_trace : (s.setPart p).trace = s.trace := rfl
@[simp] theorem setPart_loss : (s.setPart p).loss = s.loss := rfl
@[simp] theorem setPart_ring : (s.setPart p).ring = s.ring := rfl
@[simp] theorem setPart_lastCtx : (s.setPart p).lastCtx = s.lastCtx := rfl
@[simp] theorem setPart_replies : (s.setPart p).replies = s.replies := rfl
@[simp] theorem setPart_mctp : (s.setPart p).mctp = s.mctp := rfl
@[simp] theorem setPart_reports : (s.setPart p).reports = s.reports := rfl
@[simp] theorem setPart_slice : (s.setPart p).slice = s.slice := rfl
@[simp] theorem setPart_ctxs : (s.setPart p).ctxs = s.ctxs := rfl
@[simp] theorem setPart_active : (s.setPart p).active = s.active := rfl
@[simp] theorem setPart_switches : (s.setPart p).switches = s.switches := rfl
@[simp] theorem setPart_grids : (s.setPart p).grids = s.grids := rfl
@[simp] theorem setPart_blocks : (s.setPart p).blocks = s.blocks := rfl
@[simp] theorem setPart_groups : (s.setPart p).groups = s.groups := rfl
@[simp] theorem setPart_results : (s.setPart p).results = s.results := rfl
@[simp] theorem setPart_scw : (s.setPart p).scw = s.scw := rfl
@[simp] theorem setPart_appends : (s.setPart p).appends = s.appends := rfl
@[simp] theorem setPart_windows : (s.setPart p).windows = s.windows := rfl
@[simp] theorem setPart_wbacks : (s.setPart p).wbacks = s.wbacks := rfl
@[simp] theorem setPart_faults : (s.setPart p).faults = s.faults := rfl
@[simp] theorem setPart_replay : (s.setPart p).replay = s.replay := rfl
@[simp] theorem setPart_churn : (s.setPart p).churn = s.churn := rfl
@[simp] theorem setPart_churnEnd : (s.setPart p).churnEnd = s.churnEnd := rfl
@[simp] theorem setPart_frozen : (s.setPart p).frozen = s.frozen := rfl
@[simp] theorem setPart_drains : (s.setPart p).drains = s.drains := rfl
@[simp] theorem setPart_cards : (s.setPart p).cards = s.cards := rfl
@[simp] theorem setPart_contribs : (s.setPart p).contribs = s.contribs := rfl
@[simp] theorem setPart_spawnQ : (s.setPart p).spawnQ = s.spawnQ := rfl
@[simp] theorem setPart_openG : (s.setPart p).openG = s.openG := rfl
@[simp] theorem setPart_sealedG : (s.setPart p).sealedG = s.sealedG := rfl
@[simp] theorem setPart_prereqs : (s.setPart p).prereqs = s.prereqs := rfl
@[simp] theorem setPart_images : (s.setPart p).images = s.images := rfl
@[simp] theorem setPart_dram : (s.setPart p).dram = s.dram := rfl
@[simp] theorem setPart_scratch : (s.setPart p).scratch = s.scratch := rfl

@[simp] theorem setWindow_cycle : (s.setWindow w).cycle = s.cycle := rfl
@[simp] theorem setWindow_now : (s.setWindow w).now = s.now := rfl
@[simp] theorem setWindow_fabricTime : (s.setWindow w).fabricTime = s.fabricTime := rfl
@[simp] theorem setWindow_turn : (s.setWindow w).turn = s.turn := rfl
@[simp] theorem setWindow_began : (s.setWindow w).began = s.began := rfl
@[simp] theorem setWindow_splits : (s.setWindow w).splits = s.splits := rfl
@[simp] theorem setWindow_refuse : (s.setWindow w).refuse = s.refuse := rfl
@[simp] theorem setWindow_agenda : (s.setWindow w).agenda = s.agenda := rfl
@[simp] theorem setWindow_fills : (s.setWindow w).fills = s.fills := rfl
@[simp] theorem setWindow_nextId : (s.setWindow w).nextId = s.nextId := rfl
@[simp] theorem setWindow_boot : (s.setWindow w).boot = s.boot := rfl
@[simp] theorem setWindow_dev : (s.setWindow w).dev = s.dev := rfl
@[simp] theorem setWindow_gatedDies : (s.setWindow w).gatedDies = s.gatedDies := rfl
@[simp] theorem setWindow_gatedClusters : (s.setWindow w).gatedClusters = s.gatedClusters := rfl
@[simp] theorem setWindow_gatings : (s.setWindow w).gatings = s.gatings := rfl
@[simp] theorem setWindow_links : (s.setWindow w).links = s.links := rfl
@[simp] theorem setWindow_linkLog : (s.setWindow w).linkLog = s.linkLog := rfl
@[simp] theorem setWindow_broken : (s.setWindow w).broken = s.broken := rfl
@[simp] theorem setWindow_rootPorts : (s.setWindow w).rootPorts = s.rootPorts := rfl
@[simp] theorem setWindow_svnRaised : (s.setWindow w).svnRaised = s.svnRaised := rfl
@[simp] theorem setWindow_measured : (s.setWindow w).measured = s.measured := rfl
@[simp] theorem setWindow_weights : (s.setWindow w).weights = s.weights := rfl
@[simp] theorem setWindow_perfs : (s.setWindow w).perfs = s.perfs := rfl
@[simp] theorem setWindow_snaps : (s.setWindow w).snaps = s.snaps := rfl
@[simp] theorem setWindow_trace : (s.setWindow w).trace = s.trace := rfl
@[simp] theorem setWindow_loss : (s.setWindow w).loss = s.loss := rfl
@[simp] theorem setWindow_ring : (s.setWindow w).ring = s.ring := rfl
@[simp] theorem setWindow_lastCtx : (s.setWindow w).lastCtx = s.lastCtx := rfl
@[simp] theorem setWindow_replies : (s.setWindow w).replies = s.replies := rfl
@[simp] theorem setWindow_mctp : (s.setWindow w).mctp = s.mctp := rfl
@[simp] theorem setWindow_reports : (s.setWindow w).reports = s.reports := rfl
@[simp] theorem setWindow_slice : (s.setWindow w).slice = s.slice := rfl
@[simp] theorem setWindow_parts : (s.setWindow w).parts = s.parts := rfl
@[simp] theorem setWindow_ctxs : (s.setWindow w).ctxs = s.ctxs := rfl
@[simp] theorem setWindow_active : (s.setWindow w).active = s.active := rfl
@[simp] theorem setWindow_switches : (s.setWindow w).switches = s.switches := rfl
@[simp] theorem setWindow_grids : (s.setWindow w).grids = s.grids := rfl
@[simp] theorem setWindow_blocks : (s.setWindow w).blocks = s.blocks := rfl
@[simp] theorem setWindow_groups : (s.setWindow w).groups = s.groups := rfl
@[simp] theorem setWindow_results : (s.setWindow w).results = s.results := rfl
@[simp] theorem setWindow_scw : (s.setWindow w).scw = s.scw := rfl
@[simp] theorem setWindow_appends : (s.setWindow w).appends = s.appends := rfl
@[simp] theorem setWindow_wbacks : (s.setWindow w).wbacks = s.wbacks := rfl
@[simp] theorem setWindow_faults : (s.setWindow w).faults = s.faults := rfl
@[simp] theorem setWindow_replay : (s.setWindow w).replay = s.replay := rfl
@[simp] theorem setWindow_churn : (s.setWindow w).churn = s.churn := rfl
@[simp] theorem setWindow_churnEnd : (s.setWindow w).churnEnd = s.churnEnd := rfl
@[simp] theorem setWindow_frozen : (s.setWindow w).frozen = s.frozen := rfl
@[simp] theorem setWindow_drains : (s.setWindow w).drains = s.drains := rfl
@[simp] theorem setWindow_cards : (s.setWindow w).cards = s.cards := rfl
@[simp] theorem setWindow_contribs : (s.setWindow w).contribs = s.contribs := rfl
@[simp] theorem setWindow_spawnQ : (s.setWindow w).spawnQ = s.spawnQ := rfl
@[simp] theorem setWindow_openG : (s.setWindow w).openG = s.openG := rfl
@[simp] theorem setWindow_sealedG : (s.setWindow w).sealedG = s.sealedG := rfl
@[simp] theorem setWindow_prereqs : (s.setWindow w).prereqs = s.prereqs := rfl
@[simp] theorem setWindow_images : (s.setWindow w).images = s.images := rfl
@[simp] theorem setWindow_dram : (s.setWindow w).dram = s.dram := rfl
@[simp] theorem setWindow_scratch : (s.setWindow w).scratch = s.scratch := rfl

@[simp] theorem setCard_cycle : (s.setCard k).cycle = s.cycle := rfl
@[simp] theorem setCard_now : (s.setCard k).now = s.now := rfl
@[simp] theorem setCard_fabricTime : (s.setCard k).fabricTime = s.fabricTime := rfl
@[simp] theorem setCard_turn : (s.setCard k).turn = s.turn := rfl
@[simp] theorem setCard_began : (s.setCard k).began = s.began := rfl
@[simp] theorem setCard_splits : (s.setCard k).splits = s.splits := rfl
@[simp] theorem setCard_refuse : (s.setCard k).refuse = s.refuse := rfl
@[simp] theorem setCard_agenda : (s.setCard k).agenda = s.agenda := rfl
@[simp] theorem setCard_fills : (s.setCard k).fills = s.fills := rfl
@[simp] theorem setCard_nextId : (s.setCard k).nextId = s.nextId := rfl
@[simp] theorem setCard_boot : (s.setCard k).boot = s.boot := rfl
@[simp] theorem setCard_dev : (s.setCard k).dev = s.dev := rfl
@[simp] theorem setCard_gatedDies : (s.setCard k).gatedDies = s.gatedDies := rfl
@[simp] theorem setCard_gatedClusters : (s.setCard k).gatedClusters = s.gatedClusters := rfl
@[simp] theorem setCard_gatings : (s.setCard k).gatings = s.gatings := rfl
@[simp] theorem setCard_links : (s.setCard k).links = s.links := rfl
@[simp] theorem setCard_linkLog : (s.setCard k).linkLog = s.linkLog := rfl
@[simp] theorem setCard_broken : (s.setCard k).broken = s.broken := rfl
@[simp] theorem setCard_rootPorts : (s.setCard k).rootPorts = s.rootPorts := rfl
@[simp] theorem setCard_svnRaised : (s.setCard k).svnRaised = s.svnRaised := rfl
@[simp] theorem setCard_measured : (s.setCard k).measured = s.measured := rfl
@[simp] theorem setCard_weights : (s.setCard k).weights = s.weights := rfl
@[simp] theorem setCard_perfs : (s.setCard k).perfs = s.perfs := rfl
@[simp] theorem setCard_snaps : (s.setCard k).snaps = s.snaps := rfl
@[simp] theorem setCard_trace : (s.setCard k).trace = s.trace := rfl
@[simp] theorem setCard_loss : (s.setCard k).loss = s.loss := rfl
@[simp] theorem setCard_ring : (s.setCard k).ring = s.ring := rfl
@[simp] theorem setCard_lastCtx : (s.setCard k).lastCtx = s.lastCtx := rfl
@[simp] theorem setCard_replies : (s.setCard k).replies = s.replies := rfl
@[simp] theorem setCard_mctp : (s.setCard k).mctp = s.mctp := rfl
@[simp] theorem setCard_reports : (s.setCard k).reports = s.reports := rfl
@[simp] theorem setCard_slice : (s.setCard k).slice = s.slice := rfl
@[simp] theorem setCard_parts : (s.setCard k).parts = s.parts := rfl
@[simp] theorem setCard_ctxs : (s.setCard k).ctxs = s.ctxs := rfl
@[simp] theorem setCard_active : (s.setCard k).active = s.active := rfl
@[simp] theorem setCard_switches : (s.setCard k).switches = s.switches := rfl
@[simp] theorem setCard_grids : (s.setCard k).grids = s.grids := rfl
@[simp] theorem setCard_blocks : (s.setCard k).blocks = s.blocks := rfl
@[simp] theorem setCard_groups : (s.setCard k).groups = s.groups := rfl
@[simp] theorem setCard_results : (s.setCard k).results = s.results := rfl
@[simp] theorem setCard_scw : (s.setCard k).scw = s.scw := rfl
@[simp] theorem setCard_appends : (s.setCard k).appends = s.appends := rfl
@[simp] theorem setCard_windows : (s.setCard k).windows = s.windows := rfl
@[simp] theorem setCard_wbacks : (s.setCard k).wbacks = s.wbacks := rfl
@[simp] theorem setCard_faults : (s.setCard k).faults = s.faults := rfl
@[simp] theorem setCard_replay : (s.setCard k).replay = s.replay := rfl
@[simp] theorem setCard_churn : (s.setCard k).churn = s.churn := rfl
@[simp] theorem setCard_churnEnd : (s.setCard k).churnEnd = s.churnEnd := rfl
@[simp] theorem setCard_frozen : (s.setCard k).frozen = s.frozen := rfl
@[simp] theorem setCard_drains : (s.setCard k).drains = s.drains := rfl
@[simp] theorem setCard_contribs : (s.setCard k).contribs = s.contribs := rfl
@[simp] theorem setCard_spawnQ : (s.setCard k).spawnQ = s.spawnQ := rfl
@[simp] theorem setCard_openG : (s.setCard k).openG = s.openG := rfl
@[simp] theorem setCard_sealedG : (s.setCard k).sealedG = s.sealedG := rfl
@[simp] theorem setCard_prereqs : (s.setCard k).prereqs = s.prereqs := rfl
@[simp] theorem setCard_images : (s.setCard k).images = s.images := rfl
@[simp] theorem setCard_dram : (s.setCard k).dram = s.dram := rfl
@[simp] theorem setCard_scratch : (s.setCard k).scratch = s.scratch := rfl

@[simp] theorem modGroup_cycle : (s.modGroup n fg).cycle = s.cycle := by unfold State.modGroup; split <;> rfl
@[simp] theorem modGroup_now : (s.modGroup n fg).now = s.now := by unfold State.modGroup; split <;> rfl
@[simp] theorem modGroup_fabricTime : (s.modGroup n fg).fabricTime = s.fabricTime := by unfold State.modGroup; split <;> rfl
@[simp] theorem modGroup_turn : (s.modGroup n fg).turn = s.turn := by unfold State.modGroup; split <;> rfl
@[simp] theorem modGroup_began : (s.modGroup n fg).began = s.began := by unfold State.modGroup; split <;> rfl
@[simp] theorem modGroup_splits : (s.modGroup n fg).splits = s.splits := by unfold State.modGroup; split <;> rfl
@[simp] theorem modGroup_refuse : (s.modGroup n fg).refuse = s.refuse := by unfold State.modGroup; split <;> rfl
@[simp] theorem modGroup_agenda : (s.modGroup n fg).agenda = s.agenda := by unfold State.modGroup; split <;> rfl
@[simp] theorem modGroup_fills : (s.modGroup n fg).fills = s.fills := by unfold State.modGroup; split <;> rfl
@[simp] theorem modGroup_nextId : (s.modGroup n fg).nextId = s.nextId := by unfold State.modGroup; split <;> rfl
@[simp] theorem modGroup_boot : (s.modGroup n fg).boot = s.boot := by unfold State.modGroup; split <;> rfl
@[simp] theorem modGroup_dev : (s.modGroup n fg).dev = s.dev := by unfold State.modGroup; split <;> rfl
@[simp] theorem modGroup_gatedDies : (s.modGroup n fg).gatedDies = s.gatedDies := by unfold State.modGroup; split <;> rfl
@[simp] theorem modGroup_gatedClusters : (s.modGroup n fg).gatedClusters = s.gatedClusters := by unfold State.modGroup; split <;> rfl
@[simp] theorem modGroup_gatings : (s.modGroup n fg).gatings = s.gatings := by unfold State.modGroup; split <;> rfl
@[simp] theorem modGroup_links : (s.modGroup n fg).links = s.links := by unfold State.modGroup; split <;> rfl
@[simp] theorem modGroup_linkLog : (s.modGroup n fg).linkLog = s.linkLog := by unfold State.modGroup; split <;> rfl
@[simp] theorem modGroup_broken : (s.modGroup n fg).broken = s.broken := by unfold State.modGroup; split <;> rfl
@[simp] theorem modGroup_rootPorts : (s.modGroup n fg).rootPorts = s.rootPorts := by unfold State.modGroup; split <;> rfl
@[simp] theorem modGroup_svnRaised : (s.modGroup n fg).svnRaised = s.svnRaised := by unfold State.modGroup; split <;> rfl
@[simp] theorem modGroup_measured : (s.modGroup n fg).measured = s.measured := by unfold State.modGroup; split <;> rfl
@[simp] theorem modGroup_weights : (s.modGroup n fg).weights = s.weights := by unfold State.modGroup; split <;> rfl
@[simp] theorem modGroup_perfs : (s.modGroup n fg).perfs = s.perfs := by unfold State.modGroup; split <;> rfl
@[simp] theorem modGroup_snaps : (s.modGroup n fg).snaps = s.snaps := by unfold State.modGroup; split <;> rfl
@[simp] theorem modGroup_trace : (s.modGroup n fg).trace = s.trace := by unfold State.modGroup; split <;> rfl
@[simp] theorem modGroup_loss : (s.modGroup n fg).loss = s.loss := by unfold State.modGroup; split <;> rfl
@[simp] theorem modGroup_ring : (s.modGroup n fg).ring = s.ring := by unfold State.modGroup; split <;> rfl
@[simp] theorem modGroup_lastCtx : (s.modGroup n fg).lastCtx = s.lastCtx := by unfold State.modGroup; split <;> rfl
@[simp] theorem modGroup_replies : (s.modGroup n fg).replies = s.replies := by unfold State.modGroup; split <;> rfl
@[simp] theorem modGroup_mctp : (s.modGroup n fg).mctp = s.mctp := by unfold State.modGroup; split <;> rfl
@[simp] theorem modGroup_reports : (s.modGroup n fg).reports = s.reports := by unfold State.modGroup; split <;> rfl
@[simp] theorem modGroup_slice : (s.modGroup n fg).slice = s.slice := by unfold State.modGroup; split <;> rfl
@[simp] theorem modGroup_parts : (s.modGroup n fg).parts = s.parts := by unfold State.modGroup; split <;> rfl
@[simp] theorem modGroup_ctxs : (s.modGroup n fg).ctxs = s.ctxs := by unfold State.modGroup; split <;> rfl
@[simp] theorem modGroup_active : (s.modGroup n fg).active = s.active := by unfold State.modGroup; split <;> rfl
@[simp] theorem modGroup_switches : (s.modGroup n fg).switches = s.switches := by unfold State.modGroup; split <;> rfl
@[simp] theorem modGroup_grids : (s.modGroup n fg).grids = s.grids := by unfold State.modGroup; split <;> rfl
@[simp] theorem modGroup_blocks : (s.modGroup n fg).blocks = s.blocks := by unfold State.modGroup; split <;> rfl
@[simp] theorem modGroup_results : (s.modGroup n fg).results = s.results := by unfold State.modGroup; split <;> rfl
@[simp] theorem modGroup_scw : (s.modGroup n fg).scw = s.scw := by unfold State.modGroup; split <;> rfl
@[simp] theorem modGroup_appends : (s.modGroup n fg).appends = s.appends := by unfold State.modGroup; split <;> rfl
@[simp] theorem modGroup_windows : (s.modGroup n fg).windows = s.windows := by unfold State.modGroup; split <;> rfl
@[simp] theorem modGroup_wbacks : (s.modGroup n fg).wbacks = s.wbacks := by unfold State.modGroup; split <;> rfl
@[simp] theorem modGroup_faults : (s.modGroup n fg).faults = s.faults := by unfold State.modGroup; split <;> rfl
@[simp] theorem modGroup_replay : (s.modGroup n fg).replay = s.replay := by unfold State.modGroup; split <;> rfl
@[simp] theorem modGroup_churn : (s.modGroup n fg).churn = s.churn := by unfold State.modGroup; split <;> rfl
@[simp] theorem modGroup_churnEnd : (s.modGroup n fg).churnEnd = s.churnEnd := by unfold State.modGroup; split <;> rfl
@[simp] theorem modGroup_frozen : (s.modGroup n fg).frozen = s.frozen := by unfold State.modGroup; split <;> rfl
@[simp] theorem modGroup_drains : (s.modGroup n fg).drains = s.drains := by unfold State.modGroup; split <;> rfl
@[simp] theorem modGroup_cards : (s.modGroup n fg).cards = s.cards := by unfold State.modGroup; split <;> rfl
@[simp] theorem modGroup_contribs : (s.modGroup n fg).contribs = s.contribs := by unfold State.modGroup; split <;> rfl
@[simp] theorem modGroup_spawnQ : (s.modGroup n fg).spawnQ = s.spawnQ := by unfold State.modGroup; split <;> rfl
@[simp] theorem modGroup_openG : (s.modGroup n fg).openG = s.openG := by unfold State.modGroup; split <;> rfl
@[simp] theorem modGroup_sealedG : (s.modGroup n fg).sealedG = s.sealedG := by unfold State.modGroup; split <;> rfl
@[simp] theorem modGroup_prereqs : (s.modGroup n fg).prereqs = s.prereqs := by unfold State.modGroup; split <;> rfl
@[simp] theorem modGroup_images : (s.modGroup n fg).images = s.images := by unfold State.modGroup; split <;> rfl
@[simp] theorem modGroup_dram : (s.modGroup n fg).dram = s.dram := by unfold State.modGroup; split <;> rfl
@[simp] theorem modGroup_scratch : (s.modGroup n fg).scratch = s.scratch := by unfold State.modGroup; split <;> rfl

@[simp] theorem modBlock_cycle : (s.modBlock n fb).cycle = s.cycle := by unfold State.modBlock; split <;> rfl
@[simp] theorem modBlock_now : (s.modBlock n fb).now = s.now := by unfold State.modBlock; split <;> rfl
@[simp] theorem modBlock_fabricTime : (s.modBlock n fb).fabricTime = s.fabricTime := by unfold State.modBlock; split <;> rfl
@[simp] theorem modBlock_turn : (s.modBlock n fb).turn = s.turn := by unfold State.modBlock; split <;> rfl
@[simp] theorem modBlock_began : (s.modBlock n fb).began = s.began := by unfold State.modBlock; split <;> rfl
@[simp] theorem modBlock_splits : (s.modBlock n fb).splits = s.splits := by unfold State.modBlock; split <;> rfl
@[simp] theorem modBlock_refuse : (s.modBlock n fb).refuse = s.refuse := by unfold State.modBlock; split <;> rfl
@[simp] theorem modBlock_agenda : (s.modBlock n fb).agenda = s.agenda := by unfold State.modBlock; split <;> rfl
@[simp] theorem modBlock_fills : (s.modBlock n fb).fills = s.fills := by unfold State.modBlock; split <;> rfl
@[simp] theorem modBlock_nextId : (s.modBlock n fb).nextId = s.nextId := by unfold State.modBlock; split <;> rfl
@[simp] theorem modBlock_boot : (s.modBlock n fb).boot = s.boot := by unfold State.modBlock; split <;> rfl
@[simp] theorem modBlock_dev : (s.modBlock n fb).dev = s.dev := by unfold State.modBlock; split <;> rfl
@[simp] theorem modBlock_gatedDies : (s.modBlock n fb).gatedDies = s.gatedDies := by unfold State.modBlock; split <;> rfl
@[simp] theorem modBlock_gatedClusters : (s.modBlock n fb).gatedClusters = s.gatedClusters := by unfold State.modBlock; split <;> rfl
@[simp] theorem modBlock_gatings : (s.modBlock n fb).gatings = s.gatings := by unfold State.modBlock; split <;> rfl
@[simp] theorem modBlock_links : (s.modBlock n fb).links = s.links := by unfold State.modBlock; split <;> rfl
@[simp] theorem modBlock_linkLog : (s.modBlock n fb).linkLog = s.linkLog := by unfold State.modBlock; split <;> rfl
@[simp] theorem modBlock_broken : (s.modBlock n fb).broken = s.broken := by unfold State.modBlock; split <;> rfl
@[simp] theorem modBlock_rootPorts : (s.modBlock n fb).rootPorts = s.rootPorts := by unfold State.modBlock; split <;> rfl
@[simp] theorem modBlock_svnRaised : (s.modBlock n fb).svnRaised = s.svnRaised := by unfold State.modBlock; split <;> rfl
@[simp] theorem modBlock_measured : (s.modBlock n fb).measured = s.measured := by unfold State.modBlock; split <;> rfl
@[simp] theorem modBlock_weights : (s.modBlock n fb).weights = s.weights := by unfold State.modBlock; split <;> rfl
@[simp] theorem modBlock_perfs : (s.modBlock n fb).perfs = s.perfs := by unfold State.modBlock; split <;> rfl
@[simp] theorem modBlock_snaps : (s.modBlock n fb).snaps = s.snaps := by unfold State.modBlock; split <;> rfl
@[simp] theorem modBlock_trace : (s.modBlock n fb).trace = s.trace := by unfold State.modBlock; split <;> rfl
@[simp] theorem modBlock_loss : (s.modBlock n fb).loss = s.loss := by unfold State.modBlock; split <;> rfl
@[simp] theorem modBlock_ring : (s.modBlock n fb).ring = s.ring := by unfold State.modBlock; split <;> rfl
@[simp] theorem modBlock_lastCtx : (s.modBlock n fb).lastCtx = s.lastCtx := by unfold State.modBlock; split <;> rfl
@[simp] theorem modBlock_replies : (s.modBlock n fb).replies = s.replies := by unfold State.modBlock; split <;> rfl
@[simp] theorem modBlock_mctp : (s.modBlock n fb).mctp = s.mctp := by unfold State.modBlock; split <;> rfl
@[simp] theorem modBlock_reports : (s.modBlock n fb).reports = s.reports := by unfold State.modBlock; split <;> rfl
@[simp] theorem modBlock_slice : (s.modBlock n fb).slice = s.slice := by unfold State.modBlock; split <;> rfl
@[simp] theorem modBlock_parts : (s.modBlock n fb).parts = s.parts := by unfold State.modBlock; split <;> rfl
@[simp] theorem modBlock_ctxs : (s.modBlock n fb).ctxs = s.ctxs := by unfold State.modBlock; split <;> rfl
@[simp] theorem modBlock_active : (s.modBlock n fb).active = s.active := by unfold State.modBlock; split <;> rfl
@[simp] theorem modBlock_switches : (s.modBlock n fb).switches = s.switches := by unfold State.modBlock; split <;> rfl
@[simp] theorem modBlock_grids : (s.modBlock n fb).grids = s.grids := by unfold State.modBlock; split <;> rfl
@[simp] theorem modBlock_groups : (s.modBlock n fb).groups = s.groups := by unfold State.modBlock; split <;> rfl
@[simp] theorem modBlock_results : (s.modBlock n fb).results = s.results := by unfold State.modBlock; split <;> rfl
@[simp] theorem modBlock_scw : (s.modBlock n fb).scw = s.scw := by unfold State.modBlock; split <;> rfl
@[simp] theorem modBlock_appends : (s.modBlock n fb).appends = s.appends := by unfold State.modBlock; split <;> rfl
@[simp] theorem modBlock_windows : (s.modBlock n fb).windows = s.windows := by unfold State.modBlock; split <;> rfl
@[simp] theorem modBlock_wbacks : (s.modBlock n fb).wbacks = s.wbacks := by unfold State.modBlock; split <;> rfl
@[simp] theorem modBlock_faults : (s.modBlock n fb).faults = s.faults := by unfold State.modBlock; split <;> rfl
@[simp] theorem modBlock_replay : (s.modBlock n fb).replay = s.replay := by unfold State.modBlock; split <;> rfl
@[simp] theorem modBlock_churn : (s.modBlock n fb).churn = s.churn := by unfold State.modBlock; split <;> rfl
@[simp] theorem modBlock_churnEnd : (s.modBlock n fb).churnEnd = s.churnEnd := by unfold State.modBlock; split <;> rfl
@[simp] theorem modBlock_frozen : (s.modBlock n fb).frozen = s.frozen := by unfold State.modBlock; split <;> rfl
@[simp] theorem modBlock_drains : (s.modBlock n fb).drains = s.drains := by unfold State.modBlock; split <;> rfl
@[simp] theorem modBlock_cards : (s.modBlock n fb).cards = s.cards := by unfold State.modBlock; split <;> rfl
@[simp] theorem modBlock_contribs : (s.modBlock n fb).contribs = s.contribs := by unfold State.modBlock; split <;> rfl
@[simp] theorem modBlock_spawnQ : (s.modBlock n fb).spawnQ = s.spawnQ := by unfold State.modBlock; split <;> rfl
@[simp] theorem modBlock_openG : (s.modBlock n fb).openG = s.openG := by unfold State.modBlock; split <;> rfl
@[simp] theorem modBlock_sealedG : (s.modBlock n fb).sealedG = s.sealedG := by unfold State.modBlock; split <;> rfl
@[simp] theorem modBlock_prereqs : (s.modBlock n fb).prereqs = s.prereqs := by unfold State.modBlock; split <;> rfl
@[simp] theorem modBlock_images : (s.modBlock n fb).images = s.images := by unfold State.modBlock; split <;> rfl
@[simp] theorem modBlock_dram : (s.modBlock n fb).dram = s.dram := by unfold State.modBlock; split <;> rfl
@[simp] theorem modBlock_scratch : (s.modBlock n fb).scratch = s.scratch := by unfold State.modBlock; split <;> rfl

@[simp] theorem modCtx_cycle : (s.modCtx n fc).cycle = s.cycle := by unfold State.modCtx; split <;> rfl
@[simp] theorem modCtx_now : (s.modCtx n fc).now = s.now := by unfold State.modCtx; split <;> rfl
@[simp] theorem modCtx_fabricTime : (s.modCtx n fc).fabricTime = s.fabricTime := by unfold State.modCtx; split <;> rfl
@[simp] theorem modCtx_turn : (s.modCtx n fc).turn = s.turn := by unfold State.modCtx; split <;> rfl
@[simp] theorem modCtx_began : (s.modCtx n fc).began = s.began := by unfold State.modCtx; split <;> rfl
@[simp] theorem modCtx_splits : (s.modCtx n fc).splits = s.splits := by unfold State.modCtx; split <;> rfl
@[simp] theorem modCtx_refuse : (s.modCtx n fc).refuse = s.refuse := by unfold State.modCtx; split <;> rfl
@[simp] theorem modCtx_agenda : (s.modCtx n fc).agenda = s.agenda := by unfold State.modCtx; split <;> rfl
@[simp] theorem modCtx_fills : (s.modCtx n fc).fills = s.fills := by unfold State.modCtx; split <;> rfl
@[simp] theorem modCtx_nextId : (s.modCtx n fc).nextId = s.nextId := by unfold State.modCtx; split <;> rfl
@[simp] theorem modCtx_boot : (s.modCtx n fc).boot = s.boot := by unfold State.modCtx; split <;> rfl
@[simp] theorem modCtx_dev : (s.modCtx n fc).dev = s.dev := by unfold State.modCtx; split <;> rfl
@[simp] theorem modCtx_gatedDies : (s.modCtx n fc).gatedDies = s.gatedDies := by unfold State.modCtx; split <;> rfl
@[simp] theorem modCtx_gatedClusters : (s.modCtx n fc).gatedClusters = s.gatedClusters := by unfold State.modCtx; split <;> rfl
@[simp] theorem modCtx_gatings : (s.modCtx n fc).gatings = s.gatings := by unfold State.modCtx; split <;> rfl
@[simp] theorem modCtx_links : (s.modCtx n fc).links = s.links := by unfold State.modCtx; split <;> rfl
@[simp] theorem modCtx_linkLog : (s.modCtx n fc).linkLog = s.linkLog := by unfold State.modCtx; split <;> rfl
@[simp] theorem modCtx_broken : (s.modCtx n fc).broken = s.broken := by unfold State.modCtx; split <;> rfl
@[simp] theorem modCtx_rootPorts : (s.modCtx n fc).rootPorts = s.rootPorts := by unfold State.modCtx; split <;> rfl
@[simp] theorem modCtx_svnRaised : (s.modCtx n fc).svnRaised = s.svnRaised := by unfold State.modCtx; split <;> rfl
@[simp] theorem modCtx_measured : (s.modCtx n fc).measured = s.measured := by unfold State.modCtx; split <;> rfl
@[simp] theorem modCtx_weights : (s.modCtx n fc).weights = s.weights := by unfold State.modCtx; split <;> rfl
@[simp] theorem modCtx_perfs : (s.modCtx n fc).perfs = s.perfs := by unfold State.modCtx; split <;> rfl
@[simp] theorem modCtx_snaps : (s.modCtx n fc).snaps = s.snaps := by unfold State.modCtx; split <;> rfl
@[simp] theorem modCtx_trace : (s.modCtx n fc).trace = s.trace := by unfold State.modCtx; split <;> rfl
@[simp] theorem modCtx_loss : (s.modCtx n fc).loss = s.loss := by unfold State.modCtx; split <;> rfl
@[simp] theorem modCtx_ring : (s.modCtx n fc).ring = s.ring := by unfold State.modCtx; split <;> rfl
@[simp] theorem modCtx_lastCtx : (s.modCtx n fc).lastCtx = s.lastCtx := by unfold State.modCtx; split <;> rfl
@[simp] theorem modCtx_replies : (s.modCtx n fc).replies = s.replies := by unfold State.modCtx; split <;> rfl
@[simp] theorem modCtx_mctp : (s.modCtx n fc).mctp = s.mctp := by unfold State.modCtx; split <;> rfl
@[simp] theorem modCtx_reports : (s.modCtx n fc).reports = s.reports := by unfold State.modCtx; split <;> rfl
@[simp] theorem modCtx_slice : (s.modCtx n fc).slice = s.slice := by unfold State.modCtx; split <;> rfl
@[simp] theorem modCtx_parts : (s.modCtx n fc).parts = s.parts := by unfold State.modCtx; split <;> rfl
@[simp] theorem modCtx_active : (s.modCtx n fc).active = s.active := by unfold State.modCtx; split <;> rfl
@[simp] theorem modCtx_switches : (s.modCtx n fc).switches = s.switches := by unfold State.modCtx; split <;> rfl
@[simp] theorem modCtx_grids : (s.modCtx n fc).grids = s.grids := by unfold State.modCtx; split <;> rfl
@[simp] theorem modCtx_blocks : (s.modCtx n fc).blocks = s.blocks := by unfold State.modCtx; split <;> rfl
@[simp] theorem modCtx_groups : (s.modCtx n fc).groups = s.groups := by unfold State.modCtx; split <;> rfl
@[simp] theorem modCtx_results : (s.modCtx n fc).results = s.results := by unfold State.modCtx; split <;> rfl
@[simp] theorem modCtx_scw : (s.modCtx n fc).scw = s.scw := by unfold State.modCtx; split <;> rfl
@[simp] theorem modCtx_appends : (s.modCtx n fc).appends = s.appends := by unfold State.modCtx; split <;> rfl
@[simp] theorem modCtx_windows : (s.modCtx n fc).windows = s.windows := by unfold State.modCtx; split <;> rfl
@[simp] theorem modCtx_wbacks : (s.modCtx n fc).wbacks = s.wbacks := by unfold State.modCtx; split <;> rfl
@[simp] theorem modCtx_faults : (s.modCtx n fc).faults = s.faults := by unfold State.modCtx; split <;> rfl
@[simp] theorem modCtx_replay : (s.modCtx n fc).replay = s.replay := by unfold State.modCtx; split <;> rfl
@[simp] theorem modCtx_churn : (s.modCtx n fc).churn = s.churn := by unfold State.modCtx; split <;> rfl
@[simp] theorem modCtx_churnEnd : (s.modCtx n fc).churnEnd = s.churnEnd := by unfold State.modCtx; split <;> rfl
@[simp] theorem modCtx_frozen : (s.modCtx n fc).frozen = s.frozen := by unfold State.modCtx; split <;> rfl
@[simp] theorem modCtx_drains : (s.modCtx n fc).drains = s.drains := by unfold State.modCtx; split <;> rfl
@[simp] theorem modCtx_cards : (s.modCtx n fc).cards = s.cards := by unfold State.modCtx; split <;> rfl
@[simp] theorem modCtx_contribs : (s.modCtx n fc).contribs = s.contribs := by unfold State.modCtx; split <;> rfl
@[simp] theorem modCtx_spawnQ : (s.modCtx n fc).spawnQ = s.spawnQ := by unfold State.modCtx; split <;> rfl
@[simp] theorem modCtx_openG : (s.modCtx n fc).openG = s.openG := by unfold State.modCtx; split <;> rfl
@[simp] theorem modCtx_sealedG : (s.modCtx n fc).sealedG = s.sealedG := by unfold State.modCtx; split <;> rfl
@[simp] theorem modCtx_prereqs : (s.modCtx n fc).prereqs = s.prereqs := by unfold State.modCtx; split <;> rfl
@[simp] theorem modCtx_images : (s.modCtx n fc).images = s.images := by unfold State.modCtx; split <;> rfl
@[simp] theorem modCtx_dram : (s.modCtx n fc).dram = s.dram := by unfold State.modCtx; split <;> rfl
@[simp] theorem modCtx_scratch : (s.modCtx n fc).scratch = s.scratch := by unfold State.modCtx; split <;> rfl

@[simp] theorem count_cycle : (s.count core event ctx n).cycle = s.cycle := rfl
@[simp] theorem count_now : (s.count core event ctx n).now = s.now := rfl
@[simp] theorem count_fabricTime : (s.count core event ctx n).fabricTime = s.fabricTime := rfl
@[simp] theorem count_turn : (s.count core event ctx n).turn = s.turn := rfl
@[simp] theorem count_began : (s.count core event ctx n).began = s.began := rfl
@[simp] theorem count_splits : (s.count core event ctx n).splits = s.splits := rfl
@[simp] theorem count_refuse : (s.count core event ctx n).refuse = s.refuse := rfl
@[simp] theorem count_agenda : (s.count core event ctx n).agenda = s.agenda := rfl
@[simp] theorem count_fills : (s.count core event ctx n).fills = s.fills := rfl
@[simp] theorem count_nextId : (s.count core event ctx n).nextId = s.nextId := rfl
@[simp] theorem count_boot : (s.count core event ctx n).boot = s.boot := rfl
@[simp] theorem count_dev : (s.count core event ctx n).dev = s.dev := rfl
@[simp] theorem count_gatedDies : (s.count core event ctx n).gatedDies = s.gatedDies := rfl
@[simp] theorem count_gatedClusters : (s.count core event ctx n).gatedClusters = s.gatedClusters := rfl
@[simp] theorem count_gatings : (s.count core event ctx n).gatings = s.gatings := rfl
@[simp] theorem count_links : (s.count core event ctx n).links = s.links := rfl
@[simp] theorem count_linkLog : (s.count core event ctx n).linkLog = s.linkLog := rfl
@[simp] theorem count_broken : (s.count core event ctx n).broken = s.broken := rfl
@[simp] theorem count_rootPorts : (s.count core event ctx n).rootPorts = s.rootPorts := rfl
@[simp] theorem count_svnRaised : (s.count core event ctx n).svnRaised = s.svnRaised := rfl
@[simp] theorem count_measured : (s.count core event ctx n).measured = s.measured := rfl
@[simp] theorem count_weights : (s.count core event ctx n).weights = s.weights := rfl
@[simp] theorem count_snaps : (s.count core event ctx n).snaps = s.snaps := rfl
@[simp] theorem count_trace : (s.count core event ctx n).trace = s.trace := rfl
@[simp] theorem count_loss : (s.count core event ctx n).loss = s.loss := rfl
@[simp] theorem count_ring : (s.count core event ctx n).ring = s.ring := rfl
@[simp] theorem count_lastCtx : (s.count core event ctx n).lastCtx = s.lastCtx := rfl
@[simp] theorem count_replies : (s.count core event ctx n).replies = s.replies := rfl
@[simp] theorem count_mctp : (s.count core event ctx n).mctp = s.mctp := rfl
@[simp] theorem count_reports : (s.count core event ctx n).reports = s.reports := rfl
@[simp] theorem count_slice : (s.count core event ctx n).slice = s.slice := rfl
@[simp] theorem count_parts : (s.count core event ctx n).parts = s.parts := rfl
@[simp] theorem count_ctxs : (s.count core event ctx n).ctxs = s.ctxs := rfl
@[simp] theorem count_active : (s.count core event ctx n).active = s.active := rfl
@[simp] theorem count_switches : (s.count core event ctx n).switches = s.switches := rfl
@[simp] theorem count_grids : (s.count core event ctx n).grids = s.grids := rfl
@[simp] theorem count_blocks : (s.count core event ctx n).blocks = s.blocks := rfl
@[simp] theorem count_groups : (s.count core event ctx n).groups = s.groups := rfl
@[simp] theorem count_results : (s.count core event ctx n).results = s.results := rfl
@[simp] theorem count_scw : (s.count core event ctx n).scw = s.scw := rfl
@[simp] theorem count_appends : (s.count core event ctx n).appends = s.appends := rfl
@[simp] theorem count_windows : (s.count core event ctx n).windows = s.windows := rfl
@[simp] theorem count_wbacks : (s.count core event ctx n).wbacks = s.wbacks := rfl
@[simp] theorem count_faults : (s.count core event ctx n).faults = s.faults := rfl
@[simp] theorem count_replay : (s.count core event ctx n).replay = s.replay := rfl
@[simp] theorem count_churn : (s.count core event ctx n).churn = s.churn := rfl
@[simp] theorem count_churnEnd : (s.count core event ctx n).churnEnd = s.churnEnd := rfl
@[simp] theorem count_frozen : (s.count core event ctx n).frozen = s.frozen := rfl
@[simp] theorem count_drains : (s.count core event ctx n).drains = s.drains := rfl
@[simp] theorem count_cards : (s.count core event ctx n).cards = s.cards := rfl
@[simp] theorem count_contribs : (s.count core event ctx n).contribs = s.contribs := rfl
@[simp] theorem count_spawnQ : (s.count core event ctx n).spawnQ = s.spawnQ := rfl
@[simp] theorem count_openG : (s.count core event ctx n).openG = s.openG := rfl
@[simp] theorem count_sealedG : (s.count core event ctx n).sealedG = s.sealedG := rfl
@[simp] theorem count_prereqs : (s.count core event ctx n).prereqs = s.prereqs := rfl
@[simp] theorem count_images : (s.count core event ctx n).images = s.images := rfl
@[simp] theorem count_dram : (s.count core event ctx n).dram = s.dram := rfl
@[simp] theorem count_scratch : (s.count core event ctx n).scratch = s.scratch := rfl

@[simp] theorem ran_cycle : (s.ran u ctx).cycle = s.cycle := rfl
@[simp] theorem ran_now : (s.ran u ctx).now = s.now := rfl
@[simp] theorem ran_fabricTime : (s.ran u ctx).fabricTime = s.fabricTime := rfl
@[simp] theorem ran_turn : (s.ran u ctx).turn = s.turn := rfl
@[simp] theorem ran_began : (s.ran u ctx).began = s.began := rfl
@[simp] theorem ran_splits : (s.ran u ctx).splits = s.splits := rfl
@[simp] theorem ran_refuse : (s.ran u ctx).refuse = s.refuse := rfl
@[simp] theorem ran_agenda : (s.ran u ctx).agenda = s.agenda := rfl
@[simp] theorem ran_fills : (s.ran u ctx).fills = s.fills := rfl
@[simp] theorem ran_nextId : (s.ran u ctx).nextId = s.nextId := rfl
@[simp] theorem ran_boot : (s.ran u ctx).boot = s.boot := rfl
@[simp] theorem ran_dev : (s.ran u ctx).dev = s.dev := rfl
@[simp] theorem ran_gatedDies : (s.ran u ctx).gatedDies = s.gatedDies := rfl
@[simp] theorem ran_gatedClusters : (s.ran u ctx).gatedClusters = s.gatedClusters := rfl
@[simp] theorem ran_gatings : (s.ran u ctx).gatings = s.gatings := rfl
@[simp] theorem ran_links : (s.ran u ctx).links = s.links := rfl
@[simp] theorem ran_linkLog : (s.ran u ctx).linkLog = s.linkLog := rfl
@[simp] theorem ran_broken : (s.ran u ctx).broken = s.broken := rfl
@[simp] theorem ran_rootPorts : (s.ran u ctx).rootPorts = s.rootPorts := rfl
@[simp] theorem ran_svnRaised : (s.ran u ctx).svnRaised = s.svnRaised := rfl
@[simp] theorem ran_measured : (s.ran u ctx).measured = s.measured := rfl
@[simp] theorem ran_weights : (s.ran u ctx).weights = s.weights := rfl
@[simp] theorem ran_perfs : (s.ran u ctx).perfs = s.perfs := rfl
@[simp] theorem ran_snaps : (s.ran u ctx).snaps = s.snaps := rfl
@[simp] theorem ran_trace : (s.ran u ctx).trace = s.trace := rfl
@[simp] theorem ran_loss : (s.ran u ctx).loss = s.loss := rfl
@[simp] theorem ran_ring : (s.ran u ctx).ring = s.ring := rfl
@[simp] theorem ran_replies : (s.ran u ctx).replies = s.replies := rfl
@[simp] theorem ran_mctp : (s.ran u ctx).mctp = s.mctp := rfl
@[simp] theorem ran_reports : (s.ran u ctx).reports = s.reports := rfl
@[simp] theorem ran_slice : (s.ran u ctx).slice = s.slice := rfl
@[simp] theorem ran_parts : (s.ran u ctx).parts = s.parts := rfl
@[simp] theorem ran_ctxs : (s.ran u ctx).ctxs = s.ctxs := rfl
@[simp] theorem ran_active : (s.ran u ctx).active = s.active := rfl
@[simp] theorem ran_switches : (s.ran u ctx).switches = s.switches := rfl
@[simp] theorem ran_grids : (s.ran u ctx).grids = s.grids := rfl
@[simp] theorem ran_blocks : (s.ran u ctx).blocks = s.blocks := rfl
@[simp] theorem ran_groups : (s.ran u ctx).groups = s.groups := rfl
@[simp] theorem ran_results : (s.ran u ctx).results = s.results := rfl
@[simp] theorem ran_scw : (s.ran u ctx).scw = s.scw := rfl
@[simp] theorem ran_appends : (s.ran u ctx).appends = s.appends := rfl
@[simp] theorem ran_windows : (s.ran u ctx).windows = s.windows := rfl
@[simp] theorem ran_wbacks : (s.ran u ctx).wbacks = s.wbacks := rfl
@[simp] theorem ran_faults : (s.ran u ctx).faults = s.faults := rfl
@[simp] theorem ran_replay : (s.ran u ctx).replay = s.replay := rfl
@[simp] theorem ran_churn : (s.ran u ctx).churn = s.churn := rfl
@[simp] theorem ran_churnEnd : (s.ran u ctx).churnEnd = s.churnEnd := rfl
@[simp] theorem ran_frozen : (s.ran u ctx).frozen = s.frozen := rfl
@[simp] theorem ran_drains : (s.ran u ctx).drains = s.drains := rfl
@[simp] theorem ran_cards : (s.ran u ctx).cards = s.cards := rfl
@[simp] theorem ran_contribs : (s.ran u ctx).contribs = s.contribs := rfl
@[simp] theorem ran_spawnQ : (s.ran u ctx).spawnQ = s.spawnQ := rfl
@[simp] theorem ran_openG : (s.ran u ctx).openG = s.openG := rfl
@[simp] theorem ran_sealedG : (s.ran u ctx).sealedG = s.sealedG := rfl
@[simp] theorem ran_prereqs : (s.ran u ctx).prereqs = s.prereqs := rfl
@[simp] theorem ran_images : (s.ran u ctx).images = s.images := rfl
@[simp] theorem ran_dram : (s.ran u ctx).dram = s.dram := rfl
@[simp] theorem ran_scratch : (s.ran u ctx).scratch = s.scratch := rfl

@[simp] theorem fresh_cycle : (s.fresh.2).cycle = s.cycle := rfl
@[simp] theorem fresh_now : (s.fresh.2).now = s.now := rfl
@[simp] theorem fresh_fabricTime : (s.fresh.2).fabricTime = s.fabricTime := rfl
@[simp] theorem fresh_turn : (s.fresh.2).turn = s.turn := rfl
@[simp] theorem fresh_began : (s.fresh.2).began = s.began := rfl
@[simp] theorem fresh_splits : (s.fresh.2).splits = s.splits := rfl
@[simp] theorem fresh_refuse : (s.fresh.2).refuse = s.refuse := rfl
@[simp] theorem fresh_agenda : (s.fresh.2).agenda = s.agenda := rfl
@[simp] theorem fresh_fills : (s.fresh.2).fills = s.fills := rfl
@[simp] theorem fresh_boot : (s.fresh.2).boot = s.boot := rfl
@[simp] theorem fresh_dev : (s.fresh.2).dev = s.dev := rfl
@[simp] theorem fresh_gatedDies : (s.fresh.2).gatedDies = s.gatedDies := rfl
@[simp] theorem fresh_gatedClusters : (s.fresh.2).gatedClusters = s.gatedClusters := rfl
@[simp] theorem fresh_gatings : (s.fresh.2).gatings = s.gatings := rfl
@[simp] theorem fresh_links : (s.fresh.2).links = s.links := rfl
@[simp] theorem fresh_linkLog : (s.fresh.2).linkLog = s.linkLog := rfl
@[simp] theorem fresh_broken : (s.fresh.2).broken = s.broken := rfl
@[simp] theorem fresh_rootPorts : (s.fresh.2).rootPorts = s.rootPorts := rfl
@[simp] theorem fresh_svnRaised : (s.fresh.2).svnRaised = s.svnRaised := rfl
@[simp] theorem fresh_measured : (s.fresh.2).measured = s.measured := rfl
@[simp] theorem fresh_weights : (s.fresh.2).weights = s.weights := rfl
@[simp] theorem fresh_perfs : (s.fresh.2).perfs = s.perfs := rfl
@[simp] theorem fresh_snaps : (s.fresh.2).snaps = s.snaps := rfl
@[simp] theorem fresh_trace : (s.fresh.2).trace = s.trace := rfl
@[simp] theorem fresh_loss : (s.fresh.2).loss = s.loss := rfl
@[simp] theorem fresh_ring : (s.fresh.2).ring = s.ring := rfl
@[simp] theorem fresh_lastCtx : (s.fresh.2).lastCtx = s.lastCtx := rfl
@[simp] theorem fresh_replies : (s.fresh.2).replies = s.replies := rfl
@[simp] theorem fresh_mctp : (s.fresh.2).mctp = s.mctp := rfl
@[simp] theorem fresh_reports : (s.fresh.2).reports = s.reports := rfl
@[simp] theorem fresh_slice : (s.fresh.2).slice = s.slice := rfl
@[simp] theorem fresh_parts : (s.fresh.2).parts = s.parts := rfl
@[simp] theorem fresh_ctxs : (s.fresh.2).ctxs = s.ctxs := rfl
@[simp] theorem fresh_active : (s.fresh.2).active = s.active := rfl
@[simp] theorem fresh_switches : (s.fresh.2).switches = s.switches := rfl
@[simp] theorem fresh_grids : (s.fresh.2).grids = s.grids := rfl
@[simp] theorem fresh_blocks : (s.fresh.2).blocks = s.blocks := rfl
@[simp] theorem fresh_groups : (s.fresh.2).groups = s.groups := rfl
@[simp] theorem fresh_results : (s.fresh.2).results = s.results := rfl
@[simp] theorem fresh_scw : (s.fresh.2).scw = s.scw := rfl
@[simp] theorem fresh_appends : (s.fresh.2).appends = s.appends := rfl
@[simp] theorem fresh_windows : (s.fresh.2).windows = s.windows := rfl
@[simp] theorem fresh_wbacks : (s.fresh.2).wbacks = s.wbacks := rfl
@[simp] theorem fresh_faults : (s.fresh.2).faults = s.faults := rfl
@[simp] theorem fresh_replay : (s.fresh.2).replay = s.replay := rfl
@[simp] theorem fresh_churn : (s.fresh.2).churn = s.churn := rfl
@[simp] theorem fresh_churnEnd : (s.fresh.2).churnEnd = s.churnEnd := rfl
@[simp] theorem fresh_frozen : (s.fresh.2).frozen = s.frozen := rfl
@[simp] theorem fresh_drains : (s.fresh.2).drains = s.drains := rfl
@[simp] theorem fresh_cards : (s.fresh.2).cards = s.cards := rfl
@[simp] theorem fresh_contribs : (s.fresh.2).contribs = s.contribs := rfl
@[simp] theorem fresh_spawnQ : (s.fresh.2).spawnQ = s.spawnQ := rfl
@[simp] theorem fresh_openG : (s.fresh.2).openG = s.openG := rfl
@[simp] theorem fresh_sealedG : (s.fresh.2).sealedG = s.sealedG := rfl
@[simp] theorem fresh_prereqs : (s.fresh.2).prereqs = s.prereqs := rfl
@[simp] theorem fresh_images : (s.fresh.2).images = s.images := rfl
@[simp] theorem fresh_dram : (s.fresh.2).dram = s.dram := rfl
@[simp] theorem fresh_scratch : (s.fresh.2).scratch = s.scratch := rfl

@[simp] theorem log_cycle : (s.log ctx cause fpc lanes pc name group detail).cycle = s.cycle := modCtx_cycle ..
@[simp] theorem log_now : (s.log ctx cause fpc lanes pc name group detail).now = s.now := modCtx_now ..
@[simp] theorem log_fabricTime : (s.log ctx cause fpc lanes pc name group detail).fabricTime = s.fabricTime := modCtx_fabricTime ..
@[simp] theorem log_turn : (s.log ctx cause fpc lanes pc name group detail).turn = s.turn := modCtx_turn ..
@[simp] theorem log_began : (s.log ctx cause fpc lanes pc name group detail).began = s.began := modCtx_began ..
@[simp] theorem log_splits : (s.log ctx cause fpc lanes pc name group detail).splits = s.splits := modCtx_splits ..
@[simp] theorem log_refuse : (s.log ctx cause fpc lanes pc name group detail).refuse = s.refuse := modCtx_refuse ..
@[simp] theorem log_agenda : (s.log ctx cause fpc lanes pc name group detail).agenda = s.agenda := modCtx_agenda ..
@[simp] theorem log_fills : (s.log ctx cause fpc lanes pc name group detail).fills = s.fills := modCtx_fills ..
@[simp] theorem log_nextId : (s.log ctx cause fpc lanes pc name group detail).nextId = s.nextId := modCtx_nextId ..
@[simp] theorem log_boot : (s.log ctx cause fpc lanes pc name group detail).boot = s.boot := modCtx_boot ..
@[simp] theorem log_dev : (s.log ctx cause fpc lanes pc name group detail).dev = s.dev := modCtx_dev ..
@[simp] theorem log_gatedDies : (s.log ctx cause fpc lanes pc name group detail).gatedDies = s.gatedDies := modCtx_gatedDies ..
@[simp] theorem log_gatedClusters : (s.log ctx cause fpc lanes pc name group detail).gatedClusters = s.gatedClusters := modCtx_gatedClusters ..
@[simp] theorem log_gatings : (s.log ctx cause fpc lanes pc name group detail).gatings = s.gatings := modCtx_gatings ..
@[simp] theorem log_links : (s.log ctx cause fpc lanes pc name group detail).links = s.links := modCtx_links ..
@[simp] theorem log_linkLog : (s.log ctx cause fpc lanes pc name group detail).linkLog = s.linkLog := modCtx_linkLog ..
@[simp] theorem log_broken : (s.log ctx cause fpc lanes pc name group detail).broken = s.broken := modCtx_broken ..
@[simp] theorem log_rootPorts : (s.log ctx cause fpc lanes pc name group detail).rootPorts = s.rootPorts := modCtx_rootPorts ..
@[simp] theorem log_svnRaised : (s.log ctx cause fpc lanes pc name group detail).svnRaised = s.svnRaised := modCtx_svnRaised ..
@[simp] theorem log_measured : (s.log ctx cause fpc lanes pc name group detail).measured = s.measured := modCtx_measured ..
@[simp] theorem log_weights : (s.log ctx cause fpc lanes pc name group detail).weights = s.weights := modCtx_weights ..
@[simp] theorem log_perfs : (s.log ctx cause fpc lanes pc name group detail).perfs = s.perfs := modCtx_perfs ..
@[simp] theorem log_snaps : (s.log ctx cause fpc lanes pc name group detail).snaps = s.snaps := modCtx_snaps ..
@[simp] theorem log_trace : (s.log ctx cause fpc lanes pc name group detail).trace = s.trace := modCtx_trace ..
@[simp] theorem log_loss : (s.log ctx cause fpc lanes pc name group detail).loss = s.loss := modCtx_loss ..
@[simp] theorem log_ring : (s.log ctx cause fpc lanes pc name group detail).ring = s.ring := modCtx_ring ..
@[simp] theorem log_lastCtx : (s.log ctx cause fpc lanes pc name group detail).lastCtx = s.lastCtx := modCtx_lastCtx ..
@[simp] theorem log_replies : (s.log ctx cause fpc lanes pc name group detail).replies = s.replies := modCtx_replies ..
@[simp] theorem log_mctp : (s.log ctx cause fpc lanes pc name group detail).mctp = s.mctp := modCtx_mctp ..
@[simp] theorem log_reports : (s.log ctx cause fpc lanes pc name group detail).reports = s.reports := modCtx_reports ..
@[simp] theorem log_slice : (s.log ctx cause fpc lanes pc name group detail).slice = s.slice := modCtx_slice ..
@[simp] theorem log_parts : (s.log ctx cause fpc lanes pc name group detail).parts = s.parts := modCtx_parts ..
@[simp] theorem log_active : (s.log ctx cause fpc lanes pc name group detail).active = s.active := modCtx_active ..
@[simp] theorem log_switches : (s.log ctx cause fpc lanes pc name group detail).switches = s.switches := modCtx_switches ..
@[simp] theorem log_grids : (s.log ctx cause fpc lanes pc name group detail).grids = s.grids := modCtx_grids ..
@[simp] theorem log_blocks : (s.log ctx cause fpc lanes pc name group detail).blocks = s.blocks := modCtx_blocks ..
@[simp] theorem log_groups : (s.log ctx cause fpc lanes pc name group detail).groups = s.groups := modCtx_groups ..
@[simp] theorem log_results : (s.log ctx cause fpc lanes pc name group detail).results = s.results := modCtx_results ..
@[simp] theorem log_scw : (s.log ctx cause fpc lanes pc name group detail).scw = s.scw := modCtx_scw ..
@[simp] theorem log_appends : (s.log ctx cause fpc lanes pc name group detail).appends = s.appends := modCtx_appends ..
@[simp] theorem log_windows : (s.log ctx cause fpc lanes pc name group detail).windows = s.windows := modCtx_windows ..
@[simp] theorem log_wbacks : (s.log ctx cause fpc lanes pc name group detail).wbacks = s.wbacks := modCtx_wbacks ..
@[simp] theorem log_faults : (s.log ctx cause fpc lanes pc name group detail).faults = s.faults := modCtx_faults ..
@[simp] theorem log_replay : (s.log ctx cause fpc lanes pc name group detail).replay = s.replay := modCtx_replay ..
@[simp] theorem log_churn : (s.log ctx cause fpc lanes pc name group detail).churn = s.churn := modCtx_churn ..
@[simp] theorem log_churnEnd : (s.log ctx cause fpc lanes pc name group detail).churnEnd = s.churnEnd := modCtx_churnEnd ..
@[simp] theorem log_frozen : (s.log ctx cause fpc lanes pc name group detail).frozen = s.frozen := modCtx_frozen ..
@[simp] theorem log_drains : (s.log ctx cause fpc lanes pc name group detail).drains = s.drains := modCtx_drains ..
@[simp] theorem log_cards : (s.log ctx cause fpc lanes pc name group detail).cards = s.cards := modCtx_cards ..
@[simp] theorem log_contribs : (s.log ctx cause fpc lanes pc name group detail).contribs = s.contribs := modCtx_contribs ..
@[simp] theorem log_spawnQ : (s.log ctx cause fpc lanes pc name group detail).spawnQ = s.spawnQ := modCtx_spawnQ ..
@[simp] theorem log_openG : (s.log ctx cause fpc lanes pc name group detail).openG = s.openG := modCtx_openG ..
@[simp] theorem log_sealedG : (s.log ctx cause fpc lanes pc name group detail).sealedG = s.sealedG := modCtx_sealedG ..
@[simp] theorem log_prereqs : (s.log ctx cause fpc lanes pc name group detail).prereqs = s.prereqs := modCtx_prereqs ..
@[simp] theorem log_images : (s.log ctx cause fpc lanes pc name group detail).images = s.images := modCtx_images ..
@[simp] theorem log_dram : (s.log ctx cause fpc lanes pc name group detail).dram = s.dram := modCtx_dram ..
@[simp] theorem log_scratch : (s.log ctx cause fpc lanes pc name group detail).scratch = s.scratch := modCtx_scratch ..

@[simp] theorem putTrace_cycle : (s.putTrace cluster r gap).cycle = s.cycle := rfl
@[simp] theorem putTrace_now : (s.putTrace cluster r gap).now = s.now := rfl
@[simp] theorem putTrace_fabricTime : (s.putTrace cluster r gap).fabricTime = s.fabricTime := rfl
@[simp] theorem putTrace_turn : (s.putTrace cluster r gap).turn = s.turn := rfl
@[simp] theorem putTrace_began : (s.putTrace cluster r gap).began = s.began := rfl
@[simp] theorem putTrace_splits : (s.putTrace cluster r gap).splits = s.splits := rfl
@[simp] theorem putTrace_refuse : (s.putTrace cluster r gap).refuse = s.refuse := rfl
@[simp] theorem putTrace_agenda : (s.putTrace cluster r gap).agenda = s.agenda := rfl
@[simp] theorem putTrace_fills : (s.putTrace cluster r gap).fills = s.fills := rfl
@[simp] theorem putTrace_nextId : (s.putTrace cluster r gap).nextId = s.nextId := rfl
@[simp] theorem putTrace_boot : (s.putTrace cluster r gap).boot = s.boot := rfl
@[simp] theorem putTrace_dev : (s.putTrace cluster r gap).dev = s.dev := rfl
@[simp] theorem putTrace_gatedDies : (s.putTrace cluster r gap).gatedDies = s.gatedDies := rfl
@[simp] theorem putTrace_gatedClusters : (s.putTrace cluster r gap).gatedClusters = s.gatedClusters := rfl
@[simp] theorem putTrace_gatings : (s.putTrace cluster r gap).gatings = s.gatings := rfl
@[simp] theorem putTrace_links : (s.putTrace cluster r gap).links = s.links := rfl
@[simp] theorem putTrace_linkLog : (s.putTrace cluster r gap).linkLog = s.linkLog := rfl
@[simp] theorem putTrace_broken : (s.putTrace cluster r gap).broken = s.broken := rfl
@[simp] theorem putTrace_rootPorts : (s.putTrace cluster r gap).rootPorts = s.rootPorts := rfl
@[simp] theorem putTrace_svnRaised : (s.putTrace cluster r gap).svnRaised = s.svnRaised := rfl
@[simp] theorem putTrace_measured : (s.putTrace cluster r gap).measured = s.measured := rfl
@[simp] theorem putTrace_weights : (s.putTrace cluster r gap).weights = s.weights := rfl
@[simp] theorem putTrace_perfs : (s.putTrace cluster r gap).perfs = s.perfs := rfl
@[simp] theorem putTrace_snaps : (s.putTrace cluster r gap).snaps = s.snaps := rfl
@[simp] theorem putTrace_ring : (s.putTrace cluster r gap).ring = s.ring := rfl
@[simp] theorem putTrace_lastCtx : (s.putTrace cluster r gap).lastCtx = s.lastCtx := rfl
@[simp] theorem putTrace_replies : (s.putTrace cluster r gap).replies = s.replies := rfl
@[simp] theorem putTrace_mctp : (s.putTrace cluster r gap).mctp = s.mctp := rfl
@[simp] theorem putTrace_reports : (s.putTrace cluster r gap).reports = s.reports := rfl
@[simp] theorem putTrace_slice : (s.putTrace cluster r gap).slice = s.slice := rfl
@[simp] theorem putTrace_parts : (s.putTrace cluster r gap).parts = s.parts := rfl
@[simp] theorem putTrace_ctxs : (s.putTrace cluster r gap).ctxs = s.ctxs := rfl
@[simp] theorem putTrace_active : (s.putTrace cluster r gap).active = s.active := rfl
@[simp] theorem putTrace_switches : (s.putTrace cluster r gap).switches = s.switches := rfl
@[simp] theorem putTrace_grids : (s.putTrace cluster r gap).grids = s.grids := rfl
@[simp] theorem putTrace_blocks : (s.putTrace cluster r gap).blocks = s.blocks := rfl
@[simp] theorem putTrace_groups : (s.putTrace cluster r gap).groups = s.groups := rfl
@[simp] theorem putTrace_results : (s.putTrace cluster r gap).results = s.results := rfl
@[simp] theorem putTrace_scw : (s.putTrace cluster r gap).scw = s.scw := rfl
@[simp] theorem putTrace_appends : (s.putTrace cluster r gap).appends = s.appends := rfl
@[simp] theorem putTrace_windows : (s.putTrace cluster r gap).windows = s.windows := rfl
@[simp] theorem putTrace_wbacks : (s.putTrace cluster r gap).wbacks = s.wbacks := rfl
@[simp] theorem putTrace_faults : (s.putTrace cluster r gap).faults = s.faults := rfl
@[simp] theorem putTrace_replay : (s.putTrace cluster r gap).replay = s.replay := rfl
@[simp] theorem putTrace_churn : (s.putTrace cluster r gap).churn = s.churn := rfl
@[simp] theorem putTrace_churnEnd : (s.putTrace cluster r gap).churnEnd = s.churnEnd := rfl
@[simp] theorem putTrace_frozen : (s.putTrace cluster r gap).frozen = s.frozen := rfl
@[simp] theorem putTrace_drains : (s.putTrace cluster r gap).drains = s.drains := rfl
@[simp] theorem putTrace_cards : (s.putTrace cluster r gap).cards = s.cards := rfl
@[simp] theorem putTrace_contribs : (s.putTrace cluster r gap).contribs = s.contribs := rfl
@[simp] theorem putTrace_spawnQ : (s.putTrace cluster r gap).spawnQ = s.spawnQ := rfl
@[simp] theorem putTrace_openG : (s.putTrace cluster r gap).openG = s.openG := rfl
@[simp] theorem putTrace_sealedG : (s.putTrace cluster r gap).sealedG = s.sealedG := rfl
@[simp] theorem putTrace_prereqs : (s.putTrace cluster r gap).prereqs = s.prereqs := rfl
@[simp] theorem putTrace_images : (s.putTrace cluster r gap).images = s.images := rfl
@[simp] theorem putTrace_dram : (s.putTrace cluster r gap).dram = s.dram := rfl
@[simp] theorem putTrace_scratch : (s.putTrace cluster r gap).scratch = s.scratch := rfl

@[simp] theorem traceEvent_cycle : (s.traceEvent ctx kind core slice cf name group pc detail).cycle = s.cycle := by unfold State.traceEvent; (repeat split) <;> simp
@[simp] theorem traceEvent_now : (s.traceEvent ctx kind core slice cf name group pc detail).now = s.now := by unfold State.traceEvent; (repeat split) <;> simp
@[simp] theorem traceEvent_fabricTime : (s.traceEvent ctx kind core slice cf name group pc detail).fabricTime = s.fabricTime := by unfold State.traceEvent; (repeat split) <;> simp
@[simp] theorem traceEvent_turn : (s.traceEvent ctx kind core slice cf name group pc detail).turn = s.turn := by unfold State.traceEvent; (repeat split) <;> simp
@[simp] theorem traceEvent_began : (s.traceEvent ctx kind core slice cf name group pc detail).began = s.began := by unfold State.traceEvent; (repeat split) <;> simp
@[simp] theorem traceEvent_splits : (s.traceEvent ctx kind core slice cf name group pc detail).splits = s.splits := by unfold State.traceEvent; (repeat split) <;> simp
@[simp] theorem traceEvent_refuse : (s.traceEvent ctx kind core slice cf name group pc detail).refuse = s.refuse := by unfold State.traceEvent; (repeat split) <;> simp
@[simp] theorem traceEvent_agenda : (s.traceEvent ctx kind core slice cf name group pc detail).agenda = s.agenda := by unfold State.traceEvent; (repeat split) <;> simp
@[simp] theorem traceEvent_fills : (s.traceEvent ctx kind core slice cf name group pc detail).fills = s.fills := by unfold State.traceEvent; (repeat split) <;> simp
@[simp] theorem traceEvent_nextId : (s.traceEvent ctx kind core slice cf name group pc detail).nextId = s.nextId := by unfold State.traceEvent; (repeat split) <;> simp
@[simp] theorem traceEvent_boot : (s.traceEvent ctx kind core slice cf name group pc detail).boot = s.boot := by unfold State.traceEvent; (repeat split) <;> simp
@[simp] theorem traceEvent_dev : (s.traceEvent ctx kind core slice cf name group pc detail).dev = s.dev := by unfold State.traceEvent; (repeat split) <;> simp
@[simp] theorem traceEvent_gatedDies : (s.traceEvent ctx kind core slice cf name group pc detail).gatedDies = s.gatedDies := by unfold State.traceEvent; (repeat split) <;> simp
@[simp] theorem traceEvent_gatedClusters : (s.traceEvent ctx kind core slice cf name group pc detail).gatedClusters = s.gatedClusters := by unfold State.traceEvent; (repeat split) <;> simp
@[simp] theorem traceEvent_gatings : (s.traceEvent ctx kind core slice cf name group pc detail).gatings = s.gatings := by unfold State.traceEvent; (repeat split) <;> simp
@[simp] theorem traceEvent_links : (s.traceEvent ctx kind core slice cf name group pc detail).links = s.links := by unfold State.traceEvent; (repeat split) <;> simp
@[simp] theorem traceEvent_linkLog : (s.traceEvent ctx kind core slice cf name group pc detail).linkLog = s.linkLog := by unfold State.traceEvent; (repeat split) <;> simp
@[simp] theorem traceEvent_broken : (s.traceEvent ctx kind core slice cf name group pc detail).broken = s.broken := by unfold State.traceEvent; (repeat split) <;> simp
@[simp] theorem traceEvent_rootPorts : (s.traceEvent ctx kind core slice cf name group pc detail).rootPorts = s.rootPorts := by unfold State.traceEvent; (repeat split) <;> simp
@[simp] theorem traceEvent_svnRaised : (s.traceEvent ctx kind core slice cf name group pc detail).svnRaised = s.svnRaised := by unfold State.traceEvent; (repeat split) <;> simp
@[simp] theorem traceEvent_measured : (s.traceEvent ctx kind core slice cf name group pc detail).measured = s.measured := by unfold State.traceEvent; (repeat split) <;> simp
@[simp] theorem traceEvent_weights : (s.traceEvent ctx kind core slice cf name group pc detail).weights = s.weights := by unfold State.traceEvent; (repeat split) <;> simp
@[simp] theorem traceEvent_perfs : (s.traceEvent ctx kind core slice cf name group pc detail).perfs = s.perfs := by unfold State.traceEvent; (repeat split) <;> simp
@[simp] theorem traceEvent_snaps : (s.traceEvent ctx kind core slice cf name group pc detail).snaps = s.snaps := by unfold State.traceEvent; (repeat split) <;> simp
@[simp] theorem traceEvent_ring : (s.traceEvent ctx kind core slice cf name group pc detail).ring = s.ring := by unfold State.traceEvent; (repeat split) <;> simp
@[simp] theorem traceEvent_lastCtx : (s.traceEvent ctx kind core slice cf name group pc detail).lastCtx = s.lastCtx := by unfold State.traceEvent; (repeat split) <;> simp
@[simp] theorem traceEvent_replies : (s.traceEvent ctx kind core slice cf name group pc detail).replies = s.replies := by unfold State.traceEvent; (repeat split) <;> simp
@[simp] theorem traceEvent_mctp : (s.traceEvent ctx kind core slice cf name group pc detail).mctp = s.mctp := by unfold State.traceEvent; (repeat split) <;> simp
@[simp] theorem traceEvent_reports : (s.traceEvent ctx kind core slice cf name group pc detail).reports = s.reports := by unfold State.traceEvent; (repeat split) <;> simp
@[simp] theorem traceEvent_slice : (s.traceEvent ctx kind core slice cf name group pc detail).slice = s.slice := by unfold State.traceEvent; (repeat split) <;> simp
@[simp] theorem traceEvent_parts : (s.traceEvent ctx kind core slice cf name group pc detail).parts = s.parts := by unfold State.traceEvent; (repeat split) <;> simp
@[simp] theorem traceEvent_ctxs : (s.traceEvent ctx kind core slice cf name group pc detail).ctxs = s.ctxs := by unfold State.traceEvent; (repeat split) <;> simp
@[simp] theorem traceEvent_active : (s.traceEvent ctx kind core slice cf name group pc detail).active = s.active := by unfold State.traceEvent; (repeat split) <;> simp
@[simp] theorem traceEvent_switches : (s.traceEvent ctx kind core slice cf name group pc detail).switches = s.switches := by unfold State.traceEvent; (repeat split) <;> simp
@[simp] theorem traceEvent_grids : (s.traceEvent ctx kind core slice cf name group pc detail).grids = s.grids := by unfold State.traceEvent; (repeat split) <;> simp
@[simp] theorem traceEvent_blocks : (s.traceEvent ctx kind core slice cf name group pc detail).blocks = s.blocks := by unfold State.traceEvent; (repeat split) <;> simp
@[simp] theorem traceEvent_groups : (s.traceEvent ctx kind core slice cf name group pc detail).groups = s.groups := by unfold State.traceEvent; (repeat split) <;> simp
@[simp] theorem traceEvent_results : (s.traceEvent ctx kind core slice cf name group pc detail).results = s.results := by unfold State.traceEvent; (repeat split) <;> simp
@[simp] theorem traceEvent_scw : (s.traceEvent ctx kind core slice cf name group pc detail).scw = s.scw := by unfold State.traceEvent; (repeat split) <;> simp
@[simp] theorem traceEvent_appends : (s.traceEvent ctx kind core slice cf name group pc detail).appends = s.appends := by unfold State.traceEvent; (repeat split) <;> simp
@[simp] theorem traceEvent_windows : (s.traceEvent ctx kind core slice cf name group pc detail).windows = s.windows := by unfold State.traceEvent; (repeat split) <;> simp
@[simp] theorem traceEvent_wbacks : (s.traceEvent ctx kind core slice cf name group pc detail).wbacks = s.wbacks := by unfold State.traceEvent; (repeat split) <;> simp
@[simp] theorem traceEvent_faults : (s.traceEvent ctx kind core slice cf name group pc detail).faults = s.faults := by unfold State.traceEvent; (repeat split) <;> simp
@[simp] theorem traceEvent_replay : (s.traceEvent ctx kind core slice cf name group pc detail).replay = s.replay := by unfold State.traceEvent; (repeat split) <;> simp
@[simp] theorem traceEvent_churn : (s.traceEvent ctx kind core slice cf name group pc detail).churn = s.churn := by unfold State.traceEvent; (repeat split) <;> simp
@[simp] theorem traceEvent_churnEnd : (s.traceEvent ctx kind core slice cf name group pc detail).churnEnd = s.churnEnd := by unfold State.traceEvent; (repeat split) <;> simp
@[simp] theorem traceEvent_frozen : (s.traceEvent ctx kind core slice cf name group pc detail).frozen = s.frozen := by unfold State.traceEvent; (repeat split) <;> simp
@[simp] theorem traceEvent_drains : (s.traceEvent ctx kind core slice cf name group pc detail).drains = s.drains := by unfold State.traceEvent; (repeat split) <;> simp
@[simp] theorem traceEvent_cards : (s.traceEvent ctx kind core slice cf name group pc detail).cards = s.cards := by unfold State.traceEvent; (repeat split) <;> simp
@[simp] theorem traceEvent_contribs : (s.traceEvent ctx kind core slice cf name group pc detail).contribs = s.contribs := by unfold State.traceEvent; (repeat split) <;> simp
@[simp] theorem traceEvent_spawnQ : (s.traceEvent ctx kind core slice cf name group pc detail).spawnQ = s.spawnQ := by unfold State.traceEvent; (repeat split) <;> simp
@[simp] theorem traceEvent_openG : (s.traceEvent ctx kind core slice cf name group pc detail).openG = s.openG := by unfold State.traceEvent; (repeat split) <;> simp
@[simp] theorem traceEvent_sealedG : (s.traceEvent ctx kind core slice cf name group pc detail).sealedG = s.sealedG := by unfold State.traceEvent; (repeat split) <;> simp
@[simp] theorem traceEvent_prereqs : (s.traceEvent ctx kind core slice cf name group pc detail).prereqs = s.prereqs := by unfold State.traceEvent; (repeat split) <;> simp
@[simp] theorem traceEvent_images : (s.traceEvent ctx kind core slice cf name group pc detail).images = s.images := by unfold State.traceEvent; (repeat split) <;> simp
@[simp] theorem traceEvent_dram : (s.traceEvent ctx kind core slice cf name group pc detail).dram = s.dram := by unfold State.traceEvent; (repeat split) <;> simp
@[simp] theorem traceEvent_scratch : (s.traceEvent ctx kind core slice cf name group pc detail).scratch = s.scratch := by unfold State.traceEvent; (repeat split) <;> simp

end

end Sys2Proof.Machine
end

