-- ==== Sys2Proof/Laws/Lookup.lean ====
section
/-! SUPPORT. Finding groups, blocks and contexts in a state that has been changed. -/

namespace Sys2Proof.Machine

open Sys2Proof

theorem find_replaceBy_same {α : Type} {p : α → Bool} {x y : α} {l : List α} (hl : l.find? p = some y) (hx : p x = true) :
    (replaceBy p x l).find? p = some x := by
  induction l with
  | nil => simp at hl
  | cons z rest ih =>
    rw [replaceBy]
    by_cases hz : p z
    · simp [hz, hx]
    · simp only [hz, Bool.false_eq_true, if_false, List.find?_cons_of_neg hz]
      rw [List.find?_cons_of_neg hz] at hl
      exact ih hl

theorem find_replaceBy_other {α : Type} {p q : α → Bool} {x : α} {l : List α} (hq : ∀ z, p z = true → q z = false)
    (hx : q x = false) : (replaceBy p x l).find? q = l.find? q := by
  induction l with
  | nil => rfl
  | cons z rest ih =>
    rw [replaceBy]
    by_cases hz : p z
    · simp [hz, hx, hq z hz]
    · simp only [hz, Bool.false_eq_true, if_false, List.find?_cons, ih]

theorem replaceBy_none {α : Type} {p : α → Bool} {x : α} {l : List α} (hl : l.find? p = none) : replaceBy p x l = l := by
  induction l with
  | nil => rfl
  | cons z rest ih =>
    by_cases hz : p z
    · simp [hz] at hl
    · rw [List.find?_cons_of_neg hz] at hl
      simp [replaceBy, hz, ih hl]

theorem replaceBy_self {α : Type} {p : α → Bool} {x : α} {l : List α} (hl : l.find? p = some x) : replaceBy p x l = l := by
  induction l with
  | nil => rfl
  | cons z rest ih =>
    by_cases hz : p z
    · rw [List.find?_cons_of_pos hz, Option.some.injEq] at hl
      subst hl; simp [replaceBy, hz]
    · rw [List.find?_cons_of_neg hz] at hl
      simp [replaceBy, hz, ih hl]

theorem group?_gid {s : State} {gid : Nat} {g : Group} (h : s.group? gid = some g) : g.gid = gid := by
  have := List.find?_some h
  simpa using this

theorem block?_bid {s : State} {bid : Nat} {b : Block} (h : s.block? bid = some b) : b.bid = bid := by
  have := List.find?_some h
  simpa using this

theorem ctx?_no {s : State} {no : Nat} {c : Ctx} (h : s.ctx? no = some c) : c.no = no := by
  have := List.find?_some h
  simpa using this

theorem group?_congr {s t : State} (h : t.groups = s.groups) (gid : Nat) : t.group? gid = s.group? gid := by
  unfold State.group?; rw [h]

theorem block?_congr {s t : State} (h : t.blocks = s.blocks) (bid : Nat) : t.block? bid = s.block? bid := by
  unfold State.block?; rw [h]

theorem ctx?_congr {s t : State} (h : t.ctxs = s.ctxs) (no : Nat) : t.ctx? no = s.ctx? no := by
  unfold State.ctx?; rw [h]

/-- What a group's name finds after it, or another, is replaced. -/
theorem group?_setGroup {s : State} {g g' : Group} {gid : Nat} (h : s.group? gid = some g) (hg : g'.gid = gid) :
    (s.setGroup g').group? gid = some g' := by
  subst hg
  exact find_replaceBy_same (p := fun (x : Group) => x.gid == g'.gid) h (by simp)

theorem group?_setGroup_ne {s : State} {g' : Group} {gid : Nat} (hg : g'.gid ≠ gid) :
    (s.setGroup g').group? gid = s.group? gid := by
  refine find_replaceBy_other (p := fun (x : Group) => x.gid == g'.gid) (q := fun (x : Group) => x.gid == gid) ?_ ?_
  · intro z hz
    simp only [beq_iff_eq] at hz
    simp [hz, hg]
  · simp [hg]

theorem block?_setBlock {s : State} {b b' : Block} {bid : Nat} (h : s.block? bid = some b) (hb : b'.bid = bid) :
    (s.setBlock b').block? bid = some b' := by
  subst hb
  exact find_replaceBy_same (p := fun (x : Block) => x.bid == b'.bid) h (by simp)

theorem block?_setBlock_ne {s : State} {b' : Block} {bid : Nat} (hb : b'.bid ≠ bid) :
    (s.setBlock b').block? bid = s.block? bid := by
  refine find_replaceBy_other (p := fun (x : Block) => x.bid == b'.bid) (q := fun (x : Block) => x.bid == bid) ?_ ?_
  · intro z hz
    simp only [beq_iff_eq] at hz
    simp [hz, hb]
  · simp [hb]

theorem ctx?_setCtx {s : State} {c c' : Ctx} {no : Nat} (h : s.ctx? no = some c) (hc : c'.no = no) :
    (s.setCtx c').ctx? no = some c' := by
  subst hc
  exact find_replaceBy_same (p := fun (x : Ctx) => x.no == c'.no) h (by simp)

theorem ctx?_setCtx_ne {s : State} {c' : Ctx} {no : Nat} (hc : c'.no ≠ no) :
    (s.setCtx c').ctx? no = s.ctx? no := by
  refine find_replaceBy_other (p := fun (x : Ctx) => x.no == c'.no) (q := fun (x : Ctx) => x.no == no) ?_ ?_
  · intro z hz
    simp only [beq_iff_eq] at hz
    simp [hz, hc]
  · simp [hc]

/-- A change that keeps a group's name is found under it. -/
theorem group?_modGroup {s : State} {f : Group → Group} {gid : Nat} (hf : ∀ g, (f g).gid = g.gid) :
    (s.modGroup gid f).group? gid = (s.group? gid).map f := by
  unfold State.modGroup
  cases h : s.group? gid with
  | none => simp [h]
  | some g => simp [group?_setGroup h ((hf g).trans (group?_gid h))]

theorem group?_modGroup_ne {s : State} {f : Group → Group} {gid h : Nat} (hf : ∀ g, (f g).gid = g.gid) (hne : h ≠ gid) :
    (s.modGroup gid f).group? h = s.group? h := by
  unfold State.modGroup
  cases hg : s.group? gid with
  | none => rfl
  | some g => exact group?_setGroup_ne (by rw [hf, group?_gid hg]; exact hne.symm)

theorem block?_modBlock {s : State} {f : Block → Block} {bid : Nat} (hf : ∀ b, (f b).bid = b.bid) :
    (s.modBlock bid f).block? bid = (s.block? bid).map f := by
  unfold State.modBlock
  cases h : s.block? bid with
  | none => simp [h]
  | some b => simp [block?_setBlock h ((hf b).trans (block?_bid h))]

theorem block?_modBlock_ne {s : State} {f : Block → Block} {bid h : Nat} (hf : ∀ b, (f b).bid = b.bid) (hne : h ≠ bid) :
    (s.modBlock bid f).block? h = s.block? h := by
  unfold State.modBlock
  cases hg : s.block? bid with
  | none => rfl
  | some b => exact block?_setBlock_ne (by rw [hf, block?_bid hg]; exact hne.symm)

theorem ctx?_modCtx {s : State} {f : Ctx → Ctx} {no : Nat} (hf : ∀ c, (f c).no = c.no) :
    (s.modCtx no f).ctx? no = (s.ctx? no).map f := by
  unfold State.modCtx
  cases h : s.ctx? no with
  | none => simp [h]
  | some c => simp [ctx?_setCtx h ((hf c).trans (ctx?_no h))]

theorem ctx?_modCtx_ne {s : State} {f : Ctx → Ctx} {no h : Nat} (hf : ∀ c, (f c).no = c.no) (hne : h ≠ no) :
    (s.modCtx no f).ctx? h = s.ctx? h := by
  unfold State.modCtx
  cases hg : s.ctx? no with
  | none => rfl
  | some c => exact ctx?_setCtx_ne (by rw [hf, ctx?_no hg]; exact hne.symm)

/-- Every group changed in the same way, its name kept. -/
theorem find_map_gid {l : List Group} {f : Group → Group} (hf : ∀ g, (f g).gid = g.gid) (gid : Nat) :
    (l.map f).find? (fun g => g.gid == gid) = (l.find? fun g => g.gid == gid).map f := by
  rw [List.find?_map]
  congr 1
  congr 1
  funext g
  simp [hf]

/-- A group put where it stands changes nothing. -/
theorem setGroup_self {s : State} {g : Group} (h : s.group? g.gid = some g) : s.setGroup g = s := by
  unfold State.group? at h
  unfold State.setGroup
  rw [replaceBy_self h]

theorem setBlock_self {s : State} {b : Block} (h : s.block? b.bid = some b) : s.setBlock b = s := by
  unfold State.block? at h
  unfold State.setBlock
  rw [replaceBy_self h]

theorem modGroup_eq {s : State} {gid : Nat} {g : Group} (hg : s.group? gid = some g) (f : Group → Group) :
    s.modGroup gid f = s.setGroup (f g) := by
  unfold State.modGroup; rw [hg]

theorem modBlock_eq {s : State} {bid : Nat} {b : Block} (hb : s.block? bid = some b) (f : Block → Block) :
    s.modBlock bid f = s.setBlock (f b) := by
  unfold State.modBlock; rw [hb]

theorem modCtx_eq {s : State} {no : Nat} {c : Ctx} (hc : s.ctx? no = some c) (f : Ctx → Ctx) :
    s.modCtx no f = s.setCtx (f c) := by
  unfold State.modCtx; rw [hc]

end Sys2Proof.Machine
end

