-- ==== Sys2Proof/Laws/Issue.lean ====
section
/-! SUPPORT. Everything an issue can do: the end of a turn, retirement, and what the attempt of a group by itself comes to. -/

namespace Sys2Proof.Machine

open Sys2Proof

/-! The end of a turn changes nothing but its books -/

theorem bare_gid {g g' : Group} (h : g'.bare = g.bare) : g'.gid = g.gid := by
  have := congrArg Group.gid h; exact this
theorem bare_spawned {g g' : Group} (h : g'.bare = g.bare) : g'.spawned = g.spawned := by
  have := congrArg Group.spawned h; exact this
theorem bare_bid {g g' : Group} (h : g'.bare = g.bare) : g'.bid = g.bid := by
  have := congrArg Group.bid h; exact this
theorem bare_num {g g' : Group} (h : g'.bare = g.bare) : g'.num = g.num := by
  have := congrArg Group.num h; exact this
theorem bare_regs {g g' : Group} (h : g'.bare = g.bare) : g'.regs = g.regs := by
  have := congrArg Group.regs h; exact this
theorem bare_pc {g g' : Group} (h : g'.bare = g.bare) : g'.pc = g.pc := by
  have := congrArg Group.pc h; exact this

theorem Booked.refl (s : State) : Booked s s := ⟨rfl, fun _ => rfl, rfl⟩

theorem Booked.trans {s t u : State} (h : Booked s t) (k : Booked t u) : Booked s u :=
  ⟨k.still.trans h.still, fun n => (k.groups n).trans (h.groups n), k.blocks.trans h.blocks⟩

/-- Fields the books do not show. -/
theorem Booked.of_groups {u t : State} (hs : t.still = u.still) (hg : t.groups = u.groups) (hb : t.blocks = u.blocks) :
    Booked u t := ⟨hs, fun h => by rw [group?_congr hg], hb⟩

theorem booked_modGroup {s : State} {gid : Nat} {f : Group → Group} (hf : ∀ g, (f g).bare = g.bare) :
    Booked s (s.modGroup gid f) := by
  have hid : ∀ g, (f g).gid = g.gid := fun g => bare_gid (hf g)
  refine ⟨by unfold State.modGroup; split <;> rfl, fun h => ?_, by simp⟩
  by_cases hh : h = gid
  · subst hh
    rw [group?_modGroup hid]
    cases s.group? h <;> simp [hf]
  · rw [group?_modGroup_ne hid hh]

theorem booked_foldl {α : Type} {step : State → α → State} (h : ∀ s a, Booked s (step s a)) (l : List α) (s : State) :
    Booked s (l.foldl step s) := by
  induction l generalizing s with
  | nil => exact Booked.refl s
  | cons a rest ih => exact (h s a).trans (ih _)

/-- Whether a group belongs to a fused quartet depends on its place in its block and on the block. -/
theorem fusedGroup_bare {s t : State} (hb : t.blocks = s.blocks) {g g' : Group} (hg : g'.bare = g.bare) :
    t.fusedGroup g' = s.fusedGroup g := by
  have h1 : g'.spawned = g.spawned := bare_spawned hg
  have h2 : g'.bid = g.bid := bare_bid hg
  have h3 : g'.num = g.num := bare_num hg
  unfold State.fusedGroup Group.quartet
  rw [h1, h2, h3, block?_congr hb]

/-- The end of a turn, with a first member that belongs to no fused quartet. -/
theorem booked_endTurn (s : State) (gid : Nat) (r : Bool)
    (hf : ∀ g, s.group? gid = some g → s.fusedGroup g = false) : Booked s (s.endTurn [gid] r) := by
  unfold State.endTurn
  cases hg : s.group? gid with
  | none => simpa [hg] using Booked.refl s
  | some g =>
    simp only [List.findSome?_cons, hg, hf g hg, Bool.false_eq_true, if_false]
    split
    · exact Booked.refl s
    · split
      · exact Booked.of_groups rfl rfl rfl
      · exact Booked.refl s

/-! Retirement -/

@[simp] theorem retired_gid (g : Group) (f : Fields) (w : DWord) (pc : Option VA) : (g.retired f w pc).gid = g.gid := rfl
@[simp] theorem retired_bid (g : Group) (f : Fields) (w : DWord) (pc : Option VA) : (g.retired f w pc).bid = g.bid := rfl
@[simp] theorem retired_regs (g : Group) (f : Fields) (w : DWord) (pc : Option VA) : (g.retired f w pc).regs = g.regs := rfl

/-- Retirement in u, with nothing else. -/
theorem retires_retire (u : State) (gid : Nat) (f : Fields) (pc : Option VA) : Retires u gid f pc (u.retire gid f pc) := by
  unfold State.retire
  cases hg : u.group? gid with
  | none =>
    exact ⟨rfl, by simp [hg], fun _ _ => rfl, by simp [hg], by simp [hg]⟩
  | some g =>
    have hgid := group?_gid hg
    have key : ∀ t : State, t.still = u.still → t.groups = (u.setGroup (g.retired f (u.weightOf f) pc)).groups →
        (∀ b, u.block? g.bid = some b → t.block? g.bid = some { b with retcnt := b.retcnt + 1 }) →
        (∀ bid, bid ≠ g.bid → t.block? bid = u.block? bid) → Retires u gid f pc t := by
      intro t h1 h2 h3 h4
      refine ⟨h1, ?_, ?_, ?_, ?_⟩
      · intro g' hg'
        rw [hg, Option.some.injEq] at hg'
        subst hg'
        refine ⟨_, ?_, rfl⟩
        rw [group?_congr h2, group?_setGroup hg (by simpa using hgid)]
      · intro h hne
        rw [group?_congr h2, group?_setGroup_ne (by simpa [hgid] using hne.symm)]
      · intro g' b hg' hb
        rw [hg, Option.some.injEq] at hg'
        subst hg'
        exact h3 b hb
      · intro g' bid hg' hne
        rw [hg, Option.some.injEq] at hg'
        subst hg'
        exact h4 bid hne
    simp only
    set v := (u.setGroup (g.retired f (u.weightOf f) pc)).modBlock g.bid fun b => { b with retcnt := b.retcnt + 1 } with hv
    have hstill : v.still = u.still := by rw [hv]; unfold State.modBlock; split <;> rfl
    have hgroups : v.groups = (u.setGroup (g.retired f (u.weightOf f) pc)).groups := by rw [hv]; simp
    have hblk : ∀ b, u.block? g.bid = some b → v.block? g.bid = some { b with retcnt := b.retcnt + 1 } := by
      intro b hb
      rw [hv, block?_modBlock (by intro; rfl), block?_congr (setGroup_blocks u _), hb]
      rfl
    have hblks : ∀ bid, bid ≠ g.bid → v.block? bid = u.block? bid := by
      intro bid hne
      rw [hv, block?_modBlock_ne (by intro; rfl) hne, block?_congr (setGroup_blocks u _)]
    cases hb : v.block? g.bid with
    | none => exact key v hstill hgroups hblk hblks
    | some b =>
      refine key _ ?_ ?_ ?_ ?_
      · exact hstill
      · simpa using hgroups
      · intro b' hb'; rw [block?_congr (count_blocks ..)]; exact hblk b' hb'
      · intro bid hne; rw [block?_congr (count_blocks ..)]; exact hblks bid hne

/-- Books kept after a retirement. -/
theorem Retires.booked {u t v : State} {gid : Nat} {f : Fields} {pc : Option VA} (h : Retires u gid f pc t) (k : Booked t v) :
    Retires u gid f pc v := by
  refine ⟨k.still.trans h.still, ?_, fun n hn => (k.groups n).trans (h.others n hn), ?_, ?_⟩
  · intro g hg
    obtain ⟨g', h1, h2⟩ := h.group g hg
    have := k.groups gid
    rw [h1] at this
    cases hv : v.group? gid with
    | none => simp [hv] at this
    | some g'' =>
      rw [hv] at this
      simp only [Option.map_some, Option.some.injEq] at this
      exact ⟨g'', rfl, this.trans h2⟩
  · intro g b hg hb; rw [block?_congr k.blocks]; exact h.block g b hg hb
  · intro g bid hg hne; rw [block?_congr k.blocks]; exact h.blocks g bid hg hne

/-! The attempt of a group by itself -/

theorem cx?_spec {s : State} {gid : Nat} {f : Fields} {x : Cx} (h : s.cx? gid f = some x) :
    x.s = s ∧ s.group? gid = some x.g ∧ s.block? x.g.bid = some x.b ∧ s.ctx? x.b.ctx = some x.c ∧ x.f = f ∧
      x.spec = specOf f ∧ x.act = if f.s then x.g.amask else x.g.amask &&& guardMask x.g f := by
  unfold State.cx? at h
  split at h
  · cases h
  · split at h
    · cases h
    · split at h
      · cases h
      · cases h
        exact ⟨rfl, by assumption, by assumption, by assumption, rfl, rfl, rfl⟩

/-- A group by itself: the next state is what its attempt's fate leaves, but for the books. -/
theorem issueWith_solo {f : Fields} {body : State → Nat → Fate} {s v : State} {it : TurnItem} {rest : List TurnItem}
    {g : Group} (ht : s.turn = it :: rest) (hg : s.group? it.gid = some g) (hf : s.fusedGroup g = false)
    (hv : s.settle it.gid f (body s it.gid) = v) (hfv : ∀ g', v.group? it.gid = some g' → v.fusedGroup g' = false) :
    ∃ t, issueWith f body s = .next t ∧ Booked v t := by
  have hgid := group?_gid hg
  have hmem : s.gangOf g = [it.gid] := by simp [State.gangOf, hf, hgid]
  have hissue : s.gangIssue f body [it.gid] = v := by
    rw [← hv]
    cases hb : body s it.gid <;>
      simp [State.gangIssue, State.gangWay, State.fates, hb, Fate.isHold, Fate.isStay, Fate.isTrap, State.settleAll, State.linger]
  have hfr : ∀ w : State, Booked v w → ∀ g', w.group? it.gid = some g' → w.fusedGroup g' = false := by
    intro w hw g' hg'
    have h1 := hw.groups it.gid
    rw [hg'] at h1
    cases hvg : v.group? it.gid with
    | none => simp [hvg] at h1
    | some g0 =>
      rw [hvg] at h1
      simp only [Option.map_some, Option.some.injEq] at h1
      exact (fusedGroup_bare hw.blocks h1).trans (hfv g0 hvg)
  have hran : Booked v ([it.gid].foldl (fun t m => match s.group? m with
        | some x => t.ran (sliceUnit x) (((s.block? x.bid).map (·.ctx)).getD allOnes32)
        | none => t) v) := by
    refine booked_foldl (fun v m => ?_) _ _
    split
    · exact Booked.of_groups rfl rfl rfl
    · exact Booked.refl _
  have hcnt : ∀ (w : State) (l : List Nat), Booked w (w.countIdle l) := by
    intro w l
    refine booked_foldl (fun v m => ?_) _ _
    split
    · split
      · exact Booked.of_groups rfl rfl rfl
      · exact Booked.refl _
    · exact Booked.refl _
  unfold issueWith
  simp only [ht, hg, hmem, State.fates, List.map_cons, List.map_nil, hissue, List.all_cons, List.all_nil, Bool.and_true]
  set w := (if (body s it.gid).isHold = true then v else _ : State) with hw
  have hbw : Booked v w := by
    rw [hw]
    split
    · exact Booked.refl _
    · exact hran
  have fin : ∀ w' : State, Booked w w' → ∀ r, Booked w (({ w' with turn := rest } : State).endTurn [it.gid] r) := by
    intro w' h' r
    have h2 : Booked w ({ w' with turn := rest } : State) := h'.trans (Booked.of_groups rfl rfl rfl)
    exact h2.trans (booked_endTurn _ _ _ (hfr _ (hbw.trans h2)))
  split
  · refine ⟨_, rfl, hbw.trans ?_⟩
    split
    · exact fin _ (hcnt w _) _
    · exact fin _ (Booked.refl w) _
  · exact ⟨_, rfl, hbw.trans (Booked.of_groups rfl rfl rfl)⟩

theorem Solo.spec {s : State} {f : Fields} {x : Cx} (h : Solo s f x) :
    x.s = s ∧ s.group? x.g.gid = some x.g ∧ s.block? x.g.bid = some x.b ∧ s.ctx? x.b.ctx = some x.c ∧ x.f = f ∧
      x.spec = specOf f ∧ x.act = if f.s then x.g.amask else x.g.amask &&& guardMask x.g f := by
  obtain ⟨it, rest, -, hcx⟩ := h.head
  have := cx?_spec hcx
  rwa [group?_gid this.2.1]

/-- The meaning of an instruction in a group by itself: what the fate of its attempt leaves. -/
theorem issue_solo {f : Fields} {pre : Cx → Option Fate} {body : Cx → Fate} {s v : State} {x : Cx} (h : Solo s f x)
    (hv : s.settle x.g.gid f (x.gate pre body) = v)
    (hfv : ∀ g', v.group? x.g.gid = some g' → v.fusedGroup g' = false) :
    ∃ t, issue f pre body s = .next t ∧ Booked v t := by
  obtain ⟨it, rest, ht, hcx⟩ := h.head
  obtain ⟨-, hg, -⟩ := cx?_spec hcx
  rw [group?_gid hg] at hv hfv
  refine issueWith_solo ht hg h.alone ?_ hfv
  unfold attempt
  rw [hcx]
  exact hv

/-- Retirement keeps what tells whether a group belongs to a fused quartet. -/
theorem fusedGroup_retire {u : State} {gid : Nat} {f : Fields} {pc : Option VA}
    (hu : ∀ g, u.group? gid = some g → u.fusedGroup g = false) (g' : Group)
    (hg' : (u.retire gid f pc).group? gid = some g') : (u.retire gid f pc).fusedGroup g' = false := by
  have hret := retires_retire u gid f pc
  cases hug : u.group? gid with
  | none =>
    have : u.retire gid f pc = u := by simp [State.retire, hug]
    rw [this] at hg' ⊢
    exact hu g' hg'
  | some g0 =>
    obtain ⟨g1, h1, h2⟩ := hret.group g0 hug
    rw [hg', Option.some.injEq] at h1
    subst h1
    have hf0 := hu g0 hug
    have e1 : g'.spawned = g0.spawned := (bare_spawned h2).trans rfl
    have e2 : g'.bid = g0.bid := (bare_bid h2).trans rfl
    have e3 : g'.num = g0.num := (bare_num h2).trans rfl
    unfold State.fusedGroup Group.quartet at hf0 ⊢
    rw [e1, e2, e3]
    have hh : (u.retire gid f pc).block? g0.bid = (u.block? g0.bid).map fun b => { b with retcnt := b.retcnt + 1 } := by
      unfold State.retire
      simp only [hug]
      split <;>
      · first
        | rw [block?_congr (count_blocks ..)]
        | skip
        rw [block?_modBlock (by intro; rfl), block?_congr (setGroup_blocks u _)]
    rw [hh]
    cases hbk : u.block? g0.bid with
    | none => simp
    | some b => rw [hbk] at hf0; exact hf0

/-- An attempt that retires: the state its effect leaves, the retirement, the books. -/
theorem issue_done {f : Fields} {pre : Cx → Option Fate} {body : Cx → Fate} {s u : State} {x : Cx} {pc : Option VA} {e : Bool}
    (h : Solo s f x) (hx : x.gate pre body = .done u pc e)
    (hu : ∀ g', u.group? x.g.gid = some g' → u.fusedGroup g' = false) :
    ∃ t, issue f pre body s = .next t ∧ Retires u x.g.gid f pc t := by
  obtain ⟨t, h1, h2⟩ := issue_solo h (v := u.retire x.g.gid f pc) (by rw [hx]; rfl) (fusedGroup_retire hu)
  exact ⟨t, h1, (retires_retire _ _ _ _).booked h2⟩

/-- An instruction that acts passes the gate. -/
theorem gate_pre {x : Cx} (h : x.Acts) {pre : Cx → Option Fate} (hp : pre x = none) (body : Cx → Fate) :
    x.gate pre body = body x := by
  simp [Cx.gate, h.guard, hp, h.full, h.free]

theorem gate_acts {x : Cx} (h : x.Acts) (body : Cx → Fate) : x.gate noPre body = body x := gate_pre h rfl body

end Sys2Proof.Machine
end

