-- ==== Sys2Proof/Laws/Sparse.lean ====
section
/-! SUPPORT. Sparse maps and memory: what a read after a write gives, and that every operation keeps the canonical form. -/

namespace Sys2Proof.Machine

open Sys2Proof

section
variable {β : Type} {d x : β} {m : Sparse β} {n k : Nat}

theorem Sparse.get_insert : Sparse.get d (Sparse.insert n x m) k = if k = n then x else Sparse.get d m k := by
  induction m with
  | nil => simp [Sparse.insert, Sparse.get, eq_comm]
  | cons e rest ih =>
    obtain ⟨a, y⟩ := e
    rw [Sparse.insert]
    split
    · rename_i h
      by_cases hk : k = n
      · subst hk; simp [Sparse.get]
      · simp [Sparse.get, Ne.symm hk, hk]
    · split
      · rename_i h1 h2
        subst h2
        by_cases hk : k = a
        · subst hk; simp [Sparse.get]
        · simp [Sparse.get, Ne.symm hk, hk]
      · rename_i h1 h2
        simp only [Sparse.get, ih]
        by_cases hk : k = n
        · subst hk; simp [h2]
        · simp [hk]

theorem Sparse.get_filter_ne : Sparse.get d (m.filter fun e => e.1 ≠ n) k = if k = n then d else Sparse.get d m k := by
  induction m with
  | nil => simp [Sparse.get]
  | cons e rest ih =>
    obtain ⟨a, y⟩ := e
    by_cases ha : a = n
    · subst ha
      rw [List.filter_cons_of_neg (by simp)]
      rw [ih]
      by_cases hk : k = a
      · simp [hk]
      · simp [hk, Sparse.get, Ne.symm hk]
    · rw [List.filter_cons_of_pos (by simpa using ha)]
      simp only [Sparse.get, ih]
      by_cases hk : k = n
      · subst hk; simp [ha]
      · simp [hk]

variable [DecidableEq β]

/-- A read after a write: the value written at its key, what was there before at every other. -/
theorem Sparse.get_put : Sparse.get d (Sparse.put d m n x) k = if k = n then x else Sparse.get d m k := by
  unfold Sparse.put
  split
  · rename_i h; subst h; exact Sparse.get_filter_ne
  · exact Sparse.get_insert

@[simp] theorem Sparse.get_put_same : Sparse.get d (Sparse.put d m n x) n = x := by simp [Sparse.get_put]

theorem Sparse.get_put_ne (h : k ≠ n) : Sparse.get d (Sparse.put d m n x) k = Sparse.get d m k := by simp [Sparse.get_put, h]

/-- A canonical map starts above a bound exactly when it is canonical and its first key is above the bound. -/
theorem Sparse.wfFrom_weaken {b : Nat} {c : Option Nat} (h : Sparse.wfFrom d (some b) m = true)
    (hc : ∀ n, c = some n → n ≤ b) : Sparse.wfFrom d c m = true := by
  cases m with
  | nil => rfl
  | cons e rest =>
    obtain ⟨a, y⟩ := e
    simp only [Sparse.wfFrom, Bool.and_eq_true, decide_eq_true_eq] at h ⊢
    refine ⟨⟨?_, h.1.2⟩, h.2⟩
    cases c with
    | none => rfl
    | some n => have := hc n rfl; simp; omega

theorem Sparse.wfFrom_filter {b : Option Nat} {p : Nat × β → Bool} (h : Sparse.wfFrom d b m = true) :
    Sparse.wfFrom d b (m.filter p) = true := by
  induction m generalizing b with
  | nil => rfl
  | cons e rest ih =>
    obtain ⟨a, y⟩ := e
    simp only [Sparse.wfFrom, Bool.and_eq_true] at h
    by_cases hp : p (a, y)
    · rw [List.filter_cons_of_pos hp]
      simp only [Sparse.wfFrom, Bool.and_eq_true]
      exact ⟨h.1, ih h.2⟩
    · rw [List.filter_cons_of_neg hp]
      refine ih (Sparse.wfFrom_weaken h.2 ?_)
      intro n hn
      subst hn
      have := h.1.1
      simp at this
      omega

theorem Sparse.wfFrom_insert {b : Option Nat} (h : Sparse.wfFrom d b m = true) (hx : x ≠ d)
    (hb : ∀ c, b = some c → c < n) : Sparse.wfFrom d b (Sparse.insert n x m) = true := by
  induction m generalizing b with
  | nil =>
    cases b with
    | none => simp [Sparse.insert, Sparse.wfFrom, hx]
    | some c => simp [Sparse.insert, Sparse.wfFrom, hx, hb c rfl]
  | cons e rest ih =>
    obtain ⟨a, y⟩ := e
    have h' := h
    simp only [Sparse.wfFrom, Bool.and_eq_true, decide_eq_true_eq] at h'
    rw [Sparse.insert]
    split
    · rename_i hn
      have h2 : Sparse.wfFrom d (some n) ((a, y) :: rest) = true := by
        simp [Sparse.wfFrom, h'.1.2, h'.2, hn]
      cases b with
      | none => simp [Sparse.wfFrom, hx, h'.1.2, h'.2, hn]
      | some c => simp [Sparse.wfFrom, hx, hb c rfl, h'.1.2, h'.2, hn]
    · split
      · rename_i h1 h2
        subst h2
        simp only [Sparse.wfFrom, Bool.and_eq_true, decide_eq_true_eq]
        exact ⟨⟨h'.1.1, hx⟩, h'.2⟩
      · rename_i h1 h2
        simp only [Sparse.wfFrom, Bool.and_eq_true, decide_eq_true_eq]
        refine ⟨h'.1, ih h'.2 ?_⟩
        intro c hc
        cases hc
        omega

/-- Every write keeps the canonical form. -/
theorem Sparse.wf_put (h : Sparse.wf d m = true) : Sparse.wf d (Sparse.put d m n x) = true := by
  unfold Sparse.put
  split
  · exact Sparse.wfFrom_filter h
  · rename_i hx
    exact Sparse.wfFrom_insert h hx (by simp)

theorem Sparse.wf_filter {p : Nat × β → Bool} (h : Sparse.wf d m = true) : Sparse.wf d (m.filter p) = true :=
  Sparse.wfFrom_filter h

end

/-! Memory -/

@[simp] theorem Memory.read_write_same (m : Memory) (a : Nat) (b : Byte) : (m.write a b).read a = b :=
  Sparse.get_put_same

theorem Memory.read_write_ne (m : Memory) {a c : Nat} (b : Byte) (h : c ≠ a) : (m.write a b).read c = m.read c :=
  Sparse.get_put_ne h

theorem Memory.wf_write {m : Memory} (h : m.wf = true) (a : Nat) (b : Byte) : (m.write a b).wf = true := Sparse.wf_put h

theorem Memory.wf_writeN {m : Memory} (h : m.wf = true) (a n x : Nat) : (m.writeN a n x).wf = true := by
  induction n generalizing m a x with
  | zero => exact h
  | succ n ih => exact ih (Memory.wf_write h a _) _ _

theorem Memory.wf_writeList {m : Memory} (h : m.wf = true) (a : Nat) (l : List Byte) : (m.writeList a l).wf = true := by
  induction l generalizing m a with
  | nil => exact h
  | cons b rest ih => exact ih (Memory.wf_write h a b) _

/-- A store of n bytes leaves every byte outside them as it was. -/
theorem Memory.read_writeN_outside {m : Memory} {a n x c : Nat} (h : c < a ∨ a + n ≤ c) :
    (m.writeN a n x).read c = m.read c := by
  induction n generalizing m a x with
  | zero => rfl
  | succ n ih =>
    rw [Memory.writeN, ih (by omega), Memory.read_write_ne _ _ (by omega)]

theorem Memory.read_writeList_outside {m : Memory} {a c : Nat} {l : List Byte} (h : c < a ∨ a + l.length ≤ c) :
    (m.writeList a l).read c = m.read c := by
  induction l generalizing m a with
  | nil => rfl
  | cons b rest ih =>
    simp only [List.length_cons] at h
    rw [Memory.writeList, ih (by omega), Memory.read_write_ne _ _ (by omega)]

theorem Memory.readN_congr {m m' : Memory} {a n : Nat} (h : ∀ c, a ≤ c → c < a + n → m'.read c = m.read c) :
    m'.readN a n = m.readN a n := by
  induction n generalizing a with
  | zero => rfl
  | succ n ih =>
    simp only [Memory.readN]
    rw [h a (by omega) (by omega), ih (fun c h1 h2 => h c (by omega) (by omega))]

/-- n bytes read back after they are stored give the number's low n bytes. -/
theorem Memory.readN_writeN (m : Memory) (a n x : Nat) : (m.writeN a n x).readN a n = x % 256 ^ n := by
  induction n generalizing m a x with
  | zero => simp [Memory.readN, Nat.mod_one]
  | succ n ih =>
    simp only [Memory.readN, Memory.writeN]
    rw [ih, Memory.read_writeN_outside (by omega), Memory.read_write_same, BitVec.toNat_ofNat,
      show 256 ^ (n + 1) = 256 * 256 ^ n from Nat.pow_succ', Nat.mod_mul]

theorem Memory.readN_writeN_apart {m : Memory} {a n x c k : Nat} (h : c + k ≤ a ∨ a + n ≤ c) :
    (m.writeN a n x).readN c k = m.readN c k :=
  Memory.readN_congr fun _ _ _ => Memory.read_writeN_outside (by omega)

theorem Memory.readN_lt (m : Memory) (a n : Nat) : m.readN a n < 256 ^ n := by
  induction n generalizing a with
  | zero => simp [Memory.readN]
  | succ n ih =>
    have h1 := ih (a + 1)
    have h2 := (m.read a).isLt
    rw [Memory.readN, Nat.pow_succ]
    omega

end Sys2Proof.Machine
end

