-- ==== Sys2Proof/Laws/Registers.lean ====
section
/-! SUPPORT. Registers read after they are written. -/

namespace Sys2Proof.Machine

open Sys2Proof

theorem vKey_inj {r r' t t' : Nat} (ht : t < 32) (ht' : t' < 32) : vKey r t = vKey r' t' ↔ r = r' ∧ t = t' := by
  unfold vKey
  constructor
  · intro h; omega
  · rintro ⟨rfl, rfl⟩; rfl

theorem vget_vset {g : Group} {r r' t t' : Nat} {x : Word} (ht : t < 32) (ht' : t' < 32) :
    (g.vset r t x).vget r' t' = if r' = r ∧ t' = t then x else g.vget r' t' := by
  unfold Group.vget Group.vset
  simp only [Sparse.get_put, vKey_inj ht' ht]

@[simp] theorem sget_vset (g : Group) (r t : Nat) (x : Word) (q : Nat) : (g.vset r t x).sget q = g.sget q := rfl
@[simp] theorem kget_vset (g : Group) (r t : Nat) (x : Word) (q : Nat) : (g.vset r t x).kget q = g.kget q := rfl

theorem sget_sset {g : Group} {r r' : Nat} {x : Word} :
    (g.sset r x).sget r' = if r' = r then x else g.sget r' := by
  unfold Group.sget Group.sset
  simp only [Sparse.get_put]

@[simp] theorem vget_sset (g : Group) (r : Nat) (x : Word) (q t : Nat) : (g.sset r x).vget q t = g.vget q t := rfl
@[simp] theorem kget_sset (g : Group) (r : Nat) (x : Word) (q : Nat) : (g.sset r x).kget q = g.kget q := rfl

/-- k0 keeps reading as all ones (R12). -/
theorem kget_kset {g : Group} {r r' : Nat} {x : Word} :
    (g.kset r x).kget r' = if r' = r ∧ r' ≠ 0 then x else g.kget r' := by
  unfold Group.kset Group.kget
  by_cases hr : r = 0
  · subst hr
    by_cases h0 : r' = 0 <;> simp [h0]
  · simp only [hr, if_false, Sparse.get_put]
    by_cases h0 : r' = 0
    · subst h0; simp
    · by_cases h1 : r' = r <;> simp [h0, h1, hr]

@[simp] theorem vget_kset (g : Group) (r : Nat) (x : Word) (q t : Nat) : (g.kset r x).vget q t = g.vget q t := by
  unfold Group.kset; split <;> rfl
@[simp] theorem sget_kset (g : Group) (r : Nat) (x : Word) (q : Nat) : (g.kset r x).sget q = g.sget q := by
  unfold Group.kset; split <;> rfl

/-! Runs -/

theorem vget_vsetRun {ws : List Word} {g : Group} {r0 r t u : Nat} (ht : t < 32) (hu : u < 32) :
    (g.vsetRun r0 t ws).vget r u = if u = t ∧ r0 ≤ r then (ws[r - r0]?).getD (g.vget r u) else g.vget r u := by
  induction ws generalizing g r0 with
  | nil => simp [Group.vsetRun]
  | cons w ws ih =>
    rw [Group.vsetRun, ih, vget_vset ht hu]
    by_cases h1 : u = t
    · subst h1
      by_cases h2 : r0 + 1 ≤ r
      · have h3 : r0 ≤ r := by omega
        have h4 : r ≠ r0 := by omega
        obtain ⟨j, hj⟩ : ∃ j, r - r0 = j + 1 := ⟨r - r0 - 1, by omega⟩
        have h5 : r - (r0 + 1) = j := by omega
        simp [h2, h3, h4, hj, h5]
      · by_cases h3 : r = r0
        · subst h3; simp
        · have h4 : ¬ r0 ≤ r := by omega
          simp [h2, h3, h4]
    · simp [h1]

@[simp] theorem sget_vsetRun (ws : List Word) (g : Group) (r t q : Nat) : (g.vsetRun r t ws).sget q = g.sget q := by
  induction ws generalizing g r with
  | nil => rfl
  | cons w ws ih => rw [Group.vsetRun, ih, sget_vset]

@[simp] theorem kget_vsetRun (ws : List Word) (g : Group) (r t q : Nat) : (g.vsetRun r t ws).kget q = g.kget q := by
  induction ws generalizing g r with
  | nil => rfl
  | cons w ws ih => rw [Group.vsetRun, ih, kget_vset]

theorem sget_ssetRun {ws : List Word} {g : Group} {r0 r : Nat} :
    (g.ssetRun r0 ws).sget r = if r0 ≤ r then (ws[r - r0]?).getD (g.sget r) else g.sget r := by
  induction ws generalizing g r0 with
  | nil => simp [Group.ssetRun]
  | cons w ws ih =>
    rw [Group.ssetRun, ih, sget_sset]
    by_cases h2 : r0 + 1 ≤ r
    · have h3 : r0 ≤ r := by omega
      have h4 : r ≠ r0 := by omega
      obtain ⟨j, hj⟩ : ∃ j, r - r0 = j + 1 := ⟨r - r0 - 1, by omega⟩
      have h5 : r - (r0 + 1) = j := by omega
      simp [h2, h3, h4, hj, h5]
    · by_cases h3 : r = r0
      · subst h3; simp
      · have h4 : ¬ r0 ≤ r := by omega
        simp [h2, h3, h4]

@[simp] theorem vget_ssetRun (ws : List Word) (g : Group) (r q t : Nat) : (g.ssetRun r ws).vget q t = g.vget q t := by
  induction ws generalizing g r with
  | nil => rfl
  | cons w ws ih => rw [Group.ssetRun, ih, vget_sset]

@[simp] theorem kget_ssetRun (ws : List Word) (g : Group) (r q : Nat) : (g.ssetRun r ws).kget q = g.kget q := by
  induction ws generalizing g r with
  | nil => rfl
  | cons w ws ih => rw [Group.ssetRun, ih, kget_sset]

/-- A group of which only the contents of registers differ. -/
def Group.RegsOnly (g g' : Group) : Prop :=
  g' = { g with regs := { g.regs with v := g'.regs.v, s := g'.regs.s, k := g'.regs.k } }

theorem Group.RegsOnly.refl (g : Group) : g.RegsOnly g := rfl
theorem Group.RegsOnly.trans {a b c : Group} (h : a.RegsOnly b) (k : b.RegsOnly c) : a.RegsOnly c := by
  unfold Group.RegsOnly at *
  rw [k, h]

theorem regsOnly_vsetRun (ws : List Word) (g : Group) (r t : Nat) : g.RegsOnly (g.vsetRun r t ws) := by
  induction ws generalizing g r with
  | nil => rfl
  | cons w ws ih => exact Group.RegsOnly.trans (b := g.vset r t w) rfl (ih _ _)

theorem regsOnly_ssetRun (ws : List Word) (g : Group) (r : Nat) : g.RegsOnly (g.ssetRun r ws) := by
  induction ws generalizing g r with
  | nil => rfl
  | cons w ws ih => exact Group.RegsOnly.trans (b := g.sset r w) rfl (ih _ _)

theorem regsOnly_kset (g : Group) (r : Nat) (x : Word) : g.RegsOnly (g.kset r x) := by
  unfold Group.kset; split <;> rfl

theorem regsOnly_writeDst (g : Group) (dst : BitVec 9) (t : Nat) (ws : List Word) : g.RegsOnly (g.writeDst dst t ws) := by
  unfold Group.writeDst
  split
  · exact regsOnly_vsetRun ..
  · exact regsOnly_ssetRun ..
  · exact regsOnly_kset ..
  · rfl

theorem regsOnly_writeShares (dst : BitVec 9) (ps : List Share) (g : Group) :
    g.RegsOnly (ps.foldl (fun g p => g.writeDst dst p.t p.words) g) := by
  induction ps generalizing g with
  | nil => rfl
  | cons p ps ih => exact (regsOnly_writeDst g dst p.t p.words).trans (ih _)

/-- Every thread's share written to the destination: what each register then holds. -/
theorem wrote_shares {dst : BitVec 9} {ps : List Share} {g : Group} (hd : (ps.map (·.t)).Nodup) (ht : ∀ p ∈ ps, p.t < 32) :
    Wrote (Src.of dst) ps g (ps.foldl (fun g p => g.writeDst dst p.t p.words) g) := by
  refine ⟨regsOnly_writeShares dst ps g, ?_, ?_, ?_, ?_, ?_, ?_⟩
  · intro r0 hdst r t h32
    induction ps generalizing g with
    | nil => simp [shareWord]
    | cons p ps ih =>
      have hd' := List.nodup_cons.mp hd
      have hp := ht p (by simp)
      have hps := ih (g := g.writeDst dst p.t p.words) hd'.2 fun q hq => ht q (by simp [hq])
      rw [List.foldl_cons, hps]
      unfold Group.writeDst
      simp only [hdst]
      rw [vget_vsetRun hp h32]
      by_cases h0 : r0.val ≤ r
      · by_cases h1 : t = p.t
        · subst h1
          have : ps.find? (fun q => q.t == p.t) = none := by
            rw [List.find?_eq_none]
            intro q hq
            simp only [beq_iff_eq]
            intro he
            exact hd'.1 (List.mem_map.mpr ⟨q, hq, he⟩)
          simp [shareWord, h0, this]
        · have h2 : (p.t == t) = false := by simp [Ne.symm h1]
          simp [shareWord, h0, h1, h2]
      · simp [h0]
  · intro hdst r t
    induction ps generalizing g with
    | nil => rfl
    | cons p ps ih =>
      rw [List.foldl_cons, ih (List.nodup_cons.mp hd).2 fun q hq => ht q (by simp [hq])]
      unfold Group.writeDst
      cases h : Src.of dst <;> simp
      exact absurd h (hdst _)
  · rintro r0 p hdst rfl r
    simp only [List.foldl_cons, List.foldl_nil, Group.writeDst, hdst, sget_ssetRun]
  · intro hdst r
    induction ps generalizing g with
    | nil => rfl
    | cons p ps ih =>
      rw [List.foldl_cons, ih (List.nodup_cons.mp hd).2 fun q hq => ht q (by simp [hq])]
      unfold Group.writeDst
      cases h : Src.of dst <;> simp
      exact absurd h (hdst _)
  · rintro r0 p hdst rfl r
    simp only [List.foldl_cons, List.foldl_nil, Group.writeDst, hdst, kget_kset]
  · intro hdst r
    induction ps generalizing g with
    | nil => rfl
    | cons p ps ih =>
      rw [List.foldl_cons, ih (List.nodup_cons.mp hd).2 fun q hq => ht q (by simp [hq])]
      unfold Group.writeDst
      cases h : Src.of dst <;> simp
      exact absurd h (hdst _)

end Sys2Proof.Machine
end

