-- ==== Sys2Proof/Laws/Shares.lean ====
section
/-! SUPPORT. Instructions that are their threads' shares: what the threads are, and what the group's attempt leaves. -/

namespace Sys2Proof.Machine

open Sys2Proof

/-- Retirement over states that agree on what it looks at. -/
theorem Retires.congr {u u' t : State} {gid : Nat} {f : Fields} {pc : Option VA} (h : Retires u gid f pc t)
    (hs : u'.still = u.still) (hg : ∀ n, u'.group? n = u.group? n) (hb : ∀ n, u'.block? n = u.block? n) :
    Retires u' gid f pc t := by
  have hw : u'.weightOf f = u.weightOf f := by
    have := congrArg State.weights hs
    unfold State.weightOf
    rw [show u'.weights = u.weights from this]
  refine ⟨h.still.trans hs.symm, ?_, fun n hn => by rw [hg]; exact h.others n hn, ?_, ?_⟩
  · intro g h1; rw [hg] at h1; rw [hw]; exact h.group g h1
  · intro g b h1 h2; rw [hg] at h1; rw [hb] at h2; exact h.block g b h1 h2
  · intro g bid h1 h2; rw [hg] at h1; rw [hb]; exact h.blocks g bid h1 h2

theorem threads_nodup (m : Mask) : (Mask.threads m).Nodup := List.Nodup.filter _ (List.nodup_range)

theorem threads_lt {m : Mask} {t : Nat} (h : t ∈ Mask.threads m) : t < 32 := by
  unfold Mask.threads at h
  simpa using (List.mem_filter.mp h).1

theorem each_nodup (x : Cx) : x.each.Nodup := by
  unfold Cx.each Cx.threads; split
  · simp
  · exact threads_nodup _

theorem each_lt {x : Cx} {t : Nat} (h : t ∈ x.each) : t < 32 := by
  unfold Cx.each Cx.threads at h; split at h
  · simp only [List.mem_singleton] at h; omega
  · exact threads_lt h

theorem sharesOf_threads {x : Cx} {one : Nat → Draw → Share × Draw} (h1 : ∀ t dr, (one t dr).1.t = t) (l : List Nat)
    (dr : Draw) : (sharesOf x one l dr).1.map (·.t) = l := by
  induction l generalizing dr with
  | nil => rfl
  | cons t ts ih =>
    simp only [sharesOf, List.map_cons, h1, ih]

theorem writeShares_gid (dst : BitVec 9) (ps : List Share) (g : Group) :
    (ps.foldl (fun g p => g.writeDst dst p.t p.words) g).gid = g.gid := by
  have := regsOnly_writeShares dst ps g
  unfold Group.RegsOnly at this
  rw [this]

theorem commit_gid (g : Group) (l : List (Nat × DWord)) (q : List (Nat × Word)) : (g.commit l q).gid = g.gid := by
  have h1 : ∀ (l : List (Nat × DWord)) (g : Group),
      (l.foldl (fun (g : Group) e => { g with qp := Sparse.put 0 g.qp e.1 e.2 }) g).gid = g.gid := by
    intro l
    induction l with
    | nil => intro g; rfl
    | cons e l ih => intro g; rw [List.foldl_cons, ih]
  have h2 : ∀ (q : List (Nat × Word)) (g : Group), (g.setQstat q).gid = g.gid := by
    intro q
    induction q with
    | nil => intro g; rfl
    | cons e q ih => intro g; unfold Group.setQstat at *; rw [List.foldl_cons, ih]
  unfold Group.commit
  rw [h2, h1]

/-- A state that differs from another in its groups and its counts at most. -/
structure GroupsOnly (s u : State) : Prop where
  still : u.still = s.still
  blocks : u.blocks = s.blocks

theorem GroupsOnly.refl (s : State) : GroupsOnly s s := ⟨rfl, rfl⟩
theorem GroupsOnly.trans {s t u : State} (h : GroupsOnly s t) (k : GroupsOnly t u) : GroupsOnly s u :=
  ⟨k.still.trans h.still, k.blocks.trans h.blocks⟩
theorem groupsOnly_modGroup (s : State) (n : Nat) (f : Group → Group) : GroupsOnly s (s.modGroup n f) :=
  ⟨by unfold State.modGroup; split <;> rfl, by simp⟩
theorem groupsOnly_setGroup (s : State) (g : Group) : GroupsOnly s (s.setGroup g) := ⟨rfl, rfl⟩
theorem groupsOnly_count (s : State) (core event ctx n : Nat) : GroupsOnly s (s.count core event ctx n) := ⟨rfl, rfl⟩

theorem causesOf_map (ps : List Share) :
    (ps.map fun p => (p.t, p.causes)).foldl (fun (m : Causes) e => m ||| e.2) 0 = causesOf ps := by
  unfold causesOf
  rw [List.foldl_map]

theorem and_or_zero {n : Nat} {a b c : BitVec n} (h : a &&& (b ||| c) = 0) : a &&& b = 0 ∧ a &&& c = 0 := by
  have h' : ∀ i, (a.getLsbD i && (b.getLsbD i || c.getLsbD i)) = false := by
    intro i
    have := congrArg (fun v => v.getLsbD i) h
    simpa using this
  refine ⟨?_, ?_⟩ <;>
  · apply BitVec.eq_of_getLsbD_eq
    intro i _
    have := h' i
    simp only [BitVec.getLsbD_and, BitVec.ofNat_eq_ofNat, BitVec.getLsbD_zero]
    cases ha : a.getLsbD i <;> cases hb : b.getLsbD i <;> cases hc : c.getLsbD i <;> simp_all

theorem group?_modGroup_any {s : State} {f : Group → Group} {gid n : Nat} (hf : ∀ g, (f g).gid = g.gid) :
    (s.modGroup gid f).group? n = if n = gid then (s.group? n).map f else s.group? n := by
  split
  · rename_i h; subst h; exact group?_modGroup hf
  · rename_i h; exact group?_modGroup_ne hf h

/-- The sticky bits of an instruction whose exceptions are none of them set to log or trap. -/
theorem raiseFp_plain {x : Cx} {ps : List Share} (hr : x.namesRej = false)
    (hq : causesOf ps &&& (fpLogged x.c.ctl.fpctl ||| fpTrapped x.c.ctl.fpctl) = 0) (s : State) :
    GroupsOnly s (s.raiseFp x (ps.map fun p => (p.t, p.causes))) ∧
      ∀ n, (s.raiseFp x (ps.map fun p => (p.t, p.causes))).group? n = if n = x.g.gid then
        (s.group? n).map fun g => { g with fpstat := g.fpstat ||| (causesOf ps).zeroExtend 32 } else s.group? n := by
  have h1 := (and_or_zero hq).1
  unfold State.raiseFp
  simp only [causesOf_map, hr, Bool.false_eq_true, if_false]
  unfold State.logFp
  simp only [show causesOf ps &&& (fpLogged x.c.ctl.fpctl ||| (0 : Causes)) = 0 by simpa using h1, if_true]
  split
  · rename_i h0
    refine ⟨GroupsOnly.refl s, fun n => ?_⟩
    rw [h0]
    split
    · cases s.group? n <;> simp
    · rfl
  · exact ⟨groupsOnly_modGroup .., fun n => group?_modGroup_any fun _ => rfl⟩

theorem commitDraws_group (s : State) (x : Cx) (dr : Draw) :
    GroupsOnly s (s.commitDraws x dr) ∧ ∀ n, (s.commitDraws x dr).group? n = if n = x.g.gid then
      (s.group? n).map fun g => g.commit dr.pos dr.qstat else s.group? n := by
  unfold State.commitDraws
  split
  · rename_i h
    simp only [Bool.and_eq_true, List.isEmpty_iff] at h
    refine ⟨GroupsOnly.refl s, fun n => ?_⟩
    rw [h.1, h.2]
    split
    · cases s.group? n <;> rfl
    · rfl
  · refine ⟨(groupsOnly_modGroup ..).trans (groupsOnly_count ..), fun n => ?_⟩
    rw [group?_congr (count_groups ..)]
    exact group?_modGroup_any fun g => commit_gid g _ _

/-- A group with an instruction's draws committed, its exceptions set and its destination written. -/
def Group.finished (g : Group) (dst : BitVec 9) (ps : List Share) (dr : Draw) : Group :=
  ps.foldl (fun g p => g.writeDst dst p.t p.words)
    (({ g with fpstat := g.fpstat ||| (causesOf ps).zeroExtend 32 } : Group).commit dr.pos dr.qstat)

/-- Everything an instruction of this shape does that names no REJ register and raises no cause set to log or trap. -/
theorem finish_plain {x : Cx} {ps : List Share} {dr : Draw} (hx : x.s.group? x.g.gid = some x.g) (hr : x.namesRej = false)
    (hq : causesOf ps &&& (fpLogged x.c.ctl.fpctl ||| fpTrapped x.c.ctl.fpctl) = 0) :
    ∃ u, x.finish ps dr = .done u none false ∧ GroupsOnly x.s u ∧
      ∀ n, u.group? n = if n = x.g.gid then some (x.g.finished x.f.dst ps dr) else x.s.group? n := by
  obtain ⟨r1, r2⟩ := raiseFp_plain hr hq x.s
  obtain ⟨c1, c2⟩ := commitDraws_group (x.s.raiseFp x (ps.map fun p => (p.t, p.causes))) x dr
  refine ⟨((x.s.raiseFp x (ps.map fun p => (p.t, p.causes))).commitDraws x dr).modGroup x.g.gid
    fun g => ps.foldl (fun g p => g.writeDst x.f.dst p.t p.words) g, ?_, ?_, ?_⟩
  · unfold Cx.finish Cx.fpTrap
    simp only [hr, Bool.false_and, Bool.false_eq_true, if_false, causesOf_map, (and_or_zero hq).2, beq_self_eq_true, Bool.or_true,
      if_true]
  · exact (r1.trans c1).trans (groupsOnly_modGroup ..)
  · intro n
    rw [group?_modGroup_any fun g => writeShares_gid _ _ g, c2, r2]
    split
    · rename_i h; subst h; rw [hx]; rfl
    · rfl

theorem commit_only (g : Group) (l : List (Nat × DWord)) (q : List (Nat × Word)) :
    g.commit l q = { g with qp := (g.commit l q).qp, qstat := (g.commit l q).qstat } := by
  have h1 : ∀ (l : List (Nat × DWord)) (g : Group), ∃ y,
      l.foldl (fun (g : Group) e => { g with qp := Sparse.put 0 g.qp e.1 e.2 }) g = { g with qp := y } := by
    intro l
    induction l with
    | nil => intro g; exact ⟨g.qp, rfl⟩
    | cons e l ih =>
      intro g
      obtain ⟨y, hy⟩ := ih { g with qp := Sparse.put 0 g.qp e.1 e.2 }
      exact ⟨y, by rw [List.foldl_cons, hy]⟩
  have h2 : ∀ (q : List (Nat × Word)) (g : Group), ∃ y, g.setQstat q = { g with qstat := y } := by
    intro q
    induction q with
    | nil => intro g; exact ⟨g.qstat, rfl⟩
    | cons e q ih =>
      intro g
      obtain ⟨y, hy⟩ := ih { g with qstat := Sparse.put 0 g.qstat e.1 (Sparse.get 0 g.qstat e.1 ||| e.2) }
      refine ⟨y, ?_⟩
      unfold Group.setQstat at *
      rw [List.foldl_cons, hy]
  unfold Group.commit
  obtain ⟨y, hy⟩ := h1 l g
  rw [hy]
  obtain ⟨z, hz⟩ := h2 q { g with qp := y }
  rw [hz]

theorem finished_only (g : Group) (dst : BitVec 9) (ps : List Share) (dr : Draw) :
    ∃ a b c d, g.finished dst ps dr = { g with regs := a, fpstat := b, qp := c, qstat := d } := by
  unfold Group.finished
  have h1 := regsOnly_writeShares dst ps (({ g with fpstat := g.fpstat ||| (causesOf ps).zeroExtend 32 } : Group).commit dr.pos dr.qstat)
  unfold Group.RegsOnly at h1
  rw [h1, commit_only]
  exact ⟨_, _, _, _, rfl⟩

/-- A group replaced by one at its place in a state whose blocks are what they were. -/
theorem fusedGroup_same {s u : State} (hb : u.blocks = s.blocks) {g g' : Group} (h1 : g'.spawned = g.spawned)
    (h2 : g'.bid = g.bid) (h3 : g'.num = g.num) : u.fusedGroup g' = s.fusedGroup g := by
  unfold State.fusedGroup Group.quartet
  rw [h1, h2, h3, block?_congr hb]

/-- An instruction that is its threads' shares, in a group by itself. -/
theorem sharesBody_done {f : Fields} {one : Cx → Nat → Draw → Share × Draw} {s : State} {x : Cx} (h : Solo s f x)
    (ha : x.Acts) (hr : x.namesRej = false)
    (hq : causesOf (sharesOf x (one x) x.each Draw.start).1 &&& (fpLogged x.c.ctl.fpctl ||| fpTrapped x.c.ctl.fpctl) = 0) :
    ∃ t, issue f noPre (sharesBody one) s = .next t ∧
      Retires (s.setGroup (x.g.finished f.dst (sharesOf x (one x) x.each Draw.start).1
        (sharesOf x (one x) x.each Draw.start).2)) x.g.gid f none t := by
  obtain ⟨hs, hg, hb, hc, hf, -, -⟩ := h.spec
  obtain ⟨u, hu, hgo, hgr⟩ := finish_plain (dr := (sharesOf x (one x) x.each Draw.start).2) (by rw [hs]; exact hg) hr hq
  obtain ⟨a, b, c, d, hfin⟩ := finished_only x.g f.dst (sharesOf x (one x) x.each Draw.start).1
    (sharesOf x (one x) x.each Draw.start).2
  rw [hf, hfin] at hgr
  obtain ⟨t, ht, hret⟩ := issue_done h (pre := noPre) (body := sharesBody one) (u := u) (pc := none) (e := false)
    (by rw [gate_acts ha]; exact hu) (by
      intro g' hg'
      rw [hgr] at hg'
      simp only [if_true, Option.some.injEq] at hg'
      subst hg'
      exact (fusedGroup_same (s := s) (by rw [hgo.blocks, hs]) rfl rfl rfl).trans h.alone)
  refine ⟨t, ht, hret.congr ?_ ?_ ?_⟩
  · rw [hgo.still, hs]; rfl
  · intro n
    rw [hgr, hfin]
    split
    · rename_i h1; subst h1; exact group?_setGroup hg rfl
    · rename_i h1; rw [hs]; exact group?_setGroup_ne (Ne.symm h1)
  · intro n
    exact (block?_congr (s := s) rfl n).trans (block?_congr (by rw [hgo.blocks, hs]) n).symm

end Sys2Proof.Machine
end

