-- ==== Sys2Proof/Laws/Traps.lean ====
section
/-! SUPPORT. Entering the handler, and the attempts that trap, are held back or stay in issue. -/

namespace Sys2Proof.Machine

open Sys2Proof

/-- What tells a group from others and to which quartet it belongs. -/
structure Group.Same (g g' : Group) : Prop where
  gid : g'.gid = g.gid
  bid : g'.bid = g.bid
  spawned : g'.spawned = g.spawned
  num : g'.num = g.num

theorem Group.Same.trans {a b c : Group} (h : a.Same b) (k : b.Same c) : a.Same c :=
  ⟨k.gid.trans h.gid, k.bid.trans h.bid, k.spawned.trans h.spawned, k.num.trans h.num⟩

theorem putS_only (l : List (Nat × Word)) (g : Group) :
    g.putS l = { g with regs := { g.regs with s := (g.putS l).regs.s, se := (g.putS l).regs.se } } := by
  induction l generalizing g with
  | nil => rfl
  | cons e l ih =>
    have : g.putS (e :: l) = ((g.sset e.1 e.2).smark e.1 false).putS l := rfl
    rw [this, ih]
    rfl

theorem enter_same (g : Group) (h : VA) (r : TrapRec) (q : List TrapRec) : g.Same (g.enter h r q) := by
  unfold Group.enter
  rw [putS_only]
  exact ⟨rfl, rfl, rfl, rfl⟩

theorem await_same (g : Group) (k : Nat) : g.Same (g.await k) := by
  unfold Group.await; split <;> exact ⟨rfl, rfl, rfl, rfl⟩

theorem loseTag_same (g : Group) : g.Same g.loseTag := by
  unfold Group.loseTag
  split
  · split <;> exact ⟨rfl, rfl, rfl, rfl⟩
  · exact ⟨rfl, rfl, rfl, rfl⟩

theorem loseTag_handler (g : Group) : g.loseTag.handler = g.handler := by
  unfold Group.loseTag
  split
  · split <;> rfl
  · rfl

/-- A halt touches the partitions only. -/
theorem halt_groups (s : State) (die : Nat) (c : BitVec 8) (u : StopUnit) (a : Nat) : (s.halt die c u a).groups = s.groups := by
  unfold State.halt; split
  · split <;> rfl
  · rfl

theorem halt_blocks (s : State) (die : Nat) (c : BitVec 8) (u : StopUnit) (a : Nat) : (s.halt die c u a).blocks = s.blocks := by
  unfold State.halt; split
  · split <;> rfl
  · rfl

/-- Delivery changes the group it is for, and beside it counts and traces, or it halts the partition. -/
theorem deliver_groups (s : State) (g : Group) (r : TrapRec) (q : List TrapRec) :
    (s.deliver g r q).groups = s.groups ∨ ∃ h, (s.deliver g r q).groups = (s.setGroup (g.loseTag.enter h r q)).groups := by
  unfold State.deliver
  split
  · exact .inl rfl
  · split
    · exact .inl rfl
    · split
      · exact .inl (halt_groups ..)
      · exact .inr ⟨_, by rw [traceEvent_groups, count_groups]⟩

theorem deliver_blocks (s : State) (g : Group) (r : TrapRec) (q : List TrapRec) : (s.deliver g r q).blocks = s.blocks := by
  unfold State.deliver
  split
  · rfl
  · split
    · rfl
    · split
      · exact halt_blocks ..
      · simp

theorem takeTrap_groups (s : State) (g : Group) (r : TrapRec) :
    (s.takeTrap g r).groups = s.groups ∨ ∃ h, (s.takeTrap g r).groups = (s.setGroup (g.loseTag.enter h r [])).groups := by
  unfold State.takeTrap
  split
  · exact .inl (halt_groups ..)
  · exact deliver_groups ..

theorem takeTrap_blocks (s : State) (g : Group) (r : TrapRec) : (s.takeTrap g r).blocks = s.blocks := by
  unfold State.takeTrap
  split
  · exact halt_blocks ..
  · exact deliver_blocks ..

/-- A group found after a trap is taken belongs to the quartet it belonged to. -/
theorem fusedGroup_takeTrap {s : State} {g g' : Group} {r : TrapRec} (hg : s.group? g.gid = some g) (hs : g.Same g')
    (ha : s.fusedGroup g = false) (h : Group) (hh : (s.takeTrap g' r).group? g.gid = some h) :
    (s.takeTrap g' r).fusedGroup h = false := by
  have hb := takeTrap_blocks s g' r
  rcases takeTrap_groups s g' r with h1 | ⟨e, h1⟩
  · rw [group?_congr h1, hg, Option.some.injEq] at hh
    subst hh
    exact (fusedGroup_same hb rfl rfl rfl).trans ha
  · have k : g.Same (g'.loseTag.enter e r []) := (hs.trans (loseTag_same g')).trans (enter_same ..)
    rw [group?_congr h1, group?_setGroup hg k.gid, Option.some.injEq] at hh
    subst hh
    exact (fusedGroup_same hb k.spawned k.bid k.num).trans ha

/-- Everything entry to a handler does to the group (R31, R288): registers of the bank hold the record, and it stands at the
handler with the rest of its state as it was. -/
theorem takeTrap_enters {s : State} {g0 g : Group} {b : Block} {c : Ctx} {r : TrapRec} (hg : s.group? g.gid = some g0)
    (hb : s.block? g.bid = some b) (hc : s.ctx? b.ctx = some c) (hh : g.handler = none) (he : c.ctl.hentry ≠ 0) :
    (s.takeTrap g r).group? g.gid = some (g.loseTag.enter c.ctl.hentry r []) := by
  unfold State.takeTrap State.deliver
  simp only [hh, hb, hc, he, if_false]
  rw [group?_congr (traceEvent_groups ..), group?_congr (count_groups ..)]
  exact group?_setGroup hg ((enter_same ..).gid.trans (loseTag_same g).gid)

/-! What a trap does beside it: sampling counts its instruction (R357), and the group holds no tile (R184) -/

theorem sampleTick_groups (s : State) (c : Ctx) (g : Group) (m : Mask) : (s.sampleTick c g m).2.groups = s.groups := by
  unfold State.sampleTick; split
  · rfl
  · simp
theorem sampleTick_blocks (s : State) (c : Ctx) (g : Group) (m : Mask) : (s.sampleTick c g m).2.blocks = s.blocks := by
  unfold State.sampleTick; split
  · rfl
  · simp

theorem sampleTrap_groups (s : State) (gid : Nat) (f : Fields) : (s.sampleTrap gid f).groups = s.groups := by
  unfold State.sampleTrap; split
  · split
    · rfl
    · exact sampleTick_groups ..
  · rfl
theorem sampleTrap_blocks (s : State) (gid : Nat) (f : Fields) : (s.sampleTrap gid f).blocks = s.blocks := by
  unfold State.sampleTrap; split
  · split
    · rfl
    · exact sampleTick_blocks ..
  · rfl

/-- The state in which a trap of a group's instruction is taken. -/
abbrev State.trapping (s : State) (gid : Nat) (f : Fields) : State := (s.sampleTrap gid f).unhold gid

theorem trapping_groups (s : State) (gid : Nat) (f : Fields) : (s.trapping gid f).groups = s.groups := sampleTrap_groups ..
theorem trapping_blocks (s : State) (gid : Nat) (f : Fields) : (s.trapping gid f).blocks = s.blocks := sampleTrap_blocks ..

/-! Attempts that do not retire -/

theorem issue_trap {i : Instr} {f : Fields} {pre : Cx → Option Fate} {body : Cx → Fate} {s : State} {x : Cx}
    {cause : BitVec 8} {detail : Nat} {lanes : Mask} (he : exec i s = issue f pre body s) (h : Solo s f x)
    (hx : x.gate pre body = .trap cause detail lanes) : Traps i s x cause detail lanes := by
  obtain ⟨-, hg, -, -, hf, -⟩ := h.spec
  unfold Traps
  rw [he, hf]
  refine issue_solo h (by rw [hx]; unfold State.settle; simp only [hg]; rfl) ?_
  intro g' hg'
  refine fusedGroup_takeTrap (s := s.trapping x.g.gid f) (g := x.g)
    (g' := { x.g with stay := false, stayDone := false, reissue := false })
    ((group?_congr (trapping_groups ..) _).trans hg) ⟨rfl, rfl, rfl, rfl⟩ ?_ g' hg'
  exact (fusedGroup_same (trapping_blocks ..) rfl rfl rfl).trans h.alone

theorem issue_hold {i : Instr} {f : Fields} {pre : Cx → Option Fate} {body : Cx → Fate} {s : State} {x : Cx}
    (he : exec i s = issue f pre body s) (h : Solo s f x) (hx : x.gate pre body = .hold) :
    HoldsBack i s x (waitKind f false) := by
  obtain ⟨-, hg, -⟩ := h.spec
  unfold HoldsBack
  rw [he]
  refine issue_solo h (by rw [hx]; unfold State.settle State.modGroup; simp only [hg, h.alone]) ?_
  intro g' hg'
  rw [group?_setGroup hg (await_same ..).gid, Option.some.injEq] at hg'
  subst hg'
  exact (fusedGroup_same rfl (await_same ..).spawned (await_same ..).bid (await_same ..).num).trans h.alone

theorem issue_stay {i : Instr} {f : Fields} {pre : Cx → Option Fate} {body : Cx → Fate} {s u : State} {x : Cx}
    (he : exec i s = issue f pre body s) (h : Solo s f x) (hx : x.gate pre body = .stay u)
    (hu : ∀ g', u.group? x.g.gid = some g' → u.fusedGroup g' = false) : Stays i s u x.g.gid := by
  unfold Stays
  rw [he]
  refine issue_solo h (by rw [hx]; rfl) ?_
  intro g' hg'
  have hf : ∀ g : Group, (g.stayFrom u.cycle).gid = g.gid := fun g => (await_same g 2).gid
  rw [group?_modGroup hf] at hg'
  cases hgu : u.group? x.g.gid with
  | none => simp [hgu] at hg'
  | some g0 =>
    rw [hgu, Option.map_some, Option.some.injEq] at hg'
    subst hg'
    exact (fusedGroup_same (by simp) (await_same g0 2).spawned (await_same g0 2).bid (await_same g0 2).num).trans (hu g0 hgu)

/-- Completion from what the attempt's effect leaves. -/
theorem issue_completes {i : Instr} {f : Fields} {pre : Cx → Option Fate} {body : Cx → Fate} {s u v : State} {x : Cx}
    {pc : Option VA} {e : Bool} (he : exec i s = issue f pre body s) (h : Solo s f x) (hx : x.gate pre body = .done u pc e)
    (hv : v = u) (hu : ∀ g', u.group? x.g.gid = some g' → u.fusedGroup g' = false) : Completes i s v x.g.gid f pc := by
  subst hv
  unfold Completes
  rw [he]
  exact issue_done h hx hu

/-- Completion whose effect is on the group alone. -/
theorem issue_group {i : Instr} {f : Fields} {pre : Cx → Option Fate} {body : Cx → Fate} {s u : State} {x : Cx} {g : Group}
    {pc : Option VA} {e : Bool} (he : exec i s = issue f pre body s) (h : Solo s f x) (hx : x.gate pre body = .done u pc e)
    (hu : u = s.modGroup x.g.gid fun _ => g) (hs : x.g.Same g) : Completes i s (s.setGroup g) x.g.gid f pc := by
  obtain ⟨-, hg, -⟩ := h.spec
  refine issue_completes he h hx (by rw [hu]; unfold State.modGroup; rw [hg]) ?_
  intro g' hg'
  subst hu
  unfold State.modGroup at hg' ⊢
  simp only [hg] at hg' ⊢
  rw [group?_setGroup hg hs.gid, Option.some.injEq] at hg'
  subst hg'
  exact (fusedGroup_same rfl hs.spawned hs.bid hs.num).trans h.alone

end Sys2Proof.Machine
end

