-- ==== Sys2Proof/Laws/Kept.lean ====
section
/-! SUPPORT. Updates that leave which group belongs to which quartet, and which quartets are fused, and the completion that
follows for an attempt whose effect is made of them. -/

namespace Sys2Proof.Machine

open Sys2Proof

theorem Group.Same.refl (g : Group) : g.Same g := ⟨rfl, rfl, rfl, rfl⟩

/-- u has the groups that s has, each in its place, and the same quartets fused. -/
structure Kept (s u : State) : Prop where
  group : ∀ n g', u.group? n = some g' → ∃ g, s.group? n = some g ∧ g.Same g'
  stays : ∀ n, (u.group? n).isSome = (s.group? n).isSome
  fused : ∀ bid, (u.block? bid).map (·.fused) = (s.block? bid).map (·.fused)

theorem Kept.refl (s : State) : Kept s s := ⟨fun _ g h => ⟨g, h, .refl g⟩, fun _ => rfl, fun _ => rfl⟩

theorem Kept.trans {s t u : State} (h : Kept s t) (k : Kept t u) : Kept s u := by
  refine ⟨fun n g' hg' => ?_, fun n => (k.stays n).trans (h.stays n), fun bid => (k.fused bid).trans (h.fused bid)⟩
  obtain ⟨g1, h1, e1⟩ := k.group n g' hg'
  obtain ⟨g0, h0, e0⟩ := h.group n g1 h1
  exact ⟨g0, h0, e0.trans e1⟩

/-- Updates of other fields. -/
theorem Kept.of_eq {s u : State} (hg : u.groups = s.groups) (hb : u.blocks = s.blocks) : Kept s u :=
  ⟨fun n g h => ⟨g, by rwa [group?_congr hg] at h, .refl g⟩, fun n => by rw [group?_congr hg], fun bid => by rw [block?_congr hb]⟩

theorem kept_modGroup {s : State} {gid : Nat} {f : Group → Group} (hf : ∀ g : Group, g.Same (f g)) :
    Kept s (s.modGroup gid f) := by
  have hid : ∀ g, (f g).gid = g.gid := fun g => (hf g).gid
  refine ⟨fun n g' h => ?_, fun n => by rw [group?_modGroup_any hid]; split <;> simp,
    fun bid => by rw [block?_congr (modGroup_blocks ..)]⟩
  rw [group?_modGroup_any hid] at h
  split at h
  · cases hs : s.group? n with
    | none => simp [hs] at h
    | some g =>
      rw [hs, Option.map_some, Option.some.injEq] at h
      exact ⟨g, rfl, h ▸ hf g⟩
  · exact ⟨g', h, .refl g'⟩

theorem kept_setGroup {s : State} {g g0 : Group} (h0 : s.group? g.gid = some g0) (h : g0.Same g) : Kept s (s.setGroup g) := by
  refine ⟨fun n g' hg' => ?_, fun n => ?_, fun bid => by rw [block?_congr (setGroup_blocks ..)]⟩
  rotate_left
  · by_cases hn : n = g.gid
    · subst hn
      rw [group?_setGroup h0 rfl, h0]; rfl
    · rw [group?_setGroup_ne (Ne.symm hn)]
  by_cases hn : n = g.gid
  · subst hn
    rw [group?_setGroup h0 rfl, Option.some.injEq] at hg'
    exact ⟨g0, h0, hg' ▸ h⟩
  · rw [group?_setGroup_ne (Ne.symm hn)] at hg'
    exact ⟨g', hg', .refl g'⟩

theorem kept_modBlock {s : State} {bid : Nat} {f : Block → Block} (hi : ∀ b, (f b).bid = b.bid)
    (hf : ∀ b, (f b).fused = b.fused) : Kept s (s.modBlock bid f) := by
  refine ⟨fun n g h => ⟨g, by rwa [group?_congr (modBlock_groups ..)] at h, .refl g⟩,
    fun n => by rw [group?_congr (modBlock_groups ..)], fun b => ?_⟩
  by_cases hb : b = bid
  · subst hb
    rw [block?_modBlock hi]
    cases s.block? b <;> simp [hf]
  · rw [block?_modBlock_ne hi hb]

theorem kept_setBlock {s : State} {b b0 : Block} (h0 : s.block? b.bid = some b0) (hf : b.fused = b0.fused) :
    Kept s (s.setBlock b) := by
  refine ⟨fun n g h => ⟨g, by rwa [group?_congr (setBlock_groups ..)] at h, .refl g⟩,
    fun n => by rw [group?_congr (setBlock_groups ..)], fun c => ?_⟩
  by_cases hc : c = b.bid
  · subst hc
    rw [block?_setBlock h0 rfl, h0]
    simp [hf]
  · rw [block?_setBlock_ne (Ne.symm hc)]

theorem Kept.foldl {α : Type} {step : State → α → State} (h : ∀ s a, Kept s (step s a)) (l : List α) (s : State) :
    Kept s (l.foldl step s) := by
  induction l generalizing s with
  | nil => exact .refl s
  | cons a rest ih => exact (h s a).trans (ih _)

/-- A group found after such an update. -/
theorem Kept.find {s u : State} (h : Kept s u) {n : Nat} {g : Group} (hg : s.group? n = some g) :
    ∃ g', u.group? n = some g' ∧ g.Same g' := by
  have h1 := h.stays n
  rw [hg, Option.isSome_some, Option.isSome_iff_exists] at h1
  obtain ⟨g', h2⟩ := h1
  obtain ⟨g0, h3, e⟩ := h.group n g' h2
  rw [hg, Option.some.injEq] at h3
  exact ⟨g', h2, h3 ▸ e⟩

theorem Kept.alone {s u : State} (h : Kept s u) {g g' : Group} (hg : s.group? g.gid = some g) (ha : s.fusedGroup g = false)
    (hg' : u.group? g.gid = some g') : u.fusedGroup g' = false := by
  obtain ⟨g0, h0, e⟩ := h.group _ g' hg'
  rw [hg, Option.some.injEq] at h0
  subst h0
  have hb := h.fused g.bid
  unfold State.fusedGroup Group.quartet at ha ⊢
  rw [e.spawned, e.bid, e.num]
  cases h1 : u.block? g.bid <;> cases h2 : s.block? g.bid <;> simp_all

/-- A result in flight marks registers empty. -/
theorem markEmpty_same (ws : List RegW) (g : Group) : g.Same (g.markEmpty ws) := by
  unfold Group.markEmpty
  induction ws generalizing g with
  | nil => exact .refl g
  | cons w ws ih =>
    rw [List.foldl_cons]
    refine Group.Same.trans ?_ (ih _)
    split <;> exact ⟨rfl, rfl, rfl, rfl⟩

theorem kept_putResult (s : State) (x : Cx) (kind : ResultKind) (ws : List RegW) (slots : List (Nat × DWord)) (words : Nat)
    (q : List (Nat × Word)) (c : List (Nat × Causes)) (tagged : Bool) : Kept s (s.putResult x kind ws slots words q c tagged) := by
  unfold State.putResult
  have h1 : Kept s s.fresh.2 := .of_eq rfl rfl
  have h2 := h1.trans (kept_modGroup (gid := x.g.gid) fun g => markEmpty_same ws g)
  exact h2.trans (.of_eq rfl rfl)

theorem kept_unhold (s : State) (gid : Nat) : Kept s (s.unhold gid) := .of_eq rfl rfl

theorem kept_sampleTick (s : State) (c : Ctx) (g : Group) (m : Mask) : Kept s (s.sampleTick c g m).2 :=
  .of_eq (sampleTick_groups ..) (sampleTick_blocks ..)

theorem kept_sample (s : State) (x : Cx) (spc : Space) (a : Nat → Int) : Kept s (s.sample x spc a) := by
  unfold State.sample
  split
  · exact .refl s
  · dsimp only
    split
    · exact (kept_sampleTick ..).trans (kept_modGroup fun g => ⟨rfl, rfl, rfl, rfl⟩)
    · exact kept_sampleTick ..

theorem kept_sampleDone (s : State) (x : Cx) (spc : Space) : Kept s (s.sampleDone x spc) := by
  unfold State.sampleDone
  refine kept_modGroup fun g => ?_
  split
  · split <;> exact ⟨rfl, rfl, rfl, rfl⟩
  · exact .refl g

theorem setQstat_same (g : Group) (q : List (Nat × Word)) : g.Same (g.setQstat q) := by
  show g.Same (g.commit [] q)
  rw [commit_only]
  exact ⟨rfl, rfl, rfl, rfl⟩

theorem kept_commitNone (s : State) (x : Cx) (dr : Draw) : Kept s (s.commitNone x dr) := kept_modGroup fun g => setQstat_same ..

theorem kept_ordered (s : State) (x : Cx) (o : Ord) : Kept s (s.ordered x o) := by
  unfold State.ordered
  split
  · exact .refl s
  · dsimp only
    split <;> split <;> exact .of_eq rfl rfl

theorem kept_commitDraws (s : State) (x : Cx) (dr : Draw) : Kept s (s.commitDraws x dr) := by
  unfold State.commitDraws
  split
  · exact .refl s
  · exact (kept_modGroup fun g => ⟨by rw [commit_only], by rw [commit_only], by rw [commit_only], by rw [commit_only]⟩).trans
      (.of_eq rfl rfl)

theorem kept_setTile (s : State) (t : TileRef) (v : WTile) : Kept s (s.setTile t v) := by
  refine .of_eq ?_ ?_ <;>
  · unfold State.setTile
    split <;> rfl

theorem kept_touch (s : State) (t : TileRef) : Kept s (s.touch t) :=
  Kept.trans (t := s.fresh.2) (.of_eq rfl rfl) (kept_setTile ..)

theorem kept_touchAll (s : State) (ts : List TileRef) : Kept s (s.touchAll ts) := by
  unfold State.touchAll
  refine Kept.foldl (fun s r => ?_) ts s
  split
  · exact kept_touch s r
  · exact .refl s

theorem kept_applyTile (s : State) (t : TileRef) (es : List HodEntry) : Kept s (s.applyTile t es) := by
  unfold State.applyTile
  exact (kept_setTile ..).trans (kept_touch ..)

theorem kept_appendSample (s : State) (a : Append) (f : Smpl → Smpl) : Kept s (s.appendSample a f) := by
  unfold State.appendSample
  split
  · exact .refl s
  · exact kept_modGroup fun g => ⟨rfl, rfl, rfl, rfl⟩

theorem kept_applyAppend (s : State) (a : Append) : Kept s (s.applyAppend a) := by
  unfold State.applyAppend
  exact Kept.trans (t := { s with appends := s.appends.filter fun b => b.aid != a.aid }) (.of_eq rfl rfl)
    ((kept_unhold ..).trans ((kept_applyTile ..).trans (kept_appendSample ..)))

theorem kept_flushTile (s : State) (core : Nat) (t : TileRef) : Kept s (s.flushTile core t) := by
  unfold State.flushTile
  exact Kept.foldl kept_applyAppend _ s

theorem kept_flushSc (s : State) (core a n : Nat) : Kept s (s.flushSc core a n) := by
  unfold State.flushSc
  split <;> exact .of_eq rfl rfl

theorem kept_flushOps (s : State) (core a n : Nat) : Kept s (s.flushOps core a n) := by
  unfold State.flushOps
  split <;> exact .of_eq rfl rfl

/-- Pending operations performed before a load (R221). -/
theorem kept_ownFirst (x : Cx) (spc : Space) (addrs : List Nat) (n : Nat) : Kept x.s (x.ownFirst spc addrs n).s := by
  unfold Cx.ownFirst
  split
  · exact Kept.foldl (fun s a => kept_flushOps ..) addrs x.s
  · refine Kept.foldl (fun s r => ?_) _ x.s
    split
    · exact kept_flushTile ..
    · exact .refl s
  · exact .refl x.s

theorem kept_postAppend (s : State) (gid bid core : Nat) (t : TileRef) (es : List HodEntry) (c : Option Nat) (d : Option Nat)
    (sync : Bool) (tag : Nat) : Kept s (s.postAppend gid bid core t es c d sync tag) := .of_eq rfl rfl

/-- Earlier atomic operations of a group performed (R225). -/
theorem kept_syncFirst (s : State) (gid core : Nat) : Kept s (s.syncFirst gid core) := by
  unfold State.syncFirst
  split <;> exact .of_eq rfl rfl

theorem kept_writeTiles (x : Cx) (ws : List Write) (sync : Bool) (s : State) : Kept s (x.writeTiles ws sync s) := by
  unfold Cx.writeTiles
  refine Kept.foldl (fun s r => ?_) _ s
  dsimp only
  split
  · exact (kept_flushTile ..).trans (kept_applyTile ..)
  · exact kept_postAppend ..

theorem kept_writeAll (x : Cx) (spc : Space) (t : Nat) (ws : List Write) (sync : Bool) (s : State) :
    Kept s (x.writeAll spc t ws sync s) := by
  unfold Cx.writeAll
  split
  · exact kept_modGroup fun g => ⟨rfl, rfl, rfl, rfl⟩
  · exact kept_modBlock (fun _ => rfl) fun _ => rfl
  · exact Kept.foldl
      (step := fun s w => s.postSc x.g.gid x.b.bid x.g.core x.die (scratchKey x.c x.die w.addr) w.width w.op w.ty w.val sync)
      (fun s w => .of_eq rfl rfl) ws s
  · exact .refl s

theorem kept_swap (x : Cx) (spc : Space) (a n : Nat) (f : Nat → Option Nat) (s : State) : Kept s (x.swap spc a n f s).2 := by
  unfold Cx.swap
  split
  · split
    · rename_i b hb
      dsimp only
      split
      · refine kept_setBlock (b0 := b) ?_ rfl
        have := block?_bid hb
        simpa [this] using hb
      · exact .refl s
    · exact .refl s
  · dsimp only
    split
    · exact (kept_flushSc ..).trans (.of_eq rfl rfl)
    · exact kept_flushSc ..
  · split
    · dsimp only
      split
      · exact (kept_flushTile ..).trans (kept_applyTile ..)
      · exact (kept_flushTile ..).trans (kept_touch ..)
    · exact .refl s
  · exact .refl s

theorem kept_swapAll (x : Cx) (spc : Space) (n : Nat) (l : List (Nat × (Nat → Option Nat))) (s : State) :
    Kept s (x.swapAll spc n l s).2 := by
  induction l generalizing s with
  | nil => exact .refl s
  | cons e rest ih => exact (kept_swap ..).trans (ih _)

theorem kept_critical (s : State) (x : Cx) (o : Ord) : Kept s (s.critical x o) := by
  unfold State.critical
  split
  · exact .refl s
  · split
    · exact Kept.trans (t := s.fresh.2) (.of_eq rfl rfl) (kept_modGroup fun g => ⟨rfl, rfl, rfl, rfl⟩)
    · exact kept_modGroup fun g => ⟨rfl, rfl, rfl, rfl⟩
    · exact .refl s

/-! Fetches keep groups in their places: an eviction may end an append, and with it the way of a tagged request -/

theorem kept_setTileOf {s u : State} {t : TileRef} {v : WTile} (hg : u.groups = s.groups) (hb : u.blocks = s.blocks) :
    Kept s (u.setTile t v) := (Kept.of_eq hg hb).trans (kept_setTile ..)

theorem kept_writeBack (s : State) (t : TileRef) (core : Nat) : Kept s (s.writeBack t core) := by
  unfold State.writeBack
  dsimp only
  split
  · exact .refl s
  · exact kept_setTileOf rfl rfl

theorem kept_evict (s : State) (t : TileRef) (core : Nat) : Kept s (s.evict t core) := by
  unfold State.evict
  exact (Kept.foldl kept_applyAppend _ s).trans ((kept_writeBack ..).trans (kept_setTile ..))

theorem kept_wantTile (s : State) (t : TileRef) (core : Nat) : Kept s (s.wantTile t core) := by
  unfold State.wantTile
  split
  · exact .refl s
  · exact kept_setTileOf rfl rfl

theorem kept_takeFrame {s u : State} {t : TileRef} {core : Nat} (h : s.takeFrame t core = some u) : Kept s u := by
  unfold State.takeFrame at h
  dsimp only at h
  split at h
  · cases h; exact .refl s
  · cases hv : s.victim t.die t.ctx with
    | none => simp [hv] at h
    | some v =>
      rw [hv, Option.map_some, Option.some.injEq] at h
      exact h ▸ kept_evict s v core

theorem kept_count (s : State) (core event ctx n : Nat) : Kept s (s.count core event ctx n) := .of_eq rfl rfl

theorem kept_bufferFault {s u : State} {core ctx va : Nat} {who : Faulted} (h : s.bufferFault core ctx va who = some u) :
    Kept s u := by
  unfold State.bufferFault at h
  split at h
  · cases h
  · simp only [Option.some.injEq] at h
    subst h
    exact .of_eq rfl rfl

theorem kept_startFetch {s u : State} {t : TileRef} {core : Nat} (h : s.startFetch t core = .ok u) : Kept s u := by
  unfold State.startFetch at h
  split at h
  · cases h; exact .refl s
  · cases h; exact kept_wantTile ..
  · rename_i v _ hf
    have h0 := kept_takeFrame hf
    have hb : ∀ (w : State) (x : WTile), Kept w (((w.ran (tileUnit t.die) t.ctx).setTile t x).count core 0x09 t.ctx 1) :=
      fun w x => (Kept.of_eq (ran_groups ..) (ran_blocks ..)).trans ((kept_setTile ..).trans (kept_count ..))
    dsimp only at h
    split at h
    · cases h
      exact h0.trans (hb ..)
    · cases h
      exact h0.trans ((hb ..).trans (.of_eq (halt_groups ..) (halt_blocks ..)))
    · split at h
      · rename_i w hw
        cases h
        exact h0.trans ((kept_bufferFault hw).trans (hb ..))
      · cases h

theorem kept_askFetch (s : State) (t : TileRef) (core : Nat) : Kept s (s.askFetch t core) := by
  unfold State.askFetch
  split
  · rename_i h
    exact kept_startFetch h
  · exact kept_wantTile ..

theorem kept_startFetches {core : Nat} {l : List TileRef} {s u : State} (h : startFetches core l s = some u) : Kept s u := by
  induction l generalizing s with
  | nil => cases h; exact .refl _
  | cons t rest ih =>
    unfold startFetches at h
    split at h
    · split at h
      · rename_i v hv
        exact (kept_startFetch hv).trans (ih h)
      · cases h
    · exact ih h

theorem kept_holdFor (s : State) (gid : Nat) (ts : List TileRef) : Kept s (s.holdFor gid ts) := by
  unfold State.holdFor
  exact Kept.foldl (fun s t => kept_setTile ..) ts s

/-- Completion of an attempt whose effect keeps groups in their places. -/
theorem issue_kept {i : Instr} {f : Fields} {pre : Cx → Option Fate} {body : Cx → Fate} {s u : State} {x : Cx}
    {pc : Option VA} {e : Bool} (he : exec i s = issue f pre body s) (h : Solo s f x) (hx : x.gate pre body = .done u pc e)
    (hk : Kept s u) : Completes i s u x.g.gid f pc := by
  obtain ⟨-, hg, -⟩ := h.spec
  exact issue_completes he h hx rfl fun g' hg' => hk.alone hg h.alone hg'

/-- A group that stays in issue. -/
theorem issue_stayKept {i : Instr} {f : Fields} {pre : Cx → Option Fate} {body : Cx → Fate} {s u : State} {x : Cx}
    (he : exec i s = issue f pre body s) (h : Solo s f x) (hx : x.gate pre body = .stay u) (hk : Kept s u) :
    Stays i s u x.g.gid := by
  obtain ⟨-, hg, -⟩ := h.spec
  exact issue_stay he h hx fun g' hg' => hk.alone hg h.alone hg'

end Sys2Proof.Machine
end

