-- ==== Sys2Proof/Laws/PerInstr.lean ====
section
/-! SUPPORT. For each instruction: the decoder builds it from the fields it is encoded with. -/

namespace Sys2Proof.Laws.Built

open Sys2Proof

/-- The decoder builds i from its fields (R48, R49). -/
def Statement (i : Instr) : Prop := ∀ f, wf i = true → fieldsOf i = some f → build f = some i

theorem nop (w : W) : Statement (.nop w) := by
  intro f _ hf
  injection hf with hf; subst hf; rw [build_fields (by decide) (by rfl)]; rfl
theorem exit (w : W) : Statement (.exit w) := by
  intro f _ hf
  injection hf with hf; subst hf; rw [build_fields (by decide) (by rfl)]; rfl
theorem bra (w : W) (m) : Statement (.bra w m) := by
  intro f _ hf
  injection hf with hf; subst hf; rw [build_fields (by decide) (by rfl)]; show some (Instr.bra w _) = _; congr 2; exact high1 m
theorem braD (w : W) : Statement (.braD w) := by
  intro f _ hf
  injection hf with hf; subst hf; rw [build_fields (by decide) (by rfl)]; rfl
theorem call (w : W) : Statement (.call w) := by
  intro f _ hf
  injection hf with hf; subst hf; rw [build_fields (by decide) (by rfl)]; rfl
theorem ret (w : W) : Statement (.ret w) := by
  intro f _ hf
  injection hf with hf; subst hf; rw [build_fields (by decide) (by rfl)]; rfl
theorem brt (w : W) : Statement (.brt w) := by
  intro f _ hf
  injection hf with hf; subst hf; rw [build_fields (by decide) (by rfl)]; rfl
theorem pushj (w : W) : Statement (.pushj w) := by
  intro f _ hf
  injection hf with hf; subst hf; rw [build_fields (by decide) (by rfl)]; rfl
theorem pushb (w : W) : Statement (.pushb w) := by
  intro f _ hf
  injection hf with hf; subst hf; rw [build_fields (by decide) (by rfl)]; rfl
theorem join (w : W) : Statement (.join w) := by
  intro f _ hf
  injection hf with hf; subst hf; rw [build_fields (by decide) (by rfl)]; rfl
theorem brk (w : W) : Statement (.brk w) := by
  intro f _ hf
  injection hf with hf; subst hf; rw [build_fields (by decide) (by rfl)]; rfl
theorem trap (w : W) (m) : Statement (.trap w m) := by
  intro f _ hf
  injection hf with hf; subst hf; rw [build_fields (by decide) (by rfl)]; show some (Instr.trap w _) = _; congr 2; exact low8 m
theorem rte (w : W) : Statement (.rte w) := by
  intro f _ hf
  injection hf with hf; subst hf; rw [build_fields (by decide) (by rfl)]; rfl
theorem bkpt (w : W) (m) : Statement (.bkpt w m) := by
  intro f _ hf
  injection hf with hf; subst hf; rw [build_fields (by decide) (by rfl)]; show some (Instr.bkpt w _) = _; congr 2; exact low8 m
theorem waitf (w : W) : Statement (.waitf w) := by
  intro f _ hf
  injection hf with hf; subst hf; rw [build_fields (by decide) (by rfl)]; rfl
theorem waitb (w : W) : Statement (.waitb w) := by
  intro f _ hf
  injection hf with hf; subst hf; rw [build_fields (by decide) (by rfl)]; rfl
theorem getsr (w : W) (m) : Statement (.getsr w m) := by
  intro f _ hf
  injection hf with hf; subst hf; rw [build_fields (by decide) (by rfl)]; rfl
theorem setsr (w : W) (m) : Statement (.setsr w m) := by
  intro f _ hf
  injection hf with hf; subst hf; rw [build_fields (by decide) (by rfl)]; rfl
theorem pctlNoidem (w : W) : Statement (.pctlNoidem w) := by
  intro f _ hf
  injection hf with hf; subst hf; rw [build_fields (by decide) (by rfl)]; rfl
theorem pctlExpect (w : W) : Statement (.pctlExpect w) := by
  intro f _ hf
  injection hf with hf; subst hf; rw [build_fields (by decide) (by rfl)]; rfl
theorem delay (w : W) : Statement (.delay w) := by
  intro f _ hf
  injection hf with hf; subst hf; rw [build_fields (by decide) (by rfl)]; rfl
theorem iadd (w : W) (m) : Statement (.iadd w m) := by
  intro f _ hf
  injection hf with hf; subst hf; rw [build_fields (by decide) (by rfl)]; show (IntMod.ofBits (IntMod.bits m)).map _ = _; rw [IntMod.ofBits_bits]; rfl
theorem isub (w : W) (m) : Statement (.isub w m) := by
  intro f _ hf
  injection hf with hf; subst hf; rw [build_fields (by decide) (by rfl)]; show (IntMod.ofBits (IntMod.bits m)).map _ = _; rw [IntMod.ofBits_bits]; rfl
theorem imul (w : W) (m) : Statement (.imul w m) := by
  intro f _ hf
  injection hf with hf; subst hf; rw [build_fields (by decide) (by rfl)]; show (IntMod.ofBits (IntMod.bits m)).map _ = _; rw [IntMod.ofBits_bits]; rfl
theorem imulh (w : W) (m) : Statement (.imulh w m) := by
  intro f _ hf
  injection hf with hf; subst hf; rw [build_fields (by decide) (by rfl)]; show (IntMod.ofBits (IntMod.bits m)).map _ = _; rw [IntMod.ofBits_bits]; rfl
theorem imad (w : W) (m) : Statement (.imad w m) := by
  intro f _ hf
  injection hf with hf; subst hf; rw [build_fields (by decide) (by rfl)]; show (IntMod.ofBits (IntMod.bits m)).map _ = _; rw [IntMod.ofBits_bits]; rfl
theorem ineg (w : W) (m) : Statement (.ineg w m) := by
  intro f _ hf
  injection hf with hf; subst hf; rw [build_fields (by decide) (by rfl)]; show (IntMod.ofBits (IntMod.bits m)).map _ = _; rw [IntMod.ofBits_bits]; rfl
theorem iabs (w : W) (m) : Statement (.iabs w m) := by
  intro f _ hf
  injection hf with hf; subst hf; rw [build_fields (by decide) (by rfl)]; show (IntMod.ofBits (IntMod.bits m)).map _ = _; rw [IntMod.ofBits_bits]; rfl
theorem imin (w : W) (m) : Statement (.imin w m) := by
  intro f _ hf
  injection hf with hf; subst hf; rw [build_fields (by decide) (by rfl)]; show (IntMod.ofBits (IntMod.bits m)).map _ = _; rw [IntMod.ofBits_bits]; rfl
theorem imax (w : W) (m) : Statement (.imax w m) := by
  intro f _ hf
  injection hf with hf; subst hf; rw [build_fields (by decide) (by rfl)]; show (IntMod.ofBits (IntMod.bits m)).map _ = _; rw [IntMod.ofBits_bits]; rfl
theorem icmp (w : W) (m) : Statement (.icmp w m) := by
  intro f _ hf
  injection hf with hf; subst hf; rw [build_fields (by decide) (by rfl)]; show (CmpMod.ofBits (CmpMod.bits m)).map _ = _; rw [CmpMod.ofBits_bits]; rfl
theorem sel (w : W) (m) : Statement (.sel w m) := by
  intro f _ hf
  injection hf with hf; subst hf; rw [build_fields (by decide) (by rfl)]; show (IntMod.ofBits (IntMod.bits m)).map _ = _; rw [IntMod.ofBits_bits]; rfl
theorem iclamp (w : W) (m) : Statement (.iclamp w m) := by
  intro f _ hf
  injection hf with hf; subst hf; rw [build_fields (by decide) (by rfl)]; show (IntMod.ofBits (IntMod.bits m)).map _ = _; rw [IntMod.ofBits_bits]; rfl
theorem imulw (w : W) (m) : Statement (.imulw w m) := by
  intro f _ hf
  injection hf with hf; subst hf; rw [build_fields (by decide) (by rfl)]; show (IntMod.ofBits (IntMod.bits m)).map _ = _; rw [IntMod.ofBits_bits]; rfl
theorem iaddc (w : W) (m) : Statement (.iaddc w m) := by
  intro f _ hf
  injection hf with hf; subst hf; rw [build_fields (by decide) (by rfl)]; show (IntMod.ofBits (IntMod.bits m)).map _ = _; rw [IntMod.ofBits_bits]; rfl
theorem isubb (w : W) (m) : Statement (.isubb w m) := by
  intro f _ hf
  injection hf with hf; subst hf; rw [build_fields (by decide) (by rfl)]; show (IntMod.ofBits (IntMod.bits m)).map _ = _; rw [IntMod.ofBits_bits]; rfl
theorem isad (w : W) (m) : Statement (.isad w m) := by
  intro f _ hf
  injection hf with hf; subst hf; rw [build_fields (by decide) (by rfl)]; show (IntMod.ofBits (IntMod.bits m)).map _ = _; rw [IntMod.ofBits_bits]; rfl
theorem and (w : W) (m) : Statement (.and w m) := by
  intro f _ hf
  injection hf with hf; subst hf; rw [build_fields (by decide) (by rfl)]; show (IntMod.ofBits (IntMod.bits m)).map _ = _; rw [IntMod.ofBits_bits]; rfl
theorem or (w : W) (m) : Statement (.or w m) := by
  intro f _ hf
  injection hf with hf; subst hf; rw [build_fields (by decide) (by rfl)]; show (IntMod.ofBits (IntMod.bits m)).map _ = _; rw [IntMod.ofBits_bits]; rfl
theorem xor (w : W) (m) : Statement (.xor w m) := by
  intro f _ hf
  injection hf with hf; subst hf; rw [build_fields (by decide) (by rfl)]; show (IntMod.ofBits (IntMod.bits m)).map _ = _; rw [IntMod.ofBits_bits]; rfl
theorem not (w : W) (m) : Statement (.not w m) := by
  intro f _ hf
  injection hf with hf; subst hf; rw [build_fields (by decide) (by rfl)]; show (IntMod.ofBits (IntMod.bits m)).map _ = _; rw [IntMod.ofBits_bits]; rfl
theorem andn (w : W) (m) : Statement (.andn w m) := by
  intro f _ hf
  injection hf with hf; subst hf; rw [build_fields (by decide) (by rfl)]; show (IntMod.ofBits (IntMod.bits m)).map _ = _; rw [IntMod.ofBits_bits]; rfl
theorem shl (w : W) (m) : Statement (.shl w m) := by
  intro f _ hf
  injection hf with hf; subst hf; rw [build_fields (by decide) (by rfl)]; show (IntMod.ofBits (IntMod.bits m)).map _ = _; rw [IntMod.ofBits_bits]; rfl
theorem shr (w : W) (m) : Statement (.shr w m) := by
  intro f _ hf
  injection hf with hf; subst hf; rw [build_fields (by decide) (by rfl)]; show (IntMod.ofBits (IntMod.bits m)).map _ = _; rw [IntMod.ofBits_bits]; rfl
theorem sar (w : W) (m) : Statement (.sar w m) := by
  intro f _ hf
  injection hf with hf; subst hf; rw [build_fields (by decide) (by rfl)]; show (IntMod.ofBits (IntMod.bits m)).map _ = _; rw [IntMod.ofBits_bits]; rfl
theorem rol (w : W) (m) : Statement (.rol w m) := by
  intro f _ hf
  injection hf with hf; subst hf; rw [build_fields (by decide) (by rfl)]; show (IntMod.ofBits (IntMod.bits m)).map _ = _; rw [IntMod.ofBits_bits]; rfl
theorem ror (w : W) (m) : Statement (.ror w m) := by
  intro f _ hf
  injection hf with hf; subst hf; rw [build_fields (by decide) (by rfl)]; show (IntMod.ofBits (IntMod.bits m)).map _ = _; rw [IntMod.ofBits_bits]; rfl
theorem popc (w : W) (m) : Statement (.popc w m) := by
  intro f _ hf
  injection hf with hf; subst hf; rw [build_fields (by decide) (by rfl)]; show (IntMod.ofBits (IntMod.bits m)).map _ = _; rw [IntMod.ofBits_bits]; rfl
theorem clz (w : W) (m) : Statement (.clz w m) := by
  intro f _ hf
  injection hf with hf; subst hf; rw [build_fields (by decide) (by rfl)]; show (IntMod.ofBits (IntMod.bits m)).map _ = _; rw [IntMod.ofBits_bits]; rfl
theorem brev (w : W) (m) : Statement (.brev w m) := by
  intro f _ hf
  injection hf with hf; subst hf; rw [build_fields (by decide) (by rfl)]; show (IntMod.ofBits (IntMod.bits m)).map _ = _; rw [IntMod.ofBits_bits]; rfl
theorem bfe (w : W) (m) : Statement (.bfe w m) := by
  intro f _ hf
  injection hf with hf; subst hf; rw [build_fields (by decide) (by rfl)]; show (IntMod.ofBits (IntMod.bits m)).map _ = _; rw [IntMod.ofBits_bits]; rfl
theorem bfi (w : W) (m) : Statement (.bfi w m) := by
  intro f _ hf
  injection hf with hf; subst hf; rw [build_fields (by decide) (by rfl)]; show (IntMod.ofBits (IntMod.bits m)).map _ = _; rw [IntMod.ofBits_bits]; rfl
theorem bpick (w : W) (m) : Statement (.bpick w m) := by
  intro f _ hf
  injection hf with hf; subst hf; rw [build_fields (by decide) (by rfl)]; show (IntMod.ofBits (IntMod.bits m)).map _ = _; rw [IntMod.ofBits_bits]; rfl
theorem lea (w : W) (m) : Statement (.lea w m) := by
  intro f _ hf
  injection hf with hf; subst hf; rw [build_fields (by decide) (by rfl)]; show (IntMod.ofBits (IntMod.bits m)).map _ = _; rw [IntMod.ofBits_bits]; rfl
theorem mov (w : W) (m) : Statement (.mov w m) := by
  intro f _ hf
  injection hf with hf; subst hf; rw [build_fields (by decide) (by rfl)]; show (IntMod.ofBits (IntMod.bits m)).map _ = _; rw [IntMod.ofBits_bits]; rfl
theorem pack (w : W) (m) : Statement (.pack w m) := by
  intro f _ hf
  injection hf with hf; subst hf; rw [build_fields (by decide) (by rfl)]; show (IntMod.ofBits (IntMod.bits m)).map _ = _; rw [IntMod.ofBits_bits]; rfl
theorem ffs (w : W) (m) : Statement (.ffs w m) := by
  intro f _ hf
  injection hf with hf; subst hf; rw [build_fields (by decide) (by rfl)]; show (IntMod.ofBits (IntMod.bits m)).map _ = _; rw [IntMod.ofBits_bits]; rfl
theorem unpk (w : W) (m) : Statement (.unpk w m) := by
  intro f _ hf
  injection hf with hf; subst hf; rw [build_fields (by decide) (by rfl)]; show (IntMod.ofBits (IntMod.bits m)).map _ = _; rw [IntMod.ofBits_bits]; rfl
theorem spst (w : W) (m) : Statement (.spst w m) := by
  intro f _ hf
  injection hf with hf; subst hf; rw [build_fields (by decide) (by rfl)]; show (IntMod.ofBits (IntMod.bits m)).map _ = _; rw [IntMod.ofBits_bits]; rfl
theorem spld (w : W) (m) : Statement (.spld w m) := by
  intro f _ hf
  injection hf with hf; subst hf; rw [build_fields (by decide) (by rfl)]; show (IntMod.ofBits (IntMod.bits m)).map _ = _; rw [IntMod.ofBits_bits]; rfl
theorem bswap (w : W) (m) : Statement (.bswap w m) := by
  intro f _ hf
  injection hf with hf; subst hf; rw [build_fields (by decide) (by rfl)]; show (IntMod.ofBits (IntMod.bits m)).map _ = _; rw [IntMod.ofBits_bits]; rfl
theorem fadd (w : W) (m) : Statement (.fadd w m) := by
  intro f _ hf
  injection hf with hf; subst hf; rw [build_fields (by decide) (by rfl)]; show (FpMod.ofBits (FpMod.bits m)).map _ = _; rw [FpMod.ofBits_bits]; rfl
theorem fsub (w : W) (m) : Statement (.fsub w m) := by
  intro f _ hf
  injection hf with hf; subst hf; rw [build_fields (by decide) (by rfl)]; show (FpMod.ofBits (FpMod.bits m)).map _ = _; rw [FpMod.ofBits_bits]; rfl
theorem fmul (w : W) (m) : Statement (.fmul w m) := by
  intro f _ hf
  injection hf with hf; subst hf; rw [build_fields (by decide) (by rfl)]; show (FpMod.ofBits (FpMod.bits m)).map _ = _; rw [FpMod.ofBits_bits]; rfl
theorem ffma (w : W) (m) : Statement (.ffma w m) := by
  intro f _ hf
  injection hf with hf; subst hf; rw [build_fields (by decide) (by rfl)]; show (FpMod.ofBits (FpMod.bits m)).map _ = _; rw [FpMod.ofBits_bits]; rfl
theorem fmin (w : W) (m) : Statement (.fmin w m) := by
  intro f _ hf
  injection hf with hf; subst hf; rw [build_fields (by decide) (by rfl)]; show (FpMod.ofBits (FpMod.bits m)).map _ = _; rw [FpMod.ofBits_bits]; rfl
theorem fmax (w : W) (m) : Statement (.fmax w m) := by
  intro f _ hf
  injection hf with hf; subst hf; rw [build_fields (by decide) (by rfl)]; show (FpMod.ofBits (FpMod.bits m)).map _ = _; rw [FpMod.ofBits_bits]; rfl
theorem fabs (w : W) (m) : Statement (.fabs w m) := by
  intro f _ hf
  injection hf with hf; subst hf; rw [build_fields (by decide) (by rfl)]; show (FpMod.ofBits (FpMod.bits m)).map _ = _; rw [FpMod.ofBits_bits]; rfl
theorem fneg (w : W) (m) : Statement (.fneg w m) := by
  intro f _ hf
  injection hf with hf; subst hf; rw [build_fields (by decide) (by rfl)]; show (FpMod.ofBits (FpMod.bits m)).map _ = _; rw [FpMod.ofBits_bits]; rfl
theorem fcmp (w : W) (m) : Statement (.fcmp w m) := by
  intro f _ hf
  injection hf with hf; subst hf; rw [build_fields (by decide) (by rfl)]; show (CmpMod.ofBits (CmpMod.bits m)).map _ = _; rw [CmpMod.ofBits_bits]; rfl
theorem fclass (w : W) (m) : Statement (.fclass w m) := by
  intro f _ hf
  injection hf with hf; subst hf; rw [build_fields (by decide) (by rfl)]; show (IntMod.ofBits (IntMod.bits m)).map _ = _; rw [IntMod.ofBits_bits]; rfl
theorem frnd (w : W) (m) : Statement (.frnd w m) := by
  intro f _ hf
  injection hf with hf; subst hf; rw [build_fields (by decide) (by rfl)]; show (FpMod.ofBits (FpMod.bits m)).map _ = _; rw [FpMod.ofBits_bits]; rfl
theorem fscl (w : W) (m) : Statement (.fscl w m) := by
  intro f _ hf
  injection hf with hf; subst hf; rw [build_fields (by decide) (by rfl)]; show (FpMod.ofBits (FpMod.bits m)).map _ = _; rw [FpMod.ofBits_bits]; rfl
theorem fclamp (w : W) (m) : Statement (.fclamp w m) := by
  intro f _ hf
  injection hf with hf; subst hf; rw [build_fields (by decide) (by rfl)]; show (FpMod.ofBits (FpMod.bits m)).map _ = _; rw [FpMod.ofBits_bits]; rfl
theorem ffrc (w : W) (m) : Statement (.ffrc w m) := by
  intro f _ hf
  injection hf with hf; subst hf; rw [build_fields (by decide) (by rfl)]; show (FpMod.ofBits (FpMod.bits m)).map _ = _; rw [FpMod.ofBits_bits]; rfl
theorem fcpys (w : W) (m) : Statement (.fcpys w m) := by
  intro f _ hf
  injection hf with hf; subst hf; rw [build_fields (by decide) (by rfl)]; show (FpMod.ofBits (FpMod.bits m)).map _ = _; rw [FpMod.ofBits_bits]; rfl
theorem cvtFF (w : W) (m) : Statement (.cvtFF w m) := by
  intro f _ hf
  injection hf with hf; subst hf; rw [build_fields (by decide) (by rfl)]; show (CvtMod.ofBits _ _ (CvtMod.bits _ _ m)).map _ = _; rw [CvtMod.ofBits_bits FFmt.ofCode_code FFmt.ofCode_code]; rfl
theorem cvtFI (w : W) (m) : Statement (.cvtFI w m) := by
  intro f _ hf
  injection hf with hf; subst hf; rw [build_fields (by decide) (by rfl)]; show (CvtMod.ofBits _ _ (CvtMod.bits _ _ m)).map _ = _; rw [CvtMod.ofBits_bits FFmt.ofCode_code IFmt.ofCode_code]; rfl
theorem cvtIF (w : W) (m) : Statement (.cvtIF w m) := by
  intro f _ hf
  injection hf with hf; subst hf; rw [build_fields (by decide) (by rfl)]; show (CvtMod.ofBits _ _ (CvtMod.bits _ _ m)).map _ = _; rw [CvtMod.ofBits_bits IFmt.ofCode_code FFmt.ofCode_code]; rfl
theorem cvtII (w : W) (m) : Statement (.cvtII w m) := by
  intro f _ hf
  injection hf with hf; subst hf; rw [build_fields (by decide) (by rfl)]; show (CvtMod.ofBits _ _ (CvtMod.bits _ _ m)).map _ = _; rw [CvtMod.ofBits_bits IFmt.ofCode_code IFmt.ofCode_code]; rfl
theorem cvtSr (w : W) (m) : Statement (.cvtSr w m) := by
  intro f _ hf
  injection hf with hf; subst hf; rw [build_fields (by decide) (by rfl)]; show (CvtMod.ofBits _ _ (CvtMod.bits _ _ m)).map _ = _; rw [CvtMod.ofBits_bits FFmt.ofCode_code FFmt.ofCode_code]; rfl
theorem cvtp (w : W) (m) : Statement (.cvtp w m) := by
  intro f _ hf
  injection hf with hf; subst hf; rw [build_fields (by decide) (by rfl)]; show (CvtMod.ofBits _ _ (CvtMod.bits _ _ m)).map _ = _; rw [CvtMod.ofBits_bits FFmt.ofCode_code FFmt.ofCode_code]; rfl
theorem dot2Bf16 (w : W) (m) : Statement (.dot2Bf16 w m) := by
  intro f _ hf
  injection hf with hf; subst hf; rw [build_fields (by decide) (by rfl)]; show (FpMod.ofBits (FpMod.bits m)).map _ = _; rw [FpMod.ofBits_bits]; rfl
theorem dot4E4m3 (w : W) (m) : Statement (.dot4E4m3 w m) := by
  intro f _ hf
  injection hf with hf; subst hf; rw [build_fields (by decide) (by rfl)]; show (FpMod.ofBits (FpMod.bits m)).map _ = _; rw [FpMod.ofBits_bits]; rfl
theorem dot4E5m2 (w : W) (m) : Statement (.dot4E5m2 w m) := by
  intro f _ hf
  injection hf with hf; subst hf; rw [build_fields (by decide) (by rfl)]; show (FpMod.ofBits (FpMod.bits m)).map _ = _; rw [FpMod.ofBits_bits]; rfl
theorem dot8E2m1 (w : W) (m) : Statement (.dot8E2m1 w m) := by
  intro f _ hf
  injection hf with hf; subst hf; rw [build_fields (by decide) (by rfl)]; show (FpMod.ofBits (FpMod.bits m)).map _ = _; rw [FpMod.ofBits_bits]; rfl
theorem dot8Q4x (w : W) (m) : Statement (.dot8Q4x w m) := by
  intro f _ hf
  injection hf with hf; subst hf; rw [build_fields (by decide) (by rfl)]; show (FpMod.ofBits (FpMod.bits m)).map _ = _; rw [FpMod.ofBits_bits]; rfl
theorem qnt (w : W) (m) : Statement (.qnt w m) := by
  intro f _ hf
  injection hf with hf; subst hf; rw [build_fields (by decide) (by rfl)]; show (IntMod.ofBits (IntMod.bits m)).map _ = _; rw [IntMod.ofBits_bits]; rfl
theorem dqnt (w : W) (m) : Statement (.dqnt w m) := by
  intro f _ hf
  injection hf with hf; subst hf; rw [build_fields (by decide) (by rfl)]; show (IntMod.ofBits (IntMod.bits m)).map _ = _; rw [IntMod.ofBits_bits]; rfl
theorem fchk (w : W) (m) : Statement (.fchk w m) := by
  intro f _ hf
  injection hf with hf; subst hf; rw [build_fields (by decide) (by rfl)]; show (IntMod.ofBits (IntMod.bits m)).map _ = _; rw [IntMod.ofBits_bits]; rfl
theorem rcp (w : W) (m) : Statement (.rcp w m) := by
  intro f _ hf
  injection hf with hf; subst hf; rw [build_fields (by decide) (by rfl)]; show (FpMod.ofBits (FpMod.bits m)).map _ = _; rw [FpMod.ofBits_bits]; rfl
theorem rsq (w : W) (m) : Statement (.rsq w m) := by
  intro f _ hf
  injection hf with hf; subst hf; rw [build_fields (by decide) (by rfl)]; show (FpMod.ofBits (FpMod.bits m)).map _ = _; rw [FpMod.ofBits_bits]; rfl
theorem sqrt (w : W) (m) : Statement (.sqrt w m) := by
  intro f _ hf
  injection hf with hf; subst hf; rw [build_fields (by decide) (by rfl)]; show (FpMod.ofBits (FpMod.bits m)).map _ = _; rw [FpMod.ofBits_bits]; rfl
theorem ex2 (w : W) (m) : Statement (.ex2 w m) := by
  intro f _ hf
  injection hf with hf; subst hf; rw [build_fields (by decide) (by rfl)]; show (FpMod.ofBits (FpMod.bits m)).map _ = _; rw [FpMod.ofBits_bits]; rfl
theorem lg2 (w : W) (m) : Statement (.lg2 w m) := by
  intro f _ hf
  injection hf with hf; subst hf; rw [build_fields (by decide) (by rfl)]; show (FpMod.ofBits (FpMod.bits m)).map _ = _; rw [FpMod.ofBits_bits]; rfl
theorem sinr (w : W) (m) : Statement (.sinr w m) := by
  intro f _ hf
  injection hf with hf; subst hf; rw [build_fields (by decide) (by rfl)]; show (FpMod.ofBits (FpMod.bits m)).map _ = _; rw [FpMod.ofBits_bits]; rfl
theorem cosr (w : W) (m) : Statement (.cosr w m) := by
  intro f _ hf
  injection hf with hf; subst hf; rw [build_fields (by decide) (by rfl)]; show (FpMod.ofBits (FpMod.bits m)).map _ = _; rw [FpMod.ofBits_bits]; rfl
theorem tanh (w : W) (m) : Statement (.tanh w m) := by
  intro f _ hf
  injection hf with hf; subst hf; rw [build_fields (by decide) (by rfl)]; show (FpMod.ofBits (FpMod.bits m)).map _ = _; rw [FpMod.ofBits_bits]; rfl
theorem hadd2 (w : W) (m) : Statement (.hadd2 w m) := by
  intro f _ hf
  injection hf with hf; subst hf; rw [build_fields (by decide) (by rfl)]; show (FpMod.ofBits (FpMod.bits m)).map _ = _; rw [FpMod.ofBits_bits]; rfl
theorem hmul2 (w : W) (m) : Statement (.hmul2 w m) := by
  intro f _ hf
  injection hf with hf; subst hf; rw [build_fields (by decide) (by rfl)]; show (FpMod.ofBits (FpMod.bits m)).map _ = _; rw [FpMod.ofBits_bits]; rfl
theorem hfma2 (w : W) (m) : Statement (.hfma2 w m) := by
  intro f _ hf
  injection hf with hf; subst hf; rw [build_fields (by decide) (by rfl)]; show (FpMod.ofBits (FpMod.bits m)).map _ = _; rw [FpMod.ofBits_bits]; rfl
theorem hmin2 (w : W) (m) : Statement (.hmin2 w m) := by
  intro f _ hf
  injection hf with hf; subst hf; rw [build_fields (by decide) (by rfl)]; show (FpMod.ofBits (FpMod.bits m)).map _ = _; rw [FpMod.ofBits_bits]; rfl
theorem hmax2 (w : W) (m) : Statement (.hmax2 w m) := by
  intro f _ hf
  injection hf with hf; subst hf; rw [build_fields (by decide) (by rfl)]; show (FpMod.ofBits (FpMod.bits m)).map _ = _; rw [FpMod.ofBits_bits]; rfl
theorem dload (w : W) (m) : Statement (.dload w m) := by
  intro f _ hf
  injection hf with hf; subst hf; rw [build_fields (by decide) (by rfl)]; show (varOfBits 16 (varBits m)).map _ = _; rw [varOfBits_varBits _ _ m.isLt]; rfl
theorem qkey (w : W) (m) : Statement (.qkey w m) := by
  intro f _ hf
  injection hf with hf; subst hf; rw [build_fields (by decide) (by rfl)]; show (SlotMod.ofBits (SlotMod.bits m _)).map _ = _; rw [SlotMod.ofBits_bits]; rfl
theorem qpos (w : W) (m) : Statement (.qpos w m) := by
  intro f _ hf
  injection hf with hf; subst hf; rw [build_fields (by decide) (by rfl)]; show (SlotMod.ofBits (SlotMod.bits m _)).map _ = _; rw [SlotMod.ofBits_bits]; rfl
theorem qskip (w : W) (m) : Statement (.qskip w m) := by
  intro f _ hf
  injection hf with hf; subst hf; rw [build_fields (by decide) (by rfl)]; show (SlotMod.ofBits (SlotMod.bits m _)).map _ = _; rw [SlotMod.ofBits_bits]; rfl
theorem qfork (w : W) (m) : Statement (.qfork w m) := by
  intro f _ hf
  injection hf with hf; subst hf; rw [build_fields (by decide) (by rfl)]; show (SlotMod.ofBits (SlotMod.bits m 0)).map _ = _; rw [SlotMod.ofBits_bits]; show Option.map (if ((SlotMod.bits m 0).extractLsb' 4 2).toNat = 1 then _ else _) (some m) = _; rw [slot_sel]; rfl
theorem qforkTop (w : W) (m) : Statement (.qforkTop w m) := by
  intro f _ hf
  injection hf with hf; subst hf; rw [build_fields (by decide) (by rfl)]; show (SlotMod.ofBits (SlotMod.bits m 1)).map _ = _; rw [SlotMod.ofBits_bits]; show Option.map (if ((SlotMod.bits m 1).extractLsb' 4 2).toNat = 1 then _ else _) (some m) = _; rw [slot_sel]; rfl
theorem qseek (w : W) (m) : Statement (.qseek w m) := by
  intro f _ hf
  injection hf with hf; subst hf; rw [build_fields (by decide) (by rfl)]; show (SlotMod.ofBits (SlotMod.bits m _)).map _ = _; rw [SlotMod.ofBits_bits]; rfl
theorem qsave (w : W) (m) : Statement (.qsave w m) := by
  intro f _ hf
  injection hf with hf; subst hf; rw [build_fields (by decide) (by rfl)]; show (SlotMod.ofBits (SlotMod.bits m _)).map _ = _; rw [SlotMod.ofBits_bits]; rfl
theorem qrest (w : W) (m) : Statement (.qrest w m) := by
  intro f _ hf
  injection hf with hf; subst hf; rw [build_fields (by decide) (by rfl)]; show (SlotMod.ofBits (SlotMod.bits m _)).map _ = _; rw [SlotMod.ofBits_bits]; rfl
theorem qgetPos (w : W) (m) : Statement (.qgetPos w m) := by
  intro f _ hf
  injection hf with hf; subst hf; rw [build_fields (by decide) (by rfl)]; show (SlotMod.ofBits (SlotMod.bits m 0)).map _ = _; rw [SlotMod.ofBits_bits]; show Option.map (if ((SlotMod.bits m 0).extractLsb' 4 2).toNat = 1 then _ else _) (some m) = _; rw [slot_sel]; rfl
theorem qgetKey (w : W) (m) : Statement (.qgetKey w m) := by
  intro f _ hf
  injection hf with hf; subst hf; rw [build_fields (by decide) (by rfl)]; show (SlotMod.ofBits (SlotMod.bits m 1)).map _ = _; rw [SlotMod.ofBits_bits]; show Option.map (if ((SlotMod.bits m 1).extractLsb' 4 2).toNat = 1 then _ else _) (some m) = _; rw [slot_sel]; rfl
theorem ddraw (w : W) : Statement (.ddraw w) := by
  intro f _ hf
  injection hf with hf; subst hf; rw [build_fields (by decide) (by rfl)]; rfl
theorem kand (w : W) : Statement (.kand w) := by
  intro f _ hf
  injection hf with hf; subst hf; rw [build_fields (by decide) (by rfl)]; rfl
theorem kor (w : W) : Statement (.kor w) := by
  intro f _ hf
  injection hf with hf; subst hf; rw [build_fields (by decide) (by rfl)]; rfl
theorem kxor (w : W) : Statement (.kxor w) := by
  intro f _ hf
  injection hf with hf; subst hf; rw [build_fields (by decide) (by rfl)]; rfl
theorem knot (w : W) : Statement (.knot w) := by
  intro f _ hf
  injection hf with hf; subst hf; rw [build_fields (by decide) (by rfl)]; rfl
theorem kmov (w : W) : Statement (.kmov w) := by
  intro f _ hf
  injection hf with hf; subst hf; rw [build_fields (by decide) (by rfl)]; rfl
theorem poll (w : W) (m) : Statement (.poll w m) := by
  intro f hw hf
  injection hf with hf; subst hf; rw [build_fields (by decide) (by rfl)]; show (varOfBits 5 (varBits m)).map _ = _; rw [varOfBits_varBits _ _ (var_of (wf_modOk hw rfl (by decide)))]; rfl
theorem shfl (w : W) (m) : Statement (.shfl w m) := by
  intro f _ hf
  injection hf with hf; subst hf; rw [build_fields (by decide) (by rfl)]; show (IntMod.ofBits (IntMod.bits m)).map _ = _; rw [IntMod.ofBits_bits]; rfl
theorem shflG (w : W) (m) : Statement (.shflG w m) := by
  intro f _ hf
  injection hf with hf; subst hf; rw [build_fields (by decide) (by rfl)]; show (IntMod.ofBits (IntMod.bits m)).map _ = _; rw [IntMod.ofBits_bits]; rfl
theorem gred (w : W) (m) : Statement (.gred w m) := by
  intro f _ hf
  injection hf with hf; subst hf; rw [build_fields (by decide) (by rfl)]; show (IntMod.ofBits (IntMod.bits m)).map _ = _; rw [IntMod.ofBits_bits]; rfl
theorem gscan (w : W) (m) : Statement (.gscan w m) := by
  intro f _ hf
  injection hf with hf; subst hf; rw [build_fields (by decide) (by rfl)]; show (IntMod.ofBits (IntMod.bits m)).map _ = _; rw [IntMod.ofBits_bits]; rfl
theorem spawn (w : W) : Statement (.spawn w) := by
  intro f _ hf
  injection hf with hf; subst hf; rw [build_fields (by decide) (by rfl)]; rfl
theorem glaunch (w : W) : Statement (.glaunch w) := by
  intro f _ hf
  injection hf with hf; subst hf; rw [build_fields (by decide) (by rfl)]; rfl
theorem dwait (w : W) : Statement (.dwait w) := by
  intro f _ hf
  injection hf with hf; subst hf; rw [build_fields (by decide) (by rfl)]; rfl
theorem mtch (w : W) (m) : Statement (.mtch w m) := by
  intro f _ hf
  injection hf with hf; subst hf; rw [build_fields (by decide) (by rfl)]; show (IntMod.ofBits (IntMod.bits m)).map _ = _; rw [IntMod.ofBits_bits]; rfl
theorem kpopc (w : W) : Statement (.kpopc w) := by
  intro f _ hf
  injection hf with hf; subst hf; rw [build_fields (by decide) (by rfl)]; rfl
theorem ld (w : W) (m) : Statement (.ld w m) := by
  intro f _ hf
  injection hf with hf; subst hf; rw [build_fields (by decide) (by rfl)]; show (MemMod.ofBits (MemMod.bits m)).map _ = _; rw [MemMod.ofBits_bits]; rfl
theorem st (w : W) (m) : Statement (.st w m) := by
  intro f _ hf
  injection hf with hf; subst hf; rw [build_fields (by decide) (by rfl)]; show (MemMod.ofBits (MemMod.bits m)).map _ = _; rw [MemMod.ofBits_bits]; rfl
theorem ldt (w : W) (m) : Statement (.ldt w m) := by
  intro f _ hf
  injection hf with hf; subst hf; rw [build_fields (by decide) (by rfl)]; show (MemMod.ofBits (MemMod.bits m)).map _ = _; rw [MemMod.ofBits_bits]; rfl
theorem atomAdd (w : W) (m) : Statement (.atomAdd w m) := by
  intro f hw hf
  injection hf with hf; subst hf; rw [build_fields (by decide) (by rfl)]; show (AtomMod.ofBits (AtomMod.bits m)).map _ = _; rw [AtomMod.ofBits_bits m (asp_ok (wf_modOk hw rfl (by decide)) (by decide))]; rfl
theorem atomMin (w : W) (m) : Statement (.atomMin w m) := by
  intro f hw hf
  injection hf with hf; subst hf; rw [build_fields (by decide) (by rfl)]; show (AtomMod.ofBits (AtomMod.bits m)).map _ = _; rw [AtomMod.ofBits_bits m (asp_ok (wf_modOk hw rfl (by decide)) (by decide))]; rfl
theorem atomMax (w : W) (m) : Statement (.atomMax w m) := by
  intro f hw hf
  injection hf with hf; subst hf; rw [build_fields (by decide) (by rfl)]; show (AtomMod.ofBits (AtomMod.bits m)).map _ = _; rw [AtomMod.ofBits_bits m (asp_ok (wf_modOk hw rfl (by decide)) (by decide))]; rfl
theorem atomAnd (w : W) (m) : Statement (.atomAnd w m) := by
  intro f hw hf
  injection hf with hf; subst hf; rw [build_fields (by decide) (by rfl)]; show (AtomMod.ofBits (AtomMod.bits m)).map _ = _; rw [AtomMod.ofBits_bits m (asp_ok (wf_modOk hw rfl (by decide)) (by decide))]; rfl
theorem atomOr (w : W) (m) : Statement (.atomOr w m) := by
  intro f hw hf
  injection hf with hf; subst hf; rw [build_fields (by decide) (by rfl)]; show (AtomMod.ofBits (AtomMod.bits m)).map _ = _; rw [AtomMod.ofBits_bits m (asp_ok (wf_modOk hw rfl (by decide)) (by decide))]; rfl
theorem atomXor (w : W) (m) : Statement (.atomXor w m) := by
  intro f hw hf
  injection hf with hf; subst hf; rw [build_fields (by decide) (by rfl)]; show (AtomMod.ofBits (AtomMod.bits m)).map _ = _; rw [AtomMod.ofBits_bits m (asp_ok (wf_modOk hw rfl (by decide)) (by decide))]; rfl
theorem atomExch (w : W) (m) : Statement (.atomExch w m) := by
  intro f hw hf
  injection hf with hf; subst hf; rw [build_fields (by decide) (by rfl)]; show (AtomMod.ofBits (AtomMod.bits m)).map _ = _; rw [AtomMod.ofBits_bits m (asp_ok (wf_modOk hw rfl (by decide)) (by decide))]; rfl
theorem cas (w : W) (m) : Statement (.cas w m) := by
  intro f hw hf
  injection hf with hf; subst hf; rw [build_fields (by decide) (by rfl)]; show (AtomMod.ofBits (AtomMod.bits m)).map _ = _; rw [AtomMod.ofBits_bits m (asp_ok (wf_modOk hw rfl (by decide)) (by decide))]; rfl
theorem redAdd (w : W) (m) : Statement (.redAdd w m) := by
  intro f hw hf
  injection hf with hf; subst hf; rw [build_fields (by decide) (by rfl)]; show (AtomMod.ofBits (AtomMod.bits m)).map _ = _; rw [AtomMod.ofBits_bits m (asp_ok (wf_modOk hw rfl (by decide)) (by decide))]; rfl
theorem redMin (w : W) (m) : Statement (.redMin w m) := by
  intro f hw hf
  injection hf with hf; subst hf; rw [build_fields (by decide) (by rfl)]; show (AtomMod.ofBits (AtomMod.bits m)).map _ = _; rw [AtomMod.ofBits_bits m (asp_ok (wf_modOk hw rfl (by decide)) (by decide))]; rfl
theorem redMax (w : W) (m) : Statement (.redMax w m) := by
  intro f hw hf
  injection hf with hf; subst hf; rw [build_fields (by decide) (by rfl)]; show (AtomMod.ofBits (AtomMod.bits m)).map _ = _; rw [AtomMod.ofBits_bits m (asp_ok (wf_modOk hw rfl (by decide)) (by decide))]; rfl
theorem redAnd (w : W) (m) : Statement (.redAnd w m) := by
  intro f hw hf
  injection hf with hf; subst hf; rw [build_fields (by decide) (by rfl)]; show (AtomMod.ofBits (AtomMod.bits m)).map _ = _; rw [AtomMod.ofBits_bits m (asp_ok (wf_modOk hw rfl (by decide)) (by decide))]; rfl
theorem redOr (w : W) (m) : Statement (.redOr w m) := by
  intro f hw hf
  injection hf with hf; subst hf; rw [build_fields (by decide) (by rfl)]; show (AtomMod.ofBits (AtomMod.bits m)).map _ = _; rw [AtomMod.ofBits_bits m (asp_ok (wf_modOk hw rfl (by decide)) (by decide))]; rfl
theorem redXor (w : W) (m) : Statement (.redXor w m) := by
  intro f hw hf
  injection hf with hf; subst hf; rw [build_fields (by decide) (by rfl)]; show (AtomMod.ofBits (AtomMod.bits m)).map _ = _; rw [AtomMod.ofBits_bits m (asp_ok (wf_modOk hw rfl (by decide)) (by decide))]; rfl
theorem bara (w : W) (m) : Statement (.bara w m) := by
  intro f hw hf
  injection hf with hf; subst hf; rw [build_fields (by decide) (by rfl)]; show (AtomMod.ofBits (AtomMod.bits m)).map _ = _; rw [AtomMod.ofBits_bits m (asp_ok (wf_modOk hw rfl (by decide)) (by decide))]; rfl
theorem barw (w : W) (m) : Statement (.barw w m) := by
  intro f hw hf
  injection hf with hf; subst hf; rw [build_fields (by decide) (by rfl)]; show (AtomMod.ofBits (AtomMod.bits m)).map _ = _; rw [AtomMod.ofBits_bits m (asp_ok (wf_modOk hw rfl (by decide)) (by decide))]; rfl
theorem bari (w : W) (m) : Statement (.bari w m) := by
  intro f _ hf
  injection hf with hf; subst hf; rw [build_fields (by decide) (by rfl)]; show (MemMod.ofBits (MemMod.bits m)).map _ = _; rw [MemMod.ofBits_bits]; rfl
theorem barb (w : W) : Statement (.barb w) := by
  intro f _ hf
  injection hf with hf; subst hf; rw [build_fields (by decide) (by rfl)]; rfl
theorem fence (w : W) (m) : Statement (.fence w m) := by
  intro f _ hf
  injection hf with hf; subst hf; rw [build_fields (by decide) (by rfl)]; show (Scope.ofCode ((m.code ++ 0#7).extractLsb' 7 3)).map _ = _; cases m <;> rfl
theorem tmapMap (w : W) : Statement (.tmapMap w) := by
  intro f hw hf
  injection hf with hf; subst hf; rw [build_fields (by decide) (by rfl)]; have := (wf_checks hw rfl).2.1; show some (if w.unmaps then _ else _) = _; rw [if_neg (by simpa [ownFields] using this)]
theorem tmapUnmap (w : W) : Statement (.tmapUnmap w) := by
  intro f hw hf
  injection hf with hf; subst hf; rw [build_fields (by decide) (by rfl)]; have := (wf_checks hw rfl).2.1; show some (if w.unmaps then _ else _) = _; rw [if_pos (by simpa [ownFields] using this)]
theorem tfetch (w : W) : Statement (.tfetch w) := by
  intro f _ hf
  injection hf with hf; subst hf; rw [build_fields (by decide) (by rfl)]; rfl
theorem tevict (w : W) : Statement (.tevict w) := by
  intro f _ hf
  injection hf with hf; subst hf; rw [build_fields (by decide) (by rfl)]; rfl
theorem tstat (w : W) : Statement (.tstat w) := by
  intro f _ hf
  injection hf with hf; subst hf; rw [build_fields (by decide) (by rfl)]; rfl
theorem copy (w : W) (m) : Statement (.copy w m) := by
  intro f _ hf
  injection hf with hf; subst hf; rw [build_fields (by decide) (by rfl)]; show (EngMod.ofBits (EngMod.bits m)).map _ = _; rw [EngMod.ofBits_bits]; rfl
theorem gather (w : W) (m) : Statement (.gather w m) := by
  intro f _ hf
  injection hf with hf; subst hf; rw [build_fields (by decide) (by rfl)]; show (EngMod.ofBits (EngMod.bits m)).map _ = _; rw [EngMod.ofBits_bits]; rfl
theorem scatter (w : W) (m) : Statement (.scatter w m) := by
  intro f _ hf
  injection hf with hf; subst hf; rw [build_fields (by decide) (by rfl)]; show (EngMod.ofBits (EngMod.bits m)).map _ = _; rw [EngMod.ofBits_bits]; rfl
theorem bclose (w : W) : Statement (.bclose w) := by
  intro f _ hf
  injection hf with hf; subst hf; rw [build_fields (by decide) (by rfl)]; rfl
theorem updSgdm (w : W) : Statement (.updSgdm w) := by
  intro f _ hf
  injection hf with hf; subst hf; rw [build_fields (by decide) (by rfl)]; rfl
theorem updAdamw (w : W) : Statement (.updAdamw w) := by
  intro f _ hf
  injection hf with hf; subst hf; rw [build_fields (by decide) (by rfl)]; rfl
theorem updstep (w : W) : Statement (.updstep w) := by
  intro f _ hf
  injection hf with hf; subst hf; rw [build_fields (by decide) (by rfl)]; rfl
theorem skpset (w : W) : Statement (.skpset w) := by
  intro f _ hf
  injection hf with hf; subst hf; rw [build_fields (by decide) (by rfl)]; rfl
theorem copy2d (w : W) (m) : Statement (.copy2d w m) := by
  intro f _ hf
  injection hf with hf; subst hf; rw [build_fields (by decide) (by rfl)]; show (EngMod.ofBits (EngMod.bits m)).map _ = _; rw [EngMod.ofBits_bits]; rfl
theorem cfill (w : W) (m) : Statement (.cfill w m) := by
  intro f _ hf
  injection hf with hf; subst hf; rw [build_fields (by decide) (by rfl)]; show (EngMod.ofBits (EngMod.bits m)).map _ = _; rw [EngMod.ofBits_bits]; rfl
theorem mmaQ (w : W) : Statement (.mmaQ w) := by
  intro f hw hf
  injection hf with hf; subst hf; rw [build_fields (by decide) (by rfl)]; have := (wf_checks hw rfl).2.1; show some (if w.len = .w64 then _ else _) = _; rw [if_pos (by simpa [ownFields] using this)]
theorem mmaQImage (w : W) : Statement (.mmaQImage w) := by
  intro f hw hf
  injection hf with hf; subst hf; rw [build_fields (by decide) (by rfl)]; have := (wf_checks hw rfl).2.1; show some (if w.len = .w64 then _ else _) = _; rw [if_neg (by simpa [ownFields] using this)]
theorem mzero (w : W) : Statement (.mzero w) := by
  intro f _ hf
  injection hf with hf; subst hf; rw [build_fields (by decide) (by rfl)]; rfl
theorem mld (w : W) (m) : Statement (.mld w m) := by
  intro f _ hf
  injection hf with hf; subst hf; rw [build_fields (by decide) (by rfl)]; show (MemMod.ofBits (MemMod.bits m)).map _ = _; rw [MemMod.ofBits_bits]; rfl
theorem mdrain (w : W) (m) : Statement (.mdrain w m) := by
  intro f _ hf
  injection hf with hf; subst hf; rw [build_fields (by decide) (by rfl)]; show (DrainMod.ofBits (DrainMod.bits m)).map _ = _; rw [DrainMod.ofBits_bits]; rfl
theorem mstat (w : W) : Statement (.mstat w) := by
  intro f _ hf
  injection hf with hf; subst hf; rw [build_fields (by decide) (by rfl)]; rfl
theorem collArReg (w : W) (m) : Statement (.collArReg w m) := by
  intro f hw hf
  injection hf with hf; subst hf; rw [build_fields (by decide) (by rfl)]; have := (wf_checks hw rfl).2.1; show (varOfBits 4 (varBits m)).map (if w.dst.code = 0 then Instr.collArBuf w else Instr.collArReg w) = _; rw [varOfBits_varBits _ _ (var_of (wf_modOk hw rfl (by decide))), if_neg (fun h => by simp [ownFields, code_zero h] at this)]; rfl
theorem collArBuf (w : W) (m) : Statement (.collArBuf w m) := by
  intro f hw hf
  injection hf with hf; subst hf; rw [build_fields (by decide) (by rfl)]; have := (wf_checks hw rfl).2.1; show (varOfBits 4 (varBits m)).map (if w.dst.code = 0 then Instr.collArBuf w else Instr.collArReg w) = _; rw [varOfBits_varBits _ _ (var_of (wf_modOk hw rfl (by decide))), if_pos (by simp only [ownFields, beq_iff_eq] at this; rw [this]; rfl)]; rfl
theorem collAg (w : W) : Statement (.collAg w) := by
  intro f _ hf
  injection hf with hf; subst hf; rw [build_fields (by decide) (by rfl)]; rfl
theorem collBc (w : W) : Statement (.collBc w) := by
  intro f _ hf
  injection hf with hf; subst hf; rw [build_fields (by decide) (by rfl)]; rfl

theorem pad (t) : Statement (.pad t) := by
  intro f _ hf
  injection hf with hf; subst hf
  show some (Instr.pad _) = _
  rw [pad_tag]
theorem quartetFuse (a b) : Statement (.quartetFuse a b) := by
  intro f _ hf; cases hf
theorem delayDeadline (a) : Statement (.delayDeadline a) := by
  intro f _ hf; cases hf
theorem memoryResultWrite (a) : Statement (.memoryResultWrite a) := by
  intro f _ hf; cases hf
theorem sfuResultWrite (a) : Statement (.sfuResultWrite a) := by
  intro f _ hf; cases hf
theorem rejDrawComplete (a) : Statement (.rejDrawComplete a) := by
  intro f _ hf; cases hf
theorem mldFill (a) : Statement (.mldFill a) := by
  intro f _ hf; cases hf
theorem smplRecordFill (a b) : Statement (.smplRecordFill a b) := by
  intro f _ hf; cases hf
theorem spawnPackItem (a) : Statement (.spawnPackItem a) := by
  intro f _ hf; cases hf
theorem partialGroupSeal (a b) : Statement (.partialGroupSeal a b) := by
  intro f _ hf; cases hf
theorem spawnedGroupStart (a) : Statement (.spawnedGroupStart a) := by
  intro f _ hf; cases hf
theorem placeBlock (a b) : Statement (.placeBlock a b) := by
  intro f _ hf; cases hf
theorem blockRetire (a) : Statement (.blockRetire a) := by
  intro f _ hf; cases hf
theorem tileArrive (a) : Statement (.tileArrive a) := by
  intro f _ hf; cases hf
theorem tileWritebackDone (a) : Statement (.tileWritebackDone a) := by
  intro f _ hf; cases hf
theorem unmapComplete (a b c) : Statement (.unmapComplete a b c) := by
  intro f _ hf; cases hf
theorem hodAppend (a) : Statement (.hodAppend a) := by
  intro f _ hf; cases hf
theorem faultService (a b c) : Statement (.faultService a b c) := by
  intro f _ hf; cases hf
theorem storeReplay (a) : Statement (.storeReplay a) := by
  intro f _ hf; cases hf
theorem churnOpComplete (a) : Statement (.churnOpComplete a) := by
  intro f _ hf; cases hf
theorem drainPerform (a) : Statement (.drainPerform a) := by
  intro f _ hf; cases hf
theorem copyJob (a) : Statement (.copyJob a) := by
  intro f _ hf; cases hf
theorem gatherScatterJob (a) : Statement (.gatherScatterJob a) := by
  intro f _ hf; cases hf
theorem updJob (a) : Statement (.updJob a) := by
  intro f _ hf; cases hf
theorem skpsetJob (a) : Statement (.skpsetJob a) := by
  intro f _ hf; cases hf
theorem updstepJob (a) : Statement (.updstepJob a) := by
  intro f _ hf; cases hf
theorem jobComplete (a) : Statement (.jobComplete a) := by
  intro f _ hf; cases hf
theorem collOperation (a b c d) : Statement (.collOperation a b c d) := by
  intro f _ hf; cases hf
theorem collf (a b c d e) : Statement (.collf a b c d e) := by
  intro f _ hf; cases hf
theorem wdogExpiry (a) : Statement (.wdogExpiry a) := by
  intro f _ hf; cases hf
theorem critx (a b) : Statement (.critx a b) := by
  intro f _ hf; cases hf
theorem debugResume (a) : Statement (.debugResume a) := by
  intro f _ hf; cases hf
theorem unitStop (a) : Statement (.unitStop a) := by
  intro f _ hf; cases hf
theorem thermalTrip (a) : Statement (.thermalTrip a) := by
  intro f _ hf; cases hf
theorem preempt (a b c) : Statement (.preempt a b c) := by
  intro f _ hf; cases hf
theorem drainTimeout (a) : Statement (.drainTimeout a) := by
  intro f _ hf; cases hf
theorem saveComplete (a) : Statement (.saveComplete a) := by
  intro f _ hf; cases hf
theorem resume (a b c d) : Statement (.resume a b c d) := by
  intro f _ hf; cases hf
theorem ctxsw (a b) : Statement (.ctxsw a b) := by
  intro f _ hf; cases hf
theorem switchComplete (a) : Statement (.switchComplete a) := by
  intro f _ hf; cases hf
theorem slice (a b c d e) : Statement (.slice a b c d e) := by
  intro f _ hf; cases hf
theorem moduleReady (a b) : Statement (.moduleReady a b) := by
  intro f _ hf; cases hf
theorem sliceStart : Statement (.sliceStart) := by
  intro f _ hf; cases hf
theorem slicex : Statement (.slicex) := by
  intro f _ hf; cases hf
theorem ctxnew (a b) : Statement (.ctxnew a b) := by
  intro f _ hf; cases hf
theorem ctxfree (a b) : Statement (.ctxfree a b) := by
  intro f _ hf; cases hf
theorem gridrun (a b c d e f g) : Statement (.gridrun a b c d e f g) := by
  intro f _ hf; cases hf
theorem stopread (a b) : Statement (.stopread a b) := by
  intro f _ hf; cases hf
theorem partitionReset (a) : Statement (.partitionReset a) := by
  intro f _ hf; cases hf
theorem tracectl (a b c) : Statement (.tracectl a b c) := by
  intro f _ hf; cases hf
theorem perfrd (a b c d e) : Statement (.perfrd a b c d e) := by
  intro f _ hf; cases hf
theorem perfSnapshot : Statement (.perfSnapshot) := by
  intro f _ hf; cases hf
theorem ewset (a b) : Statement (.ewset a b) := by
  intro f _ hf; cases hf
theorem smplctl (a b c) : Statement (.smplctl a b c) := by
  intro f _ hf; cases hf
theorem traceDrain (a) : Statement (.traceDrain a) := by
  intro f _ hf; cases hf
theorem clusterGating (a) : Statement (.clusterGating a) := by
  intro f _ hf; cases hf
theorem gatingDrainTimeout (a) : Statement (.gatingDrainTimeout a) := by
  intro f _ hf; cases hf
theorem gapRecord (a) : Statement (.gapRecord a) := by
  intro f _ hf; cases hf
theorem moduleReset (a) : Statement (.moduleReset a) := by
  intro f _ hf; cases hf
theorem mctpQuery (a) : Statement (.mctpQuery a) := by
  intro f _ hf; cases hf
theorem attestationRequest (a) : Statement (.attestationRequest a) := by
  intro f _ hf; cases hf
theorem linkPacket (a b c) : Statement (.linkPacket a b c) := by
  intro f _ hf; cases hf
theorem reservationGrant (a b) : Statement (.reservationGrant a b) := by
  intro f _ hf; cases hf
theorem linkDown (a) : Statement (.linkDown a) := by
  intro f _ hf; cases hf
theorem linkRetrain (a b) : Statement (.linkRetrain a b) := by
  intro f _ hf; cases hf
theorem descriptorReadDone (a) : Statement (.descriptorReadDone a) := by
  intro f _ hf; cases hf
theorem writePerformedAtDie (a) : Statement (.writePerformedAtDie a) := by
  intro f _ hf; cases hf
theorem supplyFault : Statement (.supplyFault) := by
  intro f _ hf; cases hf
theorem logRecordConsumed (a b) : Statement (.logRecordConsumed a b) := by
  intro f _ hf; cases hf

end Sys2Proof.Laws.Built
end

