-- ==== Sys2Proof/Tests/Slice0.lean ====
section
/-! SUPPORT. Tests: ill-formed instructions that the checks refuse, words of the spec that decode, single steps on small
states with results worked out from the rules, and for every statement with hypotheses a state that meets them. -/

namespace Sys2Proof.Tests

open Sys2Proof Sys2Proof.Machine

/-! Words -/

/-- A uniform 64-bit word; every field that is not named is zero. -/
def uw (dst : Src) (a : Src := .v 0) (b : Src := .v 0) (c : Src := .v 0) : W := plainWord .w64 true dst a b c 0
/-- A vector 64-bit word. -/
def vw (dst : Src) (a : Src := .v 0) (b : Src := .v 0) (c : Src := .v 0) : W := plainWord .w64 false dst a b c 0
/-- The word with no field. -/
abbrev w0 : W := uw (.v 0)
def i32 : IntMod := ⟨.i32, false, 0⟩
def n32 : IntMod := ⟨.n32, false, 0⟩
def b32 : IntMod := ⟨.b32, false, 0⟩
def f32 : FpMod := ⟨.f32, .rne, false, false⟩

/-! Ill-formed instructions: one for each check of R50 that a constructor can break, and for each field that tells
constructors of one opcode apart -/

theorem test_wf_ok : wf (.iadd (uw (.s 3) (.s 3) (.imm 1)) i32) = true := by decide
/-- Step 4: SPAWN exists in vector form only (R164). -/
theorem test_wf_form : wf (.spawn (uw (.v 0) (.s 2) (.imm 4))) = false := by decide
/-- Step 5: a branch carries its offset in an extension (R101). -/
theorem test_wf_length : wf (.bra w0 false) = false := by decide
/-- Step 6: a negated k0. -/
theorem test_wf_guard : wf (.iadd { uw (.s 3) (.s 3) (.imm 1) with gneg := true } i32) = false := by decide
/-- Step 7: IADD accepts no floating-point type (R74). -/
theorem test_wf_mod : wf (.iadd (uw (.s 3) (.s 3) (.imm 1)) ⟨.f32, false, 0⟩) = false := by decide
/-- Step 8: a uniform instruction reads no v register (R14). -/
theorem test_wf_operand : wf (.iadd (uw (.s 3) (.v 3) (.imm 1)) i32) = false := by decide
/-- Step 8: an odd register as a pair (R43). -/
theorem test_wf_pair : wf (.iadd (uw (.s 3) (.s 2) (.imm 1)) ⟨.i64, false, 0⟩) = false := by decide
/-- Step 8: an unused field that is not zero (R44). -/
theorem test_wf_unused : wf (.nop (uw (.v 0) (.s 1))) = false := by decide
/-- Step 9: an extension that nothing consumes (R44). -/
theorem test_wf_extension : wf (.iadd (plainWord .w96 true (.s 3) (.s 3) (.imm 1) (.v 0) 7) i32) = false := by decide
/-- Step 9: a branch offset that is no multiple of 4. -/
theorem test_wf_offset : wf (.bra (plainWord .w96 true (.v 0) (.v 0) (.v 0) (.v 0) 2) false) = false := by decide
/-- A 64-bit word has no extension. -/
theorem test_wf_short : wf (.iadd (plainWord .w64 true (.s 3) (.s 3) (.imm 1) (.v 0) 7) i32) = false := by decide
theorem test_wf_own_tmap : wf (.tmapMap (uw (.v 0) (.imm 0) (.s 2) (.imm 0))) = false ∧
    wf (.tmapUnmap (uw (.v 0) (.imm 0) (.s 2) (.imm 0))) = true := by decide
theorem test_wf_own_mma : wf (.mmaQ (plainWord .w128 false (.c 4) (.v 0) (.v 16) (.v 0) 0x200)) = false := by decide
theorem test_wf_own_coll : wf (.collArReg (uw (.v 0) (.s 2) (.imm 3)) 3) = false := by decide

/-! Words of the spec, by family -/

/-- Whether the decoder reads a word as an instruction. -/
def reads (w : BitVec 128) (i : Instr) : Bool := decide (decodeWord w = .ok i)

theorem test_decode_control : reads 4 (.nop w0) ∧ reads 0x54 (.join w0) ∧ reads 0x5C (.brk w0) ∧ reads 0x6C (.rte w0) ∧
    reads 0x0140000000000074 (.bkpt w0 5) ∧ reads 0x004000008800009C (.pctlExpect (uw (.v 0) (.s 8))) := by decide
theorem test_decode_wait : reads 0x8D000084 (.waitb (uw (.v 0) (.s 13))) := by decide
theorem test_decode_compare : reads 0x2080000083608148 (.icmp (vw (.k 1) (.s 3) (.v 0)) ⟨.i32, false, .lt⟩) := by decide
theorem test_decode_streams : reads 0x0000040C00000528 (.qseek (vw (.v 0) (.v 0) (.imm 3)) ⟨0, 0⟩) := by decide
theorem test_decode_group : reads 0xC14305AC (.poll (uw (.s 6) (.k 1)) 0) := by decide
theorem test_decode_memory : reads 0x0000040100028600 (.ld (vw (.v 5) (.imm 0) (.imm 0)) ⟨.b32, .sp⟩) ∧
    reads 0x6A4 (.barb w0) ∧ reads 0x60000000000006AC (.fence w0 .die) := by decide
theorem test_decode_engines : reads 0x72C (.updstep w0) ∧ reads 0x46871C (.bclose (uw (.s 13))) := by decide
theorem test_decode_matrix : reads 0x00090040006C0780 (.mmaQ (vw (.c 0) (.v 0) (.v 16) (.s 16))) ∧ reads 0x6C078C (.mzero (uw (.c 0))) := by
  decide
theorem test_decode_collective : reads 0x00000220900007D4 (.collBc (uw (.v 0) (.s 16) (.s 8))) := by decide
/-- The word of zeros has S = 0, which NOP does not have (R50, step 4), and LEN 11 names no length (step 1). -/
theorem test_decode_refused : decodeWord 0 = .error 4 ∧ decodeWord 3 = .error 1 := by decide

/-! Single steps. The state is that in which one group of 32 threads, in block 0 with 4,096 bytes of shared memory and four
tiles, stands at the head of the turn. -/

def s0 : State := State.reset.withFetchWord 64 4
def onG (f : Group → Group) (s : State := s0) : State := { s with groups := s.groups.map f }
def onB (f : Block → Block) (s : State := s0) : State := { s with blocks := s.blocks.map f }
def onC (f : Ctx → Ctx) (s : State := s0) : State := { s with ctxs := s.ctxs.map f }
/-- The group has these values in its s registers. -/
def withS (l : List (Nat × Word)) (s : State := s0) : State := onG (fun g => l.foldl (fun g e => g.sset e.1 e.2) g) s
def ran (i : Instr) (s : State) : Option State := match exec i s with | .next t => some t | _ => none
/-- The value of an s register of the group after an instruction. -/
def sAfter (i : Instr) (s : State) (r : Nat) : Option Word := (ran i s).bind fun t => (t.group? 1).map (·.sget r)
def vAfter (i : Instr) (s : State) (r t : Nat) : Option Word := (ran i s).bind fun u => (u.group? 1).map (·.vget r t)
def kAfter (i : Instr) (s : State) (r : Nat) : Option Word := (ran i s).bind fun u => (u.group? 1).map (·.kget r)
def pcAfter (i : Instr) (s : State) : Option VA := (ran i s).bind fun u => (u.group? 1).map (·.pc)

/-- 2^31 − 1 plus 1 wraps, and saturates with .sat (R74, R77). -/
theorem test_iadd : sAfter (.iadd (uw (.s 3) (.s 3) (.imm 1)) i32) (withS [(3, 0x7FFFFFFF)]) 3 = some 0x80000000 ∧
    sAfter (.iadd (uw (.s 3) (.s 3) (.imm 1)) ⟨.i32, true, 0⟩) (withS [(3, 0x7FFFFFFF)]) 3 = some 0x7FFFFFFF := by decide
/-- A vector instruction whose source is its destination, in thread 31 (R14). -/
theorem test_iadd_vector : vAfter (.iadd (vw (.v 2) (.v 2) (.s 3)) i32) (onG (fun g => g.vset 2 31 5) (withS [(3, 7)])) 2 31 = some 12 := by
  decide
/-- Subtraction is a − b; the high half of 2^31 squared as signed numbers is 2^30 (R74). -/
theorem test_isub : sAfter (.isub (uw (.s 4) (.s 2) (.s 3)) i32) (withS [(2, 3), (3, 5)]) 4 = some 0xFFFFFFFE := by decide
theorem test_imulh : sAfter (.imulh (uw (.s 4) (.s 2) (.s 2)) i32) (withS [(2, 0x80000000)]) 4 = some 0x40000000 := by decide
theorem test_andn : sAfter (.andn (uw (.s 4) (.s 2) (.s 3)) b32) (withS [(2, 0xFF), (3, 0x0F)]) 4 = some 0xF0 := by decide
theorem test_sar : sAfter (.sar (uw (.s 4) (.s 2) (.imm 4)) i32) (withS [(2, 0x80000000)]) 4 = some 0xF8000000 := by decide
theorem test_popc : sAfter (.popc (uw (.s 4) (.s 2)) b32) (withS [(2, 0xF0F00001)]) 4 = some 9 := by decide
/-- A vector compare writes the bits of the active threads and leaves the others (R10). -/
theorem test_icmp : kAfter (.icmp (vw (.k 1) (.v 0) (.imm 1)) ⟨.i32, false, .lt⟩)
    (onG fun g => ({ g with amask := 0xFF } : Group).kset 1 0xFFFF0000) 1 = some 0xFFFF00FF := by decide
/-- 1.0 + 2^−24 rounds to even, 1.0; rounded up it is the next code (R51, R85). -/
theorem test_fadd : sAfter (.fadd (uw (.s 4) (.s 2) (.s 3)) f32) (withS [(2, 0x3F800000), (3, 0x33800000)]) 4 = some 0x3F800000 ∧
    sAfter (.fadd (uw (.s 4) (.s 2) (.s 3)) ⟨.f32, .ru, false, false⟩) (withS [(2, 0x3F800000), (3, 0x33800000)]) 4 = some 0x3F800001 := by
  decide
/-- FNEG flips the sign of a NaN too (R86). -/
theorem test_fneg : sAfter (.fneg (uw (.s 4) (.s 2)) f32) (withS [(2, 0x7FC00000)]) 4 = some 0xFFC00000 := by decide
theorem test_knot : kAfter (.knot (uw (.k 3) (.k 1))) (onG fun g => g.kset 1 0xF) 3 = some 0xFFFFFFF0 := by decide
/-- k0 ignores writes (R10). -/
theorem test_k0 : kAfter (.kmov (uw (.k 0) (.s 2))) s0 0 = some 0xFFFFFFFF := by decide
/-- CALL goes to its target and pushes the address behind it (R25). -/
theorem test_call : pcAfter (.call (plainWord .w96 true (.v 0) (.v 0) (.v 0) (.v 0) 0x40)) s0 = some 0x40 ∧
    ((ran (.call (plainWord .w96 true (.v 0) (.v 0) (.v 0) (.v 0) 0x40)) s0).bind fun t =>
      (t.group? 1).map (·.stack)) = some [⟨1, 0xFFFFFFFF, 12⟩] := by decide
/-- RET with an empty stack traps STACK with detail 3, and enters the handler (R25, R285, R288). -/
theorem test_ret_traps : pcAfter (.ret w0) (onC fun c => { c with ctl := { c.ctl with hentry := 0x100 } }) = some 0x100 ∧
    sAfter (.ret w0) (onC fun c => { c with ctl := { c.ctl with hentry := 0x100 } }) 58 = some 0x306 := by decide
/-- TRAP gives its code and its operand to the handler (R288). -/
theorem test_trap : sAfter (.trap (uw (.v 0) (.s 5)) 0x21) (onC (fun c => { c with ctl := { c.ctl with hentry := 0x100 } }) (withS [(5, 77)])) 61
    = some 77 ∧ sAfter (.trap (uw (.v 0) (.s 5)) 0x21)
      (onC (fun c => { c with ctl := { c.ctl with hentry := 0x100 } }) (withS [(5, 77)])) 58 = some 0x2108 := by decide
/-- A store to shared memory is little-endian (R5, R205). -/
theorem test_st : ((ran (.st (uw (.v 0) (.s 2) (.imm 0) (.s 3)) ⟨.b32, .sh⟩) (withS [(2, 8), (3, 0x11223344)])).bind fun t =>
    (t.block? 0).map fun b => (b.sh.read 8, b.sh.read 11)) = some (0x44, 0x11) := by decide
/-- A load is in flight; its register is empty until then (R19, R204). -/
theorem test_ld : ((ran (.ld (uw (.s 4) (.s 2) (.imm 0)) ⟨.b32, .sh⟩) (onB (fun b => { b with sh := b.sh.writeN 8 4 99 }) (withS [(2, 8)]))).bind
    fun t => (t.group? 1).map fun g => (g.sempty 4, t.results.map (·.writes))) = some (true, [[⟨false, 4, 0, 99⟩]]) := by decide
/-- Two threads that add to one word: both additions take place (R206). -/
theorem test_red : ((ran (.redAdd (vw (.v 0) (.s 2) (.imm 0) (.imm 1)) ⟨.blk, .relaxed, .sh, .i32⟩) (onG (fun g => { g with amask := 3 }) (withS [(2, 8)]))).bind
    fun t => (t.block? 0).map fun b => b.sh.readN 8 4) = some 2 := by decide
theorem test_bclose : sAfter (.bclose (uw (.s 13))) s0 13 = some 1 := by decide
/-- MZERO leaves LAST = 01 in the status record (R249, R250). -/
theorem test_mzero : sAfter (.mstat (uw (.s 4) (.c 1))) ((ran (.mzero (uw (.c 1))) s0).getD s0) 4 = some 0x10 := by decide
theorem test_exit : ((ran (.exit w0) s0).map fun t => (t.groups.length, (t.block? 0).map (·.retcnt))) = some (0, some 1) := by decide
/-- After reset with a word placed, the step runs it. -/
theorem test_first : (match step (State.reset.withFetchWord 64 0x2000040483418104) with
    | .next t => (t.group? 1).map fun g => (g.sget 3, g.pc) | _ => none) = some (1, 8) := by decide

/-! States that meet the hypotheses of the statements -/

/-- The group at the head of the turn issues by itself an instruction with fields f that acts, and P holds of the issue. -/
def Meets (s : State) (f : Fields) (P : Cx → Prop) : Prop := ∃ x, Solo s f x ∧ x.Acts ∧ P x

def meets (s : State) (f : Fields) (p : Cx → Bool) : Bool :=
  match s.turn with
  | [] => false
  | it :: _ => match s.cx? it.gid f with
    | none => false
    | some x => !s.fusedGroup x.g && (!x.skipped && (decide (x.emptyTrap.1 = 0) && (!x.heldBack && p x)))

theorem Meets.dec {s : State} {f : Fields} {P : Cx → Prop} (d : ∀ x, Decidable (P x))
    (h : meets s f (fun x => @decide (P x) (d x)) = true) : Meets s f P := by
  unfold meets at h
  split at h
  · cases h
  · rename_i it rest ht
    split at h
    · cases h
    · rename_i x hx
      simp only [Bool.and_eq_true, Bool.not_eq_true', decide_eq_true_eq] at h
      exact ⟨x, ⟨⟨it, rest, ht, hx⟩, h.1⟩, ⟨h.2.1, h.2.2.1, h.2.2.2.1⟩, h.2.2.2.2⟩

theorem Meets.imp {s : State} {f : Fields} {P Q : Cx → Prop} (h : Meets s f P) (hi : ∀ x, P x → Q x) : Meets s f Q :=
  h.elim fun x hx => ⟨x, hx.1, hx.2.1, hi x hx.2.2⟩

/-- An access of one space other than a window that no drain meets. -/
theorem reaches_of {x : Cx} {spc : Space} {row : TileRow} {n : Nat} {addrs : List Nat} {entries : TileRef → List HodEntry}
    (hw : spc ≠ .tw) (h : ∀ a ∈ addrs, x.drained spc a n = false) : x.Reaches spc row n addrs entries :=
  ⟨h, fun e => absurd e hw⟩

theorem meets_IntegerResults : ∃ f sh, lift integerRow (.iadd (uw (.s 3) (.s 3) (.imm 1)) i32) = some (f, sh) ∧
    Meets s0 f fun x => x.namesRej = false ∧ x.quiet (causesOf (sh x).1) :=
  ⟨_, _, rfl, .dec (by intro x; delta Cx.quiet; infer_instance) (by decide)⟩
theorem meets_BitResults : ∃ f sh, lift bitsRow (.mov (vw (.v 2) (.v 1)) b32) = some (f, sh) ∧
    Meets s0 f fun x => x.namesRej = false ∧ x.quiet (causesOf (sh x).1) :=
  ⟨_, _, rfl, .dec (by intro x; delta Cx.quiet; infer_instance) (by decide)⟩
theorem meets_FloatResults : ∃ f sh, lift floatRow (.fadd (uw (.s 4) (.s 2) (.s 3)) f32) = some (f, sh) ∧
    Meets s0 f fun x => x.namesRej = false ∧ x.quiet (causesOf (sh x).1) :=
  ⟨_, _, rfl, .dec (by intro x; delta Cx.quiet; infer_instance) (by decide)⟩
theorem meets_ConversionResults : ∃ f sh, lift convertRow (.cvtII (uw (.s 4) (.s 2)) ⟨.i8, .i32, .rne, false, false⟩) = some (f, sh) ∧
    Meets s0 f fun x => x.namesRej = false ∧ x.quiet (causesOf (sh x).1) :=
  ⟨_, _, rfl, .dec (by intro x; delta Cx.quiet; infer_instance) (by decide)⟩
theorem meets_MaskResults : ∃ f sh, lift maskRow (.knot (uw (.k 3) (.k 1))) = some (f, sh) ∧
    Meets s0 f fun x => x.namesRej = false ∧ x.quiet (causesOf (sh x).1) :=
  ⟨_, _, rfl, .dec (by intro x; delta Cx.quiet; infer_instance) (by decide)⟩
theorem meets_ExchangeResults : ∃ f sh, exchangeRow (.shfl (vw (.v 2) (.v 1) (.imm 16)) ⟨.b32, false, 3⟩) = some (f, sh) ∧
    Meets s0 f fun x => x.namesRej = false ∧ x.quiet (causesOf (sh x).1) :=
  ⟨_, _, rfl, .dec (by intro x; delta Cx.quiet; infer_instance) (by decide)⟩
theorem meets_GroupEffects : ∃ f eff pc, groupRow (.delay (uw (.v 0) (.imm 0))) = some (f, eff, pc) ∧ Meets s0 f fun _ => True :=
  ⟨_, _, _, rfl, .dec (fun _ => inferInstance) (by decide)⟩
theorem meets_SlotReads : ∃ f v, slotReadRow (.qsave (vw (.v 2)) ⟨3, 0⟩) = some (f, v) ∧ Meets s0 f fun _ => True :=
  ⟨_, _, rfl, .dec (fun _ => inferInstance) (by decide)⟩
theorem meets_StreamChanges : ∃ f keys poss, streamRow (.qfork (vw (.v 0) (.s 2)) ⟨0, 3⟩) = some (f, keys, poss) ∧ Meets s0 f fun _ => True :=
  ⟨_, _, _, rfl, .dec (fun _ => inferInstance) (by decide)⟩

/-- d1 holds a distribution by rejection (R111, R115). -/
def withRej : State := onG fun g => { g with d := Sparse.put 0 g.d 1 5 }
theorem meets_RejResultsInFlight : ∃ f sh r0, resultRow (.mov (vw (.v 2) (.d 1)) b32) = some (f, sh) ∧
    (Meets withRej f fun x => x.namesRej = true) ∧ Src.of f.dst = .v r0 :=
  ⟨_, _, 2, rfl, .dec (fun _ => inferInstance) (by decide), by decide⟩
/-- The context traps every cause, or logs every cause, of dividing by zero and the others (R72, R283). -/
def withFp (v : BitVec 10) (s : State := s0) : State := onC (fun c => { c with ctl := { c.ctl with fpctl := v } }) s
theorem meets_FpTraps : ∃ f sh, resultRow (.fadd (uw (.s 4) (.s 2) (.s 3)) f32) = some (f, sh) ∧
    Meets (withFp 0x2AA (withS [(2, 0x3F800000), (3, 0x33800000)])) f fun x =>
      x.namesRej = false ∧ x.g.stay = false ∧ causesOf (sh x).1 &&& fpTrapped x.c.ctl.fpctl ≠ 0 :=
  ⟨_, _, rfl, .dec (fun _ => inferInstance) (by decide)⟩
theorem meets_FpLogs : ∃ f sh, resultRow (.fadd (uw (.s 4) (.s 2) (.s 3)) f32) = some (f, sh) ∧
    Meets (withFp 0x155 (withS [(2, 0x3F800000), (3, 0x33800000)])) f fun x =>
      x.namesRej = false ∧ causesOf (sh x).1 &&& fpTrapped x.c.ctl.fpctl = 0 ∧ causesOf (sh x).1 &&& fpLogged x.c.ctl.fpctl ≠ 0 :=
  ⟨_, _, rfl, .dec (fun _ => inferInstance) (by decide)⟩
/-- A compare of a signalling NaN, which raises a cause that is set to trap, and one that raises none. -/
theorem meets_Compares : ∃ f cmp, compareRow (.fcmp (uw (.k 1) (.s 2) (.s 3)) ⟨.f32, false, .lt⟩) = some (f, cmp) ∧ Src.of f.dst = .k 1 ∧
    (Meets (withFp 0x2AA (withS [(2, 0x7F800001)])) f fun x => x.namesRej = false ∧ x.g.stay = false ∧
      causesOf (sharesOf x (cmpShare cmp x) x.each Draw.start).1 &&& fpTrapped x.c.ctl.fpctl ≠ 0) ∧
    Meets s0 f fun x => x.namesRej = false ∧
      causesOf (sharesOf x (cmpShare cmp x) x.each Draw.start).1 &&& fpTrapped x.c.ctl.fpctl = 0 :=
  ⟨_, _, rfl, by decide, .dec (fun _ => inferInstance) (by decide), .dec (fun _ => inferInstance) (by decide)⟩
/-- A compare, SETSR and GRED to an s register with the distribution: its draws have ended, are under way, are to begin. -/
def rejCmp : Fields := (vw (.k 1) (.d 1) (.imm 0)).fields 0x29 (⟨.i32, false, .lt⟩ : CmpMod).bits
def rejSet : Fields := (vw (.v 0) (.d 1)).fields 0x12 0x010
def rejGred : Fields := (vw (.s 4) (.d 1)).fields 0xB8 i32.bits
def underWay : State := onG (fun g => { g with rejHeld := some [] }) withRej
theorem meets_RejAttemptsWait :
    (heldRow (.icmp (vw (.k 1) (.d 1) (.imm 0)) ⟨.i32, false, .lt⟩) = some rejCmp ∧ heldRow (.setsr (vw (.v 0) (.d 1)) 0x010) = some rejSet ∧
      heldRow (.gred (vw (.s 4) (.d 1)) i32) = some rejGred) ∧
    (Meets (onG (fun g => { g with stayDone := true }) withRej) rejCmp fun x => x.namesRej = true ∧ x.g.stayDone = true) ∧
    (Meets underWay rejCmp fun x => x.namesRej = true ∧ x.g.stayDone = false ∧ x.g.rejHeld.isSome = true) ∧
    (Meets underWay rejSet fun x => x.namesRej = true ∧ x.g.stayDone = false ∧ x.g.rejHeld.isSome = true) ∧
    (Meets underWay rejGred fun x => x.namesRej = true ∧ x.g.stayDone = false ∧ x.g.rejHeld.isSome = true) ∧
    (Meets withRej rejCmp fun x => x.namesRej = true ∧ x.g.stayDone = false ∧ x.g.rejHeld = none) ∧
    (Meets withRej rejSet fun x => x.namesRej = true ∧ x.g.stayDone = false ∧ x.g.rejHeld = none) ∧
    Meets withRej rejGred fun x => x.namesRej = true ∧ x.g.stayDone = false ∧ x.g.rejHeld = none :=
  ⟨by decide, .dec (fun _ => inferInstance) (by decide), .dec (fun _ => inferInstance) (by decide), .dec (fun _ => inferInstance) (by decide),
    .dec (fun _ => inferInstance) (by decide), .dec (fun _ => inferInstance) (by decide), .dec (fun _ => inferInstance) (by decide),
    .dec (fun _ => inferInstance) (by decide)⟩
theorem meets_SpecialFunctions : ∃ f fn, sfuRow (.rcp (uw (.s 4) (.s 2)) f32) = some (f, fn) ∧ Meets s0 f fun _ => True :=
  ⟨_, _, rfl, .dec (fun _ => inferInstance) (by decide)⟩
/-- A sum of integers, which raises nothing; of two signalling NaNs, whose cause is set to trap; the distribution, its draws ended. -/
def nans (v : BitVec 10) : State := withFp v (onG fun g => ({ g with amask := 3 } : Group).vset 1 0 0x7F800001)
def gredF32 : IntMod := ⟨.f32, false, 0⟩
theorem meets_ScalarReductions : Src.of ((vw (.s 4) (.v 1)).fields 0xB8 i32.bits).dst = .s 4 ∧
    (Meets s0 ((vw (.s 4) (.v 1)).fields 0xB8 i32.bits) fun x => x.namesRej = false ∧
      (reduce 0 i32 ((valuesOf x x.threads Draw.start).1.map (·.2))).2 = 0) ∧
    (Meets (nans 0x2AA) ((vw (.s 4) (.v 1)).fields 0xB8 gredF32.bits) fun x => x.namesRej = false ∧ x.g.stay = false ∧ x.threads ≠ [] ∧
      (reduce 0 gredF32 ((valuesOf x x.threads Draw.start).1.map (·.2))).2 &&& fpTrapped x.c.ctl.fpctl ≠ 0) ∧
    (Meets (nans 0x155) ((vw (.s 4) (.v 1)).fields 0xB8 gredF32.bits) fun x => x.namesRej = false ∧ fpTrapped x.c.ctl.fpctl = 0 ∧
      (reduce 0 gredF32 ((valuesOf x x.threads Draw.start).1.map (·.2))).2 &&& fpLogged x.c.ctl.fpctl ≠ 0) ∧
    Meets (onG (fun g => { g with stayDone := true }) withRej) ((vw (.s 4) (.d 1)).fields 0xB8 i32.bits) fun x =>
      x.namesRej = true ∧ x.g.stayDone = true :=
  ⟨by decide, .dec (fun _ => inferInstance) (by decide), .dec (fun _ => inferInstance) (by decide), .dec (fun _ => inferInstance) (by decide),
    .dec (fun _ => inferInstance) (by decide)⟩
/-- The bits of sr.mstat that all threads name, and of sr.fpstat. -/
theorem meets_SpecialRegisterClears : (Meets s0 ((uw (.v 0) (.s 2)).fields 0x12 0x011) fun x => x.namesRej = true → x.g.stayDone = true) ∧
    Meets s0 ((vw (.v 0) (.v 2)).fields 0x12 0x010) fun x => x.namesRej = true → x.g.stayDone = true :=
  ⟨.dec (fun _ => inferInstance) (by decide), .dec (fun _ => inferInstance) (by decide)⟩

set_option maxRecDepth 4096 in
theorem meets_StackOperations : ∃ f eff, stackRow (.braD (plainWord .w96 true (.v 0) (.k 1) (.v 0) (.v 0) 0x40)) = some (f, eff) ∧
    Meets (onG fun g => { g.kset 1 1 with stack := List.replicate 127 ⟨2, 1, 0⟩ }) f fun x => (eff x).isSome = true :=
  ⟨_, _, rfl, .dec (fun _ => inferInstance) (by decide)⟩
set_option maxRecDepth 4096 in
/-- The 129th entry, and an entry that is missing. -/
theorem meets_StackTraps : ∃ f eff f' eff', stackRow (.pushj (plainWord .w96 true (.v 0) (.v 0) (.v 0) (.v 0) 0x40)) = some (f, eff) ∧
    stackRow (.ret w0) = some (f', eff') ∧
    (Meets (onG fun g => { g with stack := List.replicate 128 ⟨2, 1, 0⟩ }) f fun x => eff x = none) ∧ Meets s0 f' fun x => eff' x = none :=
  ⟨_, _, _, _, rfl, rfl, .dec (fun _ => inferInstance) (by decide), .dec (fun _ => inferInstance) (by decide)⟩

/-- As Meets, of an issue that may wait, trap or be skipped. -/
def Issues (s : State) (f : Fields) (P : Cx → Prop) : Prop := ∃ x, Solo s f x ∧ P x

def issues (s : State) (f : Fields) (p : Cx → Bool) : Bool :=
  match s.turn with
  | [] => false
  | it :: _ => match s.cx? it.gid f with
    | none => false
    | some x => !s.fusedGroup x.g && p x

theorem Issues.dec {s : State} {f : Fields} {P : Cx → Prop} (d : ∀ x, Decidable (P x))
    (h : issues s f (fun x => @decide (P x) (d x)) = true) : Issues s f P := by
  unfold issues at h
  split at h
  · cases h
  · rename_i it rest ht
    split at h
    · cases h
    · rename_i x hx
      simp only [Bool.and_eq_true, Bool.not_eq_true', decide_eq_true_eq] at h
      exact ⟨x, ⟨⟨it, rest, ht, hx⟩, h.1⟩, h.2⟩

/-- A guard that does not hold: k1 is 0. -/
theorem meets_SkippedInstructions : isMma (.nop { w0 with gidx := 1 }) = false ∧
    Issues s0 (({ w0 with gidx := 1 } : W).fields 0 0) fun x => x.skipped = true :=
  ⟨rfl, .dec (fun _ => inferInstance) (by decide)⟩
theorem meets_EmptySourcesTrap : Issues (onG fun g => g.smark 3 true)
    (({ uw (.s 4) with a := ⟨.s 3, true⟩ } : W).fields 0x25 i32.bits) fun x =>
      x.skipped = false ∧ entersPlain (.ineg { uw (.s 4) with a := ⟨.s 3, true⟩ } i32) x ∧ x.emptyTrap.1 ≠ 0 :=
  .dec (by intro x; unfold entersPlain; infer_instance) (by decide)
theorem meets_HeldBackWaits : Issues (onG fun g => g.smark 3 true) ((uw (.s 4) (.s 3)).fields 0x25 i32.bits) fun x =>
    x.skipped = false ∧ entersPlain (.ineg (uw (.s 4) (.s 3)) i32) x ∧ x.emptyTrap.1 = 0 ∧ x.heldBack = true :=
  .dec (by intro x; unfold entersPlain; infer_instance) (by decide)

/-- Threads 0 to 7 end; thread 8 is left in the entry below. -/
theorem meets_PartialExit : ∃ m pc st, (Meets (onG fun g => { g with amask := 0xFF, stack := [⟨2, 0xFFFFFF00, 0x80⟩] })
    (w0.fields 0x01 0) fun x => x.g.allFull = true ∧ x.g.exist &&& ~~~(x.g.fin ||| x.g.amask) ≠ 0 ∧
      resolve (x.g.stack.map fun e => { e with mask := e.mask &&& ~~~x.g.amask }) = some (m, pc, st)) :=
  ⟨0xFFFFFF00, 0x80, [], .dec (fun _ => inferInstance) (by decide)⟩
/-- Nothing below for the threads that are left. -/
theorem meets_ExitTraps : Meets (onG fun g => { g with amask := 0xFF }) (w0.fields 0x01 0) fun x => x.g.allFull = true ∧
    x.g.exist &&& ~~~(x.g.fin ||| x.g.amask) ≠ 0 ∧ resolve (x.g.stack.map fun e => { e with mask := e.mask &&& ~~~x.g.amask }) = none :=
  .dec (fun _ => inferInstance) (by decide)
theorem meets_FinalExit : Meets s0 (w0.fields 0x01 0) fun x => x.g.allFull = true ∧ x.g.exist &&& ~~~(x.g.fin ||| x.g.amask) = 0 :=
  .dec (fun _ => inferInstance) (by decide)
theorem meets_ExitWaits : Meets (onG fun g => g.smark 63 true) (w0.fields 0x01 0) fun x => x.g.allFull = false :=
  .dec (fun _ => inferInstance) (by decide)

/-- BRT: a table at 4, an index at its bound, an index below it whose entry names a PAD at 0 or none, and one whose entry lies in no
page. -/
def brtW : W := uw (.v 0) (.s 0) (.s 2) (.s 4)
def withTable (word : Nat) : State := withS [(0, 0), (2, 0x100), (4, 1)] (State.reset.withFetchWord 64 word)
theorem meets_TableBranches :
    (Meets (withS [(2, 4)]) (brtW.fields 0x06 0) fun x => ((x.getB 0).extractLsb' 0 52).toNat % 8 ≠ 0) ∧
    (Meets (withS [(0, 1), (4, 1)]) (brtW.fields 0x06 0) fun x =>
      ((x.getB 0).extractLsb' 0 52).toNat % 8 = 0 ∧ codeOf (x.getC 0) ≤ codeOf (x.getA 0)) ∧
    (Meets (withTable 0x3C) (brtW.fields 0x06 0) fun x => ((x.getB 0).extractLsb' 0 52).toNat % 8 = 0 ∧ codeOf (x.getA 0) < codeOf (x.getC 0) ∧
      x.s.fetchXlat x.c (((x.getB 0).extractLsb' 0 52) + BitVec.ofNat 52 (8 * codeOf (x.getA 0))).toNat = .ok 0x100 0 ∧
      x.s.padAt x.c 0 (BitVec.ofNat 52 (x.s.dram.readN 0x100 8)) (BitVec.ofNat 12 (x.s.dram.readN 0x100 8 / 2 ^ 52)) = true) ∧
    Meets (withTable 4) (brtW.fields 0x06 0) fun x => ((x.getB 0).extractLsb' 0 52).toNat % 8 = 0 ∧ codeOf (x.getA 0) < codeOf (x.getC 0) ∧
      x.s.fetchXlat x.c (((x.getB 0).extractLsb' 0 52) + BitVec.ofNat 52 (8 * codeOf (x.getA 0))).toNat = .ok 0x100 0 ∧
      x.s.padAt x.c 0 (BitVec.ofNat 52 (x.s.dram.readN 0x100 8)) (BitVec.ofNat 12 (x.s.dram.readN 0x100 8 / 2 ^ 52)) = false ∧ readPa (dieOf x.g.core) 0x100 0 = 0x100 :=
  ⟨.dec (fun _ => inferInstance) (by decide), .dec (fun _ => inferInstance) (by decide), .dec (fun _ => inferInstance) (by decide),
    .dec (fun _ => inferInstance) (by decide)⟩

theorem meets_TableBranches_halt : Meets (withS [(0, 0), (3, 1), (4, 1)]) (brtW.fields 0x06 0) fun x =>
    ((x.getB 0).extractLsb' 0 52).toNat % 8 = 0 ∧ codeOf (x.getA 0) < codeOf (x.getC 0) ∧
      ∀ pa attr, x.s.fetchXlat x.c (((x.getB 0).extractLsb' 0 52) + BitVec.ofNat 52 (8 * codeOf (x.getA 0))).toNat ≠ .ok pa attr :=
  (Meets.dec (P := fun x => (((x.getB 0).extractLsb' 0 52).toNat % 8 = 0 ∧ codeOf (x.getA 0) < codeOf (x.getC 0)) ∧
    (match x.s.fetchXlat x.c (((x.getB 0).extractLsb' 0 52) + BitVec.ofNat 52 (8 * codeOf (x.getA 0))).toNat with
      | .ok _ _ => false | _ => true) = true) (fun _ => inferInstance) (by decide)).imp fun x h =>
    ⟨h.1.1, h.1.2, fun pa attr e => by have h := h.2; rw [e] at h; cases h⟩

theorem meets_SoftwareTraps : (Meets s0 ((uw (.v 0) (.s 5)).fields 0x0C (0#2 ++ 0x21#8)) fun _ => True) ∧
    Meets s0 (w0.fields 0x0E (0#2 ++ 5#8)) fun _ => True :=
  ⟨.dec (fun _ => inferInstance) (by decide), .dec (fun _ => inferInstance) (by decide)⟩

/-- In the handler, with the program to go on at 0x40 in thread 0. -/
def inHandler (f : Group → Group := id) : State :=
  onG fun g => f { g.putS [(56, 0x40), (60, 1)] with handler := some ⟨8, 0, 1, 1, 0, 0x40, 0⟩ }
def rteF : Fields := w0.fields 0x0D 0
theorem meets_HandlerReturn : (Meets s0 rteF fun x => x.g.handler = none) ∧
    (Meets (inHandler fun g => g.smark 63 true) rteF fun x => x.g.handler.isSome = true ∧ x.g.bankFull = false) ∧
    (Meets (inHandler fun g => g.sset 60 0) rteF fun x => x.g.handler.isSome = true ∧ x.g.bankFull = true ∧ x.g.returnFrom = none) ∧
    (Meets inHandler rteF fun x => x.g.handler.isSome = true ∧ x.g.bankFull = true ∧ x.g.returnFrom.any (fun g => g.queue.isEmpty) = true) ∧
    Meets (onC (fun c => { c with ctl := { c.ctl with hentry := 0x100 } }) (inHandler fun g => { g with queue := [⟨4, 0, 1, 1, 0, 0, 0⟩] }))
      rteF fun x => x.g.handler.isSome = true ∧ x.g.bankFull = true ∧ x.g.returnFrom.any (fun g => !g.queue.isEmpty) = true ∧ x.c.ctl.hentry ≠ 0 :=
  ⟨.dec (fun _ => inferInstance) (by decide), .dec (fun _ => inferInstance) (by decide), .dec (fun _ => inferInstance) (by decide),
    .dec (fun _ => inferInstance) (by decide), .dec (fun _ => inferInstance) (by decide)⟩

def tag (r : Option (List Word)) : Smpl := ⟨0, 0xC0, 1, false, false, false, false, 8, 0, 0, true, none, r⟩
theorem meets_SampleReads : (Meets s0 ((uw (.s 8)).fields 0x11 0x016) fun x => x.g.smpl = none) ∧
    (Meets (onG fun g => { g with smpl := some (tag (some [1, 2, 3, 4, 5, 6, 7, 8])) }) ((uw (.s 8)).fields 0x11 0x016) fun x =>
      x.g.smpl = some (tag (some [1, 2, 3, 4, 5, 6, 7, 8]))) ∧
    Meets (onG fun g => { g with smpl := some (tag none) }) ((uw (.s 8)).fields 0x11 0x016) fun x =>
      x.g.smpl = some (tag none) ∧ (tag none).record = none :=
  ⟨.dec (fun _ => inferInstance) (by decide), .dec (fun _ => inferInstance) (by decide), .dec (fun _ => inferInstance) (by decide)⟩

/-- A request to pre-empt context 0 on core 0 is not decided. -/
def requested : State := { s0 with prereqs := [⟨0, 0, 0, false⟩] }
theorem meets_BlocksAndDistributions : (Meets s0 (w0.fields 0x13 0) fun x => x.s.preemptOf x.b = none) ∧
    (Meets s0 ((uw (.v 0) (.s 8)).fields 0x13 1) fun x => x.s.preemptOf x.b = none) ∧
    (Meets requested (w0.fields 0x13 0) fun x => x.s.preemptOf x.b = some ⟨0, 0, 0, false⟩) ∧
    (Meets requested ((uw (.v 0) (.s 8)).fields 0x13 1) fun x => x.s.preemptOf x.b = some ⟨0, 0, 0, false⟩) ∧
    (Meets s0 ((uw (.v 0) (.s 8)).fields 0xA0 (varBits 3)) fun x => descOk (x.getA 0) x.b.shmem = true) ∧
    Meets (withS [(8, 6)]) ((uw (.v 0) (.s 8)).fields 0xA0 (varBits 3)) fun x => descOk (x.getA 0) x.b.shmem = false :=
  ⟨.dec (fun _ => inferInstance) (by decide), .dec (fun _ => inferInstance) (by decide), .dec (fun _ => inferInstance) (by decide), .dec (fun _ => inferInstance) (by decide), .dec (fun _ => inferInstance) (by decide),
    .dec (fun _ => inferInstance) (by decide)⟩

/-! Memory -/

def spst (n : Nat) : Fields := (vw (.v 0) (.v 1) (.imm (BitVec.ofNat 8 n)) (.s 2)).fields 0x45 b32.bits
def spld (n : Nat) : Fields := (vw (.v 1) (.imm (BitVec.ofNat 8 n)) (.s 2)).fields 0x46 b32.bits
/-- The last run that lies within the 960 bytes, and the next one. -/
theorem meets_SpillRuns :
    (Meets (withS [(2, 956)]) (spst 1) fun x => spillOffset ((x.getC 0).extractLsb' 0 32) (immOf x.f.b).toNat = some 956) ∧
    (Meets (withS [(2, 960)]) (spst 1) fun x => x.act ≠ 0 ∧ spillOffset ((x.getC 0).extractLsb' 0 32) (immOf x.f.b).toNat = none) ∧
    (Meets (withS [(2, 956)]) (spld 1) fun x => spillOffset ((x.getB 0).extractLsb' 0 32) (immOf x.f.a).toNat = some 956) ∧
    Meets (withS [(2, 960)]) (spld 1) fun x => x.act ≠ 0 ∧ spillOffset ((x.getB 0).extractLsb' 0 32) (immOf x.f.a).toNat = none :=
  ⟨.dec (fun _ => inferInstance) (by decide), .dec (fun _ => inferInstance) (by decide), .dec (fun _ => inferInstance) (by decide),
    .dec (fun _ => inferInstance) (by decide)⟩

def sh32 : MemMod := ⟨.b32, .sh⟩
def ldF : Fields := (uw (.s 4) (.s 2) (.imm 0)).fields 0xC0 sh32.bits
/-- The first word behind the 4,096 bytes of shared memory. -/
theorem meets_AddressTraps : accessRow (.ld (uw (.s 4) (.s 2) (.imm 0)) sh32) = some (ldF, .sh, 4) ∧
    Meets (withS [(2, 4096)]) ldF fun x => x.underWay = false ∧
      (x.each.filterMap fun t => (x.addrFault .sh (x.addr t) 4).map fun c => (t, c)) = [(0, (0x01, 17))] :=
  ⟨by decide, .dec (fun _ => inferInstance) (by decide)⟩
/-- BARI with a count of 0. -/
theorem meets_AddressTraps_bari : Meets (withS [(2, 8)]) ((uw (.v 0) (.s 2) (.imm 0) (.imm 0)).fields 0xD3 (⟨.b64, .sh⟩ : MemMod).bits) fun x =>
    (x.each.filterMap fun t => ((x.addrFault .sh (x.addr t) 8).or
      (if codeOf (x.getC t) % 2 ^ 24 = 0 then some (0x01, 19) else none)).map fun c => (t, c)) = [(0, (0x01, 19))] :=
  .dec (fun _ => inferInstance) (by decide)
theorem meets_LoadsInFlight : Meets (withS [(2, 4092)]) ldF fun x => x.inBounds .sh 4 ∧
    x.Reaches .sh .load (tyBytes .b32) (x.each.map x.addrN) (fun _ => []) :=
  (Meets.dec (P := fun x => (∀ t ∈ x.each, x.addrFault .sh (x.addr t) 4 = none) ∧ ∀ a ∈ x.each.map x.addrN, x.drained .sh a (tyBytes .b32) = false)
    (fun _ => inferInstance) (by decide)).imp fun _ h => ⟨h.1, reaches_of (by decide) h.2⟩

def ldtF : Fields := (vw (.v 8) (.s 2) (.imm 0) (.s 3)).fields 0xC2 (⟨.n32, .sh⟩ : MemMod).bits
/-- A stride that is not aligned, a column that leaves the memory, and one that reaches its last word. -/
theorem meets_ColumnLoads : ldtWidth .n32 = 4 ∧
    (Meets (withS [(3, 130)]) ldtF fun x => x.threads ≠ [] ∧ codeOf (x.getC 0) % 4 ≠ 0) ∧
    (Meets (withS [(2, 3588), (3, 128)]) ldtF fun x => x.addr 0 % 4 = 0 ∧ codeOf (x.getC 0) % 4 = 0 ∧
      (x.threads.filter fun t => (List.range 4).any fun r =>
        decide (x.addr 0 + r * codeOf (x.getC 0) + t * 4 < 0 ∨ (x.b.shmem : Int) < x.addr 0 + r * codeOf (x.getC 0) + t * 4 + 4)) = [31]) ∧
    Meets (withS [(2, 3584), (3, 128)]) ldtF fun x => x.addr 0 % 4 = 0 ∧ codeOf (x.getC 0) % 4 = 0 ∧
      ∀ t ∈ x.threads, ∀ r : Nat, r < 4 → 0 ≤ x.addr 0 + r * codeOf (x.getC 0) + t * 4 ∧ x.addr 0 + r * codeOf (x.getC 0) + t * 4 + 4 ≤ x.b.shmem ∧
        x.drained .sh (x.addr 0 + r * codeOf (x.getC 0) + t * 4).toNat 4 = false :=
  ⟨by decide, .dec (fun _ => inferInstance) (by decide), .dec (fun _ => inferInstance) (by decide), .dec (fun _ => inferInstance) (by decide)⟩

/-- Stores, the last word of shared memory, all three spaces. -/
theorem meets_Stores : ∃ f one, storeRow (.st (uw (.v 0) (.s 2) (.imm 0) (.s 3)) sh32) = some (f, .sh, .store, 4, one) ∧
    Meets (withS [(2, 4092)]) f fun x => x.inBounds .sh 4 ∧ accessReady (.st (uw (.v 0) (.s 2) (.imm 0) (.s 3)) sh32) x ∧
      inOrder (.st (uw (.v 0) (.s 2) (.imm 0) (.s 3)) sh32) x ∧ drawsDone (.st (uw (.v 0) (.s 2) (.imm 0) (.s 3)) sh32) x ∧
      (x.placed (.st (uw (.v 0) (.s 2) (.imm 0) (.s 3)) sh32)).Reaches .sh .store 4 (x.each.map x.addrN)
        (x.entriesIn ((x.writes one).flatMap (·.2))) :=
  ⟨_, _, rfl, (Meets.dec (P := fun x => ((∀ t ∈ x.each, x.addrFault .sh (x.addr t) 4 = none) ∧ ∀ a ∈ x.each.map x.addrN, x.drained .sh a 4 = false) ∧
    x.namesRej = false) (fun _ => inferInstance) (by decide)).imp fun _ h =>
      ⟨h.1.1, trivial, .inl rfl, fun _ e => absurd e (by rw [h.2]; decide), reaches_of (by decide) h.1.2⟩⟩
/-- A reduction whose release has no waits, and BARI of 1. -/
def redR : Instr := .redAdd (vw (.v 0) (.s 2) (.imm 0) (.imm 1)) ⟨.blk, .rel, .sh, .i32⟩
def bariR : Instr := .bari (uw (.v 0) (.s 2) (.imm 0) (.imm 1)) ⟨.b64, .sh⟩
theorem meets_Stores_order :
    (∃ f one, storeRow redR = some (f, .sh, .store, 4, one) ∧ Meets s0 f fun x => x.inBounds .sh 4 ∧ accessReady redR x ∧ inOrder redR x) ∧
    ∃ f one, storeRow bariR = some (f, .sh, .store, 8, one) ∧ Meets s0 f fun x => x.inBounds .sh 8 ∧ accessReady bariR x ∧ inOrder bariR x :=
  ⟨⟨_, _, rfl, .dec (by intro x; delta Cx.inBounds inOrder redR accessReady; infer_instance) (by decide)⟩,
    _, _, rfl, .dec (by intro x; delta Cx.inBounds inOrder bariR accessReady; infer_instance) (by decide)⟩
theorem meets_StoredBytes_clauses : (Meets s0 ((vw (.v 0) (.v 1) (.imm 0) (.s 3)).fields 0xC1 (⟨.b32, .sp⟩ : MemMod).bits) fun x => x.inBounds .sp 4) ∧
    Meets s0 ((uw (.v 0) (.s 2) (.imm 0) (.s 3)).fields 0xC1 (⟨.b32, .sc⟩ : MemMod).bits) fun x => x.inBounds .sc 4 :=
  ⟨.dec (by intro x; delta Cx.inBounds; infer_instance) (by decide), .dec (by intro x; delta Cx.inBounds; infer_instance) (by decide)⟩
def atomM : AtomMod := ⟨.blk, .relaxed, .sh, .i32⟩
theorem meets_Atomics : ∃ f ops, atomRow (.atomAdd (vw (.v 2) (.s 4) (.imm 0) (.imm 1)) atomM) = some (f, atomM, 4, ops) ∧ atomM.asp = .sh ∧
    Meets (withS [(4, 4092)]) f fun x => x.inBounds .sh 4 ∧ x.waitsRelease atomM.ord atomM.scope = false ∧ x.syncWaits = false ∧
      x.spec.dst.nil = false ∧ x.Reaches .sh .atomic 4 (x.each.map x.addrN) (fun _ => []) ∧
      x.afterSync.Reaches .sh .atomic 4 (x.each.map x.addrN) (fun _ => []) :=
  ⟨_, _, rfl, rfl, (Meets.dec (P := fun x => ((∀ t ∈ x.each, x.addrFault .sh (x.addr t) 4 = none) ∧ (∀ a ∈ x.each.map x.addrN, x.drained .sh a 4 = false) ∧
      ∀ a ∈ x.each.map x.addrN, x.afterSync.drained .sh a 4 = false) ∧
    x.waitsRelease atomM.ord atomM.scope = false ∧ x.syncWaits = false ∧ x.spec.dst.nil = false) (fun _ => inferInstance) (by decide)).imp fun _ h =>
      ⟨h.1.1, h.2.1, h.2.2.1, h.2.2.2, reaches_of (by decide) h.1.2.1, reaches_of (by decide) h.1.2.2⟩⟩

/-- A drain of the group that has its bytes still to write. -/
def drainingOf (gid : Nat) (s : State := s0) : State := { s with drains := [⟨5, gid, 0, 0, 0, .sh, [(8, [1, 2, 3, 4])], false, .b32, false, false⟩] }
def draining (s : State := s0) : State := drainingOf 1 s
def relM : AtomMod := ⟨.blk, .rel, .sh, .i32⟩
theorem meets_ReleasesWait : ∃ f ops, atomRow (.atomAdd (vw (.v 2) (.s 4) (.imm 0) (.imm 1)) relM) = some (f, relM, 4, ops) ∧
    (Meets draining f fun x => x.inBounds relM.asp 4 ∧ x.waitsRelease relM.ord relM.scope = true) ∧
    Meets draining ((vw (.v 0) (.s 4) (.imm 0) (.imm 1)).fields 0xCB relM.bits) fun x => x.inBounds relM.asp (atBytes relM.at_) ∧
      x.waitsRelease relM.ord relM.scope = true :=
  ⟨_, _, rfl, .dec (by intro x; delta Cx.inBounds; infer_instance) (by decide), .dec (by intro x; delta Cx.inBounds; infer_instance) (by decide)⟩
def barwF : Fields := (uw (.v 0) (.s 4) (.imm 0) (.s 5)).fields 0xD2 atomM.bits
def barOther (x : Cx) (t : Nat) : Prop :=
  barPhase (((x.afterSync.reached .sh).atDieFirst .sh (x.each.map x.addrN) 8).loadN .sh t (x.addrN t) 8) ≠ codeOf (x.getC t) % 256 ∧
    barPhase (((x.afterSync.reached .sh).atDieFirst .sh (x.each.map x.addrN) 8).wordBegan .sh (x.addrN t)) ≠ codeOf (x.getC t) % 256
def barReach (x : Cx) : Prop := (∀ t ∈ x.each, x.addrFault .sh (x.addr t) 8 = none) ∧ x.syncWaits = false ∧
  ∀ a ∈ x.each.map x.addrN, x.afterSync.drained .sh a 8 = false
/-- The barrier word of zeros is in phase 0: another phase than 1, not another one than 0; nor has it another one for this turn where it
has come to phase 1 in it. -/
theorem meets_BarrierWaits :
    (Meets (withS [(5, 1)]) barwF fun x => x.inBounds .sh 8 ∧ x.syncWaits = false ∧
      x.afterSync.Reaches .sh .load 8 (x.each.map x.addrN) (fun _ => []) ∧ ∀ t ∈ x.each, barOther x t) ∧
    Meets (onB fun b => { b with sh := b.sh.writeN 0 8 (2 ^ 24) }) barwF fun x => x.inBounds .sh 8 ∧ x.syncWaits = false ∧
      x.afterSync.Reaches .sh .load 8 (x.each.map x.addrN) (fun _ => []) ∧ ∃ t ∈ x.each, ¬barOther x t :=
  ⟨(Meets.dec (P := fun x => barReach x ∧ ∀ t ∈ x.each, barOther x t) (by intro x; delta barReach barOther; infer_instance) (by decide)).imp
      fun _ h => ⟨h.1.1, h.1.2.1, reaches_of (by decide) h.1.2.2, h.2⟩,
    (Meets.dec (P := fun x => barReach x ∧ ∃ t ∈ x.each, ¬barOther x t) (by intro x; delta barReach barOther; infer_instance) (by decide)).imp
      fun _ h => ⟨h.1.1, h.1.2.1, reaches_of (by decide) h.1.2.2, h.2⟩⟩

/-- The second GiB of addresses is a writable page of data at physical address 0 (R177). -/
def paged (s : State) : State := { s with dram := s.dram.writeN 0x40010008 8 (2 ^ 63 + 2 ^ 60 + 2 ^ 58) }
/-- Window 0 of the context with one tile of main memory, in that page if not said otherwise, in a given state. -/
def windowed (t : WTile) (s : State := s0) (base : Nat := 0x40200000) : State :=
  { paged s with windows := [⟨0, 0, 0, base, 1, false, Sparse.put absentTile [] 0 t⟩] }
def twF : Fields := (uw (.s 4) (.s 2) (.imm 0)).fields 0xC0 (⟨.b32, .tw⟩ : MemMod).bits
def full64 : List FaultEntry := List.replicate 64 ⟨9, 0, 0, 0, .job 77⟩
/-- An atomic operation of the group is on its way to a log controller. -/
def syncing (s : State := s0) : State :=
  { s with appends := [⟨6, 1, 0, 0, ⟨0, 0, 0, 0⟩, [⟨0, 4, false, .add, .i32, [1, 0, 0, 0]⟩], false, none, none, true, 0⟩] }
def addI : Instr := .atomAdd (vw (.v 2) (.s 4) (.imm 0) (.imm 1)) atomM
theorem meets_AtomicsFollow : ∃ f, accessRow addI = some (f, .sh, 4) ∧ isPlain addI = false ∧
    Meets syncing f fun x => x.inBounds .sh 4 ∧ accessReady addI x ∧ x.syncWaits = true :=
  ⟨_, rfl, rfl, .dec (P := fun x => x.inBounds .sh 4 ∧ x.waitsRelease atomM.ord atomM.scope = false ∧ x.syncWaits = true)
    (by intro x; delta Cx.inBounds; infer_instance) (by decide)⟩
/-- A store, an atomic, LDT and MLD that meet a drain. -/
theorem meets_AccessesWait_rows :
    (∃ f, accessRow (.st (uw (.v 0) (.s 2) (.imm 0) (.s 3)) sh32) = some (f, .sh, 4) ∧ Meets (draining (withS [(2, 8)])) f fun x =>
      x.inBounds .sh 4 ∧ x.namesRej = false ∧ ∃ a ∈ x.each.map x.addrN, x.drained .sh a 4 = true) ∧
    (∃ f, accessRow addI = some (f, .sh, 4) ∧ Meets (draining (withS [(4, 8)])) f fun x => x.inBounds .sh 4 ∧ accessReady addI x ∧
      x.syncWaits = false ∧ x.namesRej = false ∧ ∃ a ∈ x.each.map x.addrN, x.afterSync.drained .sh a 4 = true) ∧
    (Meets (draining (withS [(3, 128)])) ldtF fun x => x.addr 0 % 4 = 0 ∧ codeOf (x.getC 0) % 4 = 0 ∧
      (∀ t ∈ x.threads, ∀ r : Nat, r < 4 → 0 ≤ x.addr 0 + r * codeOf (x.getC 0) + t * 4 ∧
        x.addr 0 + r * codeOf (x.getC 0) + t * 4 + 4 ≤ x.b.shmem) ∧
      x.drained .sh (x.addr 0 + 0 * codeOf (x.getC 0) + 2 * 4).toNat 4 = true) ∧
    Meets { withS [(2, 0)] with drains := [⟨5, 1, 0, 0, 0, .sc, [(8, [1, 2, 3, 4])], false, .b32, false, false⟩] }
      ((uw (.c 3) (.s 2) (.imm 0)).fields 0xF2 (⟨.b32, .sc⟩ : MemMod).bits) fun x =>
        x.g.spawned = false ∧ x.badTile x.f.dst = false ∧ x.tileFault .sc (2048 * mldWidth .b32) = none ∧
          x.drained .sc (x.addrN 0 + 2 * mldWidth .b32) (mldWidth .b32) = true :=
  ⟨⟨_, rfl, .dec (by intro x; delta Cx.inBounds; infer_instance) (by decide)⟩,
    ⟨_, rfl, .dec (P := fun x => x.inBounds .sh 4 ∧ x.waitsRelease atomM.ord atomM.scope = false ∧
        x.syncWaits = false ∧ x.namesRej = false ∧ ∃ a ∈ x.each.map x.addrN, x.afterSync.drained .sh a 4 = true)
      (by intro x; delta Cx.inBounds; infer_instance) (by decide)⟩,
    .dec (fun _ => inferInstance) (by decide), .dec (fun _ => inferInstance) (by decide)⟩
/-- A load that meets a drain; one of an absent tile, whose fetch begins, or finds the fault buffer full. -/
theorem meets_AccessesWait :
    (Meets (draining (withS [(2, 8)])) ldF fun x => x.inBounds .sh 4 ∧ ∃ a ∈ x.each.map x.addrN, x.drained .sh a 4 = true) ∧
    (Meets (windowed absentTile) twF fun x => x.inBounds .tw 4 ∧ (∀ a ∈ x.each.map x.addrN, x.drained .tw a 4 = false) ∧
      x.waitsFor .load (x.each.map x.addrN) 4 (fun _ => []) ≠ [] ∧
      (startFetches x.g.core (x.waitsFor .load (x.each.map x.addrN) 4 fun _ => []) (x.s.unhold x.g.gid)).isSome = true) ∧
    Meets { windowed absentTile s0 0x80000000 with faults := full64 } twF fun x => x.inBounds .tw 4 ∧ (∀ a ∈ x.each.map x.addrN, x.drained .tw a 4 = false) ∧
      x.waitsFor .load (x.each.map x.addrN) 4 (fun _ => []) ≠ [] ∧
      startFetches x.g.core (x.waitsFor .load (x.each.map x.addrN) 4 fun _ => []) (x.s.unhold x.g.gid) = none :=
  ⟨.dec (by intro x; delta Cx.inBounds; infer_instance) (by decide), .dec (by intro x; delta Cx.inBounds; infer_instance) (by decide),
    .dec (by intro x; delta Cx.inBounds; infer_instance) (by decide)⟩

/-- A store and a reduction with an acquire whose data is the distribution, before their draws and with them under way. -/
def accM : AtomMod := ⟨.blk, .acq, .sh, .i32⟩
def rejSt : W := vw (.v 0) (.s 2) (.imm 0) (.d 1)
theorem meets_RejWritesWait :
    (∃ f, accessRow (.st rejSt sh32) = some (f, .sh, 4) ∧
      (Meets withRej f fun x => x.namesRej = true ∧ x.g.stayDone = false ∧ x.inBounds .sh 4 ∧ x.spec.dst.nil = true ∧ x.g.rejHeld = none) ∧
      Meets (onG (fun g => { g with rejHeld := some [] }) withRej) f fun x =>
        x.namesRej = true ∧ x.g.stayDone = false ∧ x.inBounds .sh 4 ∧ x.g.rejHeld.isSome = true) ∧
    ∃ f, accessRow (.redAdd rejSt accM) = some (f, .sh, 4) ∧ Meets withRej f fun x => x.namesRej = true ∧ x.g.stayDone = false ∧
      x.inBounds .sh 4 ∧ x.spec.dst.nil = true ∧ x.waitsRelease accM.ord accM.scope = false ∧ x.syncWaits = false :=
  ⟨⟨_, rfl, .dec (by intro x; delta Cx.inBounds; infer_instance) (by decide), .dec (by intro x; delta Cx.inBounds; infer_instance) (by decide)⟩,
    _, rfl, .dec (by intro x; delta Cx.inBounds; infer_instance) (by decide)⟩

/-! Barriers, spawned work, windows, engines, tiles -/

def barbF : Fields := w0.fields 0xD4 0
def spawnedG (s : State := s0) : State := onG (fun g => { g with spawned := true }) s
/-- Let go from this cycle on or from the next, and not yet. -/
theorem meets_BarrierPasses : (Meets (spawnedG) barbF fun x => x.g.spawned = true) ∧
    (Meets (onB fun b => { b with passed := [(1, 0)] }) barbF fun x =>
      x.g.spawned = false ∧ x.b.passed.find? (fun e => e.1 == x.g.gid) = some (1, 0) ∧ 0 ≤ x.s.cycle) ∧
    (Meets (onB fun b => { b with passed := [(1, 1)] }) barbF fun x =>
      x.g.spawned = false ∧ x.b.passed.find? (fun e => e.1 == x.g.gid) = some (1, 1) ∧ x.s.cycle < 1) ∧
    Meets s0 barbF fun x => x.g.spawned = false ∧ x.b.passed.find? (fun e => e.1 == x.g.gid) = none :=
  ⟨.dec (fun _ => inferInstance) (by decide), .dec (fun _ => inferInstance) (by decide), .dec (fun _ => inferInstance) (by decide),
    .dec (fun _ => inferInstance) (by decide)⟩
/-- A group whose turn begins at a BARB. -/
def atBarb : State := State.reset.withFetchWord 64 0x6A4
def standing (s : State) : Bool :=
  s.turn.any (fun it => (s.group? it.gid).any fun h => (s.gangOf h).contains 1) && s.arrives 1
theorem standing_iff {s : State} (h : standing s = true) : s.atBarrier 1 := by
  simp only [standing, Bool.and_eq_true, List.any_eq_true] at h
  obtain ⟨⟨it, hi, hg⟩, ha⟩ := h
  cases e : s.group? it.gid with
  | none => rw [e] at hg; cases hg
  | some g => rw [e] at hg; exact ⟨⟨it, hi, g, e, by simpa using hg⟩, ha⟩
/-- The block's one group stands at its BARB; at a NOP it does not. -/
theorem meets_GroupsArrive : (∃ b, atBarb.block? 0 = some b) ∧ (∃ g, atBarb.group? 1 = some g ∧ g.bid = 0 ∧ atBarb.atBarrier 1) ∧
    (∀ g ∈ atBarb.groups, g.gid = 1 ∧ atBarb.group? 1 = some g) ∧ (∃ b, s0.block? 0 = some b ∧ b.arrived = []) ∧
    (∃ g ∈ s0.groups, g.bid = 0 ∧ g.spawned = false) ∧ s0.arrives 1 = false :=
  ⟨⟨_, rfl⟩, ⟨_, rfl, rfl, standing_iff (by decide)⟩, by decide, ⟨_, rfl, rfl⟩, by decide, by decide⟩

def queued (n : Nat) : State := { s0 with spawnQ := List.replicate n (0, ⟨0, 0, 0, 1⟩) }
theorem meets_FencesAndWaits : (Meets s0 (w0.fields 0xD5 (Scope.die.code ++ 0#7)) fun x => fenceReady x.s x.g .die = true) ∧
    (Meets draining (w0.fields 0xD5 (Scope.die.code ++ 0#7)) fun x => fenceReady x.s x.g .die = false ∧ x.g.stayDone = false) ∧
    (Meets (spawnedG) (w0.fields 0xBC 0) fun x => x.g.spawned = true) ∧
    (Meets s0 (w0.fields 0xBC 0) fun x => x.g.spawned = false ∧ x.s.descends x.b.bid = false ∧ x.s.goneSettled x.b.bid = true) ∧
    (Meets (queued 1) (w0.fields 0xBC 0) fun x => x.g.spawned = false ∧ x.s.descends x.b.bid = true) ∧
    Meets (drainingOf 9) (w0.fields 0xBC 0) fun x => x.g.spawned = false ∧ x.s.goneSettled x.b.bid = false :=
  ⟨.dec (fun _ => inferInstance) (by decide), .dec (fun _ => inferInstance) (by decide), .dec (fun _ => inferInstance) (by decide), .dec (fun _ => inferInstance) (by decide),
    .dec (fun _ => inferInstance) (by decide), .dec (fun _ => inferInstance) (by decide)⟩

def spawnF : Fields := (vw (.v 0) (.v 4) (.s 2)).fields 0xBA 0
def badOfs (x : Cx) : List Nat := x.threads.filter fun t => ((x.getB t).extractLsb' 0 32).extractLsb' 0 2 != 0
set_option maxRecDepth 20000 in
/-- Depth 10, an offset of 2, a queue with one place too few, and one that the items fill to its 4,096. -/
theorem meets_SpawnedItems : (Meets (onG fun g => { g with depth := 10 }) spawnF fun x => 10 ≤ x.g.depth) ∧
    (Meets (withS [(2, 2)]) spawnF fun x => x.g.depth < 10 ∧ badOfs x ≠ []) ∧
    (Meets (queued 4065) spawnF fun x => x.g.depth < 10 ∧ badOfs x = [] ∧
      4096 < (x.s.spawnQ.filter fun q => q.1 == x.g.core).length + x.threads.length) ∧
    (Meets draining spawnF fun x => x.g.depth < 10 ∧ badOfs x = [] ∧ x.s.drains? x.g.gid = true) ∧
    Meets (queued 4064) spawnF fun x => x.g.depth < 10 ∧ badOfs x = [] ∧
      (x.s.spawnQ.filter fun q => q.1 == x.g.core).length + x.threads.length ≤ 4096 ∧ x.s.drains? x.g.gid = false :=
  ⟨.dec (fun _ => inferInstance) (by decide), .dec (fun _ => inferInstance) (by decide), .dec (fun _ => inferInstance) (by decide), .dec (fun _ => inferInstance) (by decide),
    .dec (fun _ => inferInstance) (by decide)⟩

def glF : Fields := (uw (.s 4) (.s 2)).fields 0xBB 0
def held (bytes : List Byte) : State := onG fun g => { g with stay := true, gdesc := some (0, some bytes) }
/-- The header of a grid of one block of one thread (R166), and one whose entry is not a multiple of 4. -/
def descBytes : List Byte := List.replicate 64 0
def badBytes : List Byte := 1 :: List.replicate 63 0
set_option maxRecDepth 8000 in
/-- The last place in the region of 65,536 bytes and the next; with 1,024 grids to be placed there is no room for one more. -/
theorem meets_ChildGrids : (Meets (onG fun g => { g with depth := 10 }) glF fun x => 10 ≤ x.g.depth) ∧
    (Meets (withS [(2, 65536)]) glF fun x => x.g.depth < 10 ∧ x.g.gdesc = none ∧ descPlaced x.c (codeOf (x.getA 0)) = false) ∧
    (Meets { withS [(2, 65472)] with grids := List.replicate 1024 { launchGrid with next := 0, cores := [0] } } glF fun x =>
      x.g.depth < 10 ∧ x.g.gdesc = none ∧ descPlaced x.c (codeOf (x.getA 0)) = true ∧ x.s.gridLimit x.c.dies = true) ∧
    (Meets (withS [(2, 65472)]) glF fun x => x.g.depth < 10 ∧ x.g.gdesc = none ∧ descPlaced x.c (codeOf (x.getA 0)) = true ∧
      x.s.gridLimit x.c.dies = false ∧ x.s.releaseReady x.g .dev = true) ∧
    (Meets (draining (withS [(2, 65472)])) glF fun x => x.g.depth < 10 ∧ x.g.gdesc = none ∧ descPlaced x.c (codeOf (x.getA 0)) = true ∧
      x.s.releaseReady x.g .dev = false) ∧
    (Meets (onG fun g => { g with stay := true, gdesc := some (0, none) }) glF fun x => x.g.depth < 10 ∧ x.g.gdesc = some (0, none)) ∧
    (Meets (held badBytes) glF fun x => x.g.depth < 10 ∧ x.g.gdesc = some (0, some badBytes) ∧
      (readDesc (bytesNat (badBytes.take 64))).2 = true) ∧
    Meets (held descBytes) glF fun x => x.g.depth < 10 ∧ x.g.gdesc = some (0, some descBytes) ∧
      ((readDesc (bytesNat (descBytes.take 64))).2 || tooLarge (readDesc (bytesNat (descBytes.take 64))).1 x.c ||
        decide (x.c.scSize < codeOf (x.getA 0) + 64 + 4 * (readDesc (bytesNat (descBytes.take 64))).1.nparam)) = false :=
  ⟨.dec (fun _ => inferInstance) (by decide), .dec (fun _ => inferInstance) (by decide), .dec (fun _ => inferInstance) (by decide), .dec (fun _ => inferInstance) (by decide), .dec (fun _ => inferInstance) (by decide),
    .dec (fun _ => inferInstance) (by decide), .dec (fun _ => inferInstance) (by decide), .dec (fun _ => inferInstance) (by decide)⟩

def tmapF : Fields := (uw (.v 0) (.s 2) (.s 4) (.s 6)).fields 0xD6 0
def refusedMap (x : Cx) : Prop := 63 < codeOf (x.getA 0) ∨ (x.s.window? x.die x.b.ctx (codeOf (x.getA 0))).isSome ∨ (x.getB 0).toNat % 2 ^ 12 ≠ 0 ∨
  2 ^ 52 ≤ (x.getB 0).toNat ∨ 16384 < codeOf (x.getC 0) ∨ x.c.frames < 128
def notYet (x : Cx) : Prop := x.g.stayDone = false ∧ x.g.tmap = none
/-- Window 63 with 16,384 tiles is mapped, window 64 or one tile more is refused. -/
theorem meets_WindowMaps : (Meets (onG fun g => { g with stayDone := true }) tmapF fun x => x.g.stayDone = true) ∧
    (Meets (onG fun g => { g with tmap := some ⟨0, 0, 63, 0⟩ }) tmapF fun x => x.g.stayDone = false ∧ x.g.tmap.isSome = true) ∧
    (Meets (withS [(2, 64), (6, 1)]) tmapF fun x => notYet x ∧ codeOf (x.getC 0) ≠ 0 ∧ refusedMap x) ∧
    (Meets (withS [(2, 63), (6, 16385)]) tmapF fun x => notYet x ∧ codeOf (x.getC 0) ≠ 0 ∧ refusedMap x) ∧
    (Meets (withS [(2, 63), (6, 16384)]) tmapF fun x => notYet x ∧ codeOf (x.getC 0) ≠ 0 ∧ ¬refusedMap x) ∧
    (Meets s0 tmapF fun x => notYet x ∧ codeOf (x.getC 0) = 0 ∧ x.s.window? x.die x.b.ctx (codeOf (x.getA 0)) = none) ∧
    (Meets (windowed absentTile) tmapF fun x => notYet x ∧ codeOf (x.getC 0) = 0 ∧
      (x.s.window? x.die x.b.ctx (codeOf (x.getA 0))).any (fun v => !v.closing && !x.s.windowBusy v) = true) ∧
    Meets (windowed { absentTile with st := .resident, dirty := [(0, true)] }) tmapF fun x => notYet x ∧ codeOf (x.getC 0) = 0 ∧
      (x.s.window? x.die x.b.ctx (codeOf (x.getA 0))).any (fun v => v.closing || x.s.windowBusy v) = true := by
  exact
  ⟨.dec (fun _ => inferInstance) (by decide), .dec (fun _ => inferInstance) (by decide),
    .dec (by intro x; delta notYet refusedMap; infer_instance) (by decide), .dec (by intro x; delta notYet refusedMap; infer_instance) (by decide),
    .dec (by intro x; delta notYet refusedMap; infer_instance) (by decide), .dec (by intro x; delta notYet; infer_instance) (by decide),
    .dec (by intro x; delta notYet; infer_instance) (by decide), .dec (by intro x; delta notYet; infer_instance) (by decide)⟩

def tfetchF : Fields := (uw (.v 0) (.s 2)).fields 0xD7 0
def tevictF : Fields := (uw (.v 0) (.s 2)).fields 0xD8 0
def tileIs (x : Cx) (p : WTile → Bool) : Bool := !x.g.stayDone && x.tileArg.any fun t => p (x.s.tile t)
theorem meets_TileMoves : (Meets s0 tfetchF fun x => x.tileArg = none) ∧
    (Meets (windowed { absentTile with st := .arriving }) tfetchF fun x => tileIs x (·.st != .absent) = true) ∧
    (Meets (windowed absentTile) tfetchF fun x => x.tileArg = some ⟨0, 0, 0, 0⟩ ∧ (x.s.tile ⟨0, 0, 0, 0⟩).st = .absent ∧
      (match x.s.startFetch ⟨0, 0, 0, 0⟩ x.g.core with | .ok _ => true | _ => false) = true) ∧
    (Meets { windowed absentTile s0 0x80000000 with faults := full64 } tfetchF fun x => x.tileArg = some ⟨0, 0, 0, 0⟩ ∧
      (x.s.tile ⟨0, 0, 0, 0⟩).st = .absent ∧ (match x.s.startFetch ⟨0, 0, 0, 0⟩ x.g.core with | .full => true | _ => false) = true) ∧
    (Meets s0 tevictF fun x => x.g.stayDone = false ∧ x.tileArg = none) ∧
    (Meets (windowed absentTile) tevictF fun x => tileIs x (·.st == .absent) = true) ∧
    (Meets (windowed { absentTile with st := .resident }) tevictF fun x => tileIs x (fun t => t.st == .resident && t.held.isEmpty) = true) ∧
    (Meets (windowed { absentTile with st := .arriving }) tevictF fun x => tileIs x (·.st == .arriving) = true) ∧
    Meets (windowed { absentTile with st := .resident, held := [1] }) tevictF fun x => tileIs x (fun t => t.st == .resident && !t.held.isEmpty) = true :=
  ⟨.dec (fun _ => inferInstance) (by decide), .dec (fun _ => inferInstance) (by decide), .dec (fun _ => inferInstance) (by decide),
    .dec (fun _ => inferInstance) (by decide), .dec (fun _ => inferInstance) (by decide), .dec (fun _ => inferInstance) (by decide),
    .dec (fun _ => inferInstance) (by decide), .dec (fun _ => inferInstance) (by decide), .dec (fun _ => inferInstance) (by decide)⟩
/-- A TEVICT whose condition has held, of a tile that is resident and free, and one with nothing to evict. -/
theorem meets_TileMoves_late :
    (Meets (windowed { absentTile with st := .resident } (onG fun g => { g with stayDone := true, evicts := some ⟨0, 0, 0, 0⟩ })) tevictF fun x =>
      x.g.stayDone = true ∧ x.g.evicts = some ⟨0, 0, 0, 0⟩ ∧ (x.s.tile ⟨0, 0, 0, 0⟩).st = .resident ∧ (x.s.tile ⟨0, 0, 0, 0⟩).held = []) ∧
    Meets (onG fun g => { g with stayDone := true }) tevictF fun x => x.g.stayDone = true ∧ x.g.evicts = none :=
  ⟨.dec (fun _ => inferInstance) (by decide), .dec (fun _ => inferInstance) (by decide)⟩

/-- A fetch with frames free from a page that is mapped; an evicted tile with a dirty byte. -/
theorem meets_TilesMoved : (Meets (windowed absentTile) tfetchF fun x => x.tileArg = some ⟨0, 0, 0, 0⟩ ∧ (x.s.tile ⟨0, 0, 0, 0⟩).st = .absent ∧
      x.s.framesUsed x.die x.b.ctx < x.c.frames ∧ x.s.translate x.c (x.s.tileVa ⟨0, 0, 0, 0⟩) false false = .ok 0x200000 0) ∧
    Meets (windowed { absentTile with st := .resident, dirty := [(0, true)] }) tevictF fun x => x.g.stayDone = false ∧
      x.tileArg = some ⟨0, 0, 0, 0⟩ ∧ (x.s.tile ⟨0, 0, 0, 0⟩).st = .resident ∧ (x.s.tile ⟨0, 0, 0, 0⟩).held = [] ∧
      ∀ a ∈ x.s.appends, a.begun = true → a.tile ≠ ⟨0, 0, 0, 0⟩ :=
  ⟨.dec (fun _ => inferInstance) (by decide), .dec (fun _ => inferInstance) (by decide)⟩

def scsc : EngMod := ⟨.sc, .sc⟩
def copyW : W := uw (.v 0) (.s 2) (.s 4) (.s 6)
/-- n copy cards of another group in the copy engine of core 0. -/
def aCard : Card :=
  { cid := 9, gid := 7, num := 0, ctx := 0, bid := 0, name := noName, core := 0, slot := 0, kind := 0x01, serial := 0, regs := [], rflag := false,
    wflag := false, rcnt := false, wcnt := false, job := .copy ⟨.sc, 0⟩ ⟨.sc, 64⟩ 4, run := none }
def carded (n : Nat) (s : State) : State := { s with cards := List.replicate n aCard }
theorem meets_Postings : ∃ f one base, postRow (.copy copyW scsc) = some (f, one, base) ∧
    (Meets (withS [(6, 2)]) f fun x => badPosts x (one x) = [(0, 16)]) ∧
    (Meets (carded 63 (withS [(6, 65536)])) f fun x => badPosts x (one x) = [] ∧ x.postReady = true ∧ haveRoom x (commandsOf x (one x)) ∧
      (commandsOf x (one x)).length = 1) ∧
    (Meets (draining (withS [(6, 4)])) f fun x => badPosts x (one x) = [] ∧ x.postReady = false) ∧
    Meets (carded 64 (withS [(6, 4)])) f fun x => badPosts x (one x) = [] ∧ ¬haveRoom x (commandsOf x (one x)) :=
  ⟨_, _, _, rfl, .dec (fun _ => inferInstance) (by decide), .dec (by intro x; delta haveRoom; infer_instance) (by decide),
    .dec (fun _ => inferInstance) (by decide), .dec (by intro x; delta haveRoom; infer_instance) (by decide)⟩

def waitF : Fields := (uw (.v 0) (.s 2)).fields 0x10 0
/-- Batch 1 of two closed, with no card left of it, and with one. -/
def closed (k : Card) : State := { (withS [(2, 1)] (onG fun g => { g with batch := 2 })) with cards := [k] }
theorem meets_Batches : (Meets s0 ((uw (.s 13)).fields 0xE3 0) fun _ => True) ∧
    (Meets s0 waitF fun x => codeOf (x.getA 0) = 0) ∧
    (Meets (withS [(2, 1)]) waitF fun x => codeOf (x.getA 0) ≠ 0 ∧ latestBatch x.g.batch (codeOf (x.getA 0)) = none) ∧
    (Meets (closed { aCard with gid := 1, serial := 2 }) waitF fun x => codeOf (x.getA 0) ≠ 0 ∧ latestBatch x.g.batch (codeOf (x.getA 0)) = some 1 ∧
      ∀ k ∈ x.s.cards, k.gid = x.g.gid → k.serial = 0 ∨ 1 < k.serial) ∧
    Meets (closed { aCard with gid := 1, serial := 1 }) waitF fun x => codeOf (x.getA 0) ≠ 0 ∧ latestBatch x.g.batch (codeOf (x.getA 0)) = some 1 ∧
      ∃ k ∈ x.s.cards, k.gid = x.g.gid ∧ 0 < k.serial ∧ k.serial ≤ 1 :=
  ⟨.dec (fun _ => inferInstance) (by decide), .dec (fun _ => inferInstance) (by decide), .dec (fun _ => inferInstance) (by decide),
    .dec (fun _ => inferInstance) (by decide), .dec (fun _ => inferInstance) (by decide)⟩

def collF : Fields := (uw (.s 20) (.s 19) (.s 2)).fields 0xF8 (varBits 3)
/-- Communicator 255 with this module's die 0 and another module. -/
def twoComm (s : State) : State := onC (fun c => { c with comms := [⟨255, true, 0, [(0, 0), (1, 0)]⟩] }) s
theorem meets_RegisterCollectives : (Meets (twoComm (withS [(2, 256)])) collF fun x => x.commOf = none) ∧
    (Meets (twoComm (draining (withS [(2, 255)]))) collF fun x => x.commOf.isSome = true ∧ x.s.releaseReady x.g .sys = false) ∧
    Meets (twoComm (withS [(2, 255)])) collF fun x => x.commOf.isSome = true ∧ x.s.releaseReady x.g .sys = true :=
  ⟨.dec (fun _ => inferInstance) (by decide), .dec (fun _ => inferInstance) (by decide), .dec (fun _ => inferInstance) (by decide)⟩

def mzeroF (n : Fin 16) : Fields := (uw (.c n)).fields 0xF1 0
def mstatF (n : Fin 16) : Fields := (uw (.s 4) (.c n)).fields 0xF4 0
/-- The last of the block's four tiles and the next. -/
theorem meets_TileStatus : (Meets (spawnedG) (mzeroF 0) fun x => x.g.spawned = true) ∧
    (Meets s0 (mzeroF 4) fun x => x.g.spawned = false ∧ x.badTile x.f.dst = true) ∧
    (Meets s0 (mzeroF 3) fun x => x.g.spawned = false ∧ x.badTile x.f.dst = false) ∧
    (Meets (spawnedG) (mstatF 0) fun x => x.g.spawned = true) ∧
    (Meets s0 (mstatF 4) fun x => x.g.spawned = false ∧ x.badTile x.f.a = true) ∧
    Meets s0 (mstatF 3) fun x => x.g.spawned = false ∧ x.badTile x.f.a = false :=
  ⟨.dec (fun _ => inferInstance) (by decide), .dec (fun _ => inferInstance) (by decide), .dec (fun _ => inferInstance) (by decide),
    .dec (fun _ => inferInstance) (by decide), .dec (fun _ => inferInstance) (by decide), .dec (fun _ => inferInstance) (by decide)⟩

/-- A tile of 2,048 words from the scratchpad, to its last byte and past it. -/
def mldF (n : Fin 16) : Fields := (uw (.c n) (.s 2) (.imm 0)).fields 0xF2 (⟨.b32, .sc⟩ : MemMod).bits
theorem meets_TileLoads : (Meets (spawnedG) (mldF 3) fun x => x.g.spawned = true) ∧
    (Meets s0 (mldF 4) fun x => x.g.spawned = false ∧ x.badTile x.f.dst = true) ∧
    (Meets (withS [(2, 57348)]) (mldF 3) fun x => x.g.spawned = false ∧ x.badTile x.f.dst = false ∧ x.tileFault .sc (2048 * mldWidth .b32) = some 17) ∧
    Meets (withS [(2, 57344)]) (mldF 3) fun x => x.g.spawned = false ∧ x.badTile x.f.dst = false ∧ x.tileFault .sc (2048 * mldWidth .b32) = none ∧
      x.Reaches .sc .load (mldWidth .b32) ((List.range 2048).map fun e => x.addrN 0 + e * mldWidth .b32) (fun _ => []) :=
  ⟨.dec (fun _ => inferInstance) (by decide), .dec (fun _ => inferInstance) (by decide), .dec (fun _ => inferInstance) (by decide),
    (Meets.dec (P := fun x => x.g.spawned = false ∧ x.badTile x.f.dst = false ∧ x.tileFault .sc (2048 * mldWidth .b32) = none ∧ x.s.drains = [])
      (fun _ => inferInstance) (by decide)).imp fun x h => ⟨h.1, h.2.1, h.2.2.1, reaches_of (by decide) (fun a _ => by
        simp [Cx.drained, placeOf, State.drainMeets, h.2.2.2])⟩⟩

def drainM : DrainMod := ⟨.b32, .sc, false, false⟩
def mdrainF (n : Fin 16) : Fields := (uw (.v 0) (.s 2) (.imm 0) (.c n)).fields 0xF3 drainM.bits
/-- n drains of another group in the port of core 0. -/
def portOf (n : Nat) : State := { s0 with drains := List.replicate n ⟨5, 7, 0, 0, 0, .sh, [(8, [1])], false, .b32, false, false⟩ }
theorem meets_TileDrains : (Meets (spawnedG) (mdrainF 3) fun x => x.g.spawned = true) ∧
    (Meets s0 (mdrainF 4) fun x => x.g.spawned = false ∧ x.badTile x.f.c = true) ∧
    (Meets (withS [(2, 57348)]) (mdrainF 3) fun x => x.g.spawned = false ∧ x.badTile x.f.c = false ∧ x.tileFault .sc (2048 * mldWidth .b32) = some 17) ∧
    (Meets (portOf 8) (mdrainF 3) fun x => x.g.spawned = false ∧ x.badTile x.f.c = false ∧ x.tileFault .sc (2048 * mldWidth .b32) = none ∧
      8 ≤ (x.s.drains.filter fun d => d.core == x.g.core).length) ∧
    Meets (portOf 7) (mdrainF 3) fun x => x.g.spawned = false ∧ x.badTile x.f.c = false ∧ x.tileFault .sc (2048 * mldWidth .b32) = none ∧
      (x.s.drains.filter fun d => d.core == x.g.core).length < 8 :=
  ⟨.dec (fun _ => inferInstance) (by decide), .dec (fun _ => inferInstance) (by decide), .dec (fun _ => inferInstance) (by decide),
    .dec (fun _ => inferInstance) (by decide), .dec (fun _ => inferInstance) (by decide)⟩

/-! A fused quartet -/

def grid4 : Grid := { launchGrid with nthr := 128 }
def block4 : Block := Block.launch 0 grid4 0 0 [0]
/-- Four groups of 32 threads, fused, whose s16 to s23 hold a format block of BF16 operands. -/
def s4 : State :=
  { s0 with grids := [grid4], blocks := [block4], nextId := 5,
            groups := (blockGroups { s0 with nextId := 1 } block4 grid4).1.map fun g => (g.sset 16 0x66).sset 17 1 }
def gangCxs (s : State) (f : Fields) (g : Group) : List Cx := (s.gangOf g).filterMap fun m => s.cx? m f

theorem filterMap_found {s : State} {f : Fields} : ∀ {l : List Nat}, (∀ m ∈ l, (s.cx? m f).isSome = true) →
    l.map (fun m => s.cx? m f) = (l.filterMap fun m => s.cx? m f).map some
  | [], _ => rfl
  | m :: l, h => by
    obtain ⟨x, hx⟩ := Option.isSome_iff_exists.mp (h m (List.mem_cons_self ..))
    simp only [List.map_cons, hx, List.filterMap_cons]
    rw [filterMap_found fun n hn => h n (List.mem_cons_of_mem _ hn)]

/-- What makes a fused quartet at whose turn f issues. -/
def gangs (s : State) (f : Fields) (g : Group) : Bool :=
  s.fusedGroup g && (s.gangOf g).all (fun m => (s.cx? m f).isSome) && decide (s.gangOf g).Nodup && decide (g.gid ∈ s.gangOf g) &&
    (gangCxs s f g).all fun x => decide (x.g.bid = g.bid ∧ x.g.spawned = false ∧ x.g.quartet = g.quartet ∧ x.g.core = g.core)

theorem ganged_of {s : State} {f : Fields} {g : Group} (hd : ∃ it rest, s.turn = it :: rest ∧ s.group? it.gid = some g)
    (h : gangs s f g = true) : Ganged s f g (gangCxs s f g) := by
  simp only [gangs, Bool.and_eq_true, List.all_eq_true, decide_eq_true_eq] at h
  exact ⟨hd, h.1.1.1.1, filterMap_found h.1.1.1.2, h.1.1.2, h.2, h.1.2⟩

def lead : Group := (s4.group? 1).getD (Group.launch 0 0 0 0 0 0 0 0 0 [])
def shflGF : Fields := (vw (.v 2) (.v 1) (.imm 16)).fields 0xB7 (⟨.b32, false, 3⟩ : IntMod).bits
theorem meets_GangShuffles : Ganged s4 shflGF lead (gangCxs s4 shflGF lead) ∧ (gangCxs s4 shflGF lead).length = 4 ∧
    ∀ x ∈ gangCxs s4 shflGF lead, x.Acts ∧ x.g.converged = true ∧ x.wholeQuartet = true ∧ x.namesRej = false := by
  refine ⟨ganged_of ⟨_, _, rfl, rfl⟩ (by decide), by decide, fun x hx => ?_⟩
  have h : (gangCxs s4 shflGF lead).all (fun x => !x.skipped && decide (x.emptyTrap.1 = 0) && !x.heldBack && x.g.converged && x.wholeQuartet &&
    !x.namesRej) = true := by decide
  have h := List.all_eq_true.mp h x hx
  simp only [Bool.and_eq_true, Bool.not_eq_true', decide_eq_true_eq] at h
  exact ⟨⟨h.1.1.1.1.1, h.1.1.1.1.2, h.1.1.1.2⟩, h.1.1.2, h.1.2, h.2⟩

def mmaF : Fields := (vw (.c 0) (.v 0) (.v 16) (.s 16)).fields 0xF0 0
theorem meets_MatrixIssues : Ganged s4 mmaF lead (gangCxs s4 mmaF lead) ∧ (gangCxs s4 mmaF lead).length = 4 ∧
    s4.mmaGang (gangCxs s4 mmaF lead) lead.core = .go :=
  ⟨ganged_of ⟨_, _, rfl, rfl⟩ (by decide), by decide, by decide⟩

/-- An instruction of results in the quartet: all its members act; member 3 is held back by an empty register; it traps for it. -/
def s4m (f : Group → Group) : State := { s4 with groups := s4.groups.map fun g => if g.num = 3 then f g else g }
def incF : Fields := (vw (.v 2) (.v 2) (.s 3)).fields 0x20 i32.bits
def negF (ef : Bool) : Fields := ({ uw (.s 4) with a := ⟨.s 3, ef⟩ } : W).fields 0x25 i32.bits
def emptied3 : State := onC (fun c => { c with ctl := { c.ctl with hentry := 0x100 } }) (s4m fun g => g.smark 3 true)
def acts (x : Cx) : Bool := !x.skipped && decide (x.emptyTrap.1 = 0) && !x.heldBack
theorem acts_iff {x : Cx} (h : acts x = true) : x.Acts := by
  simp only [acts, Bool.and_eq_true, Bool.not_eq_true', decide_eq_true_eq] at h
  exact ⟨h.1.1, h.1.2, h.2⟩
theorem meets_GangResults : ∃ f sh, resultRow (.iadd (vw (.v 2) (.v 2) (.s 3)) i32) = some (f, sh) ∧ Ganged s4 f lead (gangCxs s4 f lead) ∧
    (gangCxs s4 f lead).length = 4 ∧ ∀ x ∈ gangCxs s4 f lead, x.Acts ∧ x.namesRej = false ∧ x.quiet (causesOf (sh x).1) := by
  refine ⟨_, _, rfl, ganged_of ⟨_, _, rfl, rfl⟩ (by decide), by decide, fun x hx => ?_⟩
  have h : (gangCxs s4 incF lead).all (fun x => acts x && !x.namesRej && decide (fpTrapped x.c.ctl.fpctl = 0 ∧ fpLogged x.c.ctl.fpctl = 0)) = true := by
    decide
  have h := List.all_eq_true.mp h x hx
  simp only [Bool.and_eq_true, Bool.not_eq_true', decide_eq_true_eq] at h
  exact ⟨acts_iff h.1.1, h.1.2, by simp [Cx.quiet, h.2.1, h.2.2]⟩
theorem meets_GangHolds : ∃ f sh, resultRow (.ineg (uw (.s 4) (.s 3)) i32) = some (f, sh) ∧ Ganged emptied3 f lead (gangCxs emptied3 f lead) ∧
    ∃ x ∈ gangCxs emptied3 f lead, x.skipped = false ∧ x.emptyTrap.1 = 0 ∧ x.heldBack = true :=
  ⟨_, _, rfl, ganged_of ⟨_, _, rfl, rfl⟩ (by decide), by decide⟩
theorem meets_GangTraps : ∃ f sh, resultRow (.ineg { uw (.s 4) with a := ⟨.s 3, true⟩ } i32) = some (f, sh) ∧
    Ganged emptied3 f lead (gangCxs emptied3 f lead) ∧ (∃ y ∈ gangCxs emptied3 f lead, y.g.num = 3 ∧ y.skipped = false ∧ y.emptyTrap.1 ≠ 0 ∧
      y.g.handler = none ∧ y.c.ctl.hentry ≠ 0) ∧
    ∀ x ∈ gangCxs emptied3 f lead, x.g.num ≠ 3 → x.Acts ∧ x.namesRej = false ∧ x.quiet (causesOf (sh x).1) := by
  refine ⟨_, _, rfl, ganged_of ⟨_, _, rfl, rfl⟩ (by decide), by decide, fun x hx hn => ?_⟩
  have h : (gangCxs emptied3 (negF true) lead).all (fun x => x.g.num == 3 || (acts x && !x.namesRej &&
      decide (fpTrapped x.c.ctl.fpctl = 0 ∧ fpLogged x.c.ctl.fpctl = 0))) = true := by decide
  have h := List.all_eq_true.mp h x hx
  simp only [Bool.or_eq_true, Bool.and_eq_true, Bool.not_eq_true', decide_eq_true_eq, beq_iff_eq, hn, false_or] at h
  exact ⟨acts_iff h.1.1, h.1.2, by simp [Cx.quiet, h.2.1, h.2.2]⟩

/-- The quartet split; one member of it with fewer threads active; a quartet of fewer than four. -/
def split4 (f : Group → Group := id) : State := { s4m f with blocks := [block4.setFused 0 false] }
def lone (f : Group → Group := id) : State := { split4 with groups := split4.groups.map fun g => if g.num = 0 then f g else g }
theorem meets_ShufflesMeet : (Issues (lone fun g => { g with amask := 1 }) shflGF fun x => x.skipped = false ∧ x.g.converged = false) ∧
    (Issues s0 shflGF fun x => x.skipped = false ∧ x.g.converged = true ∧ x.wholeQuartet = false) ∧
    Issues lone shflGF fun x => x.skipped = false ∧ x.g.converged = true ∧ x.wholeQuartet = true :=
  ⟨.dec (fun _ => inferInstance) (by decide), .dec (fun _ => inferInstance) (by decide), .dec (fun _ => inferInstance) (by decide)⟩
/-- A guard; the last tile that the block has and the next one. -/
theorem meets_MatrixMeets : (Issues lone (({ vw (.c 0) (.v 0) (.v 16) (.s 16) with gidx := 1 } : W).fields 0xF0 0) fun x => x.f.gidx ≠ 0) ∧
    (Issues lone ((vw (.c 4) (.v 0) (.v 16) (.s 16)).fields 0xF0 0) fun x => x.f.gidx = 0 ∧ x.badTile x.f.dst = true) ∧
    (Issues (lone fun g => { g with amask := 1 }) ((vw (.c 3) (.v 0) (.v 16) (.s 16)).fields 0xF0 0) fun x =>
      x.f.gidx = 0 ∧ x.badTile x.f.dst = false ∧ x.g.converged = false) ∧
    (Issues s0 mmaF fun x => x.f.gidx = 0 ∧ x.badTile x.f.dst = false ∧ x.g.converged = true ∧ x.wholeQuartet = false) ∧
    Issues lone mmaF fun x => x.f.gidx = 0 ∧ x.badTile x.f.dst = false ∧ x.g.converged = true ∧ x.wholeQuartet = true :=
  ⟨.dec (fun _ => inferInstance) (by decide), .dec (fun _ => inferInstance) (by decide), .dec (fun _ => inferInstance) (by decide),
    .dec (fun _ => inferInstance) (by decide), .dec (fun _ => inferInstance) (by decide)⟩
/-- Member 3 finds v0 empty, with and without EF; the queue has 13 operations. -/
def mmaEF (ef : Bool) : Fields := ({ vw (.c 0) (.v 0) (.v 16) (.s 16) with a := ⟨.v 0, ef⟩ } : W).fields 0xF0 0
def holed : State := onC (fun c => { c with ctl := { c.ctl with hentry := 0x100 } }) (s4m fun g => g.vmark 0 5 true)
def queued13 : State := { s4 with churn := List.replicate 13 ⟨1, 0, 0, 3, 8, 64, [], 0x10, 1, none, false⟩ }
theorem meets_MatrixTraps : Ganged holed (mmaEF true) lead (gangCxs holed (mmaEF true) lead) ∧
    (∀ x ∈ gangCxs holed (mmaEF true) lead, mmaPre x = none ∧ (x.g.num ≠ 3 → x.emptyTrap.1 = 0)) ∧
    ∃ y ∈ gangCxs holed (mmaEF true) lead, y.g.num = 3 ∧ y.emptyTrap.1 ≠ 0 ∧ y.g.handler = none ∧ y.c.ctl.hentry ≠ 0 :=
  ⟨ganged_of ⟨_, _, rfl, rfl⟩ (by decide), by decide, by decide⟩
theorem meets_MatrixWaits : (Ganged holed (mmaEF false) lead (gangCxs holed (mmaEF false) lead) ∧
      (∀ x ∈ gangCxs holed (mmaEF false) lead, mmaPre x = none ∧ x.emptyTrap.1 = 0) ∧ ∃ x ∈ gangCxs holed (mmaEF false) lead, x.heldBack = true) ∧
    Ganged queued13 mmaF lead (gangCxs queued13 mmaF lead) ∧
    (∀ x ∈ gangCxs queued13 mmaF lead, mmaPre x = none ∧ x.emptyTrap.1 = 0 ∧
      (x.fmtWords.bind readFmt).any (fun fb => fb.recordsIn x.b.shmem) = true) ∧
    16 < (queued13.churn.filter fun o => o.core == lead.core).length + 4 :=
  ⟨⟨ganged_of ⟨_, _, rfl, rfl⟩ (by decide), by decide, by decide⟩, ganged_of ⟨_, _, rfl, rfl⟩ (by decide), by decide, by decide⟩
/-- Of the split quartet's groups all but the first have arrived at the block barrier; or the third has not. -/
def arrivedAt (l : List (Nat × Nat)) : State := onB (fun b => { b with arrived := l }) split4
theorem meets_FinalExit_barrier :
    (Meets (arrivedAt [(2, 0), (3, 0), (4, 0)]) (w0.fields 0x01 0) fun x => x.g.allFull = true ∧ x.g.exist &&& ~~~(x.g.fin ||| x.g.amask) = 0 ∧
      x.b.arrived ≠ [] ∧ ∀ h ∈ x.s.groups, h.gid ≠ x.g.gid → h.bid = x.g.bid → h.spawned = false → (x.b.arrived.any fun e => e.1 == h.gid) = true) ∧
    Meets (arrivedAt [(2, 0), (4, 0)]) (w0.fields 0x01 0) fun x => x.g.allFull = true ∧ x.g.exist &&& ~~~(x.g.fin ||| x.g.amask) = 0 ∧
      ∃ h ∈ x.s.groups, h.gid ≠ x.g.gid ∧ h.bid = x.g.bid ∧ h.spawned = false ∧ (x.b.arrived.any fun e => e.1 == h.gid) = false :=
  ⟨.dec (fun _ => inferInstance) (by decide), .dec (fun _ => inferInstance) (by decide)⟩

/-! Events -/

def aRes (k : ResultKind) : Result := ⟨7, 1, k, [⟨true, 2, 31, 9⟩], false, [], 0, [], [], 0, none, false⟩
def flying (r : Result) (s : State := s0) : State := { s with results := [r] }
theorem receives_of {s : State} {r : Result} (h : (s.group? r.gid).all (fun g => s.coreRuns g.core) = true) : s.receives r :=
  fun g e => by rw [e] at h; exact h
/-- A result of thread 31 of each kind; a mask with it and one without. -/
theorem meets_ResultsLand : (∀ w ∈ (aRes .mem).writes, w.vec = true → w.thr < 32) ∧
    (∀ w ∈ (aRes .mem).writes, (flying (aRes .mem)).nextFill.getLsbD w.thr = true) ∧
    (∃ w ∈ (aRes .mem).writes, { flying (aRes .mem) with fills := [0x7FFFFFFF] }.nextFill.getLsbD w.thr = false) ∧
    ((flying (aRes .mem)).results.find? fun r => r.rid == 7 && r.kind == .mem) = some (aRes .mem) ∧
    ((flying (aRes .sfu)).results.find? fun r => r.rid == 7 && r.kind == .sfu) = some (aRes .sfu) ∧
    ((flying (aRes .rej)).results.find? fun r => r.rid == 7 && r.kind == .rej) = some (aRes .rej) := by decide
theorem meets_ResultsLand_core (k : ResultKind) : (flying (aRes k)).receives (aRes k) :=
  receives_of (by cases k <;> decide)

def aFill : Result := { aRes .mld with writes := [], tile := some (0, 3, []) }
theorem meets_TilesFill : ((flying aFill).results.find? fun r => r.rid == 7 && r.kind == .mld) = some aFill ∧
    aFill.tile = some (0, 3, []) ∧ (flying aFill).receives aFill ∧ ∃ b, (flying aFill).block? 0 = some b ∧ 3 < b.tiles.length :=
  ⟨by decide, rfl, receives_of (by decide), _, rfl, by decide⟩
def tagged (rs : List Result) : State := { onG fun g => { g with smpl := some (tag none) } with results := rs }
/-- A GETSR of sr.smpl that waits to write s8 to s15. -/
def aSample : Result := { aRes .smpl with writes := (List.range 8).map fun j => ⟨false, 8 + j, 0, 0⟩ }
theorem meets_SamplesFill : ∃ g, (tagged []).group? 1 = some g ∧ (tagged [aSample]).group? 1 = some g ∧ g.smpl = some (tag none) ∧
    (tag none).record = none ∧ (tag none).issued = true ∧ (tagged [aSample]).coreRuns g.core = true ∧
    ((tagged [aSample]).results.any fun r => r.gid == 1 && r.tagged) = false ∧
    ((tagged [aSample]).appends.any fun a => a.gid == 1 && a.tagged != 0) = false ∧
    ((tagged [aSample]).drains.any fun d => d.gid == 1 && d.tagged) = false ∧
    ((tagged []).results.any fun r => r.gid == 1 && r.kind == .smpl) = false ∧
    ((tagged [aSample]).results.any fun r => r.gid == 1 && r.kind == .smpl) = true ∧
    ((tagged [aSample]).results.filter fun r => r.gid == 1 && r.kind == .smpl) = [aSample] ∧
    (aSample.writes.map fun w => (w.vec, w.reg)) = ((List.range 8).map fun j => (false, 8 + j)) ∧
    ∀ w ∈ aSample.writes, inBank g aSample w = true :=
  ⟨_, rfl, rfl, rfl, rfl, rfl, by decide, by decide, by decide, by decide, by decide, by decide, by decide, by decide, by decide⟩
def launching : State := onG fun g => { g with gdesc := some (64, none) }
theorem meets_DescriptorsRead : ∃ g b c, launching.group? 1 = some g ∧ launching.block? g.bid = some b ∧ launching.ctx? b.ctx = some c ∧
    g.gdesc = some (64, none) ∧ launching.dieRuns (dieOf g.core) = true := ⟨_, _, _, rfl, rfl, rfl, rfl, by decide⟩
theorem meets_DelaysEnd : ∃ g, (onG fun g => { g with delay := some 0 }).group? 1 = some g ∧ g.delay = some 0 ∧ 0 ≤ s0.now := ⟨_, rfl, rfl, by decide⟩
theorem meets_DebuggerResumes : ∃ g, (onG fun g => { g with dbgStop := some 64 }).group? 1 = some g ∧ g.dbgStop = some 64 := ⟨_, rfl, rfl⟩
/-- Four groups at one pc, and one of them at another. -/
def parted : State := { s4 with groups := s4.groups.map fun g => if g.num = 3 then { g with pc := 8 } else g }
def atEnd (s : State) : State := { s with refuse := [(0, 0)], now := s.cycle + 7 }
theorem meets_QuartetsFuse : (∃ b, (atEnd s4).block? 0 = some b) ∧ (0, 0) ∈ (atEnd s4).refuse ∧ (atEnd s4).cycle + 7 ≤ (atEnd s4).now ∧
    (atEnd s4).together 0 0 = true ∧ (∃ b, (atEnd parted).block? 0 = some b) ∧ (atEnd parted).together 0 0 = false :=
  ⟨⟨_, rfl⟩, by decide, by decide, by decide, ⟨_, rfl⟩, by decide⟩
def waited (f : Group → Group) : State :=
  onC (fun c => { c with ctl := { c.ctl with hentry := 0x100, wdlim := 5 } }) (onG fun g => f { g with waiting := some 2, counted := 5 })
def wdog (s : State) : Bool :=
  match s.group? 1 with
  | none => false
  | some g => match s.block? g.bid with
    | none => false
    | some b => (s.ctx? b.ctx).any fun c => g.waiting == some 2 && !g.raised && c.ctl.wdlim != 0 && decide (c.ctl.wdlim.toNat ≤ g.counted) && s.coreRuns g.core
def aRec : TrapRec := ⟨8, 0, 1, 1, 0, 0, 0⟩
theorem meets_WatchdogsExpire : ((waited id).ctx? 0).any (fun c => decide (c.log.length < c.logCap)) = true ∧ wdog (waited id) = true ∧ ((waited id).group? 1).any (fun g => g.handler.isNone) = true ∧
    wdog (waited fun g => { g with handler := some aRec, queue := List.replicate 7 aRec }) = true ∧
    wdog (waited fun g => { g with handler := some aRec, queue := List.replicate 8 aRec }) = true ∧
    ((waited fun g => { g with handler := some aRec, queue := List.replicate 8 aRec }).part? 0).any (fun p => p.halted.isNone) = true := by decide

def item : Item := ⟨0x40, 5, 0, 1⟩
def openOf (n : Nat) : OpenGroup := ⟨20, 0, 0x40, 0, 1, List.replicate n 5, 0⟩
def packing (l : List OpenGroup) : State := { s0 with spawnQ := [(0, item)], openG := l }
/-- A group of 30 threads stays open, one of 31 is sealed, none opens where 15 others are open. -/
theorem meets_ItemsPack : takeItem 0 (packing []).spawnQ = some (item, []) ∧ (packing []).coreRuns 0 = true ∧
    ((packing [openOf 30]).openG.find? fun o => o.core == 0 && o.pc == item.pc && o.bid == item.bid) = some (openOf 30) ∧ (openOf 30).args.length + 1 ≠ 32 ∧
    ((packing [openOf 31]).openG.find? fun o => o.core == 0 && o.pc == item.pc && o.bid == item.bid) = some (openOf 31) ∧ (openOf 31).args.length + 1 = 32 ∧
    ((packing (List.replicate 15 { openOf 1 with pc := 0x80 })).openG.find? fun o => o.core == 0 && o.pc == item.pc && o.bid == item.bid) = none ∧
    ((packing (List.replicate 15 { openOf 1 with pc := 0x80 })).openG.filter fun o => o.core == 0).length < 16 := by decide
theorem meets_PartialsSeal : (packing [openOf 3]).coreRuns 0 = true ∧ ((packing [openOf 3]).openG.find? fun o => o.core == 0 && o.oid == 20) = some (openOf 3) ∧
    (openOf 3).since + 256 ≤ ({ packing [openOf 3] with now := 256 } : State).now ∧ ({ packing [openOf 3] with now := 255 } : State).now < (openOf 3).since + 256 := by
  decide
def sealed : State := { s0 with sealedG := [openOf 32] }
theorem meets_SpawnedStart : (sealed.sealedG.find? fun o => o.core == 0) = some (openOf 32) ∧ (openOf 32).args.length ≤ 32 ∧ sealed.coreRuns 0 = true ∧
    sealed.group? sealed.nextId = none ∧ ∃ b c slot, sealed.block? (openOf 32).bid = some b ∧ sealed.ctx? b.ctx = some c ∧
      sealed.freeSlot 0 c = some slot ∧ b.phase ≠ .saving :=
  ⟨by decide, by decide, by decide, by decide, _, _, (sealed.freeSlot 0 (Ctx.create launchNew)).getD 0, rfl, rfl, by decide, by decide⟩
def placing : State := { s0 with grids := [{ launchGrid with next := 0, ptr := 0, cores := [0, 1], nthr := 128 }] }
theorem meets_BlocksPlace : ∃ g c core places, placing.grid? 0 0 = some g ∧ placing.ctx? 0 = some c ∧ g.again = [] ∧ g.next < g.size ∧
    chooseCore (fun k => placing.placesOn 0 k && (placing.roomFor c k g.nthr g.shmem g.ntile).isSome) (fun k => [0].contains k)
      (cyclicFrom g.cores g.ptr) = some core ∧ placing.roomFor c core g.nthr g.shmem g.ntile = some places ∧
    placing.block? placing.nextId = none ∧ ∀ h ∈ placing.groups, h.gid < placing.nextId :=
  ⟨_, _, 1, (placing.roomFor (Ctx.create launchNew) 1 128 4096 4).getD [], rfl, rfl, rfl, by decide, by decide, by decide, by decide, by decide⟩
/-- A discarded block under the name 1, whose number no block has. -/
theorem meets_BlocksPlace_again :
    ∃ g, ({ placing with grids := placing.grids.map fun g => { g with again := [⟨1, 0, 5, 6, 0⟩] } } : State).grid? 0 0 = some g ∧
      g.again = [⟨1, 0, 5, 6, 0⟩] ∧ (∀ r ∈ placing.prereqs, r.ctx = g.ctx → r.core ≠ 0) ∧ 1 < placing.nextId ∧ placing.block? 1 = none :=
  ⟨_, rfl, rfl, by decide, by decide, by decide⟩
def emptied0 (n : Nat) : State := { s0 with groups := [], grids := [{ launchGrid with gx := n }] }
theorem meets_BlocksRetire : ∃ b g g', (emptied0 1).block? 0 = some b ∧ (emptied0 1).blockDone b = true ∧ (emptied0 1).coreRuns b.core = true ∧
    (emptied0 1).grid? b.ctx b.grid = some g ∧ g.size ≤ g.retired + 1 ∧ (emptied0 2).grid? b.ctx b.grid = some g' ∧ g'.retired + 1 < g'.size :=
  ⟨_, _, _, rfl, by decide, by decide, rfl, by decide, rfl, by decide⟩

def aWrite (n : Nat) : ScWrite := ⟨n, 1, 0, [], false, false, 0, 0, 8, 4, .st, .i32, 9⟩
theorem meets_ScratchWritesPerform : (({ s0 with scw := [aWrite 3, aWrite 4] } : State).scw.find? fun w => w.wid == 3) = some (aWrite 3) ∧
    ((({ s0 with scw := [aWrite 3, aWrite 4] } : State).scw.takeWhile fun v => v.wid != 3).any fun v =>
      v.core == (aWrite 3).core && rangesMeet v.addr v.width (aWrite 3).addr (aWrite 3).width) = false ∧ s0.dieRuns (aWrite 3).die = true := by decide

def tile0 : TileRef := ⟨0, 0, 0, 0⟩
def anAppend : Append := ⟨6, 1, 0, 0, tile0, [⟨0, 4, false, .st, .i32, [1, 2, 3, 4]⟩], false, none, none, false, 0⟩
def appending (t : WTile) : State := { windowed t with appends := [anAppend] }
/-- Sixteen entries of one chunk's elements that do not fit one more of another. -/
def fullHod : List HodEntry := (List.range 16).map fun n => ⟨1024 * n, 4, false, .st, .i32, [0, 0, 0, 0]⟩
def overfull : State := appending { absentTile with hod := fullHod }
theorem meets_AppendsAccept : ((appending absentTile).appendTurn 6 anAppend ∧ ((appending absentTile).tile tile0).st ≠ .resident ∧
      6 ∉ ((appending absentTile).tile tile0).held ∧
      ((appending absentTile).appends.any fun b => b.begun && b.tile == tile0 && b.aid != 6) = false ∧
      anAppend.entries = [⟨0, 4, false, .st, .i32, [1, 2, 3, 4]⟩] ∧
      ((appending absentTile).tryAppend tile0 ((appending absentTile).tile tile0).hod anAppend.entries).isSome = true ∧
      (appendHod ((appending absentTile).logHolds tile0) ((appending absentTile).tile tile0).hod anAppend.entries).isSome = true) ∧
    (overfull.appendTurn 6 anAppend ∧ (overfull.tile tile0).st ≠ .resident ∧ 6 ∉ (overfull.tile tile0).held ∧
      (overfull.appends.any fun b => b.begun && b.tile == tile0 && b.aid != 6) = false ∧
      overfull.tryAppend tile0 (overfull.tile tile0).hod anAppend.entries = none) ∧
    (appending { absentTile with st := .resident }).appendTurn 6 anAppend ∧ ((appending { absentTile with st := .resident }).tile tile0).st = .resident ∧
    ∀ w ∈ (appending { absentTile with st := .resident }).windows, (w.tiles.map (·.1)).Nodup :=
  ⟨⟨⟨by decide, by decide, by decide, by decide, ⟨_, rfl⟩, rfl⟩, by decide, by decide, by decide, rfl, by decide, by decide⟩,
    ⟨⟨by decide, by decide, by decide, by decide, ⟨_, rfl⟩, rfl⟩, by decide, by decide, by decide, by decide⟩,
    ⟨by decide, by decide, by decide, by decide, ⟨_, rfl⟩, rfl⟩, by decide, by decide⟩
def arriving : State := windowed { absentTile with st := .arriving, pa := 0x200000, hod := anAppend.entries }
theorem meets_TilesArrive : (arriving.tile tile0).st = .arriving ∧ (arriving.tile tile0).fault = false ∧
    arriving.dieRuns tile0.die = true ∧ (arriving.wbacks.any fun b => b.tile == tile0) = false ∧
    ∃ w, arriving.window? tile0.die tile0.ctx tile0.win = some w :=
  ⟨by decide, by decide, by decide, by decide, _, rfl⟩
def aBack : WriteBack := ⟨8, tile0, 0x40200000, [(0, 1), (4095, 2)], 0, false⟩
def backing : State := { windowed absentTile with wbacks := [aBack] }
theorem meets_WriteBacksReach : (backing.wbacks.find? fun b => b.wid == 8) = some aBack ∧ aBack.parked = false ∧
    backing.backBehind aBack = false ∧ backing.dieRuns aBack.tile.die = true ∧
    backing.pageBlocked aBack.core aBack.tile.ctx aBack.va = false ∧ (aBack.bytes.map (·.1)).Nodup ∧
    ∃ c, backing.ctx? aBack.tile.ctx = some c ∧ backing.translate c aBack.va true false = .ok 0x200000 0 :=
  ⟨by decide, by decide, by decide, by decide, by decide, by decide, _, rfl, by decide⟩
theorem meets_WindowsUnmap : ∃ w, ({ s0 with windows := [⟨0, 0, 63, 0, 1, true, []⟩] } : State).window? 0 0 63 = some w ∧ w.closing = true ∧
    s0.dieRuns 0 = true ∧ ({ s0 with windows := [⟨0, 0, 63, 0, 1, true, []⟩] } : State).windowBusy w = false := ⟨_, rfl, rfl, by decide, by decide⟩
def faultedBy (who : Faulted) : State :=
  { windowed { absentTile with st := .arriving, fault := true } s0 0x80000000 with faults := [⟨3, 0, 0, 0x80000000, who⟩] }
/-- An entry that maps the third GiB of addresses as `paged` does the second, and none. -/
def thirdGiB : List (Nat × DWord) := [(0x40010010, 0x9400000000000000)]
def served (ptes : List (Nat × DWord)) : Memory :=
  ptes.foldl (fun m e => m.writeN e.1 8 e.2.toNat) (faultedBy (.fetch tile0)).dram
theorem meets_FaultsServed : ((faultedBy (.fetch tile0)).faults.find? fun f => f.fid == 3) = some ⟨3, 0, 0, 0x80000000, .fetch tile0⟩ ∧
    ((faultedBy (.job 9)).faults.find? fun f => f.fid == 3) = some ⟨3, 0, 0, 0x80000000, .job 9⟩ ∧
    (∃ w c, (faultedBy (.fetch tile0)).window? 0 0 0 = some w ∧ (faultedBy (.fetch tile0)).ctx? 0 = some c ∧
      ({ faultedBy (.fetch tile0) with dram := served thirdGiB } : State).translate c ((faultedBy (.fetch tile0)).tileVa tile0) false false = .ok 0 0 ∧
      ({ faultedBy (.fetch tile0) with dram := served [] } : State).translate c ((faultedBy (.fetch tile0)).tileVa tile0) false false = .fault) ∧
    ∃ p, (faultedBy (.fetch tile0)).part? (dieOf 0) = some p ∧ p.halted = none :=
  ⟨by decide, by decide, ⟨_, _, rfl, rfl, by decide, by decide⟩, _, rfl, rfl⟩
def aReplay : Replay := ⟨4, 0, 0, 0x40200000, [1, 2, 3, 4], false, none, none, true⟩
def replaying : State := { paged s0 with replay := [aReplay] }
theorem meets_StoresReplay : (replaying.replay.find? fun r => r.pid == 4) = some aReplay ∧
    ((replaying.replay.takeWhile fun q => q.pid != 4).any fun q => q.core == aReplay.core && q.ctx == aReplay.ctx && replaying.samePage aReplay.ctx q.va aReplay.va) = false ∧
    replaying.dieRuns (dieOf aReplay.core) = true ∧ aReplay.wb = none ∧
    ∃ c, replaying.ctx? aReplay.ctx = some c ∧ replaying.translate c aReplay.va true aReplay.copy = .ok 0x200000 0 :=
  ⟨by decide, by decide, by decide, rfl, _, rfl, by decide⟩

/-! Engines -/

def jobOf (kind : BitVec 8) (j : Job) (s : State := s0) : State := { s with cards := [{ aCard with kind := kind, job := j }] }
def turns (s : State) : Bool := (s.cards.find? fun k => k.cid == 9).any fun k => (s.ctx? k.ctx).isSome && s.jobReady k && k.run.isNone && s.scw.isEmpty && !s.replayFull k.core
/-- The page of `paged` is found by two words of tables, which stand behind what these tests write there. -/
theorem page_found {u : State} {c : Ctx} {va : Nat} {wr cp : Bool} (hc : c.ptRoot = 0x40000000)
    (h : ∀ a, 0x40000000 ≤ a → u.dram.read a = (paged s0).dram.read a) (hl : 0x40200000 ≤ va) (hh : va < 0x40300000) :
    u.translate c va wr cp = .ok (va - 0x40000000) 0 := by
  have r (a : Nat) (ha : 0x40000000 ≤ a) : u.dram.readN a 8 = (paged s0).dram.readN a 8 :=
    Memory.readN_congr fun c hc _ => h c (Nat.le_trans ha hc)
  have h0 : u.dram.readN 0x40000000 8 = 2 ^ 63 + 0x40010000 := (r _ (by decide)).trans (by decide)
  have h1 : u.dram.readN 0x40010008 8 = 2 ^ 63 + 2 ^ 60 + 2 ^ 58 := (r _ (by decide)).trans (by decide)
  have e0 : va / 2 ^ 39 % 2 ^ 13 = 0 := by omega
  have e1 : va / 2 ^ 30 % 2 ^ 9 = 1 := by omega
  have e2 : va % 2 ^ 30 = va - 0x40000000 := by omega
  rw [State.translate, hc, e0]
  simp only [walk, h0, e1]
  simp [h1, pteMalformed, Nat.testBit]
  omega

def aCtx : Ctx := Ctx.create launchNew
def jobbed (kind : BitVec 8) (j : Job) : State := jobOf kind j (paged s0)
theorem mem_lies {kind : BitVec 8} {j : Job} {k : Card} {va n : Nat} {wr : Bool} (hl : 0x40200000 ≤ va) (hh : va + n < 0x40300000) :
    (jobbed kind j).liesAt k aCtx ⟨.mem, va⟩ n wr (va - 0x40000000) := by
  refine ⟨rfl, 0, by decide, fun u h i hi => ?_⟩
  have hu : ∀ a, 0x40000000 ≤ a → u.dram.read a = (paged s0).dram.read a := fun a ha => h a (Or.inr (by omega))
  have e : va + i - 0x40000000 = va - 0x40000000 + i := by omega
  rw [← e]
  exact page_found rfl hu (va := va + i) (by omega) (by omega)
/-- Copies within the scratchpad whose ranges meet, from main memory to shared memory, and back; a fill of main memory; rows of which the
second lies over the first. -/
theorem meets_CopiesRun : turns (jobOf 0x01 (.copy ⟨.sc, 2⟩ ⟨.sc, 0⟩ 16)) = true ∧
    (turns (jobbed 0x01 (.copy ⟨.sh, 64⟩ ⟨.mem, 0x40200000⟩ 16)) = true ∧ (jobbed 0x01 (.copy ⟨.sh, 64⟩ ⟨.mem, 0x40200000⟩ 16)).ctx? 0 = some aCtx ∧
      (jobbed 0x01 (.copy ⟨.sh, 64⟩ ⟨.mem, 0x40200000⟩ 16)).liesAt aCard aCtx ⟨.sh, 64⟩ 16 true 64 ∧
      (jobbed 0x01 (.copy ⟨.sh, 64⟩ ⟨.mem, 0x40200000⟩ 16)).liesAt aCard aCtx ⟨.mem, 0x40200000⟩ 16 false 0x200000) ∧
    (turns (jobbed 0x01 (.copy ⟨.mem, 0x40200000⟩ ⟨.sh, 64⟩ 16)) = true ∧
      (jobbed 0x01 (.copy ⟨.mem, 0x40200000⟩ ⟨.sh, 64⟩ 16)).liesAt aCard aCtx ⟨.mem, 0x40200000⟩ 16 true 0x200000) ∧
    (turns (jobbed 0x05 (.fill ⟨.mem, 0x40200000⟩ 7 (4 * 4))) = true ∧
      (jobbed 0x05 (.fill ⟨.mem, 0x40200000⟩ 7 (4 * 4))).liesAt aCard aCtx ⟨.mem, 0x40200000⟩ (4 * 4) true 0x200000) ∧
    turns (jobOf 0x04 (.copy2d ⟨.sc, 64⟩ ⟨.sc, 0⟩ 2 8 4 8)) = true :=
  ⟨by decide, ⟨by decide, rfl, ⟨rfl, by decide⟩, mem_lies (va := 0x40200000) (by decide) (by decide)⟩,
    ⟨by decide, mem_lies (va := 0x40200000) (by decide) (by decide)⟩, ⟨by decide, mem_lies (va := 0x40200000) (by decide) (by decide)⟩, by decide⟩
/-- GATHER and SCATTER of two rows: both indices 0 below the number of rows, and out of range; room in the log for both. -/
theorem meets_GathersRun : (∀ scatter nrows, (scatter, nrows) ∈ [(false, 1), (false, 0), (true, 1), (true, 0)] →
      turns (jobOf (if scatter then 0x03 else 0x02) (.rows scatter ⟨.sc, 64⟩ ⟨.sc, 128⟩ ⟨.sc, 0⟩ 2 nrows 16 none)) = true) ∧
    s0.scratch.readN 0 4 = 0 ∧ s0.scratch.readN 4 4 = 0 ∧ (s0.ctx? 0).any (fun c => decide (c.log.length + 2 ≤ c.logCap)) = true := by
  refine ⟨fun scatter nrows h => ?_, by decide⟩
  simp only [List.mem_cons, List.not_mem_nil, or_false, Prod.mk.injEq] at h
  rcases h with ⟨rfl, rfl⟩ | ⟨rfl, rfl⟩ | ⟨rfl, rfl⟩ | ⟨rfl, rfl⟩ <;> decide
theorem meets_FlagJobsRun : turns (jobOf 0x09 (.skpset true)) = true ∧ turns (jobOf 0x08 .updstep) = true := by decide
theorem meets_JobsComplete : ∃ k, (({ s0 with cards := [{ aCard with run := some ⟨0, [], [], [], some []⟩ }] } : State).cards.find? fun k => k.cid == 9) = some k ∧
    s0.engineRuns k = true ∧ s0.jobSettled 9 = true ∧ k.over_ := ⟨_, rfl, by decide, by decide, _, rfl, rfl⟩
/-- With the skip flag set, and updates of two elements, the plain form and AdamW's, whose arrays stand in one page. -/
def updWords : List Word := [0x40200000, 0, 0x40200040, 0, 0x40200080, 0, 0x402000C0, 0, 2]
def skipping : State := onC (fun c => { c with skip := [(0, true)] }) (jobOf 0x06 (.upd false updWords))
def updKind (adamw : Bool) : BitVec 8 := if adamw then 0x07 else 0x06
def updPas (adamw : Bool) : List Nat := [0x200000, 0x200040, 0x200080] ++ if adamw then [0x2000C0] else []
def updating (adamw : Bool) : State := jobbed (updKind adamw) (.upd adamw updWords)
theorem meets_UpdatesRun : turns skipping = true ∧ (skipping.ctx? 0).any (fun c => Sparse.get false c.skip (dieOf 0)) = true ∧
    ∀ adamw, turns (updating adamw) = true ∧ (updating adamw).ctx? 0 = some aCtx ∧ Sparse.get false aCtx.skip (dieOf 0) = false ∧
      updCount updWords = 2 ∧ (updating adamw).replay = [] := by decide
theorem meets_UpdatesRun_arrays (adamw : Bool) :
    (updating adamw).arraysAt aCtx (updCount updWords) (updArrays adamw (updWords.map (·.toNat))) (updPas adamw) := by
  have e : updArrays adamw (updWords.map (·.toNat)) = (updPas adamw).map (· + 0x40000000) := by cases adamw <;> decide
  have hl : ∀ p ∈ updPas adamw, 0x200000 ≤ p ∧ p < 0x201000 := by cases adamw <;> decide
  have ap : ∀ j, j < (updPas adamw).length → ∀ i, i < j → (updPas adamw).getD i 0 + 4 * updCount updWords ≤ (updPas adamw).getD j 0 := by
    cases adamw <;> decide
  refine ⟨by rw [e, List.length_map], fun i j hij hj => Or.inl (ap j hj i hij), 0, by decide, fun u h j i hj hi => ?_⟩
  have hu : ∀ a, 0x40000000 ≤ a → u.dram.read a = (paged s0).dram.read a := fun a ha => h a fun p hp => Or.inr (by
    have := hl p hp
    have : updCount updWords = 2 := by decide
    omega)
  have hi : i < 2 := hi
  have hm := hl _ (List.getElem_mem hj)
  have ha : (updArrays adamw (updWords.map (·.toNat))).getD j 0 = (updPas adamw).getD j 0 + 0x40000000 := by
    rw [e]; simp [List.getD, hj]
  have hp : (updPas adamw).getD j 0 = (updPas adamw)[j] := by simp [List.getD, hj]
  have w (wr : Bool) : u.translate aCtx ((updArrays adamw (updWords.map (·.toNat))).getD j 0 + 4 * i) wr false =
      .ok ((updPas adamw).getD j 0 + 4 * i) 0 := by
    have e : (updPas adamw)[j] + 0x40000000 + 4 * i - 0x40000000 = (updPas adamw)[j] + 4 * i := by omega
    rw [ha, hp, ← e]
    exact page_found rfl hu (by omega) (by omega)
  exact ⟨w false, fun _ => w true⟩

/-! The churn, drains, collectives -/

def anOp : ChurnOp := ⟨1, 0, 0, 3, 8, 64, [], 0x10, 1, none, false⟩
def churning : State := { s0 with churn := [anOp], churnEnd := [(0, 16)], now := 80 }
theorem meets_ChurnCompletes : (churning.churn.find? fun o => o.core == 0) = some anOp ∧
    max anOp.early (Sparse.get 0 churning.churnEnd 0) + anOp.dur ≤ churning.now ∧ churning.coreRuns 0 = true ∧
    (∃ b, churning.block? anOp.bid = some b) ∧ ∃ g, churning.group? anOp.gid = some g :=
  ⟨by decide, by decide, by decide, ⟨_, rfl⟩, _, rfl⟩
def aDrain (place : Place) (add : Bool) : Drain := ⟨5, 1, 0, 0, 0, place, [(4092, [1, 2, 3, 4])], add, .f32, false, false⟩
def drains (d : Drain) : Bool :=
  let s : State := { s0 with drains := [d] }
  (s.drains.find? fun d => d.did == 5) == some d && (s.ctx? d.ctx).isSome && s.coreRuns d.core && !s.drainBlocked d && (s.block? d.bid).isSome && s.scw.isEmpty
theorem meets_DrainsPerform : drains (aDrain .sh false) = true ∧ drains (aDrain .sh true) = true ∧ drains (aDrain .sc false) = true := by decide
/-- A portion for a window's tile that is resident; for one that is absent, with room in its hod, with none, and saturating. -/
def portion (sat : Bool) : Drain := { aDrain .win true with sat := sat, ty := if sat then .i32 else .f32 }
def draining1 (d : Drain) (t : WTile) : State := { windowed t with drains := [d] }
def addEntry (sat : Bool) : HodEntry := ⟨4092, 4, true, .add, if sat then .i32 else .f32, [1, 2, 3, 4]⟩
theorem meets_DrainsPerform_tile : (∀ sat t, (draining1 (portion sat) t).engineTile 0 0 4092 = some tile0 ∧
      (draining1 (portion sat) t).appends = []) ∧
    ((draining1 (portion false) { absentTile with st := .resident }).tile tile0).st = .resident ∧
    ((draining1 (portion false) absentTile).tile tile0).st ≠ .resident ∧ 5 ∉ ((draining1 (portion false) absentTile).tile tile0).held ∧
    (draining1 (portion false) absentTile).appendFits tile0 [addEntry false] = true ∧
    (draining1 (portion false) { absentTile with hod := fullHod }).appendFits tile0 [addEntry false] = false ∧
    ((portion true).add = true ∧ (portion true).sat = true) :=
  ⟨fun _ _ => ⟨rfl, rfl⟩, by decide, by decide, by decide, by decide, by decide, by decide⟩
def aContrib : Contrib := ⟨0, 0, 255, 7, ⟨0, 0xF8, 3, 1, 0, [6]⟩, 0, noName, 7⟩
def aColl : Result := { aRes .coll with writes := [⟨false, 20, 0, 0⟩] }
def ranked : State := { twoComm s0 with
  contribs := [aContrib], results := [aColl], links := [⟨.port 0, true, 0, []⟩] }
def peer (op : Nat) : RankData := ⟨1, op, 3, 1, 0, [5]⟩
/-- The other module's rank with the same operation, and with another one. -/
theorem meets_CollectivesEnd : (∃ c g, ranked.twoRanks 0 255 7 c aContrib aColl g 20 (peer 0xF8) ∧ c.log.length < c.logCap) ∧
    (∃ c g, ranked.twoRanks 0 255 7 c aContrib aColl g 20 (peer 0xF9)) ∧ rankSignature (peer 0xF9) ≠ rankSignature aContrib.rank ∧
    (peer 0xF8).data = [5] ∧ aContrib.rank.data = [6] ∧ (peer 0xF8).var = aContrib.rank.var :=
  ⟨⟨_, _, ⟨_, 0, 1, 0, rfl, rfl, rfl, by decide, rfl, by decide, rfl, rfl, rfl, rfl, rfl, by decide, rfl, rfl, rfl, rfl, rfl, rfl, rfl, rfl, rfl, rfl, rfl, by decide⟩,
      by decide⟩,
    ⟨_, _, ⟨_, 0, 1, 0, rfl, rfl, rfl, by decide, rfl, by decide, rfl, rfl, rfl, rfl, rfl, by decide, rfl, rfl, rfl, rfl, rfl, rfl, rfl, rfl, rfl, rfl, rfl, by decide⟩⟩,
    by decide, rfl, rfl, rfl⟩

/-! Firmware -/

def vs : Versions := [(1, 0)]
theorem meets_takes : s0.takes vs ∧ State.reset.booted = false ∧ s0.booted = true ∧ agreed [(2, 0)] = none := by
  refine ⟨⟨?_, ?_⟩, ?_, ?_, ?_⟩ <;> decide
theorem meets_PreemptsBegin : ∃ c, s0.ctx? 0 = some c ∧ s0.haltedDies c.dies = false ∧ (∀ x ∈ [0, 159], c.dies.contains (dieOf x) = true) ∧ [0, 159].Nodup :=
  ⟨_, rfl, by decide, by decide, by decide⟩
def deferred : State := { onG (fun g => { g with crit := 1 }) with prereqs := [⟨0, 0, 0, false⟩], now := 0x1E848 }
theorem meets_DeferralsEnd : (∃ c, deferred.ctx? 0 = some c ∧ c.ctl.defer ≠ 0 ∧ 0 + c.ctl.defer.toNat ≤ deferred.now ∧ c.log.length < c.logCap) ∧
    ⟨0, 0, 0, false⟩ ∈ deferred.prereqs ∧ deferred.coreRuns 0 = true ∧
    ∃ g b, deferred.groups = [g] ∧ deferred.block? g.bid = some b ∧ g.core = 0 ∧ g.crit ≠ 0 ∧ b.ctx = 0 :=
  ⟨⟨_, rfl, by decide, by decide, by decide⟩, by decide, by decide, _, _, rfl, rfl, rfl, by decide, rfl⟩
theorem meets_DrainsTimeOut : ∃ b, (onB fun b => { b with phase := .draining 0 }).block? 0 = some b ∧ b.phase = .draining 0 ∧ 0 ≤ s0.now ∧
    s0.coreRuns b.core = true := ⟨_, rfl, rfl, by decide, by decide⟩
def saving : State := onB fun b => { b with phase := .saving }
theorem meets_SavesComplete : ∃ b, saving.block? 0 = some b ∧ b.phase = .saving ∧ saving.coreRuns b.core = true ∧ saving.saveReady b = true :=
  ⟨_, rfl, rfl, by decide, by decide⟩
/-- An image of the block and its group; no block of the context is left. -/
def anImage : SaveImage :=
  ⟨⟨1, 0, 1, false, false, 0, 1, 1, 0, 4, 0, 0, 0, 0, 0, 4096, 0, 0⟩, Block.launch 0 launchGrid 0 0 [0], s0.groups, [], [], [], []⟩
def imaged : State := { s0 with groups := [], blocks := [], images := [anImage] }
theorem meets_ResumesRestore : ∃ c places, imaged.ctx? 0 = some c ∧ imaged.haltedDies c.dies = false ∧ c.dies.contains (dieOf 5) = true ∧
    dieOf 5 = dieOf anImage.block.core ∧ (imaged.images.filter fun m => m.block.ctx == 0) = [anImage] ∧ anImage.head.vmaj = 1 ∧ anImage.head.ndie = c.dies.length ∧
    anImage.head.scsz * 65536 ≤ c.scSize ∧ anImage.head.nsl ≤ 16 ∧ anImage.misfit 5 = false ∧ (∀ b ∈ imaged.blocks, b.ctx ≠ 0) ∧
    (∀ g ∈ anImage.groups, g.spawned = false ∧ imaged.group? g.gid = none) ∧ (anImage.groups.map (·.gid)).Nodup ∧
    imaged.block? anImage.block.bid = none ∧ imaged.roomFor c 5 anImage.block.nthr anImage.block.shmem anImage.block.ntile = some places :=
  ⟨_, (imaged.roomFor (Ctx.create launchNew) 5 32 4096 4).getD [], rfl, by decide, by decide, by decide, by decide, by decide, by decide, by decide, by decide,
    rfl, by decide, by decide, by decide, by decide, by decide⟩
/-- Two resident contexts that share the cores of die 0. -/
def paired (f : State → State := id) : State :=
  f (onC id { s0 with ctxs := s0.ctxs ++ [Ctx.create { launchNew with no := 1, slot := 1, scBase := 65536 }], groups := [], blocks := [] })
def switching : State := paired fun s => { s with switches := [⟨0, 1, 0, false, false⟩] }
theorem meets_SwitchesRun : paired.haltedDies [dieOf 0] = false ∧ paired.pair 0 = some (0, 1) ∧ (∀ w ∈ paired.switches, w.core ≠ 0) ∧
    (switching.switches.find? fun w => w.core == 0) = some ⟨0, 1, 0, false, false⟩ ∧ switching.pair 0 = some (0, 1) ∧
    switching.switchDeferred ⟨0, 1, 0, false, false⟩ 0 = false ∧ switching.coreRuns 0 = true ∧
    switching.drawsOf (fun g => g.core == 0 && ((switching.block? g.bid).map (·.ctx)) == some 0) = false := by decide
def sliceOf (ready : List (Nat × Nat)) : Slice := ⟨0, 1, 2500, [0, 3], ready⟩
def sliced (ready : List (Nat × Nat)) (fab : Nat) : State := paired fun s => { s with slice := some (sliceOf ready), fabricTime := BitVec.ofNat 64 fab }
def everywhere : State := paired fun s => { s with ctxs := s.ctxs.map fun c => { c with dies := [0, 1, 2, 3] } }
set_option maxRecDepth 4000 in
theorem meets_SlicesRun :
    (∃ x y, everywhere.ctx? 0 = some x ∧ everywhere.ctx? 1 = some y ∧ x.dies = y.dies ∧ everywhere.slice = none ∧
      [0, 3].contains everywhere.dev.toNat = true ∧ everywhere.haltedDies x.dies = false ∧
      ∀ k, k < 640 → everywhere.pair k = some (0, 1) ∧ ∀ w ∈ everywhere.switches, w.core ≠ k) ∧
    ((sliceOf []).modules.contains 3 = true ∧ ∀ r ∈ (sliceOf []).ready, r.1 ≠ 3) ∧ (sliced [] 0).sliceSwitched (sliceOf []) = true ∧
    ((sliceOf [(0, 9), (3, 2500)]).startAt = some 2500 ∧ 2500 ≤ (sliced [(0, 9), (3, 2500)] 2500).sliceLimit (sliceOf [(0, 9), (3, 2500)]) ∧
      2500 ≤ (sliced [(0, 9), (3, 2500)] 2500).fabricNow.toNat ∧ (sliced [(0, 9), (3, 2500)] 2499).fabricNow.toNat < 2500) ∧
    (sliceOf [(0, 9)]).startAt = none ∧ (sliced [(0, 9)] 0x40000).sliceLimit (sliceOf [(0, 9)]) ≤ (sliced [(0, 9)] 0x40000).fabricNow.toNat ∧
    (sliceOf []).x ≠ (sliceOf []).y :=
  ⟨⟨_, _, rfl, rfl, rfl, rfl, by decide, by decide, by decide⟩, ⟨by decide, by decide⟩, by decide, ⟨by decide, by decide, by decide, by decide⟩, by decide, by decide, by decide⟩

def newCtx : NewCtx := { launchNew with no := 7, dies := [3, 1], slot := 1 }
theorem meets_ContextsBegin : s0.haltedDies (orderDies newCtx.dies) = false ∧ s0.partitionable newCtx.dies = true ∧ badNewCtx newCtx = false ∧
    s0.ctx? 7 = none ∧ (∀ c ∈ s0.sharing (orderDies newCtx.dies), c.clashes newCtx.slot newCtx.ctl.split = false ∧
      c.overlaps newCtx.scBase newCtx.scSize = false) ∧ newCtxTooBig newCtx (s0.sharing (orderDies newCtx.dies)) = false := by decide
theorem meets_ContextsEnd : ∃ c, ({ s0 with grids := [] } : State).ctx? 0 = some c ∧ s0.haltedDies c.dies = false ∧
    ∀ g ∈ ({ s0 with grids := [] } : State).grids, g.ctx ≠ 0 := ⟨_, rfl, by decide, by decide⟩
set_option maxRecDepth 8000 in
theorem meets_GridsRun : ∃ c, s0.ctx? 0 = some c ∧ s0.haltedDies c.dies = false ∧ c.dies.contains 0 = true ∧ descPlaced c 65472 = true ∧
    (readDesc (s0.scratch.readN (scratchKey c 0 65472) 64)).2 = false ∧ tooLarge (readDesc (s0.scratch.readN (scratchKey c 0 65472) 64)).1 c = false ∧
    65472 + 64 + 4 * (readDesc (s0.scratch.readN (scratchKey c 0 65472) 64)).1.nparam ≤ c.scSize ∧ s0.gridLimit [0] = false :=
  ⟨_, rfl, by decide, by decide, by decide, by decide, by decide, by decide, by decide⟩
/-- The partition halted 16 cycles ago by slice 0 of core 0, which has stopped. -/
def aUnit (u : Nat) (skid : Nat) : StopUnit := ⟨u, 0, 0, 0, skid⟩
def aPart (read : Bool) : Part := ⟨[0], some 0x03, 0, aUnit 1 0, 0x40, [], [aUnit 1 0], read⟩
def halted (read : Bool) : State := { s0 with parts := [aPart read], now := 16 }
theorem meets_StopsRead : ((halted false).parts.find? fun p => p.dies == orderDies [0] && p.halted.isSome) = some (aPart false) := by decide
theorem meets_PartitionsReset : (halted true).booted = true ∧
    ((halted true).parts.find? fun p => p.dies == orderDies [0] && p.halted.isSome && p.read) = some (aPart true) := by decide
/-- Core 0 stops at the end of its skid of 16 cycles; the slice that has stopped writes nothing more. -/
theorem meets_UnitsStop : (halted false).part? 0 = some (aPart false) ∧ skidLimit 2 = some 16 ∧ unitExists (aUnit 2 16) = true ∧
    (halted false).gatedDies.contains 0 = false ∧ (aPart false).haltAt + 16 ≤ (halted false).now ∧ (halted false).now ≤ (aPart false).haltAt + 125 + 16 ∧
    (aPart false).stopped.any (sameUnit (aUnit 2 16)) = false ∧ (aPart false).stopped.any (sameUnit (aUnit 1 16)) = true := by decide
theorem meets_MemoryErrorsHalt : (∃ p, s0.part? 0 = some p ∧ p.halted = none) ∧ skidLimit 2 = some 16 ∧ unitExists (aUnit 2 16) = true ∧
    s0.gatedDies.contains 0 = false := ⟨⟨_, rfl, rfl⟩, by decide, by decide, by decide⟩
theorem meets_TripsStop : (∃ p, s0.booted = true ∧ s0.gatedDies.contains 0 = false ∧ s0.part? 0 = some p ∧ p.halted = none) ∧
    State.reset.booted = false ∧ State.reset.boot.safe = none := ⟨⟨_, by decide, by decide, rfl, rfl⟩, by decide, rfl⟩
theorem meets_ControlsSet : (∃ c, s0.ctx? 0 = some c ∧ s0.haltedDies c.dies = false) ∧ (∃ k, 8 ≤ k ∧ k ≤ 20 ∧ 2 ^ 20 = 2 ^ k) ∧
    (3 ≠ 0 ∧ ∀ k, 8 ≤ k → k ≤ 20 → 3 ≠ 2 ^ k) :=
  ⟨⟨_, rfl, by decide⟩, ⟨20, by decide, by decide, rfl⟩, by decide, fun k h _ e => by
    have := Nat.pow_le_pow_right (n := 2) (by decide) h
    omega⟩
/-- Die 0 counts loads, 5 of them on core 3; a snapshot of the same event, and one of another. -/
def aPerf : Perf := ⟨0, 0x0D, none, 0, 0, [(3, 5)]⟩
def aSnap (event : Nat) : Snap := ⟨1250, event, none, [0]⟩
def counting (event : Nat) : State := { s0 with perfs := [aPerf], snaps := [aSnap event], now := 1250 }
theorem meets_CountersRead : (∃ q ∈ s0.parts, q.dies = orderDies [0]) ∧ s0.haltedDies (orderDies [0]) = false ∧
    (counting 0x0D).snaps = [aSnap 0x0D] ∧ (aSnap 0x0D).at_ ≤ (counting 0x0D).now ∧ (aSnap 0x0D).dies ≠ [] ∧
    (aSnap 0x0D).dies.Pairwise (· < ·) ∧
    ((counting 0x0D).perfs.find? fun p => p.die == dieOf 3) = some aPerf ∧ aPerf.event ≠ 1 ∧ aPerf.event ≠ 5 ∧
    (∀ p ∈ (counting 0x0D).perfs, p.die ∈ (aSnap 0x0D).dies → p.event = (aSnap 0x0D).event ∧ p.ctx = (aSnap 0x0D).ctx) ∧
    ∃ p ∈ (counting 0x02).perfs, p.die ∈ (aSnap 0x02).dies ∧ ¬(p.event = (aSnap 0x02).event ∧ p.ctx = (aSnap 0x02).ctx) :=
  ⟨⟨_, List.mem_cons_self .., rfl⟩, by decide, rfl, by decide, by decide, by decide, rfl, by decide, by decide, by decide, by decide⟩
/-- Cluster 19 of die 0 loses records, waits for its drain, or has room; a ring that holds nothing drains nothing. -/
def gating : State := { s0 with gatings := [(19, 25000)], trace := [(19, [1])], now := 25000 }
def losing : State := { s0 with loss := [(19, 3)] }
theorem meets_TracesMove : (Sparse.get [] s0.trace 79).length + s0.ring.length ≤ Config.traceRing ∧
    (s0.gatedDies.contains (19 / 20) = false ∧ s0.gatedClusters.contains 19 = false ∧ (Sparse.get [] s0.trace 19).length < traceCap ∧
      Sparse.get 0 s0.loss 19 = 0) ∧
    ((gating.gatings.find? fun g => g.1 == 19) = some (19, 25000) ∧ 25000 ≤ gating.now) ∧
    (losing.gatedDies.contains (19 / 20) = false ∧ (∀ g ∈ losing.gatings, g.1 ≠ 19) ∧ (Sparse.get [] losing.trace 19).length < traceCap ∧
      Sparse.get 0 losing.loss 19 ≠ 0) :=
  ⟨Nat.zero_le _, by decide, by decide, by decide⟩
/-- A record of cycle 0, and a later cycle. -/
theorem meets_TracesMove_past : Sparse.get [] gating.trace 19 = [1] ∧ traceCycle 1 = 0 ∧ 0 < gating.now :=
  ⟨rfl, by simp [traceCycle], by decide⟩
theorem meets_LogsConsumed : ∃ c, s0.ctx? 0 = some c := ⟨_, rfl⟩
theorem meets_SystemDieEvents : (State.reset.booted = false ∧ State.reset.boot.safe = none) ∧ (s0.booted = true ∧ (List.replicate 32 (0 : Byte)).length = 32) :=
  ⟨⟨by decide, rfl⟩, by decide, rfl⟩
/-- The stages of boot, with images that are refused (which ones are accepted lies with the fused digest, a constant without a body); a
self-test and links that fail or not; ports with a version in common and none. -/
def noImage : Image := ⟨0, [], [], []⟩
def supplied : BootInput := ⟨noImage, noImage, noImage, noImage, [], none, none, vs, [], 5, [], []⟩
def booting (stage : Nat) (b : BootInput) : State := { State.reset with boot := ⟨stage, some b, none, [], false⟩ }
theorem meets_BootAdvances : (∀ n b, (booting n b).boot.input = some b ∧ (booting n b).boot.safe = none ∧ (booting n b).boot.stage = n) ∧
    (∀ kind, kind ≤ 4 → imageAccepted kind State.reset.minSvn noImage = false) ∧
    ({ supplied with selfTestFails := some 3 } : BootInput).selfTestFails = some 3 ∧ supplied.selfTestFails = none ∧
    ({ supplied with linksFail := some 2 } : BootInput).linksFail = some 2 ∧ supplied.linksFail = none ∧ (agreed supplied.formats).isSome = true ∧
    supplied.portsTrained = [] ∧ ({ supplied with portsTrained := [(17, vs)] } : BootInput).portsTrained = [(17, vs)] ∧ agreed vs = some (1, 0) ∧
    agreed [(2, 0)] = none ∧ (booting 5 supplied).portUp = false := by
  refine ⟨fun _ _ => ⟨rfl, rfl, rfl⟩, fun kind _ => ?_, by decide⟩
  simp [imageAccepted, noImage, imageField]
/-- A port that is up with nothing waiting, with a rejected packet, with a granted one, and down. -/
def port (up : Bool) (l : List (Nat × Bool)) : LinkState := ⟨.port 17, up, 0, l⟩
theorem meets_LinksMove : port true [] ∈ ({ s0 with links := [port true []] } : State).links ∧ (∀ w ∈ (port true []).waiting, w.1 ≠ 5) ∧
    (port true [(5, false)]).waiting = [(5, false)] ∧ (port true [(5, true)]).waiting = [(5, true)] ∧ (port false []).up = false ∧
    s0.booted = true ∧ agreed vs = some (1, 0) ∧ agreed [(2, 0)] = none := by decide
/-- An operation in flight that may use the port. -/
theorem meets_LinksMove_operation : (0, 255, 7) ∈ ranked.inFlight ∧ ∃ c cm, ranked.ctx? 0 = some c ∧ c.comm? 255 = some cm ∧
    ranked.mayUse cm (.port 0) = true := ⟨by decide, _, _, rfl, rfl, by decide⟩

/-! Decoding, fetching, traps -/

theorem meets_DecodeInvertsEncode : ∃ f, wf (.iadd (uw (.s 3) (.s 3) (.imm 1)) i32) = true ∧ fieldsOf (.iadd (uw (.s 3) (.s 3) (.imm 1)) i32) = some f :=
  ⟨_, by decide, rfl⟩
theorem meets_DecodedWords : decodeWord 4 = .ok (.nop w0) := by decide
def parkedS : State := onG fun g => { g with parked := [tile0] }
def parkedG : Group := (parkedS.group? 1).getD (Group.launch 0 0 0 0 0 0 0 0 0 [])
/-- A FENCE in issue whose drains have ended; a request to pre-empt that nothing defers. -/
def fenced : State := onG (fun g => { g with stay := true }) (State.reset.withFetchWord 64 0x60000000000006AC)
def deciding : State := { requested with turn := [] }
/-- A NOP at the pc; a group that may not issue; no turn with and without an event to come. -/
theorem meets_StepRunsDecoded : (∃ t, fenced.prompt = some t) ∧ s0.prompt = none ∧ parkedS.prompt = none ∧
    ({ State.reset with agenda := [(0, .supplyFault)] } : State).prompt = none ∧ State.reset.prompt = none ∧
    (deciding.prompt = none ∧ deciding.turn = [] ∧ deciding.nextEvent = none ∧ ∃ t, deciding.internal = some t) ∧
    (∃ it rest g b c bs, s0.turn = it :: rest ∧ s0.group? it.gid = some g ∧ s0.mayIssue g = true ∧
      s0.block? g.bid = some b ∧ s0.ctx? b.ctx = some c ∧ breakAt c g.pc = none ∧ s0.fetchXlat c g.pc.toNat = .ok 0 0 ∧
      decode (s0.dram.readList 0 16) = .ok (.nop w0, bs) ∧ g.pc.toNat % 32 + (16 - bs.length) ≤ 32) ∧
    (∃ it rest, parkedS.turn = it :: rest ∧ parkedS.group? it.gid = some parkedG ∧ parkedS.mayIssue parkedG = false) ∧
    (∃ t i s', ({ State.reset with agenda := [(0, .supplyFault)] } : State).nextEvent = some (t, i, s')) ∧
    ((atEnd { s4 with turn := [] }).prompt = none ∧ (atEnd { s4 with turn := [] }).turn = [] ∧ (atEnd { s4 with turn := [] }).nextEvent = none ∧
      (atEnd { s4 with turn := [] }).internal = none ∧ (atEnd { s4 with turn := [] }).refuse = (0, 0) :: []) ∧
    State.reset.turn = [] ∧ State.reset.nextEvent = none ∧ State.reset.internal = none ∧ State.reset.refuse = [] :=
  ⟨Option.isSome_iff_exists.mp (by decide), by decide, by decide, by decide, by decide,
    ⟨by decide, rfl, by decide, Option.isSome_iff_exists.mp (by decide)⟩,
    ⟨_, _, _, _, _, List.replicate 8 0, rfl, rfl, by decide, rfl, rfl, by decide, by decide, by decide, by decide⟩,
    ⟨_, _, rfl, rfl, by decide⟩, ⟨_, _, _, rfl⟩, by decide, rfl, by decide, by decide, rfl⟩

/-- A word at a pc that the group may issue, as the fetch finds it. -/
def fetches (word pc : Nat) (p : BitVec 128 → Bool) : Bool :=
  let s : State := { onG fun g => { g with pc := BitVec.ofNat 52 pc } with dram := s0.dram.writeN pc 16 word }
  match s.cx? 1 noFields with
  | none => false
  | some x => !s.fusedGroup x.g && s.mayIssue x.g && s.prompt.isNone && (breakAt x.c x.g.pc).isNone && s.fetchXlat x.c x.g.pc.toNat == .ok pc 0 &&
      p (BitVec.ofNat 128 (s.dram.readN pc 16))
/-- LEN 11; 64 bits from 28 on and 24 on, 96 from 24 and 20, 128 from 20 and 16 (R33); step 4 of R50. -/
theorem meets_FramesAndChecks : fetches 3 0 (fun w => (lenOf (w.extractLsb' 0 2)).isNone) = true ∧
    fetches 4 28 (fun w => lenOf (w.extractLsb' 0 2) == some .w64 && 28 / 32 != (28 + Len.w64.bytes - 1) / 32) = true ∧
    fetches 0 24 (fun w => lenOf (w.extractLsb' 0 2) == some .w64 && 24 / 32 == (24 + Len.w64.bytes - 1) / 32 &&
      decide (decodeWord w = .error 4)) = true ∧
    (crosses 24 .w96 = true ∧ crosses 20 .w96 = false) ∧ (crosses 20 .w128 = true ∧ crosses 16 .w128 = false) := by decide

/-- A breakpoint at the NOP that the group stands at. -/
theorem meets_FramesAndChecks_break : ∃ x, Solo (onC fun c => { c with breaks := [0] }) noFields x ∧
    (onC fun c => { c with breaks := [0] }).prompt = none ∧ (onC fun c => { c with breaks := [0] }).mayIssue x.g = true ∧
    breakAt x.c x.g.pc = some 0 ∧ (onC fun c => { c with breaks := [0] }).fetchXlat x.c x.g.pc.toNat = .ok 0 0 :=
  ⟨_, ⟨⟨_, _, rfl, rfl⟩, by decide⟩, by decide, by decide, by decide, by decide⟩

theorem traps_ret {s : State} (h : meets s (w0.fields 0x05 0) (fun x => decide (retBody x = .trap trapStack 3 x.g.amask)) = true) :
    ∃ x, Solo s (w0.fields 0x05 0) x ∧ Traps (.ret w0) s x 0x06 3 x.g.amask := by
  obtain ⟨x, hs, ha, hr⟩ := Meets.dec (P := fun x => retBody x = .trap trapStack 3 x.g.amask) (fun _ => inferInstance) h
  exact ⟨x, hs, issue_trap rfl hs ((gate_acts ha _).trans hr)⟩
/-- RET with nothing to return to: with a handler, with none, and inside one. -/
theorem meets_HandlerBanks :
    (∃ x, Solo (onC fun c => { c with ctl := { c.ctl with hentry := 0x100 } }) (w0.fields 0x05 0) x ∧
      Traps (.ret w0) (onC fun c => { c with ctl := { c.ctl with hentry := 0x100 } }) x 0x06 3 x.g.amask) ∧
    (∃ x, Solo s0 (w0.fields 0x05 0) x ∧ Traps (.ret w0) s0 x 0x06 3 x.g.amask) ∧
    (∃ x, Solo inHandler (w0.fields 0x05 0) x ∧ Traps (.ret w0) inHandler x 0x06 3 x.g.amask) ∧
    ((inHandler).group? 1).any (fun g => g.returnFrom.isSome) = true :=
  ⟨traps_ret (by decide), traps_ret (by decide), traps_ret (by decide), by decide⟩

/-- A block of −0 and +0, and one of zeros to decode (R64). -/
theorem meets_ZeroBlocks : Issues (onG fun g => g.vset 0 3 0x80000000) ((vw (.v 16) (.v 0)).fields 0x80 (⟨.e4m3, false, 0⟩ : IntMod).bits) fun x =>
    (∀ v ∈ x.run x.f.a 16 3, v = 0 ∨ v = 0x80000000) ∧ (0x80000000 : Word) ∈ x.run x.f.a 16 3 ∧ ∀ v ∈ x.run x.f.a 5 4, v = 0 :=
  .dec (fun _ => @instDecidableAnd _ _ (List.decidableBAll _ _) (@instDecidableAnd _ _ inferInstance (List.decidableBAll _ _))) (by decide)

theorem meets_StepsKeepInvariant : s0.Inv :=
  { cycle := by decide
    dram := by decide
    scratch := by decide }

end Sys2Proof.Tests
end

section
/-! The bank registers (R31): what a switch of the bank, entry to a handler (R288) and return from it (R289) leave in them, and
what a precise trap comes to (R287). -/

namespace Sys2Proof.Machine

open Sys2Proof

/-! Sparse maps of two banks -/

section
variable {β : Type} {d : β}

theorem Sparse.get_filter_key (p : Nat → Bool) (m : Sparse β) (n : Nat) :
    Sparse.get d (m.filter fun e => p e.1) n = if p n then Sparse.get d m n else d := by
  induction m with
  | nil => simp [Sparse.get]
  | cons e rest ih =>
    obtain ⟨a, y⟩ := e
    by_cases ha : a = n
    · subst ha
      by_cases hp : p a <;> simp [Sparse.get, hp, ih]
    · by_cases hp : p a <;> simp [Sparse.get, hp, ha, ih]

/-- A banked key reads from the other bank, every other key from the one that is kept. -/
theorem get_mergeBank (p : Nat → Bool) (keep take : Sparse β) (n : Nat) :
    Sparse.get d (mergeBank p keep take) n = if p n then Sparse.get d take n else Sparse.get d keep n := by
  unfold mergeBank
  induction keep with
  | nil => exact Sparse.get_filter_key p take n
  | cons e rest ih =>
    obtain ⟨a, y⟩ := e
    by_cases ha : a = n
    · subst ha
      by_cases hp : p a <;> simp_all [Sparse.get]
    · by_cases hp : p a <;> simp_all [Sparse.get]

end

/-! The switch of the bank (R31) -/

theorem bankedV_vKey {r t : Nat} (ht : t < 32) : bankedV (vKey r t) = decide (120 ≤ r) := by
  unfold bankedV vKey
  exact decide_eq_decide.mpr (by omega)

theorem sharesRest_switchBank (g : Group) : SharesRest g g.switchBank := by
  refine ⟨fun r t hr ht => ?_, fun r hr => ?_, fun r hr => ?_⟩
  · have hb : bankedV (vKey r t) = false := by rw [bankedV_vKey ht]; simpa using hr
    simp [Group.vget, Group.vempty, Group.switchBank, get_mergeBank, hb]
  · have hb : bankedS r = false := by simpa [bankedS] using hr
    simp [Group.sget, Group.sempty, Group.switchBank, get_mergeBank, hb]
  · simp [Group.kget, Group.switchBank, get_mergeBank, hr]

theorem takesCopies_switchBank (g : Group) : TakesCopies g g.switchBank := by
  refine ⟨fun r t hr ht => ?_, ?_⟩
  · have hb : bankedV (vKey r t) = true := by rw [bankedV_vKey ht]; simpa using hr
    simp only [Group.vget, Group.vempty, Group.switchBank, get_mergeBank, hb, if_true]
    exact ⟨rfl, rfl⟩
  · simp [Group.kget, Group.switchBank, get_mergeBank]

theorem savesCopies_switchBank (g : Group) : SavesCopies g g.switchBank := by
  refine ⟨fun r t hr ht => ?_, fun r hr => ?_, ?_⟩
  · have hb : bankedV (32 * r + t) = true := by rw [← vKey, bankedV_vKey ht]; simpa using hr
    simp only [Group.switchBank, Sparse.get_filter_key, hb, if_true]
    exact ⟨rfl, rfl⟩
  · have hb : bankedS r = true := by simpa [bankedS] using hr
    simp only [Group.switchBank, Sparse.get_filter_key, hb, if_true]
    exact ⟨rfl, rfl⟩
  · simp [Group.kget, Group.switchBank, Sparse.get_filter_key (fun r => r == 7)]

/-- The s registers of the bank are, after a switch, the copies kept aside before it. -/
theorem switchBank_s {g : Group} {r : Nat} (hr : 56 ≤ r) :
    g.switchBank.sget r = Sparse.get 0 g.other.s r ∧ g.switchBank.sempty r = Sparse.get false g.other.se r := by
  have hb : bankedS r = true := by simpa [bankedS] using hr
  simp [Group.sget, Group.sempty, Group.switchBank, get_mergeBank, hb]

/-! s registers written full -/

theorem sempty_smark {g : Group} {r q : Nat} {e : Bool} : (g.smark r e).sempty q = if q = r then e else g.sempty q := by
  unfold Group.sempty Group.smark
  exact Sparse.get_put

theorem putS_cons (g : Group) (e : Nat × Word) (l : List (Nat × Word)) :
    g.putS (e :: l) = ((g.sset e.1 e.2).smark e.1 false).putS l := rfl

theorem putS_regs_congr {l : List (Nat × Word)} {a b : Group} (h : a.regs = b.regs) : (a.putS l).regs = (b.putS l).regs := by
  induction l generalizing a b with
  | nil => exact h
  | cons e l ih => exact ih (by simp only [Group.smark, Group.sset, h])

theorem putS_s_of_notMem {l : List (Nat × Word)} {r : Nat} (h : r ∉ l.map (·.1)) (g : Group) :
    (g.putS l).sget r = g.sget r ∧ (g.putS l).sempty r = g.sempty r := by
  induction l generalizing g with
  | nil => exact ⟨rfl, rfl⟩
  | cons e l ih =>
    rw [List.map_cons, List.mem_cons, not_or] at h
    obtain ⟨hne, hl⟩ := h
    rw [putS_cons, (ih hl _).1, (ih hl _).2, sempty_smark, if_neg hne]
    exact ⟨sget_sset.trans (if_neg hne), rfl⟩

theorem putS_s_of_mem {l : List (Nat × Word)} (hl : (l.map (·.1)).Nodup) {r : Nat} {w : Word} (h : (r, w) ∈ l) (g : Group) :
    (g.putS l).sget r = w ∧ (g.putS l).sempty r = false := by
  induction l generalizing g with
  | nil => cases h
  | cons e l ih =>
    rw [List.map_cons, List.nodup_cons] at hl
    rw [putS_cons]
    rcases List.mem_cons.mp h with rfl | h
    · rw [(putS_s_of_notMem hl.1 _).1, (putS_s_of_notMem hl.1 _).2, sempty_smark, if_pos rfl]
      exact ⟨sget_sset.trans (if_pos rfl), rfl⟩
    · exact ih hl.2 h _

theorem putS_v (l : List (Nat × Word)) (g : Group) (r t : Nat) :
    (g.putS l).vget r t = g.vget r t ∧ (g.putS l).vempty r t = g.vempty r t := by
  rw [putS_only]
  exact ⟨rfl, rfl⟩

theorem putS_k (l : List (Nat × Word)) (g : Group) (r : Nat) : (g.putS l).kget r = g.kget r := by
  rw [putS_only]
  rfl

theorem SharesRest.putS {g g' : Group} (h : SharesRest g g') {l : List (Nat × Word)} (hl : ∀ e ∈ l, 56 ≤ e.1) :
    SharesRest g (g'.putS l) := by
  refine ⟨fun r t hr ht => ?_, fun r hr => ?_, fun r hr => (putS_k l g' r).trans (h.k r hr)⟩
  · rw [(putS_v l g' r t).1, (putS_v l g' r t).2]
    exact h.v r t hr ht
  · have hm : r ∉ l.map (·.1) := fun hm => by
      obtain ⟨e, he, rfl⟩ := List.mem_map.mp hm
      exact absurd (hl e he) (by omega)
    rw [(putS_s_of_notMem hm g').1, (putS_s_of_notMem hm g').2]
    exact h.s r hr

theorem TakesCopies.putS {g g' : Group} (h : TakesCopies g g') (l : List (Nat × Word)) : TakesCopies g (g'.putS l) := by
  refine ⟨fun r t hr ht => ?_, (putS_k l g' 7).trans h.k⟩
  rw [(putS_v l g' r t).1, (putS_v l g' r t).2]
  exact h.v r t hr ht

/-! What is said of a bank is said of the registers and of the copies kept aside, whatever else a group holds -/

theorem SharesRest.of_regs {g a b : Group} (h : SharesRest g a) (hr : b.regs = a.regs) : SharesRest g b := by
  obtain ⟨hv, hs, hk⟩ := h
  unfold Group.vget Group.vempty at hv
  unfold Group.sget Group.sempty at hs
  unfold Group.kget at hk
  rw [← hr] at hv hs hk
  exact ⟨hv, hs, hk⟩

theorem TakesCopies.of_regs {g a b : Group} (h : TakesCopies g a) (hr : b.regs = a.regs) : TakesCopies g b := by
  obtain ⟨hv, hk⟩ := h
  unfold Group.vget Group.vempty at hv
  unfold Group.kget at hk
  rw [← hr] at hv hk
  exact ⟨hv, hk⟩

theorem SavesCopies.of_other {g a b : Group} (h : SavesCopies g a) (ho : b.other = a.other) : SavesCopies g b := by
  obtain ⟨hv, hs, hk⟩ := h
  rw [← ho] at hv hs hk
  exact ⟨hv, hs, hk⟩

/-! Entry to a handler (R288) -/

theorem bank_registers (r : TrapRec) (n : Nat) : (r.bank n).map (·.1) = [56, 57, 58, 59, 60, 61, 62, 63] := rfl

theorem mem_bank_registers {r : TrapRec} {n q : Nat} : q ∈ (r.bank n).map (·.1) ↔ 56 ≤ q ∧ q < 64 := by
  rw [bank_registers]
  simp only [List.mem_cons, List.not_mem_nil, or_false]
  omega

@[simp] theorem enter_regs (g : Group) (h : VA) (r : TrapRec) (q : List TrapRec) :
    (g.enter h r q).regs = (g.switchBank.putS (r.bank q.length)).regs := rfl

/-- Entry changes the registers of the bank and what it clears, and nothing else of a group. -/
theorem enter_eq (g : Group) (h : VA) (r : TrapRec) (q : List TrapRec) :
    g.enter h r q = { g.switchBank with
      regs := (g.switchBank.putS (r.bank q.length)).regs, pc := h, handler := some r, entryDepth := g.stack.length, queue := q,
      waiting := none, counted := 0, stay := false, stayDone := false, reissue := false, tmap := none, evicts := none,
      gdesc := none, rejHeld := none } := by
  unfold Group.enter
  rw [putS_only]

@[simp] theorem enter_other (g : Group) (h : VA) (r : TrapRec) (q : List TrapRec) :
    (g.enter h r q).other = g.switchBank.other := by
  rw [enter_eq]

theorem enter_s_of_mem {r : TrapRec} {q : List TrapRec} {n : Nat} {w : Word} (hw : (n, w) ∈ r.bank q.length) (g : Group)
    (h : VA) :
    (g.enter h r q).sget n = w ∧ (g.enter h r q).sempty n = false := by
  unfold Group.sget Group.sempty
  rw [enter_regs]
  exact putS_s_of_mem (by rw [bank_registers]; decide) hw g.switchBank

/-- The handler finds the record in its bank. -/
theorem enter_record (g : Group) (h : VA) (r : TrapRec) (q : List TrapRec) :
    ∀ e ∈ r.bank q.length, (g.enter h r q).sget e.1 = e.2 := fun _ he => (enter_s_of_mem he g h).1

theorem enter_full (g : Group) (h : VA) (r : TrapRec) (q : List TrapRec) {n : Nat} (h1 : 56 ≤ n) (h2 : n < 64) :
    (g.enter h r q).sempty n = false := by
  obtain ⟨⟨m, w⟩, hw, rfl⟩ := List.mem_map.mp (mem_bank_registers (r := r) (n := q.length) |>.mpr ⟨h1, h2⟩)
  exact (enter_s_of_mem hw g h).2

theorem sharesRest_enter (g : Group) (h : VA) (r : TrapRec) (q : List TrapRec) : SharesRest g (g.enter h r q) :=
  ((sharesRest_switchBank g).putS fun _ he => (mem_bank_registers.mp (List.mem_map_of_mem he)).1).of_regs (enter_regs ..)

theorem takesCopies_enter (g : Group) (h : VA) (r : TrapRec) (q : List TrapRec) : TakesCopies g (g.enter h r q) :=
  ((takesCopies_switchBank g).putS _).of_regs (enter_regs ..)

theorem savesCopies_enter (g : Group) (h : VA) (r : TrapRec) (q : List TrapRec) : SavesCopies g (g.enter h r q) :=
  (savesCopies_switchBank g).of_other (enter_other ..)

/-! The words of a record (R288) -/

/-- The two words that hold a pc. -/
theorem pcWords_toNat (pc : VA) :
    (pc.extractLsb' 0 32).toNat + 2 ^ 32 * ((pc.extractLsb' 32 20).zeroExtend 32).toNat = pc.toNat := by
  have := pc.isLt
  simp only [BitVec.extractLsb'_toNat, BitVec.zeroExtend, BitVec.toNat_setWidth, Nat.shiftRight_eq_div_pow]
  omega

theorem causeWord_toNat (detail : Nat) (cause : BitVec 8) :
    ((BitVec.ofNat 16 detail ++ cause).zeroExtend 32 : Word).toNat = cause.toNat + 2 ^ 8 * (detail % 2 ^ 16) := by
  have := cause.isLt
  rw [BitVec.zeroExtend, BitVec.toNat_setWidth, BitVec.toNat_append, BitVec.toNat_ofNat,
    ← Nat.shiftLeft_add_eq_or_of_lt this, Nat.shiftLeft_eq]
  omega

theorem stoppedWord_toNat (pc : VA) : (pc.extractLsb' 2 32).toNat = pc.toNat / 4 % 2 ^ 32 := by
  rw [BitVec.extractLsb'_toNat, Nat.shiftRight_eq_div_pow]

/-- Entry with the record of a precise trap, whose place is also the place to resume at (R286). -/
theorem entered_enter (g : Group) (h : VA) (cause : BitVec 8) (detail : Nat) (lanes : Mask) :
    Entered g (g.enter h (trapRecOf g cause detail lanes g.pc 0) []) h cause detail lanes := by
  have heq := enter_eq g h (trapRecOf g cause detail lanes g.pc 0) []
  have hrec := enter_record g h (trapRecOf g cause detail lanes g.pc 0) []
  simp only [TrapRec.bank, List.forall_mem_cons] at hrec
  obtain ⟨h56, h57, h58, h59, h60, h61, h62, h63, -⟩ := hrec
  exact {
    pc := by rw [heq]
    mask := by rw [heq]; rfl
    stack := by rw [heq]; exact ⟨rfl, rfl⟩
    handler := by rw [heq]; exact ⟨rfl, rfl⟩
    resume := by rw [h56, h57]; exact pcWords_toNat g.pc
    cause := by rw [h58]; exact causeWord_toNat detail cause
    lanes := h59
    active := h60
    oper := h61
    stopped := by rw [h62]; exact stoppedWord_toNat g.pc
    pending := h63
    full := fun _ h1 h2 => enter_full g h _ _ h1 h2
    rest := sharesRest_enter ..
    copies := takesCopies_enter ..
    saved := savesCopies_enter .. }

/-- Entry says nothing of a group's tag. -/
theorem Entered.with_smpl {g g' : Group} {h : VA} {cause : BitVec 8} {detail : Nat} {lanes : Mask}
    (e : Entered g g' h cause detail lanes) (tag : Option Smpl) : Entered g { g' with smpl := tag } h cause detail lanes :=
  { e with rest := e.rest.of_regs rfl, copies := e.copies.of_regs rfl, saved := e.saved.of_other rfl }

/-- Entry says nothing of a group's reserve position. -/
theorem Entered.with_reserve {g g' : Group} {h : VA} {cause : BitVec 8} {detail : Nat} {lanes : Mask}
    (e : Entered g g' h cause detail lanes) (p : Option Nat) : Entered g { g' with reserve := p } h cause detail lanes :=
  { e with rest := e.rest.of_regs rfl, copies := e.copies.of_regs rfl, saved := e.saved.of_other rfl }

/-- A group enters its handler out of an attempt as it would have by itself, but for the tag it may lose (R357). -/
theorem enter_of_attempt (g : Group) (h : VA) (r : TrapRec) (q : List TrapRec) :
    ∃ tag, ({ g with stay := false, stayDone := false, reissue := false } : Group).loseTag.enter h r q =
      { g.enter h r q with smpl := tag } := by
  have key (tag : Option Smpl) :
      ({ g with stay := false, stayDone := false, reissue := false, smpl := tag } : Group).enter h r q =
      { g.enter h r q with smpl := tag } := by
    rw [enter_eq, enter_eq, putS_regs_congr (b := g.switchBank) rfl]
    rfl
  unfold Group.loseTag
  split
  · split
    · exact ⟨g.smpl, key g.smpl⟩
    · exact ⟨none, key none⟩
  · exact ⟨g.smpl, key g.smpl⟩

theorem eq_of_bare {g g' : Group} (h : g'.bare = g.bare) : g' = { g with reserve := g'.reserve } :=
  calc g' = { g'.bare with reserve := g'.reserve } := rfl
    _ = { g.bare with reserve := g'.reserve } := by rw [h]

/-! A precise trap (R287) -/

/-- In its handler, or with HENTRY 0, a group that traps halts its partition. -/
theorem takeTrap_halts {s : State} {g : Group} {b : Block} {c : Ctx} (r : TrapRec) (hb : s.block? g.bid = some b)
    (hc : s.ctx? b.ctx = some c) (h : g.handler.isSome = true ∨ c.ctl.hentry = 0) :
    s.takeTrap g r = s.halt (dieOf g.core) haltHandler (sliceUnit g) r.pc.toNat := by
  unfold State.takeTrap State.deliver
  cases hh : g.handler with
  | some _ => rfl
  | none =>
    have he : c.ctl.hentry = 0 := by simpa [hh] using h
    simp only [hb, hc, he, if_true]

/-- Sampling counts, and leaves every context's controls. -/
theorem sampleTick_ctl (s : State) (c : Ctx) (g : Group) (m : Mask) (no : Nat) :
    ((s.sampleTick c g m).2.ctx? no).map (·.ctl) = (s.ctx? no).map (·.ctl) := by
  unfold State.sampleTick
  split
  · rfl
  · by_cases hn : no = c.no
    · subst hn
      rw [ctx?_modCtx (by intro; rfl)]
      cases s.ctx? c.no <;> rfl
    · rw [ctx?_modCtx_ne (by intro; rfl) hn]

theorem trapping_ctl (s : State) (gid : Nat) (f : Fields) (no : Nat) :
    ((s.trapping gid f).ctx? no).map (·.ctl) = (s.ctx? no).map (·.ctl) := by
  have hu : (s.trapping gid f).ctx? no = (s.sampleTrap gid f).ctx? no := rfl
  rw [hu]
  unfold State.sampleTrap
  split
  · split
    · rfl
    · exact sampleTick_ctl ..
  · rfl

/-- What the state in which a trap is taken finds for the group: itself, its block, and a context with the same controls. -/
theorem Solo.trapping {s : State} {f : Fields} {x : Cx} (h : Solo s f x) :
    (s.trapping x.g.gid f).group? x.g.gid = some x.g ∧ (s.trapping x.g.gid f).block? x.g.bid = some x.b ∧
      ∃ c, (s.trapping x.g.gid f).ctx? x.b.ctx = some c ∧ c.ctl = x.c.ctl := by
  obtain ⟨-, hg, hb, hc, -⟩ := h.spec
  refine ⟨(group?_congr (trapping_groups ..) _).trans hg, (block?_congr (trapping_blocks ..) _).trans hb, ?_⟩
  have hctl := trapping_ctl s x.g.gid f x.b.ctx
  rwa [hc, Option.map_some, Option.map_eq_some_iff] at hctl

theorem Traps.enters {i : Instr} {s : State} {f : Fields} {x : Cx} {cause : BitVec 8} {detail : Nat} {lanes : Mask}
    (hx : Solo s f x) (ht : Traps i s x cause detail lanes) (hh : x.g.handler = none) (he : x.c.ctl.hentry ≠ 0) :
    ∃ t g, exec i s = .next t ∧ t.group? x.g.gid = some g ∧ Entered x.g g x.c.ctl.hentry cause detail lanes := by
  obtain ⟨t, hexec, hbook⟩ := ht
  obtain ⟨-, -, -, -, rfl, -⟩ := hx.spec
  obtain ⟨hg, hb, c, hc, hctl⟩ := hx.trapping
  rw [← hctl] at he ⊢
  obtain ⟨tag, htag⟩ := enter_of_attempt x.g c.ctl.hentry (trapRecOf x.g cause detail lanes x.g.pc 0) []
  have hin := takeTrap_enters (g := { x.g with stay := false, stayDone := false, reissue := false })
    (r := trapRecOf x.g cause detail lanes x.g.pc 0) hg hb hc hh he
  rw [htag] at hin
  obtain ⟨g, htg, hbare⟩ := Option.map_eq_some_iff.mp ((hbook.groups x.g.gid).trans (congrArg (Option.map Group.bare) hin))
  refine ⟨t, g, hexec, htg, ?_⟩
  rw [eq_of_bare hbare]
  exact ((entered_enter ..).with_smpl tag).with_reserve g.reserve

theorem Traps.halts {i : Instr} {s : State} {f : Fields} {x : Cx} {cause : BitVec 8} {detail : Nat} {lanes : Mask}
    (hx : Solo s f x) (ht : Traps i s x cause detail lanes) (h : x.g.handler.isSome = true ∨ x.c.ctl.hentry = 0) :
    ∃ t, exec i s = .next t ∧
      Booked ((s.trapping x.g.gid f).halt (dieOf x.g.core) haltHandler (sliceUnit x.g) x.g.pc.toNat) t := by
  obtain ⟨t, hexec, hbook⟩ := ht
  obtain ⟨-, -, -, -, rfl, -⟩ := hx.spec
  obtain ⟨-, hb, c, hc, hctl⟩ := hx.trapping
  rw [← hctl] at h
  rw [takeTrap_halts (g := { x.g with stay := false, stayDone := false, reissue := false }) _ hb hc h] at hbook
  exact ⟨t, hexec, hbook⟩

/-! Return from a handler (R289) -/

/-- When a return is no fault, and what it leaves. -/
theorem returnFrom_eq_some {g g' : Group} (h : g.returnFrom = some g') :
    g.stack.length = g.entryDepth ∧ (g.spair 56).extractLsb' 52 12 = 0 ∧ (g.spair 56).extractLsb' 0 2 = 0 ∧
      g.sget 60 &&& g.full ≠ 0 ∧
      g' = { g.switchBank with amask := g.sget 60 &&& g.full, pc := (g.spair 56).extractLsb' 0 52, handler := none } := by
  unfold Group.returnFrom at h
  dsimp only at h
  split at h
  · cases h
  · rename_i hc
    simp only [not_or, not_not] at hc
    obtain ⟨hdepth, hhigh, hlow, hmask⟩ := hc
    exact ⟨hdepth, hhigh, hlow, hmask, (Option.some.inj h).symm⟩

theorem spair_toNat (g : Group) (r : Nat) : (g.spair r).toNat = (g.sget r).toNat + 2 ^ 32 * (g.sget (r + 1)).toNat := by
  unfold Group.spair
  rw [BitVec.toNat_append, ← Nat.shiftLeft_add_eq_or_of_lt (g.sget r).isLt, Nat.shiftLeft_eq]
  omega

/-- A pair whose high twelve bits are zero is a pc. -/
theorem extract_pc_toNat {x : DWord} (h : x.extractLsb' 52 12 = 0) : (x.extractLsb' 0 52).toNat = x.toNat := by
  have h1 := congrArg BitVec.toNat h
  have h2 := x.isLt
  simp only [BitVec.extractLsb'_toNat, Nat.shiftRight_eq_div_pow, BitVec.ofNat_eq_ofNat, BitVec.toNat_ofNat] at h1 ⊢
  omega

theorem extract_pc_aligned {x : DWord} (h : x.extractLsb' 0 2 = 0) : (x.extractLsb' 0 52).toNat % 4 = 0 := by
  have h1 := congrArg BitVec.toNat h
  simp only [BitVec.extractLsb'_toNat, Nat.shiftRight_eq_div_pow, BitVec.ofNat_eq_ofNat, BitVec.toNat_ofNat] at h1 ⊢
  omega

theorem returned_returnFrom {g g' : Group} (h : g.returnFrom = some g') : Returned g g' := by
  obtain ⟨hdepth, hhigh, hlow, hmask, rfl⟩ := returnFrom_eq_some h
  exact {
    depth := hdepth
    pc := (extract_pc_toNat hhigh).trans (spair_toNat g 56)
    aligned := extract_pc_aligned hlow
    mask := ⟨rfl, hmask⟩
    handler := ⟨rfl, rfl, rfl⟩
    rest := (sharesRest_switchBank g).of_regs rfl
    copies := (takesCopies_switchBank g).of_regs rfl
    bank := fun _ hr => switchBank_s hr }

/-- Settles O57: a precise trap enters the handler over a switched bank or, where it cannot, halts the partition; a return from
the handler switches the bank back. -/
theorem handlerBanks : Obligations.HandlerBanks :=
  ⟨fun _ _ _ _ _ _ _ hx ht => ⟨ht.enters hx, ht.halts hx⟩, fun _ _ => returned_returnFrom⟩

end Sys2Proof.Machine
end

section
/-! The all-zero block (R64): a zero's value in the formats of R53 and R61, what QNT encodes sixteen zeros as (R63), and what
DQNT gives for a block whose registers are 0 (R62). -/

namespace Sys2Proof.Machine

open Sys2Proof

/-! Zeros among the codes -/

/-- The code 0 is +0 in every format with an exponent field. -/
theorem Fmt.val_zero {f : Fmt} (h : f.eb ≠ 0) (ftz : Bool) : f.val ftz 0 = .fin false 0 f.last := by
  have htop : (0 == 2 ^ f.eb - 1) = false := by
    have := Nat.one_lt_two_pow h
    simp only [beq_eq_false_iff_ne]
    omega
  simp [Fmt.val, htop]

/-- A zero of either sign is a finite FP32 value of magnitude 0. -/
theorem fmtF32_val_signedZero {v : Word} (h : v = 0 ∨ v = 0x80000000) :
    ∃ neg, fmtF32.val false v.toNat = .fin neg 0 fmtF32.last := by
  rcases h with rfl | rfl
  · exact ⟨false, Fmt.val_zero (by decide) false⟩
  · exact ⟨true, by decide⟩

theorem elementOf_zero (ty : Ty) (i : Nat) : ∃ e, elementOf ty 0 i = .fin false 0 e := by
  have hq4x : q4xByte 0 = (0, 0) := by decide
  have hint : IFmt.i8.read 0 = 0 := by decide
  cases ty
  case f16 | bf16 | e4m3 | e5m2 | e2m1 =>
    simp only [elementOf, Nat.zero_div, Nat.zero_mod]
    exact ⟨_, Fmt.val_zero (by decide) false⟩
  all_goals exact ⟨0, by simp [elementOf, hq4x, hint, valOfInt]⟩

theorem elementNan_zero (ty : Ty) (i : Nat) : elementNan ty 0 i = none := by
  cases ty
  case f16 | bf16 | e4m3 | e5m2 =>
    simp only [elementNan, Nat.zero_div, Nat.zero_mod]
    rw [Fmt.val_zero (by decide)]
  all_goals rfl

/-- Digits that are all 0 make the number 0. -/
theorem foldr_digits_eq_zero {α : Type} {f : α → Nat} {l : List α} (h : ∀ a ∈ l, f a = 0) (b : Nat) :
    l.foldr (fun a n => f a + b * n) 0 = 0 := by
  induction l with
  | nil => rfl
  | cons a l ih =>
    rw [List.foldr_cons, h a List.mem_cons_self, ih fun c hc => h c (List.mem_cons_of_mem a hc), Nat.mul_zero]

/-! Encoding (R63, R95) -/

theorem encodeBlock_of_zeros {xs : List Nat} (h : ∀ c ∈ xs, ∃ neg e, fmtF32.val false c = .fin neg 0 e) (ty : Ty)
    (words : Option (List Nat)) : encodeBlock ty xs words = (List.replicate 16 0, 0, 0) := by
  have hzero : (((xs.map (fmtF32.val false)).map magOf).all fun m => m.1 == 0) = true := by
    rw [List.map_map, List.all_map, List.all_eq_true]
    intro c hc
    obtain ⟨neg, e, hval⟩ := h c hc
    simp [hval, magOf]
  unfold encodeBlock
  dsimp only
  rw [if_neg, if_pos hzero]
  rw [Bool.not_eq_true, List.any_eq_false]
  intro v hv
  obtain ⟨c, hc, rfl⟩ := List.mem_map.mp hv
  obtain ⟨neg, e, hval⟩ := h c hc
  simp [hval]

theorem blockNibbles_iff {ty : Ty} : blockNibbles ty = true ↔ ty = .e2m1 ∨ ty = .q4x := by
  simp [blockNibbles]

theorem packBlock_zeros (ty : Ty) :
    packBlock ty (List.replicate 16 0) 0 = List.replicate (if ty = .e2m1 ∨ ty = .q4x then 3 else 5) 0 := by
  have hn (b : Nat) : (List.replicate 16 0).foldr (fun c n => c + b * n) 0 = 0 :=
    foldr_digits_eq_zero (fun _ hc => List.eq_of_mem_replicate hc) b
  unfold packBlock
  simp only [hn, Nat.zero_div, Nat.zero_mod, ← blockNibbles_iff]
  cases blockNibbles ty <;> rfl

/-- QNT of sixteen zeros of either sign writes registers of 0 and raises nothing, whatever is drawn (R64). -/
theorem qntShare_of_zeros {x : Cx} {t : Nat} (h : ∀ v ∈ x.run x.f.a 16 t, v = 0 ∨ v = 0x80000000) (ty : Ty) (sr : Bool)
    (dr : Draw) :
    (qntShare ty sr x t dr).1 = ⟨t, List.replicate (if ty = .e2m1 ∨ ty = .q4x then 3 else 5) 0, 0⟩ := by
  have hcodes : ∀ c ∈ (x.run x.f.a 16 t).map BitVec.toNat, ∃ neg e, fmtF32.val false c = .fin neg 0 e := by
    intro c hc
    obtain ⟨v, hv, rfl⟩ := List.mem_map.mp hc
    obtain ⟨neg, hval⟩ := fmtF32_val_signedZero (h v hv)
    exact ⟨neg, _, hval⟩
  simp only [qntShare, encodeBlock_of_zeros hcodes, packBlock_zeros, List.map_replicate]
  rfl

/-! Decoding (R62, R96) -/

theorem blockValue_zero (ty : Ty) (i : Nat) : ∃ e, blockValue ty 0 i 0 = .fin false 0 e := by
  obtain ⟨e, he⟩ := elementOf_zero ty i
  simp [blockValue, he]

/-- An exact zero rounds to the zero of its sign, with no exception. -/
theorem Fmt.round_zero (f : Fmt) (rnd : Rnd) (sat ftz neg : Bool) (e : Int) :
    f.round rnd sat ftz neg 0 e false = (f.signed neg 0, 0) := rfl

theorem decodeElement_zero (ty : Ty) (sat : Bool) (i : Nat) : decodeElement ty sat 0 i 0 = (0, 0) := by
  obtain ⟨e, he⟩ := blockValue_zero ty i
  simp [decodeElement, elementNan_zero, he, Fmt.round_zero, Fmt.signed]

/-- DQNT of registers of 0 gives sixteen +0 and raises nothing (R64). -/
theorem dqntShare_of_zeros {ty : Ty} {x : Cx} {t : Nat}
    (h : ∀ v ∈ x.run x.f.a (if ty = .e2m1 ∨ ty = .q4x then 3 else 5) t, v = 0) (sat : Bool) (dr : Draw) :
    (dqntShare ty sat x t dr).1 = ⟨t, List.replicate 16 0, 0⟩ := by
  obtain ⟨n, hn⟩ : ∃ n, x.run x.f.a ((if blockNibbles ty then 2 else 4) + 1) t = List.replicate n 0 := by
    refine ⟨_, List.eq_replicate_of_mem ?_⟩
    have hlen : (if blockNibbles ty then 2 else 4) + 1 = if ty = .e2m1 ∨ ty = .q4x then 3 else 5 := by
      simp only [← blockNibbles_iff]
      split <;> rfl
    rwa [hlen]
  have hbits (k : Nat) : (List.replicate k (0 : Word)).foldr (fun w acc => w.toNat + 2 ^ 32 * acc) 0 = 0 :=
    foldr_digits_eq_zero (fun _ hw => congrArg BitVec.toNat (List.eq_of_mem_replicate hw)) _
  unfold dqntShare
  dsimp only
  rw [hn, List.take_replicate, hbits, List.getD_eq_getElem?_getD, List.getElem?_getD_replicate_default_eq]
  simp only [BitVec.ofNat_eq_ofNat, BitVec.toNat_ofNat, Nat.zero_mod, decodeElement_zero]
  rfl

/-- Settles O58: all zeros of either sign are encoded as zeros with no exception, and zeros decode to sixteen +0. -/
theorem zeroBlocks : Obligations.ZeroBlocks :=
  fun _ _ dr ty _ => ⟨fun sr h => qntShare_of_zeros h ty sr dr, fun sat h => dqntShare_of_zeros h sat dr⟩

end Sys2Proof.Machine
end

section
/-! Decoding and encoding (R32 to R50): a word's fields lie within its length, the bytes of a number are its digits, and
the decoder builds every instruction from its own fields. -/

namespace Sys2Proof.Laws.Built

open Sys2Proof

/-- The decoder builds every well-formed instruction from its fields. -/
theorem statement : ∀ i : Instr, Statement i
  | .nop w => nop w | .exit w => exit w | .bra w m => bra w m | .braD w => braD w | .call w => call w | .ret w => ret w
  | .brt w => brt w | .pushj w => pushj w | .pushb w => pushb w | .join w => join w | .brk w => brk w | .trap w m => trap w m
  | .rte w => rte w | .bkpt w m => bkpt w m | .waitf w => waitf w | .waitb w => waitb w | .getsr w m => getsr w m
  | .setsr w m => setsr w m | .pctlNoidem w => pctlNoidem w | .pctlExpect w => pctlExpect w | .delay w => delay w
  | .iadd w m => iadd w m | .isub w m => isub w m | .imul w m => imul w m | .imulh w m => imulh w m | .imad w m => imad w m
  | .ineg w m => ineg w m | .iabs w m => iabs w m | .imin w m => imin w m | .imax w m => imax w m | .icmp w m => icmp w m
  | .sel w m => sel w m | .iclamp w m => iclamp w m | .imulw w m => imulw w m | .iaddc w m => iaddc w m
  | .isubb w m => isubb w m | .isad w m => isad w m | .and w m => and w m | .or w m => or w m | .xor w m => xor w m
  | .not w m => not w m | .andn w m => andn w m | .shl w m => shl w m | .shr w m => shr w m | .sar w m => sar w m
  | .rol w m => rol w m | .ror w m => ror w m | .popc w m => popc w m | .clz w m => clz w m | .brev w m => brev w m
  | .bfe w m => bfe w m | .bfi w m => bfi w m | .bpick w m => bpick w m | .lea w m => lea w m | .mov w m => mov w m
  | .pack w m => pack w m | .ffs w m => ffs w m | .unpk w m => unpk w m | .spst w m => spst w m | .spld w m => spld w m
  | .bswap w m => bswap w m | .fadd w m => fadd w m | .fsub w m => fsub w m | .fmul w m => fmul w m | .ffma w m => ffma w m
  | .fmin w m => fmin w m | .fmax w m => fmax w m | .fabs w m => fabs w m | .fneg w m => fneg w m | .fcmp w m => fcmp w m
  | .fclass w m => fclass w m | .frnd w m => frnd w m | .fscl w m => fscl w m | .fclamp w m => fclamp w m
  | .ffrc w m => ffrc w m | .fcpys w m => fcpys w m | .cvtFF w m => cvtFF w m | .cvtFI w m => cvtFI w m
  | .cvtIF w m => cvtIF w m | .cvtII w m => cvtII w m | .cvtSr w m => cvtSr w m | .cvtp w m => cvtp w m
  | .dot2Bf16 w m => dot2Bf16 w m | .dot4E4m3 w m => dot4E4m3 w m | .dot4E5m2 w m => dot4E5m2 w m
  | .dot8E2m1 w m => dot8E2m1 w m | .dot8Q4x w m => dot8Q4x w m | .qnt w m => qnt w m | .dqnt w m => dqnt w m
  | .fchk w m => fchk w m | .rcp w m => rcp w m | .rsq w m => rsq w m | .sqrt w m => sqrt w m | .ex2 w m => ex2 w m
  | .lg2 w m => lg2 w m | .sinr w m => sinr w m | .cosr w m => cosr w m | .tanh w m => tanh w m | .hadd2 w m => hadd2 w m
  | .hmul2 w m => hmul2 w m | .hfma2 w m => hfma2 w m | .hmin2 w m => hmin2 w m | .hmax2 w m => hmax2 w m
  | .dload w m => dload w m | .qkey w m => qkey w m | .qpos w m => qpos w m | .qskip w m => qskip w m | .qfork w m => qfork w m
  | .qforkTop w m => qforkTop w m | .qseek w m => qseek w m | .qsave w m => qsave w m | .qrest w m => qrest w m
  | .qgetPos w m => qgetPos w m | .qgetKey w m => qgetKey w m | .ddraw w => ddraw w | .kand w => kand w | .kor w => kor w
  | .kxor w => kxor w | .knot w => knot w | .kmov w => kmov w | .poll w m => poll w m | .shfl w m => shfl w m
  | .shflG w m => shflG w m | .gred w m => gred w m | .gscan w m => gscan w m | .spawn w => spawn w | .glaunch w => glaunch w
  | .dwait w => dwait w | .mtch w m => mtch w m | .kpopc w => kpopc w | .ld w m => ld w m | .st w m => st w m
  | .ldt w m => ldt w m | .atomAdd w m => atomAdd w m | .atomMin w m => atomMin w m | .atomMax w m => atomMax w m
  | .atomAnd w m => atomAnd w m | .atomOr w m => atomOr w m | .atomXor w m => atomXor w m | .atomExch w m => atomExch w m
  | .cas w m => cas w m | .redAdd w m => redAdd w m | .redMin w m => redMin w m | .redMax w m => redMax w m
  | .redAnd w m => redAnd w m | .redOr w m => redOr w m | .redXor w m => redXor w m | .bara w m => bara w m
  | .barw w m => barw w m | .bari w m => bari w m | .barb w => barb w | .fence w m => fence w m | .tmapMap w => tmapMap w
  | .tmapUnmap w => tmapUnmap w | .tfetch w => tfetch w | .tevict w => tevict w | .tstat w => tstat w | .copy w m => copy w m
  | .gather w m => gather w m | .scatter w m => scatter w m | .bclose w => bclose w | .updSgdm w => updSgdm w
  | .updAdamw w => updAdamw w | .updstep w => updstep w | .skpset w => skpset w | .copy2d w m => copy2d w m
  | .cfill w m => cfill w m | .mmaQ w => mmaQ w | .mmaQImage w => mmaQImage w | .mzero w => mzero w | .mld w m => mld w m
  | .mdrain w m => mdrain w m | .mstat w => mstat w | .collArReg w m => collArReg w m | .collArBuf w m => collArBuf w m
  | .collAg w => collAg w | .collBc w => collBc w | .pad t => pad t | .quartetFuse a b => quartetFuse a b
  | .delayDeadline a => delayDeadline a | .memoryResultWrite a => memoryResultWrite a | .sfuResultWrite a => sfuResultWrite a
  | .rejDrawComplete a => rejDrawComplete a | .mldFill a => mldFill a | .smplRecordFill a b => smplRecordFill a b
  | .spawnPackItem a => spawnPackItem a | .partialGroupSeal a b => partialGroupSeal a b
  | .spawnedGroupStart a => spawnedGroupStart a | .placeBlock a b => placeBlock a b | .blockRetire a => blockRetire a
  | .tileArrive a => tileArrive a | .tileWritebackDone a => tileWritebackDone a | .unmapComplete a b c => unmapComplete a b c
  | .hodAppend a => hodAppend a | .faultService a b c => faultService a b c | .storeReplay a => storeReplay a
  | .churnOpComplete a => churnOpComplete a | .drainPerform a => drainPerform a | .copyJob a => copyJob a
  | .gatherScatterJob a => gatherScatterJob a | .updJob a => updJob a | .skpsetJob a => skpsetJob a
  | .updstepJob a => updstepJob a | .jobComplete a => jobComplete a | .collOperation a b c d => collOperation a b c d
  | .collf a b c d e => collf a b c d e | .wdogExpiry a => wdogExpiry a | .critx a b => critx a b
  | .debugResume a => debugResume a | .unitStop a => unitStop a | .thermalTrip a => thermalTrip a
  | .preempt a b c => preempt a b c | .drainTimeout a => drainTimeout a | .saveComplete a => saveComplete a
  | .resume a b c d => resume a b c d | .ctxsw a b => ctxsw a b | .switchComplete a => switchComplete a
  | .slice a b c d e => slice a b c d e | .moduleReady a b => moduleReady a b | .sliceStart => sliceStart | .slicex => slicex
  | .ctxnew a b => ctxnew a b | .ctxfree a b => ctxfree a b | .gridrun a b c d e f g => gridrun a b c d e f g
  | .stopread a b => stopread a b | .partitionReset a => partitionReset a | .tracectl a b c => tracectl a b c
  | .perfrd a b c d e => perfrd a b c d e | .perfSnapshot => perfSnapshot | .ewset a b => ewset a b
  | .smplctl a b c => smplctl a b c | .traceDrain a => traceDrain a | .clusterGating a => clusterGating a
  | .gatingDrainTimeout a => gatingDrainTimeout a | .gapRecord a => gapRecord a | .moduleReset a => moduleReset a
  | .mctpQuery a => mctpQuery a | .attestationRequest a => attestationRequest a | .linkPacket a b c => linkPacket a b c
  | .reservationGrant a b => reservationGrant a b | .linkDown a => linkDown a | .linkRetrain a b => linkRetrain a b
  | .descriptorReadDone a => descriptorReadDone a | .writePerformedAtDie a => writePerformedAtDie a
  | .supplyFault => supplyFault | .logRecordConsumed a b => logRecordConsumed a b

end Sys2Proof.Laws.Built

namespace Sys2Proof

/-! Bytes of numbers -/

theorem bytesOfNat_length (n w : Nat) : (bytesOfNat n w).length = n := by
  induction n generalizing w with
  | zero => rfl
  | succ n ih => simp [bytesOfNat, ih]

theorem wordOfBytes_append (xs ys : List Byte) : wordOfBytes (xs ++ ys) = 2 ^ (8 * xs.length) * wordOfBytes ys + wordOfBytes xs := by
  induction xs with
  | nil => simp [wordOfBytes]
  | cons x xs ih =>
    rw [List.cons_append, wordOfBytes, ih, wordOfBytes, List.length_cons, show 8 * (xs.length + 1) = 8 * xs.length + 8 by ring, pow_add]
    ring

theorem wordOfBytes_bytesOfNat (n w : Nat) : wordOfBytes (bytesOfNat n w) = w % 2 ^ (8 * n) := by
  induction n generalizing w with
  | zero => simp [bytesOfNat, wordOfBytes, Nat.mod_one]
  | succ n ih =>
    rw [bytesOfNat, wordOfBytes, ih, BitVec.toNat_ofNat, show 8 * (n + 1) = 8 + 8 * n by ring, pow_add, Nat.mod_mul]
    rfl

/-- The first bits of a word read from bytes are those of the number whose bytes come first. -/
theorem getLsbD_wordOfBytes {n m : Nat} {w : BitVec m} {rest : List Byte} {i : Nat} (hi : i < 8 * n) (hm : i < m) :
    (BitVec.ofNat m (wordOfBytes (bytesOfNat n w.toNat ++ rest))).getLsbD i = w.getLsbD i := by
  rw [wordOfBytes_append, bytesOfNat_length, wordOfBytes_bytesOfNat, BitVec.getLsbD_ofNat, decide_eq_true hm, Bool.true_and,
    Nat.testBit_two_pow_mul_add _ (Nat.mod_lt _ (by positivity)), if_pos hi, Nat.testBit_mod_two_pow, decide_eq_true hi, Bool.true_and]
  rfl

/-! Fields within the length of a word -/

/-- Words alike in their first n bits have alike pieces there. -/
theorem extractLsb'_congr {w w' : BitVec 128} {n a k : Nat} (h : ∀ i < n, w.getLsbD i = w'.getLsbD i) (hk : a + k ≤ n) :
    w.extractLsb' a k = w'.extractLsb' a k := by
  apply BitVec.eq_of_getLsbD_eq; intro i hi
  rw [BitVec.getLsbD_extractLsb', BitVec.getLsbD_extractLsb', h (a + i) (by omega)]

/-- The fields of a word are those of every word alike within its length (R32, R36). -/
theorem splitWord_congr {w w' : BitVec 128} {len : Len} (hl : lenOf (w.extractLsb' 0 2) = some len)
    (h : ∀ i < 8 * len.bytes, w.getLsbD i = w'.getLsbD i) : splitWord w = splitWord w' := by
  have h64 : 64 ≤ 8 * len.bytes := by cases len <;> decide
  have piece : ∀ a k, a + k ≤ 64 → w.extractLsb' a k = w'.extractLsb' a k := fun a k hk => extractLsb'_congr h (by omega)
  have bit : ∀ i, i < 64 → w.getLsbD i = w'.getLsbD i := fun i hi => h i (by omega)
  unfold splitWord
  rw [← piece 0 2 (by omega), hl]
  simp only [Option.map_some, bit 2 (by omega), bit 14 (by omega), bit 33 (by omega), bit 43 (by omega), bit 53 (by omega),
    piece 3 8 (by omega), piece 11 3 (by omega), piece 15 9 (by omega), piece 24 9 (by omega), piece 34 9 (by omega),
    piece 44 9 (by omega), piece 54 10 (by omega)]
  cases len with
  | w64 => rfl
  | w96 => simp only [extractLsb'_congr (a := 64) (k := 32) h (by decide)]
  | w128 => simp only [extractLsb'_congr (a := 64) (k := 64) h (by decide)]

/-- So is what the word decodes to (R50). -/
theorem decodeWord_congr {w w' : BitVec 128} {len : Len} (hl : lenOf (w.extractLsb' 0 2) = some len)
    (h : ∀ i < 8 * len.bytes, w.getLsbD i = w'.getLsbD i) : decodeWord w = decodeWord w' := by
  unfold decodeWord; rw [splitWord_congr hl h]

theorem decodeWord_packWord {i : Instr} {f : Fields} (h : wf i = true) (hf : fieldsOf i = some f) : decodeWord (packWord f) = .ok i := by
  obtain ⟨hc, _, hl⟩ := wf_checks h hf
  unfold decodeWord
  rw [splitWord_packWord f hl]; dsimp only
  rw [hc]; dsimp only
  rw [Laws.Built.statement i f h hf]

/-- Settles O53: the fields that the encoder packs are split off again whatever follows the word, pass the checks, and the decoder
builds the instruction from them. -/
theorem decodeInvertsEncode : Obligations.DecodeInvertsEncode := by
  intro i f rest h hf
  have hw := decodeWord_packWord h hf
  have hb : encodeBytes i = bytesOfNat f.len.bytes (packWord f).toNat := by unfold encodeBytes; rw [hf]
  have hn : (encodeBytes i).length = f.len.bytes := by rw [hb, bytesOfNat_length]
  refine ⟨by unfold encode; rw [hf]; rfl, hw, hn, ?_⟩
  have h16 : f.len.bytes ≤ 16 := by cases f.len <;> decide
  have take : (encodeBytes i ++ rest).take 16 = encodeBytes i ++ rest.take (16 - f.len.bytes) := by
    rw [List.take_append, List.take_of_length_le (by omega), hn]
  have drop : (encodeBytes i ++ rest).drop f.len.bytes = rest := by rw [← hn]; exact List.drop_left
  have alike : ∀ k < 8 * f.len.bytes, (packWord f).getLsbD k =
      (BitVec.ofNat 128 (wordOfBytes ((encodeBytes i ++ rest).take 16))).getLsbD k := by
    intro k hk; rw [take, hb, getLsbD_wordOfBytes hk (by omega)]
  have len : lenOf ((packWord f).extractLsb' 0 2) = some f.len := by rw [packWord_len, Len.ofCode]
  have pos : 0 < f.len.bytes := by cases f.len <;> decide
  unfold decode; dsimp only
  rw [← decodeWord_congr len alike, hw, ← extractLsb'_congr alike (by omega), len]
  dsimp only; rw [drop]

end Sys2Proof
end


section
/-! What the decoder builds has the fields it was built from (R36, R48 to R50): every modifier that is read back has the bits it was read
from, and every maker of the opcode map keeps its word's operands. -/

namespace Sys2Proof

/-! Specifiers and modifiers read back -/

theorem Src.code_of_ofCode {c : BitVec 9} {s : Src} (h : Src.ofCode c = some s) : s.code = c := by
  have all : ∀ c : BitVec 9, ((Src.ofCode c).all fun s => s.code == c) = true := by decide +kernel
  have := all c; rw [h] at this; exact beq_iff_eq.mp this

theorem fields_operandsOf {f : Fields} {w : W} (h : operandsOf f = some w) : w.fields f.opc f.mod = f := by
  unfold operandsOf at h
  split at h
  · next d a b c hd ha hb hc =>
    injection h with h; subst h
    have hg : ∀ g : BitVec 3, BitVec.ofNat 3 g.toFin.val = g := by decide
    unfold W.fields
    simp only [Src.code_of_ofCode hd, Src.code_of_ofCode ha, Src.code_of_ofCode hb, Src.code_of_ofCode hc, hg]
  · cases h

theorem IntMod.bits_of_ofBits {b : BitVec 10} {m : IntMod} (h : IntMod.ofBits b = some m) : m.bits = b := by
  have all : ∀ b : BitVec 10, ((IntMod.ofBits b).all fun m => m.bits == b) = true := by decide +kernel
  have := all b; rw [h] at this; exact beq_iff_eq.mp this

theorem FpMod.bits_of_ofBits {b : BitVec 10} {m : FpMod} (h : FpMod.ofBits b = some m) : m.bits = b := by
  have all : ∀ b : BitVec 10, ((FpMod.ofBits b).all fun m => m.bits == b) = true := by decide +kernel
  have := all b; rw [h] at this; exact beq_iff_eq.mp this

theorem CmpMod.bits_of_ofBits {b : BitVec 10} {m : CmpMod} (h : CmpMod.ofBits b = some m) : m.bits = b := by
  have all : ∀ b : BitVec 10, ((CmpMod.ofBits b).all fun m => m.bits == b) = true := by decide +kernel
  have := all b; rw [h] at this; exact beq_iff_eq.mp this

theorem MemMod.bits_of_ofBits {b : BitVec 10} {m : MemMod} (h : MemMod.ofBits b = some m) : m.bits = b := by
  have all : ∀ b : BitVec 10, ((MemMod.ofBits b).all fun m => m.bits == b) = true := by decide +kernel
  have := all b; rw [h] at this; exact beq_iff_eq.mp this

theorem DrainMod.bits_of_ofBits {b : BitVec 10} {m : DrainMod} (h : DrainMod.ofBits b = some m) : m.bits = b := by
  have all : ∀ b : BitVec 10, ((DrainMod.ofBits b).all fun m => m.bits == b) = true := by decide +kernel
  have := all b; rw [h] at this; exact beq_iff_eq.mp this

theorem AtomMod.bits_of_ofBits {b : BitVec 10} {m : AtomMod} (h : AtomMod.ofBits b = some m) : m.bits = b := by
  have all : ∀ b : BitVec 10, ((AtomMod.ofBits b).all fun m => m.bits == b) = true := by decide +kernel
  have := all b; rw [h] at this; exact beq_iff_eq.mp this

theorem EngMod.bits_of_ofBits {b : BitVec 10} {m : EngMod} (h : EngMod.ofBits b = some m) : m.bits = b := by
  have all : ∀ b : BitVec 10, ((EngMod.ofBits b).all fun m => m.bits == b) = true := by decide +kernel
  have := all b; rw [h] at this; exact beq_iff_eq.mp this

theorem varBits_of_varOfBits {n : Nat} {b : BitVec 10} {v : Fin 16} (h : varOfBits n b = some v) : varBits v = b := by
  have all : ∀ b : BitVec 10, b.extractLsb' 4 6 = 0 → varBits (b.extractLsb' 0 4).toFin = b := by decide +kernel
  unfold varOfBits at h
  split at h
  · next hb => injection h with h; subst h; exact all b hb.1
  · cases h

/-- A slot modifier keeps all but SEL, which stands beside it (R47). -/
theorem SlotMod.bits_of_ofBits {b : BitVec 10} {m : SlotMod} (h : SlotMod.ofBits b = some m) : m.bits (b.extractLsb' 4 2) = b := by
  have all : ∀ b : BitVec 10, ((SlotMod.ofBits b).all fun m => m.bits (b.extractLsb' 4 2) == b) = true := by decide +kernel
  have := all b; rw [h] at this; exact beq_iff_eq.mp this

theorem Rnd.code_ofCode (c : BitVec 2) : (Rnd.ofCode c).code = c := by revert c; decide

theorem FFmt.code_of_ofCode {c : BitVec 3} {t : FFmt} (h : FFmt.ofCode c = some t) : t.code = c := by
  revert c t; decide

theorem IFmt.code_of_ofCode {c : BitVec 3} {t : IFmt} (h : IFmt.ofCode c = some t) : t.code = c := by
  revert c t; decide

theorem CvtMod.bits_of_ofBits {δ σ : Type} {dc : BitVec 3 → Option δ} {sc : BitVec 3 → Option σ} {d : δ → BitVec 3} {s : σ → BitVec 3}
    (hd : ∀ c x, dc c = some x → d x = c) (hs : ∀ c x, sc c = some x → s x = c) {b : BitVec 10} {m : CvtMod δ σ}
    (h : CvtMod.ofBits dc sc b = some m) : m.bits d s = b := by
  have join : ∀ b : BitVec 10, b.extractLsb' 7 3 ++ b.extractLsb' 4 3 ++ b.extractLsb' 2 2 ++ bit1 (b.getLsbD 1) ++ bit1 (b.getLsbD 0) = b := by
    decide +kernel
  unfold CvtMod.ofBits at h
  split at h
  · next hdf hsf =>
    injection h with h; subst h
    unfold CvtMod.bits
    simp only [hd _ _ hdf, hs _ _ hsf, Rnd.code_ofCode]
    exact join b
  · cases h

/-! The makers of the opcode map -/

/-- What a maker makes of a word that passes step 7 of R50 has the word's operands and modifier for its fields, and is the constructor's
own. -/
def Faithful (p : Nat × Maker) : Prop :=
  ∀ f w i, operandsOf f = some w → modOk p.1 f.s f.mod = true → p.2 f w = some i →
    fieldsOf i = some (w.fields (BitVec.ofNat 8 p.1) f.mod) ∧ ownFields i = true

theorem faithful_mkN {o : Nat} {c : W → Instr} (hc : ∀ w, fieldsOf (c w) = some (w.fields (BitVec.ofNat 8 o) 0) ∧ ownFields (c w) = true)
    (hm : ∀ u b, modOk o u b = (b == 0)) : Faithful (o, mkN c) := by
  intro f w i _ h e
  injection e with e; subst e
  rw [hm, beq_iff_eq] at h
  rw [h]; exact hc w

/-- Makers that read a modifier whose bits give it back. -/
theorem faithful_map {o : Nat} {M : Type} {r : BitVec 10 → Option M} {bits : M → BitVec 10} {c : W → M → Instr}
    (hr : ∀ {b m}, r b = some m → bits m = b)
    (hc : ∀ w m, fieldsOf (c w m) = some (w.fields (BitVec.ofNat 8 o) (bits m)) ∧ ownFields (c w m) = true) :
    Faithful (o, fun f w => (r f.mod).map (c w)) := by
  intro f w i _ _ e
  obtain ⟨m, hm, rfl⟩ := Option.map_eq_some_iff.mp e
  rw [← hr hm]; exact hc w m

/-- Makers that keep the modifier, or part of it where step 7 asks the rest to be zero. -/
theorem faithful_part {o : Nat} {M : Type} {r : BitVec 10 → M} {bits : M → BitVec 10} {c : W → M → Instr}
    (hr : ∀ u b, modOk o u b = true → bits (r b) = b)
    (hc : ∀ w m, fieldsOf (c w m) = some (w.fields (BitVec.ofNat 8 o) (bits m)) ∧ ownFields (c w m) = true) :
    Faithful (o, fun f w => some (c w (r f.mod))) := by
  intro f w i _ h e
  injection e with e; subst e
  obtain ⟨hf, ho⟩ := hc w (r f.mod)
  exact ⟨by rw [hf, hr _ _ h], ho⟩

theorem faithful_mkVar2 {o : Nat} {c0 c1 : W → Instr}
    (h0 : ∀ w, fieldsOf (c0 w) = some (w.fields (BitVec.ofNat 8 o) 0) ∧ ownFields (c0 w) = true)
    (h1 : ∀ w, fieldsOf (c1 w) = some (w.fields (BitVec.ofNat 8 o) 1) ∧ ownFields (c1 w) = true)
    (hm : ∀ u b, modOk o u b = (varOfBits 2 b).isSome) : Faithful (o, mkVar2 c0 c1) := by
  have two : ∀ b : BitVec 10, (varOfBits 2 b).isSome = true → b = 0 ∨ b = 1 := by decide +kernel
  intro f w i _ h e
  injection e with e; subst e
  rw [hm] at h
  rcases two _ h with hb | hb
  · rw [hb]; exact h0 w
  · rw [hb]; exact h1 w

/-- Slot instructions that leave SEL zero. -/
theorem faithful_mkSlot {o : Nat} {c : W → SlotMod → Instr}
    (hc : ∀ w m, fieldsOf (c w m) = some (w.fields (BitVec.ofNat 8 o) (m.bits 0)) ∧ ownFields (c w m) = true)
    (hm : ∀ u b, modOk o u b = true → b.extractLsb' 4 2 = 0) : Faithful (o, mkSlot c) := by
  intro f w i _ h e
  obtain ⟨m, hb, rfl⟩ := Option.map_eq_some_iff.mp e
  obtain ⟨hf, ho⟩ := hc w m
  exact ⟨by rw [hf, ← hm _ _ h, SlotMod.bits_of_ofBits hb], ho⟩

/-- Slot instructions that SEL tells apart. -/
theorem faithful_mkSlot2 {o : Nat} {c0 c1 : W → SlotMod → Instr}
    (h0 : ∀ w m, fieldsOf (c0 w m) = some (w.fields (BitVec.ofNat 8 o) (m.bits 0)) ∧ ownFields (c0 w m) = true)
    (h1 : ∀ w m, fieldsOf (c1 w m) = some (w.fields (BitVec.ofNat 8 o) (m.bits 1)) ∧ ownFields (c1 w m) = true)
    (hm : ∀ u b, modOk o u b = true → (b.extractLsb' 4 2).toNat ≤ 1) : Faithful (o, mkSlot2 c0 c1) := by
  intro f w i _ h e
  obtain ⟨m, hb, rfl⟩ := Option.map_eq_some_iff.mp e
  have bits := SlotMod.bits_of_ofBits hb
  split
  · next h1' =>
    rw [show f.mod.extractLsb' 4 2 = 1 from BitVec.eq_of_toNat_eq h1'] at bits
    obtain ⟨hf, ho⟩ := h1 w m
    exact ⟨by rw [hf, bits], ho⟩
  · next h1' =>
    rw [show f.mod.extractLsb' 4 2 = 0 from
      BitVec.eq_of_toNat_eq (by have := hm _ _ h; show _ = 0; omega)] at bits
    obtain ⟨hf, ho⟩ := h0 w m
    exact ⟨by rw [hf, bits], ho⟩

/-- Two constructors of one opcode that a field of the word tells apart. -/
theorem faithful_ite {o : Nat} {q : W → Prop} [DecidablePred q] {c0 c1 : W → Instr}
    (h1 : ∀ w, q w → fieldsOf (c1 w) = some (w.fields (BitVec.ofNat 8 o) 0) ∧ ownFields (c1 w) = true)
    (h0 : ∀ w, ¬ q w → fieldsOf (c0 w) = some (w.fields (BitVec.ofNat 8 o) 0) ∧ ownFields (c0 w) = true)
    (hm : ∀ u b, modOk o u b = (b == 0)) : Faithful (o, fun _ w => some (if q w then c1 w else c0 w)) := by
  intro f w i _ h e
  injection e with e; subst e
  rw [hm, beq_iff_eq] at h
  rw [h]
  split
  · next hq => exact h1 w hq
  · next hq => exact h0 w hq

/-- COLL.ar, whose forms the destination tells apart (R313). -/
theorem faithful_collAr :
    Faithful (0xF8, fun f w => (varOfBits 4 f.mod).map (if f.dst = 0 then .collArBuf w else .collArReg w)) := by
  intro f w i ho _ e
  have hd : f.dst = w.dst.code := (congrArg Fields.dst (fields_operandsOf ho)).symm
  dsimp only at e
  split at e
  · next h0 =>
    obtain ⟨v, hv, rfl⟩ := Option.map_eq_some_iff.mp e
    refine ⟨by rw [← varBits_of_varOfBits hv]; rfl, ?_⟩
    exact beq_iff_eq.mpr (code_zero (hd ▸ h0))
  · next h0 =>
    obtain ⟨v, hv, rfl⟩ := Option.map_eq_some_iff.mp e
    refine ⟨by rw [← varBits_of_varOfBits hv]; rfl, ?_⟩
    exact bne_iff_ne.mpr fun h => h0 (by rw [hd, h]; rfl)

end Sys2Proof
end


section
/-! What a word decodes to has the word's fields (R36, R48 to R50): the table of makers keeps them, and the checks of the word are the
instruction's own. -/

namespace Sys2Proof

theorem bra_bits (u : Bool) (b : BitVec 10) (h : modOk 0x02 u b = true) : bit1 (b.getLsbD 9) ++ 0#9 = b := by
  have all : ∀ b : BitVec 10, b.extractLsb' 0 9 = 0 → bit1 (b.getLsbD 9) ++ 0#9 = b := by decide +kernel
  exact all b (of_decide_eq_true h)

theorem code_bits {o : Nat} (ho : o = 0x0C ∨ o = 0x0E) (u : Bool) (b : BitVec 10) (h : modOk o u b = true) :
    0#2 ++ b.extractLsb' 0 8 = b := by
  have all : ∀ b : BitVec 10, b.extractLsb' 8 2 = 0 → 0#2 ++ b.extractLsb' 0 8 = b := by decide +kernel
  rcases ho with rfl | rfl <;> exact all b (of_decide_eq_true h)

theorem modOk_slot {o : Nat} (ho : 0xA1 ≤ o ∧ o ≤ 0xA8) (u : Bool) (b : BitVec 10) : modOk o u b = slotAccept o b := by
  unfold modOk
  iterate 17 rw [if_neg (by omega)]
  rw [if_pos (by omega)]

theorem sel_zero {o : Nat} (ho : (0xA1 ≤ o ∧ o ≤ 0xA8) ∧ o ≠ 0xA4 ∧ o ≠ 0xA8) (u : Bool) (b : BitVec 10) (h : modOk o u b = true) :
    b.extractLsb' 4 2 = 0 := by
  rw [modOk_slot ho.1] at h
  unfold slotAccept at h; dsimp only at h
  rw [if_neg ho.2.1, if_neg ho.2.2, Bool.and_eq_true, decide_eq_true_iff, decide_eq_true_iff] at h
  exact BitVec.eq_of_toNat_eq h.2.1

theorem sel_le_one {o : Nat} (ho : (0xA1 ≤ o ∧ o ≤ 0xA8) ∧ (o = 0xA4 ∨ o = 0xA8)) (u : Bool) (b : BitVec 10) (h : modOk o u b = true) :
    (b.extractLsb' 4 2).toNat ≤ 1 := by
  rw [modOk_slot ho.1] at h
  unfold slotAccept at h; dsimp only at h
  rcases ho.2 with rfl | rfl
  · rw [if_pos rfl, Bool.and_eq_true, decide_eq_true_iff, decide_eq_true_iff] at h; exact h.2
  · rw [if_neg (by decide), if_pos rfl, Bool.and_eq_true, decide_eq_true_iff, decide_eq_true_iff] at h; exact h.2.1

/-- FENCE, whose scope stands in the upper bits of its modifier (R217). -/
theorem faithful_fence : Faithful (0xD5, fun f w => (Scope.ofCode (f.mod.extractLsb' 7 3)).map (.fence w)) := by
  have all : ∀ b : BitVec 10, ((Scope.ofCode (b.extractLsb' 7 3)).all fun k => (b.extractLsb' 0 7 == 0) → k.code ++ 0#7 == b) = true := by
    decide +kernel
  intro f w i _ h e
  obtain ⟨k, hk, rfl⟩ := Option.map_eq_some_iff.mp e
  have h : ((Scope.ofCode (f.mod.extractLsb' 7 3)).isSome && f.mod.extractLsb' 0 7 == 0) = true := h
  have bits := all f.mod
  rw [hk] at bits
  refine ⟨congrArg (fun m => some (w.fields 0xD5 m)) (beq_iff_eq.mp ?_), rfl⟩
  exact of_decide_eq_true bits (Bool.and_eq_true _ _ ▸ h).2

theorem makersA_faithful : makersA.Forall Faithful :=
  ⟨faithful_mkN (fun _ => ⟨rfl, rfl⟩) fun _ _ => rfl,
   faithful_mkN (fun _ => ⟨rfl, rfl⟩) fun _ _ => rfl,
   faithful_part (bits := fun m => bit1 m ++ 0#9) bra_bits fun _ _ => ⟨rfl, rfl⟩,
   faithful_mkN (fun _ => ⟨rfl, rfl⟩) fun _ _ => rfl,
   faithful_mkN (fun _ => ⟨rfl, rfl⟩) fun _ _ => rfl,
   faithful_mkN (fun _ => ⟨rfl, rfl⟩) fun _ _ => rfl,
   faithful_mkN (fun _ => ⟨rfl, rfl⟩) fun _ _ => rfl,
   faithful_mkN (fun _ => ⟨rfl, rfl⟩) fun _ _ => rfl,
   faithful_mkN (fun _ => ⟨rfl, rfl⟩) fun _ _ => rfl,
   faithful_mkN (fun _ => ⟨rfl, rfl⟩) fun _ _ => rfl,
   faithful_mkN (fun _ => ⟨rfl, rfl⟩) fun _ _ => rfl,
   faithful_part (bits := fun k => 0#2 ++ k) (code_bits (by decide)) fun _ _ => ⟨rfl, rfl⟩,
   faithful_mkN (fun _ => ⟨rfl, rfl⟩) fun _ _ => rfl,
   faithful_part (bits := fun k => 0#2 ++ k) (code_bits (by decide)) fun _ _ => ⟨rfl, rfl⟩,
   faithful_mkN (fun _ => ⟨rfl, rfl⟩) fun _ _ => rfl,
   faithful_mkN (fun _ => ⟨rfl, rfl⟩) fun _ _ => rfl,
   faithful_part (bits := id) (fun _ _ _ => rfl) fun _ _ => ⟨rfl, rfl⟩,
   faithful_part (bits := id) (fun _ _ _ => rfl) fun _ _ => ⟨rfl, rfl⟩,
   faithful_mkVar2 (fun _ => ⟨rfl, rfl⟩) (fun _ => ⟨rfl, rfl⟩) fun _ _ => rfl,
   faithful_mkN (fun _ => ⟨rfl, rfl⟩) fun _ _ => rfl,
   faithful_map IntMod.bits_of_ofBits fun _ _ => ⟨rfl, rfl⟩,
   faithful_map IntMod.bits_of_ofBits fun _ _ => ⟨rfl, rfl⟩,
   faithful_map IntMod.bits_of_ofBits fun _ _ => ⟨rfl, rfl⟩,
   faithful_map IntMod.bits_of_ofBits fun _ _ => ⟨rfl, rfl⟩,
   faithful_map IntMod.bits_of_ofBits fun _ _ => ⟨rfl, rfl⟩,
   faithful_map IntMod.bits_of_ofBits fun _ _ => ⟨rfl, rfl⟩,
   faithful_map IntMod.bits_of_ofBits fun _ _ => ⟨rfl, rfl⟩,
   faithful_map IntMod.bits_of_ofBits fun _ _ => ⟨rfl, rfl⟩,
   faithful_map IntMod.bits_of_ofBits fun _ _ => ⟨rfl, rfl⟩⟩

theorem makersB_faithful : makersB.Forall Faithful :=
  ⟨faithful_map CmpMod.bits_of_ofBits fun _ _ => ⟨rfl, rfl⟩,
   faithful_map IntMod.bits_of_ofBits fun _ _ => ⟨rfl, rfl⟩,
   faithful_map IntMod.bits_of_ofBits fun _ _ => ⟨rfl, rfl⟩,
   faithful_map IntMod.bits_of_ofBits fun _ _ => ⟨rfl, rfl⟩,
   faithful_map IntMod.bits_of_ofBits fun _ _ => ⟨rfl, rfl⟩,
   faithful_map IntMod.bits_of_ofBits fun _ _ => ⟨rfl, rfl⟩,
   faithful_map IntMod.bits_of_ofBits fun _ _ => ⟨rfl, rfl⟩,
   faithful_map IntMod.bits_of_ofBits fun _ _ => ⟨rfl, rfl⟩,
   faithful_map IntMod.bits_of_ofBits fun _ _ => ⟨rfl, rfl⟩,
   faithful_map IntMod.bits_of_ofBits fun _ _ => ⟨rfl, rfl⟩,
   faithful_map IntMod.bits_of_ofBits fun _ _ => ⟨rfl, rfl⟩,
   faithful_map IntMod.bits_of_ofBits fun _ _ => ⟨rfl, rfl⟩,
   faithful_map IntMod.bits_of_ofBits fun _ _ => ⟨rfl, rfl⟩,
   faithful_map IntMod.bits_of_ofBits fun _ _ => ⟨rfl, rfl⟩,
   faithful_map IntMod.bits_of_ofBits fun _ _ => ⟨rfl, rfl⟩,
   faithful_map IntMod.bits_of_ofBits fun _ _ => ⟨rfl, rfl⟩,
   faithful_map IntMod.bits_of_ofBits fun _ _ => ⟨rfl, rfl⟩,
   faithful_map IntMod.bits_of_ofBits fun _ _ => ⟨rfl, rfl⟩,
   faithful_map IntMod.bits_of_ofBits fun _ _ => ⟨rfl, rfl⟩,
   faithful_map IntMod.bits_of_ofBits fun _ _ => ⟨rfl, rfl⟩,
   faithful_map IntMod.bits_of_ofBits fun _ _ => ⟨rfl, rfl⟩,
   faithful_map IntMod.bits_of_ofBits fun _ _ => ⟨rfl, rfl⟩,
   faithful_map IntMod.bits_of_ofBits fun _ _ => ⟨rfl, rfl⟩,
   faithful_map IntMod.bits_of_ofBits fun _ _ => ⟨rfl, rfl⟩,
   faithful_map IntMod.bits_of_ofBits fun _ _ => ⟨rfl, rfl⟩,
   faithful_map IntMod.bits_of_ofBits fun _ _ => ⟨rfl, rfl⟩,
   faithful_map IntMod.bits_of_ofBits fun _ _ => ⟨rfl, rfl⟩,
   faithful_map IntMod.bits_of_ofBits fun _ _ => ⟨rfl, rfl⟩,
   faithful_map IntMod.bits_of_ofBits fun _ _ => ⟨rfl, rfl⟩⟩

theorem makersC_faithful : makersC.Forall Faithful :=
  ⟨faithful_map IntMod.bits_of_ofBits fun _ _ => ⟨rfl, rfl⟩,
   faithful_map IntMod.bits_of_ofBits fun _ _ => ⟨rfl, rfl⟩,
   faithful_map FpMod.bits_of_ofBits fun _ _ => ⟨rfl, rfl⟩,
   faithful_map FpMod.bits_of_ofBits fun _ _ => ⟨rfl, rfl⟩,
   faithful_map FpMod.bits_of_ofBits fun _ _ => ⟨rfl, rfl⟩,
   faithful_map FpMod.bits_of_ofBits fun _ _ => ⟨rfl, rfl⟩,
   faithful_map FpMod.bits_of_ofBits fun _ _ => ⟨rfl, rfl⟩,
   faithful_map FpMod.bits_of_ofBits fun _ _ => ⟨rfl, rfl⟩,
   faithful_map FpMod.bits_of_ofBits fun _ _ => ⟨rfl, rfl⟩,
   faithful_map FpMod.bits_of_ofBits fun _ _ => ⟨rfl, rfl⟩,
   faithful_map CmpMod.bits_of_ofBits fun _ _ => ⟨rfl, rfl⟩,
   faithful_map IntMod.bits_of_ofBits fun _ _ => ⟨rfl, rfl⟩,
   faithful_map FpMod.bits_of_ofBits fun _ _ => ⟨rfl, rfl⟩,
   faithful_map FpMod.bits_of_ofBits fun _ _ => ⟨rfl, rfl⟩,
   faithful_map FpMod.bits_of_ofBits fun _ _ => ⟨rfl, rfl⟩,
   faithful_map FpMod.bits_of_ofBits fun _ _ => ⟨rfl, rfl⟩,
   faithful_map FpMod.bits_of_ofBits fun _ _ => ⟨rfl, rfl⟩,
   faithful_map (CvtMod.bits_of_ofBits (fun _ _ => FFmt.code_of_ofCode) fun _ _ => FFmt.code_of_ofCode) fun _ _ => ⟨rfl, rfl⟩,
   faithful_map (CvtMod.bits_of_ofBits (fun _ _ => FFmt.code_of_ofCode) fun _ _ => IFmt.code_of_ofCode) fun _ _ => ⟨rfl, rfl⟩,
   faithful_map (CvtMod.bits_of_ofBits (fun _ _ => IFmt.code_of_ofCode) fun _ _ => FFmt.code_of_ofCode) fun _ _ => ⟨rfl, rfl⟩,
   faithful_map (CvtMod.bits_of_ofBits (fun _ _ => IFmt.code_of_ofCode) fun _ _ => IFmt.code_of_ofCode) fun _ _ => ⟨rfl, rfl⟩,
   faithful_map (CvtMod.bits_of_ofBits (fun _ _ => FFmt.code_of_ofCode) fun _ _ => FFmt.code_of_ofCode) fun _ _ => ⟨rfl, rfl⟩,
   faithful_map (CvtMod.bits_of_ofBits (fun _ _ => FFmt.code_of_ofCode) fun _ _ => FFmt.code_of_ofCode) fun _ _ => ⟨rfl, rfl⟩,
   faithful_map FpMod.bits_of_ofBits fun _ _ => ⟨rfl, rfl⟩,
   faithful_map FpMod.bits_of_ofBits fun _ _ => ⟨rfl, rfl⟩,
   faithful_map FpMod.bits_of_ofBits fun _ _ => ⟨rfl, rfl⟩,
   faithful_map FpMod.bits_of_ofBits fun _ _ => ⟨rfl, rfl⟩,
   faithful_map FpMod.bits_of_ofBits fun _ _ => ⟨rfl, rfl⟩,
   faithful_map IntMod.bits_of_ofBits fun _ _ => ⟨rfl, rfl⟩⟩

theorem makersD_faithful : makersD.Forall Faithful :=
  ⟨faithful_map IntMod.bits_of_ofBits fun _ _ => ⟨rfl, rfl⟩,
   faithful_map IntMod.bits_of_ofBits fun _ _ => ⟨rfl, rfl⟩,
   faithful_map FpMod.bits_of_ofBits fun _ _ => ⟨rfl, rfl⟩,
   faithful_map FpMod.bits_of_ofBits fun _ _ => ⟨rfl, rfl⟩,
   faithful_map FpMod.bits_of_ofBits fun _ _ => ⟨rfl, rfl⟩,
   faithful_map FpMod.bits_of_ofBits fun _ _ => ⟨rfl, rfl⟩,
   faithful_map FpMod.bits_of_ofBits fun _ _ => ⟨rfl, rfl⟩,
   faithful_map FpMod.bits_of_ofBits fun _ _ => ⟨rfl, rfl⟩,
   faithful_map FpMod.bits_of_ofBits fun _ _ => ⟨rfl, rfl⟩,
   faithful_map FpMod.bits_of_ofBits fun _ _ => ⟨rfl, rfl⟩,
   faithful_map FpMod.bits_of_ofBits fun _ _ => ⟨rfl, rfl⟩,
   faithful_map FpMod.bits_of_ofBits fun _ _ => ⟨rfl, rfl⟩,
   faithful_map FpMod.bits_of_ofBits fun _ _ => ⟨rfl, rfl⟩,
   faithful_map FpMod.bits_of_ofBits fun _ _ => ⟨rfl, rfl⟩,
   faithful_map FpMod.bits_of_ofBits fun _ _ => ⟨rfl, rfl⟩,
   faithful_map (bits := fun v : Fin 16 => varBits v) varBits_of_varOfBits fun _ _ => ⟨rfl, rfl⟩,
   faithful_mkSlot (fun _ _ => ⟨rfl, rfl⟩) (sel_zero (by decide)),
   faithful_mkSlot (fun _ _ => ⟨rfl, rfl⟩) (sel_zero (by decide)),
   faithful_mkSlot (fun _ _ => ⟨rfl, rfl⟩) (sel_zero (by decide)),
   faithful_mkSlot2 (fun _ _ => ⟨rfl, rfl⟩) (fun _ _ => ⟨rfl, rfl⟩) (sel_le_one (by decide)),
   faithful_mkSlot (fun _ _ => ⟨rfl, rfl⟩) (sel_zero (by decide)),
   faithful_mkSlot (fun _ _ => ⟨rfl, rfl⟩) (sel_zero (by decide)),
   faithful_mkSlot (fun _ _ => ⟨rfl, rfl⟩) (sel_zero (by decide)),
   faithful_mkSlot2 (fun _ _ => ⟨rfl, rfl⟩) (fun _ _ => ⟨rfl, rfl⟩) (sel_le_one (by decide)),
   faithful_mkN (fun _ => ⟨rfl, rfl⟩) fun _ _ => rfl,
   faithful_mkN (fun _ => ⟨rfl, rfl⟩) fun _ _ => rfl,
   faithful_mkN (fun _ => ⟨rfl, rfl⟩) fun _ _ => rfl,
   faithful_mkN (fun _ => ⟨rfl, rfl⟩) fun _ _ => rfl,
   faithful_mkN (fun _ => ⟨rfl, rfl⟩) fun _ _ => rfl⟩

theorem makersE_faithful : makersE.Forall Faithful :=
  ⟨faithful_mkN (fun _ => ⟨rfl, rfl⟩) fun _ _ => rfl,
   faithful_map (bits := fun v : Fin 16 => varBits v) varBits_of_varOfBits fun _ _ => ⟨rfl, rfl⟩,
   faithful_map IntMod.bits_of_ofBits fun _ _ => ⟨rfl, rfl⟩,
   faithful_map IntMod.bits_of_ofBits fun _ _ => ⟨rfl, rfl⟩,
   faithful_map IntMod.bits_of_ofBits fun _ _ => ⟨rfl, rfl⟩,
   faithful_map IntMod.bits_of_ofBits fun _ _ => ⟨rfl, rfl⟩,
   faithful_mkN (fun _ => ⟨rfl, rfl⟩) fun _ _ => rfl,
   faithful_mkN (fun _ => ⟨rfl, rfl⟩) fun _ _ => rfl,
   faithful_mkN (fun _ => ⟨rfl, rfl⟩) fun _ _ => rfl,
   faithful_map IntMod.bits_of_ofBits fun _ _ => ⟨rfl, rfl⟩,
   faithful_mkN (fun _ => ⟨rfl, rfl⟩) fun _ _ => rfl,
   faithful_map MemMod.bits_of_ofBits fun _ _ => ⟨rfl, rfl⟩,
   faithful_map MemMod.bits_of_ofBits fun _ _ => ⟨rfl, rfl⟩,
   faithful_map MemMod.bits_of_ofBits fun _ _ => ⟨rfl, rfl⟩,
   faithful_map AtomMod.bits_of_ofBits fun _ _ => ⟨rfl, rfl⟩,
   faithful_map AtomMod.bits_of_ofBits fun _ _ => ⟨rfl, rfl⟩,
   faithful_map AtomMod.bits_of_ofBits fun _ _ => ⟨rfl, rfl⟩,
   faithful_map AtomMod.bits_of_ofBits fun _ _ => ⟨rfl, rfl⟩,
   faithful_map AtomMod.bits_of_ofBits fun _ _ => ⟨rfl, rfl⟩,
   faithful_map AtomMod.bits_of_ofBits fun _ _ => ⟨rfl, rfl⟩,
   faithful_map AtomMod.bits_of_ofBits fun _ _ => ⟨rfl, rfl⟩,
   faithful_map AtomMod.bits_of_ofBits fun _ _ => ⟨rfl, rfl⟩,
   faithful_map AtomMod.bits_of_ofBits fun _ _ => ⟨rfl, rfl⟩,
   faithful_map AtomMod.bits_of_ofBits fun _ _ => ⟨rfl, rfl⟩,
   faithful_map AtomMod.bits_of_ofBits fun _ _ => ⟨rfl, rfl⟩,
   faithful_map AtomMod.bits_of_ofBits fun _ _ => ⟨rfl, rfl⟩,
   faithful_map AtomMod.bits_of_ofBits fun _ _ => ⟨rfl, rfl⟩,
   faithful_map AtomMod.bits_of_ofBits fun _ _ => ⟨rfl, rfl⟩,
   faithful_map AtomMod.bits_of_ofBits fun _ _ => ⟨rfl, rfl⟩⟩

theorem makersF_faithful : makersF.Forall Faithful :=
  ⟨faithful_map AtomMod.bits_of_ofBits fun _ _ => ⟨rfl, rfl⟩,
   faithful_map MemMod.bits_of_ofBits fun _ _ => ⟨rfl, rfl⟩,
   faithful_mkN (fun _ => ⟨rfl, rfl⟩) fun _ _ => rfl,
   faithful_fence,
   faithful_ite (fun w h => ⟨rfl, h⟩) (fun w h => ⟨rfl, by simpa [ownFields] using h⟩) fun _ _ => rfl,
   faithful_mkN (fun _ => ⟨rfl, rfl⟩) fun _ _ => rfl,
   faithful_mkN (fun _ => ⟨rfl, rfl⟩) fun _ _ => rfl,
   faithful_mkN (fun _ => ⟨rfl, rfl⟩) fun _ _ => rfl,
   faithful_map EngMod.bits_of_ofBits fun _ _ => ⟨rfl, rfl⟩,
   faithful_map EngMod.bits_of_ofBits fun _ _ => ⟨rfl, rfl⟩,
   faithful_map EngMod.bits_of_ofBits fun _ _ => ⟨rfl, rfl⟩,
   faithful_mkN (fun _ => ⟨rfl, rfl⟩) fun _ _ => rfl,
   faithful_mkVar2 (fun _ => ⟨rfl, rfl⟩) (fun _ => ⟨rfl, rfl⟩) fun _ _ => rfl,
   faithful_mkN (fun _ => ⟨rfl, rfl⟩) fun _ _ => rfl,
   faithful_mkN (fun _ => ⟨rfl, rfl⟩) fun _ _ => rfl,
   faithful_map EngMod.bits_of_ofBits fun _ _ => ⟨rfl, rfl⟩,
   faithful_map EngMod.bits_of_ofBits fun _ _ => ⟨rfl, rfl⟩,
   faithful_ite (fun w h => ⟨rfl, beq_iff_eq.mpr h⟩) (fun w h => ⟨rfl, bne_iff_ne.mpr h⟩) fun _ _ => rfl,
   faithful_mkN (fun _ => ⟨rfl, rfl⟩) fun _ _ => rfl,
   faithful_map MemMod.bits_of_ofBits fun _ _ => ⟨rfl, rfl⟩,
   faithful_map DrainMod.bits_of_ofBits fun _ _ => ⟨rfl, rfl⟩,
   faithful_mkN (fun _ => ⟨rfl, rfl⟩) fun _ _ => rfl,
   faithful_collAr,
   faithful_mkN (fun _ => ⟨rfl, rfl⟩) fun _ _ => rfl,
   faithful_mkN (fun _ => ⟨rfl, rfl⟩) fun _ _ => rfl⟩

theorem makers_faithful {o : Nat} {mk : Maker} (h : makers.lookup o = some mk) : Faithful (o, mk) := by
  obtain ⟨l, r, he, -⟩ := List.lookup_eq_some_iff.mp h
  have hm : (o, mk) ∈ makers := by rw [he]; simp
  have every : ∀ p ∈ makers, Faithful p := by
    unfold makers
    simp only [List.forall_mem_append, ← List.forall_iff_forall_mem]
    exact ⟨⟨⟨⟨⟨makersA_faithful, makersB_faithful⟩, makersC_faithful⟩, makersD_faithful⟩, makersE_faithful⟩, makersF_faithful⟩
  exact every _ hm

/-- PAD's fields are its tag's (R49). -/
theorem fieldsOf_pad {f : Fields} (ho : f.opc = 0x07) (hs : f.s = true) (hx : f.ext = 0) (h : padOk f = true) :
    fieldsOf (.pad (f.b.extractLsb' 0 2 ++ bit1 f.aef ++ f.a)) = some f := by
  obtain ⟨len, s, opc, gneg, gidx, dst, a, aef, b, bef, c, cef, mod, ext⟩ := f
  simp only [padOk, Bool.and_eq_true, beq_iff_eq, Bool.not_eq_true'] at h
  obtain ⟨⟨⟨⟨⟨⟨⟨⟨rfl, rfl⟩, hb⟩, rfl⟩, rfl⟩, rfl⟩, rfl⟩, rfl⟩, rfl⟩ := h
  dsimp only at ho hs hx
  subst ho hs hx
  have low : ∀ b : BitVec 9, b.extractLsb' 2 7 = 0 → (b.extractLsb' 0 2).zeroExtend 9 = b := by decide
  have ha : (b.extractLsb' 0 2 ++ bit1 aef ++ a).extractLsb' 0 9 = a := by
    apply BitVec.eq_of_getLsbD_eq; intro i hi
    rw [BitVec.getLsbD_extractLsb', Nat.zero_add, append_low hi, decide_eq_true hi, Bool.true_and]
  have he : (b.extractLsb' 0 2 ++ bit1 aef ++ a).getLsbD 9 = aef := by
    rw [append_high (by omega), append_low (by omega)]; exact getLsbD_bit1 _
  have hb' : (b.extractLsb' 0 2 ++ bit1 aef ++ a).extractLsb' 10 2 = b.extractLsb' 0 2 := by
    apply BitVec.eq_of_getLsbD_eq; intro i hi
    rw [BitVec.getLsbD_extractLsb', append_high (by omega), append_high (by omega), decide_eq_true hi, Bool.true_and]
    exact congrArg _ (by omega)
  simp only [fieldsOf, ha, he, hb', low b hb]

theorem lenExt_splitWord {w : BitVec 128} {f : Fields} (h : splitWord w = some f) : lenExt f = true := by
  obtain ⟨len, hl, rfl⟩ := Option.map_eq_some_iff.mp h
  cases len with
  | w64 => rfl
  | w96 =>
    refine beq_iff_eq.mpr (BitVec.eq_of_getLsbD_eq fun i hi => ?_)
    simp [BitVec.getLsbD_extractLsb']
  | w128 => rfl

/-- A PAD that passes the checks is laid out as R49 says. -/
theorem checkFields_pad {f : Fields} (h : checkFields f = none) (ho : f.opc = 0x07) : padOk f = true ∧ f.s = true := by
  have row : opRow 7 = some ⟨0x07, 0x07, false, true, .none⟩ := by decide
  unfold checkFields at h
  simp only [ho, show (0x07 : BitVec 8).toNat = 7 from rfl, row] at h
  have len : lenOk f .none = true := rfl
  cases hs : f.s with
  | false => simp [hs] at h
  | true =>
    cases hp : padOk f with
    | false => simp [hs, hp, len] at h
    | true => exact ⟨rfl, rfl⟩

/-- What is built from fields that pass the checks has those fields. -/
theorem fieldsOf_build {f : Fields} {i : Instr} (hc : checkFields f = none) (hl : lenExt f = true) (h : build f = some i) :
    fieldsOf i = some f ∧ ownFields i = true := by
  unfold build at h
  split at h
  · next ho =>
    obtain ⟨hp, hs⟩ := checkFields_pad hc ho
    have hx : f.ext = 0 := by
      have w64 : f.len = .w64 := by
        simp only [padOk, Bool.and_eq_true, beq_iff_eq] at hp
        exact hp.1.1.1.1.1.1.1.1
      unfold lenExt at hl; rw [w64] at hl; exact beq_iff_eq.mp hl
    injection h with h; subst h
    exact ⟨fieldsOf_pad ho hs hx hp, rfl⟩
  · next ho =>
    split at h
    · next w mk hw hm =>
      obtain ⟨hf, hown⟩ := makers_faithful hm f w i hw (checkFields_modOk hc ho) h
      refine ⟨?_, hown⟩
      rw [hf, BitVec.ofNat_toNat, BitVec.setWidth_eq, fields_operandsOf hw]
    · cases h

/-- Settles O54: the checks that a word passes are those of the instruction built from it, whose fields are the word's. -/
theorem decodedWordsAreWellFormed : Obligations.DecodedWordsAreWellFormed := by
  intro w i h
  unfold decodeWord at h
  split at h
  · cases h
  · next f hs =>
    split at h
    · cases h
    · next hc =>
      split at h
      · next j hb =>
        injection h with h; subst h
        have hl := lenExt_splitWord hs
        obtain ⟨hf, hown⟩ := fieldsOf_build hc hl hb
        refine ⟨?_, f, hs, hf⟩
        unfold wf; rw [hf]
        simp [hc, hown, hl]
      · cases h

end Sys2Proof
end


section
/-! Instructions that write results: each row of them is an issue of its threads' shares (R15, R18), and a group by itself completes
them, logs their causes (R72), traps on them, or has them in flight (R118). -/

namespace Sys2Proof.Machine

open Sys2Proof

/-! Rows of shares -/

/-- i issues as the shares that `one` gives its threads. -/
structure IssuesShares (i : Instr) (f : Fields) (one : Cx → Nat → Draw → Share × Draw) : Prop where
  exec_eq : ∀ s, exec i s = issue f noPre (sharesBody one) s
  thread : ∀ x t dr, (one x t dr).1.t = t

/-- The difference with borrow, on the words themselves (R75). -/
theorem subBorrow_eq (a b c : DWord) : subBorrow a b c =
    (if codeOf a < codeOf b + (if c.getLsbD 0 then 1 else 0) then (1 : Word) else 0) ++
      (BitVec.ofNat 32 (codeOf a) - BitVec.ofNat 32 (codeOf b) - if c.getLsbD 0 then (1 : Word) else 0) := by
  have hread : ∀ x : DWord, tyRead .n32 x = (codeOf x : Int) := fun _ => rfl
  unfold subBorrow carryIn
  simp only [hread]
  congr 1
  · split <;> congr 1 <;> simp only [eq_iff_iff] <;> omega
  · have sub : ∀ x y : Int, BitVec.ofInt 32 (x - y) = BitVec.ofInt 32 x - BitVec.ofInt 32 y := fun x y => by
      rw [Int.sub_eq_add_neg, BitVec.ofInt_add, BitVec.ofInt_neg, BitVec.sub_eq_add_neg]
    rw [sub, sub, BitVec.ofInt_natCast, BitVec.ofInt_natCast]
    split <;> rfl

theorem integerRow_shares {i : Instr} {f : Fields} {one : Cx → Nat → Draw → Share × Draw} (h : integerRow i = some (f, one)) :
    IssuesShares i f one := by
  unfold integerRow at h
  split at h <;> cases h
  case h_13 w m =>
    refine ⟨fun s => ?_, fun _ _ _ => rfl⟩
    simp only [← subBorrow_eq]; rfl
  all_goals exact ⟨fun _ => rfl, fun _ _ _ => rfl⟩

theorem bitsRow_shares {i : Instr} {f : Fields} {one : Cx → Nat → Draw → Share × Draw} (h : bitsRow i = some (f, one)) :
    IssuesShares i f one := by
  unfold bitsRow at h
  split at h <;> cases h
  all_goals exact ⟨fun _ => rfl, fun _ _ _ => rfl⟩

theorem floatRow_shares {i : Instr} {f : Fields} {one : Cx → Nat → Draw → Share × Draw} (h : floatRow i = some (f, one)) :
    IssuesShares i f one := by
  unfold floatRow at h
  split at h <;> cases h
  all_goals exact ⟨fun _ => rfl, fun _ _ _ => rfl⟩

theorem convertRow_shares {i : Instr} {f : Fields} {one : Cx → Nat → Draw → Share × Draw} (h : convertRow i = some (f, one)) :
    IssuesShares i f one := by
  unfold convertRow at h
  split at h <;> cases h
  all_goals exact ⟨fun _ => rfl, fun _ _ _ => rfl⟩

theorem maskRow_shares {i : Instr} {f : Fields} {one : Cx → Nat → Draw → Share × Draw} (h : maskRow i = some (f, one)) :
    IssuesShares i f one := by
  unfold maskRow at h
  split at h <;> cases h
  all_goals exact ⟨fun _ => rfl, fun _ _ _ => rfl⟩

/-! Instructions of results -/

/-- i issues as the shares of `sh`, which are of different threads of a group. -/
structure IssuesResults (i : Instr) (f : Fields) (sh : Cx → List Share × Draw) : Prop where
  exec_eq : ∃ body, (∀ s, exec i s = issue f noPre body s) ∧ ∀ x, x.f = f → body x = x.finish (sh x).1 (sh x).2
  nodup : ∀ x, ((sh x).1.map (·.t)).Nodup
  lt : ∀ x, ∀ p ∈ (sh x).1, p.t < 32

/-- Shares of the acting threads, one each. -/
theorem IssuesResults.of_threads {i : Instr} {f : Fields} {sh : Cx → List Share × Draw} {body : Cx → Fate}
    (he : ∀ s, exec i s = issue f noPre body s) (hb : ∀ x, x.f = f → body x = x.finish (sh x).1 (sh x).2)
    (ht : ∀ x, (sh x).1.map (·.t) = x.each ∨ (sh x).1.map (·.t) = x.threads) : IssuesResults i f sh := by
  refine ⟨⟨body, he, hb⟩, fun x => ?_, fun x p hp => ?_⟩
  · rcases ht x with h | h
    · rw [h]; exact each_nodup x
    · rw [h]; exact threads_nodup _
  · have hm : p.t ∈ (sh x).1.map (·.t) := List.mem_map.mpr ⟨p, hp, rfl⟩
    rcases ht x with h | h
    · rw [h] at hm; exact each_lt hm
    · rw [h] at hm; exact threads_lt hm

theorem IssuesShares.results {i : Instr} {f : Fields} {one : Cx → Nat → Draw → Share × Draw} (h : IssuesShares i f one) :
    IssuesResults i f fun x => sharesOf x (one x) x.each Draw.start :=
  .of_threads h.exec_eq (fun _ _ => rfl) fun x => .inl (sharesOf_threads (h.thread x) _ _)

/-- A row of shares is a row of results. -/
theorem lift_results {row : Instr → Option (Fields × (Cx → Nat → Draw → Share × Draw))}
    (hrow : ∀ {i f one}, row i = some (f, one) → IssuesShares i f one) {i : Instr} {f : Fields} {sh : Cx → List Share × Draw}
    (h : lift row i = some (f, sh)) : IssuesResults i f sh := by
  unfold lift at h
  obtain ⟨⟨f', one⟩, h1, h2⟩ := Option.map_eq_some_iff.mp h
  cases h2
  exact (hrow h1).results

theorem map_thread {l : List Nat} {mk : Nat → Share} (h : ∀ t, (mk t).t = t) : (l.map mk).map (·.t) = l := by
  rw [List.map_map, show (fun p : Share => p.t) ∘ mk = id from funext h, List.map_id]

theorem valuesOf_threads (x : Cx) (l : List Nat) (dr : Draw) : (valuesOf x l dr).1.map (·.1) = l := by
  induction l generalizing dr with
  | nil => rfl
  | cons t ts ih => simp only [valuesOf, List.map_cons, ih]

theorem quietRow_results {i : Instr} {f : Fields} {sh : Cx → List Share} (h : quietRow i = some (f, sh)) :
    IssuesResults i f fun x => (sh x, Draw.start) := by
  unfold quietRow at h
  split at h
  · next w n =>
    split at h
    · cases h
    · next hn =>
      cases h
      have hn' : n.toNat ≠ 0x016 := fun e => hn (BitVec.eq_of_toNat_eq e)
      exact .of_threads (body := getsrBody n.toNat) (fun _ => rfl) (fun x _ => by unfold getsrBody; rw [if_neg hn'])
        fun x => .inl (map_thread fun _ => rfl)
  · cases h
    exact .of_threads (fun _ => rfl) (fun _ _ => rfl) fun x => .inr (map_thread fun _ => rfl)
  · cases h

theorem crossRow_results {i : Instr} {f : Fields} {sh : Cx → List (Nat × DWord) → List Share} (h : crossRow i = some (f, sh)) :
    IssuesResults i f fun x => (sh x (valuesOf x x.threads Draw.start).1, (valuesOf x x.threads Draw.start).2) := by
  unfold crossRow at h
  split at h
  · next w m =>
    split at h
    · cases h
    · next hs =>
      cases h
      refine .of_threads (body := gredBody m) (fun _ => rfl) (fun x hf => ?_) fun x => .inr (map_thread fun _ => rfl)
      unfold toScalar at hs
      unfold gredBody
      dsimp only
      rw [hf]
      exact if_neg hs
  · cases h
    exact .of_threads (fun _ => rfl) (fun _ _ => rfl) fun x => .inr (map_thread fun _ => rfl)
  · cases h
    refine .of_threads (fun _ => rfl) (fun _ _ => rfl) fun x => .inr ?_
    rw [List.map_map]; exact valuesOf_threads x _ _
  · cases h

theorem exchangeRow_results {i : Instr} {f : Fields} {sh : Cx → List Share × Draw} (h : exchangeRow i = some (f, sh)) :
    IssuesResults i f sh := by
  unfold exchangeRow at h
  split at h
  · next hq => cases h; exact quietRow_results hq
  · next hc => cases h; exact crossRow_results hc
  · cases h

theorem resultRow_results {i : Instr} {f : Fields} {sh : Cx → List Share × Draw} (h : resultRow i = some (f, sh)) :
    IssuesResults i f sh := by
  unfold resultRow at h
  simp only [Option.or_eq_some_iff] at h
  rcases h with ((h | ⟨_, h⟩) | ⟨_, h | ⟨_, h⟩⟩) | ⟨_, h | ⟨_, h⟩⟩
  · exact lift_results integerRow_shares h
  · exact lift_results bitsRow_shares h
  · exact lift_results floatRow_shares h
  · exact lift_results convertRow_shares h
  · exact lift_results maskRow_shares h
  · exact exchangeRow_results h

end Sys2Proof.Machine
end


section
/-! What an instruction of results leaves (R18, R72, R117, R118): its sticky bits and its record, its draws, its destination; its trap;
its result in flight. -/

namespace Sys2Proof.Machine

open Sys2Proof

/-! The record of an instruction's causes -/

theorem log_setGroup (s : State) (h : Group) (ctx cause fpc : Nat) (lanes : Mask) (pc : Nat) (name : Name) (group detail : Nat) :
    (s.setGroup h).log ctx cause fpc lanes pc name group detail = (s.log ctx cause fpc lanes pc name group detail).setGroup h := by
  have hc : (s.setGroup h).ctx? ctx = s.ctx? ctx := rfl
  unfold State.log State.modCtx
  dsimp only
  rw [hc]
  split <;> rfl

theorem logFp_setGroup (s : State) (h g : Group) (ctx : Nat) (c : Causes) (lanes : Mask) (pc : VA) :
    (s.setGroup h).logFp g ctx c lanes pc = (s.logFp g ctx c lanes pc).setGroup h := by
  unfold State.logFp
  split
  · rfl
  · exact log_setGroup ..

@[simp] theorem logFp_groups (s : State) (g : Group) (ctx : Nat) (c : Causes) (lanes : Mask) (pc : VA) :
    (s.logFp g ctx c lanes pc).groups = s.groups := by
  unfold State.logFp; split
  · rfl
  · simp

@[simp] theorem logFp_blocks (s : State) (g : Group) (ctx : Nat) (c : Causes) (lanes : Mask) (pc : VA) :
    (s.logFp g ctx c lanes pc).blocks = s.blocks := by
  unfold State.logFp; split
  · rfl
  · simp

theorem logFp_zero (s : State) (g : Group) (ctx : Nat) (lanes : Mask) (pc : VA) : s.logFp g ctx 0 lanes pc = s := if_pos rfl

/-- The causes that an instruction logs: those set to log, and where it names a REJ register those set to trap (R118). -/
def Cx.logging (x : Cx) : Causes := fpLogged x.c.ctl.fpctl ||| (if x.namesRej then fpTrapped x.c.ctl.fpctl else 0)

theorem logging_plain {x : Cx} (hr : x.namesRej = false) : x.logging = fpLogged x.c.ctl.fpctl := by
  unfold Cx.logging; rw [hr]; simp

/-- The threads in which causes of a set were raised (R72). -/
def Cx.lanesOf (x : Cx) (c : Causes) (ps : List Share) : Mask :=
  if x.f.s then x.g.amask else Mask.ofList ((ps.filter fun p => p.causes &&& c != 0).map (·.t))

theorem lanes_map (c : Causes) (ps : List Share) :
    (((ps.map fun p => (p.t, p.causes)).filter fun e => e.2 &&& c != 0).map (·.1)) = (ps.filter fun p => p.causes &&& c != 0).map (·.t) := by
  rw [List.filter_map, List.map_map]; rfl

/-- The exceptions of shares: a record of what is logged, and the sticky bits. -/
theorem raiseFp_eq {s : State} {x : Cx} (hg : s.group? x.g.gid = some x.g) (ps : List Share) :
    s.raiseFp x (ps.map fun p => (p.t, p.causes)) =
      (s.logFp x.g x.b.ctx (causesOf ps &&& x.logging) (x.lanesOf x.logging ps) x.g.pc).setGroup
        { x.g with fpstat := x.g.fpstat ||| (causesOf ps).zeroExtend 32 } := by
  unfold State.raiseFp
  simp only [causesOf_map, lanes_map]
  by_cases h0 : causesOf ps = 0
  · have same : ({ x.g with fpstat := x.g.fpstat ||| (causesOf ps).zeroExtend 32 } : Group) = x.g := by rw [h0]; simp
    have zero : causesOf ps &&& x.logging = 0 := by rw [h0]; exact BitVec.zero_and
    have zero' : causesOf ps &&& (fpLogged x.c.ctl.fpctl ||| (if x.namesRej then fpTrapped x.c.ctl.fpctl else 0)) = 0 := zero
    rw [if_pos h0, zero', zero, logFp_zero, logFp_zero, same, setGroup_self hg]
  · rw [if_neg h0, modGroup_eq hg, logFp_setGroup]; rfl

/-! Completion -/

/-- Completion of an attempt that leaves, beside the group's own change, the state v. -/
theorem issue_groups {i : Instr} {f : Fields} {pre : Cx → Option Fate} {body : Cx → Fate} {s u v : State} {x : Cx} {g : Group}
    {pc : Option VA} {e : Bool} (he : exec i s = issue f pre body s) (h : Solo s f x) (hx : x.gate pre body = .done u pc e)
    (hvg : v.groups = s.groups) (hvb : v.blocks = s.blocks) (hu : GroupsOnly v u)
    (hgr : ∀ n, u.group? n = if n = x.g.gid then some g else s.group? n) (hs : x.g.Same g) :
    Completes i s (v.setGroup g) x.g.gid f pc := by
  obtain ⟨-, hg, -⟩ := h.spec
  have alone : ∀ g', u.group? x.g.gid = some g' → u.fusedGroup g' = false := by
    intro g' hg'
    rw [hgr, if_pos rfl, Option.some.injEq] at hg'
    subst hg'
    exact (fusedGroup_same (hu.blocks.trans hvb) hs.spawned hs.bid hs.num).trans h.alone
  obtain ⟨t, ht, hret⟩ := issue_done h hx alone
  refine ⟨t, he.trans ht, hret.congr hu.still.symm (fun n => ?_) (fun n => ?_)⟩
  · rw [hgr]
    split
    · next hn => subst hn; exact group?_setGroup ((group?_congr hvg _).trans hg) hs.gid
    · next hn => rw [group?_setGroup_ne (by rw [hs.gid]; exact Ne.symm hn)]; exact group?_congr hvg n
  · exact (block?_congr (s := v) rfl n).trans (block?_congr hu.blocks n).symm

theorem settled_same (g : Group) (c : Causes) (dr : Draw) : g.Same (g.settled c dr) := by
  unfold Group.settled
  rw [commit_only]
  exact ⟨rfl, rfl, rfl, rfl⟩

theorem RegsOnly.same {g g' : Group} (h : g.RegsOnly g') : g.Same g' := by
  unfold Group.RegsOnly at h
  rw [h]; exact ⟨rfl, rfl, rfl, rfl⟩

theorem finished_same (g : Group) (dst : BitVec 9) (ps : List Share) (dr : Draw) : g.Same (g.finished dst ps dr) :=
  (settled_same g (causesOf ps) dr).trans (RegsOnly.same (regsOnly_writeShares dst ps _))

/-- Draws committed, exceptions raised and a change of the group made at the retirement of an instruction (R72, R117). -/
theorem retired_effects {s : State} {x : Cx} (hg : s.group? x.g.gid = some x.g) (ps : List Share) (dr : Draw) {fin : Group → Group}
    (hfin : ∀ g, (fin g).gid = g.gid) :
    let u := ((s.raiseFp x (ps.map fun p => (p.t, p.causes))).commitDraws x dr).modGroup x.g.gid fin
    GroupsOnly (s.logFp x.g x.b.ctx (causesOf ps &&& x.logging) (x.lanesOf x.logging ps) x.g.pc) u ∧
      ∀ n, u.group? n = if n = x.g.gid then some (fin (x.g.settled (causesOf ps) dr)) else s.group? n := by
  intro u
  obtain ⟨c1, c2⟩ := commitDraws_group (s.raiseFp x (ps.map fun p => (p.t, p.causes))) x dr
  refine ⟨?_, fun n => ?_⟩
  · rw [raiseFp_eq hg] at c1
    exact ((groupsOnly_setGroup ..).trans c1).trans (raiseFp_eq hg ps ▸ groupsOnly_modGroup ..)
  · rw [group?_modGroup_any hfin, c2]
    split
    · next hn =>
      subst hn
      have found : (s.raiseFp x (ps.map fun p => (p.t, p.causes))).group? x.g.gid =
          some { x.g with fpstat := x.g.fpstat ||| (causesOf ps).zeroExtend 32 } := by
        rw [raiseFp_eq hg]
        exact group?_setGroup ((group?_congr (logFp_groups ..) _).trans hg) rfl
      rw [found]; rfl
    · next hn =>
      rw [raiseFp_eq hg]
      exact (group?_setGroup_ne (by exact Ne.symm hn)).trans (group?_congr (logFp_groups ..) n)

/-- A trap of an instruction's causes: none is set to trap, or the instruction stays in issue already (R21, R72). -/
theorem fpTrap_none {x : Cx} {ps : List Share} (h : causesOf ps &&& fpTrapped x.c.ctl.fpctl = 0) :
    x.fpTrap (ps.map fun p => (p.t, p.causes)) = none := by
  unfold Cx.fpTrap
  simp only [causesOf_map, h, beq_self_eq_true, Bool.or_true, if_true]

theorem fpTrap_some {x : Cx} {ps : List Share} (hs : x.g.stay = false) (h : causesOf ps &&& fpTrapped x.c.ctl.fpctl ≠ 0) :
    x.fpTrap (ps.map fun p => (p.t, p.causes)) =
      some (.trap 0x0A ((causesOf ps &&& fpTrapped x.c.ctl.fpctl).toNat + 256 * (causesOf ps).toNat)
        (x.lanesOf (fpTrapped x.c.ctl.fpctl) ps)) := by
  unfold Cx.fpTrap
  simp only [causesOf_map, hs, Bool.false_or, beq_iff_eq, if_neg h, lanes_map]
  rfl

theorem finish_trap {x : Cx} {ps : List Share} (dr : Draw) (hr : x.namesRej = false) (hs : x.g.stay = false)
    (h : causesOf ps &&& fpTrapped x.c.ctl.fpctl ≠ 0) :
    x.finish ps dr = .trap 0x0A ((causesOf ps &&& fpTrapped x.c.ctl.fpctl).toNat + 256 * (causesOf ps).toNat)
      (x.lanesOf (fpTrapped x.c.ctl.fpctl) ps) := by
  unfold Cx.finish
  simp only [hr, Bool.false_and, Bool.false_eq_true, if_false, fpTrap_some hs h]

theorem finish_done {x : Cx} {ps : List Share} (dr : Draw) (hr : x.namesRej = false)
    (h : causesOf ps &&& fpTrapped x.c.ctl.fpctl = 0) :
    x.finish ps dr = .done (((x.s.raiseFp x (ps.map fun p => (p.t, p.causes))).commitDraws x dr).modGroup x.g.gid
      fun g => ps.foldl (fun g p => g.writeDst x.f.dst p.t p.words) g) none false := by
  unfold Cx.finish
  simp only [hr, Bool.false_and, Bool.false_eq_true, if_false, fpTrap_none h]

theorem finish_rej {x : Cx} (ps : List Share) (dr : Draw) (hr : x.namesRej = true) {r0 : Fin 128} (hd : Src.of x.f.dst = .v r0) :
    x.finish ps dr = .done ((x.s.commitNone x dr).putResult x .rej (ps.flatMap fun p => regWrites x.f.dst p.t p.words) dr.pos dr.words
      (rejxOf dr.qstat) (ps.map fun p => (p.t, p.causes)) false) none false := by
  unfold Cx.finish
  simp only [hr, hd, Bool.and_self, if_true]

/-- Every instruction of results that traps on no cause: its record, and its group with draws, sticky bits and destination. -/
theorem results_complete {i : Instr} {f : Fields} {sh : Cx → List Share × Draw} {s : State} {x : Cx} (hi : IssuesResults i f sh)
    (h : Solo s f x) (ha : x.Acts) (hr : x.namesRej = false) (ht : causesOf (sh x).1 &&& fpTrapped x.c.ctl.fpctl = 0) :
    ∃ g, Wrote (Src.of f.dst) (sh x).1 (x.g.settled (causesOf (sh x).1) (sh x).2) g ∧
      Completes i s ((s.logFp x.g x.b.ctx (causesOf (sh x).1 &&& x.logging) (x.lanesOf x.logging (sh x).1) x.g.pc).setGroup g)
        x.g.gid f none := by
  obtain ⟨hs, hg, -, -, hf, -⟩ := h.spec
  obtain ⟨body, he, hb⟩ := hi.exec_eq
  refine ⟨x.g.finished f.dst (sh x).1 (sh x).2, wrote_shares (hi.nodup x) (hi.lt x), ?_⟩
  obtain ⟨hgo, hgr⟩ := retired_effects hg (sh x).1 (sh x).2 (fin := fun g => (sh x).1.foldl (fun g p => g.writeDst x.f.dst p.t p.words) g)
    fun g => writeShares_gid _ _ g
  have hx : x.gate noPre body = .done (((s.raiseFp x ((sh x).1.map fun p => (p.t, p.causes))).commitDraws x (sh x).2).modGroup x.g.gid
      fun g => (sh x).1.foldl (fun g p => g.writeDst x.f.dst p.t p.words) g) none false := by
    rw [gate_acts ha, hb x hf, finish_done _ hr ht, hs]
  exact issue_groups (he s) h hx (logFp_groups ..) (logFp_blocks ..) hgo (fun n => by rw [hgr n, hf]; rfl) (finished_same ..)

/-- A row whose instructions issue as results completes with them. -/
theorem rowCompletes {row : Instr → Option (Fields × (Cx → List Share × Draw))}
    (hrow : ∀ {i f sh}, row i = some (f, sh) → IssuesResults i f sh) : RowCompletes row := by
  intro i f sh s x hi h ha hr hq
  obtain ⟨hl, ht⟩ := and_or_zero hq
  obtain ⟨g, hw, hc⟩ := results_complete (hrow hi) h ha hr ht
  rw [logging_plain hr, hl, logFp_zero] at hc
  exact ⟨g, hw, hc⟩

/-- Settles O1. -/
theorem arithmeticResults : Obligations.ArithmeticResults :=
  ⟨rowCompletes (lift_results integerRow_shares), rowCompletes (lift_results bitsRow_shares)⟩

/-- Settles O2. -/
theorem floatingResults : Obligations.FloatingResults :=
  ⟨rowCompletes (lift_results floatRow_shares), rowCompletes (lift_results convertRow_shares)⟩

/-- Settles O3. -/
theorem maskAndExchangeResults : Obligations.MaskAndExchangeResults :=
  ⟨rowCompletes (lift_results maskRow_shares), rowCompletes exchangeRow_results⟩

/-- Settles O6: the result is put in flight on the state in which NONE is set. -/
theorem rejResultsInFlight : Obligations.RejResultsInFlight := by
  intro i f sh s x r0 hi h ha hr hd
  obtain ⟨hs, hg, -, -, hf, -⟩ := h.spec
  obtain ⟨body, he, hb⟩ := (resultRow_results hi).exec_eq
  have key : x.gate noPre body = .done ((s.setGroup (x.g.setQstat (noneOf (sh x).2.qstat))).putResult x .rej
      ((sh x).1.flatMap fun p => regWrites f.dst p.t p.words) (sh x).2.pos (sh x).2.words (rejxOf (sh x).2.qstat)
      ((sh x).1.map fun p => (p.t, p.causes)) false) none false := by
    rw [gate_acts ha, hb x hf, finish_rej _ _ hr (hf ▸ hd), hf, hs, State.commitNone, modGroup_eq hg]
  refine issue_kept (he s) h key ((kept_setGroup (g0 := x.g) ?_ (setQstat_same ..)).trans (kept_putResult ..))
  rw [(setQstat_same ..).gid]; exact hg

theorem fpTraps : FpTraps := by
  intro i f sh s x hi h ha hr hst hc
  obtain ⟨-, -, -, -, hf, -⟩ := h.spec
  obtain ⟨body, he, hb⟩ := (resultRow_results hi).exec_eq
  have key := issue_trap (he s) h (pre := noPre) (by rw [gate_acts ha, hb x hf, finish_trap _ hr hst hc])
  rw [Cx.lanesOf, hf] at key
  exact key

theorem fpLogs : FpLogs := by
  intro i f sh s x hi h ha hr ht hl
  obtain ⟨-, -, -, -, hf, -⟩ := h.spec
  obtain ⟨g, hw, hc⟩ := results_complete (resultRow_results hi) h ha hr ht
  refine ⟨g, hw, ?_⟩
  rw [logging_plain hr, State.logFp, if_neg hl, Cx.lanesOf, hf] at hc
  exact hc

/-- Settles O7. -/
theorem fpExceptions : Obligations.FpExceptions := ⟨fpTraps, fpLogs⟩

end Sys2Proof.Machine
end


section
/-! Instructions whose effect is on their own group: waits and moves of the pc, stream slots (R125), compares (R10), special functions in
flight (R98), reductions to s registers (R161) and SETSR (R104). -/

namespace Sys2Proof.Machine

open Sys2Proof

/-! States that statements do not tell apart -/

/-- u and v differ at most in the books of the turn and in how they list their groups and blocks. -/
structure Alike (u v : State) : Prop where
  still : v.still = u.still
  group : ∀ n, v.group? n = u.group? n
  block : ∀ n, v.block? n = u.block? n

theorem Completes.alike {i : Instr} {s u v : State} {gid : Nat} {f : Fields} {pc : Option VA} (h : Completes i s u gid f pc)
    (hv : Alike u v) : Completes i s v gid f pc := by
  obtain ⟨t, ht, hr⟩ := h
  exact ⟨t, ht, hr.congr hv.still hv.group hv.block⟩

/-- The group g put into s, and a state that differs from s in this group at most. -/
theorem alike_setGroup {s u : State} {g g0 : Group} (hu : GroupsOnly s u) (h0 : s.group? g.gid = some g0)
    (hg : ∀ n, u.group? n = if n = g.gid then some g else s.group? n) : Alike u (s.setGroup g) := by
  refine ⟨hu.still.symm, fun n => ?_, fun n => block?_congr hu.blocks.symm n⟩
  rw [hg]
  split
  · next hn => subst hn; exact group?_setGroup h0 rfl
  · next hn => exact group?_setGroup_ne (Ne.symm hn)

theorem group?_putResult (s : State) (x : Cx) (kind : ResultKind) (ws : List RegW) (slots : List (Nat × DWord)) (words : Nat)
    (q : List (Nat × Word)) (c : List (Nat × Causes)) (tagged : Bool) (n : Nat) :
    (s.putResult x kind ws slots words q c tagged).group? n =
      if n = x.g.gid then (s.group? n).map fun g => g.markEmpty ws else s.group? n :=
  group?_modGroup_any fun g => (markEmpty_same ws g).gid

/-- A result put in flight in states alike. -/
theorem Alike.putResult {u v : State} (h : Alike u v) (x : Cx) (kind : ResultKind) (ws : List RegW) (slots : List (Nat × DWord))
    (words : Nat) (q : List (Nat × Word)) (c : List (Nat × Causes)) (tagged : Bool) :
    Alike (u.putResult x kind ws slots words q c tagged) (v.putResult x kind ws slots words q c tagged) := by
  have still : ∀ s : State, (s.putResult x kind ws slots words q c tagged).still =
      { s.still with nextId := s.still.nextId + 1, results := s.still.results ++
        [⟨s.still.nextId, x.g.gid, kind, ws, x.g.handler.isSome, slots, words, q, c, x.g.pc, none, tagged⟩] } := by
    intro s
    unfold State.putResult State.modGroup
    dsimp only
    split <;> rfl
  have block : ∀ (s : State) n, (s.putResult x kind ws slots words q c tagged).block? n = s.block? n :=
    fun s n => block?_congr (modGroup_blocks ..) n
  exact ⟨by rw [still, still, h.still], fun n => by rw [group?_putResult, group?_putResult, h.group],
    fun n => by rw [block, block, h.block]⟩

/-! Waits, jumps, POLL and TSTAT -/

/-- An attempt of an instruction that acts, which leaves its group as g. -/
theorem completes_group {i : Instr} {f : Fields} {pre : Cx → Option Fate} {body : Cx → Fate} {s : State} {x : Cx} {g : Group}
    {pc : Option VA} {e : Bool} (he : exec i s = issue f pre body s) (h : Solo s f x) (ha : x.Acts) (hp : pre x = none)
    (hb : body x = .done (x.s.modGroup x.g.gid fun _ => g) pc e) (hs : x.g.Same g) : Completes i s (s.setGroup g) x.g.gid f pc := by
  obtain ⟨rfl, -⟩ := h.spec
  exact issue_group he h (by rw [gate_pre ha hp]; exact hb) rfl hs

/-- A change of the group where it stands is the group put there. -/
theorem modGroup_const {s : State} {gid : Nat} {g : Group} (hg : s.group? gid = some g) (f : Group → Group) :
    s.modGroup gid f = s.modGroup gid fun _ => f g := by
  rw [modGroup_eq hg, modGroup_eq hg]

theorem modGroup_self {s : State} {gid : Nat} {g : Group} (hg : s.group? gid = some g) : s = s.modGroup gid fun _ => g := by
  rw [modGroup_eq hg, setGroup_self (by rw [group?_gid hg]; exact hg)]

theorem Solo.found {s : State} {f : Fields} {x : Cx} (h : Solo s f x) : x.s.group? x.g.gid = some x.g := by
  obtain ⟨rfl, hg, -⟩ := h.spec; exact hg

/-- Settles O4: each of these instructions leaves its group as the row says, or as it was. -/
theorem groupEffects : Obligations.GroupEffects := by
  intro i f eff pc s x hi h ha
  have same : x.s = x.s.modGroup x.g.gid fun _ => x.g := modGroup_self h.found
  have mods : ∀ g : Group → Group, x.s.modGroup x.g.gid g = x.s.modGroup x.g.gid fun _ => g x.g := modGroup_const h.found
  unfold groupRow at hi
  split at hi
  · cases hi
    exact completes_group (body := fun x => .done x.s none false) rfl h ha rfl (congrArg (Fate.done · none false) same) (.refl _)
  · cases hi
    exact completes_group (body := fun x => .done x.s none false) rfl h ha rfl (congrArg (Fate.done · none false) same) (.refl _)
  · cases hi
    exact completes_group (body := fun x => .done x.s none false) rfl h ha rfl (congrArg (Fate.done · none false) same) (.refl _)
  · cases hi
    exact completes_group (body := fun x => .done x.s (some x.target) true) rfl h ha rfl
      (congrArg (Fate.done · (some x.target) true) same) (.refl _)
  · cases hi
    exact completes_group (body := fun x => .done (x.s.modGroup x.g.gid _) none true) rfl h ha rfl
      (congrArg (Fate.done · none true) (mods _)) ⟨rfl, rfl, rfl, rfl⟩
  · cases hi
    exact completes_group (body := pollBody _) rfl h ha rfl (congrArg (Fate.done · none false) (mods _))
      (RegsOnly.same (regsOnly_writeDst ..))
  · cases hi
    exact completes_group (body := fun x => .done (x.s.modGroup x.g.gid _) none false) rfl h ha rfl
      (congrArg (Fate.done · none false) (mods _)) (RegsOnly.same (regsOnly_writeDst ..))
  · cases hi

/-! Stream slots (R125) -/

theorem mem_threads {m : Mask} {t : Nat} (h : t < 32) : t ∈ Mask.threads m ↔ m.getLsbD t = true := by
  unfold Mask.threads; simp [h]

/-- A thread's slots changed: a key, and then a position. -/
def Group.slotted (x : Cx) (keys poss : Option (Fin 4 × (Cx → Nat → DWord))) (t : Nat) (g : Group) : Group :=
  let g' := match keys with
    | some (sl, v) => g.setQkey sl.val t (v x t)
    | none => g
  match poss with
  | some (sl, v) => g'.setQpos sl.val t (v x t)
  | none => g'

theorem qkey_setQkey {g : Group} {sl slot t u : Nat} {v : DWord} (hsl : sl < 4) (hslot : slot < 4) :
    (g.setQkey sl t v).qkey slot u = if slot = sl ∧ u = t then v else g.qkey slot u := by
  unfold Group.qkey Group.setQkey
  simp only [Sparse.get_put, show (4 * u + slot = 4 * t + sl) ↔ (slot = sl ∧ u = t) by omega]

theorem qpos_setQpos {g : Group} {sl slot t u : Nat} {v : DWord} (hsl : sl < 4) (hslot : slot < 4) :
    (g.setQpos sl t v).qpos slot u = if slot = sl ∧ u = t then v else g.qpos slot u := by
  unfold Group.qpos Group.setQpos
  simp only [Sparse.get_put, show (4 * u + slot = 4 * t + sl) ↔ (slot = sl ∧ u = t) by omega]

@[simp] theorem qpos_setQkey (g : Group) (sl t slot u : Nat) (v : DWord) : (g.setQkey sl t v).qpos slot u = g.qpos slot u := rfl
@[simp] theorem qkey_setQpos (g : Group) (sl t slot u : Nat) (v : DWord) : (g.setQpos sl t v).qkey slot u = g.qkey slot u := rfl

/-- What a change gives a slot of thread t. -/
def slotChange (x : Cx) (change : Option (Fin 4 × (Cx → Nat → DWord))) (slot t : Nat) (old : DWord) : DWord :=
  match change with
  | some (sl, v) => if slot = sl.val then v x t else old
  | none => old

theorem qkey_slotted (x : Cx) (keys poss : Option (Fin 4 × (Cx → Nat → DWord))) (t : Nat) (g : Group) {slot : Nat} (u : Nat)
    (hs : slot < 4) :
    (g.slotted x keys poss t).qkey slot u = if u = t then slotChange x keys slot t (g.qkey slot u) else g.qkey slot u := by
  unfold Group.slotted slotChange
  cases keys with
  | none => cases poss <;> simp
  | some k => cases poss <;> simp only [qkey_setQpos, qkey_setQkey k.1.isLt hs] <;> split_ifs <;> simp_all

theorem qpos_slotted (x : Cx) (keys poss : Option (Fin 4 × (Cx → Nat → DWord))) (t : Nat) (g : Group) {slot : Nat} (u : Nat)
    (hs : slot < 4) :
    (g.slotted x keys poss t).qpos slot u = if u = t then slotChange x poss slot t (g.qpos slot u) else g.qpos slot u := by
  unfold Group.slotted slotChange
  cases poss with
  | none => cases keys <;> simp
  | some k => cases keys <;> simp only [qpos_setQkey, qpos_setQpos k.1.isLt hs] <;> split_ifs <;> simp_all

theorem slotted_only (x : Cx) (keys poss : Option (Fin 4 × (Cx → Nat → DWord))) (t : Nat) (g : Group) :
    g.slotted x keys poss t = { g with qk := (g.slotted x keys poss t).qk, qp := (g.slotted x keys poss t).qp } := by
  unfold Group.slotted
  cases keys <;> cases poss <;> rfl

/-- g has the slots of h in thread t. -/
def Group.SlotsOf (h g : Group) (t : Nat) : Prop := ∀ slot < 4, g.qkey slot t = h.qkey slot t ∧ g.qpos slot t = h.qpos slot t

/-- The slots of some different threads changed one after the other: each as if alone. -/
theorem slots_after {x : Cx} {keys poss : Option (Fin 4 × (Cx → Nat → DWord))} {act : Nat → Group → Group}
    (hact : ∀ t g, x.g.SlotsOf g t → act t g = g.slotted x keys poss t) {l : List Nat} (hl : l.Nodup) {g : Group}
    (hg : ∀ t ∈ l, x.g.SlotsOf g t) :
    let g' := l.foldl (fun g t => act t g) g
    g' = { g with qk := g'.qk, qp := g'.qp } ∧ ∀ slot < 4, ∀ u,
      g'.qkey slot u = (if u ∈ l then slotChange x keys slot u (g.qkey slot u) else g.qkey slot u) ∧
      g'.qpos slot u = (if u ∈ l then slotChange x poss slot u (g.qpos slot u) else g.qpos slot u) := by
  induction l generalizing g with
  | nil => exact ⟨rfl, fun _ _ _ => by simp⟩
  | cons t ts ih =>
    obtain ⟨ht, hts⟩ := List.nodup_cons.mp hl
    rw [List.foldl_cons, hact t g (hg t (by simp))]
    have rest : ∀ u ∈ ts, x.g.SlotsOf (g.slotted x keys poss t) u := by
      intro u hu slot hs
      have hne : u ≠ t := fun e => ht (e ▸ hu)
      rw [qkey_slotted _ _ _ _ _ _ hs, qpos_slotted _ _ _ _ _ _ hs, if_neg hne, if_neg hne]
      exact hg u (by simp [hu]) slot hs
    obtain ⟨h1, h2⟩ := ih hts rest
    refine ⟨by rw [h1, slotted_only], fun slot hs u => ?_⟩
    obtain ⟨k, p⟩ := h2 slot hs u
    rw [k, p, qkey_slotted _ _ _ _ _ _ hs, qpos_slotted _ _ _ _ _ _ hs]
    by_cases hu : u = t
    · subst hu; simp [ht]
    · simp [hu]

theorem slotAfter_eq (x : Cx) (change : Option (Fin 4 × (Cx → Nat → DWord))) (slot : Nat) {t : Nat} (ht : t < 32) (old : DWord) :
    slotAfter x change slot t old = if t ∈ x.threads then slotChange x change slot t old else old := by
  unfold slotAfter slotChange
  simp only [Cx.threads, mem_threads ht]
  cases change with
  | none => simp
  | some c => split_ifs <;> simp_all

/-- A stream instruction changes each acting thread's slots as its row says. -/
theorem streamRow_issues {i : Instr} {f : Fields} {keys poss : Option (Fin 4 × (Cx → Nat → DWord))}
    (h : streamRow i = some (f, keys, poss)) : ∃ act, (∀ s, exec i s = issue f noPre (streamBody act) s) ∧
      ∀ x t g, x.g.SlotsOf g t → act x t g = g.slotted x keys poss t := by
  unfold streamRow at h
  split at h <;> cases h
  · exact ⟨_, fun _ => rfl, fun _ _ _ _ => rfl⟩
  · exact ⟨_, fun _ => rfl, fun _ _ _ _ => rfl⟩
  · next w m =>
    refine ⟨_, fun _ => rfl, fun x t g hg => ?_⟩
    rw [(hg m.slot.val m.slot.isLt).2]; rfl
  · next w m =>
    refine ⟨_, fun _ => rfl, fun x t g hg => ?_⟩
    unfold forkSlot
    rw [(hg m.slot.val m.slot.isLt).1]; rfl
  · next w m =>
    refine ⟨_, fun _ => rfl, fun x t g hg => ?_⟩
    unfold forkSlot
    rw [(hg m.slot.val m.slot.isLt).1]; rfl
  · exact ⟨_, fun _ => rfl, fun _ _ _ _ => rfl⟩
  · exact ⟨_, fun _ => rfl, fun _ _ _ _ => rfl⟩

theorem streamChanges : StreamChanges := by
  intro i f keys poss s x hi h ha
  obtain ⟨act, he, hact⟩ := streamRow_issues hi
  obtain ⟨only, slots⟩ := slots_after (hact x) (threads_nodup x.act) (g := x.g) fun t _ slot _ => ⟨rfl, rfl⟩
  refine ⟨x.threads.foldl (fun g t => act x t g) x.g, only, fun slot t hs ht => ?_, ?_⟩
  · rw [slotAfter_eq _ _ _ ht, slotAfter_eq _ _ _ ht]; exact slots slot hs t
  · refine completes_group (he s) h ha rfl (congrArg (Fate.done · none false) (modGroup_const h.found _)) ?_
    unfold Cx.threads; rw [only]; exact ⟨rfl, rfl, rfl, rfl⟩

/-- A slot's value written to the destination of each thread: writing it changes no slot. -/
theorem writes_slots {dst : BitVec 9} {value : Group → Nat → DWord} (hv : ∀ g g' t, g.RegsOnly g' → value g' t = value g t)
    (l : List Nat) (g0 g : Group) (h0 : g0.RegsOnly g) :
    l.foldl (fun g t => g.writeDst dst t (wordsOf 2 (value g t))) g =
      (l.map fun t => (⟨t, wordsOf 2 (value g0 t), 0⟩ : Share)).foldl (fun g p => g.writeDst dst p.t p.words) g := by
  induction l generalizing g with
  | nil => rfl
  | cons t ts ih =>
    rw [List.map_cons, List.foldl_cons, List.foldl_cons, ih _ (h0.trans (regsOnly_writeDst ..)), hv g0 g t h0]

theorem slotReadRow_issues {i : Instr} {f : Fields} {v : Cx → Nat → DWord} (h : slotReadRow i = some (f, v)) :
    ∃ value : Group → Nat → DWord, (∀ s, exec i s = issue f noPre (streamOut value) s) ∧ (∀ x t, v x t = value x.g t) ∧
      ∀ g g' t, g.RegsOnly g' → value g' t = value g t := by
  unfold slotReadRow at h
  split at h <;> cases h
  all_goals exact ⟨_, fun _ => rfl, fun _ _ => rfl, fun g g' t e => by rw [e]; rfl⟩

theorem slotReads : SlotReads := by
  intro i f v s x hi h ha
  obtain ⟨-, -, -, -, hf, -⟩ := h.spec
  obtain ⟨value, he, hv, hkeep⟩ := slotReadRow_issues hi
  have shares : (x.threads.map fun t => (⟨t, wordsOf 2 (v x t), 0⟩ : Share)) = x.threads.map fun t => ⟨t, wordsOf 2 (value x.g t), 0⟩ := by
    simp only [hv]
  rw [shares]
  refine ⟨_, wrote_shares ?_ ?_, completes_group (he s) h ha rfl (congrArg (Fate.done · none false) ?_)
    (RegsOnly.same (regsOnly_writeShares ..))⟩
  · rw [map_thread fun _ => rfl]; exact threads_nodup _
  · intro p hp
    obtain ⟨t, ht, rfl⟩ := List.mem_map.mp hp
    exact threads_lt ht
  · rw [modGroup_const h.found, ← hf]
    exact congrArg (fun g => x.s.modGroup x.g.gid fun _ => g) (writes_slots hkeep x.threads x.g x.g (.refl _))

/-- Settles O5. -/
theorem streamInstructions : Obligations.StreamInstructions := ⟨slotReads, streamChanges⟩

end Sys2Proof.Machine
end


section
/-! Compares (R10), special functions in flight (R98), reductions to s registers (R161) and SETSR (R104); the draws that hold some of
them in issue (R118). -/

namespace Sys2Proof.Machine

open Sys2Proof

/-! Draws that hold an instruction in issue (R118) -/

theorem rejHold_run {x : Cx} (h : x.namesRej = false ∨ x.g.stayDone = true) (body : Cx → Fate) : x.rejHold body = body x := by
  unfold Cx.rejHold
  rcases h with h | h <;> simp [h]

theorem rejHold_held {x : Cx} (hr : x.namesRej = true) (hd : x.g.stayDone = false) (hh : x.g.rejHeld.isSome = true) (body : Cx → Fate) :
    x.rejHold body = .stay x.s := by
  unfold Cx.rejHold
  simp [hr, hd, hh]

theorem rejHold_begin {x : Cx} (hr : x.namesRej = true) (hd : x.g.stayDone = false) (hh : x.g.rejHeld = none) (body : Cx → Fate) :
    x.rejHold body = .stay (x.drawsBegin x.s) := by
  unfold Cx.rejHold Cx.drawsBegin
  simp [hr, hd, hh]

theorem kept_drawsBegin (x : Cx) (s : State) : Kept s (x.drawsBegin s) :=
  (kept_putResult ..).trans (kept_modGroup fun _ => ⟨rfl, rfl, rfl, rfl⟩)

theorem toScalar_iff {f : Fields} : toScalar f = true ↔ ∃ r, Src.of f.dst = .s r := by
  unfold toScalar
  split <;> simp_all

/-- An instruction held in issue until its draws end does nothing before. -/
theorem heldRow_issues {i : Instr} {f : Fields} (h : heldRow i = some f) :
    ∃ body, (∀ s, exec i s = issue f noPre body s) ∧ ∀ x, x.f = f → ∃ run, body x = x.rejHold run := by
  unfold heldRow at h
  split at h
  · cases h
    exact ⟨_, fun _ => rfl, fun _ _ => ⟨_, rfl⟩⟩
  · next w m =>
    split at h
    · next hs =>
      cases h
      refine ⟨gredBody m, fun _ => rfl, fun x hx => ?_⟩
      obtain ⟨r, hr⟩ := toScalar_iff.mp hs
      unfold gredBody
      simp only [hx, hr, if_true]
      exact ⟨_, rfl⟩
    · cases h
  · unfold compareRow at h
    split at h <;> cases h
    · exact ⟨_, fun _ => rfl, fun _ _ => ⟨_, rfl⟩⟩
    · exact ⟨_, fun _ => rfl, fun _ _ => ⟨_, rfl⟩⟩

theorem rejAttemptsWait : RejAttemptsWait := by
  intro i f s x hi h ha hr hd
  obtain ⟨hs, -, -, -, hf, -⟩ := h.spec
  obtain ⟨body, he, hb⟩ := heldRow_issues hi
  obtain ⟨run, hrun⟩ := hb x hf
  refine ⟨fun hh => ?_, fun hh => ?_⟩
  · exact issue_stayKept (he s) h (by rw [gate_acts ha, hrun, rejHold_held hr hd hh, hs]) (.refl s)
  · exact issue_stayKept (he s) h (by rw [gate_acts ha, hrun, rejHold_begin hr hd hh, hs]) (kept_drawsBegin x s)

/-! Masks and their threads -/

theorem getLsbD_maskBit {t i : Nat} (hi : i < 32) : (maskBit t).getLsbD i = decide (i = t) := by
  unfold maskBit
  rw [BitVec.getLsbD_ofNat, Nat.testBit_two_pow]
  simp [hi, eq_comm]

theorem getLsbD_ofList {l : List Nat} {i : Nat} (hi : i < 32) : (Mask.ofList l).getLsbD i = decide (i ∈ l) := by
  have step : ∀ (l : List Nat) (m : Mask),
      (l.foldl (fun m t => m ||| maskBit t) m).getLsbD i = (m.getLsbD i || decide (i ∈ l)) := by
    intro l
    induction l with
    | nil => intro m; simp
    | cons t ts ih =>
      intro m
      rw [List.foldl_cons, ih, BitVec.getLsbD_or, getLsbD_maskBit hi, Bool.or_assoc]
      simp
  unfold Mask.ofList
  rw [step]
  simp

theorem ofList_threads (m : Mask) : Mask.ofList (Mask.threads m) = m := by
  apply BitVec.eq_of_getLsbD_eq
  intro i hi
  rw [getLsbD_ofList hi]
  simp [mem_threads hi]

/-! Compares (R10) -/

/-- What a compare writes to its k register. -/
def Group.compared (f : Fields) (ps : List Share) (g : Group) : Group :=
  match Src.of f.dst with
  | .k r => g.kset r.val (if f.s then (if (ps.map fun p => (p.t, p.words.headD 0 == 1)).any (·.2) then 0xFFFFFFFF else 0)
      else mergeMask (g.kget r.val) (ps.map fun p => (p.t, p.words.headD 0 == 1)))
  | _ => g

theorem kset_only (g : Group) (n : Nat) (w : Word) : g.kset n w = { g with regs := { g.regs with k := (g.kset n w).regs.k } } := by
  unfold Group.kset; split <;> rfl

theorem compared_only (f : Fields) (ps : List Share) (g : Group) :
    g.compared f ps = { g with regs := { g.regs with k := (g.compared f ps).regs.k } } := by
  unfold Group.compared; split
  · exact kset_only ..
  · rfl

theorem compared_same (f : Fields) (ps : List Share) (g : Group) : g.Same (g.compared f ps) := by
  rw [compared_only]; exact ⟨rfl, rfl, rfl, rfl⟩

theorem getLsbD_setBit {m : Mask} {u t : Nat} (b : Bool) (ht : t < 32) :
    (if b then m ||| maskBit u else m &&& ~~~(maskBit u)).getLsbD t = if t = u then b else m.getLsbD t := by
  cases b
  · rw [if_neg Bool.false_ne_true, BitVec.getLsbD_and, BitVec.getLsbD_not, getLsbD_maskBit ht]
    by_cases h : t = u <;> simp [h, ht]
  · rw [if_pos rfl, BitVec.getLsbD_or, getLsbD_maskBit ht]
    by_cases h : t = u <;> simp [h]

/-- A mask merged with the shares of different threads: each thread's bit is its answer, the others are kept. -/
theorem mergeMask_shares {ps : List Share} (hd : (ps.map (·.t)).Nodup) (old : Word) {t : Nat} (ht : t < 32) :
    (mergeMask old (ps.map fun p => (p.t, p.words.headD 0 == 1))).getLsbD t = maskAfter ps old t := by
  unfold mergeMask
  induction ps generalizing old with
  | nil => rfl
  | cons p ps ih =>
    obtain ⟨hp, hps⟩ := List.nodup_cons.mp hd
    rw [List.map_cons, List.foldl_cons, ih hps]
    unfold maskAfter
    rw [List.find?_cons, getLsbD_setBit _ ht]
    by_cases hpt : t = p.t
    · subst hpt
      have none : ps.find? (fun q => q.t == p.t) = none := by
        rw [List.find?_eq_none]
        exact fun q hq hqt => hp (List.mem_map.mpr ⟨q, hq, by simpa using hqt⟩)
      simp only [beq_self_eq_true, none, if_true]
    · have ne : (p.t == t) = false := by simpa using Ne.symm hpt
      simp only [ne, if_neg hpt]

/-- A compare's body. -/
theorem compareRow_issues {i : Instr} {f : Fields} {cmp : DWord → DWord → Bool × Causes} (h : compareRow i = some (f, cmp)) :
    ∀ s, exec i s = issue f noPre (cmpBody cmp) s := by
  unfold compareRow at h
  split at h <;> cases h
  · exact fun _ => rfl
  · exact fun _ => rfl

/-- A compare past its draws. -/
theorem cmpBody_run {cmp : DWord → DWord → Bool × Causes} {x : Cx} (h : x.namesRej = false ∨ x.g.stayDone = true) :
    cmpBody cmp x =
      match if x.namesRej then none else
        x.fpTrap ((sharesOf x (cmpShare cmp x) x.each Draw.start).1.map fun p => (p.t, p.causes)) with
      | some r => r
      | none => .done (((x.s.raiseFp x ((sharesOf x (cmpShare cmp x) x.each Draw.start).1.map fun p => (p.t, p.causes))).commitDraws x
          (sharesOf x (cmpShare cmp x) x.each Draw.start).2).modGroup x.g.gid
            fun g => g.compared x.f (sharesOf x (cmpShare cmp x) x.each Draw.start).1) none false := by
  unfold cmpBody
  rw [rejHold_run h]
  rfl

/-- The draws of an instruction past them either trap on no cause or are of a REJ register (R118). -/
theorem no_fpTrap {x : Cx} {ps : List Share}
    (h : (x.namesRej = false ∧ causesOf ps &&& fpTrapped x.c.ctl.fpctl = 0) ∨ (x.namesRej = true ∧ x.g.stayDone = true)) :
    (if x.namesRej then none else x.fpTrap (ps.map fun p => (p.t, p.causes))) = none := by
  rcases h with ⟨hr, hc⟩ | ⟨hr, -⟩
  · simp [hr, fpTrap_none hc]
  · simp [hr]

/-- The answer of a uniform compare. -/
theorem any_uniform {x : Cx} {cmp : DWord → DWord → Bool × Causes} (hu : x.f.s = true) :
    ((sharesOf x (cmpShare cmp x) x.each Draw.start).1.map fun p => (p.t, p.words.headD 0 == 1)).any (·.2) =
      (cmp (x.args 0 Draw.start).1.1 (x.args 0 Draw.start).1.2.1).1 := by
  unfold Cx.each
  rw [if_pos hu]
  unfold sharesOf sharesOf cmpShare
  dsimp only
  cases (cmp (x.args 0 Draw.start).1.1 (x.args 0 Draw.start).1.2.1).1 <;> rfl

theorem cmpShares_nodup (x : Cx) (cmp : DWord → DWord → Bool × Causes) :
    ((sharesOf x (cmpShare cmp x) x.each Draw.start).1.map (·.t)).Nodup := by
  rw [sharesOf_threads (one := cmpShare cmp x) fun _ _ => rfl]
  exact each_nodup x

theorem compares : Compares := by
  intro i f cmp s x r0 hi h ha hd
  obtain ⟨hs, hg, -, -, rfl, -⟩ := h.spec
  have he := compareRow_issues hi s
  intro ps trapped logged lanes
  refine ⟨fun hr hst hc => ?_, fun hq => ?_⟩
  · refine issue_trap he h (pre := noPre) ?_
    rw [gate_acts ha, cmpBody_run (.inl hr), hr, if_neg Bool.false_ne_true, fpTrap_some hst hc]
    rfl
  · have past : x.namesRej = false ∨ x.g.stayDone = true := hq.imp And.left And.right
    obtain ⟨hgo, hgr⟩ := retired_effects hg ps (sharesOf x (cmpShare cmp x) x.each Draw.start).2 (fin := Group.compared x.f ps)
      fun g => (compared_same x.f ps g).gid
    have hx : x.gate noPre (cmpBody cmp) = .done (((s.raiseFp x (ps.map fun p => (p.t, p.causes))).commitDraws x
        (sharesOf x (cmpShare cmp x) x.each Draw.start).2).modGroup x.g.gid (Group.compared x.f ps)) none false := by
      rw [gate_acts ha, cmpBody_run past, no_fpTrap hq, hs]
    have regs : (x.g.settled (causesOf ps) (sharesOf x (cmpShare cmp x) x.each Draw.start).2).regs = x.g.regs := by
      unfold Group.settled; rw [commit_only]
    have kget : ∀ n, (x.g.settled (causesOf ps) (sharesOf x (cmpShare cmp x) x.each Draw.start).2).kget n = x.g.kget n := by
      intro n; unfold Group.kget; rw [regs]
    refine ⟨_, ?_, fun n hn => ?_, fun h0 t ht => ?_,
      issue_groups he h hx (logFp_groups ..) (logFp_blocks ..) hgo hgr ((settled_same ..).trans (compared_same ..))⟩
    · rw [← regs]; exact compared_only ..
    · unfold Group.compared
      simp only [hd, kget_kset, kget, if_neg (show ¬(n = r0.val ∧ n ≠ 0) by tauto)]
    · unfold Group.compared
      simp only [hd, kget_kset, kget, ne_eq, h0, not_false_eq_true, and_self, if_true]
      split
      · next hu =>
        rw [any_uniform hu]
        have all : ∀ b : Bool, (if b = true then 0xFFFFFFFF else 0 : Word).getLsbD t = b := by
          intro b
          cases b
          · simp
          · rw [if_pos rfl, show (0xFFFFFFFF : Word) = BitVec.allOnes 32 from rfl, BitVec.getLsbD_allOnes]; simpa using ht
        exact all _
      · exact mergeMask_shares (cmpShares_nodup x cmp) _ ht

/-- Settles O8. -/
theorem compareResults : Obligations.CompareResults := ⟨compares, rejAttemptsWait⟩

/-! Special functions (R98) -/

theorem sfuRow_issues {i : Instr} {f : Fields} {fn : Nat → Nat × Causes} (h : sfuRow i = some (f, fn)) :
    ∀ s, exec i s = issue f noPre (sfuBody fn) s := by
  unfold sfuRow at h
  split at h <;> cases h
  all_goals exact fun _ => rfl

/-- Settles O9: draws are committed in the group alone, or stay with the result. -/
theorem specialFunctionsInFlight : Obligations.SpecialFunctionsInFlight := by
  intro i f fn s x hi h ha r ws per
  obtain ⟨hs, hg, -, -, rfl, -⟩ := h.spec
  have he := sfuRow_issues hi s
  split
  · next hr =>
    have hx : x.gate noPre (sfuBody fn) = .done ((s.setGroup (x.g.setQstat (noneOf r.2.qstat))).putResult x .sfu ws r.2.pos r.2.words
        (rejxOf r.2.qstat) per false) none false := by
      rw [gate_acts ha]
      unfold sfuBody State.commitNone
      simp only [hr, if_true, hs, modGroup_eq hg]
      rfl
    exact issue_kept he h hx ((kept_setGroup (g0 := x.g) (by rw [(setQstat_same ..).gid]; exact hg) (setQstat_same ..)).trans
      (kept_putResult ..))
  · next hr =>
    have hx : x.gate noPre (sfuBody fn) = .done ((s.commitDraws x r.2).putResult x .sfu ws [] 0 [] per false) none false := by
      rw [gate_acts ha]
      unfold sfuBody
      simp only [hr, hs]
      rfl
    obtain ⟨only, group⟩ := commitDraws_group s x r.2
    have committed : x.g.settled 0 r.2 = x.g.commit r.2.pos r.2.qstat := by unfold Group.settled; simp
    refine (issue_kept he h hx ((kept_commitDraws ..).trans (kept_putResult ..))).alike (Alike.putResult ?_ ..)
    rw [committed]
    have gid : (x.g.commit r.2.pos r.2.qstat).gid = x.g.gid := commit_gid ..
    refine alike_setGroup only (g0 := x.g) (by rw [gid]; exact hg) fun n => ?_
    rw [group, gid]
    split
    · next hn => rw [hn, hg]; rfl
    · rfl

/-! Reductions to s registers (R161) -/

/-- The causes of a reduction, as its acting threads raise them. -/
def redShares (x : Cx) (c : Causes) : List Share := x.threads.map fun t => ⟨t, [], c⟩

theorem causesOf_redShares (x : Cx) (c : Causes) : causesOf (redShares x c) = if x.threads = [] then 0 else c := by
  have all : ∀ (l : List Nat) (a : Causes), (l.map fun t => (⟨t, [], c⟩ : Share)).foldl (fun (m : Causes) p => m ||| p.causes) a =
      if l = [] then a else a ||| c := by
    intro l
    induction l with
    | nil => exact fun _ => rfl
    | cons t ts ih =>
      intro a
      rw [List.map_cons, List.foldl_cons, ih, if_neg (List.cons_ne_nil t ts)]
      split
      · rfl
      · rw [BitVec.or_assoc, BitVec.or_self]
  unfold causesOf redShares
  rw [all]
  split
  · rfl
  · exact BitVec.zero_or

theorem lanesOf_redShares {s : State} {x : Cx} (h : Solo s x.f x) {c d : Causes} (hd : causesOf (redShares x c) &&& d ≠ 0) :
    x.lanesOf d (redShares x c) = x.act := by
  obtain ⟨-, -, -, -, -, -, hact⟩ := h.spec
  unfold Cx.lanesOf
  split
  · next hu => rw [hact, if_pos hu]
  · have raised : c &&& d ≠ 0 := by
      rw [causesOf_redShares] at hd
      split at hd
      · exact absurd BitVec.zero_and hd
      · exact hd
    have all : (redShares x c).filter (fun p => p.causes &&& d != 0) = redShares x c := by
      rw [List.filter_eq_self]
      intro p hp
      obtain ⟨t, -, rfl⟩ := List.mem_map.mp hp
      simpa using raised
    rw [all]
    unfold redShares
    rw [map_thread fun _ => rfl]
    exact ofList_threads _

theorem per_redShares (x : Cx) (c : Causes) : (x.threads.map fun t => (t, c)) = (redShares x c).map fun p => (p.t, p.causes) := by
  unfold redShares; rw [List.map_map]; rfl

/-- GRED to s registers past its draws. -/
theorem gredBody_run {m : IntMod} {x : Cx} {r0 : Fin 64} (hd : Src.of x.f.dst = .s r0)
    (h : x.namesRej = false ∨ x.g.stayDone = true) :
    let vals := valuesOf x x.threads Draw.start
    let r := reduce m.var.val m (vals.1.map (·.2))
    gredBody m x = match if x.namesRej then none else x.fpTrap ((redShares x r.2).map fun p => (p.t, p.causes)) with
      | some f => f
      | none => .done (((x.s.raiseFp x ((redShares x r.2).map fun p => (p.t, p.causes))).commitDraws x vals.2).modGroup x.g.gid
          fun g => g.writeDst x.f.dst 0 (wordsOf (if m.ty.wide then 2 else 1) r.1)) none false := by
  intro vals r
  unfold gredBody
  simp only [hd, if_true]
  rw [rejHold_run h, ← per_redShares] <;> rfl

/-- Settles O10: the acting threads raise the causes together. -/
theorem scalarReductions : Obligations.ScalarReductions := by
  intro w m s x r0 h ha hd vals r causes trapped logged
  obtain ⟨hs, hg, -, -, hf, -⟩ := h.spec
  rw [← hf] at h hd ⊢
  have he : exec (.gred w m) s = issue x.f noPre (gredBody m) s := by rw [hf]; rfl
  have raised : causesOf (redShares x r.2) = causes := causesOf_redShares x r.2
  rw [← raised]
  refine ⟨fun hr hst hc => ?_, fun hq => ?_⟩
  · refine issue_trap he h (pre := noPre) ?_
    rw [gate_acts ha, gredBody_run hd (.inl hr), hr, if_neg Bool.false_ne_true, fpTrap_some hst hc, lanesOf_redShares h hc]
  · have past : x.namesRej = false ∨ x.g.stayDone = true := hq.imp And.left And.right
    obtain ⟨hgo, hgr⟩ := retired_effects hg (redShares x r.2) vals.2
      (fin := fun g => g.writeDst x.f.dst 0 (wordsOf (if m.ty.wide then 2 else 1) r.1)) fun g => (RegsOnly.same (regsOnly_writeDst ..)).gid
    have hx : x.gate noPre (gredBody m) = .done (((s.raiseFp x ((redShares x r.2).map fun p => (p.t, p.causes))).commitDraws x
        vals.2).modGroup x.g.gid fun g => g.writeDst x.f.dst 0 (wordsOf (if m.ty.wide then 2 else 1) r.1)) none false := by
      rw [gate_acts ha, gredBody_run hd past, no_fpTrap hq, hs]
    have record : (if causesOf (redShares x r.2) &&& logged = 0 then s else s.log x.b.ctx 0x01 (causesOf (redShares x r.2) &&& logged).toNat
        x.act x.g.pc.toNat (s.blockName x.g.bid) x.g.num 0) =
        s.logFp x.g x.b.ctx (causesOf (redShares x r.2) &&& x.logging) (x.lanesOf x.logging (redShares x r.2)) x.g.pc := by
      unfold State.logFp
      by_cases h0 : causesOf (redShares x r.2) &&& x.logging = 0
      · rw [if_pos h0]; exact if_pos h0
      · rw [if_neg h0, lanesOf_redShares h h0]; exact if_neg h0
    refine ⟨_, ?_, record ▸ issue_groups he h hx (logFp_groups ..) (logFp_blocks ..) hgo hgr
      ((settled_same ..).trans (RegsOnly.same (regsOnly_writeDst ..)))⟩
    rw [← hd]
    exact wrote_shares (ps := [⟨0, _, 0⟩]) (by simp) (by simp)

/-! SETSR (R104) -/

/-- What SETSR clears in its register. -/
def Group.cleared (n : Nat) (ps : List Share) (g : Group) : Group :=
  match n with
  | 0x010 => ps.foldl (fun g p =>
      { g with qstat := Sparse.put 0 g.qstat p.t (writeClear (Sparse.get 0 g.qstat p.t) (p.words.headD 0)) }) g
  | 0x011 => { g with mstat := writeClear g.mstat (allBits ps) }
  | 0x013 => { g with fpstat := writeClear g.fpstat (allBits ps) }
  | _ => g

theorem setsrBody_run {n : Nat} {x : Cx} (h : x.namesRej = false ∨ x.g.stayDone = true) :
    setsrBody n x = .done ((x.s.commitDraws x (setsrShares x).2).modGroup x.g.gid fun g => g.cleared n (setsrShares x).1) none false := by
  unfold setsrBody
  rw [rejHold_run h]
  rfl

theorem and_not_zero (a : Word) : a &&& ~~~0 = a := by
  rw [show (~~~0 : Word) = BitVec.allOnes 32 from rfl, BitVec.and_allOnes]

/-- The status words of different threads cleared one after the other: each as if alone. -/
theorem cleared_qstat {ps : List Share} (hd : (ps.map (·.t)).Nodup) (g : Group) :
    let g' := g.cleared 0x010 ps
    g' = { g with qstat := g'.qstat } ∧
      ∀ t, Sparse.get 0 g'.qstat t = Sparse.get 0 g.qstat t &&& ~~~((shareWord ps t 0).getD 0) := by
  intro g'
  have fold : g' = ps.foldl (fun g p =>
      { g with qstat := Sparse.put 0 g.qstat p.t (writeClear (Sparse.get 0 g.qstat p.t) (p.words.headD 0)) }) g := rfl
  rw [fold]
  clear fold g'
  induction ps generalizing g with
  | nil => exact ⟨rfl, fun t => (and_not_zero _).symm⟩
  | cons p ps ih =>
    obtain ⟨hp, hps⟩ := List.nodup_cons.mp hd
    rw [List.foldl_cons]
    obtain ⟨only, get⟩ := ih hps { g with qstat := Sparse.put 0 g.qstat p.t (writeClear (Sparse.get 0 g.qstat p.t) (p.words.headD 0)) }
    refine ⟨by rw [only], fun t => ?_⟩
    rw [get, Sparse.get_put]
    unfold shareWord writeClear
    rw [List.find?_cons]
    by_cases h : t = p.t
    · subst h
      have none : ps.find? (fun q => q.t == p.t) = none := by
        rw [List.find?_eq_none]
        exact fun q hq hqt => hp (List.mem_map.mpr ⟨q, hq, by simpa using hqt⟩)
      simp only [none, beq_self_eq_true, if_true, Option.bind_none, Option.bind_some, Option.getD_none,
        and_not_zero]
      cases p.words <;> rfl
    · have ne : (p.t == t) = false := by simpa using Ne.symm h
      simp only [ne, if_neg h]

theorem setsrShares_nodup (x : Cx) : ((setsrShares x).1.map (·.t)).Nodup := by
  unfold setsrShares
  rw [sharesOf_threads (one := fun t dr => (⟨t, [(x.read x.spec.a x.f.a t dr).1.extractLsb' 0 32], 0⟩,
    (x.read x.spec.a x.f.a t dr).2)) fun _ _ => rfl]
  exact each_nodup x

/-- SETSR changes the three registers at most, each as its rule says. -/
theorem cleared_spec {ps : List Share} (hd : (ps.map (·.t)).Nodup) (n : BitVec 10) (g : Group) :
    let g' := g.cleared n.toNat ps
    g' = { g with qstat := g'.qstat, mstat := g'.mstat, fpstat := g'.fpstat } ∧
      g'.mstat = (if n = 0x011 then g.mstat &&& ~~~(allBits ps) else g.mstat) ∧
      g'.fpstat = (if n = 0x013 then g.fpstat &&& ~~~(allBits ps) else g.fpstat) ∧
      ∀ t, Sparse.get 0 g'.qstat t = if n = 0x010 then Sparse.get 0 g.qstat t &&& ~~~((shareWord ps t 0).getD 0)
        else Sparse.get 0 g.qstat t := by
  by_cases h0 : n = 0x010
  · subst h0
    obtain ⟨only, get⟩ := cleared_qstat hd g
    rw [show (0x010 : BitVec 10).toNat = 0x010 from rfl]
    exact ⟨by rw [only], by rw [only]; rfl, by rw [only]; rfl, get⟩
  by_cases h1 : n = 0x011
  · subst h1; exact ⟨rfl, rfl, rfl, fun _ => rfl⟩
  by_cases h3 : n = 0x013
  · subst h3; exact ⟨rfl, rfl, rfl, fun _ => rfl⟩
  have same : g.cleared n.toNat ps = g := by
    unfold Group.cleared
    split
    · next h => exact absurd (BitVec.eq_of_toNat_eq h) h0
    · next h => exact absurd (BitVec.eq_of_toNat_eq h) h1
    · next h => exact absurd (BitVec.eq_of_toNat_eq h) h3
    · rfl
  rw [same, if_neg h1, if_neg h3]
  exact ⟨rfl, rfl, rfl, fun _ => by rw [if_neg h0]⟩

theorem cleared_same {ps : List Share} (hd : (ps.map (·.t)).Nodup) (n : BitVec 10) (g : Group) : g.Same (g.cleared n.toNat ps) := by
  rw [(cleared_spec hd n g).1]; exact ⟨rfl, rfl, rfl, rfl⟩

/-- Settles O11. -/
theorem specialRegisterClears : Obligations.SpecialRegisterClears := by
  intro w n s x h ha hr
  obtain ⟨hs, hg, -, -, hf, -⟩ := h.spec
  have past : x.namesRej = false ∨ x.g.stayDone = true := by cases hn : x.namesRej <;> simp_all
  have nodup := setsrShares_nodup x
  have fpstat : (x.g.settled 0 (setsrShares x).2).fpstat = x.g.fpstat := by unfold Group.settled; rw [commit_only]; simp
  have mstat : (x.g.settled 0 (setsrShares x).2).mstat = x.g.mstat := by unfold Group.settled; rw [commit_only]
  have settled : x.g.commit (setsrShares x).2.pos (setsrShares x).2.qstat = x.g.settled 0 (setsrShares x).2 := by
    unfold Group.settled; simp
  obtain ⟨only, group⟩ := commitDraws_group s x (setsrShares x).2
  have hx : x.gate noPre (setsrBody n.toNat) = .done ((s.commitDraws x (setsrShares x).2).modGroup x.g.gid
      (Group.cleared n.toNat (setsrShares x).1)) none false := by
    rw [gate_acts ha, setsrBody_run past, hs]
  obtain ⟨spec, m, f, q⟩ := cleared_spec nodup n (x.g.settled 0 (setsrShares x).2)
  rw [mstat] at m
  rw [fpstat] at f
  refine ⟨_, issue_groups (pre := noPre) rfl h hx rfl rfl (only.trans (groupsOnly_modGroup ..)) (fun k => ?_)
    ((settled_same ..).trans (cleared_same nodup n _)), spec, m, f, q⟩
  rw [group?_modGroup_any fun g => (cleared_same nodup n g).gid, group]
  split
  · next hk => rw [hk, hg, ← settled]; rfl
  · rfl

end Sys2Proof.Machine
end


section
/-! The control stack (R23 to R25, R154 to R157) and what comes before an instruction acts: the skip, empty sources and what holds it
back (R15, R19, R20). -/

namespace Sys2Proof.Machine

open Sys2Proof

/-! Where a retired instruction leaves the pc -/

/-- The next instruction is the one whose address is the next pc. -/
theorem Retires.next {u t : State} {gid : Nat} {f : Fields} {pc : VA} (h : Retires u gid f none t)
    (hpc : ∀ g, u.group? gid = some g → g.pc + BitVec.ofNat 52 f.len.bytes = pc) : Retires u gid f (some pc) t := by
  refine ⟨h.still, fun g hg => ?_, h.others, h.block, h.blocks⟩
  obtain ⟨g', h1, h2⟩ := h.group g hg
  exact ⟨g', h1, by rw [h2, ← hpc g hg]; rfl⟩

/-- A move of the group's mask, pc and stack, as an attempt makes it. -/
def StackMove (x : Cx) (m : Mask) (pc : VA) (st : List Ctl) (r : Fate) : Prop :=
  ∃ p e, r = .done (x.s.modGroup x.g.gid fun _ => { x.g with amask := m, stack := st }) p e ∧ (p = some pc ∨ (p = none ∧ pc = x.nextPc))

theorem stackMove_goto {x : Cx} (hg : x.s.group? x.g.gid = some x.g) (m : Mask) (pc : VA) (st : List Ctl) (e : Bool) :
    StackMove x m pc st (x.goto m pc st e) := by
  refine ⟨_, e, congrArg (Fate.done · (if pc = x.nextPc then none else some pc) e) (modGroup_const hg _), ?_⟩
  by_cases h : pc = x.nextPc <;> simp [h]

/-- Completion with the pc an attempt gives, or with the next one where it gives none. -/
theorem completes_next {i : Instr} {f : Fields} {s : State} {x : Cx} {g : Group} {p : Option VA} {pc : VA}
    (hg : s.group? x.g.gid = some x.g) (hf : x.f = f) (gid : g.gid = x.g.gid) (hpc : g.pc = x.g.pc)
    (done : Completes i s (s.setGroup g) x.g.gid f p) (hp : p = some pc ∨ (p = none ∧ pc = x.nextPc)) :
    Completes i s (s.setGroup g) x.g.gid f (some pc) := by
  rcases hp with rfl | ⟨rfl, rfl⟩
  · exact done
  · obtain ⟨t, ht, hr⟩ := done
    refine ⟨t, ht, hr.next fun g' hu => ?_⟩
    rw [group?_setGroup hg gid, Option.some.injEq] at hu
    subst hu
    unfold Cx.nextPc
    rw [hf, hpc]

/-- Completion of an attempt that moves the mask, the pc and the stack. -/
theorem completes_move {i : Instr} {f : Fields} {body : Cx → Fate} {s : State} {x : Cx} {m : Mask} {pc : VA} {st : List Ctl}
    (he : exec i s = issue f noPre body s) (h : Solo s f x) (ha : x.Acts) (hb : StackMove x m pc st (body x)) :
    Completes i s (s.setGroup { x.g with amask := m, stack := st }) x.g.gid f (some pc) := by
  obtain ⟨-, hg, -, -, hf, -⟩ := h.spec
  obtain ⟨p, e, hd, hp⟩ := hb
  exact completes_next hg hf rfl rfl (completes_group he h ha rfl hd ⟨rfl, rfl, rfl, rfl⟩) hp

/-! The control stack -/

/-- An instruction of the control stack moves as its row says, or traps. -/
def StackActs (x : Cx) (detail : Nat) (eff : Option (Mask × VA × List Ctl)) (r : Fate) : Prop :=
  (∀ m pc st, eff = some (m, pc, st) → StackMove x m pc st r) ∧ (eff = none → r = x.stackTrap detail)

theorem stackActs_push {x : Cx} (hg : x.s.group? x.g.gid = some x.g) (e : Ctl) (m : Mask) (pc : VA) (b : Bool) :
    StackActs x 2 (if 128 ≤ x.g.stack.length then none else some (m, pc, e :: x.g.stack)) (x.pushThen e m pc b) := by
  unfold Cx.pushThen
  split
  · exact ⟨by simp, fun _ => rfl⟩
  · refine ⟨fun m' pc' st' h => ?_, by simp⟩
    cases h
    exact stackMove_goto hg ..

theorem stackActs_goto {x : Cx} (hg : x.s.group? x.g.gid = some x.g) (eff : Option (Mask × VA × List Ctl)) (e : Bool) :
    StackActs x 3 eff (match eff with
      | some (m, pc, st) => x.goto m pc st e
      | none => x.stackTrap 3) := by
  cases eff with
  | none => exact ⟨by simp, fun _ => rfl⟩
  | some v =>
    refine ⟨fun m pc st h => ?_, by simp⟩
    cases h
    exact stackMove_goto hg ..

theorem stackActs_trap (x : Cx) : StackActs x 3 none (x.stackTrap 3) := ⟨by simp, fun _ => rfl⟩

theorem braD_acts {x : Cx} (hg : x.s.group? x.g.gid = some x.g) :
    StackActs x 2 (let c := takenMask x
      if x.g.amask &&& c = 0 then some (x.g.amask, x.nextPc, x.g.stack)
      else if x.g.amask &&& ~~~c = 0 then some (x.g.amask, x.target, x.g.stack)
      else if 128 ≤ x.g.stack.length then none
      else some (x.g.amask &&& ~~~c, x.nextPc, ⟨2, x.g.amask &&& c, x.target⟩ :: x.g.stack)) (braDBody x) := by
  have body : braDBody x = if x.g.amask &&& takenMask x = 0 then .done x.s none false
      else if x.g.amask &&& ~~~takenMask x = 0 then x.goto x.g.amask x.target x.g.stack true
      else x.pushThen ⟨2, x.g.amask &&& takenMask x, x.target⟩ (x.g.amask &&& ~~~takenMask x) x.nextPc true := rfl
  rw [body]
  dsimp only
  split
  · refine ⟨fun m pc st h => ?_, by simp⟩
    cases h
    exact ⟨none, false, congrArg (Fate.done · none false) (modGroup_self hg), .inr ⟨rfl, rfl⟩⟩
  · split
    · refine ⟨fun m pc st h => ?_, by simp⟩
      cases h
      exact stackMove_goto hg ..
    · exact stackActs_push hg ..

theorem ret_acts {x : Cx} (hg : x.s.group? x.g.gid = some x.g) :
    StackActs x 3 (match x.g.stack with
      | e :: rest => if e.kind = 1 then settleMask e.mask e.addr rest else none
      | [] => none) (retBody x) := by
  unfold retBody
  cases x.g.stack with
  | nil => exact stackActs_trap x
  | cons e rest =>
    dsimp only
    split
    · exact stackActs_goto hg ..
    · exact stackActs_trap x

theorem join_acts {x : Cx} (hg : x.s.group? x.g.gid = some x.g) :
    StackActs x 3 (match x.g.stack with
      | e :: rest => if e.kind = 1 then none
          else settleMask (if e.kind = 3 then e.mask ||| x.g.amask else e.mask) e.addr rest
      | [] => none) (joinBody x) := by
  unfold joinBody
  cases x.g.stack with
  | nil => exact stackActs_trap x
  | cons e rest =>
    dsimp only
    split
    · exact stackActs_trap x
    · exact stackActs_goto hg ..

/-- The detail of STACK: an entry too many, or one that is missing or of the wrong kind. -/
def stackDetail (f : Fields) : Nat := if f.opc ∈ [(0x03 : BitVec 8), 0x04, 0x08, 0x09] then 2 else 3

theorem stackRow_issues {i : Instr} {f : Fields} {eff : Cx → Option (Mask × VA × List Ctl)} (h : stackRow i = some (f, eff)) :
    ∃ body, (∀ s, exec i s = issue f noPre body s) ∧
      ∀ x, x.s.group? x.g.gid = some x.g → StackActs x (stackDetail f) (eff x) (body x) := by
  unfold stackRow at h
  split at h <;> cases h
  · exact ⟨_, fun _ => rfl, fun x hg => braD_acts hg⟩
  · exact ⟨_, fun _ => rfl, fun x hg => stackActs_push hg ..⟩
  · exact ⟨_, fun _ => rfl, fun x hg => stackActs_push hg ..⟩
  · exact ⟨_, fun _ => rfl, fun x hg => stackActs_push hg ..⟩
  · exact ⟨_, fun _ => rfl, fun x hg => ret_acts hg⟩
  · exact ⟨_, fun _ => rfl, fun x hg => join_acts hg⟩
  · exact ⟨_, fun _ => rfl, fun x hg => stackActs_goto hg ..⟩

/-- Settles O12. -/
theorem controlStack : Obligations.ControlStack := by
  refine ⟨fun i f eff s x m pc st hi h ha he => ?_, fun i f eff s x hi h ha he => ?_⟩
  · obtain ⟨body, hx, hb⟩ := stackRow_issues hi
    exact completes_move (hx s) h ha ((hb x h.found).1 m pc st he)
  · obtain ⟨body, hx, hb⟩ := stackRow_issues hi
    exact issue_trap (hx s) h (pre := noPre) (by rw [gate_acts ha]; exact (hb x h.found).2 he)

/-! Before an instruction acts -/

theorem badTile_false {x : Cx} {bits : BitVec 9} (h : ∃ n, tileNo x.g bits = some n ∧ n < x.b.ntile) : x.badTile bits = false := by
  obtain ⟨n, hn, hlt⟩ := h
  unfold Cx.badTile
  simp [hn, hlt]

theorem tilePre_none {x : Cx} {field : Fields → BitVec 9} (h : x.g.spawned = false ∧ ∃ n, tileNo x.g (field x.f) = some n ∧ n < x.b.ntile) :
    tilePre field x = none := by
  unfold tilePre
  simp [h.1, badTile_false h.2]

theorem depthPre_none {x : Cx} (h : x.g.depth < 10) : depthPre x = none := by
  unfold depthPre maxDepth
  rw [if_neg (by omega)]

/-- Every instruction but MMA.q is issued in the common form, whose early checks find nothing where it enters plainly. -/
theorem exec_issues {i : Instr} {f : Fields} (hf : fieldsOf i = some f) (hm : isMma i = false) :
    ∃ (pre : Cx → Option Fate) (body : State → Cx → Fate), (∀ s, exec i s = issue f pre (body s) s) ∧
      ∀ x, entersPlain i x → pre x = none ∧ waitKind f false = if f.opc = 0xD4 then 1 else 2 := by
  cases i
  case spawn w => cases hf; exact ⟨depthPre, fun _ => spawnBody, fun _ => rfl, fun x hx => ⟨depthPre_none hx, rfl⟩⟩
  case glaunch w => cases hf; exact ⟨depthPre, fun _ => glaunchBody, fun _ => rfl, fun x hx => ⟨depthPre_none hx, rfl⟩⟩
  case dwait w => cases hf; exact ⟨dwaitPre, fun _ => dwaitBody, fun _ => rfl, fun x hx => ⟨by simp [dwaitPre, show x.g.spawned = false from hx], rfl⟩⟩
  case barb w => cases hf; exact ⟨barbPre, fun _ => barbBody, fun _ => rfl, fun x hx => ⟨by simp [barbPre, show x.g.spawned = false from hx], rfl⟩⟩
  case mzero w => cases hf; exact ⟨tilePre (·.dst), _, fun _ => rfl, fun x hx => ⟨tilePre_none hx, rfl⟩⟩
  case mld w m => cases hf; exact ⟨tilePre (·.dst), _, fun _ => rfl, fun x hx => ⟨tilePre_none hx, rfl⟩⟩
  case mdrain w m => cases hf; exact ⟨tilePre (·.c), _, fun _ => rfl, fun x hx => ⟨tilePre_none hx, rfl⟩⟩
  case mstat w => cases hf; exact ⟨tilePre (·.a), _, fun _ => rfl, fun x hx => ⟨tilePre_none hx, rfl⟩⟩
  case shflG w m => cases hf; exact ⟨rendezvousPre, _, fun _ => rfl, fun x hx => hx.elim⟩
  case mmaQ w => cases hm
  case mmaQImage w => cases hm
  all_goals cases hf
  all_goals exact ⟨noPre, _, fun _ => rfl, fun _ _ => ⟨rfl, rfl⟩⟩

theorem gate_skipped {x : Cx} (h : x.skipped = true) (pre : Cx → Option Fate) (body : Cx → Fate) :
    x.gate pre body = .done x.s none false := by
  simp [Cx.gate, h]

theorem gate_empty {x : Cx} (h : x.skipped = false) {pre : Cx → Option Fate} (hp : pre x = none) (he : x.emptyTrap.1 ≠ 0) (body : Cx → Fate) :
    x.gate pre body = .trap 0x03 x.emptyTrap.1 x.emptyTrap.2 := by
  simp [Cx.gate, h, hp, he, trapEmpty]

theorem gate_held {x : Cx} (h : x.skipped = false) {pre : Cx → Option Fate} (hp : pre x = none) (he : x.emptyTrap.1 = 0)
    (hb : x.heldBack = true) (body : Cx → Fate) : x.gate pre body = .hold := by
  simp [Cx.gate, h, hp, he, hb]

theorem skippedInstructions : SkippedInstructions := by
  intro i f s x hf hm h hs
  obtain ⟨rfl, -⟩ := h.spec
  obtain ⟨pre, body, he, -⟩ := exec_issues hf hm
  exact issue_kept (he x.s) h (gate_skipped hs ..) (.refl x.s)

theorem not_mma {i : Instr} {x : Cx} (h : entersPlain i x) : isMma i = false := by
  unfold isMma
  split
  · exact h.elim
  · exact h.elim
  · rfl

theorem emptySourcesTrap : EmptySourcesTrap := by
  intro i f s x hf h hs hp he
  obtain ⟨pre, body, hx, hb⟩ := exec_issues hf (not_mma hp)
  exact issue_trap (hx s) h (gate_empty hs (hb x hp).1 he _)

theorem heldBackWaits : HeldBackWaits := by
  intro i f s x hf h hs hp he hb
  obtain ⟨pre, body, hx, hpre⟩ := exec_issues hf (not_mma hp)
  obtain ⟨none, kind⟩ := hpre x hp
  rw [← kind]
  exact issue_hold (hx s) h (gate_held hs none he hb _)

end Sys2Proof.Machine
end


section
/-! Exits (R100, R147, R158, R216): of some threads, of a group's last ones with the barrier that it completes, and its trap. -/

namespace Sys2Proof.Machine

open Sys2Proof

/-! A group taken out of the state -/

theorem filter_replaceBy {α : Type} {p : α → Bool} {x : α} (hx : p x = true) (l : List α) :
    (replaceBy p x l).filter (fun y => !p y) = l.filter fun y => !p y := by
  induction l with
  | nil => rfl
  | cons y l ih =>
    unfold replaceBy
    by_cases hy : p y = true
    · simp [hx, hy]
    · simp [hy, ih]

/-- The groups of a state but one. -/
def State.butGroup (s : State) (gid : Nat) : List Group := s.groups.filter fun g => g.gid != gid

theorem butGroup_setGroup {s : State} {g : Group} {gid : Nat} (h : g.gid = gid) : (s.setGroup g).butGroup gid = s.butGroup gid := by
  subst h
  exact filter_replaceBy (p := fun (x : Group) => x.gid == g.gid) (by simp) _

theorem butGroup_retire (s : State) (gid : Nat) (f : Fields) (pc : Option VA) : (s.retire gid f pc).butGroup gid = s.butGroup gid := by
  have same : ∀ u v : State, u.groups = v.groups → u.butGroup gid = v.butGroup gid := by
    intro u v h; unfold State.butGroup; rw [h]
  unfold State.retire
  cases hg : s.group? gid with
  | none => rfl
  | some g =>
    dsimp only
    have put := butGroup_setGroup (s := s) (g := g.retired f (s.weightOf f) pc) (id (group?_gid hg : g.gid = gid))
    split
    · rw [← put]; exact same _ _ (by simp)
    · rw [← put]; exact same _ _ (by simp)

theorem group?_filter {s : State} {gid n : Nat} {l : List Group} (h : s.groups = l.filter fun g => g.gid != gid) :
    s.group? n = if n = gid then none else l.find? fun g => g.gid == n := by
  unfold State.group?
  rw [h, List.find?_filter]
  split
  · next hn => subst hn; rw [List.find?_eq_none]; simp
  · next hn =>
    congr 1
    funext g
    by_cases hg : g.gid = n <;> simp [hg, hn]

/-! What happens before what -/

theorem joins_past (w : ScWrite) (gids more : List Nat) : w.joins gids more = { w with past := (w.joins gids more).past } := by
  unfold ScWrite.joins; split <;> rfl

theorem past_joins {w : ScWrite} {n : Nat} (h : n ∈ w.past) (gids more : List Nat) : n ∈ (w.joins gids more).past := by
  unfold ScWrite.joins; split
  · exact List.mem_append_left _ h
  · exact h

theorem joins_more {w : ScWrite} {gids more : List Nat} {g n : Nat} (hw : g ∈ w.past) (hg : g ∈ gids) (hn : n ∈ more) :
    n ∈ (w.joins gids more).past := by
  unfold ScWrite.joins ScWrite.mine
  rw [if_pos (List.any_eq_true.mpr ⟨g, hw, by simpa using hg⟩)]
  by_cases h : n ∈ w.past
  · exact List.mem_append_left _ h
  · exact List.mem_append_right _ (List.mem_filter.mpr ⟨hn, by simpa using h⟩)

theorem unpast_joinPast (s : State) (gids more : List Nat) : (s.joinPast gids more).still.unpast = s.still.unpast := by
  unfold State.joinPast State.still State.unpast
  simp only [List.map_map]
  congr 1
  refine List.map_congr_left fun w _ => ?_
  show { w.joins gids more with past := [] } = { w with past := [] }
  rw [joins_past]

/-- What a barrier check leaves beside its block: the same groups, the same state but for what happens before what. -/
theorem barrierCheck_rest (s : State) (bid : Nat) (arriving : Bool) :
    (s.barrierCheck bid arriving).still.unpast = s.still.unpast ∧ (s.barrierCheck bid arriving).groups = s.groups ∧
      (∀ n, n ≠ bid → (s.barrierCheck bid arriving).block? n = s.block? n) ∧
      ∀ w ∈ s.scw, ∃ w' ∈ (s.barrierCheck bid arriving).scw, w'.wid = w.wid ∧ ∀ n ∈ w.past, n ∈ w'.past := by
  unfold State.barrierCheck
  split
  · exact ⟨rfl, rfl, fun _ _ => rfl, fun w hw => ⟨w, hw, rfl, fun _ h => h⟩⟩
  · next b hb =>
    have hid := block?_bid hb
    split
    · refine ⟨unpast_joinPast s _ _, rfl, fun n hn => ?_, fun w hw => ?_⟩
      · exact block?_setBlock_ne (hid ▸ Ne.symm hn)
      · exact ⟨_, List.mem_map.mpr ⟨w, hw, rfl⟩, by rw [joins_past], fun n h => past_joins h ..⟩
    · exact ⟨rfl, rfl, fun _ _ => rfl, fun w hw => ⟨w, hw, rfl, fun _ h => h⟩⟩

theorem barrierCheck_block {s : State} {bid : Nat} {b : Block} (hb : s.block? bid = some b) :
    (s.barrierCheck bid false).block? bid = some (if s.barrierMet b then
      { b with passed := b.passed ++ b.arrived.map fun e => (e.1, s.cycle + 8), arrived := [] } else b) := by
  unfold State.barrierCheck
  have hid : b.bid = bid := block?_bid hb
  simp only [hb, Bool.false_eq_true, false_and, if_false]
  split
  · exact block?_setBlock (s := s.joinPast _ _) hb hid
  · exact hb

/-- Some group has arrived at a block's barrier, and so has every own group of the block but g. -/
def State.othersArrived (s : State) (g : Group) (b : Block) : Prop :=
  b.arrived ≠ [] ∧ ∀ h ∈ s.butGroup g.gid, h.bid = g.bid → h.spawned = false → ∃ c, (h.gid, c) ∈ b.arrived

/-- The block of a group that is dropped: its energy, and its barrier where that is now complete. -/
theorem dropGroup_block {s : State} {g : Group} {b : Block} (hb : s.block? g.bid = some b) :
    ∃ b', (s.dropGroup g).block? g.bid = some b' ∧
      b' = { b with energy := b.energy + g.energy, arrived := b'.arrived, passed := b'.passed } ∧
      (s.othersArrived g b → b'.arrived = [] ∧ b'.passed = b.passed ++ b.arrived.map fun e => (e.1, s.cycle + 8)) ∧
      (¬ s.othersArrived g b → b'.arrived = b.arrived ∧ b'.passed = b.passed) := by
  have hid : b.bid = g.bid := block?_bid hb
  unfold State.dropGroup
  dsimp only
  rw [modBlock_eq hb]
  set v : State := { (s.setBlock { b with energy := b.energy + g.energy }).joinPast [g.gid] [g.bid] with
    groups := (((s.setBlock { b with energy := b.energy + g.energy }).joinPast [g.gid] [g.bid]).groups).filter fun x => x.gid != g.gid } with hv
  have found : v.block? g.bid = some { b with energy := b.energy + g.energy } := block?_setBlock hb hid
  have groups : v.groups = s.butGroup g.gid := rfl
  have met : v.barrierMet { b with energy := b.energy + g.energy } = true ↔
      s.othersArrived g b := by
    unfold State.barrierMet State.othersArrived
    rw [groups]
    simp only [Bool.and_eq_true, Bool.not_eq_true', List.isEmpty_eq_false_iff, List.all_eq_true, List.mem_filter, beq_iff_eq,
      List.any_eq_true, Prod.exists, hid, and_imp]
    simp only [exists_and_right, exists_eq_right]
  refine ⟨_, barrierCheck_block found, ?_, fun h => ?_, fun h => ?_⟩
  · split <;> rfl
  · rw [if_pos (met.mpr h)]; exact ⟨rfl, rfl⟩
  · rw [if_neg (mt met.mp h)]; exact ⟨rfl, rfl⟩

theorem dropGroup_rest (s : State) (g : Group) :
    (s.dropGroup g).still.unpast = s.still.unpast ∧ (s.dropGroup g).groups = s.butGroup g.gid ∧
      (∀ n, n ≠ g.bid → (s.dropGroup g).block? n = s.block? n) ∧
      ∀ w ∈ s.scw, g.gid ∈ w.past → ∃ w' ∈ (s.dropGroup g).scw, w'.wid = w.wid ∧ g.bid ∈ w'.past := by
  set v := (s.modBlock g.bid fun b => { b with energy := b.energy + g.energy }) with hv
  have vscw : v.scw = s.scw := by rw [hv]; simp
  have vgroups : v.groups = s.groups := by rw [hv]; simp
  have vstill : v.still = s.still := by rw [hv]; unfold State.modBlock; split <;> rfl
  obtain ⟨h1, h2, h3, h4⟩ := barrierCheck_rest
    { v.joinPast [g.gid] [g.bid] with groups := (v.joinPast [g.gid] [g.bid]).groups.filter fun x => x.gid != g.gid } g.bid false
  refine ⟨?_, ?_, fun n hn => ?_, fun w hw hp => ?_⟩
  · rw [← vstill, ← unpast_joinPast v [g.gid] [g.bid]]; exact h1
  · refine h2.trans ?_
    show v.groups.filter _ = _
    rw [vgroups]; rfl
  · exact (h3 n hn).trans (block?_modBlock_ne (fun _ => rfl) hn)
  · obtain ⟨w', hw', e1, e2⟩ := h4 (w.joins [g.gid] [g.bid]) (List.mem_map.mpr ⟨w, vscw ▸ hw, rfl⟩)
    refine ⟨w', hw', by rw [e1, joins_past], e2 _ (joins_more hp (by simp) (by simp))⟩

/-! EXIT -/

/-- A group whose active threads have finished. -/
def Group.leaving (g : Group) : Group := { g with fin := g.fin ||| g.amask }

theorem exitBody_holds {x : Cx} (h : x.g.allFull = false) : exitBody x = .hold := by
  unfold exitBody; simp [h]

theorem exitBody_part {x : Cx} (hg : x.s.group? x.g.gid = some x.g) (hf : x.g.allFull = true)
    (hl : x.g.exist &&& ~~~(x.g.fin ||| x.g.amask) ≠ 0) :
    (∀ m pc st, resolve (x.g.stack.map fun e => { e with mask := e.mask &&& ~~~x.g.amask }) = some (m, pc, st) →
      ∃ p, exitBody x = .done (x.s.modGroup x.g.gid fun _ => { x.g.leaving with amask := m, stack := st }) p false ∧
        (p = some pc ∨ (p = none ∧ pc = x.nextPc))) ∧
    (resolve (x.g.stack.map fun e => { e with mask := e.mask &&& ~~~x.g.amask }) = none → exitBody x = x.stackTrap 3) := by
  have body : exitBody x = match resolve (x.g.stack.map fun e => { e with mask := e.mask &&& ~~~x.g.amask }) with
      | some (m, pc, st) => .done (x.s.modGroup x.g.gid fun g => { g with fin := x.g.fin ||| x.g.amask, amask := m, stack := st })
          (if pc = x.nextPc then none else some pc) false
      | none => x.stackTrap 3 := by
    unfold exitBody
    simp only [hf, Bool.not_true, Bool.false_eq_true, if_false, if_neg hl] <;> rfl
  rw [body]
  refine ⟨fun m pc st h => ?_, fun h => by rw [h]⟩
  rw [h]
  refine ⟨_, congrArg (Fate.done · (if pc = x.nextPc then none else some pc) false) (modGroup_const hg _), ?_⟩
  by_cases h : pc = x.nextPc <;> simp [h]

theorem partialExit : PartialExit := by
  intro w s x m pc st h ha hf hl hr
  obtain ⟨-, hg, -, -, hfd, -⟩ := h.spec
  obtain ⟨p, hd, hp⟩ := (exitBody_part h.found hf hl).1 m pc st hr
  have done := completes_group (i := .exit w) (pre := noPre) rfl h ha rfl hd ⟨rfl, rfl, rfl, rfl⟩
  exact completes_next hg hfd rfl rfl done hp

theorem exitTraps : ExitTraps := by
  intro w s x h ha hf hl hr
  exact issue_trap (pre := noPre) (body := exitBody) rfl h (by rw [gate_acts ha]; exact (exitBody_part h.found hf hl).2 hr)

theorem exitWaits : ExitWaits := by
  intro w s x h ha hf
  exact issue_hold (pre := noPre) (body := exitBody) rfl h (by rw [gate_acts ha]; exact exitBody_holds hf)

theorem bare_energy {g g' : Group} (h : g'.bare = g.bare) : g'.energy = g.energy := by
  have := congrArg Group.energy h; exact this

/-- EXIT of a group's last threads: it retires and is dropped. -/
theorem exitBody_final {x : Cx} (hg : x.s.group? x.g.gid = some x.g) (hf : x.g.allFull = true)
    (hl : x.g.exist &&& ~~~(x.g.fin ||| x.g.amask) = 0) {g : Group}
    (h1 : ((x.s.setGroup x.g.leaving).retire x.g.gid x.f none).group? x.g.gid = some g) :
    exitBody x = .done (((x.s.setGroup x.g.leaving).retire x.g.gid x.f none).dropGroup g) none true := by
  unfold exitBody
  simp only [hf, Bool.not_true, Bool.false_eq_true, if_false, if_pos hl, modGroup_eq hg]
  rw [show x.s.setGroup { x.g with fin := x.g.fin ||| x.g.amask } = x.s.setGroup x.g.leaving from rfl, h1]

theorem completesBarrier_iff {s u : State} {x : Cx} {g : Group} {b : Block} (hs : x.s = s) (gid : g.gid = x.g.gid) (bid : g.bid = x.g.bid)
    (hu : u.butGroup x.g.gid = s.butGroup x.g.gid) (hb : b.arrived = x.b.arrived) : x.completesBarrier ↔ u.othersArrived g b := by
  unfold Cx.completesBarrier State.othersArrived
  rw [gid, bid, hb, hu, hs]
  unfold State.butGroup
  simp only [List.mem_filter, bne_iff_ne, and_imp]

theorem finalExit : FinalExit := by
  intro w s x h ha hf hl
  obtain ⟨hs, hg, hb, -, hfd, -⟩ := h.spec
  have left : (s.setGroup x.g.leaving).group? x.g.gid = some x.g.leaving := group?_setGroup hg rfl
  have ret := retires_retire (s.setGroup x.g.leaving) x.g.gid x.f none
  have but := (butGroup_retire (s.setGroup x.g.leaving) x.g.gid x.f none).trans (butGroup_setGroup (g := x.g.leaving) rfl)
  obtain ⟨g, hg1, hbare⟩ := ret.group _ left
  have hb1 := ret.block _ x.b left hb
  set v := (s.setGroup x.g.leaving).retire x.g.gid x.f none with hv
  have gid : g.gid = x.g.gid := by have := bare_gid hbare; exact this
  have bid : g.bid = x.g.bid := by have := bare_bid hbare; exact this
  have energy : g.energy = x.g.energy + s.weightOf (w.fields 0x01 0) := by rw [← hfd]; exact bare_energy hbare
  obtain ⟨rest, groups, blocks, past⟩ := dropGroup_rest v g
  obtain ⟨b, hb2, only, met, unmet⟩ := dropGroup_block (s := v) (g := g) (b := { x.b with retcnt := x.b.retcnt + 1 }) (bid ▸ hb1)
  have gone : (v.dropGroup g).group? x.g.gid = none := by rw [group?_filter groups, if_pos gid.symm]
  have found : ∀ n, n ≠ x.g.gid → (v.dropGroup g).group? n = v.group? n := by
    intro n hn
    rw [group?_filter groups, gid, if_neg hn]; rfl
  have fate : x.gate noPre exitBody = .done (v.dropGroup g) none true := by
    rw [gate_acts ha, exitBody_final h.found hf hl (by rw [hs]; exact hg1), hs]
  obtain ⟨t, ht, bk⟩ := issue_solo (pre := noPre) (body := exitBody) (v := v.dropGroup g) h
    (by rw [fate]; show (v.dropGroup g).retire _ _ _ = _; unfold State.retire; rw [gone]) (fun g' hg' => by rw [gone] at hg'; cases hg')
  have scw : t.scw = (v.dropGroup g).scw := by have := congrArg State.scw bk.still; exact this
  have vscw : v.scw = s.scw := by have := congrArg State.scw ret.still; exact this
  have iff := completesBarrier_iff (b := { x.b with retcnt := x.b.retcnt + 1 }) hs gid bid but rfl
  refine ⟨t, ht, ?_, ?_, fun n hn => ?_, fun n hn => ?_, b, ?_, ?_, ?_, ?_, fun hc => ?_, fun hc => ?_, fun p hp hin => ?_⟩
  · rw [bk.still, rest, hv, ret.still]; rfl
  · have := bk.groups x.g.gid
    rw [gone] at this
    simpa using this
  · rw [bk.groups n, found n hn, hv, ret.others n hn, group?_setGroup_ne (g' := x.g.leaving) (Ne.symm hn)]
  · rw [block?_congr bk.blocks, blocks n (bid ▸ hn), hv, ret.blocks _ n left hn]; rfl
  · rw [block?_congr bk.blocks, ← bid]; exact hb2
  · rw [only]
  · rw [only, ← energy]
  · rw [only]
  · have cycle : v.cycle = s.cycle := by have := congrArg State.cycle ret.still; exact this
    rw [← cycle]; exact met (iff.mp hc)
  · exact unmet fun ho => hc (iff.mpr ho)
  · obtain ⟨p', hp', e1, e2⟩ := past p (vscw ▸ hp) (gid ▸ hin)
    exact ⟨p', scw ▸ hp', e1, bid ▸ e2⟩

/-- Settles O14. -/
theorem exits : Obligations.Exits := ⟨partialExit, exitTraps, finalExit, exitWaits⟩

end Sys2Proof.Machine
end


section
/-! Table branches (R102), software traps (R290, R291), the handler's return (R289), sample reads (R357), block controls (R293) and
distribution registers (R123). -/

namespace Sys2Proof.Machine

open Sys2Proof

/-! Attempts that halt or raise -/

theorem Solo.alone_in {s u : State} {f : Fields} {x : Cx} (h : Solo s f x) (hk : Kept s u) :
    ∀ g', u.group? x.g.gid = some g' → u.fusedGroup g' = false := by
  obtain ⟨-, hg, -⟩ := h.spec
  exact fun g' hg' => hk.alone hg h.alone hg'

theorem kept_halt (s : State) (die : Nat) (c : BitVec 8) (u : StopUnit) (a : Nat) : Kept s (s.halt die c u a) :=
  .of_eq (halt_groups ..) (halt_blocks ..)

theorem kept_deliver {s : State} {g g0 : Group} (hg : s.group? g.gid = some g0) (hs : g0.Same g) (r : TrapRec) (q : List TrapRec) :
    Kept s (s.deliver g r q) := by
  rcases deliver_groups s g r q with h | ⟨e, h⟩
  · exact .of_eq h (deliver_blocks ..)
  · have same : g.Same (g.loseTag.enter e r q) := (loseTag_same g).trans (enter_same ..)
    exact (kept_setGroup (g := g.loseTag.enter e r q) (by rw [same.gid]; exact hg) (hs.trans same)).trans (.of_eq h (deliver_blocks ..))

theorem kept_takeTrap {s : State} {g g0 : Group} (hg : s.group? g.gid = some g0) (hs : g0.Same g) (r : TrapRec) :
    Kept s (s.takeTrap g r) := by
  unfold State.takeTrap
  split
  · exact kept_halt ..
  · exact kept_deliver hg hs r []

/-- An attempt that is fatal to its partition. -/
theorem issue_halt {i : Instr} {f : Fields} {pre : Cx → Option Fate} {body : Cx → Fate} {s : State} {x : Cx} {c : BitVec 8} {a : Nat}
    (he : exec i s = issue f pre body s) (h : Solo s f x) (hx : x.gate pre body = .halt c a) :
    ∃ t, exec i s = .next t ∧ Booked (s.halt (dieOf x.g.core) c (sliceUnit x.g) a) t := by
  obtain ⟨-, hg, -⟩ := h.spec
  rw [he]
  exact issue_solo h (by rw [hx]; unfold State.settle; rw [hg]) (h.alone_in (kept_halt ..))

theorem group?_retire {s : State} {gid : Nat} {g : Group} (hg : s.group? gid = some g) (f : Fields) (pc : Option VA) :
    (s.retire gid f pc).group? gid = some (g.retired f (s.weightOf f) pc) := by
  have put : (s.setGroup (g.retired f (s.weightOf f) pc)).group? gid = some (g.retired f (s.weightOf f) pc) :=
    group?_setGroup hg (id (group?_gid hg : g.gid = gid))
  unfold State.retire
  rw [hg]
  dsimp only
  split
  · rw [group?_congr (count_groups ..), group?_congr (modBlock_groups ..)]; exact put
  · rw [group?_congr (modBlock_groups ..)]; exact put

theorem retired_same (g : Group) (f : Fields) (w : DWord) (pc : Option VA) : g.Same (g.retired f w pc) := ⟨rfl, rfl, rfl, rfl⟩

theorem kept_retire (s : State) (gid : Nat) (f : Fields) (pc : Option VA) : Kept s (s.retire gid f pc) := by
  unfold State.retire
  cases hg : s.group? gid with
  | none => exact .refl s
  | some g =>
    dsimp only
    have put : Kept s (s.setGroup (g.retired f (s.weightOf f) pc)) :=
      kept_setGroup (g0 := g) (by rw [(retired_same g f _ pc).gid, group?_gid hg]; exact hg) (retired_same ..)
    have block := put.trans (kept_modBlock (bid := g.bid) (f := fun b => { b with retcnt := b.retcnt + 1 }) (fun _ => rfl) fun _ => rfl)
    split
    · exact block.trans (kept_count ..)
    · exact block

@[simp] theorem retire_ctxs (s : State) (gid : Nat) (f : Fields) (pc : Option VA) : (s.retire gid f pc).ctxs = s.ctxs := by
  have := congrArg State.ctxs (retires_retire s gid f pc).still
  exact this

/-- An instruction that retires and raises: the state in which its group has retired it. -/
theorem issue_raise {i : Instr} {f : Fields} {body : Cx → Fate} {s v : State} {x : Cx} {c : BitVec 8} {d : Nat} {o : Word}
    (he : exec i s = issue f noPre body s) (h : Solo s f x) (ha : x.Acts) (hb : body x = .raise c d o)
    (hv : (if c = trapBkpt then (s.retire x.g.gid x.f none).stopAt (x.retiredHere s) (x.recordOf c d x.g.amask x.nextPc o)
      else (s.retire x.g.gid x.f none).takeTrap (x.retiredHere s) (x.recordOf c d x.g.amask x.nextPc o)) = v)
    (hk : Kept (s.retire x.g.gid x.f none) v) : ∃ t, exec i s = .next t ∧ Booked v t := by
  obtain ⟨-, hg, -, -, rfl, -⟩ := h.spec
  rw [he]
  refine issue_solo h ?_ (h.alone_in ((kept_retire ..).trans hk))
  rw [gate_acts ha, hb, ← hv]
  unfold State.settle
  simp only [hg, group?_retire hg]
  rfl

/-- Settles O16: the group retires, and then takes the trap or halts for the debugger. -/
theorem softwareTraps : Obligations.SoftwareTraps := by
  refine ⟨fun w code s x h ha => ?_, fun w code s x h ha => ?_⟩
  · obtain ⟨-, hg, -⟩ := h.spec
    refine issue_raise (body := fun x => .raise trapTrap code.toNat ((x.getA 0).extractLsb' 0 32)) rfl h ha rfl
      (if_neg (show trapTrap ≠ trapBkpt by decide)) ?_
    exact kept_takeTrap (g := x.retiredHere s) (group?_retire hg ..) (.refl _) _
  · obtain ⟨-, hg, hb, hc, hf, -⟩ := h.spec
    have block := (retires_retire s x.g.gid x.f none).block x.g x.b hg hb
    have debug : ((((s.retire x.g.gid x.f none).block? (x.retiredHere s).bid).bind fun b =>
        (s.retire x.g.gid x.f none).ctx? b.ctx).map (·.ctl.dbg)).getD false = x.c.ctl.dbg := by
      rw [show (x.retiredHere s).bid = x.g.bid from rfl, block]
      simp only [Option.bind_some]
      rw [ctx?_congr (retire_ctxs ..), hc]
      rfl
    refine issue_raise (body := fun _ => .raise trapBkpt code.toNat 0) rfl h ha rfl ?_ ?_
    · rw [if_pos rfl]
      unfold State.stopAt
      rw [debug]
      rfl
    · split
      · exact kept_setGroup (g := { x.retiredHere s with dbgStop := some x.nextPc, pc := x.g.pc }) (group?_retire hg ..) ⟨rfl, rfl, rfl, rfl⟩
      · exact kept_takeTrap (g := x.retiredHere s) (group?_retire hg ..) (.refl _) _

/-! Table branches (R102) -/

theorem low_bits (v : VA) : v.extractLsb' 0 3 ≠ 0 ↔ v.toNat % 8 ≠ 0 := by
  rw [ne_eq, ne_eq, not_iff_not, ← BitVec.toNat_inj]
  simp [Nat.shiftRight_zero]

theorem brt_target (n : Nat) : (BitVec.ofNat 64 n).extractLsb' 0 52 = BitVec.ofNat 52 n := by
  apply BitVec.eq_of_toNat_eq
  simp only [BitVec.extractLsb'_toNat, BitVec.toNat_ofNat, Nat.shiftRight_zero]
  exact Nat.mod_mod_of_dvd n (by decide)

theorem brt_tag (n : Nat) : (BitVec.ofNat 64 n).extractLsb' 52 12 = BitVec.ofNat 12 (n / 2 ^ 52) := by
  apply BitVec.eq_of_toNat_eq
  simp only [BitVec.extractLsb'_toNat, BitVec.toNat_ofNat, Nat.shiftRight_eq_div_pow]
  omega

/-- The entry of the table that BRT reads, and the two parts of it. -/
def Cx.brtAt (x : Cx) : VA := (x.getB 0).extractLsb' 0 52 + BitVec.ofNat 52 (8 * codeOf (x.getA 0))

theorem brtBody_misaligned {x : Cx} (h : ((x.getB 0).extractLsb' 0 52).toNat % 8 ≠ 0) : brtBody x = .trap 0x01 30 x.g.amask := by
  unfold brtBody
  exact if_pos ((low_bits _).mpr h)

theorem brtBody_beyond {x : Cx} (h : ((x.getB 0).extractLsb' 0 52).toNat % 8 = 0) (hb : codeOf (x.getC 0) ≤ codeOf (x.getA 0)) :
    brtBody x = .trap 0x04 0 x.g.amask := by
  unfold brtBody
  exact (if_neg (mt (low_bits _).mp (not_not.mpr h))).trans (if_pos hb)

theorem brtBody_reads {x : Cx} (h : ((x.getB 0).extractLsb' 0 52).toNat % 8 = 0) (hb : codeOf (x.getA 0) < codeOf (x.getC 0)) :
    brtBody x = match x.s.fetchXlat x.c x.brtAt.toNat with
      | .ok pa attr =>
        let entry := x.s.dram.readN (readPa x.die pa attr) 8
        if x.s.padAt x.c x.die (BitVec.ofNat 52 entry) (BitVec.ofNat 12 (entry / 2 ^ 52)) then .done x.s (some (BitVec.ofNat 52 entry)) true
        else .trap 0x05 0 x.g.amask
      | _ => .halt 0x02 x.brtAt.toNat := by
  unfold brtBody
  refine (if_neg (mt (low_bits _).mp (not_not.mpr h))).trans ((if_neg (Nat.not_le.mpr hb)).trans ?_)
  simp only [brt_target, brt_tag]
  rfl

/-- Settles O15: the index, the entry and its target are looked at in this order. -/
theorem tableBranches : Obligations.TableBranches := by
  intro w s x h ha base index at_
  obtain ⟨rfl, -⟩ := h.spec
  have gate : x.gate noPre brtBody = brtBody x := gate_acts ha _
  refine ⟨fun hm => ?_, fun hm hb => ?_, fun pa attr hm hb hx => ?_, fun hm hb hx => ?_⟩
  · exact issue_trap (pre := noPre) (body := brtBody) rfl h (gate.trans (brtBody_misaligned hm))
  · exact issue_trap (pre := noPre) (body := brtBody) rfl h (gate.trans (brtBody_beyond hm hb))
  · have body := brtBody_reads hm hb
    rw [show x.s.fetchXlat x.c x.brtAt.toNat = .ok pa attr from hx] at body
    intro entry target
    refine ⟨fun hp => ?_, fun hp => ?_⟩
    · exact issue_kept (pre := noPre) (body := brtBody) rfl h (gate.trans (body.trans (if_pos hp))) (.refl _)
    · exact issue_trap (pre := noPre) (body := brtBody) rfl h (gate.trans (body.trans (if_neg (by rw [show x.die = dieOf x.g.core from rfl, hp]; exact Bool.false_ne_true))))
  · have body := brtBody_reads hm hb
    have fails : brtBody x = .halt 0x02 at_.toNat := by
      rw [body]
      split
      · next pa attr hok => exact absurd hok (hx pa attr)
      · rfl
    exact issue_halt (pre := noPre) (body := brtBody) rfl h (gate.trans fails)

/-! The handler's return (R289) -/

theorem returnFrom_same {g g' : Group} (h : g.returnFrom = some g') : g.Same g' := by
  unfold Group.returnFrom at h
  dsimp only at h
  split at h
  · cases h
  · cases h; exact ⟨rfl, rfl, rfl, rfl⟩

theorem kept_traceEvent (s : State) (ctx event core slice other : Nat) (name : Name) (group pc v : Nat) :
    Kept s (s.traceEvent ctx event core slice other name group pc v) := .of_eq (traceEvent_groups ..) (traceEvent_blocks ..)

/-- A record delivered to a group of a block and a context that are found. -/
theorem deliver_pc {s : State} {g g0 : Group} {b : Block} {c : Ctx} (hg : s.group? g.gid = some g0) (hb : s.block? g.bid = some b)
    (hc : s.ctx? b.ctx = some c) (he : c.ctl.hentry ≠ 0) (r : TrapRec) (q : List TrapRec) :
    (((s.deliver g r q).group? g.gid).map (·.pc)) = some c.ctl.hentry := by
  have gid : (g.loseTag.enter c.ctl.hentry r q).gid = g.gid := (enter_same ..).gid.trans (loseTag_same g).gid
  unfold State.deliver
  simp only [hb, hc, he, if_false]
  rw [group?_congr (traceEvent_groups ..), group?_congr (count_groups ..), group?_setGroup hg gid]
  rfl

/-- Settles O17. -/
theorem handlerReturn : Obligations.HandlerReturn := by
  intro w s x h ha
  obtain ⟨rfl, hg, hb, hc, -⟩ := h.spec
  have gate : x.gate noPre rteBody = rteBody x := gate_acts ha _
  refine ⟨fun hn => ?_, fun r hr hf => ?_, fun r hr hf hn => ?_, fun r g hr hf hrf => ?_⟩
  · exact issue_trap (pre := noPre) (body := rteBody) rfl h (gate.trans (by unfold rteBody; rw [hn]; rfl))
  · exact issue_hold (pre := noPre) (body := rteBody) rfl h (gate.trans (by unfold rteBody; simp [hr, hf]))
  · exact issue_halt (pre := noPre) (body := rteBody) rfl h (gate.trans (by unfold rteBody; simp [hr, hf, hn, haltHandler]))
  intro v
  refine ⟨fun hq => ?_, fun q rest hq he => ?_⟩
  · have same := returnFrom_same hrf
    refine issue_kept (pre := noPre) (body := rteBody) (e := true) rfl h (gate.trans (by unfold rteBody; simp [hr, hf, hrf, hq, v])) ?_
    exact (kept_traceEvent ..).trans (kept_setGroup (g0 := x.g) (by rw [same.gid, group?_congr (traceEvent_groups ..)]; exact hg) same)
  · have same : x.g.Same { g with queue := rest } := (returnFrom_same hrf).trans ⟨rfl, rfl, rfl, rfl⟩
    have traced : v.group? g.gid = some x.g := by rw [(returnFrom_same hrf).gid, group?_congr (traceEvent_groups ..)]; exact hg
    have put : (v.setGroup { g with queue := rest }).group? g.gid = some { g with queue := rest } := group?_setGroup traced rfl
    have block : (v.setGroup { g with queue := rest }).block? g.bid = some x.b := by
      rw [(returnFrom_same hrf).bid, block?_congr (setGroup_blocks ..), block?_congr (traceEvent_blocks ..)]; exact hb
    have ctx : (v.setGroup { g with queue := rest }).ctx? x.b.ctx = some x.c := by
      rw [ctx?_congr (setGroup_ctxs ..), ctx?_congr (traceEvent_ctxs ..)]; exact hc
    refine issue_kept (pre := noPre) (body := rteBody) (e := true) rfl h (gate.trans ?_) ?_
    · have pc := deliver_pc (g := { g with queue := rest }) put block ctx he q rest
      unfold rteBody
      simp only [hr, hf, hrf, hq, Bool.not_true, Bool.false_eq_true, if_false]
      exact congrArg (Fate.done _ · true) pc
    · exact ((kept_traceEvent ..).trans (kept_setGroup (g := { g with queue := rest }) traced same)).trans
        (kept_deliver (g := { g with queue := rest }) put (.refl _) q rest)

/-! Sample reads (R357), block controls (R293) and distribution registers (R123) -/

theorem smplBody_holds {x : Cx} {ws : List Word}
    (h : (x.g.smpl = none ∧ ws = List.replicate 8 0) ∨ (∃ tag, x.g.smpl = some tag ∧ tag.record = some ws)) :
    smplBody x = .done (x.s.modGroup x.g.gid fun g => { g.writeDst x.f.dst 0 ws with smpl := none }) none false := by
  unfold smplBody
  rcases h with ⟨h, rfl⟩ | ⟨tag, h, hr⟩
  · rw [h]
  · simp only [h, hr]

theorem smplBody_waits {x : Cx} {tag : Smpl} (h : x.g.smpl = some tag) (hr : tag.record = none) :
    smplBody x = .done (x.s.putResult x .smpl (regWrites x.f.dst 0 (List.replicate 8 0)) [] 0 [] [] false) none false := by
  unfold smplBody
  simp only [h, hr]

/-- Settles O18. -/
theorem sampleReads : Obligations.SampleReads := by
  intro w s x h ha
  obtain ⟨rfl, -⟩ := h.spec
  have gate : x.gate noPre (getsrBody 0x016) = smplBody x := (gate_acts ha _).trans (if_pos rfl)
  refine ⟨fun ws hw => ?_, fun tag ht hr => ?_⟩
  · refine issue_group (pre := noPre) (body := getsrBody 0x016) rfl h (gate.trans (smplBody_holds hw)) (modGroup_const h.found _) ?_
    exact (RegsOnly.same (regsOnly_writeDst ..)).trans ⟨rfl, rfl, rfl, rfl⟩
  · exact issue_kept (pre := noPre) (body := getsrBody 0x016) rfl h (gate.trans (smplBody_waits ht hr)) (kept_putResult ..)

theorem pctl_acts {i : Instr} {f : Fields} {change : Cx → Block → Block} {s : State} {x : Cx}
    (he : exec i s = issue f noPre (fun x => x.pctl (change x)) s) (h : Solo s f x) (ha : x.Acts)
    (hc : (change x x.b).bid = x.b.bid ∧ (change x x.b).fused = x.b.fused) :
    (s.preemptOf x.b = none → Completes i s (s.setBlock (change x x.b)) x.g.gid f none) ∧
    (∀ r, s.preemptOf x.b = some r → Traps i s x 0x01 27 x.g.amask) := by
  obtain ⟨rfl, -, hb, -⟩ := h.spec
  have hid : x.b.bid = x.g.bid := block?_bid hb
  have found : x.s.block? x.b.bid = some x.b := hid ▸ hb
  refine ⟨fun hp => ?_, fun r hp => ?_⟩
  · refine issue_kept he h (e := false) ((gate_acts ha _).trans ?_) (kept_setBlock (b0 := x.b) (hc.1 ▸ found) hc.2)
    unfold Cx.pctl
    rw [hp, modBlock_eq found]
    rfl
  · refine issue_trap he h ((gate_acts ha _).trans ?_)
    unfold Cx.pctl
    rw [hp]
    rfl

theorem blockControls : BlockControls :=
  ⟨fun _ _ _ h ha => pctl_acts (change := fun _ b => { b with idem := false }) rfl h ha ⟨rfl, rfl⟩,
    fun _ _ _ h ha => pctl_acts (change := fun x b => { b with expcnt := (x.getA 0).toNat }) rfl h ha ⟨rfl, rfl⟩⟩

theorem distributionLoads : DistributionLoads := by
  intro w var s x h ha
  refine ⟨fun hd => ?_, fun hd => ?_⟩
  · refine completes_group (pre := noPre) (body := dloadBody var) (e := false) rfl h ha rfl ?_ ⟨rfl, rfl, rfl, rfl⟩
    unfold dloadBody
    simp only [hd, if_true]
    rw [modGroup_const h.found]
  · exact issue_trap (pre := noPre) (body := dloadBody var) rfl h ((gate_acts ha _).trans (by unfold dloadBody; simp [hd, trapIllegal]))

/-- Settles O19. -/
theorem blocksAndDistributions : Obligations.BlocksAndDistributions := ⟨blockControls, distributionLoads⟩

end Sys2Proof.Machine
end


section
/-! What the sources of an instruction depend on, and the updates that leave it; spill runs (R83). -/

namespace Sys2Proof.Machine

open Sys2Proof

/-! What sources read (R40, R41, R105) -/

/-- Two contexts of one group's attempt in which its sources read the same. -/
structure Cx.Alike (x y : Cx) : Prop where
  g : y.g = x.g
  f : y.f = x.f
  spec : y.spec = x.spec
  act : y.act = x.act
  fpctl : y.c.ctl.fpctl = x.c.ctl.fpctl
  sh : y.b.sh = x.b.sh
  idx : y.b.idx = x.b.idx
  grid : y.b.grid = x.b.grid
  ctx : y.b.ctx = x.b.ctx
  nthr : y.b.nthr = x.b.nthr
  dev : y.s.dev = x.s.dev
  cycle : y.s.cycle = x.s.cycle
  grids : y.s.grids = x.s.grids

namespace Cx.Alike
variable {x y : Cx} (h : x.Alike y)
include h

theorem threads : y.threads = x.threads := by unfold Cx.threads; rw [h.act]
theorem each : y.each = x.each := by unfold Cx.each; rw [h.f, h.threads]
theorem exa : y.exa = x.exa := by unfold Cx.exa; rw [h.f]
theorem exb : y.exb = x.exb := by unfold Cx.exb; rw [h.f]
theorem die : y.die = x.die := by unfold Cx.die; rw [h.g]
theorem tables : y.tables = x.tables := by unfold Cx.tables; rw [h.g, h.sh]
theorem dstWidth : y.dstWidth = x.dstWidth := by unfold Cx.dstWidth; rw [h.f, h.spec]
theorem namesRej : y.namesRej = x.namesRej := by unfold Cx.namesRej; rw [h.g, h.f, h.act]

theorem gridExtents : y.gridExtents = x.gridExtents := by
  unfold Cx.gridExtents State.grid?
  rw [h.grids, h.ctx, h.grid]

theorem shortValue (r : Short) : y.shortValue r = x.shortValue r := by
  unfold Cx.shortValue Cx.clock
  cases r <;> simp only [h.g, h.idx, h.grid, h.ctx, h.die, h.dev, h.cycle, h.gridExtents]

theorem read (cls : Cls) (bits : BitVec 9) (t : Nat) (dr : Draw) : y.read cls bits t dr = x.read cls bits t dr := by
  unfold Cx.read
  rw [h.g, h.tables, h.exa, h.exb, h.f]
  split <;> simp only [h.shortValue]

theorem get (cls : Cls) (bits : BitVec 9) (t : Nat) : y.get cls bits t = x.get cls bits t := by
  unfold Cx.get; rw [h.read]

theorem getA (t : Nat) : y.getA t = x.getA t := by unfold Cx.getA; rw [h.get, h.spec, h.f]
theorem getB (t : Nat) : y.getB t = x.getB t := by unfold Cx.getB; rw [h.get, h.spec, h.f]
theorem getC (t : Nat) : y.getC t = x.getC t := by unfold Cx.getC; rw [h.get, h.spec, h.f]

theorem args (t : Nat) (dr : Draw) : y.args t dr = x.args t dr := by
  unfold Cx.args
  simp only [h.read, h.spec, h.f]

theorem special (n t : Nat) : y.special n t = x.special n t := by
  unfold Cx.special
  simp only [h.shortValue, h.g, h.cycle, h.nthr, h.fpctl]

theorem run (bits : BitVec 9) (n t : Nat) : y.run bits n t = x.run bits n t := by unfold Cx.run; rw [h.g]

theorem addr (t : Nat) : y.addr t = x.addr t := by
  unfold Cx.addr
  rw [h.getA, h.getB, h.exa, h.exb]

theorem addrN (t : Nat) : y.addrN t = x.addrN t := by unfold Cx.addrN; rw [h.addr]
theorem addrOf (t : Nat) : y.addrOf t = x.addrOf t := by unfold Cx.addrOf; rw [h.addr, h.f]

end Cx.Alike

/-- A state that differs in nothing that sources read, and whose memories keep their form. -/
structure Calm (s t : State) : Prop where
  cycle : t.cycle = s.cycle
  dev : t.dev = s.dev
  grids : t.grids = s.grids
  dram : s.dram.wf = true → t.dram.wf = true
  scratch : s.scratch.wf = true → t.scratch.wf = true

theorem Calm.refl (s : State) : Calm s s := ⟨rfl, rfl, rfl, id, id⟩
theorem Calm.trans {s t u : State} (h : Calm s t) (k : Calm t u) : Calm s u :=
  ⟨k.cycle.trans h.cycle, k.dev.trans h.dev, k.grids.trans h.grids, k.dram ∘ h.dram, k.scratch ∘ h.scratch⟩

theorem Calm.of_eq {s t : State} (h1 : t.cycle = s.cycle) (h2 : t.dev = s.dev) (h3 : t.grids = s.grids) (h4 : t.dram = s.dram)
    (h5 : t.scratch = s.scratch) : Calm s t := ⟨h1, h2, h3, fun h => h4 ▸ h, fun h => h5 ▸ h⟩

theorem Calm.foldl {α : Type} {step : State → α → State} (h : ∀ s a, Calm s (step s a)) (l : List α) (s : State) :
    Calm s (l.foldl step s) := by
  induction l generalizing s with
  | nil => exact .refl s
  | cons a rest ih => exact (h s a).trans (ih _)

/-- A context made in a state that sources cannot tell from the first. -/
theorem Calm.alike {x : Cx} {t : State} (h : Calm x.s t) : x.Alike { x with s := t } :=
  ⟨rfl, rfl, rfl, rfl, rfl, rfl, rfl, rfl, rfl, rfl, h.dev, h.cycle, h.grids⟩

theorem calm_setBlock (s : State) (b : Block) : Calm s (s.setBlock b) := .of_eq rfl rfl rfl rfl rfl
theorem calm_modGroup (s : State) (n : Nat) (f : Group → Group) : Calm s (s.modGroup n f) := .of_eq (by simp) (by simp) (by simp) (by simp) (by simp)
theorem calm_modBlock (s : State) (n : Nat) (f : Block → Block) : Calm s (s.modBlock n f) := .of_eq (by simp) (by simp) (by simp) (by simp) (by simp)
theorem calm_modCtx (s : State) (n : Nat) (f : Ctx → Ctx) : Calm s (s.modCtx n f) := .of_eq (by simp) (by simp) (by simp) (by simp) (by simp)
theorem calm_count (s : State) (core event ctx n : Nat) : Calm s (s.count core event ctx n) := .of_eq rfl rfl rfl rfl rfl
theorem calm_ran (s : State) (u : StopUnit) (ctx : Nat) : Calm s (s.ran u ctx) := .of_eq rfl rfl rfl rfl rfl
theorem calm_fresh (s : State) : Calm s s.fresh.2 := .of_eq rfl rfl rfl rfl rfl
theorem calm_log (s : State) (ctx cause fpc : Nat) (lanes : Mask) (pc : Nat) (name : Name) (group detail : Nat) :
    Calm s (s.log ctx cause fpc lanes pc name group detail) := .of_eq (by simp) (by simp) (by simp) (by simp) (by simp)
theorem calm_traceEvent (s : State) (ctx event core slice other : Nat) (name : Name) (group pc v : Nat) :
    Calm s (s.traceEvent ctx event core slice other name group pc v) := .of_eq (by simp) (by simp) (by simp) (by simp) (by simp)

theorem calm_halt (s : State) (die : Nat) (c : BitVec 8) (u : StopUnit) (a : Nat) : Calm s (s.halt die c u a) := by
  unfold State.halt
  split
  · split
    · exact .refl s
    · exact .of_eq rfl rfl rfl rfl rfl
  · exact .refl s

theorem calm_unhold (s : State) (gid : Nat) : Calm s (s.unhold gid) := .of_eq rfl rfl rfl rfl rfl

theorem calm_sampleTick (s : State) (c : Ctx) (g : Group) (m : Mask) : Calm s (s.sampleTick c g m).2 := by
  unfold State.sampleTick
  split
  · exact .refl s
  · exact calm_modCtx ..

theorem calm_sample (s : State) (x : Cx) (spc : Space) (a : Nat → Int) : Calm s (s.sample x spc a) := by
  unfold State.sample
  split
  · exact .refl s
  · dsimp only
    split
    · exact (calm_sampleTick ..).trans (calm_modGroup ..)
    · exact calm_sampleTick ..

theorem calm_sampleDone (s : State) (x : Cx) (spc : Space) : Calm s (s.sampleDone x spc) := calm_modGroup ..
theorem calm_sampleParks (s : State) (gid : Nat) (ts : List TileRef) : Calm s (s.sampleParks gid ts) := calm_modGroup ..

theorem calm_putResult (s : State) (x : Cx) (kind : ResultKind) (ws : List RegW) (slots : List (Nat × DWord)) (words : Nat)
    (q : List (Nat × Word)) (c : List (Nat × Causes)) (tagged : Bool) : Calm s (s.putResult x kind ws slots words q c tagged) :=
  (calm_fresh s).trans ((calm_modGroup ..).trans (.of_eq rfl rfl rfl rfl rfl))

theorem calm_setTile (s : State) (t : TileRef) (v : WTile) : Calm s (s.setTile t v) := by
  unfold State.setTile
  split
  · exact .of_eq rfl rfl rfl rfl rfl
  · exact .refl s

theorem calm_touch (s : State) (t : TileRef) : Calm s (s.touch t) := (calm_fresh s).trans (calm_setTile ..)

theorem calm_touchAll (s : State) (ts : List TileRef) : Calm s (s.touchAll ts) := by
  refine Calm.foldl (fun s r => ?_) ts s
  split
  · exact calm_touch ..
  · exact .refl s

theorem calm_applyTile (s : State) (t : TileRef) (es : List HodEntry) : Calm s (s.applyTile t es) :=
  (calm_setTile ..).trans (calm_touch ..)

theorem calm_appendSample (s : State) (a : Append) (f : Smpl → Smpl) : Calm s (s.appendSample a f) := by
  unfold State.appendSample
  split
  · exact .refl s
  · exact calm_modGroup ..

theorem calm_applyAppend (s : State) (a : Append) : Calm s (s.applyAppend a) := by
  unfold State.applyAppend
  exact Calm.trans (t := { s with appends := s.appends.filter fun b => b.aid != a.aid }) (.of_eq rfl rfl rfl rfl rfl)
    ((calm_unhold ..).trans ((calm_applyTile ..).trans (calm_appendSample ..)))

theorem calm_flushTile (s : State) (core : Nat) (t : TileRef) : Calm s (s.flushTile core t) := Calm.foldl calm_applyAppend _ s

/-! Scratchpads keep their form -/

theorem wf_perform {m : Memory} (h : m.wf = true) (w : ScWrite) : (w.perform m).wf = true := Memory.wf_writeN h ..

theorem wf_performs {m : Memory} (h : m.wf = true) (l : List ScWrite) : (l.foldl ScWrite.perform m).wf = true := by
  induction l generalizing m with
  | nil => exact h
  | cons w l ih => exact ih (wf_perform h w)

theorem calm_performCore (s : State) (core : Nat) : Calm s (s.performCore core) := ⟨rfl, rfl, rfl, id, fun h => wf_performs h _⟩

theorem calm_flushSc (s : State) (core a n : Nat) : Calm s (s.flushSc core a n) := by
  unfold State.flushSc
  split
  · exact calm_performCore ..
  · exact .refl s

theorem calm_flushOps (s : State) (core a n : Nat) : Calm s (s.flushOps core a n) := by
  unfold State.flushOps
  split
  · exact calm_performCore ..
  · exact .refl s

theorem calm_syncFirst (s : State) (gid core : Nat) : Calm s (s.syncFirst gid core) := by
  unfold State.syncFirst
  split
  · exact calm_performCore ..
  · exact .refl s

theorem calm_ownFirst (x : Cx) (spc : Space) (addrs : List Nat) (n : Nat) : Calm x.s (x.ownFirst spc addrs n).s := by
  unfold Cx.ownFirst
  split
  · exact Calm.foldl (fun s a => calm_flushOps ..) addrs x.s
  · refine Calm.foldl (fun s r => ?_) _ x.s
    split
    · exact calm_flushTile ..
    · exact .refl s
  · exact .refl x.s

theorem calm_atDieFirst (x : Cx) (spc : Space) (addrs : List Nat) (n : Nat) : Calm x.s (x.atDieFirst spc addrs n).s := by
  unfold Cx.atDieFirst
  split
  · exact Calm.foldl (fun s a => calm_flushSc ..) addrs x.s
  · exact .refl x.s

theorem calm_postAppend (s : State) (gid bid core : Nat) (t : TileRef) (es : List HodEntry) (c : Option Nat) (d : Option Nat)
    (sync : Bool) (tag : Nat) : Calm s (s.postAppend gid bid core t es c d sync tag) := .of_eq rfl rfl rfl rfl rfl

theorem calm_writeTiles (x : Cx) (ws : List Write) (sync : Bool) (s : State) : Calm s (x.writeTiles ws sync s) := by
  unfold Cx.writeTiles
  refine Calm.foldl (fun s r => ?_) _ s
  dsimp only
  split
  · exact (calm_flushTile ..).trans (calm_applyTile ..)
  · exact calm_postAppend ..

theorem calm_writeAll (x : Cx) (spc : Space) (t : Nat) (ws : List Write) (sync : Bool) (s : State) :
    Calm s (x.writeAll spc t ws sync s) := by
  unfold Cx.writeAll
  split
  · exact calm_modGroup ..
  · exact calm_modBlock ..
  · exact Calm.foldl
      (step := fun s w => s.postSc x.g.gid x.b.bid x.g.core x.die (scratchKey x.c x.die w.addr) w.width w.op w.ty w.val sync)
      (fun s w => .of_eq rfl rfl rfl rfl rfl) ws s
  · exact .refl s

theorem calm_swap (x : Cx) (spc : Space) (a n : Nat) (f : Nat → Option Nat) (s : State) : Calm s (x.swap spc a n f s).2 := by
  unfold Cx.swap
  split
  · split
    · dsimp only
      split
      · exact calm_setBlock ..
      · exact .refl s
    · exact .refl s
  · dsimp only
    split
    · exact (calm_flushSc ..).trans ⟨rfl, rfl, rfl, id, fun h => Memory.wf_writeN h ..⟩
    · exact calm_flushSc ..
  · split
    · dsimp only
      split
      · exact (calm_flushTile ..).trans (calm_applyTile ..)
      · exact (calm_flushTile ..).trans (calm_touch ..)
    · exact .refl s
  · exact .refl s

theorem calm_swapAll (x : Cx) (spc : Space) (n : Nat) (l : List (Nat × (Nat → Option Nat))) (s : State) :
    Calm s (x.swapAll spc n l s).2 := by
  induction l generalizing s with
  | nil => exact .refl s
  | cons e rest ih => exact (calm_swap ..).trans (ih _)

theorem calm_critical (s : State) (x : Cx) (o : Ord) : Calm s (s.critical x o) := by
  unfold State.critical
  split
  · exact .refl s
  · split
    · exact (calm_fresh s).trans (calm_modGroup ..)
    · exact calm_modGroup ..
    · exact .refl s

theorem calm_ordered (s : State) (x : Cx) (o : Ord) : Calm s (s.ordered x o) := by
  unfold State.ordered
  split
  · exact .refl s
  · dsimp only
    split <;> split <;> exact .of_eq rfl rfl rfl rfl rfl

theorem calm_commitDraws (s : State) (x : Cx) (dr : Draw) : Calm s (s.commitDraws x dr) := by
  unfold State.commitDraws
  split
  · exact .refl s
  · exact (calm_modGroup ..).trans (calm_count ..)

theorem calm_commitNone (s : State) (x : Cx) (dr : Draw) : Calm s (s.commitNone x dr) := calm_modGroup ..

/-! Spill runs (R83) -/

/-- A run of n words written one behind the other: each word reads back, and bytes outside the run are kept. -/
theorem writes_run (m : Memory) (a : Nat) (word : Nat → Word) (n : Nat) :
    let m' := (List.range n).foldl (fun m j => m.writeN (a + 4 * j) 4 (word j).toNat) m
    (∀ j < n, m'.readN (a + 4 * j) 4 = (word j).toNat) ∧ ∀ c, c < a ∨ a + 4 * n ≤ c → m'.read c = m.read c := by
  induction n with
  | zero => exact ⟨fun j hj => absurd hj (Nat.not_lt_zero j), fun _ _ => rfl⟩
  | succ n ih =>
    obtain ⟨h1, h2⟩ := ih
    rw [List.range_succ, List.foldl_append, List.foldl_cons, List.foldl_nil]
    refine ⟨fun j hj => ?_, fun c hc => ?_⟩
    · by_cases hn : j = n
      · subst hn
        rw [Memory.readN_writeN]
        exact Nat.mod_eq_of_lt (word j).isLt
      · rw [Memory.readN_writeN_apart (by omega)]
        exact h1 j (by omega)
    · rw [Memory.read_writeN_outside (by omega)]
      exact h2 c (by omega)

theorem spillKey_add (t a b : Nat) : spillKey t (a + b) = spillKey t a + b := by unfold spillKey; omega

/-- The runs of different threads written one after the other. -/
theorem writes_runs (m : Memory) {off n : Nat} (hn : off + 4 * n ≤ 1024) (word : Nat → Nat → Word) {l : List Nat} (hl : l.Nodup) :
    let m' := l.foldl (fun m t => (List.range n).foldl (fun m j => m.writeN (spillKey t (off + 4 * j)) 4 (word t j).toNat) m) m
    (∀ t ∈ l, ∀ j < n, m'.readN (spillKey t (off + 4 * j)) 4 = (word t j).toNat) ∧
      ∀ t a, a < 1024 → t ∉ l ∨ a < off ∨ off + 4 * n ≤ a → m'.read (spillKey t a) = m.read (spillKey t a) := by
  induction l generalizing m with
  | nil => exact ⟨fun t ht => absurd ht List.not_mem_nil, fun _ _ _ _ => rfl⟩
  | cons u us ih =>
    obtain ⟨hu, hus⟩ := List.nodup_cons.mp hl
    obtain ⟨r1, r2⟩ := writes_run m (spillKey u off) (word u) n
    simp only [← spillKey_add] at r1 r2
    obtain ⟨h1, h2⟩ := ih ((List.range n).foldl (fun m j => m.writeN (spillKey u (off + 4 * j)) 4 (word u j).toNat) m) hus
    rw [List.foldl_cons]
    refine ⟨fun t ht j hj => ?_, fun t a ha hout => ?_⟩
    · rcases List.mem_cons.mp ht with rfl | ht
      · rw [← r1 j hj]
        refine Memory.readN_congr fun c hc1 hc2 => ?_
        have key : c = spillKey t (c - spillKey t 0) := by unfold spillKey at *; omega
        rw [key]
        exact h2 t _ (by unfold spillKey at *; omega) (.inl hu)
      · exact h1 t ht j hj
    · rw [h2 t a ha (hout.imp_left fun h hin => h (List.mem_cons_of_mem _ hin))]
      refine r2 _ ?_
      by_cases htu : t = u
      · subst htu
        have : a < off ∨ off + 4 * n ≤ a := hout.resolve_left fun h => h (List.mem_cons_self)
        unfold spillKey; omega
      · unfold spillKey; omega

theorem spillOffset_le {o : Word} {n off : Nat} (h : spillOffset o n = some off) : off + 4 * n ≤ 960 := by
  unfold spillOffset at h
  split at h
  · cases h
  · next hn => cases h; omega

theorem spstBody_runs {x : Cx} {off : Nat} (h : spillOffset ((x.getC 0).extractLsb' 0 32) (immOf x.f.b).toNat = some off) :
    spstBody x = .done (x.s.modGroup x.g.gid fun g => { g with
      spill := x.threads.foldl (fun m t => (List.range (immOf x.f.b).toNat).foldl (fun m j =>
        m.writeN (spillKey t (off + 4 * j)) 4 ((x.run x.f.a (immOf x.f.b).toNat t).getD j 0).toNat) m) g.spill }) none false := by
  unfold spstBody
  dsimp only
  rw [h]

theorem spstBody_traps {x : Cx} (h : spillOffset ((x.getC 0).extractLsb' 0 32) (immOf x.f.b).toNat = none) (ha : x.act ≠ 0) :
    spstBody x = .trap trapStack 1 x.act := by
  unfold spstBody
  dsimp only
  rw [h]
  exact if_neg ha

theorem spldBody_runs {x : Cx} {off : Nat} (h : spillOffset ((x.getB 0).extractLsb' 0 32) (immOf x.f.a).toNat = some off) :
    spldBody x = .done (x.s.putResult x .mem (x.threads.flatMap fun t => regWrites x.f.dst t
      ((List.range (immOf x.f.a).toNat).map fun j => BitVec.ofNat 32 (x.g.spill.readN (spillKey t (off + 4 * j)) 4))) [] 0 [] [] false)
      none false := by
  unfold spldBody
  dsimp only
  rw [h]

theorem spldBody_traps {x : Cx} (h : spillOffset ((x.getB 0).extractLsb' 0 32) (immOf x.f.a).toNat = none) (ha : x.act ≠ 0) :
    spldBody x = .trap trapStack 1 x.act := by
  unfold spldBody
  dsimp only
  rw [h]
  exact if_neg ha

/-- Settles O20. -/
theorem spillRuns : Obligations.SpillRuns := by
  refine ⟨fun w m s x h ha => ?_, fun w m s x h ha => ?_⟩ <;> intro n
  · refine ⟨fun off ho => ?_, fun hact ho => ?_⟩
    · obtain ⟨runs, kept⟩ := writes_runs x.g.spill (le_trans (spillOffset_le ho) (by decide))
        (fun t j => (x.run x.f.a n t).getD j 0) (threads_nodup x.act)
      refine ⟨_, ?_, runs, fun t a _ ha hout => kept t a ha hout⟩
      refine completes_group (pre := noPre) (body := spstBody) (e := false) rfl h ha rfl ?_ ⟨rfl, rfl, rfl, rfl⟩
      rw [spstBody_runs ho, modGroup_const h.found]; rfl
    · exact issue_trap (pre := noPre) (body := spstBody) rfl h ((gate_acts ha _).trans (spstBody_traps ho hact))
  · refine ⟨fun off ho => ?_, fun hact ho => ?_⟩
    · obtain ⟨rfl, -⟩ := h.spec
      exact issue_kept (pre := noPre) (body := spldBody) rfl h ((gate_acts ha _).trans (spldBody_runs ho)) (kept_putResult ..)
    · exact issue_trap (pre := noPre) (body := spldBody) rfl h ((gate_acts ha _).trans (spldBody_traps ho hact))

end Sys2Proof.Machine
end


section
/-! Accesses to memory (R201 to R215): the families of instructions that make them, their checks, and what an access that reaches its bytes
leaves to do. -/

namespace Sys2Proof.Machine

open Sys2Proof

/-! The families -/

/-- A reduction (R210): its words, modifiers, opcode and operation. -/
def redOf : Instr → Option (W × AtomMod × BitVec 8 × MemOp)
  | .redAdd w m => some (w, m, 0xCB, .add)
  | .redMin w m => some (w, m, 0xCC, .min)
  | .redMax w m => some (w, m, 0xCD, .max)
  | .redAnd w m => some (w, m, 0xCE, .and)
  | .redOr w m => some (w, m, 0xCF, .or)
  | .redXor w m => some (w, m, 0xD0, .xor)
  | _ => none

/-- An atomic with a destination (R209): its words, modifiers, opcode, whether it compares, and its operation. -/
def atomOf : Instr → Option (W × AtomMod × BitVec 8 × Bool × MemOp)
  | .atomAdd w m => some (w, m, 0xC3, false, .add)
  | .atomMin w m => some (w, m, 0xC4, false, .min)
  | .atomMax w m => some (w, m, 0xC5, false, .max)
  | .atomAnd w m => some (w, m, 0xC6, false, .and)
  | .atomOr w m => some (w, m, 0xC7, false, .or)
  | .atomXor w m => some (w, m, 0xC8, false, .xor)
  | .atomExch w m => some (w, m, 0xC9, false, .st)
  | .cas w m => some (w, m, 0xCA, true, .st)
  | _ => none

/-- A reduction with an acquire is an atomic without a destination. -/
def Acquiring (m : AtomMod) : Prop := m.ord = .acq ∨ m.ord = .ar

theorem redOf_exec {i : Instr} {w : W} {m : AtomMod} {opc : BitVec 8} {op : MemOp} (h : redOf i = some (w, m, opc, op)) :
    ∀ s, exec i s = issue (w.fields opc m.bits) noPre (redBody m op) s := by
  unfold redOf at h
  split at h <;> cases h
  all_goals exact fun _ => rfl

theorem atomOf_exec {i : Instr} {w : W} {m : AtomMod} {opc : BitVec 8} {cas : Bool} {op : MemOp}
    (h : atomOf i = some (w, m, opc, cas, op)) : ∀ s, exec i s = issue (w.fields opc m.bits) noPre (atomBody m cas (atomOp op m.at_)) s := by
  unfold atomOf at h
  split at h <;> cases h
  all_goals exact fun _ => rfl

theorem redBody_acquiring {m : AtomMod} (h : Acquiring m) (op : MemOp) (x : Cx) : redBody m op x = atomBody m false (atomOp op m.at_) x := by
  unfold redBody
  rcases h with h | h <;> simp [h]

/-- The writes of a reduction's thread. -/
def redWrites (m : AtomMod) (op : MemOp) (x : Cx) (t : Nat) (dr : Draw) : List Write × Draw :=
  ([⟨x.addrN t, atBytes m.at_, op, m.at_, (x.read x.spec.c x.f.c t dr).1.toNat % 2 ^ (8 * atBytes m.at_)⟩], (x.read x.spec.c x.f.c t dr).2)

theorem redBody_plain {m : AtomMod} (h : ¬ Acquiring m) (op : MemOp) (x : Cx) : redBody m op x =
    match x.checkAddrs m.asp (atBytes m.at_) with
    | some r => r
    | none => if x.waitsRelease m.ord m.scope then .hold
      else x.inOrder fun x => x.writeOut m.asp .store (atBytes m.at_) (redWrites m op) m.ord (Scope.wide m.scope) := by
  have no : (m.ord == .acq || m.ord == .ar) = false := by
    unfold Acquiring at h
    push Not at h
    simp [h]
  unfold redBody
  rw [no]
  rfl

/-- Stores and reductions without an acquire, by family. -/
theorem storeRow_cases {i : Instr} {f : Fields} {spc : Space} {row : TileRow} {n : Nat} {one : Cx → Nat → Draw → List Write × Draw}
    (h : storeRow i = some (f, spc, row, n, one)) :
    (∃ w m, i = .st w m ∧ f = w.fields 0xC1 m.bits ∧ spc = m.space ∧ row = (if tyBytes m.ty < 4 then .atomic else .store) ∧ n = tyBytes m.ty ∧
      one = fun x t dr => (storeWrites m.ty (x.addrN t) (x.storeData m.ty t dr).1, (x.storeData m.ty t dr).2)) ∨
    (∃ w m, i = .bari w m ∧ f = w.fields 0xD3 m.bits ∧ spc = m.space ∧ row = .store ∧ n = 8 ∧
      one = fun x t dr => ([⟨x.addrN t, 8, .st, .i64, codeOf (x.getC t) % 2 ^ 24 * 2 ^ 32⟩], dr)) ∨
    (∃ w m opc op, redOf i = some (w, m, opc, op) ∧ ¬ Acquiring m ∧ f = w.fields opc m.bits ∧ spc = m.asp ∧ row = .store ∧
      n = atBytes m.at_ ∧ one = redWrites m op) := by
  have red : ∀ {w m opc op}, redOf i = some (w, m, opc, op) → storeRow.red w m opc op = some (f, spc, row, n, one) →
      ∃ w m opc op, redOf i = some (w, m, opc, op) ∧ ¬ Acquiring m ∧ f = w.fields opc m.bits ∧ spc = m.asp ∧ row = .store ∧
        n = atBytes m.at_ ∧ one = redWrites m op := by
    intro w m opc op hi hr
    unfold storeRow.red at hr
    split at hr
    · cases hr
    · next hna => cases hr; exact ⟨w, m, opc, op, hi, hna, rfl, rfl, rfl, rfl, rfl⟩
  unfold storeRow at h
  split at h
  · cases h; exact .inl ⟨_, _, rfl, rfl, rfl, rfl, rfl, rfl⟩
  · cases h; exact .inr (.inl ⟨_, _, rfl, rfl, rfl, rfl, rfl, rfl⟩)
  · exact .inr (.inr (red rfl h))
  · exact .inr (.inr (red rfl h))
  · exact .inr (.inr (red rfl h))
  · exact .inr (.inr (red rfl h))
  · exact .inr (.inr (red rfl h))
  · exact .inr (.inr (red rfl h))
  · cases h

/-- The operations of an atomic's acting threads. -/
def atomOps (m : AtomMod) (cas : Bool) (op : MemOp) (x : Cx) : List (Nat × (Nat → Option Nat)) × Draw :=
  x.operands m.at_ cas (atomOp op m.at_) x.each Draw.start

/-- BARA's operations. -/
def baraOps (x : Cx) : List (Nat × (Nat → Option Nat)) × Draw :=
  (x.each.map fun t => (t, fun old => some (barArrive (codeOf (x.getC t) % 2 ^ 24) old)), Draw.start)

/-- Atomics, reductions with an acquire and BARA, by family. -/
theorem atomRow_cases {i : Instr} {f : Fields} {m : AtomMod} {n : Nat} {ops : Cx → List (Nat × (Nat → Option Nat)) × Draw}
    (h : atomRow i = some (f, m, n, ops)) :
    (∃ w opc cas op, atomOf i = some (w, m, opc, cas, op) ∧ f = w.fields opc m.bits ∧ n = atBytes m.at_ ∧ ops = atomOps m cas op) ∨
    (∃ w opc op, redOf i = some (w, m, opc, op) ∧ Acquiring m ∧ f = w.fields opc m.bits ∧ n = atBytes m.at_ ∧ ops = atomOps m false op) ∨
    (∃ w, i = .bara w m ∧ f = w.fields 0xD1 m.bits ∧ n = 8 ∧ ops = baraOps) := by
  have red : ∀ {w m' opc op}, redOf i = some (w, m', opc, op) → atomRow.red w m' opc op = some (f, m, n, ops) →
      ∃ w opc op, redOf i = some (w, m, opc, op) ∧ Acquiring m ∧ f = w.fields opc m.bits ∧ n = atBytes m.at_ ∧ ops = atomOps m false op := by
    intro w m' opc op hi hr
    unfold atomRow.red at hr
    split at hr
    · next ha => cases hr; exact ⟨w, opc, op, hi, ha, rfl, rfl, rfl⟩
    · cases hr
  unfold atomRow at h
  split at h
  · cases h; exact .inl ⟨_, _, _, _, rfl, rfl, rfl, rfl⟩
  · cases h; exact .inl ⟨_, _, _, _, rfl, rfl, rfl, rfl⟩
  · cases h; exact .inl ⟨_, _, _, _, rfl, rfl, rfl, rfl⟩
  · cases h; exact .inl ⟨_, _, _, _, rfl, rfl, rfl, rfl⟩
  · cases h; exact .inl ⟨_, _, _, _, rfl, rfl, rfl, rfl⟩
  · cases h; exact .inl ⟨_, _, _, _, rfl, rfl, rfl, rfl⟩
  · cases h; exact .inl ⟨_, _, _, _, rfl, rfl, rfl, rfl⟩
  · cases h; exact .inl ⟨_, _, _, _, rfl, rfl, rfl, rfl⟩
  · exact .inr (.inl (red rfl h))
  · exact .inr (.inl (red rfl h))
  · exact .inr (.inl (red rfl h))
  · exact .inr (.inl (red rfl h))
  · exact .inr (.inl (red rfl h))
  · exact .inr (.inl (red rfl h))
  · cases h; exact .inr (.inr ⟨_, rfl, rfl, rfl, rfl⟩)
  · cases h

/-- Accesses whose addresses are checked, by family. -/
theorem accessRow_cases {i : Instr} {f : Fields} {spc : Space} {n : Nat} (h : accessRow i = some (f, spc, n)) :
    (∃ w m, i = .ld w m ∧ f = w.fields 0xC0 m.bits ∧ spc = m.space ∧ n = tyBytes m.ty) ∨
    (∃ w m, i = .barw w m ∧ f = w.fields 0xD2 m.bits ∧ spc = m.asp ∧ n = 8) ∨
    (∃ row one, storeRow i = some (f, spc, row, n, one)) ∨
    (storeRow i = none ∧ ∃ m ops, atomRow i = some (f, m, n, ops) ∧ spc = m.asp) := by
  unfold accessRow at h
  split at h
  · cases h; exact .inl ⟨_, _, rfl, rfl, rfl, rfl⟩
  · cases h; exact .inr (.inl ⟨_, _, rfl, rfl, rfl, rfl⟩)
  · split at h
    · next r hr => cases h; exact .inr (.inr (.inl ⟨_, _, hr⟩))
    · next r hs hr => cases h; exact .inr (.inr (.inr ⟨hs, _, _, hr, rfl⟩))
    · cases h

/-! Checks (R202, R203) -/

theorem filterMap_none {α β : Type} {f : α → Option β} {l : List α} (h : ∀ a ∈ l, f a = none) : l.filterMap f = [] := by
  rw [List.filterMap_eq_nil_iff]; exact h

theorem checkAddrs_none {x : Cx} {spc : Space} {n : Nat} (h : x.inBounds spc n) : x.checkAddrs spc n = none := by
  unfold Cx.checkAddrs
  split
  · rfl
  · rw [filterMap_none fun t ht => by rw [h t ht]; rfl]; rfl

theorem checkAddrs_fails {x : Cx} {spc : Space} {n t : Nat} {c : BitVec 8 × Nat} {rest : List (Nat × (BitVec 8 × Nat))}
    (hu : x.underWay = false) (h : (x.each.filterMap fun t => (x.addrFault spc (x.addr t) n).map fun c => (t, c)) = (t, c) :: rest) :
    x.checkAddrs spc n = some (.trap c.1 c.2 (x.faultLanes c ((t, c) :: rest))) := by
  unfold Cx.checkAddrs
  rw [hu, h]
  rfl

/-- BARI's checks: its address first, then its count. -/
def bariFault (x : Cx) (spc : Space) (t : Nat) : Option (BitVec 8 × Nat) :=
  (x.addrFault spc (x.addr t) 8).or (if codeOf (x.getC t) % 2 ^ 24 = 0 then some (0x01, 19) else none)

theorem bariBody_checks (m : MemMod) (x : Cx) : bariBody m x =
    match x.firstFault (x.each.filterMap fun t => (bariFault x m.space t).map fun c => (t, c)) with
    | some r => r
    | none => x.inOrder fun y => y.writeOut m.space .store 8
        (fun y t dr => ([⟨y.addrN t, 8, .st, .i64, codeOf (x.getC t) % 2 ^ 24 * 2 ^ 32⟩], dr)) .relaxed true := by
  have fails : (fun t => match x.addrFault m.space (x.addr t) 8 with
      | some c => some (t, c)
      | none => if codeOf (x.getC t) % 2 ^ 24 = 0 then some (t, trapIllegal, 19) else none) =
      fun t => (bariFault x m.space t).map fun c => (t, c) := by
    funext t
    unfold bariFault
    cases x.addrFault m.space (x.addr t) 8 with
    | some c => rfl
    | none =>
      by_cases h0 : codeOf (x.getC t) % 2 ^ 24 = 0
      · dsimp only; rw [if_pos h0, if_pos h0]; rfl
      · dsimp only; rw [if_neg h0, if_neg h0]; rfl
  exact congrArg (fun g => match x.firstFault (x.each.filterMap g) with
    | some r => r
    | none => x.inOrder fun y => y.writeOut m.space .store 8
        (fun y t dr => ([⟨y.addrN t, 8, .st, .i64, codeOf (x.getC t) % 2 ^ 24 * 2 ^ 32⟩], dr)) .relaxed true) fails

/-- Every access but BARI makes its checks first. -/
theorem accessRow_checks {i : Instr} {f : Fields} {spc : Space} {n : Nat} (h : accessRow i = some (f, spc, n)) (hb : ∀ w m, i ≠ .bari w m) :
    ∃ body, (∀ s, exec i s = issue f noPre body s) ∧ ∀ x r, x.checkAddrs spc n = some r → body x = r := by
  have atom : ∀ (m : AtomMod) cas op (x : Cx) r, x.checkAddrs m.asp (atBytes m.at_) = some r → atomBody m cas op x = r := by
    intro m cas op x r hr
    unfold atomBody; simp only [hr]
  rcases accessRow_cases h with ⟨w, m, rfl, rfl, rfl, rfl⟩ | ⟨w, m, rfl, rfl, rfl, rfl⟩ | ⟨row, one, hs⟩ | ⟨-, m, ops, ha, rfl⟩
  · exact ⟨ldBody m, fun _ => rfl, fun x r hr => by unfold ldBody; simp only [hr]⟩
  · exact ⟨barwBody m, fun _ => rfl, fun x r hr => by unfold barwBody; simp only [hr]⟩
  · rcases storeRow_cases hs with ⟨w, m, rfl, rfl, rfl, -, rfl, -⟩ | ⟨w, m, rfl, -⟩ | ⟨w, m, opc, op, hi, hna, rfl, rfl, -, rfl, -⟩
    · exact ⟨stBody m, fun _ => rfl, fun x r hr => by unfold stBody Cx.writeOut; simp only [hr]⟩
    · exact absurd rfl (hb w m)
    · exact ⟨redBody m op, redOf_exec hi, fun x r hr => by rw [redBody_plain hna]; simp only [hr]⟩
  · rcases atomRow_cases ha with ⟨w, opc, cas, op, hi, rfl, rfl, -⟩ | ⟨w, opc, op, hi, hac, rfl, rfl, -⟩ | ⟨w, rfl, rfl, rfl, -⟩
    · exact ⟨_, atomOf_exec hi, fun x r hr => atom m cas _ x r hr⟩
    · exact ⟨_, redOf_exec hi, fun x r hr => by rw [redBody_acquiring hac]; exact atom m _ _ x r hr⟩
    · exact ⟨baraBody m, fun _ => rfl, fun x r hr => by unfold baraBody; simp only [hr]⟩

/-- Settles O21. -/
theorem addressTraps : Obligations.AddressTraps := by
  refine ⟨fun i f spc n s x t c rest hi hb h ha hu hf => ?_, fun w m s x t c rest h ha hf => ?_⟩
  · obtain ⟨body, he, hr⟩ := accessRow_checks hi hb
    exact issue_trap (he s) h ((gate_acts ha _).trans (hr x _ (checkAddrs_fails hu hf)))
  · refine issue_trap (pre := noPre) (body := bariBody m) rfl h ((gate_acts ha _).trans ?_)
    rw [bariBody_checks, show (x.each.filterMap fun t => (bariFault x m.space t).map fun c => (t, c)) = (t, c) :: rest from hf]
    rfl

/-! Accesses that reach their bytes (R185, R255) -/

theorem access_reaches {x : Cx} {spc : Space} {row : TileRow} {n : Nat} {addrs : List Nat} {entries : TileRef → List HodEntry}
    (h : x.Reaches spc row n addrs entries) (effect : Cx → Fate) (at_ : Nat → Int) :
    x.access spc row addrs n entries effect at_ = effect (x.reachedAt spc at_) := by
  have clear : (addrs.any fun a => x.drained spc a n) = false := by
    rw [List.any_eq_false]; intro a ha; rw [h.clear a ha]; exact Bool.false_ne_true
  have ready : (if spc == .tw then x.waitsFor row addrs n entries else []) = [] := by
    split
    · next ht => exact h.ready (by simpa using ht)
    · rfl
  unfold Cx.access
  simp only [clear, Bool.false_eq_true, if_false, ready, List.isEmpty_nil, if_true]
  rfl

theorem kept_reachedAt (x : Cx) (spc : Space) (at_ : Nat → Int) : Kept x.s (x.reachedAt spc at_).s :=
  (kept_unhold ..).trans (kept_sample ..)

theorem calm_reachedAt (x : Cx) (spc : Space) (at_ : Nat → Int) : Calm x.s (x.reachedAt spc at_).s :=
  (calm_unhold ..).trans (calm_sample ..)

theorem ownFirst_ctx (x : Cx) (spc : Space) (addrs : List Nat) (n : Nat) :
    x.ownFirst spc addrs n = { x with s := (x.ownFirst spc addrs n).s } := by
  unfold Cx.ownFirst; split <;> rfl

theorem Cx.Alike.trans {x y z : Cx} (h : x.Alike y) (k : y.Alike z) : x.Alike z :=
  ⟨k.g.trans h.g, k.f.trans h.f, k.spec.trans h.spec, k.act.trans h.act, k.fpctl.trans h.fpctl, k.sh.trans h.sh, k.idx.trans h.idx,
    k.grid.trans h.grid, k.ctx.trans h.ctx, k.nthr.trans h.nthr, k.dev.trans h.dev, k.cycle.trans h.cycle, k.grids.trans h.grids⟩

/-- The context in which a load reads: its own pending operations performed. -/
theorem alike_loads (x : Cx) (spc : Space) (at_ : Nat → Int) (addrs : List Nat) (n : Nat) :
    x.Alike ((x.reachedAt spc at_).ownFirst spc addrs n) := by
  rw [ownFirst_ctx]
  exact ((calm_reachedAt x spc at_).trans (calm_ownFirst ..)).alike

theorem kept_loads (x : Cx) (spc : Space) (at_ : Nat → Int) (addrs : List Nat) (n : Nat) :
    Kept x.s ((x.reachedAt spc at_).ownFirst spc addrs n).s := (kept_reachedAt ..).trans (kept_ownFirst ..)

/-- Settles O22. -/
theorem loadsInFlight : Obligations.LoadsInFlight := by
  intro w m s x h ha hin hr y
  obtain ⟨rfl, -⟩ := h.spec
  have like : x.Alike y := alike_loads ..
  have hx : x.gate noPre (ldBody m) = .done (((y.s.sampleDone y m.space).putResult y .mem
      (x.each.flatMap fun t => regWrites x.f.dst t (loadedWords m.ty (y.loadN m.space t (x.addrN t) (tyBytes m.ty))))
      [] 0 [] [] y.tagged).touchAll (if m.space == .tw then y.tilesAt (x.each.map x.addrN) else [])) none false := by
    rw [gate_acts ha]
    unfold ldBody
    simp only [checkAddrs_none hin]
    rw [access_reaches hr]
    simp only [show (x.reachedAt m.space x.addrOf).ownFirst m.space (x.each.map x.addrN) (tyBytes m.ty) = y from rfl, like.each, like.f,
      like.addrN]
    rfl
  exact issue_kept (pre := noPre) rfl h hx ((kept_loads ..).trans ((kept_sampleDone ..).trans ((kept_putResult ..).trans (kept_touchAll ..))))

/-! Column loads (R208) -/

/-- The address of row r of thread t's column, and what is wrong with the column. -/
def ldtAt (m : MemMod) (x : Cx) (t r : Nat) : Int := x.addr 0 + r * codeOf (x.getC 0) + t * ldtWidth m.ty
def ldtSize (m : MemMod) (x : Cx) : Nat := if m.space == .sh then x.b.shmem else x.c.scSize
def ldtFault (m : MemMod) (x : Cx) (t : Nat) : Option (BitVec 8 × Nat) :=
  if decide (x.addr 0 % ldtWidth m.ty ≠ 0) || decide (codeOf (x.getC 0) % ldtWidth m.ty ≠ 0) then some (trapIllegal, 16)
  else if (List.range (16 / ldtWidth m.ty)).any fun r => decide (ldtAt m x t r < 0 ∨ (ldtSize m x : Int) < ldtAt m x t r + ldtWidth m.ty)
    then some (trapIllegal, 17) else none

/-- The words of thread t's column in a context. -/
def ldtWord (m : MemMod) (x y : Cx) (t j : Nat) : Word :=
  BitVec.ofNat 32 ((List.range (4 / ldtWidth m.ty)).foldr (fun i n =>
    y.loadN m.space t (ldtAt m x t (4 / ldtWidth m.ty * j + i)).toNat (ldtWidth m.ty) + 256 ^ ldtWidth m.ty * n) 0)

def ldtAddrs (m : MemMod) (x : Cx) : List Nat :=
  x.threads.flatMap fun t => (List.range (16 / ldtWidth m.ty)).map fun r => (ldtAt m x t r).toNat

theorem ldtBody_checks (m : MemMod) (x : Cx) : ldtBody m x =
    match x.firstFault (x.threads.filterMap fun t => (ldtFault m x t).map fun c => (t, c)) with
    | some r => r
    | none => x.access m.space .load (ldtAddrs m x) (ldtWidth m.ty) (fun _ => []) (fun z =>
        let y := z.ownFirst m.space (ldtAddrs m x) (ldtWidth m.ty)
        .done (y.loadResult m.space (y.threads.flatMap fun t => regWrites y.f.dst t ((List.range 4).map (ldtWord m x y t)))) none false)
        (fun t => ldtAt m x t 0) := rfl

theorem ldtFault_none {m : MemMod} {x : Cx} {t : Nat} (h1 : x.addr 0 % ldtWidth m.ty = 0) (h2 : codeOf (x.getC 0) % ldtWidth m.ty = 0)
    (h : ∀ r < 16 / ldtWidth m.ty, 0 ≤ ldtAt m x t r ∧ ldtAt m x t r + ldtWidth m.ty ≤ ldtSize m x) : ldtFault m x t = none := by
  unfold ldtFault
  rw [if_neg (by simp [h1, h2]), if_neg]
  rw [Bool.not_eq_true, List.any_eq_false]
  intro r hr
  have := h r (List.mem_range.mp hr)
  simp only [decide_eq_true_eq]
  omega

/-- The misaligned column: every acting thread fails alike. -/
theorem ldtFault_misaligned {m : MemMod} {x : Cx} (h : x.addr 0 % ldtWidth m.ty ≠ 0 ∨ codeOf (x.getC 0) % ldtWidth m.ty ≠ 0) (t : Nat) :
    ldtFault m x t = some (0x01, 16) := by
  unfold ldtFault
  rw [if_pos]
  · rfl
  · simpa using h

/-- Threads of a list that fail with one and the same cause. -/
theorem firstFault_same {x : Cx} {c : BitVec 8 × Nat} {l : List Nat} (hl : l ≠ []) :
    x.firstFault (l.map fun t => (t, c)) = some (.trap c.1 c.2 (if x.f.s then x.g.amask else Mask.ofList l)) := by
  have lanes : ((l.map fun t => (t, c)).filter fun e => e.2 == c).map (·.1) = l := by
    rw [List.filter_eq_self.mpr (by simp), List.map_map]
    exact List.map_id _
  cases l with
  | nil => exact absurd rfl hl
  | cons t ts => exact congrArg (fun l' => some (Fate.trap c.1 c.2 (if x.f.s then x.g.amask else Mask.ofList l'))) lanes

theorem filterMap_fails {α β : Type} {c : β} {p : α → Bool} {f : α → Option β} (hf : ∀ a, f a = if p a then some c else none) (l : List α) :
    (l.filterMap fun a => (f a).map fun c => (a, c)) = (l.filter p).map fun a => (a, c) := by
  induction l with
  | nil => rfl
  | cons a l ih =>
    rw [List.filterMap_cons, List.filter_cons, hf a, ih]
    cases p a <;> rfl

/-- The lanes of a column load that fails in all its threads. -/
theorem lanes_act {s : State} {f : Fields} {x : Cx} (h : Solo s f x) :
    (if x.f.s then x.g.amask else Mask.ofList x.threads) = x.act := by
  obtain ⟨-, -, -, -, rfl, -, act⟩ := h.spec
  unfold Cx.threads
  rw [ofList_threads, act]
  cases x.f.s <;> rfl

/-- Settles O23. -/
theorem columnLoads : Obligations.ColumnLoads := by
  intro w m s x h ha hsp
  obtain ⟨rfl, -⟩ := h.spec
  intro e stride at_ size bad
  have out : ∀ t, x.addr 0 % e = 0 → stride % e = 0 → ldtFault m x t =
      if (List.range (16 / e)).any (fun r => decide (at_ t r < 0 ∨ (size : Int) < at_ t r + e)) then some (0x01, 17) else none := by
    intro t h1 h2
    unfold ldtFault
    rw [if_neg (by simp only [e, stride] at h1 h2; rw [h1, h2]; decide)]
    rfl
  refine ⟨fun hne hmis => ?_, fun h1 h2 hbad => ?_, fun h1 h2 hin => ?_⟩
  · refine issue_trap (pre := noPre) (body := ldtBody m) rfl h ((gate_acts ha _).trans ?_)
    rw [ldtBody_checks, show (fun t => (ldtFault m x t).map fun c => (t, c)) = fun t => some (t, ((0x01 : BitVec 8), 16)) from
      funext fun t => by rw [ldtFault_misaligned hmis]; rfl, List.filterMap_eq_map', firstFault_same hne, lanes_act h]
  · refine issue_trap (pre := noPre) (body := ldtBody m) rfl h ((gate_acts ha _).trans ?_)
    rw [ldtBody_checks, filterMap_fails (fun t => out t h1 h2), firstFault_same hbad, h.spec.2.2.2.2.1]
  · intro y
    have like : x.Alike y := alike_loads ..
    have fits : (x.threads.filterMap fun t => (ldtFault m x t).map fun c => (t, c)) = [] :=
      filterMap_none fun t ht => by rw [ldtFault_none h1 h2 fun r hr => ⟨(hin t ht r hr).1, (hin t ht r hr).2.1⟩]; rfl
    have reach : x.Reaches m.space .load e (ldtAddrs m x) fun _ => [] := by
      refine ⟨fun a hm => ?_, fun tw => ?_⟩
      · obtain ⟨t, ht, hr⟩ := List.mem_flatMap.mp hm
        obtain ⟨r, inside, rfl⟩ := List.mem_map.mp hr
        exact (hin t ht r (List.mem_range.mp inside)).2.2
      · rcases hsp with sp | sp <;> rw [tw] at sp <;> cases sp
    have hx : x.gate noPre (ldtBody m) = .done (y.loadResult m.space
        (y.threads.flatMap fun t => regWrites y.f.dst t ((List.range 4).map (ldtWord m x y t)))) none false := by
      rw [gate_acts ha, ldtBody_checks, fits]
      exact access_reaches reach _ _
    rw [like.threads, like.f] at hx
    exact issue_kept (pre := noPre) rfl h hx ((kept_loads ..).trans ((kept_sampleDone ..).trans (kept_putResult ..)))

end Sys2Proof.Machine
end


section
/-! Memory instructions that wait (R118, R206): BARA on spill data, whose words no decoder gives. -/

namespace Sys2Proof.Machine

open Sys2Proof Sys2Proof.Tests

/-- The modifiers of a BARA that names `.sp`, which AtomMod.ofBits refuses (R213): its operands have no classes, its destination none. -/
def spillBarrier : AtomMod := ⟨.blk, .relaxed, .sp, .i32⟩

/-- Refutes O28, in RejWritesWait: with `.sp` a BARA counts as an instruction without a destination, but it makes its operations at once,
its C operand naming a REJ register or not. -/
theorem not_memoryWaits : ¬ Obligations.MemoryWaits := by
  rintro ⟨-, -, -, -, stays⟩
  obtain ⟨x, solo, acts, rej, fresh, nil, fits, ready, sync, held, stayed⟩ : Meets withRej (rejSt.fields 0xD1 spillBarrier.bits) fun x =>
      x.namesRej = true ∧ x.g.stayDone = false ∧ x.spec.dst.nil = true ∧ x.inBounds .sp 8 ∧ x.waitsRelease .relaxed .blk = false ∧
      x.syncWaits = false ∧ x.g.rejHeld = none ∧
      let u := x.drawsBegin ((x.afterSync.s.sample x .sp x.addrOf).modGroup x.g.gid fun g => { g with reissue := true })
      ((u.modGroup x.g.gid fun g => g.stayFrom u.cycle).group? 1).map (·.stay) = some true :=
    .dec (by intro x; delta Cx.inBounds; infer_instance) (by decide)
  obtain ⟨t, ht, booked⟩ := (stays (.bara rejSt spillBarrier) _ .sp 8 withRej x rfl (by simp) (by simp) nil solo acts rej fresh fits ready
    (.inr sync)).2 held
  have left : (match exec (.bara rejSt spillBarrier) withRej with | .next t => (t.group? 1).map (·.stay) | _ => none) = some false := by decide
  have same := congrArg (Option.map Group.stay) (booked.groups 1)
  rw [ht] at left
  simp only [Option.map_map] at same
  exact absurd (left.symm.trans (same.trans stayed)) (by decide)

end Sys2Proof.Machine
end


section
/-! Writes to memory and atomic operations (R205 to R214, R224, R225): what each instruction of these families does once its checks are
made and what came before it is in order. -/

namespace Sys2Proof.Machine

open Sys2Proof

/-! Order among a group's atomic operations (R225) -/

/-- x with what is on its way to the scratchpads as given. -/
def Cx.withScratch (x : Cx) (m : Memory) (l : List ScWrite) : Cx := { x with s := { x.s with scratch := m, scw := l } }

theorem afterSync_scratch (x : Cx) : ∃ m l, x.afterSync = x.withScratch m l := by
  unfold Cx.afterSync State.syncFirst
  split
  · exact ⟨x.s.scratch, x.s.scw, rfl⟩
  · split
    · exact ⟨_, _, rfl⟩
    · exact ⟨x.s.scratch, x.s.scw, rfl⟩

theorem placed_scratch (x : Cx) (i : Instr) : ∃ m l, x.placed i = x.withScratch m l := by
  unfold Cx.placed
  split
  · exact ⟨x.s.scratch, x.s.scw, rfl⟩
  · exact afterSync_scratch x

theorem alike_withScratch (x : Cx) (m : Memory) (l : List ScWrite) : x.Alike (x.withScratch m l) :=
  ⟨rfl, rfl, rfl, rfl, rfl, rfl, rfl, rfl, rfl, rfl, rfl, rfl, rfl⟩

theorem kept_withScratch (x : Cx) (m : Memory) (l : List ScWrite) : Kept x.s (x.withScratch m l).s := .of_eq rfl rfl

theorem inOrder_follows {x : Cx} (h : x.syncWaits = false) (run : Cx → Fate) : x.inOrder run = run x.afterSync := by
  unfold Cx.inOrder; rw [h]; rfl

theorem drawFirst_run {x : Cx} (h : x.namesRej = true → x.g.stayDone = true) (spc : Space) (run : Cx → Fate) : x.drawFirst spc run = run x := by
  have : (x.namesRej && !x.g.stayDone && x.g.rejHeld.isNone) = false := by
    cases hr : x.namesRej
    · rfl
    · simp [h hr]
  unfold Cx.drawFirst
  rw [this]
  refine rejHold_run ?_ run
  cases hr : x.namesRej
  · exact .inl rfl
  · exact .inr (h hr)

/-! Stores, reductions without an acquire and BARI -/

/-- What such an instruction leaves once its access, made in the context y, reaches its bytes. -/
def Cx.wrote (y : Cx) (spc : Space) (ws : List (Nat × List Write)) (dr : Draw) (ord : Ord) (sync : Bool) : State :=
  let u := ((y.s.ordered y ord).sampleDone y spc).commitDraws y dr
  if spc == .tw then y.writeTiles (ws.flatMap (·.2)) sync u else ws.foldl (fun v e => y.writeAll spc e.1 e.2 sync v) u

/-- The access by which the writes go out, `per` giving those of a thread. -/
def Cx.writesOut (x : Cx) (spc : Space) (row : TileRow) (n : Nat) (per : Nat → Draw → List Write × Draw) (ord : Ord) (sync : Bool) : Fate :=
  x.access spc row (x.each.map x.addrN) n (x.entriesIn ((writesOf x per x.each Draw.start).1.flatMap (·.2)))
    fun y => .done (y.wrote spc (writesOf x per x.each Draw.start).1 (writesOf x per x.each Draw.start).2 ord sync) none false

theorem writeOut_run {x : Cx} {spc : Space} {n : Nat} {one : Cx → Nat → Draw → List Write × Draw} {per : Nat → Draw → List Write × Draw}
    (hin : x.inBounds spc n) (hd : x.namesRej = true → x.g.stayDone = true) (hp : one x = per) (row : TileRow) (ord : Ord) (sync : Bool) :
    x.writeOut spc row n one ord sync = x.writesOut spc row n per ord sync := by
  subst hp
  unfold Cx.writeOut
  simp only [checkAddrs_none hin]
  exact drawFirst_run hd ..

theorem writesOf_ctx (x y : Cx) (per : Nat → Draw → List Write × Draw) (l : List Nat) (dr : Draw) : writesOf x per l dr = writesOf y per l dr := by
  induction l generalizing dr with
  | nil => rfl
  | cons t ts ih => unfold writesOf; simp only [ih]

theorem storeData_alike {x y : Cx} (h : x.Alike y) (ty : Ty) (t : Nat) (dr : Draw) : y.storeData ty t dr = x.storeData ty t dr := by
  unfold Cx.storeData; rw [h.run, h.read, h.f, h.spec]

/-- What a thread writes is told by what contexts have alike. -/
theorem storeRow_alike {i : Instr} {f : Fields} {spc : Space} {row : TileRow} {n : Nat} {one : Cx → Nat → Draw → List Write × Draw}
    (hi : storeRow i = some (f, spc, row, n, one)) {x y : Cx} (h : x.Alike y) : one y = one x := by
  rcases storeRow_cases hi with ⟨w, m, -, -, -, -, -, rfl⟩ | ⟨w, m, -, -, -, -, -, rfl⟩ | ⟨w, m, opc, op, -, -, -, -, -, -, rfl⟩
  · funext t dr; dsimp only; rw [h.addrN, storeData_alike h]
  · funext t dr; dsimp only; rw [h.addrN, h.getC]
  · funext t dr; unfold redWrites; rw [h.addrN, h.read, h.f, h.spec]

theorem dst_store (w : W) (m : MemMod) (o : BitVec 8) (ho : o = 0xC1 ∨ o = 0xD3) : (specOf (w.fields o m.bits)).dst.nil = true := by
  rcases ho with rfl | rfl
  all_goals
    show (((MemMod.ofBits m.bits).map _).getD ({} : Spec)).dst.nil = true
    rw [MemMod.ofBits_bits]; rfl

theorem redOf_dst {i : Instr} {w : W} {m : AtomMod} {opc : BitVec 8} {op : MemOp} (h : redOf i = some (w, m, opc, op)) :
    (specOf (w.fields opc m.bits)).dst.nil = true := by
  unfold redOf at h
  split at h <;> cases h
  all_goals
    show (((AtomMod.ofBits m.bits).map _).getD ({} : Spec)).dst.nil = true
    cases AtomMod.ofBits m.bits <;> rfl

theorem redOf_row {i : Instr} {w : W} {m : AtomMod} {opc : BitVec 8} {op : MemOp} (h : redOf i = some (w, m, opc, op)) :
    storeOrd i = m.ord ∧ storeSync i = Scope.wide m.scope ∧ isPlain i = false ∧
      ∀ x, (accessReady i x ↔ x.waitsRelease m.ord m.scope = false) ∧
        (drawsDone i x ↔ (x.spec.dst.nil = true → x.namesRej = true → x.g.stayDone = true)) := by
  unfold redOf at h
  split at h <;> cases h
  all_goals exact ⟨rfl, rfl, rfl, fun _ => ⟨Iff.rfl, Iff.rfl⟩⟩

/-- The writes of a store, a reduction or BARI go out in the context in which it is made. -/
theorem storeRow_body {i : Instr} {f : Fields} {spc : Space} {row : TileRow} {n : Nat} {one : Cx → Nat → Draw → List Write × Draw}
    (h : storeRow i = some (f, spc, row, n, one)) :
    ∃ body, (∀ s, exec i s = issue f noPre body s) ∧ ∀ x, x.spec = specOf f → x.inBounds spc n → accessReady i x → inOrder i x →
      drawsDone i x → body x = (x.placed i).writesOut spc row n (one x) (storeOrd i) (storeSync i) := by
  have alike := fun {x y : Cx} => storeRow_alike h (x := x) (y := y)
  rcases storeRow_cases h with ⟨w, m, rfl, rfl, rfl, rfl, rfl, rfl⟩ | ⟨w, m, rfl, rfl, rfl, rfl, rfl, rfl⟩ |
    ⟨w, m, opc, op, hi, hna, rfl, rfl, rfl, rfl, rfl⟩
  · refine ⟨stBody m, fun _ => rfl, fun x hs hin _ _ hd => ?_⟩
    have narrow : (if decide (tyBytes m.ty < 4) = true then TileRow.atomic else .store) = if tyBytes m.ty < 4 then .atomic else .store := by
      simp only [decide_eq_true_eq]
    have out := writeOut_run (one := fun x t dr => (storeWrites m.ty (x.addrN t) (x.storeData m.ty t dr).1, (x.storeData m.ty t dr).2)) hin
      (hd (by rw [hs]; exact dst_store w m _ (.inl rfl))) rfl (if decide (tyBytes m.ty < 4) then .atomic else .store) .relaxed false
    rw [← narrow]
    exact out
  · refine ⟨bariBody m, fun _ => rfl, fun x hs hin hc ho hd => ?_⟩
    obtain ⟨mem, l, hz⟩ := afterSync_scratch x
    have done : x.namesRej = true → x.g.stayDone = true := hd (by rw [hs]; exact dst_store w m _ (.inr rfl))
    have sync : x.syncWaits = false := ho.resolve_left (by simp [isPlain])
    have passes : (x.each.filterMap fun t => (bariFault x m.space t).map fun c => (t, c)) = [] :=
      filterMap_none fun t ht => by unfold bariFault; rw [hin t ht, if_neg (hc t ht)]; rfl
    rw [bariBody_checks, passes]
    show x.inOrder _ = _
    rw [inOrder_follows sync, show x.placed (.bari w m) = x.afterSync from rfl, hz]
    refine writeOut_run (x := x.withScratch mem l) hin done ?_ ..
    funext t dr
    rw [(alike_withScratch x mem l).addrN]
  · obtain ⟨ho, hs, hp, hr⟩ := redOf_row hi
    rw [ho, hs]
    refine ⟨redBody m op, redOf_exec hi, fun x hspec hin hc hord hd => ?_⟩
    obtain ⟨mem, l, hz⟩ := afterSync_scratch x
    have done : x.namesRej = true → x.g.stayDone = true := (hr x).2.mp hd (by rw [hspec]; exact redOf_dst hi)
    have sync : x.syncWaits = false := hord.resolve_left (by simp [hp])
    rw [redBody_plain hna]
    simp only [checkAddrs_none hin, (hr x).1.mp hc, Bool.false_eq_true, if_false]
    rw [inOrder_follows sync, show x.placed i = x.afterSync by unfold Cx.placed; rw [hp]; rfl, hz]
    exact writeOut_run (x := x.withScratch mem l) hin done (alike (alike_withScratch x mem l)) ..

theorem kept_wrote (y : Cx) (spc : Space) (ws : List (Nat × List Write)) (dr : Draw) (ord : Ord) (sync : Bool) :
    Kept y.s (y.wrote spc ws dr ord sync) := by
  have before : Kept y.s (((y.s.ordered y ord).sampleDone y spc).commitDraws y dr) :=
    (kept_ordered ..).trans ((kept_sampleDone ..).trans (kept_commitDraws ..))
  unfold Cx.wrote
  dsimp only
  split
  · exact before.trans (kept_writeTiles ..)
  · exact before.trans (Kept.foldl (fun v e => kept_writeAll ..) ws _)

/-- Instructions of these families whose accesses reach their bytes. -/
theorem storeRow_done {i : Instr} {f : Fields} {spc : Space} {row : TileRow} {n : Nat} {one : Cx → Nat → Draw → List Write × Draw}
    {s : State} {x : Cx} (hi : storeRow i = some (f, spc, row, n, one)) (h : Solo s f x) (ha : x.Acts) (hin : x.inBounds spc n)
    (hc : accessReady i x) (ho : inOrder i x) (hd : drawsDone i x)
    (hr : (x.placed i).Reaches spc row n (x.each.map x.addrN) (x.entriesIn ((x.writes one).flatMap (·.2)))) :
    Completes i s (((x.placed i).reached spc).wrote spc (x.writes one) (writesOf x (one x) x.each Draw.start).2 (storeOrd i) (storeSync i))
      x.g.gid f none := by
  obtain ⟨body, he, hb⟩ := storeRow_body hi
  obtain ⟨hs, -, -, -, -, hspec, -⟩ := h.spec
  obtain ⟨mem, l, hz⟩ := placed_scratch x i
  have hx : x.gate noPre body = .done (((x.placed i).reached spc).wrote spc (x.writes one) (writesOf x (one x) x.each Draw.start).2
      (storeOrd i) (storeSync i)) none false := by
    rw [gate_acts ha, hb x hspec hin hc ho hd]
    rw [hz] at hr ⊢
    unfold Cx.writesOut
    rw [writesOf_ctx (x.withScratch mem l) x]
    exact access_reaches hr _ _
  refine issue_kept (he s) h hx ?_
  rw [hz, ← hs]
  exact (kept_withScratch x mem l).trans ((kept_reachedAt ..).trans (kept_wrote ..))

/-- Settles O24. -/
theorem storesComplete : Obligations.StoresComplete := by
  intro i f spc row n one s x hi h ha hin hc ho hd hr y u
  have done := storeRow_done hi h ha hin hc ho hd hr
  unfold Cx.wrote at done
  simpa only [beq_iff_eq] using done

end Sys2Proof.Machine
end


section
/-! Atomic operations (R206, R209 to R211, R214): the operations of the acting threads, and the values they found. -/

namespace Sys2Proof.Machine

open Sys2Proof

/-- What an atomic leaves after u: its draws committed, and the registers ws in flight where it has a destination. -/
def Cx.returns (y : Cx) (u : State) (ws : List RegW) (dr : Draw) : State :=
  if y.spec.dst.nil then u.commitDraws y dr
  else if y.namesRej then (u.commitNone y dr).putResult y .mem ws dr.pos dr.words (rejxOf dr.qstat) [] y.tagged
  else (u.commitDraws y dr).putResult y .mem ws [] 0 [] [] y.tagged

theorem modGroup_id (s : State) (gid : Nat) : s.modGroup gid (fun g => g) = s := by
  cases hg : s.group? gid with
  | none => unfold State.modGroup; rw [hg]
  | some g => rw [modGroup_eq hg, setGroup_self (by rw [group?_gid hg]; exact hg)]

/-- No draws: nothing to commit. -/
theorem returns_start {y : Cx} (h : y.spec.dst.nil = false) (u : State) (ws : List RegW) :
    y.returns u ws Draw.start = u.putResult y .mem ws [] 0 [] [] y.tagged := by
  have none : u.commitNone y Draw.start = u := modGroup_id u y.g.gid
  unfold Cx.returns
  rw [h, none]
  cases y.namesRej <;> rfl

theorem kept_returns (y : Cx) (u : State) (ws : List RegW) (dr : Draw) : Kept u (y.returns u ws dr) := by
  unfold Cx.returns
  split
  · exact kept_commitDraws ..
  · split
    · exact (kept_commitNone ..).trans (kept_putResult ..)
    · exact (kept_commitDraws ..).trans (kept_putResult ..)

/-- What the operations `ops` leave, made in the context y, `after` following them and `regs` being the registers that the old values
go to. -/
def Cx.swapped (y : Cx) (spc : Space) (n : Nat) (ops : List (Nat × (Nat → Option Nat)) × Draw) (after : State → State)
    (regs : List (Nat × Nat) → List RegW) : State :=
  let r := y.swapAll spc n ops.1 (y.s.sampleDone y spc)
  y.returns (after r.2) (regs r.1) ops.2

theorem kept_swapped {y : Cx} {after : State → State} (h : ∀ u, Kept u (after u)) (spc : Space) (n : Nat)
    (ops : List (Nat × (Nat → Option Nat)) × Draw) (regs : List (Nat × Nat) → List RegW) : Kept y.s (y.swapped spc n ops after regs) :=
  (kept_sampleDone ..).trans ((kept_swapAll ..).trans ((h _).trans (kept_returns ..)))

/-- The registers that ATOM's and CAS's old values go to. -/
def oldRegs (m : AtomMod) (dst : BitVec 9) (olds : List (Nat × Nat)) : List RegW :=
  olds.flatMap fun e => regWrites dst e.1 (wordsOf (if m.at_ == .i64 then 2 else 1) (BitVec.ofNat 64 e.2))

/-- The registers that BARA's phases go to. -/
def phaseRegs (dst : BitVec 9) (olds : List (Nat × Nat)) : List RegW :=
  olds.flatMap fun e => regWrites dst e.1 [BitVec.ofNat 32 (barPhase e.2)]

theorem operands_alike {x y : Cx} (h : x.Alike y) (ty : At) (cas : Bool) (op : Nat → Nat → Nat) (l : List Nat) (dr : Draw) :
    y.operands ty cas op l dr = x.operands ty cas op l dr := by
  induction l generalizing dr with
  | nil => rfl
  | cons t ts ih => unfold Cx.operands; simp only [ih, h.run, h.read, h.f, h.spec]

section
variable {m : AtomMod} {x : Cx} {n : Nat} (hin : x.inBounds m.asp n) (hw : x.waitsRelease m.ord m.scope = false) (hs : x.syncWaits = false)
  (hr : x.afterSync.Reaches m.asp .atomic n (x.each.map x.addrN) fun _ => [])
include hin hw hs hr

theorem atomBody_reaches (hn : n = atBytes m.at_) (hd : x.spec.dst.nil = true → x.namesRej = true → x.g.stayDone = true) (cas : Bool)
    (op : Nat → Nat → Nat) :
    let y := x.afterSync.reached m.asp
    atomBody m cas op x = .done (y.swapped m.asp n (x.operands m.at_ cas op x.each Draw.start)
      (fun u => (u.critical y m.ord).ordered y m.ord) (oldRegs m x.f.dst)) none false := by
  subst hn
  obtain ⟨mem, l, hz⟩ := afterSync_scratch x
  have run : ∀ run : Cx → Fate, (if (x.withScratch mem l).spec.dst.nil then (x.withScratch mem l).drawFirst m.asp run
      else run (x.withScratch mem l)) = run (x.withScratch mem l) := by
    intro run
    split
    · next nil => exact drawFirst_run (x := x.withScratch mem l) (hd nil) ..
    · rfl
  have like : x.Alike ((x.withScratch mem l).reached m.asp) := (alike_withScratch x mem l).trans (calm_reachedAt ..).alike
  unfold atomBody
  simp only [checkAddrs_none hin, hw, Bool.false_eq_true, if_false]
  rw [inOrder_follows hs, hz]
  rw [hz] at hr
  refine (run _).trans ((access_reaches hr _ _).trans ?_)
  rw [← operands_alike (alike_withScratch x mem l), ← like.f]
  rfl

theorem baraBody_reaches (hn : n = 8) (hd : x.spec.dst.nil = false) :
    let y := x.afterSync.reached m.asp
    baraBody m x = .done (y.swapped m.asp n (baraOps x) (fun u => u.ordered y m.ord) (phaseRegs x.f.dst)) none false := by
  subst hn
  obtain ⟨mem, l, hz⟩ := afterSync_scratch x
  have like : x.Alike ((x.withScratch mem l).reached m.asp) := (alike_withScratch x mem l).trans (calm_reachedAt ..).alike
  unfold baraBody
  simp only [checkAddrs_none hin, hw, Bool.false_eq_true, if_false]
  rw [inOrder_follows hs, hz]
  rw [hz] at hr
  refine (access_reaches hr _ _).trans ?_
  unfold Cx.swapped baraOps
  rw [returns_start (by rw [like.spec]; exact hd), ← like.f]
  rfl

end

/-- An instruction that makes ATOM's operations. -/
structure Atomic (i : Instr) (m : AtomMod) : Prop where
  after : ∀ y, atomAfter i m y = fun u => (u.critical y m.ord).ordered y m.ord
  regs : ∀ f, atomRegs i f m = oldRegs m f.dst
  draws : ∀ x, drawsDone i x → x.spec.dst.nil = true → x.namesRej = true → x.g.stayDone = true

theorem atomic_atomOf {i : Instr} {w : W} {m : AtomMod} {opc : BitVec 8} {cas : Bool} {op : MemOp}
    (h : atomOf i = some (w, m, opc, cas, op)) : Atomic i m := by
  unfold atomOf at h
  split at h <;> cases h
  all_goals exact ⟨fun _ => rfl, fun _ => rfl, fun _ h => h⟩

theorem atomic_redOf {i : Instr} {w : W} {m : AtomMod} {opc : BitVec 8} {op : MemOp} (h : redOf i = some (w, m, opc, op)) : Atomic i m := by
  unfold redOf at h
  split at h <;> cases h
  all_goals exact ⟨fun _ => rfl, fun _ => rfl, fun _ h => h⟩

theorem dst_bara (w : W) {m : AtomMod} (hm : m.asp ≠ .sp) : (specOf (w.fields 0xD1 m.bits)).dst.nil = false := by
  show (((AtomMod.ofBits m.bits).map (specAtom 0xD1 w.uni)).getD ({} : Spec)).dst.nil = false
  rw [AtomMod.ofBits_bits m hm]
  cases w.uni <;> rfl

theorem atomRow_body {i : Instr} {f : Fields} {m : AtomMod} {n : Nat} {ops : Cx → List (Nat × (Nat → Option Nat)) × Draw}
    (h : atomRow i = some (f, m, n, ops)) (hm : m.asp ≠ .sp) :
    ∃ body, (∀ s, exec i s = issue f noPre body s) ∧ ∀ x, x.spec = specOf f → x.f = f → x.inBounds m.asp n →
      x.waitsRelease m.ord m.scope = false → x.syncWaits = false → drawsDone i x →
      x.afterSync.Reaches m.asp .atomic n (x.each.map x.addrN) (fun _ => []) →
      let y := x.afterSync.reached m.asp
      body x = .done (y.swapped m.asp n (ops x) (atomAfter i m y) (atomRegs i f m)) none false := by
  rcases atomRow_cases h with ⟨w, opc, cas, op, hi, rfl, rfl, rfl⟩ | ⟨w, opc, op, hi, hac, rfl, rfl, rfl⟩ | ⟨w, rfl, rfl, rfl, rfl⟩
  · obtain ⟨after, regs, draws⟩ := atomic_atomOf hi
    refine ⟨_, atomOf_exec hi, fun x _ hf hin hw hs hd hr => ?_⟩
    intro y
    rw [after, regs, ← hf]
    exact atomBody_reaches hin hw hs hr rfl (draws x hd) ..
  · obtain ⟨after, regs, draws⟩ := atomic_redOf hi
    refine ⟨_, redOf_exec hi, fun x _ hf hin hw hs hd hr => ?_⟩
    intro y
    rw [after, regs, ← hf, redBody_acquiring hac]
    exact atomBody_reaches hin hw hs hr rfl (draws x hd) ..
  · refine ⟨baraBody m, fun _ => rfl, fun x hspec hf hin hw hs _ hr => ?_⟩
    have done := baraBody_reaches hin hw hs hr rfl (by rw [hspec]; exact dst_bara w hm)
    rw [hf] at done
    exact done

theorem kept_atomAfter (i : Instr) (m : AtomMod) (y : Cx) (u : State) : Kept u (atomAfter i m y u) := by
  unfold atomAfter
  split
  · exact kept_ordered ..
  · exact (kept_critical ..).trans (kept_ordered ..)

section
variable {i : Instr} {f : Fields} {m : AtomMod} {n : Nat} {ops : Cx → List (Nat × (Nat → Option Nat)) × Draw} {s : State} {x : Cx}

theorem alike_atomic (x : Cx) (spc : Space) : x.Alike (x.afterSync.reached spc) := by
  obtain ⟨mem, l, hz⟩ := afterSync_scratch x
  rw [hz]
  exact (alike_withScratch x mem l).trans (calm_reachedAt ..).alike

theorem kept_atomic (x : Cx) (spc : Space) : Kept x.s (x.afterSync.reached spc).s := by
  obtain ⟨mem, l, hz⟩ := afterSync_scratch x
  rw [hz]
  exact (kept_withScratch x mem l).trans (kept_reachedAt ..)

/-- Atomic operations that reach their bytes. -/
theorem atomRow_done (hi : atomRow i = some (f, m, n, ops)) (hm : m.asp ≠ .sp) (h : Solo s f x) (ha : x.Acts) (hin : x.inBounds m.asp n)
    (hw : x.waitsRelease m.ord m.scope = false) (hs : x.syncWaits = false) (hd : drawsDone i x)
    (hr : x.afterSync.Reaches m.asp .atomic n (x.each.map x.addrN) fun _ => []) :
    let y := x.afterSync.reached m.asp
    Completes i s (y.swapped m.asp n (ops x) (atomAfter i m y) (atomRegs i f m)) x.g.gid f none := by
  obtain ⟨rfl, -, -, -, hf, hspec, -⟩ := h.spec
  obtain ⟨body, he, hb⟩ := atomRow_body hi hm
  exact issue_kept (he x.s) h ((gate_acts ha _).trans (hb x hspec hf hin hw hs hd hr))
    ((kept_atomic x m.asp).trans (kept_swapped (kept_atomAfter i m _) ..))

end

/-- Settles O26. -/
theorem atomicsComplete : Obligations.AtomicsComplete := by
  intro i f m n ops s x hi hm h ha hin hw hs hd hr y r u dr
  have done := atomRow_done hi hm h ha hin hw hs hd hr
  unfold Cx.swapped Cx.returns at done
  dsimp only at done
  rwa [show (x.afterSync.reached m.asp).spec = x.spec from (alike_atomic x m.asp).spec,
    show (x.afterSync.reached m.asp).namesRej = x.namesRej from (alike_atomic x m.asp).namesRej] at done

end Sys2Proof.Machine
end


section
/-! Atomic operations on a block's shared memory (R206, R209). -/

namespace Sys2Proof.Machine

open Sys2Proof

/-- Main memory, the scratchpads, what is on its way to them and to the tiles, and the blocks are in t what they are in s. -/
structure SameMemory (s t : State) : Prop where
  dram : t.dram = s.dram
  scratch : t.scratch = s.scratch
  scw : t.scw = s.scw
  appends : t.appends = s.appends
  blocks : t.blocks = s.blocks

theorem SameMemory.refl (s : State) : SameMemory s s := ⟨rfl, rfl, rfl, rfl, rfl⟩
theorem SameMemory.trans {s t u : State} (h : SameMemory s t) (k : SameMemory t u) : SameMemory s u :=
  ⟨k.dram.trans h.dram, k.scratch.trans h.scratch, k.scw.trans h.scw, k.appends.trans h.appends, k.blocks.trans h.blocks⟩

theorem sameMemory_modGroup (s : State) (gid : Nat) (f : Group → Group) : SameMemory s (s.modGroup gid f) := by
  constructor <;> simp

theorem sameMemory_unhold (s : State) (gid : Nat) : SameMemory s (s.unhold gid) := ⟨rfl, rfl, rfl, rfl, rfl⟩

theorem sameMemory_sample (s : State) (x : Cx) (spc : Space) (at_ : Nat → Int) : SameMemory s (s.sample x spc at_) := by
  have tick : SameMemory s (s.sampleTick x.c x.g x.act).2 := by
    unfold State.sampleTick
    split
    · exact .refl s
    · constructor <;> simp
  unfold State.sample
  split
  · exact .refl s
  · dsimp only
    split
    · exact tick.trans (sameMemory_modGroup ..)
    · exact tick

theorem sameMemory_reachedAt (x : Cx) (spc : Space) (at_ : Nat → Int) : SameMemory x.s (x.reachedAt spc at_).s :=
  (sameMemory_unhold ..).trans (sameMemory_sample ..)

theorem sameMemory_putResult (s : State) (x : Cx) (kind : ResultKind) (ws : List RegW) (slots : List (Nat × DWord)) (words : Nat)
    (q : List (Nat × Word)) (c : List (Nat × Causes)) (tagged : Bool) : SameMemory s (s.putResult x kind ws slots words q c tagged) := by
  unfold State.putResult
  exact ⟨by simp, by simp, by simp, by simp, by simp⟩

theorem sameMemory_commitDraws (s : State) (x : Cx) (dr : Draw) : SameMemory s (s.commitDraws x dr) := by
  unfold State.commitDraws
  split
  · exact .refl s
  · exact (sameMemory_modGroup ..).trans ⟨rfl, rfl, rfl, rfl, rfl⟩

theorem sameMemory_returns (y : Cx) (u : State) (ws : List RegW) (dr : Draw) : SameMemory u (y.returns u ws dr) := by
  unfold Cx.returns
  split
  · exact sameMemory_commitDraws ..
  · split
    · exact (sameMemory_modGroup ..).trans (sameMemory_putResult ..)
    · exact (sameMemory_commitDraws ..).trans (sameMemory_putResult ..)

theorem sameMemory_critical (s : State) (x : Cx) (o : Ord) : SameMemory s (s.critical x o) := by
  unfold State.critical
  split
  · exact .refl s
  · split
    · exact SameMemory.trans (t := s.fresh.2) ⟨rfl, rfl, rfl, rfl, rfl⟩ (sameMemory_modGroup ..)
    · exact sameMemory_modGroup ..
    · exact .refl s

/-- What an order puts in order is told by what is on its way to the scratchpads. -/
theorem ordered_congr {u v : State} (h : u.scw = v.scw) {x y : Cx} (k : x.Alike y) (o : Ord) : (u.ordered y o).scw = (v.ordered x o).scw := by
  unfold State.ordered
  rw [k.act, k.g]
  by_cases h0 : x.act = 0
  · rw [if_pos h0, if_pos h0, h]
  · rw [if_neg h0, if_neg h0]
    unfold State.released State.acquired
    cases Ord.releases o <;> cases Ord.acquires o <;> simp [h]

theorem ordered_but (s : State) (x : Cx) (o : Ord) : s.ordered x o = { s with scw := (s.ordered x o).scw } := by
  unfold State.ordered State.released State.acquired
  cases Ord.releases o <;> cases Ord.acquires o <;> (dsimp only; split <;> rfl)

theorem replaceBy_replaceBy {α : Type} {p : α → Bool} {x : α} (hx : p x = true) (y : α) (l : List α) :
    replaceBy p y (replaceBy p x l) = replaceBy p y l := by
  induction l with
  | nil => rfl
  | cons z l ih =>
    by_cases hz : p z
    · simp [replaceBy, hz, hx]
    · simp [replaceBy, hz, ih]

theorem setBlock_setBlock (s : State) {b c : Block} (h : c.bid = b.bid) : (s.setBlock b).setBlock c = s.setBlock c := by
  have twice := replaceBy_replaceBy (p := fun x : Block => x.bid == c.bid) (x := b) (by simp [h]) c s.blocks
  unfold State.setBlock
  rw [← h]
  dsimp only
  rw [twice]

/-- The operations of some threads on their block's shared memory, one after the other. -/
theorem swapAll_shared {x : Cx} {s : State} {b : Block} (hb : s.block? x.b.bid = some b) (n : Nat) (ops : List (Nat × (Nat → Option Nat))) :
    x.swapAll .sh n ops s = ((atomicRun x.addrN n ops b.sh).1, s.setBlock { b with sh := (atomicRun x.addrN n ops b.sh).2 }) := by
  have hbid : b.bid = x.b.bid := block?_bid hb
  induction ops generalizing s b with
  | nil => exact congrArg (Prod.mk []) (setBlock_self (b := b) (by rw [hbid]; exact hb)).symm
  | cons e rest ih =>
    obtain ⟨t, f⟩ := e
    unfold Cx.swapAll Cx.swap
    simp only [hb]
    unfold atomicRun
    cases hf : f (b.sh.readN (x.addrN t) n) with
    | none => simp only [hf, ih hb hbid]
    | some v =>
      have written := ih (block?_setBlock (b' := { b with sh := b.sh.writeN (x.addrN t) n v }) hb hbid) hbid
      have twice := setBlock_setBlock s (b := { b with sh := b.sh.writeN (x.addrN t) n v })
        (c := { b with sh := (atomicRun x.addrN n rest (b.sh.writeN (x.addrN t) n v)).2 }) rfl
      have both := written.trans (congrArg (Prod.mk _) twice)
      simp only [hf, both]

theorem atomAfter_memory (i : Instr) (m : AtomMod) (y : Cx) (u : State) :
    (atomAfter i m y u).dram = u.dram ∧ (atomAfter i m y u).scratch = u.scratch ∧ (atomAfter i m y u).appends = u.appends ∧
      (atomAfter i m y u).blocks = u.blocks ∧ (atomAfter i m y u).scw = (u.ordered y m.ord).scw := by
  unfold atomAfter
  split
  · rw [ordered_but]; exact ⟨rfl, rfl, rfl, rfl, rfl⟩
  · obtain ⟨dram, scratch, scw, appends, blocks⟩ := sameMemory_critical u y m.ord
    have same := ordered_congr scw (Calm.refl y.s).alike m.ord
    rw [ordered_but]
    exact ⟨dram, scratch, appends, blocks, same⟩

/-- A result with a destination is in flight. -/
theorem returns_result {y : Cx} (h : y.spec.dst.nil = false) (u : State) (ws : List RegW) (dr : Draw) :
    ∃ r ∈ (y.returns u ws dr).results, r.gid = y.g.gid ∧ r.kind = .mem ∧ r.writes = ws := by
  have put : ∀ (v : State) slots words q tagged, ∃ r ∈ (v.putResult y .mem ws slots words q [] tagged).results,
      r.gid = y.g.gid ∧ r.kind = .mem ∧ r.writes = ws := by
    intro v slots words q tagged
    exact ⟨_, List.mem_append_right _ (List.mem_singleton_self _), rfl, rfl, rfl⟩
  unfold Cx.returns
  rw [h]
  cases y.namesRej
  · exact put ..
  · exact put ..

/-- What atomic operations on shared memory leave of the memories. -/
theorem swapped_shared {i : Instr} {f : Fields} {m : AtomMod} {n : Nat} {ops : List (Nat × (Nat → Option Nat)) × Draw} {y : Cx} {b : Block}
    (hb : y.s.block? y.b.bid = some b) :
    let u := y.swapped .sh n ops (atomAfter i m y) (atomRegs i f m)
    let ran := atomicRun y.addrN n ops.1 b.sh
    (u.dram = y.s.dram ∧ u.scratch = y.s.scratch ∧ u.appends = y.s.appends ∧ u.scw = (y.s.ordered y m.ord).scw) ∧
      u.blocks = (y.s.setBlock { b with sh := ran.2 }).blocks ∧
      (y.spec.dst.nil = false → ∃ r ∈ u.results, r.gid = y.g.gid ∧ r.kind = .mem ∧ r.writes = atomRegs i f m ran.1) := by
  intro u ran
  have first : SameMemory y.s (y.s.sampleDone y .sh) := sameMemory_modGroup ..
  have swap := swapAll_shared (x := y) ((block?_congr first.blocks _).trans hb) n ops.1
  have hu : u = y.returns (atomAfter i m y ((y.s.sampleDone y .sh).setBlock { b with sh := ran.2 })) (atomRegs i f m ran.1) ops.2 := by
    show y.swapped .sh n ops (atomAfter i m y) (atomRegs i f m) = _
    unfold Cx.swapped
    rw [swap]
  obtain ⟨dram, scratch, appends, blocks, scw⟩ := atomAfter_memory i m y ((y.s.sampleDone y .sh).setBlock { b with sh := ran.2 })
  have last := sameMemory_returns y (atomAfter i m y ((y.s.sampleDone y .sh).setBlock { b with sh := ran.2 })) (atomRegs i f m ran.1) ops.2
  rw [hu]
  refine ⟨⟨last.dram.trans (dram.trans first.dram), last.scratch.trans (scratch.trans first.scratch),
    last.appends.trans (appends.trans first.appends), ?_⟩, ?_, fun hd => returns_result hd ..⟩
  · exact last.scw.trans (scw.trans (ordered_congr (u := (y.s.sampleDone y .sh).setBlock { b with sh := ran.2 }) first.scw
      (Calm.refl y.s).alike m.ord))
  · refine last.blocks.trans (blocks.trans ?_)
    unfold State.setBlock
    rw [first.blocks]

/-- Settles O27. -/
theorem sharedAtomics : Obligations.SharedAtomics := by
  intro i f m n ops s x hi hm h ha hin hw hs hd hr
  obtain ⟨rfl, hg, hb, -⟩ := h.spec
  obtain ⟨mem, l, hz⟩ := afterSync_scratch x
  have hbid : x.b.bid = x.g.bid := block?_bid hb
  rw [← hbid] at hb
  have hr' : x.afterSync.Reaches m.asp .atomic n (x.each.map x.addrN) (fun _ => []) := by
    rw [hz, hm]; exact ⟨hr.clear, fun h => nomatch h⟩
  obtain ⟨t, ht, ret⟩ := atomRow_done hi (by rw [hm]; decide) h ha (by rw [hm]; exact hin) hw hs hd hr'
  have like := alike_atomic x m.asp
  have kept := (kept_atomic x m.asp).trans (kept_swapped (y := x.afterSync.reached m.asp) (kept_atomAfter i m
    (x.afterSync.reached m.asp)) m.asp n (ops x) (atomRegs i f m))
  have before : SameMemory x.afterSync.s (x.afterSync.reached m.asp).s := sameMemory_reachedAt ..
  have hyb : (x.afterSync.reached m.asp).b = x.b := by rw [hz]; rfl
  have same : x.afterSync.s.dram = x.s.dram ∧ x.afterSync.s.appends = x.s.appends ∧ x.afterSync.s.blocks = x.s.blocks := by
    rw [hz]; exact ⟨rfl, rfl, rfl⟩
  obtain ⟨sameDram, sameAppends, sameBlocks⟩ := same
  generalize x.afterSync.reached m.asp = y at ret like kept before hyb
  have blocks0 : y.s.blocks = x.s.blocks := before.blocks.trans sameBlocks
  have hyb' : y.s.block? y.b.bid = some x.b := by
    rw [hyb, block?_congr blocks0]; exact hb
  rw [hm] at ret kept
  obtain ⟨⟨dram, scratch, appends, scw⟩, blocks, result⟩ := swapped_shared (i := i) (f := f) (m := m) (n := n) (ops := ops x) hyb'
  rw [show y.addrN = x.addrN from funext like.addrN] at blocks result
  generalize y.swapped .sh n (ops x) (atomAfter i m y) (atomRegs i f m) = u at ret kept dram scratch appends scw blocks result
  have still {α : Type} (p : State → α) : p t.still = p u.still := congrArg p ret.still
  obtain ⟨g, hug⟩ := Option.isSome_iff_exists.mp ((kept.stays x.g.gid).trans (by rw [hg]; rfl))
  obtain ⟨g0, hg0, e⟩ := kept.group x.g.gid g hug
  have hgb : g.bid = x.b.bid := by
    rw [hg, Option.some.injEq] at hg0
    rw [hbid, hg0]; exact e.bid
  refine ⟨t, ht, (still State.dram).trans (dram.trans (before.dram.trans sameDram)), (still State.scratch).trans (scratch.trans before.scratch),
    (still State.scw).trans (scw.trans (ordered_congr before.scw like m.ord)),
    (still State.appends).trans (appends.trans (before.appends.trans sameAppends)), ?_, fun bid hne => ?_, fun hn => ?_⟩
  · have written : u.block? g.bid = some { x.b with sh := (atomicRun x.addrN n (ops x).1 x.b.sh).2 } := by
      rw [hyb] at hyb'
      rw [hgb]
      exact (block?_congr blocks _).trans (block?_setBlock hyb' rfl)
    exact ⟨_, hgb ▸ ret.block g _ hug written, rfl⟩
  · rw [ret.blocks g bid hug (by rw [hgb]; exact hne), block?_congr blocks]
    exact (block?_setBlock_ne (b' := { x.b with sh := (atomicRun x.addrN n (ops x).1 x.b.sh).2 }) hne.symm).trans (block?_congr blocks0 _)
  · obtain ⟨r, hr, hgid, kind, writes⟩ := result (by rw [like.spec]; exact hn)
    exact ⟨r, (still State.results).symm ▸ hr, hgid.trans (congrArg Group.gid like.g), kind, writes⟩

end Sys2Proof.Machine
end


section
/-! Barriers, fences, waits, batches and windows (R107, R169, R197, R216, R217, R271, R272). -/

namespace Sys2Proof.Machine

open Sys2Proof

/-- An attempt whose condition holds retires (R21). -/
theorem issue_met {i : Instr} {f : Fields} {pre : Cx → Option Fate} {body : Cx → Fate} {s now u : State} {x : Cx}
    (he : exec i s = issue f pre body s) (h : Solo s f x) (hx : x.gate pre body = .met now u) (hk : Kept s u) :
    Completes i s u x.g.gid f none := by
  obtain ⟨-, hg, -⟩ := h.spec
  obtain ⟨t, h1, h2⟩ := issue_solo h (v := u.retire x.g.gid f none) (by rw [hx]; rfl)
    (fusedGroup_retire fun g' hg' => hk.alone hg h.alone hg')
  exact ⟨t, (he.trans h1), (retires_retire _ _ _ _).booked h2⟩

/-- Settles O30. -/
theorem fencesAndWaits : Obligations.FencesAndWaits := by
  refine ⟨fun w sc s x h ha => ⟨fun hr => ?_, fun hr hd => ?_⟩, fun w s x h ha => ⟨fun hs => ?_, fun hs hd hg => ?_, fun hs hd => ?_⟩⟩
  all_goals obtain ⟨rfl, -⟩ := h.spec
  · have kept : Kept x.s ((x.s.released x.g.gid).acquired x.g.gid x.g.core) := .of_eq rfl rfl
    cases hd : x.g.stayDone with
    | true =>
      exact issue_kept (pre := noPre) (body := fenceBody sc) (e := false) rfl h
        ((gate_acts ha _).trans (by unfold fenceBody; simp only [hd, if_true])) kept
    | false =>
      have ready : fenceReady x.s x.g sc = true := hr.resolve_right (by simp [hd])
      exact issue_met (pre := noPre) (body := fenceBody sc) (now := x.s) rfl h
        ((gate_acts ha _).trans (by unfold fenceBody; simp only [hd, ready, Bool.false_eq_true, if_false, if_true])) kept
  · refine issue_stayKept (pre := noPre) (body := fenceBody sc) rfl h ((gate_acts ha _).trans ?_) (.refl _)
    unfold fenceBody
    simp only [hd, hr, Bool.false_eq_true, if_false]
  · refine issue_trap (pre := dwaitPre) (body := dwaitBody) rfl h ?_
    simp [Cx.gate, ha.guard, dwaitPre, hs, trapIllegal]
  · refine issue_kept (pre := dwaitPre) (body := dwaitBody) (e := false) rfl h
      ((gate_pre ha (by simp [dwaitPre, hs]) _).trans ?_) (.of_eq rfl rfl)
    simp [dwaitBody, hd, hg]
  · refine issue_hold (pre := dwaitPre) (body := dwaitBody) rfl h ((gate_pre ha (by simp [dwaitPre, hs]) _).trans ?_)
    unfold dwaitBody
    rcases hd with hd | hd <;> simp [hd]

theorem barrierPasses : BarrierPasses := by
  intro w s x h ha
  obtain ⟨rfl, -⟩ := h.spec
  have passes (hs : x.g.spawned = false) (body : Cx → Fate) : x.gate barbPre body = body x := gate_pre ha (by simp [barbPre, hs]) body
  refine ⟨fun hs => ?_, fun hs => ⟨fun e he => ⟨fun hc => ?_, fun hc => ?_⟩, fun he => ?_⟩⟩
  · refine issue_trap (pre := barbPre) (body := barbBody) rfl h ?_
    simp [Cx.gate, ha.guard, barbPre, hs, trapIllegal]
  · refine issue_kept (pre := barbPre) (body := barbBody) (e := false) rfl h ((passes hs _).trans ?_)
      (kept_modBlock (f := fun b => { b with passed := b.passed.filter fun e => e.1 != x.g.gid }) (fun _ => rfl) fun _ => rfl)
    unfold barbBody
    simp only [he, hc, if_true]
  · refine issue_hold (pre := barbPre) (body := barbBody) rfl h ((passes hs _).trans ?_)
    unfold barbBody
    simp only [he]
    rw [if_neg (by omega)]
  · refine issue_hold (pre := barbPre) (body := barbBody) rfl h ((passes hs _).trans ?_)
    unfold barbBody
    simp only [he]

/-- Settles O36. -/
theorem batches : Obligations.Batches := by
  refine ⟨fun w s x h ha => ?_, fun w s x h ha => ?_⟩
  · obtain ⟨rfl, hg, -⟩ := h.spec
    intro n numbered
    have hg' : State.group? { x.s with cards := x.s.cards.map numbered } x.g.gid = some x.g := hg
    have same : x.g.Same (Group.writeDst { x.g with batch := n } x.f.dst 0 [BitVec.ofNat 32 (batchNumber n)]) :=
      Group.Same.trans (b := { x.g with batch := n }) ⟨rfl, rfl, rfl, rfl⟩ (RegsOnly.same (regsOnly_writeDst ..))
    refine issue_kept (pre := noPre) (body := bcloseBody) (e := false) rfl h ((gate_acts ha _).trans
      (congrArg (Fate.done · none false) (modGroup_eq hg' fun g => Group.writeDst { g with batch := n } x.f.dst 0 [BitVec.ofNat 32 (batchNumber n)]))) ?_
    exact Kept.trans (t := { x.s with cards := x.s.cards.map numbered }) (.of_eq rfl rfl)
      (kept_setGroup (Eq.trans (by rw [same.gid]) hg') same)
  · obtain ⟨rfl, hg, -⟩ := h.spec
    intro n
    refine ⟨fun h0 => ?_, fun h0 hl => ?_, fun m h0 hl => ⟨fun hk => ?_, fun ⟨k, hk, hkg, h1, h2⟩ => ?_⟩⟩
    · refine issue_kept (pre := noPre) (body := waitbBody) (e := false) rfl h ((gate_acts ha _).trans ?_) (.refl _)
      unfold waitbBody
      rw [if_pos h0]
    · refine issue_trap (pre := noPre) (body := waitbBody) rfl h ((gate_acts ha _).trans ?_)
      unfold waitbBody
      rw [if_neg h0]
      simp only [show latestBatch x.g.batch (codeOf (x.getA 0)) = none from hl]
      rfl
    · refine issue_kept (pre := noPre) (body := waitbBody) (e := false) rfl h ((gate_acts ha _).trans ?_) (.refl _)
      unfold waitbBody
      rw [if_neg h0]
      simp only [show latestBatch x.g.batch (codeOf (x.getA 0)) = some m from hl]
      rw [if_neg]
      simp only [List.any_eq_true, Bool.and_eq_true, decide_eq_true_eq, not_exists, not_and]
      intro k hm hkg
      rcases hk k hm hkg with h0 | h1 <;> omega
    · refine issue_hold (pre := noPre) (body := waitbBody) rfl h ((gate_acts ha _).trans ?_)
      unfold waitbBody
      rw [if_neg h0]
      simp only [show latestBatch x.g.batch (codeOf (x.getA 0)) = some m from hl]
      rw [if_pos]
      simp only [List.any_eq_true, Bool.and_eq_true, decide_eq_true_eq]
      exact ⟨k, hk, hkg, h1, h2⟩

/-! Windows (R197) -/

/-- Groups changed where they stand. -/
theorem kept_mapGroups {s u : State} {f : Group → Group} (hg : u.groups = s.groups.map f) (hb : u.blocks = s.blocks)
    (hf : ∀ g : Group, g.Same (f g)) : Kept s u := by
  have found : ∀ n, u.group? n = (s.group? n).map f := by
    intro n
    unfold State.group?
    rw [hg]
    exact find_map_gid (fun g => (hf g).gid) n
  refine ⟨fun n g' h => ?_, fun n => ?_, fun bid => by rw [block?_congr hb]⟩
  · rw [found, Option.map_eq_some_iff] at h
    obtain ⟨g, h, rfl⟩ := h
    exact ⟨g, h, hf g⟩
  · rw [found, Option.isSome_map]

theorem kept_dropWindow (s : State) (w : Window) : Kept s (s.dropWindow w) :=
  kept_mapGroups rfl rfl fun g => by split <;> exact ⟨rfl, rfl, rfl, rfl⟩

/-- Settles O33. -/
theorem windowMaps : Obligations.WindowMaps := by
  intro i w s x hi h ha n base len done
  obtain ⟨rfl, hg, -⟩ := h.spec
  have he : ∀ s, exec i s = issue (w.fields 0xD6 0) noPre tmapBody s := by
    rcases hi with rfl | rfl <;> exact fun _ => rfl
  have met {u : State} (hx : tmapBody x = .met u u) (hk : Kept x.s u) : done u := issue_met (he _) h ((gate_acts ha _).trans hx) hk
  have body : tmapBody x = if x.g.stayDone then .done x.s none false else if x.g.tmap.isSome then .stay x.s
      else if len ≠ 0 then
        if 63 < n ∨ (x.s.window? x.die x.b.ctx n).isSome ∨ base % 2 ^ 12 ≠ 0 ∨ 2 ^ 52 ≤ base ∨ 16384 < len ∨ x.c.frames < 128 then
          .trap 0x01 20 x.g.amask
        else .met { x.s with windows := x.s.windows ++ [⟨x.die, x.b.ctx, n, base, len, false, []⟩] }
          { x.s with windows := x.s.windows ++ [⟨x.die, x.b.ctx, n, base, len, false, []⟩] }
      else match x.s.window? x.die x.b.ctx n with
        | none => .met x.s x.s
        | some v =>
          if !v.closing && !x.s.windowBusy v then .met (x.s.dropWindow v) (x.s.dropWindow v)
          else .stay ((x.s.setWindow { v with closing := true }).modGroup x.g.gid fun g => { g with tmap := some ⟨x.die, x.b.ctx, n, 0⟩ }) := rfl
  refine ⟨fun hd => ?_, fun hd ht => ?_, fun hd ht hl => ?_,
    fun hd ht hl => ⟨fun hw => ?_, fun v hv => ⟨fun hc hb => ?_, fun hb => ?_⟩⟩⟩
  · exact issue_kept (he _) h ((gate_acts ha _).trans (body.trans (if_pos hd))) (.refl _)
  · exact issue_stayKept (he _) h ((gate_acts ha _).trans (body.trans (by rw [hd, ht]; rfl))) (.refl _)
  · intro refused
    refine ⟨fun hr => ?_, fun hr => ?_⟩
    · refine issue_trap (he _) h ((gate_acts ha _).trans (body.trans ?_))
      rw [hd, ht, if_pos hl, if_pos hr]; rfl
    · refine met (body.trans ?_) (.of_eq rfl rfl)
      rw [hd, ht, if_pos hl, if_neg hr]; rfl
  · refine met (body.trans ?_) (.refl _)
    rw [hd, ht, if_neg (not_not.mpr hl), hw]; rfl
  · refine met (body.trans ?_) (kept_dropWindow ..)
    rw [hd, ht, if_neg (not_not.mpr hl), hv]
    simp [hc, hb]
  · have hk : Kept x.s ((x.s.setWindow { v with closing := true }).setGroup { x.g with tmap := some ⟨x.die, x.b.ctx, n, 0⟩ }) :=
      Kept.trans (t := x.s.setWindow { v with closing := true }) (.of_eq rfl rfl) (kept_setGroup (g0 := x.g) hg ⟨rfl, rfl, rfl, rfl⟩)
    refine issue_stayKept (he _) h ((gate_acts ha _).trans (body.trans ?_)) hk
    rw [hd, ht, if_neg (not_not.mpr hl), hv]
    have busy : (!v.closing && !x.s.windowBusy v) = false := by rcases hb with hb | hb <;> simp [hb]
    simp only [busy, Bool.false_eq_true, if_false, Option.isSome_none]
    rw [modGroup_eq (s := x.s.setWindow { v with closing := true }) hg]

end Sys2Proof.Machine
end


section
/-! Spawned work and child grids (R142 to R146, R164, R167). -/

namespace Sys2Proof.Machine

open Sys2Proof

theorem ofList_zero {l : List Nat} (hl : ∀ t ∈ l, t < 32) : Mask.ofList l = 0 ↔ l = [] := by
  refine ⟨fun h => ?_, fun h => by rw [h]; rfl⟩
  cases l with
  | nil => rfl
  | cons t ts =>
    have bit := getLsbD_ofList (l := t :: ts) (hl t (by simp))
    rw [h] at bit
    simp at bit

/-- An entry's check of depth that fails (R146). -/
theorem gate_depth {x : Cx} (ha : x.Acts) (h : 10 ≤ x.g.depth) (body : Cx → Fate) : x.gate depthPre body = .trap 0x07 0 x.act := by
  unfold Cx.gate depthPre
  simp [ha.guard, maxDepth, h, trapDepth]

/-- Settles O31. -/
theorem spawnedItems : Obligations.SpawnedItems := by
  intro w s x h ha ofs bad queued
  obtain ⟨rfl, -⟩ := h.spec
  have lt : ∀ t ∈ bad, t < 32 := fun t ht => threads_lt (List.mem_filter.mp ht).1
  have pass (hd : x.g.depth < 10) (body : Cx → Fate) : x.gate depthPre body = body x := gate_pre ha (depthPre_none hd) body
  have body : spawnBody x = if Mask.ofList bad ≠ 0 then .trap 0x01 14 (Mask.ofList bad)
      else if 4096 < queued + x.threads.length ∨ x.s.drains? x.g.gid then .hold
      else .done { x.s with spawnQ := x.s.spawnQ ++ x.threads.map fun t =>
        (x.g.core, { pc := x.g.pc + BitVec.ofInt 52 (ofs t).toInt, arg := x.getA t, bid := x.b.bid, depth := x.g.depth + 1 }) } none false :=
    rfl
  refine ⟨fun hd => issue_trap (pre := depthPre) (body := spawnBody) rfl h (gate_depth ha hd _), fun hd hb => ?_, fun hd hb hq => ?_,
    fun hd hb hq hs => ?_⟩
  · exact issue_trap (pre := depthPre) (body := spawnBody) rfl h
      ((pass hd _).trans (body.trans (if_pos fun h0 => hb ((ofList_zero lt).mp h0))))
  · exact issue_hold (pre := depthPre) (body := spawnBody) rfl h
      ((pass hd _).trans (body.trans ((if_neg (not_not.mpr ((ofList_zero lt).mpr hb))).trans (if_pos hq))))
  · refine issue_kept (pre := depthPre) (body := spawnBody) rfl h
      ((pass hd _).trans (body.trans ((if_neg (not_not.mpr ((ofList_zero lt).mpr hb))).trans (if_neg ?_)))) (.of_eq rfl rfl)
    rw [hs]
    rintro (hm | hm)
    · omega
    · cases hm

theorem kept_makeGrid (s : State) (ctx : Nat) (d : GridDesc) (params : List Word) (depth : Nat) (cores : List Nat) (ptr : Nat)
    (parent : Option Nat) (proc thread : Word) : Kept s (s.makeGrid ctx d params depth cores ptr parent proc thread).2 := by
  unfold State.makeGrid
  split <;> exact .of_eq rfl rfl

/-- The grid that a GLAUNCH makes of a descriptor's bytes. -/
def Cx.childGrid (x : Cx) (bytes : List Byte) : Word × State :=
  let d := (readDesc (bytesNat (bytes.take 64))).1
  let parent := x.s.grid? x.b.ctx x.b.grid
  x.s.makeGrid x.b.ctx d (wordsFrom (bytes.drop 64) d.nparam) (x.g.depth + 1) (coresOf x.c.dies)
    ((coresOf x.c.dies).findIdx fun c => c == x.g.core) (some x.b.bid) ((parent.map (·.proc)).getD 0) ((parent.map (·.thread)).getD 0)

/-- Settles O32. -/
theorem childGrids : Obligations.ChildGrids := by
  intro w s x h ha off
  obtain ⟨rfl, hg, -⟩ := h.spec
  have pass (hd : x.g.depth < 10) (body : Cx → Fate) : x.gate depthPre body = body x := gate_pre ha (depthPre_none hd) body
  refine ⟨fun hd => issue_trap (pre := depthPre) (body := glaunchBody) rfl h (gate_depth ha hd _), fun hd hn => ⟨fun hp => ?_,
    fun hp hl => ?_, fun hp hl hr => ?_⟩, fun o hd hn => ?_, fun o bytes hd hn => ?_⟩
  · refine issue_trap (pre := depthPre) (body := glaunchBody) rfl h ((pass hd _).trans ?_)
    unfold glaunchBody
    simp only [hn, show descPlaced x.c (codeOf (x.getA 0)) = false from hp]
    rfl
  · refine issue_hold (pre := depthPre) (body := glaunchBody) rfl h ((pass hd _).trans ?_)
    unfold glaunchBody
    simp only [hn, show descPlaced x.c (codeOf (x.getA 0)) = true from hp]
    rcases hl with hl | hl <;> simp [hl]
  · refine issue_stayKept (pre := depthPre) (body := glaunchBody) rfl h ((pass hd _).trans ?_)
      (kept_setGroup (g := { x.g with gdesc := some (off, none) }) (g0 := x.g) hg ⟨rfl, rfl, rfl, rfl⟩)
    rw [← modGroup_eq hg fun g => { g with gdesc := some (off, none) }]
    unfold glaunchBody
    simp only [hn, show descPlaced x.c (codeOf (x.getA 0)) = true from hp, hl, hr]
    rfl
  · refine issue_stayKept (pre := depthPre) (body := glaunchBody) rfl h ((pass hd _).trans ?_) (.refl _)
    unfold glaunchBody
    simp only [hn]
  · have body : glaunchBody x = if (readDesc (bytesNat (bytes.take 64))).2 || tooLarge (readDesc (bytesNat (bytes.take 64))).1 x.c ||
        decide (x.c.scSize < off + 64 + 4 * (readDesc (bytesNat (bytes.take 64))).1.nparam) then .trap 0x01 15 x.g.amask else
        .done ((x.childGrid bytes).2.modGroup x.g.gid fun g => if x.f.dst = 0 then g else g.writeDst x.f.dst 0 [(x.childGrid bytes).1])
          none false := by
      unfold glaunchBody
      simp only [hn]
      rfl
    intro d refused
    refine ⟨fun hr => ?_, fun hr => ?_⟩
    · exact issue_trap (pre := depthPre) (body := glaunchBody) rfl h ((pass hd _).trans (body.trans (if_pos hr)))
    · refine issue_kept (pre := depthPre) (body := glaunchBody) rfl h ((pass hd _).trans (body.trans (if_neg (by rw [Bool.not_eq_true]; exact hr))))
        ((kept_makeGrid ..).trans (kept_modGroup fun g => ?_))
      split
      · exact .refl g
      · exact RegsOnly.same (regsOnly_writeDst ..)

end Sys2Proof.Machine
end


section
/-! Tile commands (R183, R184, R195, R198, R199). -/

namespace Sys2Proof.Machine

open Sys2Proof

theorem kept_evictFree (s : State) (t : TileRef) (core : Nat) : Kept s (s.evictFree t core) := by
  unfold State.evictFree
  dsimp only
  split
  · exact kept_evict ..
  · exact .refl s

theorem evictFree_eq (s : State) (t : TileRef) (core : Nat) :
    s.evictFree t core = if (s.tile t).st = .resident ∧ (s.tile t).held = [] then s.evict t core else s := by
  unfold State.evictFree
  simp only [Bool.and_eq_true, beq_iff_eq, List.isEmpty_iff]

theorem tileCommands : TileCommands := by
  refine ⟨fun w s x h ha => ?_, fun w s x h ha => ?_⟩
  all_goals obtain ⟨rfl, hg, -⟩ := h.spec
  · have done {u : State} (hx : tfetchBody x = .done u none false) (hk : Kept x.s u) : Completes (.tfetch w) x.s u x.g.gid (w.fields 0xD7 0) none :=
      issue_kept (pre := noPre) (body := tfetchBody) rfl h ((gate_acts ha _).trans hx) hk
    have fetches {t : TileRef} (ht : x.tileArg = some t) (hst : (x.s.tile t).st = .absent) :
        tfetchBody x = .done (x.s.askFetch t x.g.core) none false := by
      unfold tfetchBody
      simp only [ht, hst, beq_self_eq_true, if_true]
    refine ⟨fun ht => done ?_ (.refl _), fun t ht hst => done ?_ (.refl _), fun t ht hst => ⟨fun u hu => done ?_ (kept_startFetch hu), fun hf => done ?_ (kept_wantTile ..)⟩⟩
    · unfold tfetchBody; simp only [ht]
    · unfold tfetchBody
      simp only [ht]
      rw [if_neg (by simpa using hst)]
    · rw [fetches ht hst]
      unfold State.askFetch
      simp only [hu]
    · rw [fetches ht hst]
      unfold State.askFetch
      simp only [hf]
  · have done {u : State} (hx : tevictBody x = .done u none false) (hk : Kept x.s u) : Completes (.tevict w) x.s u x.g.gid (w.fields 0xD8 0) none :=
      issue_kept (pre := noPre) (body := tevictBody) rfl h ((gate_acts ha _).trans hx) hk
    have met {now u : State} (hx : tevictBody x = .met now u) (hk : Kept x.s u) : Completes (.tevict w) x.s u x.g.gid (w.fields 0xD8 0) none :=
      issue_met (pre := noPre) (body := tevictBody) rfl h ((gate_acts ha _).trans hx) hk
    have stay (hx : tevictBody x = .stay x.s) : Stays (.tevict w) x.s x.s x.g.gid :=
      issue_stayKept (pre := noPre) (body := tevictBody) rfl h ((gate_acts ha _).trans hx) (.refl _)
    refine ⟨fun hd => done ?_ ?_, fun hd ht => met (now := x.s) ?_ (.refl _), fun t hd ht => ⟨fun hst => met (now := x.s) ?_ (.refl _),
      fun hst hh => met (now := x.s.modGroup x.g.gid fun g => { g with evicts := some t }) ?_ (kept_evict ..), fun hw => stay ?_⟩⟩
    · unfold tevictBody
      rw [if_pos hd]
      simp only [evictFree_eq]
    · cases x.g.evicts with
      | none => exact .refl _
      | some t =>
        rw [Option.elim_some, ← evictFree_eq]
        exact kept_evictFree ..
    · unfold tevictBody
      simp only [hd, ht, Bool.false_eq_true, if_false]
    · unfold tevictBody
      simp only [hd, ht, hst, Bool.false_eq_true, if_false]
    · unfold tevictBody
      simp only [hd, ht, hst, hh, Bool.false_eq_true, if_false, List.isEmpty_nil, if_true]
    · unfold tevictBody
      simp only [hd, ht, Bool.false_eq_true, if_false]
      rcases hw with hst | ⟨hh, hst⟩
      · simp only [hst]
      · simp only [hst]
        rw [if_neg (by simpa using hh)]

/-! What a tile is after it was set -/

theorem setTile_but (s : State) (t : TileRef) (v : WTile) : s.setTile t v = { s with windows := (s.setTile t v).windows } := by
  unfold State.setTile
  split <;> rfl

theorem window?_setWindow {s : State} {die ctx win : Nat} {w w' : Window} (h : s.window? die ctx win = some w) (hd : w'.die = w.die)
    (hc : w'.ctx = w.ctx) (hn : w'.win = w.win) (d c n : Nat) :
    (s.setWindow w').window? d c n = if d = die ∧ c = ctx ∧ n = win then some w' else s.window? d c n := by
  have key := List.find?_some h
  simp only [Bool.and_eq_true, beq_iff_eq] at key
  obtain ⟨⟨rfl, rfl⟩, rfl⟩ := key
  rw [← hd, ← hc, ← hn] at h ⊢
  split
  · next e =>
    obtain ⟨rfl, rfl, rfl⟩ := e
    exact find_replaceBy_same (p := fun x : Window => x.die == w'.die && x.ctx == w'.ctx && x.win == w'.win) h (by simp)
  · next ne =>
    refine find_replaceBy_other (p := fun x : Window => x.die == w'.die && x.ctx == w'.ctx && x.win == w'.win)
      (q := fun x : Window => x.die == d && x.ctx == c && x.win == n) (fun z hz => ?_) ?_
    · simp only [Bool.and_eq_true, beq_iff_eq] at hz
      obtain ⟨⟨h1, h2⟩, h3⟩ := hz
      rw [Bool.eq_false_iff]
      simp only [ne_eq, Bool.and_eq_true, beq_iff_eq, h1, h2, h3]
      exact fun e => ne ⟨e.1.1.symm, e.1.2.symm, e.2.symm⟩
    · rw [Bool.eq_false_iff]
      simp only [ne_eq, Bool.and_eq_true, beq_iff_eq]
      exact fun e => ne ⟨e.1.1.symm, e.1.2.symm, e.2.symm⟩

/-- A tile that a state has is what it is set to; every other one stays. -/
theorem tile_setTile {s : State} {t : TileRef} {w : Window} (hw : s.window? t.die t.ctx t.win = some w) (v : WTile) (r : TileRef) :
    (s.setTile t v).tile r = if r = t then v else s.tile r := by
  unfold State.setTile State.tile
  simp only [hw]
  rw [window?_setWindow (w' := { w with tiles := Sparse.put absentTile w.tiles t.tile v }) hw rfl rfl rfl]
  by_cases hk : r.die = t.die ∧ r.ctx = t.ctx ∧ r.win = t.win
  · rw [if_pos hk]
    obtain ⟨h1, h2, h3⟩ := hk
    rw [h1, h2, h3, hw]
    dsimp only
    rw [Sparse.get_put]
    by_cases ht : r.tile = t.tile
    · rw [if_pos ht, if_pos]
      cases r; cases t; simp_all
    · rw [if_neg ht, if_neg fun e => ht (by rw [e])]
  · rw [if_neg hk, if_neg fun e => hk (by rw [e]; exact ⟨rfl, rfl, rfl⟩)]

theorem window_setTile {s : State} {t : TileRef} {w : Window} (hw : s.window? t.die t.ctx t.win = some w) (v : WTile) :
    ∃ w', (s.setTile t v).window? t.die t.ctx t.win = some w' := by
  unfold State.setTile
  simp only [hw]
  exact ⟨_, (window?_setWindow (w' := { w with tiles := Sparse.put absentTile w.tiles t.tile v }) hw rfl rfl rfl ..).trans (if_pos ⟨rfl, rfl, rfl⟩)⟩

theorem tileArg_window {x : Cx} {t : TileRef} (h : x.tileArg = some t) :
    t.die = x.die ∧ t.ctx = x.b.ctx ∧ ∃ w, x.s.window? t.die t.ctx t.win = some w := by
  unfold Cx.tileArg at h
  dsimp only at h
  split at h
  · unfold State.issuedTile at h
    obtain ⟨w, hw, rfl⟩ := Option.map_eq_some_iff.mp h
    exact ⟨rfl, rfl, w, hw⟩
  · unfold State.findTile at h
    split at h
    · cases h
    · split at h
      · next w hw =>
        split at h
        · cases h
          exact ⟨rfl, rfl, w, hw⟩
        · cases h
      · cases h

theorem memoryKept_setTile (s : State) (t : TileRef) (v : WTile) : MemoryKept s (s.setTile t v) := by
  rw [setTile_but]; exact ⟨rfl, rfl, rfl⟩

theorem setTile_wbacks (s : State) (t : TileRef) (v : WTile) : (s.setTile t v).wbacks = s.wbacks := by rw [setTile_but]

/-- The dirty bytes of a tile on their way back. -/
def State.sentBack (s : State) (t : TileRef) (core : Nat) : State :=
  { s with
    nextId := s.nextId + 1
    wbacks := s.wbacks ++ [⟨s.nextId, t, s.tileVa t, (s.tile t).dirty.map fun e => (e.1, (s.tile t).data.read e.1), core, false⟩] }

theorem evict_quiet {s : State} {t : TileRef} (ha : ∀ a ∈ s.appends, a.begun = true → a.tile ≠ t) (core : Nat) :
    s.evict t core = (if (s.tile t).dirty = [] then s else (s.sentBack t core).setTile t { s.tile t with dirty := [] }).setTile t absentTile := by
  have quiet : (s.appends.filter fun a => a.begun && a.tile == t) = [] := by
    rw [List.filter_eq_nil_iff]
    intro a hm
    simp only [Bool.and_eq_true, beq_iff_eq, not_and]
    exact ha a hm
  unfold State.evict
  rw [quiet]
  refine congrArg (fun u : State => u.setTile t absentTile) ?_
  unfold State.writeBack
  simp only [List.foldl_nil, List.isEmpty_iff]
  rfl

/-- The eviction of a tile to which no append has begun. -/
theorem evict_tile {s : State} {t : TileRef} {w : Window} (hw : s.window? t.die t.ctx t.win = some w)
    (ha : ∀ a ∈ s.appends, a.begun = true → a.tile ≠ t) (core : Nat) :
    (s.evict t core).tile t = absentTile ∧ (∀ r, r ≠ t → (s.evict t core).tile r = s.tile r) ∧
      (s.evict t core).wbacks = s.wbacks ++ (if (s.tile t).dirty = [] then []
        else [⟨s.nextId, t, s.tileVa t, (s.tile t).dirty.map fun e => (e.1, (s.tile t).data.read e.1), core, false⟩]) ∧
      MemoryKept s (s.evict t core) := by
  rw [evict_quiet ha]
  by_cases hd : (s.tile t).dirty = []
  · rw [if_pos hd, if_pos hd, List.append_nil]
    exact ⟨(tile_setTile hw _ _).trans (if_pos rfl), fun r hr => (tile_setTile hw _ _).trans (if_neg hr), setTile_wbacks .., memoryKept_setTile ..⟩
  · rw [if_neg hd, if_neg hd]
    obtain ⟨w', hw'⟩ := window_setTile (s := s.sentBack t core) hw { s.tile t with dirty := [] }
    refine ⟨(tile_setTile hw' _ _).trans (if_pos rfl), fun r hr => ?_, ?_, ?_⟩
    · exact (tile_setTile hw' _ _).trans ((if_neg hr).trans ((tile_setTile (s := s.sentBack t core) hw _ _).trans (if_neg hr)))
    · rw [setTile_wbacks, setTile_wbacks]; rfl
    · obtain ⟨d1, c1, p1⟩ := memoryKept_setTile (s.sentBack t core) t { s.tile t with dirty := [] }
      obtain ⟨d2, c2, p2⟩ := memoryKept_setTile ((s.sentBack t core).setTile t { s.tile t with dirty := [] }) t absentTile
      exact ⟨d2.trans d1, c2.trans c1, p2.trans p1⟩

theorem tilesMoved : TilesMoved := by
  refine ⟨fun w s x t pa attr h ha ht hst hf htr => ?_, fun w s x t h ha hd ht hst hh hap => ?_⟩
  all_goals
    obtain ⟨rfl, -, -, hc, -⟩ := h.spec
    obtain ⟨hdie, hctx, win, hw⟩ := tileArg_window ht
  · have start : x.s.startFetch t x.g.core = .ok (((x.s.ran (tileUnit t.die) t.ctx).setTile t
        { x.s.tile t with st := .arriving, wanted := none, pa := pa, attr := attr, fault := false, core := x.g.core }).count
          x.g.core 0x09 t.ctx 1) := by
      unfold State.startFetch State.takeFrame
      rw [hctx, hc, hdie]
      simp only [Option.map_some, Option.getD_some, hf, if_true, htr]
      rfl
    refine ⟨_, (tileCommands.1 w x.s x h ha).2.2 t ht hst |>.1 _ start, ?_, fun r hr => ?_, ?_, ?_⟩
    · exact (tile_setTile (s := x.s.ran (tileUnit t.die) t.ctx) hw _ _).trans (if_pos rfl)
    · exact (tile_setTile (s := x.s.ran (tileUnit t.die) t.ctx) hw _ _).trans (if_neg hr)
    · exact setTile_wbacks (x.s.ran (tileUnit t.die) t.ctx) ..
    · exact memoryKept_setTile (x.s.ran (tileUnit t.die) t.ctx) ..
  · exact ⟨_, ((tileCommands.2 w x.s x h ha).2.2 t hd ht).2.1 hst hh, evict_tile hw hap x.g.core⟩

/-- Settles O34. -/
theorem tileMoves : Obligations.TileMoves := ⟨tileCommands, tilesMoved⟩

end Sys2Proof.Machine
end


section
/-! Postings, collective instructions and the matrix tiles' instructions (R236, R249 to R254, R257, R273, R313, R320). -/

namespace Sys2Proof.Machine

open Sys2Proof

/-! Postings -/

theorem filterMap_pairs {α β γ : Type} (f : α → β) (p : α × β → Option γ) (l : List α) :
    (l.map fun a => (a, f a)).filterMap p = l.filterMap fun a => p (a, f a) := by rw [List.filterMap_map]; rfl

/-- The threads whose command breaks a rule, with the trap they raise. -/
def postFaults (x : Cx) (one : Nat → Posting) : List (Nat × (BitVec 8 × Nat)) :=
  (badPosts x one).map fun e => (e.1, ((0x01 : BitVec 8), e.2))

/-- What a posting comes to, by the faults and the commands of its threads. -/
def Cx.postOf (x : Cx) (fails : List (Nat × (BitVec 8 × Nat))) (cmds : List Command) : Fate :=
  match x.firstFault fails with
  | some r => r
  | none =>
    if !x.postReady || !(cmds.all fun c => decide (x.s.queued x.g.core (engineOf c.kind) + cmds.length ≤ engineRoom (engineOf c.kind))) then
      .hold
    else .done (cmds.foldl (fun s c => s.place x c) x.s) none false

theorem post_eq (x : Cx) (one : Nat → Posting) : x.post one = x.postOf (postFaults x one) (commandsOf x one) := by
  have fails : ((x.each.map fun t => (t, one t)).filterMap fun e =>
      match e.2 with | .bad d => some (e.1, trapIllegal, d) | _ => none) = postFaults x one := by
    rw [filterMap_pairs]
    unfold postFaults badPosts
    rw [List.map_filterMap]
    refine congrArg (fun f => List.filterMap f x.each) (funext fun t => ?_)
    cases one t <;> rfl
  have cmds : ((x.each.map fun t => (t, one t)).filterMap fun e => match e.2 with | .card c => some c | _ => none) = commandsOf x one :=
    filterMap_pairs ..
  rw [← fails, ← cmds]
  rfl

theorem post_traps {x : Cx} {one : Nat → Posting} {t d : Nat} {rest : List (Nat × Nat)} (h : badPosts x one = (t, d) :: rest) :
    x.post one = .trap 0x01 d (if x.f.s then x.g.amask else Mask.ofList ((((t, d) :: rest).filter fun e => e.2 == d).map (·.1))) := by
  have lanes : (((postFaults x one).filter fun e => e.2 == ((0x01 : BitVec 8), d)).map (·.1)) =
      (((t, d) :: rest).filter fun e => e.2 == d).map (·.1) := by
    unfold postFaults
    rw [h, List.filter_map, List.map_map]
    refine congrArg (List.map _) (List.filter_congr fun e _ => ?_)
    rw [Bool.eq_iff_iff]
    simp
  have first : postFaults x one = (t, ((0x01 : BitVec 8), d)) :: rest.map fun e => (e.1, ((0x01 : BitVec 8), e.2)) := by
    unfold postFaults; rw [h]; rfl
  rw [post_eq, ← lanes, first]
  rfl

theorem post_passes {x : Cx} {one : Nat → Posting} (h : badPosts x one = []) :
    (x.postReady = true → haveRoom x (commandsOf x one) →
      x.post one = .done ((commandsOf x one).foldl (fun s c => s.place x c) x.s) none false) ∧
    (x.postReady = false ∨ ¬ haveRoom x (commandsOf x one) → x.post one = .hold) := by
  have room : ((commandsOf x one).all fun c => decide (x.s.queued x.g.core (engineOf c.kind) + (commandsOf x one).length ≤
      engineRoom (engineOf c.kind))) = true ↔ haveRoom x (commandsOf x one) := by
    simp only [List.all_eq_true, decide_eq_true_eq]; rfl
  rw [post_eq, show postFaults x one = [] by unfold postFaults; rw [h]; rfl]
  refine ⟨fun hr hm => if_neg ?_, fun hw => if_pos ?_⟩
  · rw [hr, room.mpr hm]; simp
  · rcases hw with hr | hm
    · rw [hr]; rfl
    · rw [Bool.eq_false_iff.mpr fun hall => hm (room.mp hall)]; simp

theorem kept_place (s : State) (x : Cx) (c : Command) : Kept s (s.place x c) := .of_eq rfl rfl

/-- A sequence number taken (R315) changes nothing that a posting asks. -/
theorem takeSeq_but (s : State) (ctx die comm : Nat) :
    (s.takeSeq ctx die comm).2 = { s with ctxs := (s.takeSeq ctx die comm).2.ctxs } := by
  unfold State.takeSeq
  split <;> rfl

/-- An instruction that posts, by the commands of its threads. -/
theorem postRow_body {i : Instr} {f : Fields} {one : Cx → Nat → Posting} {base : Cx → State} (h : postRow i = some (f, one, base)) :
    ∃ body, (∀ s, exec i s = issue f noPre body s) ∧
      ∀ x, ∃ ctxs, base x = { x.s with ctxs := ctxs } ∧ body x = Cx.post { x with s := base x } (one x) := by
  have coll : ∀ w mod opc kind var, postRow.coll w mod opc kind var = (f, one, base) → ∀ x : Cx, ∃ ctxs, base x = { x.s with ctxs := ctxs } ∧
      collBufBody opc.toNat kind var x = Cx.post { x with s := base x } (one x) := by
    intro w mod opc kind var hc x
    cases hc
    exact ⟨_, takeSeq_but .., rfl⟩
  have own : ∀ {f' : Fields} {one' : Cx → Nat → Posting}, (∀ s, exec i s = issue f' noPre (fun x => x.post (one' x)) s) →
      (f', one', fun x : Cx => x.s) = (f, one, base) → ∃ body, (∀ s, exec i s = issue f noPre body s) ∧
        ∀ x, ∃ ctxs, base x = { x.s with ctxs := ctxs } ∧ body x = Cx.post { x with s := base x } (one x) := by
    intro f' one' he hc
    cases hc
    exact ⟨_, he, fun x => ⟨x.s.ctxs, rfl, rfl⟩⟩
  unfold postRow at h
  split at h
  · exact own (fun _ => rfl) (Option.some.inj h)
  · exact own (fun _ => rfl) (Option.some.inj h)
  · exact own (fun _ => rfl) (Option.some.inj h)
  · exact own (fun _ => rfl) (Option.some.inj h)
  · exact own (fun _ => rfl) (Option.some.inj h)
  · exact own (fun _ => rfl) (Option.some.inj h)
  · exact own (fun _ => rfl) (Option.some.inj h)
  · exact own (fun _ => rfl) (Option.some.inj h)
  · exact own (fun _ => rfl) (Option.some.inj h)
  · next w var =>
    have hc := Option.some.inj h
    refine ⟨collBufBody 0xF8 0x0A var.val, ?_, coll w _ 0xF8 0x0A var.val hc⟩
    cases hc; exact fun _ => rfl
  · next w =>
    have hc := Option.some.inj h
    refine ⟨collBufBody 0xF9 0x0B 0, ?_, coll w _ 0xF9 0x0B 0 hc⟩
    cases hc; exact fun _ => rfl
  · next w =>
    have hc := Option.some.inj h
    refine ⟨collBufBody 0xFA 0x0C 0, ?_, coll w _ 0xFA 0x0C 0 hc⟩
    cases hc; exact fun _ => rfl
  · cases h

theorem postRow_waits {i : Instr} {f : Fields} {one : Cx → Nat → Posting} {base : Cx → State} (h : postRow i = some (f, one, base)) :
    waitKind f false = 2 := by
  unfold postRow postRow.coll at h
  split at h <;> cases h
  all_goals rfl

/-- Settles O35. -/
theorem postings : Obligations.Postings := by
  intro i f one base s x hi h ha cmds
  obtain ⟨rfl, -, -, -, hf, -⟩ := h.spec
  obtain ⟨body, he, hb⟩ := postRow_body hi
  obtain ⟨ctxs, hbase, hx⟩ := hb x
  rw [hbase] at hx ⊢
  have attempt : x.gate noPre body = Cx.post { x with s := { x.s with ctxs := ctxs } } (one x) := (gate_acts ha _).trans hx
  refine ⟨fun t d rest hbad => ?_, fun hbad => ⟨fun hr hroom => ?_, fun hw => ?_⟩⟩
  · rw [← hf]
    exact issue_trap (he _) h (attempt.trans (post_traps (x := { x with s := { x.s with ctxs := ctxs } }) hbad))
  · refine issue_kept (he _) h (attempt.trans ((post_passes (x := { x with s := { x.s with ctxs := ctxs } }) hbad).1 hr hroom)) ?_
    exact Kept.trans (t := { x.s with ctxs := ctxs }) (.of_eq rfl rfl) (Kept.foldl (fun s c => kept_place s x c) _ _)
  · rw [← postRow_waits hi]
    exact issue_hold (he _) h (attempt.trans ((post_passes (x := { x with s := { x.s with ctxs := ctxs } }) hbad).2 hw))

/-! Collective instructions with register operands (R313, R318) -/

/-- Completion up to the books that a turn keeps. -/
theorem Completes.upTo {i : Instr} {s u v : State} {gid : Nat} {f : Fields} {pc : Option VA} (h : Completes i s u gid f pc)
    (hs : v.still = u.still) (hg : ∀ n, v.group? n = u.group? n) (hb : ∀ n, v.block? n = u.block? n) : Completes i s v gid f pc := by
  obtain ⟨t, ht, ret⟩ := h
  exact ⟨t, ht, ret.congr hs hg hb⟩

theorem blockName_congr {s t : State} (hb : t.blocks = s.blocks) (hi : t.images = s.images) (hg : t.grids = s.grids) (bid : Nat) :
    t.blockName bid = s.blockName bid := by
  have named : ∀ c g i, t.nameOf c g i = s.nameOf c g i := by
    intro c g i
    unfold State.nameOf State.grid?
    rw [hg]
  unfold State.blockName
  rw [block?_congr hb, hi]
  simp only [named]

/-- Settles O37. -/
theorem registerCollectives : Obligations.RegisterCollectives := by
  intro w var s x h ha
  obtain ⟨rfl, -⟩ := h.spec
  refine ⟨fun hc => ?_, fun n cm rank hc hr => ?_, fun n cm rank hc hr => ?_⟩
  · refine issue_trap (pre := noPre) (body := collRegBody var.val) rfl h ((gate_acts ha _).trans ?_)
    unfold collRegBody
    simp only [hc]
    rfl
  · refine issue_hold (pre := noPre) (body := collRegBody var.val) rfl h ((gate_acts ha _).trans ?_)
    unfold collRegBody Cx.collReady
    simp only [hc, hr]
    rfl
  · intro q u
    have kept : Kept x.s u := Kept.trans (t := (x.s.takeSeq x.b.ctx x.die n).2) (by rw [takeSeq_but]; exact .of_eq rfl rfl) (kept_putResult ..)
    have name : u.blockName x.b.bid = x.s.blockName x.b.bid := by
      refine blockName_congr ?_ ?_ ?_ _
      all_goals
        show _ = _
        simp only [u, q, State.putResult, modGroup_blocks, modGroup_images, modGroup_grids]
        rw [takeSeq_but]
        rfl
    have id : q.2.nextId = x.s.nextId := by show (x.s.takeSeq x.b.ctx x.die n).2.nextId = _; rw [takeSeq_but]
    rw [← name, ← id]
    have hx : x.gate noPre (collRegBody var.val) = .done (State.ran { u with contribs := u.contribs ++
        [⟨x.b.ctx, x.die, n, q.1, ⟨rank, 0xF8, var.val, 1, 0, [(x.getA 0).extractLsb' 0 32]⟩, x.g.num, u.blockName x.b.bid, q.2.nextId⟩] }
        (collUnit x.die) x.b.ctx) none false := by
      rw [gate_acts ha]
      unfold collRegBody Cx.collReady
      simp only [hc, hr]
      rfl
    exact (issue_kept (pre := noPre) (body := collRegBody var.val) rfl h hx (kept.trans (.of_eq rfl rfl))).upTo rfl (fun _ => rfl) fun _ => rfl

end Sys2Proof.Machine
end


section
/-! The instructions of accumulator tiles (R236, R249 to R254). -/

namespace Sys2Proof.Machine

open Sys2Proof

section
variable {x : Cx} {field : Fields → BitVec 9} (ha : x.Acts) (body : Cx → Fate)
include ha

/-- The checks of a tile's instruction, in their order (R236). -/
theorem gate_spawned (h : x.g.spawned = true) : x.gate (tilePre field) body = .trap 0x01 11 x.g.amask := by
  unfold Cx.gate tilePre
  simp [ha.guard, h, trapIllegal]

theorem gate_badTile (h : x.g.spawned = false) (hb : x.badTile (field x.f) = true) : x.gate (tilePre field) body = .trap 0x01 22 x.g.amask := by
  unfold Cx.gate tilePre
  simp [ha.guard, h, hb, trapIllegal]

theorem gate_tile (h : x.g.spawned = false) (hb : x.badTile (field x.f) = false) : x.gate (tilePre field) body = body x :=
  gate_pre ha (by simp [tilePre, h, hb]) body

end

theorem tileStatus : TileStatus := by
  refine ⟨fun w s x h ha => ⟨fun hs => ?_, fun hs hb => ?_, fun hs hb => ?_⟩, fun w s x h ha => ⟨fun hs => ?_, fun hs hb => ?_, fun hs hb => ?_⟩⟩
  · exact issue_trap rfl h (gate_spawned (field := (·.dst)) ha _ hs)
  · exact issue_trap rfl h (gate_badTile (field := (·.dst)) ha _ hs hb)
  · obtain ⟨rfl, hg, hblk, -⟩ := h.spec
    have hbid : x.b.bid = x.g.bid := block?_bid hblk
    rw [← hbid] at hblk
    have hx := gate_tile (field := (·.dst)) ha (fun x => .done (x.s.modBlock x.b.bid fun b =>
      { b with tiles := b.tiles.set (x.tileOf x.f.dst) ⟨[], false, 0x10⟩ }) none false) hs hb
    rw [modBlock_eq hblk] at hx
    exact issue_kept rfl h hx (kept_setBlock (b0 := x.b) hblk rfl)
  · exact issue_trap rfl h (gate_spawned (field := (·.a)) ha _ hs)
  · exact issue_trap rfl h (gate_badTile (field := (·.a)) ha _ hs hb)
  · obtain ⟨rfl, hg, -⟩ := h.spec
    refine ⟨x.g.writeDst x.f.dst 0 [(x.tileAt x.f.a).status], ?_, ?_⟩
    · exact wrote_shares (ps := [⟨0, [(x.tileAt x.f.a).status], 0⟩]) (by simp) (by simp)
    · exact issue_group rfl h (gate_tile (field := (·.a)) ha (fun x => .done (x.s.modGroup x.g.gid fun g =>
        g.writeDst x.f.dst 0 [(x.tileAt x.f.a).status]) none false) hs hb) (by rw [modGroup_eq hg, modGroup_eq hg]) (RegsOnly.same (regsOnly_writeDst ..))

/-- An MLD's tile in flight, made in the context y (R251). -/
def Cx.tileInFlight (y : Cx) (m : MemMod) (addrs : List Nat) : State :=
  let u := y.s.sampleDone y m.space
  let v := u.fresh.2.modBlock y.b.bid fun b =>
    { b with tiles := b.tiles.modify (y.tileOf y.f.dst) fun t => { t with empty := true } }
  { v with results := v.results ++
    [⟨u.nextId, y.g.gid, .mld, [], y.g.handler.isSome, [], 0, [], [], y.g.pc, some (y.b.bid, y.tileOf y.f.dst,
      tileWords (addrs.map fun a => widenElem m.ty (y.loadN m.space 0 a (mldWidth m.ty)))), y.tagged⟩] }

def Cx.loadsTile (y : Cx) (m : MemMod) (addrs : List Nat) : State :=
  (y.tileInFlight m addrs).touchAll (if m.space == .tw then y.tilesAt addrs else [])

theorem kept_loadsTile (y : Cx) (m : MemMod) (addrs : List Nat) : Kept y.s (y.loadsTile m addrs) := by
  have marked : Kept (y.s.sampleDone y m.space).fresh.2 (y.tileInFlight m addrs) :=
    Kept.trans (kept_modBlock (bid := y.b.bid) (f := fun b => { b with tiles := b.tiles.modify (y.tileOf y.f.dst) fun t => { t with empty := true } })
      (fun _ => rfl) fun _ => rfl) (.of_eq rfl rfl)
  have named : Kept (y.s.sampleDone y m.space) (y.s.sampleDone y m.space).fresh.2 := .of_eq rfl rfl
  exact (kept_sampleDone ..).trans (named.trans (marked.trans (kept_touchAll ..)))

theorem mldBody_reaches {m : MemMod} {x : Cx} (hf : x.tileFault m.space (2048 * mldWidth m.ty) = none)
    (hr : x.Reaches m.space .load (mldWidth m.ty) ((List.range 2048).map fun e => x.addrN 0 + e * mldWidth m.ty) fun _ => []) :
    mldBody m x = .done (((x.reached m.space).ownFirst m.space ((List.range 2048).map fun e => x.addrN 0 + e * mldWidth m.ty)
      (mldWidth m.ty)).loadsTile m ((List.range 2048).map fun e => x.addrN 0 + e * mldWidth m.ty)) none false := by
  unfold mldBody
  simp only [hf]
  exact access_reaches hr _ _

theorem tileLoads : TileLoads := by
  intro w m s x h ha n addrs
  refine ⟨fun hs => ?_, fun hs hb => ?_, fun d hs hb hd => ?_, fun hs hb hd hr => ?_⟩
  · exact issue_trap (body := mldBody m) rfl h (gate_spawned (field := (·.dst)) ha _ hs)
  · exact issue_trap (body := mldBody m) rfl h (gate_badTile (field := (·.dst)) ha _ hs hb)
  · refine issue_trap (body := mldBody m) rfl h ((gate_tile (field := (·.dst)) ha _ hs hb).trans ?_)
    unfold mldBody
    simp only [show x.tileFault m.space (2048 * mldWidth m.ty) = some d from hd]
    rfl
  · obtain ⟨rfl, -⟩ := h.spec
    have hx := (gate_tile (field := (·.dst)) ha (mldBody m) hs hb).trans (mldBody_reaches hd hr)
    have done := issue_kept (i := .mld w m) rfl h hx ((kept_loads ..).trans (kept_loadsTile ..))
    unfold Cx.loadsTile Cx.tileInFlight at done
    rw [ownFirst_ctx] at done ⊢
    exact done

/-- Settles O38. -/
theorem tileContents : Obligations.TileContents := ⟨tileStatus, tileLoads⟩

/-! Drains -/

/-- The parts of a drain, taken one after the other. -/
theorem drainParts_foldl (ranges : List (EAddr × Nat)) (acc : List (Nat × List Byte)) (l : List Byte) :
    (ranges.foldl (fun (acc : List (Nat × List Byte) × List Byte) r => (acc.1 ++ [(r.1.addr, acc.2.take r.2)], acc.2.drop r.2)) (acc, l)).1 =
      acc ++ drainParts ranges l := by
  induction ranges generalizing acc l with
  | nil => exact (List.append_nil acc).symm
  | cons r rest ih => rw [List.foldl_cons, ih, drainParts, List.append_assoc]; rfl

theorem kept_drainSample (s : State) (d : Drain) (f : Smpl → Smpl) : Kept s (s.drainSample d f) := by
  unfold State.drainSample
  split
  · exact kept_modGroup fun _ => ⟨rfl, rfl, rfl, rfl⟩
  · exact .refl s

/-- Settles O39. -/
theorem tileDrains : Obligations.TileDrains := by
  intro w m s x h ha n port
  obtain ⟨rfl, -⟩ := h.spec
  refine ⟨fun hs => ?_, fun hs hb => ?_, fun d hs hb hd => ?_, fun hs hb hd hp => ?_, fun hs hb hd hp => ?_⟩
  · exact issue_trap (body := mdrainBody m) rfl h (gate_spawned (field := (·.c)) ha _ hs)
  · exact issue_trap (body := mdrainBody m) rfl h (gate_badTile (field := (·.c)) ha _ hs hb)
  · refine issue_trap (body := mdrainBody m) rfl h ((gate_tile (field := (·.c)) ha _ hs hb).trans ?_)
    unfold mdrainBody
    simp only [show x.tileFault m.space (2048 * mldWidth m.ty) = some d from hd]
    rfl
  · refine issue_hold (body := mdrainBody m) rfl h ((gate_tile (field := (·.c)) ha _ hs hb).trans ?_)
    unfold mdrainBody
    simp only [show x.tileFault m.space (2048 * mldWidth m.ty) = none from hd]
    exact if_pos hp
  · intro bytes place parts v d
    have hx : x.gate (tilePre (·.c)) (mdrainBody m) = .done (State.drainSample { v.fresh.2 with drains := v.drains ++ [d] } d fun t =>
        { t with issued := true, bank := m.space == .sc }) none false := by
      rw [gate_tile ha _ hs hb]
      have cut := (drainParts_foldl (cutRange ⟨place, x.addrN 0⟩ bytes.length) [] bytes).trans (List.nil_append _)
      simp only [d, parts]
      rw [← cut]
      unfold mdrainBody
      simp only [show x.tileFault m.space (2048 * mldWidth m.ty) = none from hd]
      exact if_neg (by show ¬ 8 ≤ port; omega)
    exact issue_kept (body := mdrainBody m) rfl h hx ((kept_sample ..).trans (Kept.trans (t := { v.fresh.2 with drains := v.drains ++ [d] })
      (.of_eq rfl rfl) (kept_drainSample ..)))

end Sys2Proof.Machine
end


section
/-! Steps (R17, R32, R33, R50, R132, R180, R292): what the head of the turn comes to, and what a step does without one. -/

namespace Sys2Proof.Machine

open Sys2Proof

/-! What is fetched -/

theorem wordOfBytes_readFrom (m : Memory) (n : Nat) : ∀ a k, wordOfBytes ((List.range' k n).map fun i => m.read (a + i)) = m.readN (a + k) n := by
  induction n with
  | zero => exact fun _ _ => rfl
  | succ n ih => intro a k; rw [List.range'_succ, List.map_cons, wordOfBytes, ih, Memory.readN, Nat.add_assoc]

/-- Bytes read one by one are the number they are read as. -/
theorem wordOfBytes_readList (m : Memory) (a n : Nat) : wordOfBytes (m.readList a n) = m.readN a n := by
  unfold Memory.readList
  rw [List.range_eq_range']
  exact wordOfBytes_readFrom m n a 0

theorem readList_length (m : Memory) (a n : Nat) : (m.readList a n).length = n := by
  unfold Memory.readList; simp

theorem decode_ok {bs rest : List Byte} {i : Instr} (h : decode bs = .ok (i, rest)) :
    decodeWord (BitVec.ofNat 128 (wordOfBytes (bs.take 16))) = .ok i ∧
      ∃ len, lenOf ((BitVec.ofNat 128 (wordOfBytes (bs.take 16))).extractLsb' 0 2) = some len ∧ rest = bs.drop len.bytes := by
  unfold decode at h
  dsimp only at h
  split at h
  · next j len hd hl => cases h; exact ⟨hd, len, hl, rfl⟩
  · cases h
  · cases h

theorem bytes_le (len : Len) : len.bytes ≤ 16 := by cases len <;> decide

theorem crosses_iff (pc : VA) (len : Len) : crosses pc len = true ↔ pc.toNat / 32 ≠ (pc.toNat + len.bytes - 1) / 32 := by
  unfold crosses
  rw [decide_eq_true_eq]
  cases len <;> simp only [Len.bytes] <;> omega

/-- What the head of the turn does with what it has fetched. -/
def State.attend (s : State) : Fetched → Host.Outcome State Fault Refusal
  | .run i => exec i s
  | .trap cause detail => trapAtDecode cause detail s
  | .brk n len => breakAtFetch n len s
  | .halt addr => haltAtFetch addr s

/-- What the sixteen bytes at a group's pc come to, its context's breakpoints first. -/
def Group.fetched (g : Group) (c : Ctx) (w : BitVec 128) : Fetched :=
  match breakAt c g.pc with
  | some n => .brk n (wordBytes w)
  | none => decodeAt g.pc w

section
variable {s : State} {it : TurnItem} {rest : List TurnItem} {g : Group} {b : Block} {c : Ctx} {pa attr : Nat}

/-- The fetch of a group whose page is executable. -/
theorem fetchFor_ok (hb : s.block? g.bid = some b) (hc : s.ctx? b.ctx = some c) (hx : s.fetchXlat c g.pc.toNat = .ok pa attr) :
    s.fetchFor g = some (g.fetched c (BitVec.ofNat 128 (s.dram.readN (readPa (dieOf g.core) pa attr) 16))) := by
  unfold State.fetchFor
  simp only [hb, hc, Option.map_some]
  unfold State.fetch State.fetchWord
  simp only [hx]
  exact congrArg some rfl

theorem headFetch_of (ht : s.turn = it :: rest) (hg : s.group? it.gid = some g) (hm : s.mayIssue g = true) : s.headFetch = s.fetchFor g := by
  unfold State.headFetch
  simp only [ht, hg, Option.bind_some, hm, if_true]

/-- A step with a turn under way, by what the head of the turn fetches. -/
theorem step_head (hp : s.prompt = none) (ht : s.turn = it :: rest) {f : Fetched} (hf : s.headFetch = some f) : step s = s.attend f := by
  unfold step
  simp only [hp, ht, hf]
  cases f <;> rfl

end

/-- Settles O55. -/
theorem stepRunsDecoded : Obligations.StepRunsDecoded := by
  refine ⟨fun s t hp => ?_, fun s it rest g b c pa attr i bs hp ht hg hm hb hc hk hx hd hlen => ?_, fun s it rest hp ht hno => ?_,
    fun s s' t i hp ht he => ?_, fun s t hp ht he hi => ?_, fun s r rest hp ht he hi hr => ?_, fun s hp ht he hi hr => ?_⟩
  · unfold step; rw [hp]
  · obtain ⟨word, len, hl, rfl⟩ := decode_ok hd
    have all : (s.dram.readList (readPa (dieOf g.core) pa attr) 16).take 16 = s.dram.readList (readPa (dieOf g.core) pa attr) 16 :=
      List.take_of_length_le (by rw [readList_length])
    rw [all, wordOfBytes_readList] at word hl
    rw [List.length_drop, readList_length] at hlen
    have inside : crosses g.pc len = false := by
      unfold crosses
      have := bytes_le len
      simp only [decide_eq_false_iff_not]
      omega
    have fetched : s.headFetch = some (.run i) := by
      rw [headFetch_of ht hg hm, fetchFor_ok hb hc hx]
      unfold Group.fetched decodeAt
      simp only [hk, hl, inside, word, Bool.false_eq_true, if_false]
    exact step_head hp ht fetched
  · have none : s.headFetch = none := by
      unfold State.headFetch
      simp only [ht]
      cases hg : s.group? it.gid with
      | none => rfl
      | some g => simp [hno g hg]
    unfold step
    rw [hp, ht, none]
  · unfold step; rw [hp, ht, he]
  · unfold step; rw [hp, ht, he, hi]
  · unfold step; rw [hp, ht, he, hi, hr]
  · unfold step; rw [hp, ht, he, hi, hr]

/-! Words that trap before they are an instruction (R33, R50, R292) -/

section
variable {s : State} {x : Cx} (h : Solo s noFields x) (hp : s.prompt = none) (hm : s.mayIssue x.g = true)
include h hp hm

/-- The step of a group by itself, by what is fetched at its pc. -/
theorem step_alone {pa attr : Nat} (hx : s.fetchXlat x.c x.g.pc.toNat = .ok pa attr) :
    step s = s.attend (x.g.fetched x.c (BitVec.ofNat 128 (s.dram.readN (readPa (dieOf x.g.core) pa attr) 16))) := by
  obtain ⟨it, rest, ht, hcx⟩ := h.head
  obtain ⟨-, hg, hb, hc, -⟩ := h.spec
  obtain ⟨-, hg', -⟩ := cx?_spec hcx
  exact step_head hp ht ((headFetch_of ht hg' hm).trans (fetchFor_ok hb hc hx))

omit hp hm in
/-- What an attempt of a group by itself leaves that is of no instruction. -/
theorem attempt_alone {body : State → Nat → Fate} {v : State} (hv : s.settle x.g.gid noFields (body s x.g.gid) = v) (hk : Kept s v) :
    ∃ t, issueWith noFields body s = .next t ∧ Booked v t := by
  obtain ⟨it, rest, ht, hcx⟩ := h.head
  obtain ⟨-, hg', -⟩ := cx?_spec hcx
  have gid := group?_gid hg'
  rw [gid] at hv
  exact issueWith_solo ht hg' h.alone hv (by rw [← gid]; exact h.alone_in hk)

theorem fetchTraps {pa attr : Nat} (hx : s.fetchXlat x.c x.g.pc.toNat = .ok pa attr) (hk : breakAt x.c x.g.pc = none) {cause : BitVec 8}
    {detail : Nat} (hd : decodeAt x.g.pc (BitVec.ofNat 128 (s.dram.readN (readPa (dieOf x.g.core) pa attr) 16)) = .trap cause detail) :
    FetchTraps s x cause detail := by
  obtain ⟨-, hg, -⟩ := h.spec
  unfold FetchTraps
  have fetched : x.g.fetched x.c (BitVec.ofNat 128 (s.dram.readN (readPa (dieOf x.g.core) pa attr) 16)) = .trap cause detail := by
    unfold Group.fetched; simp only [hk]; exact hd
  rw [step_alone h hp hm hx, fetched]
  refine attempt_alone h (body := fun s gid => match s.group? gid with | some g => .trap cause detail g.amask | none => .hold) ?_ ?_
  · simp only [hg]
    unfold State.settle
    simp only [hg]
    rfl
  · exact (kept_unhold ..).trans (kept_takeTrap (s := s.unhold x.g.gid)
      (g := { x.g with stay := false, stayDone := false, reissue := false }) hg ⟨rfl, rfl, rfl, rfl⟩ _)

end

/-- Settles O56. -/
theorem framesAndChecks : Obligations.FramesAndChecks := by
  refine ⟨fun s x pa attr n h hp hm hk hx => ?_, fun s x pa attr w h hp hm hk hx hw => ⟨fun hl => ?_, fun len hl => ⟨fun hc => ?_, fun n hc hd => ?_⟩⟩,
    fun pc ha => ⟨?_, ?_, ?_⟩⟩
  · intro w next
    obtain ⟨-, hg, hb, hc, -⟩ := h.spec
    have fetched : x.g.fetched x.c w = .brk n (wordBytes w) := by unfold Group.fetched; simp only [hk]
    have debug : (((s.block? x.g.bid).bind fun b => s.ctx? b.ctx).map (·.ctl.dbg)).getD false = x.c.ctl.dbg := by
      simp only [hb, Option.bind_some, hc]; rfl
    rw [step_alone h hp hm hx, fetched]
    refine attempt_alone h (body := fun _ _ => .brk (0x100 + n) (wordBytes w)) ?_ ?_
    · unfold State.settle
      simp only [hg]
      unfold State.stopAt
      rw [debug]
      rfl
    · split
      · exact kept_setGroup (g := { x.g with dbgStop := some next }) hg ⟨rfl, rfl, rfl, rfl⟩
      · exact kept_takeTrap hg (.refl _) _
  · subst hw
    refine fetchTraps h hp hm hx hk ?_
    unfold decodeAt
    simp only [hl]
    rfl
  · subst hw
    refine fetchTraps h hp hm hx hk ?_
    unfold decodeAt
    simp only [hl, (crosses_iff _ _).mpr hc, if_true]
    rfl
  · subst hw
    refine fetchTraps h hp hm hx hk ?_
    have inside : crosses x.g.pc len = false := by rw [Bool.eq_false_iff]; exact fun c => (crosses_iff _ _).mp c hc
    unfold decodeAt
    simp only [hl, inside, hd, Bool.false_eq_true, if_false]
    rfl
  all_goals
    unfold crosses
    rw [decide_eq_true_eq]
    simp only [Len.bytes]
    omega

/-- Settles O59. -/
theorem resetState : Obligations.ResetState := by
  refine ⟨⟨rfl, rfl, rfl⟩, rfl, rfl, rfl, fun core hc => ?_, rfl, rfl, rfl, rfl, by decide, fun a => ⟨rfl, rfl⟩⟩
  have gated : ∀ d, d < 4 → State.reset.gatedDies.contains d = true := by decide
  unfold State.coreRuns State.dieRuns
  rw [gated _ (by unfold dieOf; omega)]
  rfl

end Sys2Proof.Machine
end


section
/-! The words that the spec writes out (R36, R48). -/

namespace Sys2Proof.Machine

open Sys2Proof

theorem plainWords_decode : ∀ e ∈ specWords.plainWords, decodeWord e.1 = .ok e.2 := by decide
theorem memoryWords_decode : ∀ e ∈ specWords.memoryWords, decodeWord e.1 = .ok e.2 := by decide
theorem unitWords_decode : ∀ e ∈ specWords.unitWords, decodeWord e.1 = .ok e.2 := by decide
theorem programWords_decode : ∀ e ∈ specWords.programWords, decodeWord e.1 = .ok e.2 := by decide

/-- Settles O52. -/
theorem specWordsDecode : Obligations.SpecWordsDecode := by
  intro e he
  simp only [specWords, List.mem_append] at he
  rcases he with ((h | h) | h) | h
  · exact plainWords_decode e h
  · exact memoryWords_decode e h
  · exact unitWords_decode e h
  · exact programWords_decode e h

end Sys2Proof.Machine
end


section
/-! Block barriers at the beginning of a turn (R132, R216): who arrives, and which barriers are complete then. -/

namespace Sys2Proof.Machine

open Sys2Proof

/-! The groups that arrive, with their blocks -/

theorem mem_nubNat {l : List Nat} {n : Nat} : n ∈ nubNat l ↔ n ∈ l := by
  suffices h : ∀ acc : List Nat, n ∈ l.foldl (fun acc x => if acc.contains x then acc else acc ++ [x]) acc ↔ n ∈ acc ∨ n ∈ l by
    exact (h []).trans (by simp)
  induction l with
  | nil => simp
  | cons a l ih =>
    intro acc
    rw [List.foldl_cons, ih]
    split
    · next h =>
      have ha : a ∈ acc := by simpa using h
      refine ⟨fun h => h.imp_right (List.mem_cons_of_mem a), fun h => ?_⟩
      rcases h with h | h
      · exact .inl h
      · rcases List.mem_cons.mp h with rfl | h
        exacts [.inl ha, .inr h]
    · simp [or_assoc]

/-- The groups that arrive as the turn begins, each with its block's number. -/
def State.arriving (s : State) : List (Nat × Nat) :=
  (s.turn.flatMap fun it =>
    match s.group? it.gid with
    | some g => (s.gangOf g).filter s.arrives
    | none => []).filterMap fun gid => (s.group? gid).map fun g => (gid, g.bid)

theorem mem_arriving {s : State} {e : Nat × Nat} :
    e ∈ s.arriving ↔ s.atBarrier e.1 ∧ ∃ g, s.group? e.1 = some g ∧ g.bid = e.2 := by
  have listed : ∀ gid, (gid ∈ s.turn.flatMap fun it =>
      match s.group? it.gid with
      | some g => (s.gangOf g).filter s.arrives
      | none => []) ↔ s.atBarrier gid := by
    intro gid
    unfold State.atBarrier
    rw [List.mem_flatMap]
    constructor
    · rintro ⟨it, hit, h⟩
      cases hg : s.group? it.gid with
      | none => simp [hg] at h
      | some g =>
        simp only [hg, List.mem_filter] at h
        exact ⟨⟨it, hit, g, hg, h.1⟩, h.2⟩
    · rintro ⟨⟨it, hit, g, hg, h⟩, ha⟩
      refine ⟨it, hit, ?_⟩
      simp only [hg, List.mem_filter]
      exact ⟨h, ha⟩
  unfold State.arriving
  rw [List.mem_filterMap]
  constructor
  · rintro ⟨gid, h, hm⟩
    obtain ⟨g, hg, rfl⟩ := Option.map_eq_some_iff.mp hm
    exact ⟨(listed gid).mp h, g, hg, rfl⟩
  · rintro ⟨h, g, hg, he⟩
    exact ⟨e.1, (listed e.1).mpr h, Option.map_eq_some_iff.mpr ⟨g, hg, by rw [he]⟩⟩

/-! The arrivals, in the blocks -/

/-- A group has arrived at its block's barrier in a cycle. -/
def Block.arrive (cycle gid : Nat) (b : Block) : Block := { b with arrived := b.arrived ++ [(gid, cycle)] }

/-- The arrivals of a list are with their blocks. -/
def State.arrived (s : State) (l : List (Nat × Nat)) : State :=
  l.foldl (fun t e => t.modBlock e.2 (Block.arrive t.cycle e.1)) s

/-- A block whose barrier is looked at as groups arrive. -/
def State.checked (s : State) (b : Block) : Block :=
  if s.barrierMet b then
    { b with passed := b.passed ++ b.arrived.map fun e => (e.1, if e.2 = s.cycle then s.cycle else s.cycle + 8), arrived := [] }
  else b

/-- Nothing but blocks and what writes happen before differs. -/
def State.sameButBlocks (s t : State) : Prop := t.groups = s.groups ∧ ({ t with scw := s.scw, blocks := s.blocks } : State) = s

theorem sameButBlocks_refl (s : State) : s.sameButBlocks s := ⟨rfl, rfl⟩

theorem State.sameButBlocks.trans {s t u : State} (h : s.sameButBlocks t) (k : t.sameButBlocks u) : s.sameButBlocks u := by
  refine ⟨k.1.trans h.1, ?_⟩
  calc ({ u with scw := s.scw, blocks := s.blocks } : State)
      = { ({ u with scw := t.scw, blocks := t.blocks } : State) with scw := s.scw, blocks := s.blocks } := rfl
    _ = { t with scw := s.scw, blocks := s.blocks } := by rw [k.2]
    _ = s := h.2

theorem State.sameButBlocks.cycle {s t : State} (h : s.sameButBlocks t) : t.cycle = s.cycle := by
  have k := congrArg State.cycle h.2
  exact k

theorem State.sameButBlocks.checked {s t : State} (h : s.sameButBlocks t) (b : Block) : t.checked b = s.checked b := by
  unfold State.checked State.barrierMet
  rw [h.1, h.cycle]

theorem sameButBlocks_modBlock (s : State) (n : Nat) (f : Block → Block) : s.sameButBlocks (s.modBlock n f) := by
  unfold State.modBlock
  split <;> exact ⟨rfl, rfl⟩

theorem sameButBlocks_barrierCheck (s : State) (n : Nat) (a : Bool) : s.sameButBlocks (s.barrierCheck n a) := by
  unfold State.barrierCheck
  split
  · exact sameButBlocks_refl s
  · split
    exacts [⟨rfl, rfl⟩, sameButBlocks_refl s]

theorem arrived_block {s : State} {bid : Nat} {b : Block} (hb : s.block? bid = some b) (l : List (Nat × Nat)) :
    s.sameButBlocks (s.arrived l) ∧ (s.arrived l).block? bid =
      some { b with arrived := b.arrived ++ (l.filter fun e => e.2 == bid).map fun e => (e.1, s.cycle) } := by
  unfold State.arrived
  suffices h : ∀ t, s.sameButBlocks t → ∀ b, t.block? bid = some b →
      s.sameButBlocks (l.foldl (fun t e => t.modBlock e.2 (Block.arrive t.cycle e.1)) t) ∧
      (l.foldl (fun t e => t.modBlock e.2 (Block.arrive t.cycle e.1)) t).block? bid =
        some { b with arrived := b.arrived ++ (l.filter fun e => e.2 == bid).map fun e => (e.1, s.cycle) } from
    h s (sameButBlocks_refl s) b hb
  induction l with
  | nil => intro t ht b hb; exact ⟨ht, by simpa using hb⟩
  | cons e l ih =>
    intro t ht b hb
    rw [List.foldl_cons, ht.cycle]
    have same := ht.trans (sameButBlocks_modBlock t e.2 (Block.arrive s.cycle e.1))
    by_cases he : e.2 = bid
    · have found := block?_modBlock (s := t) (f := Block.arrive s.cycle e.1) (bid := bid) fun _ => rfl
      rw [hb, Option.map_some] at found
      obtain ⟨h1, h2⟩ := ih _ same _ ((congrArg (fun n => (t.modBlock n (Block.arrive s.cycle e.1)).block? bid) he).trans found)
      exact ⟨h1, h2.trans (by simp [Block.arrive, he])⟩
    · obtain ⟨h1, h2⟩ := ih _ same _ ((block?_modBlock_ne (f := Block.arrive s.cycle e.1) (fun _ => rfl) (Ne.symm he)).trans hb)
      exact ⟨h1, h2.trans (by simp [he])⟩

/-! The barriers that are complete -/

theorem checked_of_met {s : State} {b : Block} (h : s.barrierMet b = true) : s.checked b =
    { b with passed := b.passed ++ b.arrived.map fun e => (e.1, if e.2 = s.cycle then s.cycle else s.cycle + 8), arrived := [] } :=
  if_pos h

theorem checked_of_unmet {s : State} {b : Block} (h : s.barrierMet b ≠ true) : s.checked b = b := if_neg h

theorem checked_checked (s : State) (b : Block) : s.checked (s.checked b) = s.checked b := by
  by_cases h : s.barrierMet b = true
  · rw [checked_of_met h]
    exact checked_of_unmet (by simp [State.barrierMet])
  · rw [checked_of_unmet h, checked_of_unmet h]

theorem barrierCheck_arriving {s : State} {bid : Nat} {b : Block} (hb : s.block? bid = some b) :
    (s.barrierCheck bid true).block? bid = some (s.checked b) := by
  have hid := block?_bid hb
  unfold State.barrierCheck State.checked
  simp only [hb, true_and]
  split
  · exact block?_setBlock (s := s.joinPast (b.arrived.map (·.1)) (b.arrived.map (·.1))) (b' := { b with
      passed := b.passed ++ b.arrived.map fun e => (e.1, if e.2 = s.cycle then s.cycle else s.cycle + 8), arrived := [] })
      hb hid
  · exact hb

/-- Looking at the barriers of some blocks, one of them perhaps more than once. -/
theorem checks_block {bid : Nat} (l : List Nat) : ∀ {s : State} {b : Block}, s.block? bid = some b →
    s.sameButBlocks (l.foldl (fun s n => s.barrierCheck n true) s) ∧
    (l.foldl (fun s n => s.barrierCheck n true) s).block? bid = some (if bid ∈ l then s.checked b else b) := by
  induction l with
  | nil => intro s b hb; exact ⟨sameButBlocks_refl s, hb⟩
  | cons n l ih =>
    intro s b hb
    have same := sameButBlocks_barrierCheck s n true
    rw [List.foldl_cons]
    by_cases hn : n = bid
    · subst hn
      obtain ⟨h1, h2⟩ := ih (barrierCheck_arriving hb)
      refine ⟨same.trans h1, h2.trans ?_⟩
      rw [same.checked, checked_checked, if_pos List.mem_cons_self, ite_self]
    · obtain ⟨h1, h2⟩ := ih (((barrierCheck_rest s n true).2.2.1 bid (Ne.symm hn)).trans hb)
      refine ⟨same.trans h1, h2.trans ?_⟩
      simp only [same.checked, List.mem_cons, Ne.symm hn, false_or]

theorem arriveAll_eq (s : State) : s.arriveAll =
    (nubNat (s.arriving.map (·.2))).foldl (fun s n => s.barrierCheck n true) (s.arrived s.arriving) := rfl

theorem arriveAll_block {s : State} {bid : Nat} {b : Block} (hb : s.block? bid = some b) :
    s.sameButBlocks s.arriveAll ∧ s.arriveAll.block? bid = some
      (let c := { b with arrived := b.arrived ++ (s.arriving.filter fun e => e.2 == bid).map fun e => (e.1, s.cycle) }
       if ∃ e ∈ s.arriving, e.2 = bid then s.checked c else c) := by
  obtain ⟨h1, h2⟩ := arrived_block hb s.arriving
  obtain ⟨h3, h4⟩ := checks_block (nubNat (s.arriving.map (·.2))) h2
  rw [arriveAll_eq]
  refine ⟨h1.trans h3, h4.trans ?_⟩
  simp only [h1.checked, mem_nubNat, List.mem_map]

/-! R216, in the words of the statement -/

theorem groupsArrive : GroupsArrive := by
  intro s bid b hb
  obtain ⟨same, found⟩ := arriveAll_block hb
  have hid := block?_bid hb
  set c : Block := { b with arrived := b.arrived ++ (s.arriving.filter fun e => e.2 == bid).map fun e => (e.1, s.cycle) } with hc
  have inC : ∀ e, e ∈ c.arrived ↔ e ∈ b.arrived ∨ ((e.1, bid) ∈ s.arriving ∧ e.2 = s.cycle) := by
    intro e
    rw [hc]
    simp only [List.mem_append, List.mem_map, List.mem_filter, beq_iff_eq]
    refine or_congr_right ⟨?_, ?_⟩
    · rintro ⟨d, ⟨hd, rfl⟩, rfl⟩; exact ⟨hd, rfl⟩
    · rintro ⟨hd, he⟩; exact ⟨(e.1, bid), ⟨hd, rfl⟩, by rw [← he]⟩
  have met : s.barrierMet c = true ↔ c.arrived ≠ [] ∧ ∀ g ∈ s.groups, g.bid = bid → g.spawned = false → ∃ n, (g.gid, n) ∈ c.arrived := by
    unfold State.barrierMet
    have hcid : c.bid = bid := hid
    simp only [Bool.and_eq_true, Bool.not_eq_true', List.isEmpty_eq_false_iff, List.all_eq_true, List.mem_filter, beq_iff_eq,
      List.any_eq_true, Prod.exists, hcid, and_imp, exists_and_right, exists_eq_right]
  have here : (∃ e ∈ s.arriving, e.2 = bid) ↔ ∃ g, s.group? g.gid = some g ∧ g.bid = bid ∧ s.atBarrier g.gid := by
    constructor
    · rintro ⟨e, he, rfl⟩
      obtain ⟨at_, g, hg, hgb⟩ := mem_arriving.mp he
      exact ⟨g, (group?_gid hg).symm ▸ hg, hgb, (group?_gid hg).symm ▸ at_⟩
    · rintro ⟨g, hg, hgb, at_⟩
      exact ⟨(g.gid, bid), mem_arriving.mpr ⟨at_, g, hg, hgb⟩, rfl⟩
  -- the block afterwards: as it arrived, or its barrier complete
  have outcome : ∃ b', s.arriveAll.block? bid = some b' ∧ ((b' = c ∧ ¬ ((∃ e ∈ s.arriving, e.2 = bid) ∧ s.barrierMet c = true)) ∨
      s.barrierMet c = true ∧ b' = { c with passed := c.passed ++ c.arrived.map fun e =>
        (e.1, if e.2 = s.cycle then s.cycle else s.cycle + 8), arrived := [] }) := by
    refine ⟨_, found, ?_⟩
    by_cases h1 : ∃ e ∈ s.arriving, e.2 = bid
    · by_cases h2 : s.barrierMet c = true
      · exact .inr ⟨h2, by rw [if_pos h1, checked_of_met h2]⟩
      · exact .inl ⟨by rw [if_pos h1, checked_of_unmet h2], fun h => h2 h.2⟩
    · exact .inl ⟨by rw [if_neg h1], fun h => h1 h.1⟩
  obtain ⟨b', hb', cases⟩ := outcome
  refine ⟨b', hb', ?_, ?_, ?_, ?_, ?_, same⟩
  · rcases cases with ⟨rfl, -⟩ | ⟨-, rfl⟩ <;> rfl
  · intro g hg hgb at_
    have hin : (g.gid, s.cycle) ∈ c.arrived := (inC _).mpr (.inr ⟨mem_arriving.mpr ⟨at_, g, hg, hgb⟩, rfl⟩)
    rcases cases with ⟨rfl, -⟩ | ⟨-, rfl⟩
    · exact .inl hin
    · exact .inr (List.mem_append_right _ (List.mem_map.mpr ⟨_, hin, by simp⟩))
  · intro e he
    rcases cases with ⟨rfl, -⟩ | ⟨-, rfl⟩
    · rcases he with he | he
      · rcases (inC e).mp he with he | ⟨he, hcy⟩
        exacts [.inl he, .inr (.inr (.inl ⟨hcy, (mem_arriving.mp he).1⟩))]
      · exact .inr (.inl he)
    · rcases he with he | he
      · cases he
      · rcases List.mem_append.mp he with he | he
        · exact .inr (.inl he)
        · obtain ⟨d, hd, rfl⟩ := List.mem_map.mp he
          by_cases hcy : d.2 = s.cycle
          · simp only [if_pos hcy]
            rcases (inC d).mp hd with hd | ⟨hd, -⟩
            · exact .inl (hcy ▸ hd)
            · exact .inr (.inr (.inl ⟨trivial, (mem_arriving.mp hd).1⟩))
          · simp only [if_neg hcy]
            rcases (inC d).mp hd with hd | ⟨-, hd⟩
            exacts [.inr (.inr (.inr ⟨trivial, _, hd⟩)), absurd hd hcy]
  · intro some_ all_
    have complete : s.barrierMet c = true := by
      refine met.mpr ⟨?_, fun g hg hgb hs => ?_⟩
      · obtain ⟨g, hg, hgb, at_⟩ := some_
        exact List.ne_nil_of_mem ((inC (g.gid, s.cycle)).mpr (.inr ⟨mem_arriving.mpr ⟨at_, g, hg, hgb⟩, rfl⟩))
      · obtain ⟨hfound, ⟨n, hn⟩ | at_⟩ := all_ g hg hgb hs
        · exact ⟨n, (inC _).mpr (.inl hn)⟩
        · exact ⟨s.cycle, (inC _).mpr (.inr ⟨mem_arriving.mpr ⟨at_, g, hfound, hgb⟩, rfl⟩)⟩
    rcases cases with ⟨-, not⟩ | ⟨-, rfl⟩
    · exact absurd ⟨here.mpr some_, complete⟩ not
    · exact ⟨rfl, fun e he => List.mem_append_right _ (List.mem_map.mpr ⟨e, (inC e).mpr (.inl he), rfl⟩)⟩
  · rintro ⟨g, hg, hgb, hs, not, nat⟩
    have unmet : s.barrierMet c ≠ true := by
      intro h
      obtain ⟨n, hn⟩ := (met.mp h).2 g hg hgb hs
      rcases (inC _).mp hn with hn | ⟨hn, -⟩
      exacts [not n hn, nat (mem_arriving.mp hn).1]
    rcases cases with ⟨rfl, -⟩ | ⟨h, -⟩
    · exact ⟨rfl, fun e he => (inC e).mpr (.inl he)⟩
    · exact absurd h unmet

/-- Settles O29: the groups that stand at BARB arrive together, each barrier is looked at once they have, and BARB itself only asks
whether its group has been let go. -/
theorem blockBarrier : Obligations.BlockBarrier := ⟨groupsArrive, barrierPasses⟩

end Sys2Proof.Machine
end


section
/-! Results in flight (R19, R295): whose core must run for one to land. -/

namespace Sys2Proof.Machine

open Sys2Proof Sys2Proof.Tests

/-- A result of a group that is gone, for a tile of a block that is there. -/
def strayResult : Result := { aRes .mem with gid := 99, tile := some (0, 3, []) }

/-- It is in flight, and no compute die has power. -/
def strayState : State := { flying strayResult with gatedDies := [0, 1, 2, 3] }

/-- Refutes O42: with its group gone a result lands only while the core of its tile's block runs, which the statement does not ask for. -/
theorem not_resultsLand : ¬ Obligations.ResultsLand := by
  intro h
  have receives : strayState.receives strayResult := receives_of (by decide)
  obtain ⟨mem, -, -⟩ := h strayState 7 strayResult (by decide) receives
  obtain ⟨t, ht, landed⟩ := (mem (by decide)).1 (by decide)
  have stays : (match exec (.memoryResultWrite 7) strayState with | .next t => t.results | _ => []) = [strayResult] := by decide
  rw [ht] at stays
  exact absurd (landed.gone.symm.trans stays) (by decide)

/-- The elements of a tile whose group is gone, on their way with no power in the compute dies. -/
def strayFill : Result := { aFill with gid := 99 }
def strayFilling : State := { flying strayFill with gatedDies := [0, 1, 2, 3] }

/-- Refutes O43, in TilesFill, for the same reason: with its group gone the elements arrive only while the core of the tile's block runs. -/
theorem not_groupEventsAct : ¬ Obligations.GroupEventsAct := by
  rintro ⟨fills, -⟩
  obtain ⟨b, hb⟩ : ∃ b, strayFilling.block? 0 = some b := ⟨_, rfl⟩
  have receives : strayFilling.receives strayFill := receives_of (by decide)
  have tile : 3 < b.tiles.length := by
    have : (strayFilling.block? 0).any (fun b => decide (3 < b.tiles.length)) = true := by decide
    simpa [hb] using this
  obtain ⟨t, ht, -, -, -, gone, -⟩ := fills strayFilling 7 strayFill 0 3 [] b (by decide) rfl hb tile receives
  have stays : (match exec (.mldFill 7) strayFilling with | .next t => t.results | _ => []) = [strayFill] := by decide
  rw [ht] at stays
  exact absurd (gone.symm.trans stays) (by decide)

/-- The windows' tiles listed twice: as they are, and resident; the context has no frame to spare. -/
def listedTwice (s : State) : State :=
  let s := onC (fun c => { c with frames := 0 }) s
  { s with windows := s.windows.map fun w => { w with tiles := w.tiles ++ [(0, { absentTile with st := .resident })] } }

/-- Refutes O45, in AppendsAccept: the fetch for a refused append evicts, to have its frame, the tile that it is for, and the hod with it,
where a window lists that tile twice. -/
theorem not_memoryEvents : ¬ Obligations.MemoryEvents := by
  rintro ⟨-, accept, -⟩
  have turn : (listedTwice overfull).appendTurn 6 anAppend := ⟨by decide, by decide, by decide, by decide, ⟨_, rfl⟩, rfl⟩
  obtain ⟨t, ht, -, hod, -⟩ := ((accept (listedTwice overfull) 6 anAppend turn).1 (by decide) (by decide)).2 (by decide) (by decide)
  have lost : (match exec (.hodAppend 6) (listedTwice overfull) with | .next t => (t.tile tile0).hod | _ => fullHod) = [] := by decide
  rw [ht] at lost
  exact absurd (hod.symm.trans lost) (by decide)

/-- A drain's portion for a tile with a full hod. -/
def drainingTwice : State := listedTwice (draining1 (portion false) { absentTile with hod := fullHod })

/-- Refutes O47, in DrainsPerform: the fetch for a drain's portion that has no room evicts its own tile in the same way. -/
theorem not_matrixAndCollectiveEvents : ¬ Obligations.MatrixAndCollectiveEvents := by
  rintro ⟨-, perform, -⟩
  obtain ⟨c, hc⟩ : ∃ c, drainingTwice.ctx? (portion false).ctx = some c := ⟨_, rfl⟩
  obtain ⟨-, -, window⟩ := perform drainingTwice 5 4092 (portion false) c [1, 2, 3, 4] (by decide) hc (by decide) (by decide) rfl rfl
  obtain ⟨-, waits⟩ := (window tile0 rfl rfl (by decide)).2 (by decide) (by decide)
  obtain ⟨t, ht, -, hod, -⟩ := waits (.inr (by decide))
  have lost : (match exec (.drainPerform 5) drainingTwice with | .next t => (t.tile tile0).hod | _ => fullHod) = [] := by decide
  rw [ht] at lost
  exact absurd (hod.symm.trans lost) (by decide)

end Sys2Proof.Machine
end


section
/-! The system die (R308, R342 to R346, R349): reset, boot, answers, reports, links. -/

namespace Sys2Proof.Machine

open Sys2Proof

/-! Reset, faults and answers -/

theorem modulesReset : ModulesReset := by
  intro s b
  refine ⟨_, rfl, rfl, rfl, rfl, rfl, rfl, rfl, rfl, rfl, rfl, ?_, rfl, rfl⟩
  show ∀ l ∈ State.reset.links, l.up = false
  decide

theorem suppliesFail : SuppliesFail := by
  intro s booted safe
  refine ⟨s.safeState 0, ?_, ⟨0, rfl⟩, ?_, rfl, ?_, rfl, ?_⟩
  · show Host.Outcome.next _ = _
    rw [booted, safe]; rfl
  · simp [State.booted, State.safeState]
  · intro l hl
    obtain ⟨l', -, rfl⟩ := List.mem_map.mp hl
    exact ⟨rfl, rfl⟩
  · intro core hc
    have gated : [0, 1, 2, 3].contains (dieOf core) = true := by
      have : dieOf core = 0 ∨ dieOf core = 1 ∨ dieOf core = 2 ∨ dieOf core = 3 := by omega
      rcases this with h | h | h | h <;> rw [h] <;> rfl
    unfold State.coreRuns State.dieRuns
    rw [show (s.safeState 0).gatedDies = [0, 1, 2, 3] from rfl, gated]
    rfl

theorem queriesAnswered : QueriesAnswered := by
  intro s
  refine ⟨⟨_, rfl, fun stage unit h => ?_⟩, _, rfl, _, rfl⟩
  simp only [h]
  exact ⟨_, rfl⟩

theorem reportsSigned : ReportsSigned := by
  intro s nonce h
  have sent : exec (.attestationRequest nonce) s =
      .next { s with reports := s.reports ++ [s.reportBody nonce ++ reportSignature s.reports.length (s.reportBody nonce)] } := by
    show execAttestationRequest nonce s = _
    unfold execAttestationRequest
    rw [h]; rfl
  refine ⟨_, sent, ⟨s.reportBody nonce, Config.identityCert, rfl, ?_⟩, rfl⟩
  simp only [State.reportBody, List.append_assoc]

/-! Boot -/

theorem internal_boot {s : State} {b : BootInput} (hb : s.boot.input = some b) (hs : s.boot.safe = none) (h : s.boot.stage ≤ 5) :
    s.internal = some (bootStage b s) := by
  unfold State.internal State.bootNext
  simp only [hb, hs, if_pos h]

/-- Policies raise the minimum SVN and measure: nothing that the stage looks at afterwards changes. -/
theorem applyPolicies (b : BootInput) (ms : List Image) : ∀ s : State,
    s.minSvn ≤ (ms.foldl (fun s m => s.applyPolicy b m) s).minSvn ∧ (ms.foldl (fun s m => s.applyPolicy b m) s).boot = s.boot ∧
      ∃ more, (ms.foldl (fun s m => s.applyPolicy b m) s).measured = s.measured ++ more := by
  induction ms with
  | nil => exact fun s => ⟨le_rfl, rfl, [], (List.append_nil _).symm⟩
  | cons m ms ih =>
    intro s
    rw [List.foldl_cons]
    obtain ⟨h1, h2, more, h3⟩ := ih (s.applyPolicy b m)
    have one : s.minSvn ≤ (s.applyPolicy b m).minSvn ∧ (s.applyPolicy b m).boot = s.boot ∧
        ∃ l, (s.applyPolicy b m).measured = s.measured ++ l := by
      unfold State.applyPolicy
      split
      · exact ⟨max_le_max le_rfl (le_max_left _ _), rfl, _, rfl⟩
      · exact ⟨le_rfl, rfl, [], (List.append_nil _).symm⟩
    obtain ⟨o1, o2, l, o3⟩ := one
    exact ⟨o1.trans h1, h2.trans o2, l ++ more, by rw [h3, o3, List.append_assoc]⟩

/-- Boot goes on to its next stage. -/
def State.staged (s : State) : State := { s with boot := { s.boot with stage := s.boot.stage + 1 } }

theorem bootStage_one {s : State} (b : BootInput) (st : s.boot.stage = 1) : bootStage b s =
    if imageAccepted 1 s.minSvn b.slotA then (s.measure b.slotA).staged
    else if imageAccepted 1 s.minSvn b.slotB then (s.measure b.slotB).staged else s.safeState 0 := by
  unfold bootStage
  rw [st]
  rfl

/-- What stage 2 has measured and applied. -/
def State.policed (s : State) (b : BootInput) : State :=
  b.policies.foldl (fun s m => s.applyPolicy b m) ((s.measure b.firmware).measure b.microcode)

theorem bootStage_two {s : State} (b : BootInput) (st : s.boot.stage = 2) : bootStage b s =
    if !imageAccepted 2 s.minSvn b.firmware then s.safeState 0
    else if !imageAccepted 3 s.minSvn b.microcode then (s.measure b.firmware).safeState 0 else (s.policed b).staged := by
  unfold bootStage
  rw [st]
  rfl

theorem bootStage_three {s : State} (b : BootInput) (st : s.boot.stage = 3) : bootStage b s =
    b.selfTestFails.elim s.staged fun u => State.safeState { s with boot := { s.boot with record := [u] } } u := by
  unfold bootStage
  rw [st]
  cases b.selfTestFails <;> rfl

theorem bootStage_four {s : State} (b : BootInput) (st : s.boot.stage = 4) : bootStage b s =
    b.linksFail.elim (if (agreed b.formats).isNone then s.startDies.safeState 0 else s.startDies.trainDies.staged)
      s.startDies.safeState := by
  unfold bootStage
  rw [st]
  cases b.linksFail <;> rfl

/-- The fabric ports of stage 5, trained. -/
def State.portsOn (s : State) (l : List (Nat × Versions)) : State := l.foldl (fun s e => if e.1 < 18 then s.trainPort e else s) s

theorem bootStage_five {s : State} (b : BootInput) (st : s.boot.stage = 5) : bootStage b s =
    State.staged { s.portsOn b.portsTrained with dev := if (s.portsOn b.portsTrained).portUp then b.moduleNo else 0 } := by
  unfold bootStage
  rw [st]
  rfl

theorem portsOn_boot (l : List (Nat × Versions)) : ∀ s : State, (s.portsOn l).boot = s.boot := by
  induction l with
  | nil => exact fun _ => rfl
  | cons e l ih =>
    intro s
    have one : (if e.1 < 18 then s.trainPort e else s).boot = s.boot := by
      split
      · unfold State.trainPort; split <;> rfl
      · rfl
    exact (ih _).trans one

theorem portsOn_single {s : State} {n : Nat} (v : Versions) (hn : n < 18) : s.portsOn [(n, v)] = s.trainPort (n, v) := if_pos hn

/-- Boot fails in the stage it is at, in a unit. -/
def State.failsIn (s : State) (u : Nat) (t : State) : Prop :=
  t.boot.safe = some (s.boot.stage, u) ∧ t.boot.stage = s.boot.stage ∧ t.gatedDies = [0, 1, 2, 3] ∧ ∀ l ∈ t.links, l.up = false

theorem failsIn_safeState {s t : State} (u : Nat) (h : t.boot.stage = s.boot.stage) : s.failsIn u (t.safeState u) := by
  refine ⟨by rw [← h]; rfl, h, rfl, fun l hl => ?_⟩
  obtain ⟨l', -, rfl⟩ := List.mem_map.mp hl
  rfl

theorem passes_staged {s t : State} (hst : t.boot.stage = s.boot.stage) (hs : t.boot.safe = none) :
    t.staged.boot.stage = s.boot.stage + 1 ∧ t.staged.boot.safe = none := ⟨congrArg (· + 1) hst, hs⟩

theorem bootAdvances : BootAdvances := by
  intro s b hb hs accepts fails passes digest
  have fail {t : State} {u : Nat} (h : bootStage b s = t) (h5 : s.boot.stage ≤ 5) (ht : s.failsIn u t) : fails u :=
    ⟨t, (internal_boot hb hs h5).trans (congrArg some h), ht⟩
  have pass {t : State} {P : State → Prop} (h : bootStage b s = t.staged) (h5 : s.boot.stage ≤ 5) (ht : t.boot.stage = s.boot.stage)
      (hsafe : t.boot.safe = none) (hP : P t.staged) :
      passes P := by
    obtain ⟨h1, h2⟩ := passes_staged ht hsafe
    exact ⟨_, (internal_boot hb hs h5).trans (congrArg some h), h1, h2, hP⟩
  refine ⟨fun st => ?_, fun st => ?_, fun st => ?_, fun st => ?_, fun st => ?_⟩ <;> have h5 : s.boot.stage ≤ 5 := by omega
  · have run := bootStage_one b st
    refine ⟨fun ha => ?_, fun ha hb' => ?_, fun ha hb' => ?_⟩
    · exact pass (run.trans (if_pos ha)) h5 rfl hs rfl
    · exact pass (run.trans ((if_neg (by simpa using ha)).trans (if_pos hb'))) h5 rfl hs rfl
    · exact fail (run.trans ((if_neg (by simpa using ha)).trans (if_neg (by simpa using hb')))) h5 (failsIn_safeState 0 rfl)
  · have run := bootStage_two b st
    obtain ⟨svn, boot, more, measured⟩ := applyPolicies b b.policies ((s.measure b.firmware).measure b.microcode)
    refine ⟨fun hf hm => ?_, fun h => ?_⟩
    · refine pass (run.trans ((if_neg (by simpa using hf)).trans (if_neg (by simpa using hm)))) h5
        (congrArg Boot.stage boot) ((congrArg Boot.safe boot).trans hs) ⟨svn, ⟨more, measured.trans (by simp [State.measure, digest])⟩, fun none_ => ?_, fun m one ok => ?_⟩
      · have same : s.policed b = (s.measure b.firmware).measure b.microcode := by unfold State.policed; rw [none_]; rfl
        rw [same]
        exact ⟨by simp [State.staged, State.measure, digest], rfl⟩
      · have applied : s.policed b = ((s.measure b.firmware).measure b.microcode).applyPolicy b m := by
          unfold State.policed; rw [one]; rfl
        have ok' : imageAccepted 4 ((s.measure b.firmware).measure b.microcode).minSvn m = true := ok
        rw [applied]
        unfold State.applyPolicy
        rw [if_pos ok']
        exact ⟨by simp [State.staged, State.measure, digest], rfl⟩
    · by_cases hf : imageAccepted 2 s.minSvn b.firmware = true
      · have hm : imageAccepted 3 s.minSvn b.microcode = false := h.resolve_left (by simp [accepts, hf])
        exact fail (run.trans ((if_neg (by simp [hf])).trans (if_pos (by simp [hm])))) h5 (failsIn_safeState 0 rfl)
      · exact fail (run.trans (if_pos (by simpa using hf))) h5 (failsIn_safeState 0 rfl)
  · have run := bootStage_three b st
    refine ⟨fun none_ => ?_, fun u some_ => ?_⟩
    · rw [none_] at run
      exact pass run h5 rfl hs rfl
    · rw [some_] at run
      exact fail run h5 (failsIn_safeState u rfl)
  · have run := bootStage_four b st
    refine ⟨fun none_ formats => ?_, fun u some_ => ?_⟩
    · rw [none_] at run
      have some_ : (agreed b.formats).isNone ≠ true := by simpa [Option.isSome_iff_ne_none] using formats
      refine pass (run.trans (if_neg some_)) h5 rfl hs ⟨rfl, rfl, fun l hl => ?_⟩
      obtain ⟨l', -, rfl⟩ := List.mem_map.mp hl
      cases hl' : l'.link with
      | port n => exact .inl ⟨n, by simp only [hl']⟩
      | die _ _ => exact .inr rfl
      | sd _ => exact .inr rfl
    · rw [some_] at run
      exact fail run h5 (failsIn_safeState u rfl)
  · have run := bootStage_five b st
    have boot := portsOn_boot b.portsTrained s
    have safe := (congrArg Boot.safe boot).trans hs
    refine pass run h5 (congrArg Boot.stage boot) safe ⟨?_, fun none_ => ?_, fun n v minor one hn ag => ?_, fun n v one hn ag => ?_,
      fun up none_ => ?_⟩
    · show ((s.portsOn b.portsTrained).boot.stage + 1 == 6 && (s.portsOn b.portsTrained).boot.safe.isNone) = true
      rw [congrArg Boot.stage boot, st, safe]
      rfl
    · rw [none_]; rfl
    · have trained : s.portsOn b.portsTrained = s.trainPort (n, v) := by rw [one, portsOn_single v hn]
      have links : (s.portsOn b.portsTrained).links =
          s.links.map fun l => if l.link = .port n then { l with up := true, minor := minor } else l := by
        rw [trained]; unfold State.trainPort; simp only [ag]
      constructor
      · intro l hl hp
        have hl : l ∈ (s.portsOn b.portsTrained).links := hl
        rw [links] at hl
        obtain ⟨l', -, rfl⟩ := List.mem_map.mp hl
        by_cases h : l'.link = .port n
        · rw [if_pos h]; exact ⟨rfl, rfl⟩
        · rw [if_neg h] at hp; exact absurd hp h
      · rintro ⟨l, hl, hp⟩
        refine if_pos (List.any_eq_true.mpr ⟨{ l with up := true, minor := minor }, ?_, ?_⟩)
        · rw [links]
          exact List.mem_map.mpr ⟨l, hl, if_pos hp⟩
        · simp [hp]
    · have trained : s.portsOn b.portsTrained = { s with linkLog := s.linkLog ++ [.port n] } := by
        rw [one, portsOn_single v hn]; unfold State.trainPort; simp only [ag]
      rw [trained]
      exact ⟨rfl, rfl⟩
    · rw [none_]
      exact if_neg (by rw [show s.portsOn [] = s from rfl, up]; simp)

/-! Links -/

/-- A link of those changed is there as changed. -/
theorem mem_modLink {s : State} {l : Link} {x : LinkState} (f : LinkState → LinkState) (hx : x ∈ s.links) (hl : x.link = l) :
    f x ∈ (s.modLink l f).links := List.mem_map.mpr ⟨x, hx, if_pos hl⟩

/-- A link as a packet on it leaves it. -/
def packetAt (pkt : Nat) (accept : Bool) (x : LinkState) : LinkState :=
  if !x.up || x.waiting.any fun w => w.1 == pkt && !w.2 then x
  else { x with waiting := (x.waiting.filter fun w => w.1 != pkt) ++ if accept then [] else [(pkt, false)] }

theorem packetAt_new {x : LinkState} {pkt : Nat} {accept : Bool} (up : x.up = true) (new : ∀ w ∈ x.waiting, w.1 ≠ pkt) :
    packetAt pkt accept x = { x with waiting := x.waiting ++ if accept then [] else [(pkt, false)] } := by
  have none_ : (x.waiting.any fun w => w.1 == pkt && !w.2) = false :=
    List.any_eq_false.mpr fun w hw => by simp [new w hw]
  have all_ : (x.waiting.filter fun w => w.1 != pkt) = x.waiting := List.filter_eq_self.mpr fun w hw => by simp [new w hw]
  unfold packetAt
  rw [if_neg (by simp [up, none_]), all_]

theorem packetAt_waits {x : LinkState} {pkt : Nat} {accept : Bool} (hw : x.waiting = [(pkt, false)]) : packetAt pkt accept x = x := by
  unfold packetAt
  rw [if_pos (by simp [hw])]

theorem packetAt_granted {x : LinkState} {pkt : Nat} (up : x.up = true) (hw : x.waiting = [(pkt, true)]) :
    packetAt pkt true x = { x with waiting := [] } := by
  unfold packetAt
  rw [if_neg (by simp [up, hw])]
  simp [hw]

theorem linkPacket_run (s : State) (l : Link) (pkt : Nat) (accept : Bool) :
    exec (.linkPacket l pkt accept) s = .next (s.modLink l (packetAt pkt accept)) := by
  show execLinkPacket l pkt accept s = _
  unfold execLinkPacket
  congr 2
  funext x
  unfold packetAt
  split
  · rfl
  · cases accept
    · rfl
    · simp

theorem linksMove : LinksMove := by
  intro s l x hx hl
  refine ⟨fun pkt up new => ⟨⟨_, linkPacket_run .., ?_, rfl⟩, ⟨_, linkPacket_run .., ?_, rfl⟩⟩,
    fun pkt hw => ⟨fun up => ⟨_, linkPacket_run .., ?_⟩, _, rfl, ?_, rfl⟩, fun pkt up hw => ⟨_, linkPacket_run .., ?_⟩,
    ⟨_, rfl, mem_modLink _ hx hl, ?_, ?_, rfl, ?_⟩, fun booted down => ⟨fun peer major minor ag => ?_, fun peer ag => ?_⟩⟩
  · have h := mem_modLink (packetAt pkt false) hx hl
    rwa [packetAt_new up new] at h
  · have h := mem_modLink (packetAt pkt true) hx hl
    rw [packetAt_new up new, if_pos rfl, List.append_nil] at h
    exact h
  · have h := mem_modLink (packetAt pkt true) hx hl
    rwa [packetAt_waits hw] at h
  · have h := mem_modLink (fun x => { x with waiting := x.waiting.map fun w => if w.1 = pkt then (w.1, true) else w }) hx hl
    simpa [hw] using h
  · have h := mem_modLink (packetAt pkt true) hx hl
    rwa [packetAt_granted up hw] at h
  · intro y hy hyl
    obtain ⟨z, -, rfl⟩ := List.mem_map.mp hy
    by_cases hz : z.link = l
    · rw [if_pos hz]
    · rw [if_neg hz] at hyl; exact absurd hyl hz
  · exact fun y hy hyl => List.mem_map.mpr ⟨y, hy, if_neg hyl⟩
  · intro op hop c cm hc hm hu
    set u := s.modLink l fun x => { x with up := false, waiting := [] } with hu'
    have cut : u.cut l op = some ⟨op.1, op.2.1, op.2.2, !u.connected cm⟩ := by
      unfold State.cut
      have hc' : u.ctx? op.1 = some c := hc
      have hu'' : u.mayUse cm l = true := hu
      simp only [hc', Option.bind_some, hm, if_pos hu'']
    exact ⟨_, List.mem_append_right _ (List.mem_filterMap.mpr ⟨op, hop, cut⟩), by simp [Broken.is]⟩
  · have any : (s.links.any fun x => x.link == l && !x.up) = true := List.any_eq_true.mpr ⟨x, hx, by simp [hl, down]⟩
    refine ⟨_, ?_, mem_modLink (fun x => { x with up := true, minor := minor }) hx hl, rfl, rfl⟩
    show execLinkRetrain l peer s = _
    unfold execLinkRetrain
    rw [if_neg (by simp only [booted, any]; decide)]
    simp only [ag]
  · have any : (s.links.any fun x => x.link == l && !x.up) = true := List.any_eq_true.mpr ⟨x, hx, by simp [hl, down]⟩
    refine ⟨{ s with linkLog := s.linkLog ++ [l] }, ?_, rfl, rfl, rfl⟩
    show execLinkRetrain l peer s = _
    unfold execLinkRetrain
    rw [if_neg (by simp only [booted, any]; decide)]
    simp only [ag]

/-- Settles O51, part by part. -/
theorem systemDieEvents : Obligations.SystemDieEvents :=
  ⟨modulesReset, bootAdvances, suppliesFail, queriesAnswered, reportsSigned, linksMove⟩

end Sys2Proof.Machine
end


section
/-! Records and firmware calls: what a record's fields hold, what a log with room takes, what a call that is taken does. -/

namespace Sys2Proof.Machine

open Sys2Proof

/-! Records (R296, R297, R351) -/

theorem record_split (l : List (Nat × Nat)) : ∀ acc : Nat, ∃ r, r < 2 ^ (l.map (·.1)).sum ∧
    l.foldl (fun acc f => acc * 2 ^ f.1 + f.2 % 2 ^ f.1) acc = acc * 2 ^ (l.map (·.1)).sum + r := by
  induction l with
  | nil => exact fun acc => ⟨0, by simp, by simp⟩
  | cons f l ih =>
    intro acc
    obtain ⟨r, hr, h⟩ := ih (acc * 2 ^ f.1 + f.2 % 2 ^ f.1)
    have hf : f.2 % 2 ^ f.1 < 2 ^ f.1 := Nat.mod_lt _ (Nat.two_pow_pos _)
    refine ⟨f.2 % 2 ^ f.1 * 2 ^ (l.map (·.1)).sum + r, ?_, ?_⟩
    · rw [List.map_cons, List.sum_cons, pow_add]
      calc f.2 % 2 ^ f.1 * 2 ^ (l.map (·.1)).sum + r < (f.2 % 2 ^ f.1 + 1) * 2 ^ (l.map (·.1)).sum := by linarith
        _ ≤ 2 ^ f.1 * 2 ^ (l.map (·.1)).sum := Nat.mul_le_mul_right _ hf
    · rw [List.foldl_cons, h, List.map_cons, List.sum_cons, pow_add]
      ring

theorem field_bits {n lo w : Nat} (a v : Nat) {r : Nat} (hr : r < 2 ^ lo) (hw : lo + w ≤ n) :
    ((a * 2 ^ w + v % 2 ^ w) * 2 ^ lo + r) % 2 ^ n / 2 ^ lo % 2 ^ w = v % 2 ^ w := by
  have split : (2 : Nat) ^ n = 2 ^ lo * 2 ^ (n - lo) := by rw [← pow_add]; congr 1; omega
  have divides : (2 : Nat) ^ w ∣ 2 ^ (n - lo) := pow_dvd_pow 2 (by omega)
  rw [split, Nat.mod_mul_right_div_self, Nat.mod_mod_of_dvd _ divides, mul_comm (a * 2 ^ w + v % 2 ^ w),
    Nat.mul_add_div (Nat.two_pow_pos lo), Nat.div_eq_of_lt hr, Nat.add_zero, Nat.mul_add_mod_self_right, Nat.mod_mod]

/-- A field of a record holds what it was given, where the fields after it place it. -/
theorem record_field {l : List (Nat × Nat)} (pre post : List (Nat × Nat)) (w v : Nat) (lo : Nat) (hl : l = pre ++ (w, v) :: post)
    (hlo : (post.map (·.1)).sum = lo) (hw : lo + w ≤ 512) : (record l).extractLsb' lo w = BitVec.ofNat w v := by
  subst hl
  apply BitVec.eq_of_toNat_eq
  unfold record
  obtain ⟨r, hr, h⟩ := record_split post ((pre.foldl (fun acc f => acc * 2 ^ f.1 + f.2 % 2 ^ f.1) 0) * 2 ^ w + v % 2 ^ w)
  rw [List.foldl_append, List.foldl_cons, h, hlo, BitVec.extractLsb'_toNat, BitVec.toNat_ofNat, BitVec.toNat_ofNat,
    Nat.shiftRight_eq_div_pow]
  rw [field_bits _ v (hlo ▸ hr) hw]

/-- The record that a log takes. -/
def State.logRecord (s : State) (cause fpc : Nat) (lanes : Mask) (pc : Nat) (name : Name) (group detail : Nat) : BitVec 512 :=
  record ([(8, 1), (8, 0), (8, cause), (8, fpc), (32, lanes.toNat), (64, s.now), (52, pc), (12, 0)] ++ name.fields ++
    [(32, group), (128, detail)])

theorem logRecord_cause (s : State) (cause fpc : Nat) (lanes : Mask) (pc : Nat) (name : Name) (group detail : Nat) :
    (s.logRecord cause fpc lanes pc name group detail).extractLsb' 488 8 = BitVec.ofNat 8 cause := by
  unfold State.logRecord
  exact record_field [(8, 1), (8, 0)] _ 8 cause 488 rfl (by simp [Name.fields]) (by decide)

theorem logRecord_detail (s : State) (cause fpc : Nat) (lanes : Mask) (pc : Nat) (name : Name) (group detail : Nat) :
    (s.logRecord cause fpc lanes pc name group detail).extractLsb' 0 128 = BitVec.ofNat 128 detail := by
  unfold State.logRecord
  exact record_field ([(8, 1), (8, 0), (8, cause), (8, fpc), (32, lanes.toNat), (64, s.now), (52, pc), (12, 0)] ++ name.fields ++
    [(32, group)]) [] 128 detail 0 (by simp) (by simp) (by decide)

/-- A log with room has one more record; nothing else of its context changes. -/
theorem ctx?_log {s : State} {ctx : Nat} {c : Ctx} (hc : s.ctx? ctx = some c) (room : c.log.length < c.logCap) (cause fpc : Nat)
    (lanes : Mask) (pc : Nat) (name : Name) (group detail : Nat) :
    (s.log ctx cause fpc lanes pc name group detail).ctx? ctx =
      some { c with log := c.log ++ [s.logRecord cause fpc lanes pc name group detail] } := by
  unfold State.log
  dsimp only
  rw [ctx?_modCtx (by intro c; split <;> rfl), hc, Option.map_some, if_pos room]
  rfl

theorem ctx?_log_ne {s : State} {ctx n : Nat} (hn : n ≠ ctx) (cause fpc : Nat) (lanes : Mask) (pc : Nat) (name : Name) (group detail : Nat) :
    (s.log ctx cause fpc lanes pc name group detail).ctx? n = s.ctx? n :=
  ctx?_modCtx_ne (by intro c; split <;> rfl) hn

theorem traceRecord_kind (s : State) (kind core cluster slice : Nat) (name : Name) (group pc detail : Nat) :
    (traceRecord s kind core cluster slice name group pc detail).extractLsb' 488 8 = BitVec.ofNat 8 kind := by
  unfold traceRecord
  exact record_field [(8, 1), (8, 0)] _ 8 kind 488 rfl (by simp [Name.fields]) (by decide)

theorem traceRecord_cycle (s : State) (kind core cluster slice : Nat) (name : Name) (group pc detail : Nat) :
    (traceRecord s kind core cluster slice name group pc detail).extractLsb' 400 64 = BitVec.ofNat 64 s.now := by
  unfold traceRecord
  exact record_field [(8, 1), (8, 0), (8, kind), (10, core), (6, cluster % 20), (2, cluster / 20), (6, slice)] _ 64 s.now 400 rfl (by simp [Name.fields]) (by decide)

theorem traceRecord_detail (s : State) (kind core cluster slice : Nat) (name : Name) (group pc detail : Nat) :
    (traceRecord s kind core cluster slice name group pc detail).extractLsb' 0 64 = BitVec.ofNat 64 detail := by
  unfold traceRecord
  exact record_field ([(8, 1), (8, 0), (8, kind), (10, core), (6, cluster % 20), (2, cluster / 20), (6, slice), (64, s.now)] ++ name.fields ++
    [(32, group), (32, 0), (52, pc), (60, 0)]) [] 64 detail 0 (by simp) (by simp) (by decide)

/-! Calls (R342, R347, R349) -/

theorem call_taken {s : State} {v : Versions} (h : s.takes v) (effect : State → State) : s.call v effect = .next (effect s) := by
  obtain ⟨booted, common⟩ := h
  unfold State.call
  rw [if_neg (by simp [booted]), if_neg (by simpa [Option.isSome_iff_ne_none] using common)]

theorem call_early {s : State} (h : s.booted = false) (v : Versions) (effect : State → State) : s.call v effect = .next s :=
  if_pos (by simp [h])

theorem call_foreign {s : State} {v : Versions} (booted : s.booted = true) (none_ : agreed v = none) (effect : State → State) :
    s.call v effect = .next (s.reply 3 []) := by
  unfold State.call
  rw [if_neg (by simp [booted]), if_pos (by simp [none_])]

end Sys2Proof.Machine
end


section
/-! Observation (R297, R351 to R355, R357): controls, weights, counters, traces, logs. -/

namespace Sys2Proof.Machine

open Sys2Proof

/-! Controls, weights and logs -/

theorem ctxCall_run {s : State} {ctx : Nat} {c : Ctx} (hc : s.ctx? ctx = some c) (runs : s.haltedDies c.dies = false) (f : Ctx → Ctx) :
    s.ctxCall ctx f = (s.setCtx (f c)).reply 0 [] := by
  unfold State.ctxCall
  simp only [hc, runs, Bool.false_eq_true, if_false]

theorem powerOfTwo_iff {lo hi n : Nat} : powerOfTwo lo hi n = true ↔ ∃ k, lo ≤ k ∧ k ≤ hi ∧ n = 2 ^ k := by
  simp only [powerOfTwo, List.any_eq_true, List.mem_range, Bool.and_eq_true, decide_eq_true_eq, beq_iff_eq]
  constructor
  · rintro ⟨k, h1, h2, h3⟩; exact ⟨k, h2, by omega, h3⟩
  · rintro ⟨k, h1, h2, h3⟩; exact ⟨k, by omega, h1, h3⟩

/-- A call that changes one context by f. -/
theorem ctxCall_sets {s : State} {ctx : Nat} {c : Ctx} (hc : s.ctx? ctx = some c) (runs : s.haltedDies c.dies = false) {f : Ctx → Ctx}
    (hf : (f c).no = c.no) : Replied s (s.ctxCall ctx f) 0 [] ∧ (s.ctxCall ctx f).ctx? ctx = some (f c) ∧
      (∀ m, m ≠ ctx → (s.ctxCall ctx f).ctx? m = s.ctx? m) ∧ (s.ctxCall ctx f).groups = s.groups := by
  have no : (f c).no = ctx := hf.trans (ctx?_no hc)
  rw [ctxCall_run hc runs]
  exact ⟨rfl, ctx?_setCtx hc no, fun m hm => ctx?_setCtx_ne (no ▸ Ne.symm hm), rfl⟩

theorem smplctl_run {s : State} {v : Versions} (taken : s.takes v) (ctx n : Nat) : exec (.smplctl v ctx n) s =
    .next (if n != 0 && !powerOfTwo 8 20 n then s.reply 1 [] else s.ctxCall ctx fun c => { c with smplN := n, smplCtr := [] }) :=
  call_taken taken fun s => if n != 0 && !powerOfTwo 8 20 n then s.reply 1 [] else s.ctxCall ctx fun c => { c with smplN := n, smplCtr := [] }

theorem controlsSet : ControlsSet := by
  intro s v ctx c taken hc runs
  refine ⟨fun kinds => ?_, fun n hn => ?_, fun n h0 hn => ?_⟩
  · exact ⟨_, call_taken taken fun s => s.ctxCall ctx fun c => { c with kinds := kinds }, ctxCall_sets hc runs (f := fun c => { c with kinds := kinds }) rfl⟩
  · have legal : (n != 0 && !powerOfTwo 8 20 n) ≠ true := by
      rcases hn with rfl | hn
      · simp
      · simp [powerOfTwo_iff.mpr hn]
    refine ⟨_, (smplctl_run taken ctx n).trans (congrArg _ (if_neg legal)), ?_⟩
    exact ctxCall_sets hc runs (f := fun c => { c with smplN := n, smplCtr := [] }) rfl
  · have illegal : (n != 0 && !powerOfTwo 8 20 n) = true := by
      have : powerOfTwo 8 20 n ≠ true := fun h => by
        obtain ⟨k, h1, h2, h3⟩ := powerOfTwo_iff.mp h
        exact hn k h1 h2 h3
      simp [h0, this]
    exact (smplctl_run taken ctx n).trans (congrArg _ (if_pos illegal))

theorem weightsSet : WeightsSet := by
  intro s v ws taken
  have run : exec (.ewset v ws) s = .next (if ws.length = 9 then { s with weights := ws }.reply 0 [] else s.reply 1 []) :=
    call_taken taken fun s => if ws.length = 9 then ({ s with weights := ws } : State).reply 0 [] else s.reply 1 []
  exact ⟨fun h => ⟨_, run.trans (congrArg _ (if_pos h)), rfl⟩, fun h => run.trans (congrArg _ (if_neg h))⟩

theorem logsConsumed : LogsConsumed := by
  intro s ctx n c hc
  refine ⟨_, rfl, ?_, fun m hm => ?_, ?_⟩
  · rw [ctx?_modCtx (by intro c; rfl), hc]; rfl
  · exact ctx?_modCtx_ne (by intro c; rfl) hm
  · simp

/-! Traces -/

/-- A record put into a buffer goes behind some records of its own cycle. -/
theorem insertTrace_split (r : BitVec 512) (l : List (BitVec 512)) :
    ∃ m n, l = m ++ n ∧ insertTrace r l = m ++ r :: n ∧ ∀ x ∈ m, traceCycle x = traceCycle r := by
  induction l with
  | nil => exact ⟨[], [], rfl, rfl, by simp⟩
  | cons x l ih =>
    unfold insertTrace
    split
    · next h =>
      obtain ⟨m, n, rfl, h2, h3⟩ := ih
      refine ⟨x :: m, n, rfl, by rw [h2]; rfl, fun y hy => ?_⟩
      rcases List.mem_cons.mp hy with rfl | hy
      exacts [h.1, h3 y hy]
    · exact ⟨[], x :: l, rfl, rfl, by simp⟩

/-- A record put into a cluster's buffer with room that owes no gap record. -/
theorem putTrace_room {s : State} {k : Nat} (r gap : BitVec 512) (room : (Sparse.get [] s.trace k).length < traceCap)
    (none_ : Sparse.get 0 s.loss k = 0) : ∃ l m, Sparse.get [] s.trace k = l ++ m ∧ Sparse.get [] (s.putTrace k r gap).trace k = l ++ r :: m ∧
      ∀ x ∈ m, traceCycle x = traceCycle r := by
  obtain ⟨m, n, h1, h2, h3⟩ := insertTrace_split r (Sparse.get [] s.trace k).reverse
  have split : Sparse.get [] s.trace k = n.reverse ++ m.reverse := by rw [← List.reverse_append, ← h1, List.reverse_reverse]
  refine ⟨n.reverse, m.reverse, split, ?_, fun x hx => h3 x (List.mem_reverse.mp hx)⟩
  have all : (insertTrace r (Sparse.get [] s.trace k).reverse).reverse = n.reverse ++ r :: m.reverse := by rw [h2]; simp
  have short : (n.reverse ++ r :: m.reverse).length ≤ traceCap := by
    have := congrArg List.length split
    simp only [List.length_append, List.length_cons, List.length_reverse] at this ⊢
    omega
  unfold State.putTrace
  simp only [none_, ne_eq, not_true_eq_false, false_and, if_false, Sparse.get_put_same, all, List.take_of_length_le short]

theorem clusterCount_le {k : Nat} (hk : k < 80) : decide (clusterCount ≤ k) = false := decide_eq_false (Nat.not_le.mpr hk)

theorem tracesMove : TracesMove := by
  refine ⟨?_, ?_, ?_, ?_⟩
  · intro s k hk past room
    have all : (Sparse.get [] s.trace k).takeWhile (fun r => decide (traceCycle r < s.now)) = Sparse.get [] s.trace k :=
      List.takeWhile_eq_self_iff.mpr fun r hr => by simpa using past r hr
    have whole : min (Sparse.get [] s.trace k).length (Config.traceRing - s.ring.length) = (Sparse.get [] s.trace k).length := by omega
    refine ⟨s.drainTrace k, ?_, ?_, ?_, fun j hj => ?_, rfl⟩
    · exact congrArg _ (if_pos hk)
    · unfold State.drainTrace
      dsimp only
      rw [all, whole, List.take_length]
    · unfold State.drainTrace
      dsimp only
      rw [all, whole, List.drop_length, Sparse.get_put_same]
    · exact Sparse.get_put_ne hj
  · intro s k hk die cluster room none_
    set r := traceRecord s 7 0x3FF k 0 noName allOnes32 0 0 with hr
    obtain ⟨l, m, h1, h2, h3⟩ := putTrace_room r (gapRecordOf s k) room none_
    set u := s.putTrace k r (gapRecordOf s k) with hu
    refine ⟨{ u with gatedClusters := u.gatedClusters ++ [k], gatings := u.gatings ++ [(k, s.now + gatingWait)] }, ?_, ?_, ?_, ?_, ?_, ?_⟩
    · show execClusterGating k s = _
      unfold execClusterGating
      rw [if_neg (by rw [clusterCount_le hk, die, cluster]; decide)]
      rfl
    · exact List.mem_append_right _ List.mem_cons_self
    · exact List.mem_append_right _ List.mem_cons_self
    · refine ⟨r, l, m, h1, h2, traceRecord_kind .., fun past bound => ?_⟩
      refine List.eq_nil_iff_forall_not_mem.mpr fun x hx => ?_
      have cyc : traceCycle r = s.now := by
        unfold traceCycle
        rw [hr, traceRecord_cycle, BitVec.toNat_ofNat, Nat.mod_eq_of_lt bound]
      have := past x (h1 ▸ List.mem_append_right _ hx)
      rw [h3 x hx, cyc] at this
      exact absurd this (lt_irrefl _)
    · intro core hc
      have gated : (u.gatedClusters ++ [k]).contains (clusterOf core) = true := by simp [hc]
      show (_ && !(u.gatedClusters ++ [k]).contains (clusterOf core)) = false
      rw [gated, Bool.not_true, Bool.and_false]
    · rfl
  · intro s k d hg due
    refine ⟨{ s with
      trace := Sparse.put [] s.trace k [],
      loss := Sparse.put 0 s.loss k (min allOnes32 (Sparse.get 0 s.loss k + (Sparse.get [] s.trace k).length)),
      gatings := s.gatings.filter fun g => g.1 != k }, ?_, ?_, ?_, ?_, rfl⟩
    · show execGatingDrainTimeout k s = _
      unfold execGatingDrainTimeout
      simp only [hg]
      rw [if_neg (Nat.not_lt.mpr due)]
    · show Sparse.get [] (Sparse.put [] s.trace k []) k = []
      exact Sparse.get_put_same
    · show Sparse.get 0 (Sparse.put 0 s.loss k _) k = _
      exact Sparse.get_put_same
    · intro g hg
      simpa using (List.mem_filter.mp hg).2
  · intro s k hk die gatings room owed
    have none_ : (s.gatings.any fun g => g.1 == k) = false := List.any_eq_false.mpr fun g hg => by simpa using gatings g hg
    refine ⟨{ s with gatedClusters := s.gatedClusters.filter fun j => j != k,
                     trace := Sparse.put [] s.trace k (Sparse.get [] s.trace k ++ [gapRecordOf s k]), loss := Sparse.put 0 s.loss k 0 },
      ?_, ?_, ?_, ⟨_, Sparse.get_put_same, traceRecord_kind .., ?_⟩, rfl⟩
    · show execGapRecord k s = _
      unfold execGapRecord
      rw [if_neg (by rw [clusterCount_le hk, die, none_]; decide)]
      unfold State.writeGap
      dsimp only
      rw [if_pos ⟨owed, room⟩]
      rfl
    · simp
    · show Sparse.get 0 (Sparse.put 0 s.loss k 0) k = 0
      exact Sparse.get_put_same
    · exact traceRecord_detail ..

/-! Counters -/

/-- The best of some numbers and a first one, by a strict weak order: no number of them is better, and of rising ones it is the lowest
such. -/
theorem foldl_best (better : Nat → Nat → Prop) [DecidableRel better] (asym : ∀ a b, better a b → ¬ better b a)
    (trans : ∀ a b c, ¬ better a b → ¬ better b c → ¬ better a c) (l : List Nat) : ∀ m : Nat,
    let r := l.foldl (fun m k => if better k m then k else m) m
    r ∈ m :: l ∧ (∀ k ∈ m :: l, ¬ better k r) ∧ ((m :: l).Pairwise (· < ·) → ∀ k ∈ m :: l, ¬ better r k → r ≤ k) := by
  induction l with
  | nil =>
    intro m
    have self : ¬ better m m := fun h => asym m m h h
    simpa using self
  | cons x l ih =>
    intro m r
    have step : r = l.foldl (fun m k => if better k m then k else m) (if better x m then x else m) := rfl
    by_cases hx : better x m
    · rw [if_pos hx] at step
      obtain ⟨h1, h2, h3⟩ := ih x
      rw [← step] at h1 h2 h3
      refine ⟨List.mem_cons_of_mem m h1, fun k hk => ?_, fun hp k hk hr => ?_⟩
      · rcases List.mem_cons.mp hk with rfl | hk
        · exact trans k x r (asym x k hx) (h2 x List.mem_cons_self)
        · exact h2 k hk
      · rcases List.mem_cons.mp hk with rfl | hk
        · exact absurd hr (fun hr => trans x r k (h2 x List.mem_cons_self) hr hx)
        · exact h3 (List.pairwise_cons.mp hp).2 k hk hr
    · rw [if_neg hx] at step
      obtain ⟨h1, h2, h3⟩ := ih m
      rw [← step] at h1 h2 h3
      refine ⟨?_, fun k hk => ?_, fun hp k hk hr => ?_⟩
      · rcases List.mem_cons.mp h1 with h | h
        exacts [h ▸ List.mem_cons_self, List.mem_cons_of_mem m (List.mem_cons_of_mem x h)]
      · rcases List.mem_cons.mp hk with rfl | hk
        · exact h2 k List.mem_cons_self
        · rcases List.mem_cons.mp hk with rfl | hk
          · exact trans k m r hx (h2 m List.mem_cons_self)
          · exact h2 k (List.mem_cons_of_mem m hk)
      · have hm : (m :: l).Pairwise (· < ·) := hp.sublist (List.Sublist.cons_cons m (List.sublist_cons_self x l))
        rcases List.mem_cons.mp hk with rfl | hk
        · exact h3 hm k List.mem_cons_self hr
        · rcases List.mem_cons.mp hk with rfl | hk
          · have low : r ≤ m := h3 hm m List.mem_cons_self (trans r k m hr hx)
            exact low.trans (Nat.le_of_lt ((List.pairwise_cons.mp hp).1 k List.mem_cons_self))
          · exact h3 hm k (List.mem_cons_of_mem m hk) hr

/-- The same from the list's own first number. -/
theorem foldl_best_head (better : Nat → Nat → Prop) [DecidableRel better] (asym : ∀ a b, better a b → ¬ better b a)
    (trans : ∀ a b c, ¬ better a b → ¬ better b c → ¬ better a c) (l : List Nat) :
    let r := l.foldl (fun m k => if better k m then k else m) (l.headD 0)
    (l ≠ [] → r ∈ l) ∧ (∀ k ∈ l, ¬ better k r) ∧ (l.Pairwise (· < ·) → ∀ k ∈ l, ¬ better r k → r ≤ k) := by
  cases l with
  | nil => simp
  | cons x l =>
    have self : ¬ better x x := fun h => asym x x h h
    have step : (x :: l).foldl (fun m k => if better k m then k else m) ((x :: l).headD 0) =
        l.foldl (fun m k => if better k m then k else m) x := by rw [List.foldl_cons, List.headD_cons, if_neg self]
    obtain ⟨h1, h2, h3⟩ := foldl_best better asym trans l x
    dsimp only
    rw [step]
    exact ⟨fun _ => h1, h2, h3⟩

theorem mem_coresOf {dies : List Nat} {k : Nat} : k ∈ coresOf dies ↔ dieOf k ∈ dies := by
  simp only [coresOf, List.mem_flatMap, List.mem_map, List.mem_range, dieOf]
  constructor
  · rintro ⟨d, hd, i, hi, rfl⟩
    rwa [show (160 * d + i) / 160 = d by omega]
  · exact fun h => ⟨k / 160, h, k % 160, by omega, by omega⟩

theorem coresOf_rising {dies : List Nat} (h : dies.Pairwise (· < ·)) : (coresOf dies).Pairwise (· < ·) := by
  unfold coresOf
  induction h with
  | nil => exact List.Pairwise.nil
  | @cons d dies hd _ ih =>
    rw [List.flatMap_cons, List.pairwise_append]
    refine ⟨List.pairwise_map.mpr (List.pairwise_lt_range.imp fun h => by omega), ih, fun a ha b hb => ?_⟩
    obtain ⟨i, hi, rfl⟩ := List.mem_map.mp ha
    obtain ⟨e, he, hb⟩ := List.mem_flatMap.mp hb
    obtain ⟨j, -, rfl⟩ := List.mem_map.mp hb
    have := hd e he
    have := List.mem_range.mp hi
    omega

/-- What is counted at a die, and since when it is named. -/
def Perf.names (p : Perf) : Nat × Nat × Option Nat := (p.die, p.event, p.ctx)

theorem foldl_names {α : Type} (f : Perf → α → Perf) (hf : ∀ p a, (f p a).names = p.names) (l : List α) :
    ∀ p, (l.foldl f p).names = p.names := by
  induction l with
  | nil => exact fun _ => rfl
  | cons a l ih => exact fun p => (ih _).trans (hf p a)

theorem add_names (p : Perf) (core n : Nat) : (p.add core n).names = p.names := by
  unfold Perf.add
  split <;> rfl

theorem accrued_names (s : State) (t : Nat) (p : Perf) : (s.accrued t p).names = p.names := by
  unfold State.accrued
  dsimp only
  split
  · refine foldl_names _ (fun q core => ?_) _ p
    exact (apply_ite Perf.names ..).trans (by rw [add_names, ite_self])
  · split
    · refine foldl_names _ (fun q core => ?_) _ p
      split
      · exact (apply_ite Perf.names ..).trans (by rw [add_names, ite_self])
      · rfl
    · rfl

theorem accrued_count (s : State) (t : Nat) {p : Perf} (h1 : p.event ≠ 1) (h5 : p.event ≠ 5) : (s.accrued t p).count = p.count := by
  unfold State.accrued
  dsimp only
  rw [if_neg h1, if_neg h5]

/-- A core's counter with the counters changed die by die. -/
theorem counter_map {s t : State} {f : Perf → Perf} (h : t.perfs = s.perfs.map f) (hf : ∀ p, (f p).die = p.die) (k : Nat) :
    t.counter k = match s.perfs.find? fun p => p.die == dieOf k with
      | some p => (Sparse.get 0 (f p).count k).toNat
      | none => 0 := by
  unfold State.counter
  rw [h, List.find?_map]
  simp only [Function.comp_def, hf]
  cases s.perfs.find? fun p => p.die == dieOf k <;> rfl

theorem renew_die (c : Snap) (perfs : List Perf) (now : Nat) (p : Perf) : (c.renew perfs now p).die = p.die := by
  unfold Snap.renew
  dsimp only
  split <;> rfl

theorem renew_same {c : Snap} {perfs : List Perf} {now : Nat} {p : Perf}
    (h : (perfs.any fun q => c.dies.contains q.die && (q.event != c.event || q.ctx != c.ctx)) = false ∨ p.die ∉ c.dies) :
    c.renew perfs now p = p := by
  unfold Snap.renew
  dsimp only
  rcases h with h | h
  · rw [h]; rfl
  · have out : c.dies.contains p.die = false := by simpa using h
    rw [out, Bool.and_false]; rfl

theorem perfrd_run {s : State} {v : Versions} {event after : Nat} {ctx : Option Nat} {dies : List Nat} (taken : s.takes v)
    (h1 : 1 ≤ event) (h2 : event ≤ 0x0D) (part : ∃ q ∈ s.parts, q.dies = orderDies dies)
    (hctx : ∀ n, ctx = some n → (s.ctx? n).isSome = true) (runs : s.haltedDies (orderDies dies) = false) :
    exec (.perfrd v event ctx dies after) s = .next { s with
      perfs := s.perfs ++ ((orderDies dies).filter fun d => !(s.perfs.any fun p => p.die == d)).map perfFresh
      snaps := s.snaps ++ [⟨s.now + max after snapshotDelay, event, ctx, orderDies dies⟩] } := by
  refine (call_taken taken (perfrdCall event ctx dies after)).trans (congrArg _ ?_)
  have there : (s.parts.any fun p => p.dies == orderDies dies) = true := by
    obtain ⟨q, hq, e⟩ := part
    exact List.any_eq_true.mpr ⟨q, hq, by simp [e]⟩
  unfold perfrdCall
  dsimp only
  rw [if_neg (by omega), if_neg ?_, if_neg (by rw [runs]; decide)]
  rw [there]
  cases ctx with
  | none => simp
  | some n => simpa [Option.isSome_iff_ne_none] using hctx n rfl

theorem countersRead : CountersRead := by
  refine ⟨fun s v event after ctx dies taken h1 h2 part hctx runs => ?_, fun s c hs due => ?_⟩
  · refine ⟨_, perfrd_run taken h1 h2 part hctx runs, rfl, fun p hp => List.mem_append_left _ hp, fun p hp => ?_, fun d hd => ?_, rfl, rfl⟩
    · rcases List.mem_append.mp hp with hp | hp
      · exact .inl hp
      · obtain ⟨d, -, rfl⟩ := List.mem_map.mp hp
        exact .inr rfl
    · by_cases known : (s.perfs.any fun p => p.die == d) = true
      · obtain ⟨p, hp, e⟩ := List.any_eq_true.mp known
        exact ⟨p, List.mem_append_left _ hp, by simpa using e⟩
      · exact ⟨perfFresh d, List.mem_append_right _ (List.mem_map.mpr ⟨d, List.mem_filter.mpr ⟨hd, by simpa using known⟩, rfl⟩), rfl⟩
  intro n
  refine ⟨fun k p hp e1 e5 => ?_, ?_⟩
  · have die : ∀ p, (s.accrued s.now p).die = p.die := fun p => congrArg Prod.fst (accrued_names s s.now p)
    have first := counter_map (s := s) (t := s.accrue s.now) rfl die k
    simp only [hp] at first
    rw [show n k = (s.accrue s.now).counter k from rfl, first, accrued_count s s.now e1 e5]
    unfold State.counter
    rw [hp]
  · set u := s.accrue s.now with hu
    have found : (u.snaps.find? fun c => decide (c.at_ ≤ u.now)) = some c := by
      show (s.snaps.find? fun c => decide (c.at_ ≤ s.now)) = some c
      rw [hs]
      simp [due]
    have fst : ∀ p, (s.accrued s.now p).die = p.die := fun p => congrArg Prod.fst (accrued_names s s.now p)
    have run : exec .perfSnapshot s = .next (State.reply { u with perfs := u.perfs.map (c.renew u.perfs u.now), snaps := u.snaps.erase c } 0
        (u.reduceCounts c.dies ++ [c.at_])) := by
      show execPerfSnapshot s = _
      unfold execPerfSnapshot
      dsimp only
      rw [← hu, found]
    have least := foldl_best_head (fun a b => n a < n b) (fun a b h => by omega) (fun a b c h k => by omega) (coresOf c.dies)
    have most := foldl_best_head (fun a b => n b < n a) (fun a b h => by omega) (fun a b c h k => by omega) (coresOf c.dies)
    set klow := (coresOf c.dies).foldl (fun m k => if n k < n m then k else m) ((coresOf c.dies).headD 0) with hlow
    set khigh := (coresOf c.dies).foldl (fun m k => if n m < n k then k else m) ((coresOf c.dies).headD 0) with hhigh
    obtain ⟨l1, l2, l3⟩ := least
    obtain ⟨m1, m2, m3⟩ := most
    have renewed (t : State) (ht : t.perfs = u.perfs.map (c.renew u.perfs u.now)) {k : Nat}
        (same : ∀ p ∈ u.perfs, p.die = dieOf k → c.renew u.perfs u.now p = p) : t.counter k = n k := by
      rw [counter_map ht (renew_die c u.perfs u.now) k]
      show _ = u.counter k
      unfold State.counter
      cases hf : u.perfs.find? fun p => p.die == dieOf k with
      | none => rfl
      | some p =>
        have hd : p.die = dieOf k := by simpa using List.find?_some hf
        simp only [same p (List.mem_of_find?_eq_some hf) hd]
    refine ⟨_, run, ⟨n klow, n khigh, klow, khigh, rfl, fun k hk => ⟨Nat.not_lt.mp (l2 k hk), Nat.not_lt.mp (m2 k hk)⟩, fun hd => ?_,
      fun rising k hk => ?_⟩, ?_, fun kept k => ?_, fun changed => ⟨fun p hp hd => ?_, fun k hk => ?_⟩⟩
    · have some_ : coresOf c.dies ≠ [] := by
        obtain ⟨d, ds, e⟩ := List.exists_cons_of_ne_nil hd
        exact List.ne_nil_of_mem (mem_coresOf.mpr (show dieOf (160 * d) ∈ c.dies by rw [e, dieOf, Nat.mul_div_cancel_left d (by decide)]; simp))
      exact ⟨l1 some_, m1 some_, rfl, rfl⟩
    · have up := coresOf_rising rising
      exact ⟨fun e => l3 up k hk (by omega), fun e => m3 up k hk (by omega)⟩
    · show u.snaps.erase c = []
      rw [show u.snaps = [c] from hs]
      simp
    · refine renewed _ rfl fun p hp hd => renew_same (.inl (List.any_eq_false.mpr fun q hq => ?_))
      obtain ⟨q0, hq0, rfl⟩ := List.mem_map.mp hq
      have names := accrued_names s s.now q0
      simp only [Perf.names, Prod.mk.injEq] at names
      obtain ⟨nd, ne, nc⟩ := names
      rw [nd, ne, nc]
      by_cases hc : q0.die ∈ c.dies
      · obtain ⟨e1, e2⟩ := kept q0 hq0 hc
        simp [e1, e2]
      · simp [hc]
    · obtain ⟨q, hq, rfl⟩ := List.mem_map.mp hp
      rw [renew_die] at hd ⊢
      obtain ⟨q0, hq0, hc0, differs⟩ := changed
      have names := accrued_names s s.now q0
      simp only [Perf.names, Prod.mk.injEq] at names
      obtain ⟨nd, ne, nc⟩ := names
      have new : (u.perfs.any fun q => c.dies.contains q.die && (q.event != c.event || q.ctx != c.ctx)) = true := by
        refine List.any_eq_true.mpr ⟨s.accrued s.now q0, List.mem_map.mpr ⟨q0, hq0, rfl⟩, ?_⟩
        rw [nd, ne, nc]
        have : q0.event ≠ c.event ∨ q0.ctx ≠ c.ctx := not_and_or.mp differs
        simpa [hc0] using this
      have hd' : c.dies.contains q.die = true := by simpa using hd
      unfold Snap.renew
      rw [new, hd']
      rfl
    · exact renewed _ rfl fun p hp hd => renew_same (.inr (hd ▸ hk))

/-- Settles O50, part by part. -/
theorem observationEvents : Obligations.ObservationEvents := ⟨controlsSet, weightsSet, countersRead, tracesMove, logsConsumed⟩

end Sys2Proof.Machine
end


section
/-! Contexts, grids, stops and resets (R166, R167, R294 to R296, R302, R346 to R348). -/

namespace Sys2Proof.Machine

open Sys2Proof

/-! Partitions -/

/-- The element that a test finds is replaced by one that it finds too. -/
theorem find_replaceBy_of {α : Type} {p q : α → Bool} {x y : α} {l : List α} (hl : l.find? q = some y)
    (hy : p y = true) (hx : q x = true) : (replaceBy p x l).find? q = some x := by
  induction l with
  | nil => simp at hl
  | cons z rest ih =>
    rw [replaceBy]
    by_cases hz : p z = true
    · rw [if_pos hz, List.find?_cons_of_pos hx]
    · rw [if_neg hz]
      by_cases hq : q z = true
      · rw [List.find?_cons_of_pos hq] at hl
        exact absurd (Option.some.inj hl ▸ hy) hz
      · rw [List.find?_cons_of_neg hq] at hl ⊢
        exact ih hl

theorem mem_replaceBy {α : Type} {p : α → Bool} (x : α) {y : α} {l : List α} (hy : y ∈ l) (hp : p y = true) : x ∈ replaceBy p x l := by
  induction l with
  | nil => simp at hy
  | cons z rest ih =>
    rw [replaceBy]
    split
    · exact List.mem_cons_self
    · next hz =>
      rcases List.mem_cons.mp hy with rfl | hy
      · exact absurd hp hz
      · exact List.mem_cons_of_mem z (ih hy)

theorem part?_setPart {s : State} {die : Nat} {p p' : Part} (hp : s.part? die = some p) (hd : p'.dies = p.dies) :
    (s.setPart p').part? die = some p' := by
  have holds : p.dies.contains die = true := List.find?_some (p := fun p : Part => p.dies.contains die) hp
  exact find_replaceBy_of (q := fun p : Part => p.dies.contains die) hp (by simp [hd]) (by rw [hd]; exact holds)

theorem halt_run {s : State} {die : Nat} {p : Part} (hp : s.part? die = some p) (runs : p.halted = none) (cause : BitVec 8) (u : StopUnit)
    (addr : Nat) : s.halt die cause u addr = s.setPart { p with halted := some cause, haltAt := s.now, origin := u, addr := addr } := by
  unfold State.halt
  simp only [hp, runs, Option.isSome_none, Bool.false_eq_true, if_false]

/-! Stops -/

theorem stopsRead : StopsRead := by
  intro s v dies p taken hp
  have run : exec (.stopread v dies) s = .next (State.setPart { s with replies := s.replies ++ [⟨0, [], p.recs⟩] } { p with read := true }) := by
    refine (call_taken taken (stopreadCall dies)).trans (congrArg _ ?_)
    unfold stopreadCall
    simp only [hp]
  exact ⟨_, run, rfl, mem_replaceBy (l := s.parts) _ (List.mem_of_find?_eq_some hp) (by simp), rfl, rfl, rfl, rfl⟩

theorem stopRecord_fields (s : State) (p : Part) (u : StopUnit) : (s.stopRecord p u).extractLsb' 488 8 = BitVec.ofNat 8 u.unit ∧
    (s.stopRecord p u).extractLsb' 480 8 =
      BitVec.ofNat 8 (if sameUnit p.origin u then (p.halted.getD 0).toNat else 0x06) := by
  unfold State.stopRecord
  exact ⟨record_field [(8, 1), (8, 0)] _ 8 u.unit 488 rfl (by simp) (by decide),
    record_field [(8, 1), (8, 0), (8, u.unit)] _ 8 _ 480 rfl (by simp) (by decide)⟩

theorem unitsStop : UnitsStop := by
  intro s u p cause lim hp halted limit exists_ power skid from_ until_
  have runs (h : (p.halted.isNone || p.stopped.any (sameUnit u) || decide (lim < u.skid) || decide (s.now - u.skid < p.haltAt) ||
      decide (p.haltAt + 125 < s.now - u.skid)) = p.stopped.any (sameUnit u)) : exec (.unitStop ⟨u, none⟩) s =
      .next (if p.stopped.any (sameUnit u) then s
        else s.setPart { p with recs := p.recs ++ [s.stopRecord p u], stopped := p.stopped ++ [u] }) := by
    show execUnitStop ⟨u, none⟩ s = _
    unfold execUnitStop
    simp only [hp, limit, exists_, power]
    rw [if_neg (by decide), h]
    split <;> rfl
  have within : (p.halted.isNone || p.stopped.any (sameUnit u) || decide (lim < u.skid) || decide (s.now - u.skid < p.haltAt) ||
      decide (p.haltAt + 125 < s.now - u.skid)) = p.stopped.any (sameUnit u) := by
    rw [halted, decide_eq_false (show ¬ lim < u.skid by omega), decide_eq_false (show ¬ s.now - u.skid < p.haltAt by omega),
      decide_eq_false (show ¬ p.haltAt + 125 < s.now - u.skid by omega)]
    simp
  have run := runs within
  refine ⟨fun first => ?_, fun again => run.trans (congrArg _ (if_pos again))⟩
  obtain ⟨unit, why⟩ := stopRecord_fields s p u
  refine ⟨_, run.trans (congrArg _ (if_neg (by simp [first]))), _, _, part?_setPart hp rfl, rfl, rfl, halted, unit, ?_, rfl, rfl, rfl, rfl⟩
  rw [why]
  split
  · rw [halted]; simp
  · rfl

theorem memoryErrorsHalt : MemoryErrorsHalt := by
  intro s u p lim addr hp runs limit exists_ power
  have run : exec (.unitStop ⟨u, some addr⟩) s = .next (s.halt u.die haltMemory { u with skid := 0 } addr) := by
    show execUnitStop ⟨u, some addr⟩ s = _
    unfold execUnitStop
    simp only [hp, limit, exists_, power, runs]
    rfl
  rw [halt_run hp runs] at run
  exact ⟨_, run, _, part?_setPart hp rfl, rfl, rfl, by simp [sameUnit], rfl, rfl, rfl, rfl, rfl, rfl⟩

/-- Traces apart nothing differs. -/
def State.sameButTrace (s t : State) : Prop := ({ t with trace := s.trace, loss := s.loss } : State) = s

theorem State.sameButTrace.trans {s t u : State} (h : s.sameButTrace t) (k : t.sameButTrace u) : s.sameButTrace u := by
  calc ({ u with trace := s.trace, loss := s.loss } : State)
      = { ({ u with trace := t.trace, loss := t.loss } : State) with trace := s.trace, loss := s.loss } := rfl
    _ = { t with trace := s.trace, loss := s.loss } := by rw [k]
    _ = s := h

theorem sameButTrace_foldl {α : Type} (f : State → α → State) (hf : ∀ (s : State) a, s.sameButTrace (f s a)) (l : List α) :
    ∀ s : State, s.sameButTrace (l.foldl f s) := by
  induction l with
  | nil => exact fun _ => rfl
  | cons a l ih => exact fun s => (hf s a).trans (ih _)

theorem sameButTrace_loseTrace (s : State) (die : Nat) : s.sameButTrace (s.loseTrace die) := by
  unfold State.loseTrace
  refine sameButTrace_foldl _ (fun _ _ => ?_) _ s
  rfl

theorem State.sameButTrace.field {α : Type} {s t : State} (h : s.sameButTrace t) (f : State → α)
    (hf : ∀ (u : State) tr l, f { u with trace := tr, loss := l } = f u) : f t = f s := by
  rw [← hf t s.trace s.loss]
  exact congrArg f h

theorem tripsStop : TripsStop := by
  intro s die hd
  refine ⟨fun p booted power hp runs => ?_, fun early safe => ?_⟩
  · set u : State := s.gateDie die with hu
    have lost := sameButTrace_loseTrace s die
    have parts : u.parts = s.parts := lost.field State.parts fun _ _ _ => rfl
    have gated : u.gatedDies = s.gatedDies ++ [die] := by
      rw [hu]
      unfold State.gateDie
      dsimp only
      rw [lost.field State.gatedDies fun _ _ _ => rfl, power]
      rfl
    have found : u.part? die = some p := by unfold State.part?; rw [parts]; exact hp
    have own : u.ownPart die = u := if_pos (by rw [found]; rfl)
    set q : Part := { p with halted := some haltThermal, haltAt := u.now, origin := ⟨6, 0x3FF, die, 0, 0⟩, addr := 0 } with hq
    have halted : u.halt die haltThermal ⟨6, 0x3FF, die, 0, 0⟩ 0 = u.setPart q := halt_run found runs ..
    have foundQ : (u.setPart q).part? die = some q := part?_setPart found rfl
    set r := record [(8, 1), (8, 0), (8, 6), (8, 0x07), (10, 0x3FF), (2, die), (4, 0), (32, 0), (64, (u.setPart q).now), (16, 0),
        (52, 0), (44, 0), (256, 0)] with hr
    have run : exec (.thermalTrip die) s = .next ((u.setPart q).setPart { q with recs := q.recs ++ [r] }) := by
      show execThermalTrip die s = _
      unfold execThermalTrip
      rw [if_neg (not_or.mpr ⟨Nat.not_le.mpr hd, fun h => by rw [power] at h; exact absurd h.1 (by decide)⟩), if_neg (by simp [booted]), ← hu, own, halted]
      simp only [foundQ]
      rfl
    refine ⟨_, run, ?_, fun d hd' => ?_, _, r, part?_setPart foundQ rfl, rfl, rfl, ?_, ?_, ?_, ?_, ?_⟩
    · show die ∈ u.gatedDies
      rw [gated]; simp
    · show d ∈ u.gatedDies
      rw [gated]; exact List.mem_append_left _ hd'
    · exact record_field [(8, 1), (8, 0), (8, 6)] _ 8 7 480 rfl (by simp) (by decide)
    · exact lost.field State.groups fun _ _ _ => rfl
    · exact lost.field State.dram fun _ _ _ => rfl
    · exact lost.field State.scratch fun _ _ _ => rfl
    · exact lost.field State.scw fun _ _ _ => rfl
  · have run : exec (.thermalTrip die) s = .next (s.safeState 6) := by
      show execThermalTrip die s = _
      unfold execThermalTrip
      rw [if_neg (not_or.mpr ⟨Nat.not_le.mpr hd, fun h => by rw [early] at h; exact absurd h.2 (by decide)⟩), if_pos (by simp [early]), if_neg (by simp [safe])]
    refine ⟨_, run, 6, rfl, rfl, fun l hl => ?_, rfl⟩
    obtain ⟨l', -, rfl⟩ := List.mem_map.mp hl
    rfl

theorem partitionsReset : PartitionsReset := by
  intro s dies p booted hp
  set nos := (s.ctxs.filter fun c => c.dies == p.dies).map (·.no) with hnos
  set u : State := p.dies.foldl (fun s d => if s.gatedDies.contains d then s else s.loseTrace d) s with hu
  have lost : s.sameButTrace u := by
    refine sameButTrace_foldl _ (fun s d => ?_) _ s
    split
    exacts [rfl, sameButTrace_loseTrace s d]
  have run : exec (.partitionReset dies) s = .next { u.discard fun x => nos.contains x with
      switches := (u.discard fun x => nos.contains x).switches.filter fun w => !p.dies.contains (dieOf w.core)
      gatedDies := (u.discard fun x => nos.contains x).gatedDies.filter fun d => !p.dies.contains d
      gatedClusters := (u.discard fun x => nos.contains x).gatedClusters.filter fun k => !p.dies.contains (k / 20)
      gatings := (u.discard fun x => nos.contains x).gatings.filter fun g => !p.dies.contains (g.1 / 20)
      parts := (u.discard fun x => nos.contains x).parts.filter fun q => q.dies != p.dies } := by
    show execPartitionReset dies s = _
    unfold execPartitionReset
    simp only [hp]
    rw [if_neg (by simp [booted])]
  have named {c : Ctx} (hc : c ∈ s.ctxs) (hd : c.dies = p.dies) : nos.contains c.no = true := by
    simpa [hnos] using ⟨c, ⟨hc, hd⟩, rfl⟩
  refine ⟨_, run, fun q hq => ?_, fun c hc => ?_, fun d hd => ?_, fun c hc other only => ?_, ?_, ?_⟩
  · obtain ⟨h1, h2⟩ := List.mem_filter.mp hq
    exact ⟨(lost.field State.parts fun _ _ _ => rfl) ▸ h1, by simpa using h2⟩
  · obtain ⟨h1, h2⟩ := List.mem_filter.mp hc
    have h1 : c ∈ s.ctxs := (lost.field State.ctxs fun _ _ _ => rfl) ▸ h1
    have h2 : (!nos.contains c.no) = true := h2
    exact ⟨h1, fun hd => by rw [named h1 hd] at h2; exact absurd h2 (by decide)⟩
  · obtain ⟨h1, h2⟩ := List.mem_filter.mp hd
    exact ⟨(lost.field State.gatedDies fun _ _ _ => rfl) ▸ h1, by simpa using h2⟩
  · have stays : nos.contains c.no = false := by
      refine Bool.eq_false_iff.mpr fun h => ?_
      obtain ⟨e, he, hn⟩ : ∃ e, (e ∈ s.ctxs ∧ e.dies = p.dies) ∧ e.no = c.no := by simpa [hnos] using h
      exact other (only e he.1 hn ▸ he.2)
    refine List.mem_filter.mpr ⟨?_, show (!nos.contains c.no) = true by rw [stays]; rfl⟩
    show c ∈ u.ctxs
    rw [lost.field State.ctxs fun _ _ _ => rfl]
    exact hc
  · exact lost.field State.dram fun _ _ _ => rfl
  · exact lost.field State.scratch fun _ _ _ => rfl

/-! Contexts and grids -/

theorem gridsRun : GridsRun := by
  intro s v ctx die desc named proc thread c d taken hc runs hdie placed hd small fits limit
  set params := wordsFrom (s.scratch.readList (scratchKey c die desc + 64) (4 * d.nparam)) d.nparam with hparams
  set dies := if named then [die] else c.dies with hdies
  have run : exec (.gridrun v ctx die named desc proc thread) s =
      .next ((s.makeGrid ctx d params 0 (coresOf dies) 0 none proc thread).2.reply 0 [c.gridCtr.toNat]) := by
    refine (call_taken taken (gridrunCall ctx die named desc proc thread)).trans (congrArg _ ?_)
    unfold gridrunCall
    simp only [hc, hd, small]
    rw [if_neg (by rw [runs]; decide), if_neg (by rw [hdie, placed]; decide),
      if_neg (by rw [decide_eq_false (Nat.not_lt.mpr fits)]; decide), if_neg (by rw [limit]; decide)]
    unfold State.makeGrid
    simp only [hc]
    rfl
  refine ⟨_, run, ?_⟩
  unfold State.makeGrid
  simp only [hc]
  have no := ctx?_no hc
  exact ⟨rfl, ctx?_setCtx (c' := { c with gridCtr := c.gridCtr + 1 }) hc no, ⟨_, rfl, rfl, rfl, rfl, rfl, rfl, rfl, rfl, rfl,
    rfl, rfl, rfl, rfl, rfl, rfl, rfl⟩, rfl, rfl, rfl, rfl⟩

/-- What a region that is zeroed reads as, and every byte outside it. -/
theorem zeroRegion_read (s : State) (dies : List Nat) (base size : Nat) :
    (∀ d ∈ dies, ∀ i, i < size → (s.zeroRegion dies base size).scratch.read (d * 2 ^ 28 + base + i) = 0) ∧
      ∀ a, (∀ d ∈ dies, a < d * 2 ^ 28 + base ∨ d * 2 ^ 28 + base + size ≤ a) →
        (s.zeroRegion dies base size).scratch.read a = s.scratch.read a := by
  have read (a : Nat) : (s.zeroRegion dies base size).scratch.read a =
      if !(dies.any fun d => decide (d * 2 ^ 28 + base ≤ a ∧ a < d * 2 ^ 28 + base + size)) then s.scratch.read a else 0 :=
    Sparse.get_filter_key (d := Memory.unlisted)
      (fun a => !(dies.any fun d => decide (d * 2 ^ 28 + base ≤ a ∧ a < d * 2 ^ 28 + base + size))) s.scratch a
  refine ⟨fun d hd i hi => ?_, fun a ha => ?_⟩
  · rw [read, if_neg]
    simp only [Bool.not_eq_true', Bool.not_eq_false]
    exact List.any_eq_true.mpr ⟨d, hd, decide_eq_true ⟨by omega, by omega⟩⟩
  · rw [read, if_pos]
    simp only [Bool.not_eq_true']
    exact List.any_eq_false.mpr fun d hd => by have := ha d hd; simp only [decide_eq_true_eq]; omega

/-- Which context is active where apart nothing differs. -/
theorem activate_eq (s : State) (dies : List Nat) (no : Nat) :
    ({ s.activate dies no with active := s.active } : State) = s := by
  unfold State.activate
  generalize coresOf dies = l
  induction l generalizing s with
  | nil => rfl
  | cons k l ih =>
    rw [List.foldl_cons]
    split
    · exact ih s
    · have h := ih { s with active := Sparse.insert k no s.active }
      exact congrArg (fun u : State => { u with active := s.active }) h

theorem activate_field {α : Type} (s : State) (dies : List Nat) (no : Nat) (f : State → α) (hf : ∀ (u : State) a, f { u with active := a } = f u) :
    f (s.activate dies no) = f s := by
  rw [← hf (s.activate dies no) s.active]
  exact congrArg f (activate_eq s dies no)

theorem contextsBegin : ContextsBegin := by
  intro s v n taken runs part legal new alone fits
  set dies := orderDies n.dies with hdies
  set parts : List Part := if s.parts.any fun p => p.dies == dies then s.parts else s.parts ++ [Part.fresh dies] with hparts
  set u : State := { s.zeroRegion dies n.scBase n.scSize with parts := parts, ctxs := s.ctxs ++ [Ctx.create { n with dies := dies }] } with hu
  have clash : ((s.sharing dies).any fun c => c.clashes n.slot n.ctl.split || c.overlaps n.scBase n.scSize) = false :=
    List.any_eq_false.mpr fun c hc => by simp [alone c hc]
  have run : exec (.ctxnew v n) s = .next ((u.activate dies n.no).reply 0 []) := by
    refine (call_taken taken (ctxnewCall n)).trans (congrArg _ ?_)
    unfold ctxnewCall
    dsimp only
    rw [if_neg (by rw [runs]; decide), if_neg (by rw [part]; decide), if_neg (by rw [legal, new]; decide), if_neg (by rw [clash]; decide),
      if_neg (by rw [fits]; decide)]
    rfl
  have ctxs (m : Nat) : ((u.activate dies n.no).reply 0 []).ctx? m = u.ctx? m :=
    ctx?_congr (activate_field u dies n.no State.ctxs fun _ _ => rfl) m
  obtain ⟨zero, out⟩ := zeroRegion_read s dies n.scBase n.scSize
  have scratch : ((u.activate dies n.no).reply 0 []).scratch = (s.zeroRegion dies n.scBase n.scSize).scratch :=
    activate_field u dies n.no State.scratch fun _ _ => rfl
  refine ⟨_, run, ?_, ⟨Ctx.create { n with dies := dies }, ?_, rfl, rfl, rfl, rfl, rfl, rfl, rfl, rfl, rfl, rfl⟩, fun m c hm => ?_, ?_, ?_, ?_, ?_, ?_⟩
  · show (u.activate dies n.no).replies ++ _ = _
    rw [activate_field u dies n.no State.replies fun _ _ => rfl]
    rfl
  · rw [ctxs]
    show (s.ctxs ++ [Ctx.create { n with dies := dies }]).find? (fun c => c.no == n.no) = _
    rw [List.find?_append, show s.ctxs.find? (fun c => c.no == n.no) = none from new]
    simp [Ctx.create]
  · rw [ctxs]
    show (s.ctxs ++ [Ctx.create { n with dies := dies }]).find? (fun c => c.no == m) = _
    rw [List.find?_append, show s.ctxs.find? (fun c => c.no == m) = some c from hm]
    rfl
  · rw [scratch]; exact zero
  · rw [scratch]; exact out
  · exact activate_field u dies n.no State.groups fun _ _ => rfl
  · exact activate_field u dies n.no State.blocks fun _ _ => rfl
  · exact activate_field u dies n.no State.dram fun _ _ => rfl

/-! The other context of a pair made active -/

/-- Churns, active contexts, groups and units' last contexts apart nothing differs. -/
def State.exchanged (s t : State) : Prop :=
  ({ t with churn := s.churn, frozen := s.frozen, churnEnd := s.churnEnd, active := s.active, groups := s.groups, lastCtx := s.lastCtx } :
    State) = s

theorem State.exchanged.trans {s t u : State} (h : s.exchanged t) (k : t.exchanged u) : s.exchanged u := by
  calc ({ u with churn := s.churn, frozen := s.frozen, churnEnd := s.churnEnd, active := s.active, groups := s.groups,
                 lastCtx := s.lastCtx } : State)
      = { ({ u with churn := t.churn, frozen := t.frozen, churnEnd := t.churnEnd, active := t.active, groups := t.groups,
                    lastCtx := t.lastCtx } : State) with
          churn := s.churn, frozen := s.frozen, churnEnd := s.churnEnd, active := s.active, groups := s.groups, lastCtx := s.lastCtx } := rfl
    _ = { t with churn := s.churn, frozen := s.frozen, churnEnd := s.churnEnd, active := s.active, groups := s.groups,
                 lastCtx := s.lastCtx } := by rw [k]
    _ = s := h

theorem State.exchanged.field {α : Type} {s t : State} (h : s.exchanged t) (f : State → α)
    (hf : ∀ (u : State) c z e a g l, f { u with churn := c, frozen := z, churnEnd := e, active := a, groups := g, lastCtx := l } = f u) :
    f t = f s := by
  rw [← hf t s.churn s.frozen s.churnEnd s.active s.groups s.lastCtx]
  exact congrArg f h

theorem exchanged_foldl {α : Type} (f : State → α → State) (hf : ∀ (s : State) a, s.exchanged (f s a)) (l : List α) :
    ∀ s : State, s.exchanged (l.foldl f s) := by
  induction l with
  | nil => exact fun _ => rfl
  | cons a l ih => exact fun s => (hf s a).trans (ih _)

theorem exchanged_freezeOps (s : State) (core : Nat) (which : ChurnOp → Bool) : s.exchanged (s.freezeOps core which) := by
  unfold State.freezeOps
  split <;> rfl

theorem exchanged_thawOps (s : State) (core : Nat) (which : ChurnOp → Bool) : s.exchanged (s.thawOps core which) := by
  unfold State.thawOps
  refine State.exchanged.trans ?_ (exchanged_foldl _ (fun _ _ => ?_) _ _) <;> rfl

theorem State.exchanged.active_groups {s t : State} (h : s.exchanged t) (a : Sparse Nat) (g : List Group) :
    s.exchanged { t with active := a, groups := g } := h

theorem exchanged_exchange (s : State) (core dest : Nat) : s.exchanged (s.exchange core dest) := by
  unfold State.exchange
  exact ((exchanged_freezeOps s core _).active_groups _ _).trans (exchanged_thawOps _ core _)

theorem contextsEnd : ContextsEnd := by
  intro s v no c taken hc runs idle
  have none_ : (s.grids.any fun g => g.ctx == no) = false := List.any_eq_false.mpr fun g hg => by simpa using idle g hg
  set u : State := (s.zeroRegion c.dies c.scBase c.scSize).discard fun x => x == no with hu
  set w : State := { u with
    switches := u.switches.filter fun w => !c.dies.contains (dieOf w.core)
    parts := u.parts.filter fun p => p.dies != c.dies || u.ctxs.any fun x => x.dies == p.dies } with hw
  have run : exec (.ctxfree v no) s = .next ((w.succeed c.dies).reply 0 []) := by
    refine (call_taken taken (ctxfreeCall no)).trans (congrArg _ ?_)
    unfold ctxfreeCall
    simp only [hc]
    rw [if_neg (by rw [runs]; decide), if_neg (by rw [none_]; decide)]
  have same : w.exchanged (w.succeed c.dies) := by
    refine exchanged_foldl _ (fun s k => ?_) _ w
    split
    · split
      exacts [rfl, exchanged_exchange ..]
    · rfl
  have ctxs : ((w.succeed c.dies).reply 0 []).ctxs = s.ctxs.filter fun c => !(c.no == no) := same.field State.ctxs fun _ _ _ _ _ _ _ => rfl
  obtain ⟨zero, -⟩ := zeroRegion_read s c.dies c.scBase c.scSize
  refine ⟨_, run, ?_, ?_, fun m hm => ?_, ?_, fun b hb => ?_, ?_, ?_⟩
  · show (w.succeed c.dies).replies ++ _ = _
    rw [same.field State.replies fun _ _ _ _ _ _ _ => rfl]
    rfl
  · unfold State.ctx?
    rw [ctxs]
    exact List.find?_eq_none.mpr fun x hx => by simpa using (List.mem_filter.mp hx).2
  · unfold State.ctx?
    rw [ctxs, List.find?_filter]
    congr 1
    funext x
    by_cases hx : x.no = m <;> simp [hx, hm]
  · refine (same.field State.grids fun _ _ _ _ _ _ _ => rfl).trans ?_
    exact List.filter_eq_self.mpr fun g hg => by simpa using idle g hg
  · have hb : b ∈ (w.succeed c.dies).blocks := hb
    rw [same.field State.blocks fun _ _ _ _ _ _ _ => rfl] at hb
    obtain ⟨h1, h2⟩ := List.mem_filter.mp hb
    exact ⟨h1, by simpa using h2⟩
  · rw [show ((w.succeed c.dies).reply 0 []).scratch = (s.zeroRegion c.dies c.scBase c.scSize).scratch from
      same.field State.scratch fun _ _ _ _ _ _ _ => rfl]
    exact zero
  · exact same.field State.dram fun _ _ _ _ _ _ _ => rfl

/-- Settles O49, part by part. -/
theorem firmwareEvents : Obligations.FirmwareEvents :=
  ⟨contextsBegin, contextsEnd, gridsRun, stopsRead, partitionsReset, unitsStop, memoryErrorsHalt, tripsStop⟩

end Sys2Proof.Machine
end


section
/-! Spawned work packed, sealed and started; blocks placed and retired (R142 to R144, R147, R148, R169, R356). -/

namespace Sys2Proof.Machine

open Sys2Proof

/-! Spawned work -/

theorem itemsPack : ItemsPack := by
  intro s core it rest taken runs
  have run {t : State} (h : ({ s with spawnQ := rest } : State).packItem core it = some t) : exec (.spawnPackItem core) s = .next t := by
    show execSpawnPackItem core s = _
    unfold execSpawnPackItem
    simp only [taken, h]
    rw [if_pos runs]
  refine ⟨fun o ho => ⟨fun open_ => ?_, fun full => ?_⟩, fun new room => ?_⟩
  · refine ⟨{ s with spawnQ := rest, openG := replaceBy (fun p => p.oid == o.oid) { o with args := o.args ++ [it.arg] } s.openG },
      run ?_, rfl, rfl, rfl, rfl⟩
    unfold State.packItem
    simp only [ho]
    rw [if_neg (by rw [List.length_append]; exact open_)]
  · refine ⟨{ s with
      spawnQ := rest
      openG := s.openG.filter fun p => p.oid != o.oid
      sealedG := s.sealedG ++ [{ o with args := o.args ++ [it.arg] }] }, run ?_, rfl, rfl, rfl, rfl⟩
    unfold State.packItem
    simp only [ho]
    rw [if_pos (by rw [List.length_append]; exact full)]
  · refine ⟨{ s with spawnQ := rest, nextId := s.nextId + 1, openG := s.openG ++ [⟨s.nextId, core, it.pc, it.bid, it.depth, [it.arg], s.now⟩] },
      run ?_, rfl, rfl, rfl, rfl⟩
    unfold State.packItem
    simp only [new]
    rw [if_neg (Nat.not_le.mpr room)]
    rfl

theorem partialsSeal : PartialsSeal := by
  intro s core oid o ho runs
  refine ⟨fun due => ⟨{ s with openG := s.openG.filter fun p => p.oid != oid, sealedG := s.sealedG ++ [o] }, ?_, rfl, rfl, rfl⟩, fun early => ?_⟩
  · show execPartialGroupSeal core oid s = _
    unfold execPartialGroupSeal
    simp only [ho]
    rw [if_pos (by rw [runs, decide_eq_true due]; rfl)]
  · show execPartialGroupSeal core oid s = _
    unfold execPartialGroupSeal
    simp only [ho]
    rw [if_neg (by rw [decide_eq_false (Nat.not_le.mpr early), Bool.false_and]; decide)]

/-- Thread t of a spawned group finds its argument in v0 and v1 (R144). -/
def Group.argued (args : List DWord) (g : Group) (t : Nat) : Group :=
  (g.vset 0 t ((args.getD t 0).extractLsb' 0 32)).vset 1 t ((args.getD t 0).extractLsb' 32 32)

theorem regsOnly_argued (args : List DWord) (l : List Nat) (g : Group) : g.RegsOnly (l.foldl (Group.argued args) g) := by
  induction l generalizing g with
  | nil => exact .refl g
  | cons t l ih => exact Group.RegsOnly.trans (b := g.argued args t) rfl (ih _)

theorem vget_argued (args : List DWord) {l : List Nat} (hl : ∀ t ∈ l, t < 32) {n : Nat} (hn : n < 32) (g : Group) {w : Word} {r : Nat}
    (hw : (r = 0 ∧ w = (args.getD n 0).extractLsb' 0 32) ∨ (r = 1 ∧ w = (args.getD n 0).extractLsb' 32 32)) (h : n ∈ l ∨ g.vget r n = w) :
    (l.foldl (Group.argued args) g).vget r n = w := by
  induction l generalizing g with
  | nil => exact h.resolve_left List.not_mem_nil
  | cons t l ih =>
    have ht := hl t List.mem_cons_self
    refine ih (fun u hu => hl u (List.mem_cons_of_mem t hu)) _ ?_
    have value : (g.argued args t).vget r n = if n = t then w else g.vget r n := by
      unfold Group.argued
      rw [vget_vset ht hn, vget_vset ht hn]
      by_cases same : n = t
      · subst same
        rcases hw with ⟨rfl, rfl⟩ | ⟨rfl, rfl⟩ <;> simp
      · simp [same]
    by_cases same : n = t
    · exact .inr (value.trans (if_pos same))
    · rw [value, if_neg same]
      exact h.imp_left fun h => (List.mem_cons.mp h).resolve_left same

/-- A group that has been added under a new name, beside those that stood there. -/
theorem group?_added {s t : State} {g : Group} (ht : t.groups = s.groups ++ [g]) (new : s.group? g.gid = none) :
    t.group? g.gid = some g ∧ ∀ h, h ≠ g.gid → t.group? h = s.group? h := by
  unfold State.group? at *
  rw [ht]
  refine ⟨by rw [List.find?_append, new]; simp, fun h other => ?_⟩
  rw [List.find?_append]
  simp [Ne.symm other]

theorem spawnedStart : SpawnedStart := by
  intro s core slot o b c ho hb hc free runs phase count new
  set g := spawnedGroup s.nextId o slot with hg
  set g0 : Group := { Group.launch s.nextId o.bid allOnes32 o.core (slot % 16) (slot / 16) o.depth (groupMask o.args.length 0) o.pc [] with
    spawned := true, member := 0 } with hg0
  have only : g0.RegsOnly g := regsOnly_argued o.args (List.range o.args.length) g0
  have field {α : Type} (f : Group → α) (hf : ∀ (g : Group) r, f { g with regs := r } = f g) : f g = f g0 := by
    have k := congrArg f only
    exact k.trans (hf g0 _)
  have core_ : o.core = core := by simpa using List.find?_some ho
  have run : exec (.spawnedGroupStart core) s = .next { ({ s with nextId := s.nextId + 1 } : State).inherit o.bid s.nextId with
      groups := s.groups ++ [g], sealedG := s.sealedG.filter fun p => p.oid != o.oid } := by
    show execSpawnedGroupStart core s = _
    unfold execSpawnedGroupStart
    simp only [ho, hb, hc, free]
    rw [if_neg (by simp [runs, phase])]
    rfl
  have gid : g.gid = s.nextId := field Group.gid fun _ _ => rfl
  obtain ⟨found, rest⟩ := group?_added (t := { ({ s with nextId := s.nextId + 1 } : State).inherit o.bid s.nextId with
      groups := s.groups ++ [g], sealedG := s.sealedG.filter fun p => p.oid != o.oid }) rfl (gid.symm ▸ new)
  rw [gid] at found rest
  refine ⟨_, run, g, found, field Group.spawned fun _ _ => rfl, field Group.bid fun _ _ => rfl, field Group.pc fun _ _ => rfl,
    field Group.depth fun _ _ => rfl, (field Group.core fun _ _ => rfl).trans core_, (field Group.slot fun _ _ => rfl).trans ?_,
    field Group.amask fun _ _ => rfl, fun n a ha => ?_, rfl, rest⟩
  · show 16 * (slot / 16) + slot % 16 = slot
    omega
  · obtain ⟨hn, -⟩ := List.getElem?_eq_some_iff.mp ha
    have arg : o.args.getD n 0 = a := by rw [List.getD_eq_getElem?_getD, ha]; rfl
    have small : ∀ t ∈ List.range o.args.length, t < 32 := fun t ht => Nat.lt_of_lt_of_le (List.mem_range.mp ht) count
    have hn' : n < 32 := Nat.lt_of_lt_of_le hn count
    exact ⟨vget_argued o.args small hn' g0 (.inl ⟨rfl, by rw [arg]⟩) (.inl (List.mem_range.mpr hn)),
      vget_argued o.args small hn' g0 (.inr ⟨rfl, by rw [arg]⟩) (.inl (List.mem_range.mpr hn))⟩

/-! Blocks placed -/

theorem nextBlock_of {s : State} {g g1 : Grid} {e : Again}
    (h : (g.again = [] ∧ g.next < g.size ∧ e = ⟨s.nextId, g.next, 0, 0, 0⟩ ∧ g1 = { g with next := g.next + 1 }) ∨
      (g.again = [e] ∧ (∀ r ∈ s.prereqs, r.ctx = g.ctx → r.core ≠ e.core) ∧ e.bid < s.nextId ∧ g1 = { g with again := [] })) :
    s.nextBlock g = some (e, g1) := by
  unfold State.nextBlock
  rcases h with ⟨none_, more, rfl, rfl⟩ | ⟨one, ended, -, rfl⟩
  · rw [none_]
    exact if_pos more
  · have ended' : (!(s.prereqs.any fun r => r.ctx == g.ctx && r.core == e.core)) = true := by
      rw [Bool.not_eq_true']
      exact List.any_eq_false.mpr fun r hr => by simpa using ended r hr
    rw [one]
    simp [ended']

/-- What the groups of a block are as it is placed, by their number in it (R129). -/
def Block.member (b : Block) (g : Grid) (first j : Nat) : Group :=
  Group.launch (first + j) b.bid j b.core (4 * (b.places.getD (j / 4) 0 % 4) + j % 4) (b.places.getD (j / 4) 0 / 4) g.depth
    (groupMask g.nthr j) g.entry g.params

theorem find_members {b : Block} {g : Grid} {first n j : Nat} (hj : j < n) :
    ((List.range n).map (b.member g first)).find? (fun m => m.gid == first + j) = some (b.member g first j) := by
  refine List.find?_eq_some_iff_getElem.mpr ⟨by simp [Block.member, Group.launch], j, by simpa using hj, by simp, fun i hi => ?_⟩
  have : first + i ≠ first + j := by omega
  simpa [Block.member, Group.launch] using this

theorem blocksPlace : BlocksPlace := by
  intro s ctx num hot g g1 e c core places hg hc next chosen room new old first
  set g' : Grid := { g1 with ptr := (g.cores.findIdx (fun x => x == core) + 1) % g.cores.length } with hg'
  set b : Block := { Block.launch e.bid g' e.idx core places with carryE := e.energy, carryN := e.count } with hb
  have run : exec (.placeBlock ctx ⟨num, hot⟩) s = .next ((s.setGrid g').putBlock g' e core places) := by
    show execPlaceBlock ctx ⟨num, hot⟩ s = _
    unfold execPlaceBlock
    simp only [hg, hc, nextBlock_of next]
    rw [show chooseCore (fun core => s.placesOn ctx core && (s.roomFor c core g.nthr g.shmem g.ntile).isSome) (hot.contains ·)
      (cyclicFrom g.cores g.ptr) = some core from chosen]
    simp only [room]
    rfl
  have same : g1.gid = g.gid ∧ g1.nthr = g.nthr ∧ g1.entry = g.entry ∧ g1.depth = g.depth ∧ g1.ctx = g.ctx ∧ g1.num = g.num := by
    rcases next with ⟨-, -, -, rfl⟩ | ⟨-, -, -, rfl⟩ <;> exact ⟨rfl, rfl, rfl, rfl, rfl, rfl⟩
  obtain ⟨gid, nthr, entry, depth, ctx_, num_⟩ := same
  set t := (s.setGrid g').putBlock g' e core places with ht
  have blocks : t.blocks = s.blocks ++ [b] := by rw [ht]; unfold State.putBlock; exact traceEvent_blocks ..
  have groups : t.groups = s.groups ++ (List.range ((g'.nthr + 31) / 32)).map (b.member g' first) := by
    rw [ht]; unfold State.putBlock; exact traceEvent_groups ..
  have grids : t.grids = replaceBy (fun x => x.gid == g'.gid) g' s.grids := by rw [ht]; unfold State.putBlock; exact traceEvent_grids ..
  have dram : t.dram = s.dram := by rw [ht]; unfold State.putBlock; exact traceEvent_dram ..
  refine ⟨t, run, b, g', ?_, congrArg BitVec.toNat num_, ctx_, rfl, rfl, rfl, rfl, rfl, rfl, rfl, ?_, rfl, fun j hj => ?_, dram⟩
  · unfold State.block? at *
    rw [blocks, List.find?_append, new]
    simp [hb, Block.launch]
  · rw [grids]
    exact mem_replaceBy g' (List.mem_of_find?_eq_some hg) (by simp [hg', gid])
  · refine ⟨b.member g' first j, ?_, rfl, rfl, rfl, entry, ?_, depth⟩
    · unfold State.group?
      rw [groups, List.find?_append, List.find?_eq_none.mpr, Option.none_or]
      · exact find_members (by rw [show g'.nthr = g.nthr from nthr]; exact hj)
      · intro h hh
        have lt := old h hh
        have : s.nextId ≤ first := Nat.le_max_left ..
        simp only [beq_iff_eq]
        omega
    · show groupMask g'.nthr j = _
      rw [show g'.nthr = g.nthr from nthr]

/-! Blocks retired -/

theorem performBlock_ctx (s : State) (bid core no : Nat) : (s.performBlock bid core).ctx? no = s.ctx? no := by
  unfold State.performBlock
  split <;> rfl

/-- A block's pending writes, and those that come before its accesses, are none or some. -/
theorem performBlock_memory (s : State) (bid core : Nat) :
    ((∀ w ∈ s.scw, w.bid ≠ bid ∧ bid ∉ w.past) → s.performBlock bid core = s) ∧
      ((∃ w ∈ s.scw, w.bid = bid ∨ bid ∈ w.past) → s.performBlock bid core = s.performCore core) := by
  unfold State.performBlock
  refine ⟨fun none_ => if_neg ?_, fun ⟨w, hw, some_⟩ => if_pos ?_⟩
  · simpa using none_
  · exact List.any_eq_true.mpr ⟨w, hw, by simpa using some_⟩

theorem performBlock_field {α : Type} (s : State) (bid core : Nat) (f : State → α) (hf : ∀ (s : State) m w, f { s with scratch := m, scw := w } = f s) :
    f (s.performBlock bid core) = f s := by
  unfold State.performBlock
  split
  · exact hf ..
  · rfl

theorem blocksRetire : BlocksRetire := by
  intro s bid b g hb done runs hg
  set u := (s.performBlock bid b.core).logEnergy b with hu
  set v := u.traceEvent b.ctx 2 b.core 0 b.core (u.blockName bid) allOnes32 0 0 with hv
  set w : State := { v with blocks := v.blocks.filter fun x => x.bid != bid } with hw
  have run : exec (.blockRetire bid) s = .next (w.countRetired b.ctx b.grid) := by
    show execBlockRetire bid s = _
    unfold execBlockRetire
    simp only [hb]
    rw [if_neg (by simp [done, runs])]
  have same {α : Type} (f : State → α) (hf : ∀ (s : State) m w, f { s with scratch := m, scw := w } = f s)
      (hl : f u = f (s.performBlock bid b.core)) (ht : f v = f u) : f v = f s :=
    ht.trans (hl.trans (performBlock_field s bid b.core f hf))
  have grids : w.grids = s.grids := same State.grids (fun _ _ _ => rfl) (log_grids ..) (traceEvent_grids ..)
  have blocks : v.blocks = s.blocks := same State.blocks (fun _ _ _ => rfl) (log_blocks ..) (traceEvent_blocks ..)
  have groups : v.groups = s.groups := same State.groups (fun _ _ _ => rfl) (log_groups ..) (traceEvent_groups ..)
  have dram : v.dram = s.dram := same State.dram (fun _ _ _ => rfl) (log_dram ..) (traceEvent_dram ..)
  have scratch : v.scratch = (s.performBlock bid b.core).scratch := (traceEvent_scratch ..).trans (log_scratch ..)
  have scw : v.scw = (s.performBlock bid b.core).scw := (traceEvent_scw ..).trans (log_scw ..)
  have counted : w.countRetired b.ctx b.grid = { w with
      grids := if g.size ≤ g.retired + 1 then w.grids.filter (fun x => x.gid != g.gid)
        else replaceBy (fun x => x.gid == g.gid) { g with retired := g.retired + 1 } w.grids } := by
    have hg' : w.grid? b.ctx b.grid = some g := by unfold State.grid?; rw [grids]; exact hg
    unfold State.countRetired
    simp only [hg']
    split <;> rfl
  obtain ⟨none_, some_⟩ := performBlock_memory s bid b.core
  refine ⟨_, run.trans (congrArg _ counted), ?_, groups, fun last => ?_, fun more => ?_, fun c hc room => ?_, dram, fun h => ?_, fun h => ?_⟩
  · show v.blocks.filter _ = _
    rw [blocks]
  · show (if _ then _ else _ : List Grid) = _
    rw [if_pos last, grids]
  · show (if _ then _ else _ : List Grid) = _
    rw [if_neg (Nat.not_le.mpr more), grids]
  · refine ⟨_, _, (ctx?_congr (s := u) (traceEvent_ctxs ..) _).trans (ctx?_log ?_ room ..), rfl⟩
    rw [performBlock_ctx]
    exact hc
  · exact ⟨scratch.trans (by rw [none_ h]), scw.trans (by rw [none_ h])⟩
  · exact ⟨scratch.trans (by rw [some_ h]; rfl), scw.trans (by rw [some_ h]; rfl)⟩

/-- Settles O44, part by part. -/
theorem placementEvents : Obligations.PlacementEvents := ⟨itemsPack, partialsSeal, spawnedStart, blocksPlace, blocksRetire⟩

end Sys2Proof.Machine
end


section
/-! Calls taken and refused, pre-emption, saving and restoring, switches and slices (R118, R134, R299 to R303, R325, R326, R347). -/

namespace Sys2Proof.Machine

open Sys2Proof

/-! Calls and requests -/

theorem callsRefused : CallsRefused := by
  intro s i v hi
  have run : ∃ effect, exec i s = s.call v effect := by
    cases i <;> cases hi
    case tracectl ctx kinds => exact ⟨fun s => s.ctxCall ctx fun c => { c with kinds := kinds }, rfl⟩
    case ewset weights => exact ⟨fun s => if weights.length = 9 then { s with weights := weights }.reply 0 [] else s.reply 1 [], rfl⟩
    case smplctl ctx interval =>
      exact ⟨fun s => if interval != 0 && !powerOfTwo 8 20 interval then s.reply 1 []
        else s.ctxCall ctx fun c => { c with smplN := interval, smplCtr := [] }, rfl⟩
    all_goals exact ⟨_, rfl⟩
  obtain ⟨effect, run⟩ := run
  rw [run]
  exact ⟨fun early => call_early early v effect, fun booted none_ => call_foreign booted none_ effect⟩

theorem preemptsBegin : PreemptsBegin := by
  intro s v ctx cores c taken hc runs within nodup
  set more : List PreReq := ((nubNat cores).filter fun x => !(s.prereqs.any fun r => r.ctx == ctx && r.core == x)).map
    fun x => ⟨ctx, x, s.now, false⟩ with hmore
  have run : exec (.preempt v ctx cores) s = .next (({ s with prereqs := s.prereqs ++ more } : State).reply 0 []) := by
    refine (call_taken taken (preemptCall ctx cores)).trans (congrArg _ ?_)
    unfold preemptCall
    simp only [hc]
    rw [if_neg (by rw [runs]; decide), if_neg (by
      rw [List.any_eq_true]
      rintro ⟨x, hx, out⟩
      rw [within x hx] at out
      exact absurd out (by decide))]
  have mem (q : PreReq) : q ∈ more ↔ ∃ x ∈ cores, (∀ r ∈ s.prereqs, r.ctx = ctx → r.core ≠ x) ∧ (⟨ctx, x, s.now, false⟩ : PreReq) = q := by
    simp [hmore, mem_nubNat, and_assoc]
  refine ⟨_, run, rfl, rfl, rfl, fun r hr => List.mem_append_left _ hr, fun x hx new => List.mem_append_right _ ((mem _).mpr ⟨x, hx, new, rfl⟩),
    fun r hr => ?_⟩
  rcases List.mem_append.mp hr with h | h
  · exact .inl h
  · obtain ⟨x, hx, -, rfl⟩ := (mem r).mp h
    exact .inr ⟨rfl, hx⟩

/-! Records of a passed deferral limit -/

/-- A group's record as its deferral limit passes (R134). -/
def State.noteCritx (at_ : Nat) (s : State) (g : Group) : State :=
  match s.block? g.bid with
  | some b => s.log b.ctx 0x02 0 0 g.pc.toNat (s.blockName g.bid) g.num ((s.now - at_) % 2 ^ 32)
  | none => s

theorem logCritx_eq (s : State) (which : Block → Bool) (at_ : Nat) : s.logCritx which at_ =
    (s.groups.filter fun g => decide (g.crit ≠ 0) && (match s.block? g.bid with
      | some b => which b
      | none => false)).foldl (State.noteCritx at_) s := rfl

/-- Contexts apart nothing differs. -/
def State.sameButCtxs (s t : State) : Prop := ({ t with ctxs := s.ctxs } : State) = s

theorem State.sameButCtxs.trans {s t u : State} (h : s.sameButCtxs t) (k : t.sameButCtxs u) : s.sameButCtxs u := by
  calc ({ u with ctxs := s.ctxs } : State) = { ({ u with ctxs := t.ctxs } : State) with ctxs := s.ctxs } := rfl
    _ = { t with ctxs := s.ctxs } := by rw [k]
    _ = s := h

theorem State.sameButCtxs.field {α : Type} {s t : State} (h : s.sameButCtxs t) (f : State → α)
    (hf : ∀ (u : State) c, f { u with ctxs := c } = f u) : f t = f s := by
  rw [← hf t s.ctxs]
  exact congrArg f h

theorem sameButCtxs_noteCritx (at_ : Nat) (s : State) (g : Group) : s.sameButCtxs (s.noteCritx at_ g) := by
  unfold State.noteCritx
  split
  · unfold State.log State.modCtx
    dsimp only
    split <;> rfl
  · rfl

theorem sameButCtxs_noted (at_ : Nat) (l : List Group) (s : State) : s.sameButCtxs (l.foldl (State.noteCritx at_) s) := by
  induction l generalizing s with
  | nil => rfl
  | cons g l ih => exact (sameButCtxs_noteCritx at_ s g).trans (ih _)

theorem deferralsEnd : DeferralsEnd := by
  intro s ctx core c r hc limit hr rctx rcore rcritx passed runs
  obtain ⟨q, hq⟩ : ∃ q, (s.prereqs.find? fun r => r.ctx == ctx && r.core == core && !r.critx &&
      (c.ctl.defer != 0 && s.coreRuns core && decide (r.at_ + c.ctl.defer.toNat ≤ s.now))) = some q := by
    refine Option.isSome_iff_exists.mp (List.find?_isSome.mpr ⟨r, hr, ?_⟩)
    simpa [rctx, rcore, rcritx, runs, passed] using limit
  set u := s.logCritx (fun b => b.ctx == ctx && b.core == core && (s.preemptOf b).isSome) q.at_ with hu
  have run : exec (.critx ctx core) s = .next { u with
      prereqs := u.prereqs.map fun q => if q.ctx = ctx ∧ q.core = core then { q with critx := true } else q } := by
    show execCritx ctx core s = _
    unfold execCritx
    simp only [hc, hq]
    rfl
  have same : s.sameButCtxs u := by rw [hu, logCritx_eq]; exact sameButCtxs_noted ..
  refine ⟨_, run, ?_, same.field State.groups fun _ _ => rfl, same.field State.blocks fun _ _ => rfl,
    fun g b one hb bcore crit bctx phase room => ?_⟩
  · show u.prereqs.map _ = _
    rw [same.field State.prereqs fun _ _ => rfl]
  · obtain ⟨p, hp⟩ : ∃ p, (s.prereqs.find? fun r => r.ctx == b.ctx && r.core == b.core) = some p :=
      Option.isSome_iff_exists.mp (List.find?_isSome.mpr ⟨r, hr, by simp [rctx, rcore, bcore, bctx]⟩)
    have waits : s.preemptOf b = some p := by
      unfold State.preemptOf
      rw [if_pos (by rw [phase]; rfl)]
      exact hp
    have noted : u = s.noteCritx q.at_ g := by
      rw [hu, logCritx_eq, one, List.filter_cons_of_pos (by simp [crit, hb, bctx, bcore, waits])]
      rfl
    have logged : u = s.log ctx 0x02 0 0 g.pc.toNat (s.blockName g.bid) g.num ((s.now - q.at_) % 2 ^ 32) := by
      rw [noted]
      unfold State.noteCritx
      simp only [hb, bctx]
    refine ⟨{ c with log := c.log ++ [_] }, _, ?_, rfl, logRecord_cause s 0x02 0 0 g.pc.toNat (s.blockName g.bid) g.num ((s.now - q.at_) % 2 ^ 32)⟩
    show u.ctx? ctx = _
    rw [logged]
    exact ctx?_log hc room ..

/-! Blocks saved and restored -/

theorem freezeOps_churn (s : State) (core : Nat) (which : ChurnOp → Bool) :
    ∀ o ∈ (s.freezeOps core which).churn, o ∈ s.churn ∧ ¬(o.core = core ∧ which o = true) := by
  intro o ho
  unfold State.freezeOps at ho
  split at ho
  case h_1 hf =>
    refine ⟨ho, fun h => ?_⟩
    have := List.find?_eq_none.mp hf o ho
    simp [h.1] at this
  case h_2 hf =>
    obtain ⟨h1, h2⟩ := List.mem_filter.mp ho
    exact ⟨h1, by simpa [imp_iff_not_or] using h2⟩

/-- Windows apart nothing differs once no group of a list holds a tile. -/
theorem unhold_foldl (l : List Group) (s : State) : ∃ ws, l.foldl (fun s g => s.unhold g.gid) s = { s with windows := ws } := by
  induction l generalizing s with
  | nil => exact ⟨s.windows, rfl⟩
  | cons g l ih =>
    obtain ⟨ws, h⟩ := ih (s.unhold g.gid)
    exact ⟨ws, h⟩

/-- A block as it is to be saved (R135, R299). -/
def Block.toSave (b : Block) : Block := { b with phase := .saving, fused := b.fused.map fun _ => false }

/-- The groups of a block set aside. -/
def Group.asideOf (bid : Nat) (g : Group) : Group := if g.bid = bid then g.setAside else g

theorem asideOf_gid (bid : Nat) (g : Group) : (g.asideOf bid).gid = g.gid := by
  unfold Group.asideOf Group.setAside
  split
  · dsimp only
    split <;> rfl
  · rfl

theorem drainsTimeOut : DrainsTimeOut := by
  intro s bid d b hb phase due runs
  have run : exec (.drainTimeout bid) s = .next (s.toSave b) := by
    show execDrainTimeout bid s = _
    unfold execDrainTimeout
    simp only [hb, phase]
    rw [if_pos (by rw [decide_eq_true due, runs]; rfl)]
  have id_ : b.bid = bid := block?_bid hb
  obtain ⟨ws, held⟩ := unhold_foldl (s.groups.filter fun g => g.bid == b.bid && g.rejHeld.isNone) s
  set u : State := { s with windows := ws, groups := s.groups.map (Group.asideOf b.bid) } with hu
  set v : State := (u.modBlock b.bid Block.toSave).freezeOps b.core fun o => o.bid == b.bid with hv
  have saved : s.toSave b = v.traceEvent b.ctx 5 b.core 0 b.core (v.blockName b.bid) allOnes32 0 2 := by
    unfold State.toSave
    dsimp only
    rw [held]
    rfl
  have frozen : (u.modBlock b.bid Block.toSave).exchanged v := exchanged_freezeOps ..
  have blocks : (s.toSave b).blocks = (u.modBlock b.bid Block.toSave).blocks := by
    rw [saved, traceEvent_blocks]
    exact frozen.field State.blocks fun _ _ _ _ _ _ _ => rfl
  refine ⟨_, run, ⟨b.toSave, ?_, rfl, fun x hx => ?_⟩, fun h g hg => ?_, fun o ho => ?_, ?_, ?_, ?_⟩
  · have hb' : u.block? bid = some b := hb
    rw [block?_congr (s := u.modBlock b.bid Block.toSave) blocks, modBlock_eq (id_.symm ▸ hb')]
    exact block?_setBlock (b' := b.toSave) hb' id_
  · obtain ⟨y, -, rfl⟩ := List.mem_map.mp hx
    rfl
  · have groups : (s.toSave b).groups = s.groups.map (Group.asideOf bid) := by
      rw [saved, traceEvent_groups, hv]
      unfold State.freezeOps
      rw [← id_]
      split <;> exact modBlock_groups ..
    show (s.toSave b).groups.find? (fun g => g.gid == h) = _
    rw [groups, find_map_gid (asideOf_gid bid), show s.groups.find? (fun g => g.gid == h) = some g from hg]
    rfl
  · rw [saved, traceEvent_churn] at ho
    obtain ⟨h1, h2⟩ := freezeOps_churn _ _ _ o ho
    rw [modBlock_churn] at h1
    exact ⟨h1, by simpa [id_] using h2⟩
  · rw [saved, traceEvent_dram]
    exact (frozen.field State.dram fun _ _ _ _ _ _ _ => rfl).trans (modBlock_dram ..)
  · rw [saved, traceEvent_scratch]
    exact (frozen.field State.scratch fun _ _ _ _ _ _ _ => rfl).trans (modBlock_scratch ..)
  · rw [saved, traceEvent_scw]
    exact (frozen.field State.scw fun _ _ _ _ _ _ _ => rfl).trans (modBlock_scw ..)

theorem thawOps_groups (s : State) (core : Nat) (which : ChurnOp → Bool) : (s.thawOps core which).groups = s.groups := by
  unfold State.thawOps
  dsimp only
  generalize List.filter _ s.frozen = l
  refine (List.foldlRecOn l _ (motive := fun t : State => t.groups = s.groups) rfl fun t ht o _ => ?_)
  exact (ran_groups ..).trans ht

theorem savesComplete : SavesComplete := by
  intro s bid b hb phase runs ready
  have id_ : b.bid = bid := block?_bid hb
  set u : State := { s.performCore b.core with nextId := s.nextId + 1 } with hu
  have run : exec (.saveComplete bid) s = .next { u with
      images := u.images ++ [u.imageOf b s.nextId]
      blocks := u.blocks.filter fun x => x.bid != bid
      groups := u.groups.filter fun g => g.bid != bid
      frozen := u.frozen.filter fun o => o.bid != bid
      spawnQ := u.spawnQ.filter fun q => q.2.bid != bid
      openG := u.openG.filter fun o => o.bid != bid
      sealedG := u.sealedG.filter fun o => o.bid != bid } := by
    show execSaveComplete bid s = _
    unfold execSaveComplete
    simp only [hb]
    rw [if_neg (by simp [phase, runs]), if_neg (by simp [ready])]
    rfl
  refine ⟨_, run, ⟨u.imageOf b s.nextId, rfl, rfl, ?_, ?_, rfl, rfl, rfl, rfl, rfl⟩, rfl, rfl, rfl, rfl, rfl⟩
  · show s.groups.filter (fun g => g.bid == b.bid) = _
    rw [id_]
  · show s.frozen.filter (fun o => o.bid == b.bid) = _
    rw [id_]

/-- What is under a group's name among groups that are changed and keep their names, each there once. -/
theorem find_seated {f : Group → Group} (hf : ∀ g, (f g).gid = g.gid) {l : List Group} (nodup : (l.map (·.gid)).Nodup) {g : Group}
    (hg : g ∈ l) : (l.map f).find? (fun m => m.gid == g.gid) = some (f g) := by
  rw [find_map_gid hf]
  refine congrArg (Option.map f) (?_ : _ = some g)
  induction l with
  | nil => simp at hg
  | cons m l ih =>
    rw [List.map_cons, List.nodup_cons] at nodup
    rcases List.mem_cons.mp hg with rfl | hg
    · simp
    · rw [List.find?_cons_of_neg, ih nodup.2 hg]
      simp only [beq_iff_eq]
      exact fun same => nodup.1 (List.mem_map.mpr ⟨g, hg, same.symm⟩)

theorem resumesRestore : ResumesRestore := by
  intro s v ctx core c m places taken hc runs hdie home one vmaj ndie scsz nsl fit items opens sealeds ops openG spawnQ sealedG gone results
    own nodup new room
  set u : State := { s with prereqs := s.prereqs.filter fun r => !(r.ctx == ctx && [core].contains r.core) } with hu
  have ended : s.endPreempt ctx [core] = u := by
    have none_ : (s.blocks.filter fun b => b.ctx == ctx && [core].contains b.core && b.phase != .running) = [] :=
      List.filter_eq_nil_iff.mpr fun b hb => by simp [gone b hb]
    have map_ : (s.blocks.map fun b => if (b.ctx == ctx && [core].contains b.core && b.phase != .running) = true then
        { b with phase := .running } else b) = s.blocks :=
      (List.map_congr_left fun b hb => if_neg (by simp [gone b hb])).trans (List.map_id' _)
    unfold State.endPreempt
    dsimp only
    rw [none_, map_]
    rfl
  set b : Block := { m.block with core := core, places := places, phase := .running } with hb
  have allOwn : (m.groups.filter fun g => !g.spawned) = m.groups := List.filter_eq_self.mpr fun g hg => by simp [(own g hg).1]
  have noneSpawned : (m.groups.filter fun g => g.spawned) = [] := List.filter_eq_nil_iff.mpr fun g hg => by simp [(own g hg).1]
  set w : State := { u with
    images := s.images.erase m
    blocks := s.blocks ++ [b]
    groups := s.groups ++ m.groups.map fun g => g.seat core places
    frozen := s.frozen ++ []
    spawnQ := []
    openG := []
    sealedG := [] } with hw
  set x : State := if w.activeOn core c.no then w.thawOps core fun o => o.bid == b.bid else w with hx
  have thawed : w.exchanged x := by
    rw [hx]
    split
    exacts [exchanged_thawOps .., rfl]
  have restored : u.restoreOn c m core = some x := by
    have room' : u.roomFor c core m.block.nthr m.block.shmem m.block.ntile = some places := room
    have landed : x.landCollectives (m.groups.map (·.gid)) = x := by
      unfold State.landCollectives
      rw [thawed.field State.results fun _ _ _ _ _ _ _ => rfl, show w.results = [] from results]
      rfl
    unfold State.restoreOn
    simp only [room', allOwn, noneSpawned, seatSpawned, items, opens, sealeds, ops]
    rw [if_neg (by
      rw [show u.openG = [] from openG, show u.spawnQ = [] from spawnQ]
      simp [spawnCap]; omega)]
    rw [show u.openG = [] from openG, show u.spawnQ = [] from spawnQ, show u.sealedG = [] from sealedG]
    exact congrArg some landed
  have run : exec (.resume v ctx [core] [(m.block.bid, core)]) s = .next (x.reply 0 []) := by
    refine (call_taken taken (resumeCall ctx [core] [(m.block.bid, core)])).trans (congrArg _ ?_)
    have named : ([(m.block.bid, core)].filterMap fun t => ([m].find? fun m => m.block.bid == t.1).map fun m => (m, t.2)) = [(m, core)] := by
      simp
    have fits : m.head.fits c = true := by
      unfold ImgHead.fits agreed
      simp [vmaj, ndie, scsz]
    have parts : x.haltedDies c.dies = s.haltedDies c.dies := thawed.field (fun s => s.haltedDies c.dies) fun _ _ _ _ _ _ _ => rfl
    unfold resumeCall
    simp only [hc, one, named]
    rw [if_neg (by rw [runs]; decide), if_neg (by simpa using hdie), if_neg (by simp [nubNat]), if_neg (by simp [home, fits]),
      if_neg (by simp), ended]
    simp only [restoreAll, fit, restored, Bool.false_eq_true, if_false, parts, runs]
  have seat_gid (g : Group) : (g.seat core places).gid = g.gid := rfl
  have groups : (x.reply 0 []).groups = s.groups ++ m.groups.map fun g => g.seat core places := by
    show x.groups = _
    rw [hx]
    split
    exacts [thawOps_groups .., rfl]
  refine ⟨_, run, ?_, thawed.field State.images fun _ _ _ _ _ _ _ => rfl, ?_, fun g hg => ?_, fun h g hg => ?_, fun r hr => ?_,
    thawed.field State.dram fun _ _ _ _ _ _ _ => rfl, thawed.field State.scratch fun _ _ _ _ _ _ _ => rfl,
    thawed.field State.scw fun _ _ _ _ _ _ _ => rfl⟩
  · exact congrArg (· ++ _) (thawed.field State.replies fun _ _ _ _ _ _ _ => rfl)
  · show x.blocks.find? (fun b => b.bid == m.block.bid) = _
    rw [thawed.field State.blocks fun _ _ _ _ _ _ _ => rfl]
    show (s.blocks ++ [b]).find? (fun b => b.bid == m.block.bid) = _
    rw [List.find?_append, show s.blocks.find? (fun b => b.bid == m.block.bid) = none from new]
    simp [hb]
  · show (x.reply 0 []).groups.find? (fun m => m.gid == g.gid) = _
    rw [groups, List.find?_append, show s.groups.find? (fun m => m.gid == g.gid) = none from (own g hg).2, Option.none_or]
    exact find_seated seat_gid nodup hg
  · show (x.reply 0 []).groups.find? (fun m => m.gid == h) = _
    rw [groups, List.find?_append, show s.groups.find? (fun m => m.gid == h) = some g from hg, Option.some_or]
  · have hr : r ∈ x.prereqs := hr
    rw [thawed.field State.prereqs fun _ _ _ _ _ _ _ => rfl] at hr
    simpa [imp_iff_not_or] using (List.mem_filter.mp hr).2

/-! Switches -/

/-- What is found first under a key that has been given a value, and under another. -/
theorem find_insert {β : Type} (n : Nat) (x : β) (l : Sparse β) : (Sparse.insert n x l).find? (fun e => e.1 == n) = some (n, x) ∧
    ∀ k, k ≠ n → (Sparse.insert n x l).find? (fun e => e.1 == k) = l.find? fun e => e.1 == k := by
  induction l with
  | nil => exact ⟨by simp [Sparse.insert], fun k hk => by simp [Sparse.insert, Ne.symm hk]⟩
  | cons e rest ih =>
    obtain ⟨a, y⟩ := e
    rw [Sparse.insert]
    split
    · exact ⟨by simp, fun k hk => by rw [List.find?_cons_of_neg]; simpa using Ne.symm hk⟩
    · next above =>
      split
      · next same =>
        subst same
        exact ⟨by simp, fun k hk => by rw [List.find?_cons_of_neg, List.find?_cons_of_neg] <;> simpa using Ne.symm hk⟩
      · next other =>
        refine ⟨by rw [List.find?_cons_of_neg, ih.1]; simpa using other, fun k hk => ?_⟩
        rw [List.find?_cons, List.find?_cons, ih.2 k hk]

theorem exchange_active (s : State) (core dest : Nat) : (s.exchange core dest).active = Sparse.insert core dest s.active := by
  unfold State.exchange State.thawOps
  dsimp only
  generalize List.filter _ (State.frozen _) = l
  refine (List.foldlRecOn l _ (motive := fun t : State => t.active = Sparse.insert core dest s.active) ?_ fun t ht o _ => ?_)
  · unfold State.freezeOps
    split <;> rfl
  · exact (ran_active ..).trans ht

/-- Once a core has exchanged its context is the one named; the other cores have theirs. -/
theorem activeOn_exchange (s : State) (core dest : Nat) : (∀ k, (s.exchange core dest).activeOn core k = (dest == k)) ∧
    ∀ k, k ≠ core → ∀ d, (s.exchange core dest).activeOn k d = s.activeOn k d := by
  obtain ⟨here, there⟩ := find_insert core dest s.active
  unfold State.activeOn
  rw [exchange_active]
  exact ⟨fun k => by simp only [here], fun k hk d => by simp only [there k hk]⟩

theorem switchesRun : SwitchesRun := by
  refine ⟨fun s v core a b taken runs pair free => ?_, fun s core a b w hw pair other defers runs draws => ?_⟩
  · refine ⟨({ s with switches := s.switches ++ [⟨core, b, s.now, false, false⟩] } : State).reply 0 [], ?_, rfl, rfl, rfl, rfl⟩
    refine (call_taken taken (ctxswCall [core])).trans (congrArg _ ?_)
    have none_ : (s.switches.any fun w => w.core == core) = false := List.any_eq_false.mpr fun w hw => by simpa using free w hw
    unfold ctxswCall
    rw [if_neg (by simp [runs]), if_neg (by simp [pair, none_])]
    simp only [show nubNat [core] = [core] from rfl, List.filterMap_cons, List.filterMap_nil, pair, Option.map_some]
  · set u := s.exchange core w.dest with hu
    have run : exec (.switchComplete core) s =
        .next { u with switches := if w.held then u.switches else u.switches.filter fun v => v.core != core } := by
      show execSwitchComplete core s = _
      unfold execSwitchComplete
      simp only [hw, pair]
      rw [if_neg]
      rw [draws, defers, runs]
      simpa using other
    have same : s.exchanged u := exchanged_exchange ..
    obtain ⟨here, there⟩ := activeOn_exchange s core w.dest
    refine ⟨_, run, (here w.dest).trans (by simp), ?_, fun k d hk => (there k hk d).symm, same.field State.blocks fun _ _ _ _ _ _ _ => rfl,
      same.field State.dram fun _ _ _ _ _ _ _ => rfl, same.field State.scratch fun _ _ _ _ _ _ _ => rfl,
      same.field State.scw fun _ _ _ _ _ _ _ => rfl⟩
    show (if w.held then u.switches else u.switches.filter fun v => v.core != core) = _
    rw [same.field State.switches fun _ _ _ _ _ _ _ => rfl]

/-! Slices -/

theorem moduleCores_eq : moduleCores = List.range 640 := by
  show (([0, 1, 2, 3] : List Nat).flatMap fun d => (List.range 160).map fun i => 160 * d + i) = List.range (((0 + 160) + 160 + 160) + 160)
  rw [List.range_add, List.range_add, List.range_add, List.range_add]
  simp only [List.flatMap_cons, List.flatMap_nil, List.append_nil, List.range_zero, List.nil_append, List.append_assoc, Nat.reduceMul,
    Nat.reduceAdd, Nat.zero_add, List.map_id']

/-- Fabric time has come to a value below half its range exactly where it is not below it. -/
theorem fabricReached_iff {s : State} {n : Nat} (hn : n < 2 ^ 63) (now : s.fabricNow.toNat < 2 ^ 63) :
    s.fabricReached n = true ↔ n ≤ s.fabricNow.toNat := by
  unfold State.fabricReached
  rw [decide_eq_true_iff, BitVec.toNat_sub, BitVec.toNat_ofNat, Nat.mod_eq_of_lt (show n < 2 ^ 64 by omega)]
  omega

/-- A slice given up: a core that has switched and runs goes back. -/
def State.goBack (sl : Slice) (s : State) (w : Switch) : State :=
  if s.activeOn w.core sl.y && s.coreRuns w.core then s.exchange w.core sl.x else s

theorem exchanged_goBack (sl : Slice) (s : State) (w : Switch) : s.exchanged (s.goBack sl w) := by
  unfold State.goBack
  split
  exacts [exchanged_exchange .., rfl]

theorem exchanged_goneBack (sl : Slice) (l : List Switch) (s : State) : s.exchanged (l.foldl (State.goBack sl) s) :=
  exchanged_foldl _ (exchanged_goBack sl) l s

/-- A core that has gone back stays so, and one that is to go back has done so in the end. -/
theorem activeOn_goneBack {sl : Slice} (xy : sl.x ≠ sl.y) {core : Nat} (l : List Switch) {s : State} (runs : s.coreRuns core = true)
    (h : s.activeOn core sl.x = true ∧ s.activeOn core sl.y = false ∨ s.activeOn core sl.y = true ∧ ∃ w ∈ l, w.core = core) :
    (l.foldl (State.goBack sl) s).activeOn core sl.x = true := by
  induction l generalizing s with
  | nil =>
    rcases h with h | ⟨-, w, hw, -⟩
    · exact h.1
    · simp at hw
  | cons w l ih =>
    have runs' : (s.goBack sl w).coreRuns core = true :=
      ((exchanged_goBack sl s w).field (fun s => s.coreRuns core) fun _ _ _ _ _ _ _ => rfl).trans runs
    refine ih runs' ?_
    by_cases same : w.core = core
    · rcases h with h | ⟨h, -⟩
      · left
        rw [State.goBack, if_neg (by rw [same, h.2, Bool.false_and]; decide)]
        exact h
      · obtain ⟨here, -⟩ := activeOn_exchange s w.core sl.x
        left
        rw [State.goBack, if_pos (by rw [same, h, runs]; rfl), ← same, here, here]
        exact ⟨by simp, by simpa using xy⟩
    · have keeps (d : Nat) : (s.goBack sl w).activeOn core d = s.activeOn core d := by
        unfold State.goBack
        split
        exacts [(activeOn_exchange s w.core sl.x).2 core (Ne.symm same) d, rfl]
      rw [keeps, keeps]
      refine h.imp_right fun ⟨h, v, hv, hc⟩ => ⟨h, v, (List.mem_cons.mp hv).resolve_left ?_, hc⟩
      rintro rfl
      exact same hc

/-- The record of a slice given up in a context's log (R326). -/
def State.noteSlice (s : State) (sl : Slice) (ctx : Nat) : State :=
  s.log ctx 0x07 0 0 0 { noName with ctx := ctx } allOnes32 (sl.start % 2 ^ 64)

theorem slicesRun : SlicesRun := by
  refine ⟨fun s v x y start modules cx cy taken hx hy runs free dies here cores => ?_, fun s module at_ sl hs named new own => ?_,
    fun s sl n hs due limit hn now => ⟨fun reached => ⟨_, ?_, rfl⟩, fun early => ?_⟩, fun s sl hs lost reached now xy => ?_⟩
  · refine ⟨({ s with
      slice := some ⟨x, y, start, modules, []⟩
      switches := s.switches ++ moduleCores.map fun k => ⟨k, y, s.now, false, true⟩ } : State).reply 0 [], ?_, rfl, rfl,
      congrArg (s.switches ++ List.map _ ·) moduleCores_eq, rfl, rfl⟩
    refine (call_taken taken (sliceCall x y start modules)).trans (congrArg _ ?_)
    have none_ : (moduleCores.any fun k => s.pair k != some (x, y) || s.switches.any fun w => w.core == k) = false := by
      rw [moduleCores_eq]
      refine List.any_eq_false.mpr fun k hk => ?_
      obtain ⟨pair, switch⟩ := cores k (List.mem_range.mp hk)
      simpa [pair] using switch
    unfold sliceCall
    simp only [hx, hy]
    rw [if_neg (by rw [runs]; decide), if_neg (by rw [none_]; simpa [free, dies] using here)]
  · have listed : (!sl.modules.contains module || (sl.ready.any fun r => r.1 == module)) = false := by
      rw [named, List.any_eq_false.mpr fun r hr => by simpa using new r hr]
      rfl
    by_cases mine : module = s.dev.toNat
    · refine ⟨_, ?_, rfl⟩
      show execModuleReady module at_ s = _
      unfold execModuleReady
      simp only [hs]
      rw [if_neg (by rw [listed]; decide), if_pos mine, if_pos (own mine), if_pos mine]
    · refine ⟨_, ?_, rfl⟩
      show execModuleReady module at_ s = _
      unfold execModuleReady
      simp only [hs]
      rw [if_neg (by rw [listed]; decide), if_neg mine, if_neg mine]
  · show execSliceStart s = _
    unfold execSliceStart
    simp only [hs, due]
    rw [if_pos (by rw [decide_eq_true limit, (fabricReached_iff hn now).mpr reached]; rfl)]
  · show execSliceStart s = _
    unfold execSliceStart
    simp only [hs, due]
    rw [if_neg (by
      rw [Bool.and_eq_true]
      exact fun h => absurd ((fabricReached_iff hn now).mp h.2) (Nat.not_le.mpr early))]
  · set held := s.switches.filter fun w => w.held with hheld
    set u := held.foldl (State.goBack sl) s with hu
    set v : State := { u with slice := none, switches := u.switches.filter fun w => !w.held } with hv
    have over_ : s.fabricReached (s.sliceLimit sl) = true := (fabricReached_iff (Nat.lt_of_le_of_lt reached now) now).mpr reached
    have run : exec .slicex s = .next ((v.noteSlice sl sl.x).noteSlice sl sl.y) := by
      show execSlicex s = _
      unfold execSlicex
      simp only [hs]
      cases at_ : sl.startAt with
      | none => simp only [over_]; rfl
      | some n => simp only [over_, decide_eq_true (lost n at_)]; rfl
    have same : s.exchanged u := exchanged_goneBack sl held s
    have slices (n : Nat) : v.ctx? n = s.ctx? n := ctx?_congr (same.field State.ctxs fun _ _ _ _ _ _ _ => rfl) n
    refine ⟨_, run, ?_, ?_, fun w hw isHeld runs active => ?_, fun n c hn hc room => ?_, ?_, ?_, ?_⟩
    · exact (log_slice ..).trans (log_slice ..)
    · refine ((log_switches ..).trans (log_switches ..)).trans ?_
      show u.switches.filter _ = _
      rw [same.field State.switches fun _ _ _ _ _ _ _ => rfl]
    · have back : u.activeOn w.core sl.x = true :=
        activeOn_goneBack xy held runs (.inr ⟨active, w, List.mem_filter.mpr ⟨hw, isHeld⟩, rfl⟩)
      unfold State.activeOn at back ⊢
      rw [show ((v.noteSlice sl sl.x).noteSlice sl sl.y).active = u.active from (log_active ..).trans (log_active ..)]
      exact back
    · rw [← slices] at hc
      rcases hn with rfl | rfl
      · exact ⟨_, _, (ctx?_log_ne xy ..).trans (ctx?_log hc room ..), rfl, logRecord_cause ..⟩
      · exact ⟨_, _, ctx?_log ((ctx?_log_ne (Ne.symm xy) ..).trans hc) room .., rfl, logRecord_cause ..⟩
    · exact (log_dram ..).trans ((log_dram ..).trans (same.field State.dram fun _ _ _ _ _ _ _ => rfl))
    · exact (log_scratch ..).trans ((log_scratch ..).trans (same.field State.scratch fun _ _ _ _ _ _ _ => rfl))
    · exact (log_scw ..).trans ((log_scw ..).trans (same.field State.scw fun _ _ _ _ _ _ _ => rfl))

/-- Settles O48, part by part. -/
theorem preemptionEvents : Obligations.PreemptionEvents :=
  ⟨callsRefused, preemptsBegin, deferralsEnd, drainsTimeOut, savesComplete, resumesRestore, switchesRun, slicesRun⟩

end Sys2Proof.Machine
end


section
/-! Bytes written and read as lists, and the memories that engine jobs read and write (R261, R264). -/

namespace Sys2Proof.Machine

open Sys2Proof

/-! Lists of bytes in a memory -/

theorem Memory.read_writeList {m : Memory} {a i : Nat} {l : List Byte} {b : Byte} (h : l[i]? = some b) : (m.writeList a l).read (a + i) = b := by
  induction l generalizing m a i with
  | nil => simp at h
  | cons x l ih =>
    rw [Memory.writeList]
    cases i with
    | zero =>
      rw [Memory.read_writeList_outside (.inl (by omega)), Nat.add_zero, Memory.read_write_same]
      simpa using h
    | succ i => rw [show a + (i + 1) = a + 1 + i by omega]; exact ih (by simpa using h)

theorem Memory.writeList_append (m : Memory) (a : Nat) (l l' : List Byte) :
    m.writeList a (l ++ l') = (m.writeList a l).writeList (a + l.length) l' := by
  induction l generalizing m a with
  | nil => rfl
  | cons x l ih =>
    rw [List.cons_append, Memory.writeList, ih, Memory.writeList, List.length_cons, show a + 1 + l.length = a + (l.length + 1) by omega]

theorem Memory.readList_add (m : Memory) (a n n' : Nat) : m.readList a (n + n') = m.readList a n ++ m.readList (a + n) n' := by
  unfold Memory.readList
  rw [List.range_add, List.map_append, List.map_map]
  simp only [Function.comp_def, Nat.add_assoc]

theorem Memory.readList_get (m : Memory) (a : Nat) {n i : Nat} (hi : i < n) : (m.readList a n)[i]? = some (m.read (a + i)) := by
  unfold Memory.readList
  simp [hi]

theorem bytesOf_succ (n x : Nat) : bytesOf (n + 1) x = BitVec.ofNat 8 x :: bytesOf n (x / 256) := by
  unfold bytesOf
  rw [List.range_succ_eq_map, List.map_cons, List.map_map]
  simp only [pow_zero, Nat.div_one, Function.comp_def, Nat.pow_succ', Nat.div_div_eq_div_mul]

theorem writeList_bytesOf (m : Memory) (a n x : Nat) : m.writeList a (bytesOf n x) = m.writeN a n x := by
  induction n generalizing m a x with
  | zero => rfl
  | succ n ih => rw [bytesOf_succ, Memory.writeList, ih, Memory.writeN]

theorem bytesOf_length (n x : Nat) : (bytesOf n x).length = n := by unfold bytesOf; simp

/-- The words of bytes that follow each other in memory. -/
theorem wordList_readList (m : Memory) (n a : Nat) : wordList (m.readList a (4 * n)) = (List.range n).map fun i => m.readN (a + 4 * i) 4 := by
  induction n generalizing a with
  | zero => rfl
  | succ n ih =>
    have four : m.readList a 4 = [m.read a, m.read (a + 1), m.read (a + 2), m.read (a + 3)] := rfl
    rw [show 4 * (n + 1) = 4 + 4 * n by omega, Memory.readList_add, four, List.range_succ_eq_map, List.map_cons, List.map_map]
    simp only [List.cons_append, List.nil_append, wordList, ih, Function.comp_def]
    refine congrArg₂ _ rfl (List.map_congr_left fun i _ => ?_)
    rw [show a + 4 + 4 * i = a + 4 * (i + 1) by omega]

/-! Ranges cut at pages -/

/-- Fuel enough to cut a range of n bytes at a. -/
def Cuts (size fuel a n : Nat) : Prop := n = 0 ∨ n + a % size ≤ fuel * size

theorem cuts_start {size : Nat} (hs : 0 < size) (a n : Nat) : Cuts size (n / size + 2) a n := by
  right
  have h1 := Nat.mod_lt a hs
  have h2 := Nat.lt_div_mul_add hs (a := n)
  rw [Nat.add_mul]
  omega

theorem cuts_next {size fuel a n : Nat} (hs : 0 < size) (h : Cuts size (fuel + 1) a n) (hn : n ≠ 0) :
    Cuts size fuel (a + min n (size - a % size)) (n - min n (size - a % size)) := by
  have mod := Nat.mod_lt a hs
  have h := h.resolve_left hn
  rw [Nat.add_mul, Nat.one_mul] at h
  rcases Nat.le_total n (size - a % size) with small | large
  · left; rw [Nat.min_eq_left small]; omega
  · right
    rw [Nat.min_eq_right large]
    have : (a + (size - a % size)) % size = 0 := by
      have := Nat.div_add_mod a size
      rw [show a + (size - a % size) = size * (a / size + 1) by rw [Nat.mul_add]; omega]
      exact Nat.mul_mod_right ..
    omega

/-- The writes of bytes over a range that is cut. -/
def cutWrites : List (EAddr × Nat) → List Byte → List JobItem
  | [], _ => []
  | r :: rs, bytes => .write r.1 (bytes.take r.2) :: cutWrites rs (bytes.drop r.2)

theorem writesFrom_eq (a : EAddr) (bytes : List Byte) : writesFrom a bytes = cutWrites (cutRange a bytes.length) bytes := by
  have fold (rs : List (EAddr × Nat)) : ∀ (items : List JobItem) (bytes : List Byte),
      (rs.foldl (fun (acc : List JobItem × List Byte) r => (acc.1 ++ [.write r.1 (acc.2.take r.2)], acc.2.drop r.2)) (items, bytes)).1 =
        items ++ cutWrites rs bytes := by
    induction rs with
    | nil => simp [cutWrites]
    | cons r rs ih => intro items bytes; rw [List.foldl_cons, ih, cutWrites, List.append_assoc]; rfl
  exact fold _ [] bytes

/-! A job's memories -/

/-- The memory that a job of a block finds a place in, replaced. -/
def State.withPlace (s : State) (bid : Nat) (p : Place) (m : Memory) : State :=
  match p with
  | .sh => s.modBlock bid fun b => { b with sh := m }
  | .sc => { s with scratch := m }
  | _ => { s with dram := m }

theorem withPlace_groups (s : State) (bid : Nat) (p : Place) (m : Memory) : (s.withPlace bid p m).groups = s.groups := by
  cases p
  exacts [modBlock_groups .., rfl, rfl, rfl]

theorem withPlace_cards (s : State) (bid : Nat) (p : Place) (m : Memory) : (s.withPlace bid p m).cards = s.cards := by
  cases p
  exacts [modBlock_cards .., rfl, rfl, rfl]

/-- Only where a place has its memory is what it finds there another one. -/
theorem placeMem_withPlace {s : State} {k : Card} {p : Place} (hp : p = .sh → (s.block? k.bid).isSome = true) (m : Memory) :
    (s.withPlace k.bid p m).placeMem k p = m := by
  cases p
  case sh =>
    obtain ⟨b, hb⟩ := Option.isSome_iff_exists.mp (hp rfl)
    have id_ := block?_bid hb
    show (((s.modBlock k.bid fun b => { b with sh := m }).block? k.bid).map (·.sh)).getD [] = m
    rw [modBlock_eq hb, block?_setBlock (b' := { b with sh := m }) hb id_]
    rfl
  all_goals rfl

theorem placeMem_withPlace_ne {s : State} {k : Card} {p q : Place} (hp : p ≠ .win) (hq : q ≠ p) (main : q ≠ .win ∨ p ≠ .mem) (m : Memory) :
    (s.withPlace k.bid p m).placeMem k q = s.placeMem k q := by
  cases p <;> cases q
  case sh.sc => exact modBlock_scratch ..
  case sh.mem => exact modBlock_dram ..
  case sh.win => exact modBlock_dram ..
  case mem.win => exact absurd rfl (main.resolve_left (not_not.mpr rfl))
  case sc.sh | sc.mem | sc.win | mem.sh | mem.sc => rfl
  all_goals contradiction

theorem flushOps_quiet {s : State} (quiet : s.scw = []) (core a n : Nat) : s.flushOps core a n = s := by
  unfold State.flushOps; rw [quiet]; rfl

theorem flushSc_quiet {s : State} (quiet : s.scw = []) (core a n : Nat) : s.flushSc core a n = s := by
  unfold State.flushSc; rw [quiet]; rfl

theorem coreScratch_quiet {s : State} (quiet : s.scw = []) (core : Nat) : s.coreScratch core = s.scratch := by
  unfold State.coreScratch; rw [quiet]; rfl

/-- A read of a die's scratchpad. -/
theorem readPiece_sc {s : State} (quiet : s.scw = []) (c : Ctx) (k : Card) (a n : Nat) :
    s.readPiece c k ⟨.sc, a⟩ n = .ok s (s.scratch.readList (scratchKey c (dieOf k.core) a) n) := by
  unfold State.readPiece
  dsimp only
  rw [flushOps_quiet quiet, coreScratch_quiet quiet]

theorem writePiece_sc {s : State} (quiet : s.scw = []) (c : Ctx) {k : Card} (room : s.replayFull k.core = false) (a : Nat) (bytes : List Byte) :
    s.writePiece c k ⟨.sc, a⟩ bytes =
      .ok { s with scratch := s.scratch.writeList (scratchKey c (dieOf k.core) a) bytes } [] := by
  unfold State.writePiece
  rw [if_neg (by rw [room]; decide)]
  dsimp only
  rw [flushSc_quiet quiet]

/-- A read of main memory, where the bytes are not on a REPLICATED page. -/
theorem readPiece_mem {s : State} {c : Ctx} {va pa attr : Nat} (h : s.translate c va false false = .ok pa attr) (one : attr ≠ 2) (k : Card)
    (n : Nat) : s.readPiece c k ⟨.mem, va⟩ n = .ok s (s.dram.readList pa n) := by
  unfold State.readPiece
  simp only [h, readPa, if_neg one]
  rfl

theorem writeMain_list (s : State) (c : Ctx) {attr : Nat} (one : attr ≠ 2) (pa : Nat) (bytes : List Byte) :
    s.writeMain c pa attr ((List.range bytes.length).zip bytes) = { s with dram := s.dram.writeList pa bytes } := by
  have fold (l : List Byte) : ∀ (n : Nat) (m : Memory), ((List.range' n l.length).zip l).foldl
      (fun m e => (writePas c.dies (pa + e.1) attr).foldl (fun m a => m.write a e.2) m) m = m.writeList (pa + n) l := by
    induction l with
    | nil => exact fun _ _ => rfl
    | cons b l ih =>
      intro n m
      rw [List.length_cons, List.range'_succ, List.zip_cons_cons, List.foldl_cons, ih, Memory.writeList]
      simp only [writePas, if_neg one, List.foldl_cons, List.foldl_nil, Nat.add_assoc]
  unfold State.writeMain
  rw [List.range_eq_range', fold]
  rfl

theorem writePiece_mem {s : State} {c : Ctx} {k : Card} {va pa attr : Nat} (idle : s.replay = [])
    (h : s.translate c va true k.copies = .ok pa attr) (one : attr ≠ 2) (bytes : List Byte) :
    s.writePiece c k ⟨.mem, va⟩ bytes = .ok { s with dram := s.dram.writeList pa bytes } [] := by
  have full : s.replayFull k.core = false := by unfold State.replayFull; rw [idle]; rfl
  have blocked : s.pageBlocked k.core k.ctx va = false := by unfold State.pageBlocked; rw [idle]; rfl
  unfold State.writePiece
  rw [if_neg (by rw [full]; decide)]
  simp only [blocked, h, Bool.false_eq_true, if_false, writeMain_list s c one]

/-- A range of main memory is read whole, piece by piece. -/
theorem readAll_mem {s : State} {c : Ctx} {k : Card} {attr : Nat} (one : attr ≠ 2) {fuel : Nat} : ∀ {va pa n : Nat},
    (∀ i, i < n → s.translate c (va + i) false false = .ok (pa + i) attr) → Cuts (2 ^ 16) fuel va n →
    State.readAll c k (cutFrom .mem (2 ^ 16) fuel va n) s = (s, [], s.dram.readList pa n) := by
  induction fuel with
  | zero =>
    intro va pa n _ enough
    obtain rfl : n = 0 := by rcases enough with h | h <;> omega
    rfl
  | succ fuel ih =>
    intro va pa n h enough
    by_cases hn : n = 0
    · subst hn; rfl
    have next := cuts_next (by decide) enough hn
    set j := min n (2 ^ 16 - va % 2 ^ 16) with hj
    have le : j ≤ n := Nat.min_le_left ..
    have first : s.translate c va false false = .ok pa attr := h 0 (by omega)
    rw [cutFrom, if_neg hn]
    dsimp only
    rw [← hj, State.readAll, readPiece_mem first one]
    dsimp only
    rw [ih (pa := pa + j) (fun i hi => by rw [Nat.add_assoc, Nat.add_assoc]; exact h (j + i) (by omega)) next]
    dsimp only
    rw [← Memory.readList_add, Nat.add_sub_cancel' le]

/-- Bytes are written over a range of main memory whole, piece by piece. -/
theorem doAll_mem {c : Ctx} {k : Card} {attr : Nat} (one : attr ≠ 2) {fuel : Nat} : ∀ {s : State} {va pa n : Nat} {bytes : List Byte},
    s.replay = [] → bytes.length = n →
    (∀ m : Memory, (∀ x, x < pa ∨ pa + n ≤ x → m.read x = s.dram.read x) → ∀ i, i < n →
      ({ s with dram := m } : State).translate c (va + i) true k.copies = .ok (pa + i) attr) → Cuts (2 ^ 16) fuel va n →
    State.doAll c k (cutWrites (cutFrom .mem (2 ^ 16) fuel va n) bytes) s = ({ s with dram := s.dram.writeList pa bytes }, []) := by
  induction fuel with
  | zero =>
    intro s va pa n bytes _ len _ enough
    obtain rfl : n = 0 := by rcases enough with h | h <;> omega
    obtain rfl := List.length_eq_zero_iff.mp len
    rfl
  | succ fuel ih =>
    intro s va pa n bytes idle len h enough
    by_cases hn : n = 0
    · subst hn
      obtain rfl := List.length_eq_zero_iff.mp len
      rfl
    have next := cuts_next (by decide) enough hn
    set j := min n (2 ^ 16 - va % 2 ^ 16) with hj
    have le : j ≤ n := Nat.min_le_left ..
    have taken : (bytes.take j).length = j := by rw [List.length_take]; omega
    have first : s.translate c va true k.copies = .ok pa attr := h s.dram (fun _ _ => rfl) 0 (by omega)
    rw [cutFrom, if_neg hn]
    dsimp only
    rw [← hj, cutWrites, State.doAll, State.jobItem, writePiece_mem idle first one]
    dsimp only
    rw [ih (s := { s with dram := s.dram.writeList pa (bytes.take j) }) (pa := pa + j) (bytes := bytes.drop j) idle (by rw [List.length_drop]; omega) (fun m hm i hi => ?_) next]
    · refine congrArg (fun m => (({ s with dram := m } : State), [])) ?_
      conv_rhs => rw [← List.take_append_drop j bytes, Memory.writeList_append, taken]
    · rw [Nat.add_assoc, Nat.add_assoc]
      refine h m (fun x hx => ?_) (j + i) (by omega)
      rw [hm x (by omega)]
      exact Memory.read_writeList_outside (by rw [taken]; omega)

/-- What a job reads of a range (R261). -/
theorem readAll_range {s : State} {c : Ctx} {k : Card} {a : EAddr} {n b : Nat} (quiet : s.scw = []) (h : s.liesAt k c a n false b) :
    State.readAll c k (cutRange a n) s = (s, [], (s.placeMem k a.place).readList b n) := by
  obtain ⟨p, a⟩ := a
  cases p
  case sh =>
    obtain ⟨rfl, found⟩ := h
    obtain ⟨bl, hb⟩ := Option.isSome_iff_exists.mp found
    simp [cutRange, State.readAll, State.readPiece, State.placeMem, hb]
  case sc =>
    obtain rfl := h
    simp only [cutRange, State.readAll, readPiece_sc quiet, State.placeMem, List.append_nil]
  case mem =>
    obtain ⟨-, attr, one, h⟩ := h
    exact readAll_mem one (h s fun _ _ => rfl) (cuts_start (by decide) a n)
  case win => exact h.elim

/-- What a job writes over a range. -/
theorem doAll_range {s : State} {c : Ctx} {k : Card} {a : EAddr} {b : Nat} {bytes : List Byte} (quiet : s.scw = [])
    (room : s.replayFull k.core = false) (h : s.liesAt k c a bytes.length true b) :
    State.doAll c k (writesFrom a bytes) s = (s.withPlace k.bid a.place ((s.placeMem k a.place).writeList b bytes), []) := by
  rw [writesFrom_eq]
  obtain ⟨p, a⟩ := a
  cases p
  case sh =>
    obtain ⟨rfl, found⟩ := h
    obtain ⟨bl, hb⟩ := Option.isSome_iff_exists.mp found
    simp only [cutRange, cutWrites, List.take_length, State.doAll, State.jobItem, State.writePiece, room, Bool.false_eq_true, if_false,
      State.withPlace, State.placeMem, hb, Option.map_some, Option.getD_some, modBlock_eq hb]
  case sc =>
    obtain rfl := h
    simp only [cutRange, cutWrites, List.take_length, State.doAll, State.jobItem, writePiece_sc quiet c room]
    rfl
  case mem =>
    obtain ⟨idle, attr, one, h⟩ := h
    exact doAll_mem one idle rfl (fun m hm => h { s with dram := m } hm) (cuts_start (by decide) a _)
  case win => exact h.elim

/-! A job of one part -/

/-- A card whose job has been done in one go. -/
def Card.ended (k : Card) (run : JobRun) : Card := { k with run := some { run with reads := [], out := some [] } }

theorem find_and {α : Type} {p q : α → Bool} {l : List α} {x : α} (h : l.find? p = some x) (hq : q x = true) :
    l.find? (fun y => p y && q y) = some x := by
  obtain ⟨hp, pre, post, rfl, none_⟩ := List.find?_eq_some_iff_append.mp h
  exact List.find?_eq_some_iff_append.mpr ⟨by simp [hp, hq], pre, post, rfl, fun y hy => by simp [none_ y hy]⟩

theorem cards_setCard {s t : State} {cid : Nat} {k k' : Card} (hk : (s.cards.find? fun k => k.cid == cid) = some k) (same : t.cards = s.cards)
    (id_ : k'.cid = k.cid) : ((t.setCard k').cards.find? fun k => k.cid == cid) = some k' := by
  have kid : k.cid = cid := by simpa using List.find?_some hk
  have id' : k'.cid = cid := id_.trans kid
  subst id'
  show (replaceBy (fun x => x.cid == k'.cid) k' t.cards).find? (fun k => k.cid == k'.cid) = some k'
  rw [same]
  exact find_replaceBy_same (p := fun x : Card => x.cid == k'.cid) hk (by simp)

/-- A job of one part that reads all it is to read and does all it is to do. -/
theorem runJob_done {s t : State} {cid : Nat} {kinds : List (BitVec 8)} {k : Card} {c : Ctx} (turn : s.jobTurn cid k c) (idle : k.run = none)
    (kind : kinds.contains k.kind = true) {run : JobRun} {bytes : List Byte} (start : s.jobStart c k = run) (out : run.out = none)
    (got : run.got = []) (one : ∀ run, partsAfter c k run = 0)
    (reads : State.readAll c k run.reads (s.ran (engineUnit k) k.ctx) = (s.ran (engineUnit k) k.ctx, [], bytes))
    (items : State.doAll c k (jobItems c k { run with reads := [], got := bytes }) (s.ran (engineUnit k) k.ctx) = (t, [])) :
    s.runJob cid kinds = t.setCard (k.ended { run with got := bytes }) := by
  obtain ⟨hk, hc, ready⟩ := turn
  obtain ⟨elem, idx, pieces, got_, out_⟩ := run
  obtain rfl : out_ = none := out
  obtain rfl : got_ = [] := got
  unfold State.runJob
  rw [find_and (q := fun k => kinds.contains k.kind) hk kind]
  simp only [hc, ready, if_true, idle, Option.getD_none, start]
  unfold State.goOn
  rw [one, State.partsOn, State.partOn]
  simp only [reads, List.nil_append, items, List.isEmpty_nil, if_true]
  rfl

end Sys2Proof.Machine
end


section
/-! Copy jobs, gathers and scatters, flag jobs, completion (R261, R262, R270, R274). -/

namespace Sys2Proof.Machine

open Sys2Proof

theorem liesAt_block {s : State} {k : Card} {c : Ctx} {a : EAddr} {n b : Nat} {wr : Bool} (h : s.liesAt k c a n wr b) (hp : a.place = .sh) :
    (s.block? k.bid).isSome = true := by
  unfold State.liesAt at h
  rw [hp] at h
  exact h.2

theorem liesAt_main {s : State} {k : Card} {c : Ctx} {a : EAddr} {n b : Nat} {wr : Bool} (h : s.liesAt k c a n wr b) : a.place ≠ .win := by
  intro hp
  unfold State.liesAt at h
  rw [hp] at h
  exact h

theorem jobOver_setCard {s t : State} {cid : Nat} {k : Card} (hk : (s.cards.find? fun k => k.cid == cid) = some k) (same : t.cards = s.cards)
    (run : JobRun) : (t.setCard (k.ended run)).jobOver cid :=
  ⟨_, cards_setCard hk same rfl, _, rfl, rfl⟩

/-! COPY and CFILL -/

/-- A copy job of one range: its bytes stand where they were to go, and no other memory changes. -/
theorem copyJob_writes {s : State} {cid : Nat} {k : Card} {c : Ctx} {dst : EAddr} {bytes got : List Byte} {db : Nat}
    {reads : List (EAddr × Nat)} (begins : s.jobBegins cid k c) (kind : ([0x01, 0x04, 0x05] : List (BitVec 8)).contains k.kind = true)
    (start : s.jobStart c k = ⟨0, [], reads, [], none⟩) (one : ∀ run, partsAfter c k run = 0)
    (read : State.readAll c k reads (s.ran (engineUnit k) k.ctx) = (s.ran (engineUnit k) k.ctx, [], got))
    (items : jobItems c k ⟨0, [], [], got, none⟩ = writesFrom dst bytes) (hd : s.liesAt k c dst bytes.length true db) :
    Yields (.copyJob cid) s fun t => t.placeMem k dst.place = (s.placeMem k dst.place).writeList db bytes ∧
      (∀ p, p ≠ dst.place → p ≠ .win ∨ dst.place ≠ .mem → t.placeMem k p = s.placeMem k p) ∧ t.jobOver cid ∧ t.groups = s.groups := by
  obtain ⟨turn, idle, quiet, room⟩ := begins
  set u := s.ran (engineUnit k) k.ctx with hu
  have written : State.doAll c k (writesFrom dst bytes) u =
      (u.withPlace k.bid dst.place ((u.placeMem k dst.place).writeList db bytes), []) := doAll_range (s := u) quiet room hd
  have run := runJob_done (kinds := [0x01, 0x04, 0x05]) turn idle kind start rfl rfl one read
    ((congrArg (fun l => State.doAll c k l u) items).trans written)
  have run : exec (.copyJob cid) s = .next _ := congrArg Host.Outcome.next run
  refine ⟨_, run, ?_, fun p hp main => ?_, jobOver_setCard turn.1 (withPlace_cards u ..) _, withPlace_groups u ..⟩
  · exact placeMem_withPlace (s := u) (liesAt_block hd) _
  · exact placeMem_withPlace_ne (s := u) (liesAt_main hd) hp main _

/-- A pattern stored over words that follow each other. -/
theorem readN_fill (m : Memory) (x : Nat) {n : Nat} : ∀ {a i : Nat}, i < n →
    (m.writeList a ((List.replicate n x).flatMap (bytesOf 4))).readN (a + 4 * i) 4 = x % 2 ^ 32 := by
  induction n generalizing m with
  | zero => intro a i hi; omega
  | succ n ih =>
    intro a i hi
    rw [List.replicate_succ, List.flatMap_cons, Memory.writeList_append, bytesOf_length]
    cases i with
    | zero =>
      rw [Nat.mul_zero, Memory.readN_congr (m := m.writeList a (bytesOf 4 x)), writeList_bytesOf]
      · exact Memory.readN_writeN ..
      · exact fun c h1 h2 => Memory.read_writeList_outside (.inl h2)
    | succ i => rw [show a + 4 * (i + 1) = a + 4 + 4 * i by omega]; exact ih _ (by omega)

/-! Rows in a scratchpad -/

/-- Rows of bytes written one after the other. -/
def Memory.writeRows (m : Memory) (ws : List (Nat × List Byte)) : Memory := ws.foldl (fun m w => m.writeList w.1 w.2) m

theorem Memory.writeRows_cons (m : Memory) (w : Nat × List Byte) (ws : List (Nat × List Byte)) :
    m.writeRows (w :: ws) = (m.writeList w.1 w.2).writeRows ws := rfl

theorem Memory.writeRows_outside {m : Memory} {ws : List (Nat × List Byte)} {a : Nat} (h : ∀ w ∈ ws, a < w.1 ∨ w.1 + w.2.length ≤ a) :
    (m.writeRows ws).read a = m.read a := by
  induction ws generalizing m with
  | nil => rfl
  | cons w ws ih =>
    rw [Memory.writeRows_cons, ih fun v hv => h v (List.mem_cons_of_mem w hv)]
    exact Memory.read_writeList_outside (h w List.mem_cons_self)

/-- Of rows written in ascending order the last that reaches a byte is seen there. -/
theorem Memory.writeRows_last {m : Memory} {l : List Nat} (sorted : l.Pairwise (· < ·)) {into : Nat → Nat} {row : Nat → List Byte} {r i : Nat}
    (hr : r ∈ l) {b : Byte} (hb : (row r)[i]? = some b)
    (later : ∀ q ∈ l, r < q → into r + i < into q ∨ into q + (row q).length ≤ into r + i) :
    (m.writeRows (l.map fun r => (into r, row r))).read (into r + i) = b := by
  induction l generalizing m with
  | nil => simp at hr
  | cons p l ih =>
    obtain ⟨first, sorted⟩ := List.pairwise_cons.mp sorted
    rw [List.map_cons, Memory.writeRows_cons]
    rcases List.mem_cons.mp hr with rfl | hr
    · rw [Memory.writeRows_outside, Memory.read_writeList hb]
      intro w hw
      obtain ⟨q, hq, rfl⟩ := List.mem_map.mp hw
      exact later q (List.mem_cons_of_mem r hq) (first q hq)
    · exact ih sorted hr fun q hq => later q (List.mem_cons_of_mem p hq)

theorem readAll_sc {s : State} (quiet : s.scw = []) (c : Ctx) (k : Card) (l : List (Nat × Nat)) :
    State.readAll c k (l.map fun e => (⟨.sc, e.1⟩, e.2)) s =
      (s, [], l.flatMap fun e => s.scratch.readList (scratchKey c (dieOf k.core) e.1) e.2) := by
  induction l with
  | nil => rfl
  | cons e l ih => rw [List.map_cons, State.readAll, readPiece_sc quiet]; dsimp only; rw [ih]; rfl

theorem writesFrom_sc (a : Nat) (bytes : List Byte) : writesFrom ⟨.sc, a⟩ bytes = [.write ⟨.sc, a⟩ bytes] := by
  rw [writesFrom_eq]
  simp only [cutRange, cutWrites, List.take_length]

theorem doAll_sc {c : Ctx} {k : Card} {l : List (Nat × List Byte)} : ∀ {s : State}, s.scw = [] → s.replayFull k.core = false →
    State.doAll c k (l.map fun e => .write ⟨.sc, e.1⟩ e.2) s =
      ({ s with scratch := s.scratch.writeRows (l.map fun e => (scratchKey c (dieOf k.core) e.1, e.2)) }, []) := by
  induction l with
  | nil => exact fun _ _ => rfl
  | cons e l ih =>
    intro s quiet room
    rw [List.map_cons, State.doAll, State.jobItem, writePiece_sc quiet c room]
    exact ih (s := { s with scratch := s.scratch.writeList (scratchKey c (dieOf k.core) e.1) e.2 }) quiet room

/-- One of some runs of equal length, read off where they stand one after the other. -/
theorem flatMap_chunk {α β : Type} {f : α → List β} {n : Nat} : ∀ {l : List α} {i : Nat} {x : α}, (∀ x ∈ l, (f x).length = n) →
    l[i]? = some x → ((l.flatMap f).drop (i * n)).take n = f x
  | y :: l, 0, x, len, h => by
    obtain rfl : y = x := by simpa using h
    rw [Nat.zero_mul, List.drop_zero, List.flatMap_cons, List.take_append_of_le_length (by rw [len y List.mem_cons_self]), ← len y List.mem_cons_self,
      List.take_length]
  | y :: l, i + 1, x, len, h => by
    have hy := len y List.mem_cons_self
    have past : ((y :: l).flatMap f).drop n = l.flatMap f := by rw [List.flatMap_cons, List.drop_left' hy]
    rw [Nat.succ_mul, Nat.add_comm, ← List.drop_drop, past]
    exact flatMap_chunk (fun x hx => len x (List.mem_cons_of_mem y hx)) (by simpa using h)

theorem copiesRun : CopiesRun := by
  intro s cid k c begins
  obtain ⟨turn, idle, quiet, room⟩ := begins
  refine ⟨fun dst src n db sb kind job hd hs => ?_, fun dst pat n db kind job hd => ?_, fun dst src rows rowb dstr sstr kind job => ?_⟩
  · set bytes := (s.placeMem k src.place).readList sb n with hbytes
    have len : bytes.length = n := readList_length ..
    obtain ⟨t, run, mem, rest⟩ := copyJob_writes (dst := dst) (bytes := bytes) (got := bytes) (db := db) ⟨turn, idle, quiet, room⟩
      (by rw [kind]; decide) (by unfold State.jobStart; rw [job]) (fun run => by unfold partsAfter; rw [job])
      (readAll_range (s := s.ran (engineUnit k) k.ctx) quiet hs) (by unfold jobItems; rw [job]) (by rw [len]; exact hd)
    refine ⟨t, run, fun i hi => ?_, fun a ha => ?_, rest⟩
    · rw [mem]; exact Memory.read_writeList (Memory.readList_get _ _ hi)
    · rw [mem]; exact Memory.read_writeList_outside (by rw [len]; exact ha)
  · set bytes := (List.replicate n pat.toNat).flatMap (bytesOf 4) with hbytes
    have len : bytes.length = 4 * n := by
      rw [hbytes, List.length_flatMap, List.map_replicate, List.sum_replicate, bytesOf_length, smul_eq_mul, Nat.mul_comm]
    obtain ⟨t, run, mem, rest⟩ := copyJob_writes (dst := dst) (bytes := bytes) (got := []) (reads := []) (db := db) ⟨turn, idle, quiet, room⟩
      (by rw [kind]; decide) (by unfold State.jobStart; rw [job]) (fun run => by unfold partsAfter; rw [job]) rfl
      (by unfold jobItems; rw [job]; dsimp only; rw [Nat.mul_div_cancel_left n (by decide)]) (by rw [len]; exact hd)
    refine ⟨t, run, fun i hi => ?_, fun a ha => ?_, rest⟩
    · rw [mem, readN_fill _ _ hi]; exact Nat.mod_eq_of_lt pat.isLt
    · rw [mem]; exact Memory.read_writeList_outside (by rw [len]; exact ha)
  · intro into
    set u := s.ran (engineUnit k) k.ctx with hu
    set row : Nat → List Byte := fun r => s.scratch.readList (scratchKey c (dieOf k.core) (src + r * sstr)) rowb with hrow
    have len (r : Nat) : (row r).length = rowb := readList_length ..
    have reads : State.readAll c k ((List.range rows).flatMap fun r => cutRange ((⟨.sc, src⟩ : EAddr).plus (r * sstr)) rowb) u =
        (u, [], (List.range rows).flatMap row) := by
      have := readAll_sc (s := u) quiet c k ((List.range rows).map fun r => (src + r * sstr, rowb))
      rw [List.map_map, List.flatMap_map] at this
      rw [show ((List.range rows).flatMap fun r => cutRange ((⟨.sc, src⟩ : EAddr).plus (r * sstr)) rowb) =
        (List.range rows).map fun r => (⟨.sc, src + r * sstr⟩, rowb) from List.map_eq_flatMap.symm]
      exact this
    have items : jobItems c k ⟨0, [], [], (List.range rows).flatMap row, none⟩ =
        ((List.range rows).map fun r => (dst + r * dstr, row r)).map fun e => .write ⟨.sc, e.1⟩ e.2 := by
      unfold jobItems
      rw [job]
      dsimp only
      rw [List.map_map, List.map_eq_flatMap]
      refine List.flatMap_congr fun r hr => ?_
      rw [flatMap_chunk (fun r _ => len r) (x := r) (List.getElem?_range (List.mem_range.mp hr))]
      exact writesFrom_sc ..
    have written := doAll_sc (c := c) (k := k) (l := (List.range rows).map fun r => (dst + r * dstr, row r)) (s := u) quiet room
    have run := runJob_done (kinds := [0x01, 0x04, 0x05]) turn idle (by rw [kind]; decide)
      (run := ⟨0, [], (List.range rows).flatMap fun r => cutRange ((⟨.sc, src⟩ : EAddr).plus (r * sstr)) rowb, [], none⟩)
      (by unfold State.jobStart; rw [job]) rfl rfl (fun run => by unfold partsAfter; rw [job]) reads
      ((congrArg (fun l => State.doAll c k l u) items).trans written)
    rw [List.map_map] at run
    have run : exec (.copyJob cid) s = .next _ := congrArg Host.Outcome.next run
    refine ⟨_, run, fun r i hr hi later => ?_, fun a ha => ?_, jobOver_setCard turn.1 rfl _, rfl, rfl⟩
    · refine Memory.writeRows_last (into := into) (row := row) (m := s.scratch) List.pairwise_lt_range (List.mem_range.mpr hr)
        (Memory.readList_get _ _ hi) fun q hq lt => ?_
      rw [len]
      exact later q lt (List.mem_range.mp hq)
    · refine Memory.writeRows_outside (m := s.scratch) fun w hw => ?_
      obtain ⟨r, hr, rfl⟩ := List.mem_map.mp hw
      have := ha r (List.mem_range.mp hr)
      simpa only [Function.comp_apply, len] using this

/-! GATHER and SCATTER -/

theorem logRecord_low (s : State) (cause fpc : Nat) (lanes : Mask) (pc : Nat) (name : Name) (group detail : Nat) :
    (s.logRecord cause fpc lanes pc name group detail).extractLsb' 0 32 = BitVec.ofNat 32 detail := by
  calc (s.logRecord cause fpc lanes pc name group detail).extractLsb' 0 32
      = ((s.logRecord cause fpc lanes pc name group detail).extractLsb' 0 128).extractLsb' 0 32 := by ext i hi; simp
    _ = (BitVec.ofNat 128 detail).extractLsb' 0 32 := by rw [logRecord_detail]
    _ = BitVec.ofNat 32 detail := by
      refine BitVec.eq_of_toNat_eq ?_
      rw [BitVec.extractLsb'_toNat, BitVec.toNat_ofNat, BitVec.toNat_ofNat, Nat.shiftRight_zero]
      exact Nat.mod_mod_of_dvd _ (by decide)

/-- Cause and position of a record of an index out of range (R262). -/
def idxrOf (r : BitVec 512) : BitVec 8 × BitVec 32 := (r.extractLsb' 488 8, r.extractLsb' 0 32)

/-- Where GATHER and SCATTER put the row of a position. -/
def rowPlace (dst : Nat) (scatter : Bool) (idx : List Nat) (rowb p : Nat) : Nat := dst + (if scatter then idx.getD p 0 else p) * rowb

/-- Rows moved and indices out of range recorded, position by position. -/
theorem doAll_rowItems {c : Ctx} {k : Card} {dst nrows rowb : Nat} {scatter : Bool} {idx : List Nat} {row : Nat → List Byte}
    (len : ∀ p, (row p).length = rowb) (ps : List Nat) : ∀ {u : State}, u.scw = [] → u.replayFull k.core = false →
    ∃ ctxs, State.doAll c k (rowItems ⟨.sc, dst⟩ scatter idx nrows rowb none ps
          ((ps.filter fun p => decide (idx.getD p 0 < nrows)).flatMap row)) u =
        ({ u with
            scratch := u.scratch.writeRows ((ps.filter fun p => decide (idx.getD p 0 < nrows)).map fun p =>
              (scratchKey c (dieOf k.core) (rowPlace dst scatter idx rowb p), row p))
            ctxs := ctxs }, []) ∧
      ∀ c0, u.ctx? k.ctx = some c0 → c0.log.length + ps.length ≤ c0.logCap →
        ∃ recs, ({ u with ctxs := ctxs } : State).ctx? k.ctx = some { c0 with log := c0.log ++ recs } ∧
          recs.map idxrOf = (ps.filter fun p => decide (nrows ≤ idx.getD p 0)).map fun p => (0x03#8, BitVec.ofNat 32 p) := by
  induction ps with
  | nil => exact fun _ _ => ⟨_, rfl, fun c0 hc _ => ⟨[], by rw [List.append_nil]; exact hc, rfl⟩⟩
  | cons p ps ih =>
    intro u quiet room
    by_cases valid : idx.getD p 0 < nrows
    · rw [List.filter_cons_of_pos (by simpa using valid), List.filter_cons_of_neg (by simpa using valid), List.flatMap_cons, rowItems, if_pos valid,
        List.take_left' (len p), List.drop_left' (len p)]
      set v : State := { u with scratch := u.scratch.writeList (scratchKey c (dieOf k.core) (rowPlace dst scatter idx rowb p)) (row p) }
      obtain ⟨ctxs, run, log⟩ := ih (u := v) quiet room
      refine ⟨ctxs, ?_, fun c0 hc fits => log c0 hc (Nat.le_trans (by rw [List.length_cons]; omega) fits)⟩
      have one : writesFrom ((⟨.sc, dst⟩ : EAddr).plus ((if scatter then idx.getD p 0 else p) * rowb)) (row p) =
          [.write ⟨.sc, rowPlace dst scatter idx rowb p⟩ (row p)] := writesFrom_sc ..
      rw [one]
      show State.doAll c k (.write ⟨.sc, rowPlace dst scatter idx rowb p⟩ (row p) :: _) u = _
      rw [State.doAll, State.jobItem, writePiece_sc quiet c room]
      exact run
    · rw [List.filter_cons_of_neg (by simpa using valid), List.filter_cons_of_pos (by simpa using valid), rowItems, if_neg valid]
      set v := u.log k.ctx 0x03 0 0 0 k.name k.num p with hv
      have same : v = { u with ctxs := v.ctxs } := by
        rw [hv]
        unfold State.log State.modCtx
        dsimp only
        split <;> rfl
      obtain ⟨ctxs, run, log⟩ := ih (u := v) ((log_scw ..).trans quiet) (by unfold State.replayFull at *; rw [hv, log_replay]; exact room)
      refine ⟨ctxs, ?_, fun c0 hc fits => ?_⟩
      · show State.doAll c k (.idxr p :: _) u = _
        rw [State.doAll, State.jobItem]
        refine run.trans ?_
        rw [same]
      · rw [List.length_cons] at fits
        obtain ⟨recs, found, notes⟩ := log _ (ctx?_log hc (by omega) ..)
          (by dsimp only; rw [List.length_append, List.length_singleton]; omega)
        refine ⟨u.logRecord 0x03 0 0 0 k.name k.num p :: recs, ?_, ?_⟩
        · rw [same] at found
          rw [List.append_cons]
          exact found
        · rw [List.map_cons, List.map_cons, notes]
          exact congrArg (· :: _) (Prod.ext (logRecord_cause ..) (logRecord_low ..))

/-- A byte of one row lies in no other. -/
theorem rows_apart {x y n i : Nat} (h : y * n ≠ x * n) (hi : i < n) : x * n + i < y * n ∨ y * n + n ≤ x * n + i := by
  rcases Nat.lt_trichotomy x y with lt | rfl | lt
  · have := Nat.mul_le_mul_right n (Nat.succ_le_of_lt lt)
    rw [Nat.succ_mul] at this
    omega
  · exact absurd rfl h
  · have := Nat.mul_le_mul_right n (Nat.succ_le_of_lt lt)
    rw [Nat.succ_mul] at this
    omega

theorem gathersRun : GathersRun := by
  intro s cid k c scatter dst src ix nidx nrows rowb begins kind job fits at_ idx into from_
  obtain ⟨turn, idle, quiet, room⟩ := begins
  set u := s.ran (engineUnit k) k.ctx with hu
  set ids : List Nat := (List.range nidx).map idx with hids
  have get {p : Nat} (hp : p < nidx) : ids.getD p 0 = idx p := by
    rw [hids, List.getD_eq_getElem?_getD, List.getElem?_map, List.getElem?_range hp]; rfl
  set row : Nat → List Byte := fun p => s.scratch.readList (at_ (src + (if scatter then p else ids.getD p 0) * rowb)) rowb with hrow
  have len (p : Nat) : (row p).length = rowb := readList_length ..
  set valid : List Nat := (List.range nidx).filter fun p => decide (ids.getD p 0 < nrows) with hvalid
  have mem {p : Nat} : p ∈ valid ↔ p < nidx ∧ idx p < nrows := by
    rw [hvalid, List.mem_filter, List.mem_range, decide_eq_true_iff]
    exact and_congr_right fun hp => by rw [get hp]
  have index : s.jobIndex c k ⟨.sc, ix⟩ nidx = ids := by
    unfold State.jobIndex
    rw [readPiece_sc quiet]
    exact wordList_readList ..
  have reads : State.readAll c k (valid.flatMap fun p => cutRange ((⟨.sc, src⟩ : EAddr).plus ((if scatter then p else ids.getD p 0) * rowb)) rowb) u =
      (u, [], valid.flatMap row) := by
    have := readAll_sc (s := u) quiet c k (valid.map fun p => (src + (if scatter then p else ids.getD p 0) * rowb, rowb))
    rw [List.map_map, List.flatMap_map] at this
    rw [show (valid.flatMap fun p => cutRange ((⟨.sc, src⟩ : EAddr).plus ((if scatter then p else ids.getD p 0) * rowb)) rowb) =
      valid.map fun p => (⟨.sc, src + (if scatter then p else ids.getD p 0) * rowb⟩, rowb) from List.map_eq_flatMap.symm]
    exact this
  obtain ⟨ctxs, moved, noted⟩ := doAll_rowItems (c := c) (k := k) (dst := dst) (nrows := nrows) (scatter := scatter) (idx := ids) len
    (List.range nidx) (u := u) quiet room
  have run := runJob_done (kinds := [0x02, 0x03]) turn idle (by rw [kind]; cases scatter <;> decide)
    (run := ⟨0, ids, valid.flatMap fun p => cutRange ((⟨.sc, src⟩ : EAddr).plus ((if scatter then p else ids.getD p 0) * rowb)) rowb, [], none⟩)
    (by unfold State.jobStart; rw [job]; dsimp only; rw [index]) rfl rfl (fun run => by unfold partsAfter; rw [job]) reads
    ((congrArg (fun l => State.doAll c k l u) (by unfold jobItems; rw [job])).trans moved)
  have run : exec (.gatherScatterJob cid) s = .next _ := congrArg Host.Outcome.next run
  have place {p : Nat} (hp : p < nidx) : scratchKey c (dieOf k.core) (rowPlace dst scatter ids rowb p) = into p := by
    unfold rowPlace
    rw [get hp]
  refine ⟨_, run, fun p i hp ok hi later => ?_, fun a ha => ?_, ?_, jobOver_setCard turn.1 rfl _, rfl, rfl⟩
  · rw [← place hp]
    have value : from_ p = at_ (src + (if scatter then p else ids.getD p 0) * rowb) := by rw [get hp]
    rw [value]
    refine Memory.writeRows_last (into := fun p => scratchKey c (dieOf k.core) (rowPlace dst scatter ids rowb p)) (row := row) (m := s.scratch)
      (List.pairwise_lt_range.filter _) (mem.mpr ⟨hp, ok⟩) (Memory.readList_get _ _ hi) fun q hq lt => ?_
    obtain ⟨hq, okq⟩ := mem.mp hq
    have apart := later q lt hq okq
    rw [len, place hp, place hq]
    have at_row (p : Nat) : into p = dieOf k.core * 2 ^ 28 + c.scBase + dst + (if scatter then idx p else p) * rowb :=
      (Nat.add_assoc ..).symm
    rw [at_row, at_row] at apart ⊢
    rcases rows_apart (fun h => apart (congrArg _ h)) hi with h | h
    · exact .inl (by omega)
    · exact .inr (by omega)
  · refine Memory.writeRows_outside (m := s.scratch) fun w hw => ?_
    obtain ⟨p, hp, rfl⟩ := List.mem_map.mp hw
    obtain ⟨hp, ok⟩ := mem.mp hp
    dsimp only
    rw [place hp, len]
    exact ha p hp ok
  · obtain ⟨recs, found, notes⟩ := noted c turn.2.1 (by rw [List.length_range]; exact fits)
    refine ⟨_, recs, found, rfl, notes.trans ?_⟩
    rw [List.filter_congr fun p hp => by rw [get (List.mem_range.mp hp)]]

/-! The skip flag, the step counter, completion -/

theorem runFlag_done {s : State} {cid : Nat} {k : Card} {c : Ctx} (turn : s.jobTurn cid k c) (idle : k.run = none) {kind : BitVec 8}
    (hk : k.kind = kind) (effect : Job → Nat → Ctx → Ctx) : s.runFlag cid kind effect =
      ((s.ran (engineUnit k) k.ctx).setCtx (effect k.job (dieOf k.core) c)).setCard (k.ended ⟨0, [], [], [], none⟩) := by
  obtain ⟨hk', hc, ready⟩ := turn
  have found : (s.cards.find? fun k => k.cid == cid && k.kind == kind && k.run.isNone) = some k := by
    simp only [Bool.and_assoc]
    exact find_and (q := fun k => k.kind == kind && k.run.isNone) hk' (by simp [hk, idle])
  unfold State.runFlag
  simp only [found, hc, ready, if_true]
  rfl

theorem flagJobsRun : FlagJobsRun := by
  intro s cid k c turn idle
  have no := ctx?_no turn.2.1
  have ctx {c' : Ctx} (h : c'.no = c.no) : ((s.ran (engineUnit k) k.ctx).setCtx c').ctx? k.ctx = some c' :=
    ctx?_setCtx (s := s.ran (engineUnit k) k.ctx) turn.2.1 (h.trans no)
  refine ⟨fun v kind job => ?_, fun kind job => ?_⟩
  · have run : exec (.skpsetJob cid) s = .next _ := congrArg Host.Outcome.next (runFlag_done turn idle kind skipEffect)
    rw [job] at run
    refine ⟨_, run, _, _, ctx rfl, rfl, fun d => Sparse.get_put, cards_setCard turn.1 rfl rfl, ⟨_, rfl, rfl⟩, rfl, rfl, rfl, rfl⟩
  · have run : exec (.updstepJob cid) s = .next _ := congrArg Host.Outcome.next (runFlag_done turn idle kind stepEffect)
    cases skip : Sparse.get false c.skip (dieOf k.core) with
    | true =>
      have none_ : stepEffect k.job (dieOf k.core) c = c := if_pos skip
      rw [none_] at run
      refine ⟨_, run, _, _, ctx rfl, rfl, fun d => (if_neg ?_).symm, cards_setCard turn.1 rfl rfl, ⟨_, rfl, rfl⟩, rfl, rfl, rfl, rfl⟩
      rintro ⟨rfl, h⟩
      rw [skip] at h
      exact absurd h (by decide)
    | false =>
      have counts : stepEffect k.job (dieOf k.core) c = { c with
          steps := Sparse.put 0 c.steps (dieOf k.core)
            (BitVec.ofNat 32 (min allOnes32 ((Sparse.get 0 c.steps (dieOf k.core)).toNat + 1))) } := if_neg (by rw [skip]; decide)
      rw [counts] at run
      refine ⟨_, run, _, _, ctx rfl, rfl, fun d => ?_, cards_setCard turn.1 rfl rfl, ⟨_, rfl, rfl⟩, rfl, rfl, rfl, rfl⟩
      show (Sparse.get 0 (Sparse.put 0 c.steps (dieOf k.core) _) d).toNat = _
      rw [Sparse.get_put]
      by_cases same : d = dieOf k.core
      · subst same
        rw [if_pos rfl, if_pos ⟨rfl, skip⟩, BitVec.toNat_ofNat]
        exact Nat.mod_eq_of_lt (Nat.lt_of_le_of_lt (Nat.min_le_left ..) (by decide))
      · rw [if_neg same, if_neg fun h => same h.1]

theorem jobsComplete : JobsComplete := by
  intro s cid k hk runs settled ended
  have kid : k.cid = cid := by simpa using List.find?_some hk
  obtain ⟨r, hr, out⟩ := ended
  have run : exec (.jobComplete cid) s = .next (s.completeCard k) := by
    show execJobComplete cid s = _
    unfold execJobComplete State.jobDone
    simp only [hk, runs, kid, settled, hr, out, Option.bind_some]
    rfl
  have same {α : Type} (f : State → α) (hw : ∀ (s : State) w, f { s with windows := w } = f s) (hp : ∀ (s : State) p, f { s with perfs := p } = f s)
      (ht : ∀ (s : State) ctx kind core slice cf name group pc d, f (s.traceEvent ctx kind core slice cf name group pc d) = f s) :
      f (s.completeCard k) = f { s with cards := s.cards.filter fun i => i.cid != cid } := by
    unfold State.completeCard
    dsimp only
    rw [ht, kid]
    split
    · exact (hp ..).trans (hw ..)
    · exact hw ..
  have cards : (s.completeCard k).cards = s.cards.filter fun i => i.cid != cid :=
    same State.cards (fun _ _ => rfl) (fun _ _ => rfl) fun _ _ _ _ _ _ _ _ _ _ => traceEvent_cards ..
  refine ⟨_, run, cards, same State.groups (fun _ _ => rfl) (fun _ _ => rfl) fun _ _ _ _ _ _ _ _ _ _ => traceEvent_groups ..,
    ⟨same State.dram (fun _ _ => rfl) (fun _ _ => rfl) fun _ _ _ _ _ _ _ _ _ _ => traceEvent_dram ..,
      same State.scratch (fun _ _ => rfl) (fun _ _ => rfl) fun _ _ _ _ _ _ _ _ _ _ => traceEvent_scratch ..,
      same State.scw (fun _ _ => rfl) (fun _ _ => rfl) fun _ _ _ _ _ _ _ _ _ _ => traceEvent_scw ..⟩, fun i _ free => ?_⟩
  refine List.any_eq_false.mpr fun e he => ?_
  have other : e.cid ≠ i.cid := by simpa using List.mem_takeWhile_imp he
  rw [free e (List.takeWhile_subset _ he) other]
  decide

end Sys2Proof.Machine
end


section
/-! Updates (R274, R276). -/

namespace Sys2Proof.Machine

open Sys2Proof

/-- Where element e of an array stands in main memory. -/
def updCell (pas : List Nat) (j e : Nat) : Nat := pas.getD j 0 + 4 * e

/-- What an update writes for an element, array by array, from the words it finds (R276). -/
def updPuts (adamw : Bool) (ws : List Word) (steps : Word) (x : Nat → Nat) : List (Nat × Nat) :=
  if adamw then
    let r := adamwElem (hyperOf ws) (steps.toNat + 1) (x 0) (x 1) (x 2) (x 3)
    [(3, r.2.1), (2, r.1), (0, r.2.2)]
  else
    let r := sgdmElem (hyperOf ws) (x 0) (x 1) (x 2)
    [(2, r.1), (0, r.2)]

/-- Words put where an element's stand. -/
def Memory.putWords (pas : List Nat) (e : Nat) (puts : List (Nat × Nat)) (m : Memory) : Memory :=
  puts.foldl (fun m p => m.writeN (updCell pas p.1 e) 4 p.2) m

/-- One element of an update. -/
def Memory.updated (adamw : Bool) (ws : List Word) (steps : Word) (pas : List Nat) (m : Memory) (e : Nat) : Memory :=
  m.putWords pas e (updPuts adamw ws steps fun j => m.readN (updCell pas j e) 4)

/-- The arrays of an update stand at pas, apart from each other, in a job's state u whatever their own words hold. -/
structure State.UpdAt (u : State) (c : Ctx) (adamw : Bool) (ws : List Word) (attr : Nat) (pas : List Nat) : Prop where
  count : pas.length = if adamw then 4 else 3
  apart : ∀ i j, i ≠ j → i < pas.length → j < pas.length →
    pas.getD i 0 + 4 * updCount ws ≤ pas.getD j 0 ∨ pas.getD j 0 + 4 * updCount ws ≤ pas.getD i 0
  one : attr ≠ 2
  idle : u.replay = []
  reads : ∀ m : Memory, (∀ a, (∀ p ∈ pas, a < p ∨ p + 4 * updCount ws ≤ a) → m.read a = u.dram.read a) → ∀ j e, j < pas.length →
    e < updCount ws → ({ u with dram := m } : State).translate c (updAt adamw ws j e).addr false false = .ok (updCell pas j e) attr
  writes : ∀ m : Memory, (∀ a, (∀ p ∈ pas, a < p ∨ p + 4 * updCount ws ≤ a) → m.read a = u.dram.read a) → ∀ j e, j < pas.length →
    e < updCount ws → j ≠ 1 → ({ u with dram := m } : State).translate c (updAt adamw ws j e).addr true false = .ok (updCell pas j e) attr

/-- A memory that differs at most in the arrays. -/
def ArraysOnly (u : State) (ws : List Word) (pas : List Nat) (m : Memory) : Prop :=
  ∀ a, (∀ p ∈ pas, a < p ∨ p + 4 * updCount ws ≤ a) → m.read a = u.dram.read a

section

variable {u : State} {c : Ctx} {adamw : Bool} {ws : List Word} {attr : Nat} {pas : List Nat} (h : u.UpdAt c adamw ws attr pas)

theorem cell_mem {j : Nat} (hj : j < pas.length) : pas.getD j 0 ∈ pas := by
  rw [List.getD_eq_getElem?_getD, List.getElem?_eq_getElem hj]
  exact List.getElem_mem hj

theorem arraysOnly_write {m : Memory} (hm : ArraysOnly u ws pas m) {j e : Nat} (hj : j < pas.length) (he : e < updCount ws) (v : Nat) :
    ArraysOnly u ws pas (m.writeN (updCell pas j e) 4 v) := by
  intro a ha
  refine Eq.trans (Memory.read_writeN_outside ?_) (hm a ha)
  have := ha _ (cell_mem hj)
  unfold updCell
  omega

include h

/-- The words of other elements and other arrays. -/
theorem cells_apart {i j d e : Nat} (hi : i < pas.length) (hj : j < pas.length) (hd : d < updCount ws) (he : e < updCount ws)
    (ne : i ≠ j ∨ d ≠ e) : updCell pas i d + 4 ≤ updCell pas j e ∨ updCell pas j e + 4 ≤ updCell pas i d := by
  unfold updCell
  by_cases same : i = j
  · subst same
    have := ne.resolve_left (not_not.mpr rfl)
    omega
  · have := h.apart i j same hi hj
    omega

theorem doAll_puts {k : Card} (engine : k.copies = false) {e : Nat} (he : e < updCount ws) {puts : List (Nat × Nat)} : ∀ {m : Memory},
    (∀ p ∈ puts, p.1 < pas.length ∧ p.1 ≠ 1) → ArraysOnly u ws pas m →
    State.doAll c k (puts.map fun p => .write (updAt adamw ws p.1 e) (bytesOf 4 p.2)) { u with dram := m } =
      ({ u with dram := m.putWords pas e puts }, []) ∧ ArraysOnly u ws pas (m.putWords pas e puts) := by
  induction puts with
  | nil => exact fun _ hm => ⟨rfl, hm⟩
  | cons p puts ih =>
    intro m hp hm
    obtain ⟨hj, write⟩ := hp p List.mem_cons_self
    have next := arraysOnly_write hm hj he p.2
    obtain ⟨run, only⟩ := ih (fun q hq => hp q (List.mem_cons_of_mem p hq)) next
    refine ⟨?_, only⟩
    have done_ : ({ u with dram := m } : State).writePiece c k (updAt adamw ws p.1 e) (bytesOf 4 p.2) =
        .ok { u with dram := m.writeN (updCell pas p.1 e) 4 p.2 } [] := by
      rw [← writeList_bytesOf]
      exact writePiece_mem (s := { u with dram := m }) h.idle (engine.symm ▸ h.writes m hm p.1 e hj he write) h.one _
    rw [List.map_cons, State.doAll, State.jobItem, done_]
    exact run

theorem readAll_words {k : Card} {m : Memory} (hm : ArraysOnly u ws pas m) {e : Nat} (he : e < updCount ws) {js : List Nat}
    (hjs : ∀ j ∈ js, j < pas.length) : State.readAll c k (js.map fun j => (updAt adamw ws j e, 4)) { u with dram := m } =
      ({ u with dram := m }, [], js.flatMap fun j => m.readList (updCell pas j e) 4) := by
  induction js with
  | nil => rfl
  | cons j js ih =>
    have read : ({ u with dram := m } : State).readPiece c k (updAt adamw ws j e) 4 = .ok { u with dram := m } (m.readList (updCell pas j e) 4) :=
      readPiece_mem (s := { u with dram := m }) (h.reads m hm j e (hjs j List.mem_cons_self) he) h.one k 4
    rw [List.map_cons, State.readAll, read]
    dsimp only
    rw [ih fun i hi => hjs i (List.mem_cons_of_mem j hi)]
    rfl

end

theorem wordList_words (m : Memory) (f : Nat → Nat) (js : List Nat) :
    wordList (js.flatMap fun j => m.readList (f j) 4) = js.map fun j => m.readN (f j) 4 := by
  induction js with
  | nil => rfl
  | cons j js ih =>
    have one := wordList_readList m 1 (f j)
    have four : m.readList (f j) 4 = [m.read (f j), m.read (f j + 1), m.read (f j + 2), m.read (f j + 3)] := rfl
    rw [List.flatMap_cons, four]
    simp only [List.cons_append, List.nil_append, wordList, ih, List.map_cons]
    rw [show 4 * 1 = 4 from rfl, four] at one
    exact congrArg (· :: _) (List.cons.inj one).1

/-- What an element's part does once it has read. -/
theorem updItems_eq (adamw : Bool) (ws : List Word) (steps : Word) (m : Memory) (pas : List Nat) (e : Nat) :
    updItems adamw ws steps ⟨e, [], [], (if adamw then [1, 0, 2, 3] else [1, 0, 2]).flatMap fun j => m.readList (updCell pas j e) 4, none⟩ =
      (updPuts adamw ws steps fun j => m.readN (updCell pas j e) 4).map fun p => .write (updAt adamw ws p.1 e) (bytesOf 4 p.2) := by
  unfold updItems updPuts
  dsimp only
  rw [wordList_words]
  cases adamw <;> rfl

theorem updPuts_arrays {adamw : Bool} {ws : List Word} {steps : Word} {x : Nat → Nat} {p : Nat × Nat} (hp : p ∈ updPuts adamw ws steps x) :
    p.1 < (if adamw then 4 else 3) ∧ p.1 ≠ 1 := by
  unfold updPuts at hp
  cases adamw
  all_goals
    simp only [if_true, if_false, Bool.false_eq_true, List.mem_cons, List.not_mem_nil, or_false] at hp
    rcases hp with rfl | rfl | rfl
    all_goals simp

theorem updPuts_nodup (adamw : Bool) (ws : List Word) (steps : Word) (x : Nat → Nat) : ((updPuts adamw ws steps x).map (·.1)).Nodup := by
  unfold updPuts
  cases adamw
  all_goals simp

theorem updPuts_congr {adamw : Bool} {x y : Nat → Nat} (h : ∀ j, j < (if adamw then 4 else 3) → x j = y j) (ws : List Word) (steps : Word) :
    updPuts adamw ws steps x = updPuts adamw ws steps y := by
  unfold updPuts
  cases adamw
  case false => simp only [Bool.false_eq_true, if_false, h 0 (by decide), h 1 (by decide), h 2 (by decide)]
  case true => rw [h 0 (by decide), h 1 (by decide), h 2 (by decide), h 3 (by decide)]

/-- One part of an update. -/
theorem partOn_element {u : State} {c : Ctx} {k : Card} {adamw : Bool} {ws : List Word} {attr : Nat} {pas : List Nat}
    (h : u.UpdAt c adamw ws attr pas) (engine : k.copies = false) (job : k.job = .upd adamw ws) {m : Memory} (hm : ArraysOnly u ws pas m) {e : Nat}
    (he : e < updCount ws) : ∃ run : JobRun, run.elem = e ∧ run.out = some [] ∧
      ({ u with dram := m } : State).partOn c k (updElem adamw ws e) =
        ({ u with dram := m.updated adamw ws (Sparse.get 0 c.steps (dieOf k.core)) pas e }, run) ∧
      ArraysOnly u ws pas (m.updated adamw ws (Sparse.get 0 c.steps (dieOf k.core)) pas e) := by
  set js : List Nat := if adamw then [1, 0, 2, 3] else [1, 0, 2] with hjs
  have inside : ∀ j ∈ js, j < pas.length := by
    rw [h.count, hjs]
    cases adamw <;> decide
  have read := readAll_words h (k := k) hm he inside
  obtain ⟨put, only⟩ := doAll_puts h engine he (puts := updPuts adamw ws (Sparse.get 0 c.steps (dieOf k.core)) fun j => m.readN (updCell pas j e) 4)
    (fun p hp => h.count.symm ▸ updPuts_arrays hp) hm
  refine ⟨⟨e, [], [], js.flatMap fun j => m.readList (updCell pas j e) 4, some []⟩, rfl, rfl, ?_, only⟩
  unfold State.partOn updElem
  simp only [← hjs, read, List.nil_append, List.isEmpty_nil, if_true]
  unfold jobItems
  simp only [job]
  rw [updItems_eq, put]
  rfl

/-- The parts of an update from an element to the last. -/
theorem partsOn_update {u : State} {c : Ctx} {k : Card} {adamw : Bool} {ws : List Word} {attr : Nat} {pas : List Nat}
    (h : u.UpdAt c adamw ws attr pas) (engine : k.copies = false) (job : k.job = .upd adamw ws) (left : Nat) : ∀ {m : Memory} {e : Nat},
    ArraysOnly u ws pas m → e + left < updCount ws → ∃ run : JobRun, run.out = some [] ∧
      State.partsOn c k left { u with dram := m } (updElem adamw ws e) =
        ({ u with
          dram := (List.range' e (left + 1)).foldl (Memory.updated adamw ws (Sparse.get 0 c.steps (dieOf k.core)) pas) m }, run) := by
  induction left with
  | zero =>
    intro m e hm he
    obtain ⟨run, -, out, one, -⟩ := partOn_element h engine job hm (e := e) (by omega)
    exact ⟨run, out, one⟩
  | succ left ih =>
    intro m e hm he
    obtain ⟨run, elem, out, one, only⟩ := partOn_element h engine job hm (e := e) (by omega)
    obtain ⟨last, out', rest⟩ := ih (e := e + 1) only (by omega)
    have next : nextPart k run = updElem adamw ws (e + 1) := by unfold nextPart; rw [job, elem]
    refine ⟨last, out', ?_⟩
    rw [State.partsOn, one]
    simp only [out, beq_self_eq_true, if_true, next, rest]
    rfl

/-! The words of the arrays -/

section

variable {u : State} {c : Ctx} {adamw : Bool} {ws : List Word} {attr : Nat} {pas : List Nat} (h : u.UpdAt c adamw ws attr pas)

theorem putWords_outside {e a : Nat} {puts : List (Nat × Nat)} (out : ∀ p ∈ puts, a < updCell pas p.1 e ∨ updCell pas p.1 e + 4 ≤ a)
    (m : Memory) : (m.putWords pas e puts).read a = m.read a := by
  induction puts generalizing m with
  | nil => rfl
  | cons p puts ih =>
    refine (ih (fun q hq => out q (List.mem_cons_of_mem p hq)) _).trans ?_
    exact Memory.read_writeN_outside (out p List.mem_cons_self)

include h

/-- An element's part changes no other byte. -/
theorem updated_outside (steps : Word) {e a : Nat} (out : ∀ j, j < pas.length → j ≠ 1 → a < updCell pas j e ∨ updCell pas j e + 4 ≤ a) (m : Memory) :
    (m.updated adamw ws steps pas e).read a = m.read a :=
  putWords_outside (fun p hp => out p.1 (h.count.symm ▸ (updPuts_arrays hp).1) (updPuts_arrays hp).2) m

theorem updates_outside (steps : Word) {a : Nat} (l : List Nat)
    (out : ∀ e ∈ l, ∀ j, j < pas.length → j ≠ 1 → a < updCell pas j e ∨ updCell pas j e + 4 ≤ a) (m : Memory) :
    (l.foldl (Memory.updated adamw ws steps pas) m).read a = m.read a := by
  induction l generalizing m with
  | nil => rfl
  | cons e l ih =>
    rw [List.foldl_cons, ih fun d hd => out d (List.mem_cons_of_mem e hd)]
    exact updated_outside h steps (out e List.mem_cons_self) m

/-- The words of an element stay through the parts of other elements. -/
theorem updates_word (steps : Word) {l : List Nat} {j e : Nat} (hj : j < pas.length) (he : e < updCount ws)
    (others : ∀ d ∈ l, d < updCount ws ∧ d ≠ e) (m : Memory) :
    (l.foldl (Memory.updated adamw ws steps pas) m).readN (updCell pas j e) 4 = m.readN (updCell pas j e) 4 := by
  refine Memory.readN_congr fun a h1 h2 => updates_outside h steps l (fun d hd i hi _ => ?_) m
  obtain ⟨hd, ne⟩ := others d hd
  have := cells_apart h hi hj hd he (.inr ne)
  omega

/-- What an update leaves in an element's words is what its part leaves of the words as they were. -/
theorem updates_element (steps : Word) {j e : Nat} (hj : j < pas.length) (he : e < updCount ws) (m : Memory) :
    ∃ m' : Memory, (∀ i, i < pas.length → m'.readN (updCell pas i e) 4 = m.readN (updCell pas i e) 4) ∧
      ((List.range' 0 (updCount ws)).foldl (Memory.updated adamw ws steps pas) m).readN (updCell pas j e) 4 =
        (m'.updated adamw ws steps pas e).readN (updCell pas j e) 4 := by
  have split : List.range' 0 (updCount ws) = List.range' 0 e ++ e :: List.range' (e + 1) (updCount ws - e - 1) := by
    rw [show updCount ws = e + (updCount ws - e - 1 + 1) by omega, ← List.range'_append_1, List.range'_succ]
    simp
  refine ⟨(List.range' 0 e).foldl (Memory.updated adamw ws steps pas) m, fun i hi => ?_, ?_⟩
  · exact updates_word h steps hi he (fun d hd => by have := List.mem_range'_1.mp hd; omega) m
  · rw [split, List.foldl_append, List.foldl_cons]
    exact updates_word h steps hj he (fun d hd => by have := List.mem_range'_1.mp hd; omega) _

theorem putWords_read {e : Nat} (he : e < updCount ws) {puts : List (Nat × Nat)} (nodup : (puts.map (·.1)).Nodup)
    (inside : ∀ p ∈ puts, p.1 < pas.length) {p : Nat × Nat} (hp : p ∈ puts) (m : Memory) :
    (m.putWords pas e puts).readN (updCell pas p.1 e) 4 = p.2 % 2 ^ 32 := by
  induction puts generalizing m with
  | nil => simp at hp
  | cons q puts ih =>
    rw [List.map_cons, List.nodup_cons] at nodup
    rcases List.mem_cons.mp hp with rfl | hp
    · refine Eq.trans (Memory.readN_congr fun a h1 h2 => ?_) (Memory.readN_writeN m (updCell pas p.1 e) 4 p.2)
      show ((m.writeN (updCell pas p.1 e) 4 p.2).putWords pas e puts).read a = _
      refine putWords_outside (fun q hq => ?_) _
      have ne : p.1 ≠ q.1 := fun same => nodup.1 (List.mem_map.mpr ⟨q, hq, same.symm⟩)
      have := cells_apart h (inside p List.mem_cons_self) (inside q (List.mem_cons_of_mem p hq)) he he (.inl ne)
      omega
    · exact ih nodup.2 (fun q' hq => inside q' (List.mem_cons_of_mem q hq)) hp _

/-- What an update puts into an element's words, as the formulas of R276 give it of the words as they were. -/
theorem updates_put (steps : Word) {e : Nat} (he : e < updCount ws) (m : Memory) {p : Nat × Nat}
    (hp : p ∈ updPuts adamw ws steps fun j => m.readN (updCell pas j e) 4) :
    ((List.range' 0 (updCount ws)).foldl (Memory.updated adamw ws steps pas) m).readN (updCell pas p.1 e) 4 = p.2 % 2 ^ 32 := by
  have inside {x : Nat → Nat} : ∀ q ∈ updPuts adamw ws steps x, q.1 < pas.length := fun q hq => h.count.symm ▸ (updPuts_arrays hq).1
  obtain ⟨m', same, value⟩ := updates_element h steps (inside p hp) he m
  rw [value]
  refine putWords_read h he (updPuts_nodup ..) inside ?_ m'
  rw [updPuts_congr (y := fun j => m.readN (updCell pas j e) 4) fun j hj => same j (h.count.symm ▸ hj)]
  exact hp

end

theorem updatesRun : UpdatesRun := by
  intro s cid k c adamw ws turn idle kind job
  obtain ⟨hk, hc, ready⟩ := turn
  set u := s.ran (engineUnit k) k.ctx with hu
  have found : (s.cards.find? fun k => k.cid == cid && ([0x06, 0x07] : List (BitVec 8)).contains k.kind) = some k :=
    find_and (q := fun k => ([0x06, 0x07] : List (BitVec 8)).contains k.kind) hk (by rw [kind]; cases adamw <;> decide)
  have begin_ : exec (.updJob cid) s = .next (u.goOn c k (s.jobStart c k)) := by
    show Host.Outcome.next (s.runJob cid [0x06, 0x07]) = _
    unfold State.runJob
    simp only [found, hc, ready, if_true, idle, Option.getD_none]
    rfl
  refine ⟨fun skip => ?_, fun pas skip many empty arrays => ?_⟩
  · have run : u.goOn c k (s.jobStart c k) = u.setCard (k.ended ⟨0, [], [], [], none⟩) := by
      have start : s.jobStart c k = ⟨0, [], [], [], some []⟩ := by
        unfold State.jobStart
        simp only [job, skip, if_true]
      have one : partsAfter c k ⟨0, [], [], [], some []⟩ = 0 := by
        unfold partsAfter
        simp only [job, skip]
        rfl
      rw [start]
      unfold State.goOn
      rw [one]
      rfl
    rw [run] at begin_
    exact ⟨_, begin_, ⟨rfl, rfl, rfl⟩, jobOver_setCard hk rfl _, rfl, rfl⟩
  · intro word
    obtain ⟨len, apart, attr, one, at_⟩ := arrays
    have count : pas.length = if adamw then 4 else 3 := by rw [← len]; unfold updArrays; simp
    have engine : k.copies = false := by unfold Card.copies; rw [kind]; cases adamw <;> rfl
    have stands : u.UpdAt c adamw ws attr pas :=
      { count := count
        apart := fun i j ne hi hj => by
          rcases Nat.lt_or_gt_of_ne ne with lt | gt
          · exact apart i j lt hj
          · exact (apart j i gt hi).symm
        one := one
        idle := empty
        reads := fun m hm j e hj he => (at_ { u with dram := m } hm j e hj he).1
        writes := fun m hm j e hj he write => (at_ { u with dram := m } hm j e hj he).2 write }
    have start : s.jobStart c k = updElem adamw ws 0 := by
      unfold State.jobStart
      simp only [job, skip, Bool.false_eq_true, if_false]
    have after : partsAfter c k (updElem adamw ws 0) = updCount ws - 1 := by
      unfold partsAfter
      simp only [job, skip]
      rfl
    obtain ⟨last, out, parts⟩ := partsOn_update stands engine job (updCount ws - 1) (m := s.dram) (e := 0) (fun _ _ => rfl) (by omega)
    rw [show updCount ws - 1 + 1 = updCount ws by omega] at parts
    set steps := Sparse.get 0 c.steps (dieOf k.core) with hsteps
    set m := (List.range' 0 (updCount ws)).foldl (Memory.updated adamw ws steps pas) s.dram with hm
    have run : exec (.updJob cid) s = .next (({ u with dram := m } : State).setCard { k with run := some last }) := by
      rw [begin_, start]
      unfold State.goOn
      rw [after]
      have parts : State.partsOn c k (updCount ws - 1) u (updElem adamw ws 0) = ({ u with dram := m }, last) := parts
      simp only [parts]
    refine ⟨_, run, fun e he => ?_, fun a ha => ?_, ⟨_, cards_setCard hk rfl rfl, last, rfl, out⟩, rfl⟩
    · have put := fun p => updates_put stands steps he s.dram (p := p)
      constructor
      · rintro rfl r
        exact ⟨put (2, r.1) List.mem_cons_self, put (0, r.2) (List.mem_cons_of_mem _ List.mem_cons_self)⟩
      · rintro rfl r
        exact ⟨put (2, r.1) (List.mem_cons_of_mem _ List.mem_cons_self), put (3, r.2.1) List.mem_cons_self,
          put (0, r.2.2) (List.mem_cons_of_mem _ (List.mem_cons_of_mem _ List.mem_cons_self))⟩
    · show m.read a = s.dram.read a
      refine updates_outside stands steps _ (fun e he j hj write => ?_) s.dram
      have := ha j hj write
      have := (List.mem_range'_1.mp he).2
      unfold updCell
      omega

/-- Settles O46, part by part. -/
theorem engineEvents : Obligations.EngineEvents := ⟨copiesRun, gathersRun, updatesRun, flagJobsRun, jobsComplete⟩

end Sys2Proof.Machine
end


section
/-! Which bytes a store, a reduction or BARI changes (R205 to R207, R213). -/

namespace Sys2Proof.Machine

open Sys2Proof

/-! Writes to one memory -/

/-- A thread's writes carried out on a memory, an address standing at its key; the spill data takes every value as it is. -/
def writesAt (spc : Space) (key : Nat → Nat) (ws : List Write) (m : Memory) : Memory :=
  ws.foldl (fun m w => performOp m (if spc = .sp then .st else w.op) w.ty (key w.addr) w.width w.val) m

/-- Writes of a thread that lie in its range of n bytes, each of 64 bits at most. -/
def WritesIn (a n : Nat) (ws : List Write) : Prop := ∀ w ∈ ws, a ≤ w.addr ∧ w.addr + w.width ≤ a + n ∧ w.val < 2 ^ 64

/-- A byte after a store is told by what it was. -/
theorem writeN_congr {m m' : Memory} {c : Nat} (h : m'.read c = m.read c) (a n x : Nat) : (m'.writeN a n x).read c = (m.writeN a n x).read c := by
  induction n generalizing m m' a x with
  | zero => exact h
  | succ n ih =>
    refine ih ?_ ..
    by_cases same : c = a
    · subst same; rw [Memory.read_write_same, Memory.read_write_same]
    · rw [Memory.read_write_ne _ _ same, Memory.read_write_ne _ _ same, h]

theorem writesAt_outside {spc : Space} {key : Nat → Nat} {base a n c : Nat} (hk : ∀ a, key a = base + a) {ws : List Write}
    (hw : WritesIn a n ws) (hc : c < base + a ∨ base + a + n ≤ c) (m : Memory) : (writesAt spc key ws m).read c = m.read c := by
  induction ws generalizing m with
  | nil => rfl
  | cons w ws ih =>
    obtain ⟨h1, h2, -⟩ := hw w List.mem_cons_self
    refine (ih (fun v hv => hw v (List.mem_cons_of_mem w hv)) _).trans ?_
    exact Memory.read_writeN_outside (by rw [hk]; omega)

/-- What writes leave in their range is told by what stood there. -/
theorem writesAt_local {spc : Space} {key : Nat → Nat} {base a n : Nat} (hk : ∀ a, key a = base + a) {ws : List Write} (hw : WritesIn a n ws)
    {m m' : Memory} (h : ∀ c, base + a ≤ c → c < base + a + n → m'.read c = m.read c) :
    ∀ c, base + a ≤ c → c < base + a + n → (writesAt spc key ws m').read c = (writesAt spc key ws m).read c := by
  induction ws generalizing m m' with
  | nil => exact h
  | cons w ws ih =>
    obtain ⟨h1, h2, -⟩ := hw w List.mem_cons_self
    refine ih (fun v hv => hw v (List.mem_cons_of_mem w hv)) fun c hc1 hc2 => ?_
    have same : m'.readN (key w.addr) w.width = m.readN (key w.addr) w.width :=
      Memory.readN_congr fun d hd1 hd2 => h d (by rw [hk] at hd1; omega) (by rw [hk] at hd2; omega)
    dsimp only [performOp]
    rw [same]
    exact writeN_congr (h c hc1 hc2) ..

/-- The writes of some threads, one after the other. -/
def threadsAt (spc : Space) (key : Nat → Nat → Nat) (l : List (Nat × List Write)) (m : Memory) : Memory :=
  l.foldl (fun m e => writesAt spc (key e.1) e.2 m) m

section

variable {spc : Space} {key : Nat → Nat → Nat} {base at_ : Nat → Nat} {n : Nat} (hk : ∀ e a, key e a = base e + a)

include hk

theorem threadsAt_outside {l : List (Nat × List Write)} (hw : ∀ e ∈ l, WritesIn (at_ e.1) n e.2) {c : Nat}
    (hc : ∀ e ∈ l, c < base e.1 + at_ e.1 ∨ base e.1 + at_ e.1 + n ≤ c) (m : Memory) : (threadsAt spc key l m).read c = m.read c := by
  induction l generalizing m with
  | nil => rfl
  | cons e l ih =>
    refine (ih (fun d hd => hw d (List.mem_cons_of_mem e hd)) (fun d hd => hc d (List.mem_cons_of_mem e hd)) _).trans ?_
    exact writesAt_outside (hk e.1) (hw e List.mem_cons_self) (hc e List.mem_cons_self) m

/-- In a range that no other thread's meets stands what the thread's own writes make of it. -/
theorem threadsAt_own {l : List (Nat × List Write)} (hw : ∀ e ∈ l, WritesIn (at_ e.1) n e.2) (nodup : (l.map (·.1)).Nodup) {e : Nat}
    {ws : List Write} (he : (e, ws) ∈ l)
    (apart : ∀ d ∈ l.map (·.1), d ≠ e → base d + at_ d + n ≤ base e + at_ e ∨ base e + at_ e + n ≤ base d + at_ d) (m : Memory) :
    (threadsAt spc key l m).readN (key e (at_ e)) n = (writesAt spc (key e) ws m).readN (key e (at_ e)) n := by
  obtain ⟨pre, post, rfl⟩ := List.append_of_mem he
  rw [List.map_append, List.map_cons] at nodup apart
  obtain ⟨-, nodup', disjoint⟩ := List.nodup_append.mp nodup
  have before (c : Nat) (h1 : base e + at_ e ≤ c) (h2 : c < base e + at_ e + n) : (threadsAt spc key pre m).read c = m.read c := by
    refine threadsAt_outside hk (fun d hd => hw d (List.mem_append_left _ hd)) (fun d hd => ?_) m
    have hd' : d.1 ∈ pre.map (·.1) := List.mem_map.mpr ⟨d, hd, rfl⟩
    have := apart d.1 (List.mem_append_left _ hd') (disjoint _ hd' e List.mem_cons_self)
    omega
  have after (u : Memory) (c : Nat) (h1 : base e + at_ e ≤ c) (h2 : c < base e + at_ e + n) : (threadsAt spc key post u).read c = u.read c := by
    refine threadsAt_outside hk (fun d hd => hw d (List.mem_append_right _ (List.mem_cons_of_mem _ hd))) (fun d hd => ?_) u
    have hd' : d.1 ∈ post.map (·.1) := List.mem_map.mpr ⟨d, hd, rfl⟩
    have := apart d.1 (List.mem_append_right _ (List.mem_cons_of_mem _ hd')) fun h => (List.nodup_cons.mp nodup').1 (h ▸ hd')
    omega
  refine Memory.readN_congr fun c h1 h2 => ?_
  rw [hk] at h1 h2
  have parts : threadsAt spc key (pre ++ (e, ws) :: post) m = threadsAt spc key post (writesAt spc (key e) ws (threadsAt spc key pre m)) := by
    unfold threadsAt
    rw [List.foldl_append, List.foldl_cons]
  rw [parts, after _ c h1 h2]
  exact writesAt_local (hk e) (hw _ he) before c h1 h2

end

/-! What the threads write -/

theorem writesOf_mem {x : Cx} {per : Nat → Draw → List Write × Draw} {l : List Nat} : ∀ {dr : Draw} {e : Nat} {ws : List Write},
    (e, ws) ∈ (writesOf x per l dr).1 → ∃ dr, ws = (per e dr).1 := by
  induction l with
  | nil => intro dr e ws h; simp [writesOf] at h
  | cons t ts ih =>
    intro dr e ws h
    unfold writesOf at h
    rcases List.mem_cons.mp h with h | h
    · cases h; exact ⟨dr, rfl⟩
    · exact ih h

theorem writesOf_threads (x : Cx) (per : Nat → Draw → List Write × Draw) (l : List Nat) (dr : Draw) :
    (writesOf x per l dr).1.map (·.1) = l := by
  induction l generalizing dr with
  | nil => rfl
  | cons t ts ih => unfold writesOf; exact congrArg (t :: ·) (ih _)

theorem words_small (ws : List Word) (n : Nat) (h : ws.length ≤ n) : ws.foldr (fun w n => w.toNat + 2 ^ 32 * n) 0 < 2 ^ (32 * n) := by
  induction ws generalizing n with
  | nil => exact Nat.two_pow_pos _
  | cons w ws ih =>
    obtain ⟨n, rfl⟩ : ∃ m, n = m + 1 := ⟨n - 1, by rw [List.length_cons] at h; omega⟩
    have := ih n (by rw [List.length_cons] at h; omega)
    have := w.isLt
    rw [List.foldr_cons, Nat.mul_succ, Nat.pow_add]
    omega

theorem storeData_small {x : Cx} {ty : Ty} {t : Nat} {dr : Draw} : (x.storeData ty t dr).1 < 2 ^ 128 := by
  unfold Cx.storeData
  split
  · exact words_small _ 4 (by unfold Cx.run; split <;> simp)
  · exact Nat.lt_trans (BitVec.isLt _) (by decide)

/-- A thread's writes lie in its range. -/
theorem writes_in {i : Instr} {f : Fields} {spc : Space} {row : TileRow} {n : Nat} {one : Cx → Nat → Draw → List Write × Draw}
    (hi : storeRow i = some (f, spc, row, n, one)) {x : Cx} {e : Nat} {ws : List Write} (h : (e, ws) ∈ x.writes one) :
    WritesIn (x.addrN e) n ws := by
  obtain ⟨dr, rfl⟩ := writesOf_mem h
  rcases storeRow_cases hi with ⟨w, m, -, -, -, -, rfl, rfl⟩ | ⟨w, m, -, -, -, -, rfl, rfl⟩ | ⟨w, m, opc, op, -, -, -, -, -, rfl, rfl⟩
  · intro v hv
    dsimp only at hv
    unfold storeWrites at hv
    have data := storeData_small (x := x) (ty := m.ty) (t := e) (dr := dr)
    split at hv
    · next wide =>
      have : tyBytes m.ty = 16 := by rw [show m.ty = .b128 by simpa using wide]; rfl
      rcases List.mem_cons.mp hv with rfl | hv
      · exact ⟨Nat.le_refl _, by dsimp only; omega, Nat.mod_lt _ (by decide)⟩
      · obtain rfl := List.mem_singleton.mp hv
        exact ⟨by dsimp only; omega, by dsimp only; omega, by dsimp only; omega⟩
    · next narrow =>
      obtain rfl := List.mem_singleton.mp hv
      refine ⟨Nat.le_refl _, Nat.le_refl _, Nat.lt_of_lt_of_le (Nat.mod_lt _ (Nat.two_pow_pos _)) (Nat.pow_le_pow_right (by decide) ?_)⟩
      have : m.ty ≠ .b128 := by simpa using narrow
      revert this
      cases m.ty <;> decide
  · intro v hv
    obtain rfl := List.mem_singleton.mp hv
    exact ⟨Nat.le_refl _, Nat.le_refl _, by dsimp only; omega⟩
  · intro v hv
    obtain rfl := List.mem_singleton.mp hv
    refine ⟨Nat.le_refl _, Nat.le_refl _, Nat.lt_of_lt_of_le (Nat.mod_lt _ (Nat.two_pow_pos _)) (Nat.pow_le_pow_right (by decide) ?_)⟩
    unfold atBytes
    split <;> decide

/-! A core's view of the scratchpads -/

theorem coreScratch_congr {s t : State} (h : t.scratch = s.scratch) (k : t.scw = s.scw) (core : Nat) : t.coreScratch core = s.coreScratch core := by
  unfold State.coreScratch
  rw [h, k]

/-- Marks on writes under way change nothing that a core sees. -/
theorem coreScratch_marked {f : ScWrite → ScWrite} (hf : ∀ w, (f w).core = w.core ∧ ∀ m, (f w).perform m = w.perform m) (s : State) (core : Nat) :
    ({ s with scw := s.scw.map f } : State).coreScratch core = s.coreScratch core := by
  show ((s.scw.map f).filter fun w => w.core == core).foldl ScWrite.perform s.scratch = _
  unfold State.coreScratch
  generalize s.scratch = m
  induction s.scw generalizing m with
  | nil => rfl
  | cons w l ih =>
    obtain ⟨hc, hp⟩ := hf w
    simp only [List.map_cons, List.filter_cons, hc]
    split
    · rw [List.foldl_cons, List.foldl_cons, hp]
      exact ih _
    · exact ih _

theorem coreScratch_ordered (s : State) (x : Cx) (o : Ord) (core : Nat) : (s.ordered x o).coreScratch core = s.coreScratch core := by
  have freed (s : State) (gid : Nat) : (s.released gid).coreScratch core = s.coreScratch core :=
    coreScratch_marked (fun w => by split <;> exact ⟨rfl, fun _ => rfl⟩) s core
  have joined (s : State) (gid k : Nat) : (s.acquired gid k).coreScratch core = s.coreScratch core :=
    coreScratch_marked (fun w => by split <;> exact ⟨rfl, fun _ => rfl⟩) s core
  unfold State.ordered
  split
  · rfl
  · cases Ord.releases o <;> cases Ord.acquires o
    · rfl
    · exact joined ..
    · exact freed ..
    · exact (joined ..).trans (freed ..)

theorem coreScratch_performCore (s : State) (core : Nat) : (s.performCore core).coreScratch core = s.coreScratch core := by
  have none_ : ((s.scw.filter fun w => w.core != core).filter fun w => w.core == core) = [] :=
    List.filter_eq_nil_iff.mpr fun w hw => by simpa using (List.mem_filter.mp hw).2
  show ((s.scw.filter fun w => w.core != core).filter fun w => w.core == core).foldl ScWrite.perform (s.coreScratch core) = _
  rw [none_]
  rfl

theorem coreScratch_placed (x : Cx) (i : Instr) : (x.placed i).s.coreScratch x.g.core = x.s.coreScratch x.g.core := by
  unfold Cx.placed
  split
  · rfl
  · unfold Cx.afterSync
    split
    · rfl
    · show (x.s.syncFirst x.g.gid x.g.core).coreScratch x.g.core = _
      unfold State.syncFirst
      split
      exacts [coreScratch_performCore .., rfl]

theorem coreScratch_postSc (s : State) (gid bid core die a width : Nat) (op : MemOp) (ty : At) {v : Nat} (hv : v < 2 ^ 64) (sync : Bool) :
    (s.postSc gid bid core die a width op ty v sync).coreScratch core = performOp (s.coreScratch core) op ty a width v := by
  unfold State.postSc State.coreScratch
  dsimp only [State.fresh]
  rw [List.filter_append, List.foldl_append, List.filter_cons_of_pos (by simp)]
  show performOp _ op ty a width (BitVec.ofNat 64 v).toNat = _
  rw [BitVec.toNat_ofNat, Nat.mod_eq_of_lt hv]

/-! The states that the writes leave -/

theorem writeAll_dram (y : Cx) (spc : Space) (t : Nat) (ws : List Write) (sync : Bool) (s : State) : (y.writeAll spc t ws sync s).dram = s.dram := by
  unfold Cx.writeAll
  cases spc
  · exact modGroup_dram ..
  · exact modBlock_dram ..
  · exact List.foldlRecOn ws _ (motive := fun u : State => u.dram = s.dram) rfl fun _ hu _ _ => hu
  · rfl

theorem writeAlls_dram (y : Cx) (spc : Space) (l : List (Nat × List Write)) (sync : Bool) (s : State) :
    (l.foldl (fun v e => y.writeAll spc e.1 e.2 sync v) s).dram = s.dram :=
  List.foldlRecOn l _ (motive := fun u : State => u.dram = s.dram) rfl fun _ hu _ _ => (writeAll_dram ..).trans hu

/-- A group with spill data as given. -/
def Group.withSpill (g : Group) (m : Memory) : Group := { g with spill := m }

theorem writeAlls_spill {y : Cx} {sync : Bool} (l : List (Nat × List Write)) : ∀ {s : State} {g : Group}, s.group? y.g.gid = some g →
    (l.foldl (fun v e => y.writeAll .sp e.1 e.2 sync v) s).group? y.g.gid = some (g.withSpill (threadsAt .sp spillKey l g.spill)) := by
  induction l with
  | nil => exact fun h => h
  | cons e l ih =>
    intro s g hg
    exact ih (s := y.writeAll .sp e.1 e.2 sync s) (g := g.withSpill (writesAt .sp (spillKey e.1) e.2 g.spill)) (by
      refine (group?_modGroup (f := fun g => g.withSpill (writesAt .sp (spillKey e.1) e.2 g.spill)) fun _ => rfl).trans ?_
      rw [hg]
      rfl)

/-- A block with shared memory as given. -/
def Block.withShared (b : Block) (m : Memory) : Block := { b with sh := m }

theorem writeAlls_shared {y : Cx} {sync : Bool} (l : List (Nat × List Write)) : ∀ {s : State} {b : Block}, s.block? y.b.bid = some b →
    (l.foldl (fun v e => y.writeAll .sh e.1 e.2 sync v) s).block? y.b.bid = some (b.withShared (threadsAt .sh (fun _ => id) l b.sh)) := by
  induction l with
  | nil => exact fun h => h
  | cons e l ih =>
    intro s b hb
    exact ih (s := y.writeAll .sh e.1 e.2 sync s) (b := b.withShared (writesAt .sh id e.2 b.sh)) (by
      refine (block?_modBlock (f := fun b => b.withShared (writesAt .sh id e.2 b.sh)) fun _ => rfl).trans ?_
      rw [hb]
      rfl)

theorem writeAlls_scratch {y : Cx} {sync : Bool} {at_ : Nat → Nat} {n : Nat} {l : List (Nat × List Write)} :
    ∀ {s : State}, (∀ e ∈ l, WritesIn (at_ e.1) n e.2) → (l.foldl (fun v e => y.writeAll .sc e.1 e.2 sync v) s).coreScratch y.g.core =
      threadsAt .sc (fun _ => scratchKey y.c y.die) l (s.coreScratch y.g.core) := by
  induction l with
  | nil => exact fun _ => rfl
  | cons e l ih =>
    intro s hw
    have own {ws : List Write} : ∀ {s : State}, (∀ w ∈ ws, w.val < 2 ^ 64) → (y.writeAll .sc e.1 ws sync s).coreScratch y.g.core =
        writesAt .sc (scratchKey y.c y.die) ws (s.coreScratch y.g.core) := by
      induction ws with
      | nil => exact fun _ => rfl
      | cons w ws ih =>
        intro s small
        refine (ih (s := s.postSc y.g.gid y.b.bid y.g.core y.die (scratchKey y.c y.die w.addr) w.width w.op w.ty w.val sync)
          fun v hv => small v (List.mem_cons_of_mem w hv)).trans ?_
        rw [coreScratch_postSc _ _ _ _ _ _ _ _ _ (small w List.mem_cons_self)]
        rfl
    rw [List.foldl_cons, ih fun d hd => hw d (List.mem_cons_of_mem e hd), own fun w h => (hw e List.mem_cons_self w h).2.2]
    rfl

/-! What is found before the writes -/

theorem spill_modGroup {s : State} {n gid : Nat} {f : Group → Group} (hf : ∀ g, (f g).gid = g.gid ∧ (f g).spill = g.spill) :
    ((s.modGroup n f).group? gid).map (·.spill) = (s.group? gid).map (·.spill) := by
  rw [group?_modGroup_any fun g => (hf g).1]
  split
  · rw [Option.map_map]; exact congrArg (fun k => Option.map k _) (funext fun g => (hf g).2)
  · rfl

/-- The state before the writes, in the context y in which they are made. -/
def Cx.readied (y : Cx) (spc : Space) (dr : Draw) (ord : Ord) : State := ((y.s.ordered y ord).sampleDone y spc).commitDraws y dr

theorem readied_memory (y : Cx) (spc : Space) (dr : Draw) (ord : Ord) : (y.readied spc dr ord).dram = y.s.dram ∧
    (y.readied spc dr ord).blocks = y.s.blocks ∧ (y.readied spc dr ord).coreScratch y.g.core = y.s.coreScratch y.g.core := by
  have same : SameMemory (y.s.ordered y ord) (y.readied spc dr ord) := (sameMemory_modGroup ..).trans (sameMemory_commitDraws ..)
  refine ⟨same.dram.trans ?_, same.blocks.trans ?_, (coreScratch_congr same.scratch same.scw _).trans (coreScratch_ordered ..)⟩
  · rw [ordered_but]
  · rw [ordered_but]

theorem readied_spill (y : Cx) (spc : Space) (dr : Draw) (ord : Ord) (gid : Nat) :
    ((y.readied spc dr ord).group? gid).map (·.spill) = (y.s.group? gid).map (·.spill) := by
  have done_ : (((y.s.ordered y ord).sampleDone y spc).group? gid).map (·.spill) = (y.s.group? gid).map (·.spill) := by
    refine (spill_modGroup fun g => ?_).trans (congrArg (Option.map _) (group?_congr ?_ gid))
    · split
      · dsimp only; split <;> exact ⟨rfl, rfl⟩
      · exact ⟨rfl, rfl⟩
    · rw [ordered_but]
  unfold Cx.readied State.commitDraws
  split
  · exact done_
  · refine Eq.trans ?_ done_
    exact spill_modGroup (s := (y.s.ordered y ord).sampleDone y spc) fun g => by rw [commit_only]; exact ⟨rfl, rfl⟩

theorem sp_bound {x : Cx} {n : Nat} {a : Int} (h : x.addrFault .sp a n = none) : a.toNat + n ≤ 960 := by
  unfold Cx.addrFault at h
  dsimp only at h
  split at h
  · cases h
  · next ok =>
    simp only [Bool.or_eq_true, Bool.not_eq_true', decide_eq_true_eq, not_or, not_lt] at ok
    omega

/-- Settles O25. -/
theorem storedBytes : Obligations.StoredBytes := by
  intro i f spc row n one s x hi h ha hin hc ho hd tw hr
  obtain ⟨t, ht, ret⟩ := storeRow_done hi h ha hin hc ho hd hr
  obtain ⟨rfl, hg, hb, -⟩ := h.spec
  have hbid : x.b.bid = x.g.bid := block?_bid hb
  rw [← hbid] at hb
  obtain ⟨mem, l, hz⟩ := placed_scratch x i
  set y := (x.placed i).reached spc with hy
  have gb : y.g = x.g ∧ y.b = x.b ∧ y.c = x.c := by rw [hy, hz]; exact ⟨rfl, rfl, rfl⟩
  obtain ⟨hyg, hyb, hyc⟩ := gb
  have reached : SameMemory (x.placed i).s y.s := sameMemory_reachedAt ..
  set dr := (writesOf x (one x) x.each Draw.start).2
  set u := y.readied spc dr (storeOrd i) with hu
  obtain ⟨dram, blocks, scratch⟩ := readied_memory y spc dr (storeOrd i)
  have hdram : u.dram = x.s.dram := dram.trans (reached.dram.trans (by rw [hz]; rfl))
  have hblocks : u.blocks = x.s.blocks := blocks.trans (reached.blocks.trans (by rw [hz]; rfl))
  have hscratch : u.coreScratch x.g.core = x.s.coreScratch x.g.core := by
    rw [hyg] at scratch
    exact scratch.trans ((coreScratch_congr reached.scratch reached.scw _).trans (coreScratch_placed x i))
  set sync := storeSync i
  set v := (x.writes one).foldl (fun v e => y.writeAll spc e.1 e.2 sync v) u with hv
  have wrote : y.wrote spc (x.writes one) dr (storeOrd i) sync = v := by
    unfold Cx.wrote
    dsimp only
    rw [if_neg (by simpa using tw)]
    rfl
  rw [wrote] at ret
  have still {α : Type} (p : State → α) : p t.still = p v.still := congrArg p ret.still
  have inside : ∀ e ∈ x.writes one, WritesIn (x.addrN e.1) n e.2 := fun e he => writes_in hi he
  have threads : (x.writes one).map (·.1) = x.each := writesOf_threads ..
  have nodup : ((x.writes one).map (·.1)).Nodup := threads.symm ▸ each_nodup x
  have mem_each {e : Nat × List Write} (he : e ∈ x.writes one) : e.1 ∈ x.each := threads ▸ List.mem_map.mpr ⟨e, he, rfl⟩
  refine ⟨t, ht, (still State.dram).trans ((writeAlls_dram ..).trans hdram), ?_⟩
  cases spc with
  | tw => exact absurd rfl tw
  | sp =>
    have bound {e : Nat} (he : e ∈ x.each) : x.addrN e + n ≤ 960 := sp_bound (hin e he)
    have spill : (u.group? y.g.gid).map (·.spill) = some x.g.spill := by
      have none_ : y.s.groups = x.s.groups := by
        rw [hy, hz]
        show (State.sample _ _ .sp _).groups = _
        unfold State.sample
        rw [if_pos (by simp)]
        rfl
      rw [hu, readied_spill, hyg, group?_congr none_, hg]
      rfl
    obtain ⟨g0, hg0, hsp⟩ := Option.map_eq_some_iff.mp spill
    have written := writeAlls_spill (y := y) (sync := sync) (x.writes one) hg0
    rw [hsp, hyg] at written
    obtain ⟨g', hg', bare⟩ := ret.group _ written
    have left : g'.spill = threadsAt .sp spillKey (x.writes one) x.g.spill := congrArg Group.spill bare
    refine ⟨fun thread a ha out => ?_, fun e ws he _ => ?_⟩
    · unfold Cx.sees
      simp only [hg', hg, Option.map_some, left]
      refine congrArg some (threadsAt_outside (key := spillKey) (base := fun e => 1024 * e) (at_ := x.addrN) (n := n) (fun _ _ => rfl) inside
        (fun e he => ?_) _)
      have := bound (mem_each he)
      have := ha rfl
      unfold spillKey
      by_cases same : e.1 = thread
      · have := out e.1 (mem_each he) fun _ => same
        omega
      · omega
    · intro after
      refine ⟨fun _ => ⟨g', hg', ?_⟩, fun h => absurd h (by decide), fun h => absurd h (by decide)⟩
      rw [left]
      refine threadsAt_own (key := spillKey) (base := fun e => 1024 * e) (at_ := x.addrN) (fun _ _ => rfl) inside nodup he (fun d hd ne => ?_) _
      rw [threads] at hd
      have := bound hd
      have : x.addrN e + n ≤ 960 := bound (mem_each he)
      omega
  | sh =>
    have written := writeAlls_shared (y := y) (sync := sync) (x.writes one) (s := u) (b := x.b) (by rw [block?_congr hblocks, hyb]; exact hb)
    rw [hyb] at written
    have kept : Kept x.s v := by
      rw [← wrote, hy, hz]
      exact (kept_withScratch x mem l).trans ((kept_reachedAt ..).trans (kept_wrote ..))
    obtain ⟨g, hvg⟩ := Option.isSome_iff_exists.mp ((kept.stays x.g.gid).trans (by rw [hg]; rfl))
    obtain ⟨g0, hg0, e⟩ := kept.group x.g.gid g hvg
    have hgb : g.bid = x.b.bid := by
      rw [hg, Option.some.injEq] at hg0
      rw [hbid, hg0]
      exact e.bid
    have block := ret.block g _ hvg (hgb.symm ▸ written)
    rw [hgb] at block
    refine ⟨fun thread a _ out => ?_, fun e ws he apart => ?_⟩
    · unfold Cx.sees
      simp only [block, hb, Option.map_some]
      refine congrArg some (threadsAt_outside (base := fun _ => 0) (at_ := x.addrN) (n := n) (fun _ a => (Nat.zero_add a).symm) inside
        (fun e he => ?_) _)
      have := out e.1 (mem_each he) (fun h => absurd h (by decide))
      omega
    · intro after
      refine ⟨fun h => absurd h (by decide), fun _ => ⟨_, block, ?_⟩, fun h => absurd h (by decide)⟩
      refine threadsAt_own (key := fun _ => id) (base := fun _ => 0) (at_ := x.addrN) (fun _ a => (Nat.zero_add a).symm) inside nodup he
        (fun d hd ne => ?_) _
      rw [threads] at hd
      have := apart (by decide) d hd ne
      omega
  | sc =>
    have die : y.die = x.die := congrArg (fun g : Group => dieOf g.core) hyg
    have left : t.coreScratch x.g.core = threadsAt .sc (fun _ => scratchKey x.c x.die) (x.writes one) (x.s.coreScratch x.g.core) := by
      have written := writeAlls_scratch (y := y) (sync := sync) (s := u) inside
      rw [hyg, hyc, die, hscratch] at written
      exact (coreScratch_congr (still State.scratch) (still State.scw) _).trans written
    have key (a : Nat) : scratchKey x.c x.die a = x.die * 2 ^ 28 + x.c.scBase + a := rfl
    refine ⟨fun thread a _ out => ?_, fun e ws he apart => ?_⟩
    · unfold Cx.sees
      simp only [left]
      refine congrArg some (threadsAt_outside (base := fun _ => x.die * 2 ^ 28 + x.c.scBase) (at_ := x.addrN) (n := n) (fun _ => key) inside
        (fun e he => ?_) _)
      have := out e.1 (mem_each he) (fun h => absurd h (by decide))
      rw [key]
      omega
    · intro after
      refine ⟨fun h => absurd h (by decide), fun h => absurd h (by decide), fun _ => ?_⟩
      rw [left]
      refine threadsAt_own (base := fun _ => x.die * 2 ^ 28 + x.c.scBase) (at_ := x.addrN) (fun _ => key) inside nodup he (fun d hd ne => ?_) _
      rw [threads] at hd
      have := apart (fun h => absurd h (by decide)) d hd ne
      omega

end Sys2Proof.Machine
end


section
/-! What an instruction of results gives depends on what its sources read: a group's results are the same whatever the other members
of its gang have done before. -/

namespace Sys2Proof.Machine

open Sys2Proof

/-- Shares that depend on what sources read alone. -/
def ReadsAlike (one : Cx → Nat → Draw → Share × Draw) : Prop := ∀ {x y : Cx}, x.Alike y → one y = one x

theorem readsAlike_alu (compute : DWord → DWord → DWord → DWord × Causes) : ReadsAlike (aluShare compute) := fun h => by
  funext t dr
  simp only [aluShare, h.args, h.dstWidth]

theorem readsAlike_sel : ReadsAlike selShare := fun h => by
  funext t dr
  simp only [selShare, h.args, h.dstWidth, h.g, h.f, h.act]

theorem Cx.Alike.drawN {x y : Cx} (h : x.Alike y) (bits : BitVec 9) (t n : Nat) (dr : Draw) : y.drawN bits t n dr = x.drawN bits t n dr := by
  simp only [Cx.drawN, h.tables, h.g]

theorem readsAlike_cvtp (m : CvtMod FFmt FFmt) : ReadsAlike (cvtpShare m) := fun h => by
  funext t dr
  simp only [cvtpShare, h.args, h.run, h.f, h.spec]

theorem readsAlike_qnt (ty : Ty) (sr : Bool) : ReadsAlike (qntShare ty sr) := fun h => by
  funext t dr
  simp only [qntShare, h.run, h.drawN, h.f]

theorem readsAlike_dqnt (ty : Ty) (sat : Bool) : ReadsAlike (dqntShare ty sat) := fun h => by
  funext t dr
  simp only [dqntShare, h.run, h.f]

theorem readsAlike_fchk (ty : Ty) : ReadsAlike (fchkShare ty) := fun h => by
  funext t dr
  simp only [fchkShare, h.run, h.read, h.f, h.spec]

theorem readsAlike_ddraw : ReadsAlike ddrawShare := fun h => by
  funext t dr
  simp only [ddrawShare, h.drawN, h.f]

theorem integerRow_alike {i : Instr} {f : Fields} {one : Cx → Nat → Draw → Share × Draw} (h : integerRow i = some (f, one)) :
    ReadsAlike one := by
  unfold integerRow at h
  split at h <;> cases h
  case h_15 => exact readsAlike_sel
  all_goals exact readsAlike_alu _

theorem bitsRow_alike {i : Instr} {f : Fields} {one : Cx → Nat → Draw → Share × Draw} (h : bitsRow i = some (f, one)) :
    ReadsAlike one := by
  unfold bitsRow at h
  split at h <;> cases h
  all_goals exact readsAlike_alu _

theorem floatRow_alike {i : Instr} {f : Fields} {one : Cx → Nat → Draw → Share × Draw} (h : floatRow i = some (f, one)) :
    ReadsAlike one := by
  unfold floatRow at h
  split at h <;> cases h
  all_goals exact readsAlike_alu _

theorem convertRow_alike {i : Instr} {f : Fields} {one : Cx → Nat → Draw → Share × Draw} (h : convertRow i = some (f, one)) :
    ReadsAlike one := by
  unfold convertRow at h
  split at h <;> cases h
  case h_6 => exact readsAlike_cvtp _
  case h_7 => exact readsAlike_qnt _ _
  case h_8 => exact readsAlike_dqnt _ _
  case h_9 => exact readsAlike_fchk _
  all_goals exact readsAlike_alu _

theorem maskRow_alike {i : Instr} {f : Fields} {one : Cx → Nat → Draw → Share × Draw} (h : maskRow i = some (f, one)) :
    ReadsAlike one := by
  unfold maskRow at h
  split at h <;> cases h
  case h_7 => exact readsAlike_ddraw
  all_goals exact readsAlike_alu _

theorem sharesOf_congr (x y : Cx) {one one' : Nat → Draw → Share × Draw} (h : one = one') (l : List Nat) (dr : Draw) :
    sharesOf y one l dr = sharesOf x one' l dr := by
  subst h
  induction l generalizing dr with
  | nil => rfl
  | cons t ts ih => simp only [sharesOf, ih]

theorem lift_alike {row : Instr → Option (Fields × (Cx → Nat → Draw → Share × Draw))}
    (hrow : ∀ {i f one}, row i = some (f, one) → ReadsAlike one) {i : Instr} {f : Fields} {sh : Cx → List Share × Draw}
    (h : lift row i = some (f, sh)) {x y : Cx} (k : x.Alike y) : sh y = sh x := by
  unfold lift at h
  obtain ⟨⟨f', one⟩, h1, h2⟩ := Option.map_eq_some_iff.mp h
  cases h2
  show sharesOf y (one y) y.each Draw.start = sharesOf x (one x) x.each Draw.start
  rw [k.each]
  exact sharesOf_congr x y (hrow h1 k) _ _

theorem quietRow_alike {i : Instr} {f : Fields} {sh : Cx → List Share} (h : quietRow i = some (f, sh)) {x y : Cx} (k : x.Alike y) :
    sh y = sh x := by
  unfold quietRow at h
  split at h
  · split at h
    · cases h
    · cases h
      simp only [k.each, k.dstWidth, k.special]
  · cases h
    simp only [k.threads, k.g, k.f, k.spec, k.act, k.getB]
  · cases h

theorem Cx.Alike.valuesOf {x y : Cx} (h : x.Alike y) (l : List Nat) (dr : Draw) :
    Machine.valuesOf y l dr = Machine.valuesOf x l dr := by
  induction l generalizing dr with
  | nil => rfl
  | cons t ts ih => simp only [Machine.valuesOf, h.read, h.spec, h.f, ih]

theorem crossRow_alike {i : Instr} {f : Fields} {sh : Cx → List (Nat × DWord) → List Share} (h : crossRow i = some (f, sh)) {x y : Cx}
    (k : x.Alike y) : sh y = sh x := by
  unfold crossRow at h
  split at h
  · split at h
    · cases h
    · cases h
      simp only [k.threads]
  · cases h
    simp only [k.threads, k.dstWidth, k.getB]
  · cases h
    rfl
  · cases h

theorem exchangeRow_alike {i : Instr} {f : Fields} {sh : Cx → List Share × Draw} (h : exchangeRow i = some (f, sh)) {x y : Cx}
    (k : x.Alike y) : sh y = sh x := by
  unfold exchangeRow at h
  split at h
  · next hq => cases h; simp only [quietRow_alike hq k]
  · next hc => cases h; simp only [crossRow_alike hc k, k.threads, k.valuesOf]
  · cases h

theorem resultRow_alike {i : Instr} {f : Fields} {sh : Cx → List Share × Draw} (h : resultRow i = some (f, sh)) {x y : Cx}
    (k : x.Alike y) : sh y = sh x := by
  unfold resultRow at h
  simp only [Option.or_eq_some_iff] at h
  rcases h with ((h | ⟨_, h⟩) | ⟨_, h | ⟨_, h⟩⟩) | ⟨_, h | ⟨_, h⟩⟩
  · exact lift_alike integerRow_alike h k
  · exact lift_alike bitsRow_alike h k
  · exact lift_alike floatRow_alike h k
  · exact lift_alike convertRow_alike h k
  · exact lift_alike maskRow_alike h k
  · exact exchangeRow_alike h k

/-! The opcodes of instructions of results -/

/-- An opcode below those of spawning, memory and the matrix engine, and not that of SHFL.g: no barrier, no rendezvous, no request to
memory that sampling counts. -/
def Plain (f : Fields) : Prop := f.opc.toNat < 0xC0 ∧ f.opc ≠ 0xB7

theorem lift_plain {row : Instr → Option (Fields × (Cx → Nat → Draw → Share × Draw))}
    (hrow : ∀ {i f one}, row i = some (f, one) → Plain f) {i : Instr} {f : Fields} {sh : Cx → List Share × Draw}
    (h : lift row i = some (f, sh)) : Plain f := by
  unfold lift at h
  obtain ⟨⟨f', one⟩, h1, h2⟩ := Option.map_eq_some_iff.mp h
  cases h2
  exact hrow h1

theorem plain_opc {w : W} {o : BitVec 8} {m : BitVec 10} (h : o.toNat < 0xC0 ∧ o ≠ 0xB7) : Plain (w.fields o m) := h

theorem integerRow_plain {i : Instr} {f : Fields} {one : Cx → Nat → Draw → Share × Draw} (h : integerRow i = some (f, one)) :
    Plain f := by
  unfold integerRow at h
  split at h <;> cases h
  all_goals exact plain_opc (by decide)

theorem bitsRow_plain {i : Instr} {f : Fields} {one : Cx → Nat → Draw → Share × Draw} (h : bitsRow i = some (f, one)) : Plain f := by
  unfold bitsRow at h
  split at h <;> cases h
  all_goals exact plain_opc (by decide)

theorem floatRow_plain {i : Instr} {f : Fields} {one : Cx → Nat → Draw → Share × Draw} (h : floatRow i = some (f, one)) : Plain f := by
  unfold floatRow at h
  split at h <;> cases h
  all_goals exact plain_opc (by decide)

theorem convertRow_plain {i : Instr} {f : Fields} {one : Cx → Nat → Draw → Share × Draw} (h : convertRow i = some (f, one)) :
    Plain f := by
  unfold convertRow at h
  split at h <;> cases h
  all_goals exact plain_opc (by decide)

theorem maskRow_plain {i : Instr} {f : Fields} {one : Cx → Nat → Draw → Share × Draw} (h : maskRow i = some (f, one)) : Plain f := by
  unfold maskRow at h
  split at h <;> cases h
  all_goals exact plain_opc (by decide)

theorem exchangeRow_plain {i : Instr} {f : Fields} {sh : Cx → List Share × Draw} (h : exchangeRow i = some (f, sh)) : Plain f := by
  unfold exchangeRow at h
  split at h
  · next hq =>
    cases h
    unfold quietRow at hq
    split at hq
    · split at hq <;> cases hq
      exact plain_opc (by decide)
    · cases hq; exact plain_opc (by decide)
    · cases hq
  · next hc =>
    cases h
    unfold crossRow at hc
    split at hc
    · split at hc <;> cases hc
      exact plain_opc (by decide)
    · cases hc; exact plain_opc (by decide)
    · cases hc; exact plain_opc (by decide)
    · cases hc
  · cases h

theorem resultRow_plain {i : Instr} {f : Fields} {sh : Cx → List Share × Draw} (h : resultRow i = some (f, sh)) : Plain f := by
  unfold resultRow at h
  simp only [Option.or_eq_some_iff] at h
  rcases h with ((h | ⟨_, h⟩) | ⟨_, h | ⟨_, h⟩⟩) | ⟨_, h | ⟨_, h⟩⟩
  · exact lift_plain integerRow_plain h
  · exact lift_plain bitsRow_plain h
  · exact lift_plain floatRow_plain h
  · exact lift_plain convertRow_plain h
  · exact lift_plain maskRow_plain h
  · exact exchangeRow_plain h

theorem sampledSpace_plain {f : Fields} (h : Plain f) : sampledSpace f = none := by
  obtain ⟨h, -⟩ := h
  unfold sampledSpace
  simp only
  rw [if_neg (by omega), if_neg (by omega), if_neg (by omega)]
  rfl

theorem waitKind_plain {f : Fields} (h : Plain f) (b : Bool) : waitKind f b = 2 := by
  obtain ⟨h1, h2⟩ := h
  have ne : ∀ o : BitVec 8, 0xC0 ≤ o.toNat → f.opc ≠ o := fun o ho e => by rw [e] at h1; omega
  unfold waitKind
  rw [if_neg (ne 0xD4 (by decide)), if_neg (fun e => e.1.elim (ne 0xF0 (by decide)) h2)]

end Sys2Proof.Machine
end


section
/-! Gangs (R135, R137): what a member's attempt keeps of the others', the members' attempts one after another, and the end of their turn. -/

namespace Sys2Proof.Machine

open Sys2Proof

/-! What a member's attempt keeps -/

/-- A block without its count of retirements, which no attempt reads. -/
def Block.uncounted (b : Block) : Block := { b with retcnt := 0 }

/-- A state that other groups' attempts cannot tell from s: it differs in groups, kept on their cores, in counts, in records, and in
results that came to be in flight. -/
structure Along (s u : State) : Prop where
  blocks : ∀ d, (u.block? d).map Block.uncounted = (s.block? d).map Block.uncounted
  ctl : ∀ n, (u.ctx? n).map (·.ctl) = (s.ctx? n).map (·.ctl)
  cores : ∀ h, (u.group? h).map (·.core) = (s.group? h).map (·.core)
  dev : u.dev = s.dev
  cycle : u.cycle = s.cycle
  grids : u.grids = s.grids
  drains : u.drains = s.drains
  churn : u.churn = s.churn
  weights : u.weights = s.weights
  results : ∃ l, u.results = s.results ++ l

theorem Along.refl (s : State) : Along s s :=
  ⟨fun _ => rfl, fun _ => rfl, fun _ => rfl, rfl, rfl, rfl, rfl, rfl, rfl, [], (List.append_nil _).symm⟩

theorem Along.trans {s t u : State} (h : Along s t) (k : Along t u) : Along s u := by
  obtain ⟨l1, r1⟩ := h.results
  obtain ⟨l2, r2⟩ := k.results
  exact ⟨fun d => (k.blocks d).trans (h.blocks d), fun n => (k.ctl n).trans (h.ctl n), fun n => (k.cores n).trans (h.cores n),
    k.dev.trans h.dev, k.cycle.trans h.cycle, k.grids.trans h.grids, k.drains.trans h.drains, k.churn.trans h.churn,
    k.weights.trans h.weights, l1 ++ l2, by rw [r2, r1, List.append_assoc]⟩

/-- A state with the same contexts, and the same in all that is not groups, blocks or books. -/
theorem along_still {s u : State} (h : u.still = s.still)
    (hb : ∀ d, (u.block? d).map Block.uncounted = (s.block? d).map Block.uncounted)
    (hc : ∀ n, (u.group? n).map (·.core) = (s.group? n).map (·.core)) : Along s u :=
  have same : ∀ {α : Type} (p : State → α), p u.still = p s.still := fun p => congrArg p h
  ⟨hb, fun n => congrArg (·.map (·.ctl)) (ctx?_congr (same State.ctxs) n), hc, same State.dev, same State.cycle, same State.grids,
    same State.drains, same State.churn, same State.weights, [], (same State.results).trans (List.append_nil _).symm⟩

/-- Along s, with every group but m as in s. -/
structure Aside (m : Nat) (s u : State) : Prop extends Along s u where
  others : ∀ h, h ≠ m → u.group? h = s.group? h

theorem Aside.refl (m : Nat) (s : State) : Aside m s s := ⟨.refl s, fun _ _ => rfl⟩
theorem Aside.trans {m : Nat} {s t u : State} (h : Aside m s t) (k : Aside m t u) : Aside m s u :=
  ⟨h.toAlong.trans k.toAlong, fun n hn => (k.others n hn).trans (h.others n hn)⟩

/-- Updates of fields that attempts do not read. -/
theorem Aside.of_eq {m : Nat} {s u : State} (hg : u.groups = s.groups) (hb : u.blocks = s.blocks) (hc : u.ctxs = s.ctxs)
    (h1 : u.dev = s.dev) (h2 : u.cycle = s.cycle) (h3 : u.grids = s.grids) (h4 : u.drains = s.drains) (h5 : u.churn = s.churn)
    (h6 : u.weights = s.weights) (h7 : u.results = s.results) : Aside m s u :=
  ⟨⟨fun d => by rw [block?_congr hb], fun n => by rw [ctx?_congr hc], fun n => by rw [group?_congr hg], h1, h2, h3, h4, h5, h6, [],
    h7.trans (List.append_nil _).symm⟩, fun n _ => group?_congr hg n⟩

theorem aside_modGroup {m : Nat} {s : State} {f : Group → Group} (hid : ∀ g, (f g).gid = g.gid) (hc : ∀ g, (f g).core = g.core) :
    Aside m s (s.modGroup m f) := by
  refine ⟨along_still (by unfold State.modGroup; split <;> rfl) (fun d => by rw [block?_congr (modGroup_blocks ..)]) fun n => ?_,
    fun n hn => group?_modGroup_ne hid hn⟩
  rw [group?_modGroup_any hid]
  split
  · cases s.group? n with
    | none => rfl
    | some g => exact congrArg some (hc g)
  · rfl

theorem aside_setGroup {s : State} {g g' : Group} (h0 : s.group? g.gid = some g) (hid : g'.gid = g.gid) (hc : g'.core = g.core) :
    Aside g.gid s (s.setGroup g') := by
  refine ⟨along_still rfl (fun _ => rfl) fun n => ?_, fun n hn => group?_setGroup_ne (by rw [hid]; exact hn.symm)⟩
  by_cases hn : n = g.gid
  · subst hn; rw [group?_setGroup h0 hid, h0]; exact congrArg some hc
  · rw [group?_setGroup_ne (by rw [hid]; exact Ne.symm hn)]

theorem aside_count (m : Nat) (s : State) (core event ctx n : Nat) : Aside m s (s.count core event ctx n) :=
  .of_eq rfl rfl rfl rfl rfl rfl rfl rfl rfl rfl

theorem aside_modCtx (m : Nat) (s : State) (n : Nat) {f : Ctx → Ctx} (hno : ∀ c, (f c).no = c.no) (hc : ∀ c, (f c).ctl = c.ctl) :
    Aside m s (s.modCtx n f) := by
  refine ⟨⟨fun d => by rw [block?_congr (modCtx_blocks ..)], fun k => ?_, fun k => by rw [group?_congr (modCtx_groups ..)], by simp,
    by simp, by simp, by simp, by simp, by simp, [], by simp⟩, fun k _ => group?_congr (modCtx_groups ..) k⟩
  by_cases hk : k = n
  · subst hk
    rw [ctx?_modCtx hno]
    cases s.ctx? k with
    | none => rfl
    | some c => exact congrArg some (hc c)
  · rw [ctx?_modCtx_ne hno hk]

theorem aside_log (m : Nat) (s : State) (ctx cause fpc : Nat) (lanes : Mask) (pc : Nat) (name : Name) (group detail : Nat) :
    Aside m s (s.log ctx cause fpc lanes pc name group detail) := by
  unfold State.log
  dsimp only
  exact aside_modCtx m s _ (fun _ => by split <;> rfl) (fun _ => by split <;> rfl)

theorem aside_traceEvent (m : Nat) (s : State) (ctx event core slice other : Nat) (name : Name) (group pc v : Nat) :
    Aside m s (s.traceEvent ctx event core slice other name group pc v) := by
  unfold State.traceEvent
  split
  · split
    · exact .of_eq rfl rfl rfl rfl rfl rfl rfl rfl rfl rfl
    · exact .refl m s
  · exact .refl m s

theorem aside_halt (m : Nat) (s : State) (die : Nat) (c : BitVec 8) (u : StopUnit) (a : Nat) : Aside m s (s.halt die c u a) := by
  unfold State.halt
  split
  · split
    · exact .refl m s
    · exact .of_eq rfl rfl rfl rfl rfl rfl rfl rfl rfl rfl
  · exact .refl m s

theorem enter_core (g : Group) (h : VA) (r : TrapRec) (q : List TrapRec) : (g.loseTag.enter h r q).core = g.core := by
  rw [enter_eq]
  show (g.loseTag.switchBank).core = g.core
  unfold Group.loseTag
  split
  · split <;> rfl
  · rfl

theorem aside_takeTrap {s : State} {g g' : Group} (h0 : s.group? g.gid = some g) (hs : g.Same g') (hc : g'.core = g.core) (r : TrapRec) :
    Aside g.gid s (s.takeTrap g' r) := by
  unfold State.takeTrap
  split
  · exact aside_halt ..
  · unfold State.deliver
    split
    · exact .refl _ s
    · split
      · exact .refl _ s
      · split
        · exact aside_halt ..
        · exact (aside_setGroup h0 ((hs.trans (loseTag_same g')).trans (enter_same ..)).gid ((enter_core ..).trans hc)).trans
            ((aside_count ..).trans (aside_traceEvent ..))

/-- A retirement, on the groups. -/
theorem retire_group? (u : State) (m : Nat) (f : Fields) (pc : Option VA) (n : Nat) :
    (u.retire m f pc).group? n = if n = m then (u.group? m).map fun g => g.retired f (u.weightOf f) pc else u.group? n := by
  cases hg : u.group? m with
  | none =>
    have none : u.retire m f pc = u := by simp only [State.retire, hg]
    rw [none]
    by_cases hn : n = m
    · rw [if_pos hn, hn, hg]; rfl
    · rw [if_neg hn]
  | some g =>
    have groups : (u.retire m f pc).groups = (u.setGroup (g.retired f (u.weightOf f) pc)).groups := by
      simp only [State.retire, hg]
      split
      · rw [count_groups, modBlock_groups]
      · rw [modBlock_groups]
    have hm := group?_gid hg
    rw [group?_congr groups]
    by_cases hn : n = m
    · rw [if_pos hn, hn]; exact group?_setGroup hg hm
    · rw [if_neg hn]; exact group?_setGroup_ne (by rw [retired_gid, hm]; exact Ne.symm hn)

theorem aside_retire (u : State) (m : Nat) (f : Fields) (pc : Option VA) : Aside m u (u.retire m f pc) := by
  have hr := retires_retire u m f pc
  refine ⟨along_still hr.still (fun d => ?_) fun n => ?_, fun n hn => by rw [retire_group?, if_neg hn]⟩
  · cases hg : u.group? m with
    | none => simp only [State.retire, hg]
    | some g =>
      by_cases hd : d = g.bid
      · subst hd
        cases hb : u.block? g.bid with
        | none =>
          have gone : (u.retire m f pc).block? g.bid = none := by
            have hx : ((u.setGroup (g.retired f (u.weightOf f) pc)).modBlock g.bid
                fun b => { b with retcnt := b.retcnt + 1 }).block? g.bid = none := by
              rw [block?_modBlock (by intro; rfl), block?_congr (setGroup_blocks u _), hb]; rfl
            simp only [State.retire, hg, hx]
          rw [gone]
        | some b => rw [hr.block g b hg hb]; rfl
      · rw [hr.blocks g d hg hd]
  · rw [retire_group?]
    split
    · next hn => rw [hn]; cases u.group? m <;> rfl
    · rfl

theorem aside_putResult (u : State) (x : Cx) (kind : ResultKind) (ws : List RegW) (slots : List (Nat × DWord)) (words : Nat)
    (q : List (Nat × Word)) (c : List (Nat × Causes)) (tagged : Bool) :
    Aside x.g.gid u (u.putResult x kind ws slots words q c tagged) := by
  have mark : ∀ g : Group, (g.markEmpty ws).gid = g.gid ∧ (g.markEmpty ws).core = g.core := fun g => by
    unfold Group.markEmpty
    induction ws generalizing g with
    | nil => exact ⟨rfl, rfl⟩
    | cons w ws ih =>
      rw [List.foldl_cons]
      obtain ⟨h1, h2⟩ := ih (if w.vec then g.vmark w.reg w.thr true else g.smark w.reg true)
      refine ⟨h1.trans ?_, h2.trans ?_⟩ <;> split <;> rfl
  have h1 : Aside x.g.gid u u.fresh.2 := .of_eq rfl rfl rfl rfl rfl rfl rfl rfl rfl rfl
  have h2 := aside_modGroup (m := x.g.gid) (s := u.fresh.2) (f := fun g => g.markEmpty ws) (fun g => (mark g).1) (fun g => (mark g).2)
  refine (h1.trans h2).trans ⟨⟨fun _ => rfl, fun _ => rfl, fun _ => rfl, rfl, rfl, rfl, rfl, rfl, rfl, ?_⟩, fun _ _ => rfl⟩
  exact ⟨_, rfl⟩

theorem aside_logFp (m : Nat) (u : State) (g : Group) (ctx : Nat) (c : Causes) (lanes : Mask) (pc : VA) :
    Aside m u (u.logFp g ctx c lanes pc) := by
  unfold State.logFp
  split
  · exact .refl m u
  · exact aside_log ..

theorem aside_raiseFp (u : State) (x : Cx) (per : List (Nat × Causes)) : Aside x.g.gid u (u.raiseFp x per) := by
  unfold State.raiseFp
  dsimp only
  have h1 : Aside x.g.gid u (if per.foldl (fun (m : Causes) e => m ||| e.2) 0 = 0 then u else u.modGroup x.g.gid fun g =>
      { g with fpstat := g.fpstat ||| (per.foldl (fun (m : Causes) e => m ||| e.2) 0).zeroExtend 32 }) := by
    split
    · exact .refl _ u
    · exact aside_modGroup (fun _ => rfl) (fun _ => rfl)
  exact h1.trans (aside_logFp ..)

theorem aside_commitDraws (u : State) (x : Cx) (dr : Draw) : Aside x.g.gid u (u.commitDraws x dr) := by
  unfold State.commitDraws
  split
  · exact .refl _ u
  · exact (aside_modGroup (fun g => by rw [commit_only]) (fun g => by rw [commit_only])).trans (aside_count ..)

/-! What a member's attempt reads -/

/-- The context of an attempt in a state that it cannot tell from s. -/
theorem cx_along {s u : State} {m : Nat} {f : Fields} {x : Cx} (h : Along s u) (hg : u.group? m = s.group? m) (hx : s.cx? m f = some x) :
    ∃ y, u.cx? m f = some y ∧ y.s = u ∧ x.Alike y ∧ y.b.uncounted = x.b.uncounted ∧ y.c.ctl = x.c.ctl := by
  obtain ⟨hs, h1, h2, h3, hf, hsp, hact⟩ := cx?_spec hx
  obtain ⟨b, hb, hbu⟩ : ∃ b, u.block? x.g.bid = some b ∧ b.uncounted = x.b.uncounted := by
    have := h.blocks x.g.bid
    rw [h2] at this
    exact Option.map_eq_some_iff.mp this
  have same : ∀ {α : Type} (p : Block → α), p b.uncounted = p x.b.uncounted := fun p => congrArg p hbu
  have hctx : b.ctx = x.b.ctx := same Block.ctx
  obtain ⟨c, hc, hcc⟩ : ∃ c, u.ctx? b.ctx = some c ∧ c.ctl = x.c.ctl := by
    have := h.ctl x.b.ctx
    rw [h3] at this
    rw [hctx]
    exact Option.map_eq_some_iff.mp this
  refine ⟨{ s := u, g := x.g, b := b, c := c, f := f, spec := specOf f,
            act := if f.s then x.g.amask else x.g.amask &&& guardMask x.g f }, ?_, rfl, ?_, hbu, hcc⟩
  · unfold State.cx?
    simp only [hg, h1, hb, hc]
  · exact ⟨rfl, hf.symm, hsp.symm, hact.symm, congrArg (·.fpctl) hcc, same Block.sh, same Block.idx, same Block.grid,
      hctx, same Block.nthr, hs ▸ h.dev, hs ▸ h.cycle, hs ▸ h.grids⟩

namespace Cx.Alike
variable {x y : Cx} (h : x.Alike y)
include h

theorem skipped : y.skipped = x.skipped := by unfold Cx.skipped; rw [h.f, h.g]
theorem sources : y.sources = x.sources := by unfold Cx.sources; rw [h.f, h.spec]
theorem descs : y.descs = x.descs := by unfold Cx.descs; rw [h.sources, h.g]
theorem slotsUsed : y.slotsUsed = x.slotsUsed := by unfold Cx.slotsUsed Cx.opc; rw [h.descs, h.f]
theorem requests : y.requests = x.requests := by unfold Cx.requests Cx.opc; rw [h.f, h.act]

theorem emptyField (hb : y.b.uncounted = x.b.uncounted) (cls : Cls) (bits : BitVec 9) : y.emptyField cls bits = x.emptyField cls bits := by
  have ht : ∀ n, y.b.tileEmpty n = x.b.tileEmpty n := fun n => by
    have tiles : y.b.uncounted.tiles = x.b.uncounted.tiles := congrArg Block.tiles hb
    unfold Block.tileEmpty
    rw [show y.b.tiles = x.b.tiles from tiles]
  unfold Cx.emptyField
  simp only [h.g, h.act, ht]

theorem emptyTrap (hb : y.b.uncounted = x.b.uncounted) : y.emptyTrap = x.emptyTrap := by
  unfold Cx.emptyTrap
  simp only [h.sources, h.emptyField hb]

theorem tablesWait (hd : y.s.drains = x.s.drains) : y.tablesWait = x.tablesWait := by
  unfold Cx.tablesWait Cx.drained State.drainMeets
  simp only [h.act, h.descs, h.g, hd]

end Cx.Alike

theorem outstanding_along {s u : State} (h : Along s u) (hr : u.results = s.results) (core : Nat) : u.outstanding core = s.outstanding core := by
  have hown : ∀ n, ((u.group? n).any fun g => g.core == core) = ((s.group? n).any fun g => g.core == core) := fun n => by
    have := congrArg (Option.any (· == core)) (h.cores n)
    simpa only [Option.any_map] using this
  unfold State.outstanding
  simp only [hr, hown]

/-- What is held back is held back beside other members' attempts; and as long as no result has come to be in flight, nothing else is. -/
theorem heldBack_along {s u : State} {x y : Cx} (h : Along s u) (hr : u.results = s.results) (hx : x.s = s) (hy : y.s = u) (k : x.Alike y)
    (hb : y.b.uncounted = x.b.uncounted) : y.heldBack = x.heldBack := by
  unfold Cx.heldBack Cx.requestsWait slotLocked
  simp only [k.sources, k.emptyField hb, k.spec, k.f, k.slotsUsed, k.act, k.g, k.requests, hy, hx, hr, outstanding_along h hr,
    k.tablesWait (by rw [hy, hx, h.drains])]

theorem outstanding_grows {s u : State} (h : Along s u) (core : Nat) : s.outstanding core ≤ u.outstanding core := by
  obtain ⟨l, hl⟩ := h.results
  have hown : ∀ n, ((u.group? n).any fun g => g.core == core) = ((s.group? n).any fun g => g.core == core) := fun n => by
    have := congrArg (Option.any (· == core)) (h.cores n)
    simpa only [Option.any_map] using this
  unfold State.outstanding
  simp only [hl, hown, List.filter_append, List.map_append, List.sum_append]
  omega

theorem heldBack_grows {s u : State} {x y : Cx} (h : Along s u) (hx : x.s = s) (hy : y.s = u) (k : x.Alike y)
    (hb : y.b.uncounted = x.b.uncounted) (held : x.heldBack = true) : y.heldBack = true := by
  obtain ⟨l, hl⟩ := h.results
  have more := outstanding_grows h x.g.core
  have locked : ∀ sl, slotLocked s x.g.gid sl x.act = true → slotLocked u x.g.gid sl x.act = true := fun sl hs => by
    unfold slotLocked at hs ⊢
    rw [hl, List.any_append, hs, Bool.true_or]
  have waits : x.requestsWait = true → y.requestsWait = true := fun hw => by
    unfold Cx.requestsWait at hw ⊢
    rw [k.requests, k.g, hy]
    rw [hx] at hw
    simp only [Bool.and_eq_true, decide_eq_true_eq] at hw ⊢
    exact ⟨hw.1, by omega⟩
  have slots : (x.slotsUsed.any fun sl => slotLocked x.s x.g.gid sl x.act) = true →
      (y.slotsUsed.any fun sl => slotLocked y.s y.g.gid sl y.act) = true := fun hw => by
    rw [k.slotsUsed, k.g, k.act, hy]
    rw [hx] at hw
    obtain ⟨sl, h1, h2⟩ := List.any_eq_true.mp hw
    exact List.any_eq_true.mpr ⟨sl, h1, locked sl h2⟩
  unfold Cx.heldBack at held ⊢
  simp only [k.sources, k.emptyField hb, k.spec, k.f, k.tablesWait (by rw [hy, hx, h.drains]), Bool.or_eq_true] at held ⊢
  rcases held with (((held | held) | held) | held) | held
  · exact .inl (.inl (.inl (.inl held)))
  · exact .inl (.inl (.inl (.inr held)))
  · exact .inl (.inl (.inr (slots held)))
  · exact .inl (.inr held)
  · exact .inr (waits held)

/-- A member that acts acts still. -/
theorem acts_along {s u : State} {x y : Cx} (h : Along s u) (hr : u.results = s.results) (hx : x.s = s) (hy : y.s = u) (k : x.Alike y)
    (hb : y.b.uncounted = x.b.uncounted) (ha : x.Acts) : y.Acts :=
  ⟨k.skipped.trans ha.guard, (congrArg Prod.fst (k.emptyTrap hb)).trans ha.full, (heldBack_along h hr hx hy k hb).trans ha.free⟩

/-! The members' attempts one after another -/

/-- An invariant of the members' attempts, each on the state that the earlier ones leave, and what it says of their fates. -/
theorem settleAll_induct {f : Fields} {body : State → Nat → Fate} {R : List Nat → State → Prop} {F : Nat → Fate → Prop} {ms : List Nat}
    {s : State} (init : R [] s) (step : ∀ done m rest u, ms = done ++ m :: rest → R done u →
      R (done ++ [m]) (u.settle m f (body u m)) ∧ F m (body u m)) :
    R ms (s.settleAll f body ms) ∧ ∀ e ∈ s.fates f body ms, F e.1 e.2 := by
  suffices key : ∀ rest done u, ms = done ++ rest → R done u →
      R ms (u.settleAll f body rest) ∧ ∀ e ∈ u.fates f body rest, F e.1 e.2 from key ms [] s rfl init
  intro rest
  induction rest with
  | nil =>
    intro done u hm hu
    rw [List.append_nil] at hm
    exact ⟨hm ▸ hu, fun e he => absurd he (List.not_mem_nil)⟩
  | cons m rest ih =>
    intro done u hm hu
    obtain ⟨h1, h2⟩ := step done m rest u hm hu
    obtain ⟨h3, h4⟩ := ih (done ++ [m]) _ (by rw [hm, List.append_assoc]; rfl) h1
    refine ⟨h3, fun e he => ?_⟩
    rcases List.mem_cons.mp he with rfl | he
    · exact h2
    · exact h4 e he

theorem fates_members (f : Fields) (body : State → Nat → Fate) (ms : List Nat) (s : State) : (s.fates f body ms).map (·.1) = ms := by
  induction ms generalizing s with
  | nil => rfl
  | cons m rest ih => exact congrArg (m :: ·) (ih _)

/-- A gang none of whose members is held back or stays in issue: each one's fate is its own. -/
theorem gangIssue_each {f : Fields} {body : State → Nat → Fate} {ms : List Nat} {s : State}
    (h : ∀ e ∈ s.fates f body ms, e.2.isHold = false ∧ e.2.isStay = false) : s.gangIssue f body ms = s.settleAll f body ms := by
  have hh : ((s.fates f body ms).any fun x => x.2.isHold) = false := List.any_eq_false.mpr fun e he => by rw [(h e he).1]; decide
  have hs : ((s.fates f body ms).any fun x => x.2.isStay) = false := List.any_eq_false.mpr fun e he => by rw [(h e he).2]; decide
  unfold State.gangIssue State.gangWay
  simp only [hh, hs, Bool.false_and, Bool.false_eq_true, if_false]

theorem gangIssue_hold {f : Fields} {body : State → Nat → Fate} {ms : List Nat} {s : State}
    (h : ∃ e ∈ s.fates f body ms, e.2.isHold = true) : s.gangIssue f body ms = ms.foldl (fun s m => s.settle m f .hold) s := by
  have hh : ((s.fates f body ms).any fun x => x.2.isHold) = true := List.any_eq_true.mpr h
  unfold State.gangIssue State.gangWay
  simp only [hh, if_true]

/-- Members of a fused quartet held back. -/
theorem held_members {f : Fields} {ms : List Nat} (hk : waitKind f true = 2) (hn : ms.Nodup) :
    ∀ s : State, (∀ m ∈ ms, ∀ g, s.group? m = some g → s.fusedGroup g = true) →
      GroupsOnly s (ms.foldl (fun s m => s.settle m f .hold) s) ∧
      ∀ n, (ms.foldl (fun s m => s.settle m f .hold) s).group? n = if n ∈ ms then (s.group? n).map (·.await 2) else s.group? n := by
  induction ms with
  | nil => exact fun s _ => ⟨.refl s, fun n => by simp⟩
  | cons m rest ih =>
    intro s hf
    obtain ⟨hm, hrest⟩ := List.nodup_cons.mp hn
    have hid : ∀ g : Group, (g.await (waitKind f (s.fusedGroup g))).gid = g.gid := fun g => (await_same ..).gid
    have first : ∀ n, (s.settle m f .hold).group? n = if n = m then (s.group? n).map (·.await 2) else s.group? n := fun n => by
      show (s.modGroup m fun g => g.await (waitKind f (s.fusedGroup g))).group? n = _
      rw [group?_modGroup_any hid]
      split
      · next hnm =>
        subst hnm
        cases hg : s.group? n with
        | none => rfl
        | some g =>
          rw [Option.map_some, Option.map_some, hf n (List.mem_cons_self ..) g hg, hk]
      · rfl
    have hgo : GroupsOnly s (s.settle m f .hold) := groupsOnly_modGroup ..
    obtain ⟨h1, h2⟩ := ih hrest (s.settle m f .hold) fun k hk' g hg => by
      rw [first, if_neg (fun e : k = m => hm (e ▸ hk'))] at hg
      exact (fusedGroup_same hgo.blocks rfl rfl rfl).trans (hf k (List.mem_cons_of_mem _ hk') g hg)
    refine ⟨hgo.trans h1, fun n => ?_⟩
    rw [List.foldl_cons, h2, first]
    by_cases hnm : n = m
    · subst hnm
      rw [if_neg hm, if_pos rfl, if_pos (List.mem_cons_self ..)]
    · rw [if_neg hnm]
      simp only [List.mem_cons, hnm, false_or]

/-! The end of a gang's turn -/

/-- t is u but for the books that a turn keeps, reserve positions, and which quartets of a block are fused. -/
structure Rebooked (bid : Nat) (u t : State) : Prop where
  still : t.still = u.still
  groups : ∀ h, (t.group? h).map Group.bare = (u.group? h).map Group.bare
  block : ∀ b, u.block? bid = some b → ∃ b', t.block? bid = some b' ∧ { b' with fused := b.fused } = b
  blocks : ∀ d, d ≠ bid → t.block? d = u.block? d

theorem Booked.rebooked {bid : Nat} {u v t : State} (h : Booked u v) (k : Rebooked bid v t) : Rebooked bid u t :=
  ⟨k.still.trans h.still, fun n => (k.groups n).trans (h.groups n), fun b hb => k.block b ((block?_congr h.blocks _).trans hb),
    fun d hd => (k.blocks d hd).trans (block?_congr h.blocks d)⟩

theorem Booked.to_rebooked {bid : Nat} {u t : State} (h : Booked u t) : Rebooked bid u t :=
  ⟨h.still, h.groups, fun b hb => ⟨b, (block?_congr h.blocks _).trans hb, rfl⟩, fun d _ => block?_congr h.blocks d⟩

theorem split_rebooked (u : State) (bid j : Nat) : Rebooked bid u (u.split bid j) := by
  have hid : ∀ b : Block, (b.setFused j false).bid = b.bid := fun _ => rfl
  refine ⟨by unfold State.split State.modBlock; split <;> rfl, fun h => by rw [State.split, group?_congr (modBlock_groups ..)],
    fun b hb => ?_, fun d hd => block?_modBlock_ne hid hd⟩
  exact ⟨b.setFused j false, by rw [State.split, block?_modBlock hid, hb]; rfl, rfl⟩

theorem splitCheck_rebooked (u : State) (bid j : Nat) : Rebooked bid u (u.splitCheck bid j) := by
  unfold State.splitCheck
  dsimp only
  split
  · exact (Booked.refl u).to_rebooked
  · exact split_rebooked ..

/-- Books kept after a quartet was looked at. -/
theorem Rebooked.booked {bid : Nat} {u v t : State} (h : Rebooked bid u v) (k : Booked v t) : Rebooked bid u t :=
  ⟨k.still.trans h.still, fun n => (k.groups n).trans (h.groups n), fun b hb => by
    obtain ⟨b', h1, h2⟩ := h.block b hb
    exact ⟨b', (block?_congr k.blocks _).trans h1, h2⟩, fun d hd => (block?_congr k.blocks d).trans (h.blocks d hd)⟩

theorem endTurn_rebooked {bid : Nat} (u : State) {ms : List Nat} (r : Bool) (hp : ∀ m ∈ ms, ∀ g, u.group? m = some g → g.bid = bid) :
    Rebooked bid u (u.endTurn ms r) := by
  unfold State.endTurn
  cases hg : ms.findSome? u.group? with
  | none => exact (Booked.refl u).to_rebooked
  | some g =>
    obtain ⟨m, hm, hmg⟩ := List.exists_of_findSome?_eq_some hg
    have hbid := hp m hm g hmg
    subst hbid
    dsimp only
    split
    · exact (Booked.refl u).to_rebooked
    · have hc : Rebooked g.bid u (if u.fusedGroup g then u.splitCheck g.bid g.quartet else u) := by
        split
        · exact splitCheck_rebooked ..
        · exact (Booked.refl u).to_rebooked
      generalize (if u.fusedGroup g = true then u.splitCheck g.bid g.quartet else u) = w at hc ⊢
      split
      · exact hc.booked (Booked.of_groups rfl rfl rfl)
      · split
        · exact hc.booked (Booked.of_groups rfl rfl rfl)
        · exact hc

/-- A quartet with a member in its handler is not aligned (R135). -/
theorem aligned_handler {q : List Group} {g : Group} (hg : g ∈ q) (hh : g.handler.isSome = true) : aligned q = false := by
  unfold aligned
  have : (q.all fun x => x.converged && x.handler.isNone) = false := List.all_eq_false.mpr ⟨g, hg, by
    cases hk : g.handler with
    | none => rw [hk] at hh; exact absurd hh (by decide)
    | some _ => rw [Option.isNone_some, Bool.and_false]; decide⟩
  rw [this, Bool.and_false, Bool.false_and]

/-- A fused quartet with a member in its handler is split as its members' turn ends. -/
theorem endTurn_splits {bid j : Nat} {u : State} {ms : List Nat} {b : Block} {y : Nat} {gy : Group} (r : Bool)
    (hp : ∀ m ∈ ms, ∀ g, u.group? m = some g → g.bid = bid ∧ g.spawned = false ∧ g.quartet = j) (hy : y ∈ ms)
    (hgy : u.group? y = some gy) (hh : gy.handler.isSome = true) (hb : u.block? bid = some b) (hfu : b.fused[j]? = some true) :
    ∃ b', (u.endTurn ms r).block? bid = some b' ∧ b'.fused[j]? = some false := by
  obtain ⟨g, hg⟩ : ∃ g, ms.findSome? u.group? = some g := by
    cases hn : ms.findSome? u.group? with
    | some g => exact ⟨g, rfl⟩
    | none => exact absurd (List.findSome?_eq_none_iff.mp hn y hy) (by rw [hgy]; exact Option.some_ne_none _)
  obtain ⟨m, hm, hmg⟩ := List.exists_of_findSome?_eq_some hg
  obtain ⟨h1, h2, h3⟩ := hp m hm g hmg
  obtain ⟨k1, k2, k3⟩ := hp y hy gy hgy
  have fused : u.fusedGroup g = true := by
    unfold State.fusedGroup
    simp only [h2, h1, hb, h3, hfu]; rfl
  have mem : gy ∈ u.membersOf bid j := List.mem_filter.mpr
    ⟨List.mem_of_find?_eq_some hgy, by rw [k1, k2, k3]; simp⟩
  have check : u.splitCheck bid j = u.split bid j := by
    unfold State.splitCheck
    dsimp only
    rw [aligned_handler mem hh, Bool.false_and]
    exact if_neg (by decide)
  have found : (u.split bid j).block? bid = some (b.setFused j false) := by
    unfold State.split
    rw [block?_modBlock (f := fun b => b.setFused j false) (fun _ => rfl), hb]; rfl
  have unfused : (b.setFused j false).fused[j]? = some false := by
    obtain ⟨hlt, -⟩ := List.getElem?_eq_some_iff.mp hfu
    exact List.getElem?_set_self hlt
  have after : (u.split bid j).fusedGroup g = false := by
    unfold State.fusedGroup
    rw [h1, found, h3]
    simp [unfused]
  unfold State.endTurn
  simp only [hg, h2, fused, Bool.false_eq_true, if_false, if_true, h1, h3, check, after]
  split
  · exact ⟨_, found, unfused⟩
  · exact ⟨_, found, unfused⟩

theorem booked_ranAll (s : State) (ms : List Nat) (v : State) : Booked v (ms.foldl (fun t m => match s.group? m with
    | some x => t.ran (sliceUnit x) (((s.block? x.bid).map (·.ctx)).getD allOnes32)
    | none => t) v) := by
  refine booked_foldl (fun v m => ?_) _ _
  split
  · exact Booked.of_groups rfl rfl rfl
  · exact Booked.refl _

theorem booked_countIdle (v : State) (ms : List Nat) : Booked v (v.countIdle ms) := by
  refine booked_foldl (fun v m => ?_) _ _
  split
  · split
    · exact Booked.of_groups rfl rfl rfl
    · exact Booked.refl _
  · exact Booked.refl _

/-- A gang's issue: the state that its attempt leaves, but for the books, and the end of the turn unless the members have more of it. -/
theorem issueWith_gang {f : Fields} {body : State → Nat → Fate} {s : State} {g : Group} {xs : List Cx} (h : Ganged s f g xs) :
    ∃ w, Booked (s.gangIssue f body (s.gangOf g)) w ∧ ((∃ r, issueWith f body s = .next (w.endTurn (s.gangOf g) r)) ∨
      issueWith f body s = .next w ∧ ∀ e ∈ s.fates f body (s.gangOf g), e.2.stops = false) := by
  obtain ⟨it, rest, ht, hg⟩ := h.head
  unfold issueWith
  simp only [ht, hg]
  set v := s.gangIssue f body (s.gangOf g) with hv
  set w := (if ((s.fates f body (s.gangOf g)).map (·.2)).all Fate.isHold = true then v else _ : State) with hw
  have hbw : Booked v w := by
    rw [hw]
    split
    · exact Booked.refl _
    · exact booked_ranAll ..
  split
  · refine ⟨{ (if it.used = 0 then w.countIdle (idleMembers (s.gangWay (s.fates f body (s.gangOf g)))
        (s.fates f body (s.gangOf g))) else w) with turn := rest }, hbw.trans ?_, .inl ⟨_, rfl⟩⟩
    split
    · exact (booked_countIdle ..).trans (Booked.of_groups rfl rfl rfl)
    · exact Booked.of_groups rfl rfl rfl
  · next hstop =>
    refine ⟨{ w with turn := ⟨it.gid, it.used + 1, it.point ||
        (refusePoint f && ((s.fates f body (s.gangOf g)).map (·.2)).any Fate.isDone)⟩ :: rest },
      hbw.trans (Booked.of_groups rfl rfl rfl), .inr ⟨rfl, fun e he => ?_⟩⟩
    simp only [Bool.or_eq_true, not_or] at hstop
    have := hstop.1.1.1
    rw [Bool.not_eq_true, List.any_eq_false] at this
    simpa using this e.2 (List.mem_map_of_mem he)

end Sys2Proof.Machine
end


section
/-! What a gang leaves (R135, R137): all members retire, all are held back, or one traps and the quartet splits. -/

namespace Sys2Proof.Machine

open Sys2Proof

/-! The members -/

namespace Ganged
variable {s : State} {f : Fields} {g : Group} {xs : List Cx} (h : Ganged s f g xs)
include h

/-- A member's context is that of its attempt in s. -/
theorem cx {x : Cx} (hx : x ∈ xs) : s.cx? x.g.gid f = some x ∧ x.g.gid ∈ s.gangOf g := by
  have : some x ∈ (s.gangOf g).map fun m => s.cx? m f := by rw [h.found]; exact List.mem_map_of_mem hx
  obtain ⟨m, hm, hcx⟩ := List.mem_map.mp this
  have hgid := group?_gid (cx?_spec hcx).2.1
  rw [hgid]
  exact ⟨hcx, hm⟩

theorem member {m : Nat} (hm : m ∈ s.gangOf g) : ∃ x ∈ xs, x.g.gid = m := by
  have : s.cx? m f ∈ xs.map some := by rw [← h.found]; exact List.mem_map_of_mem hm
  obtain ⟨x, hx, hcx⟩ := List.mem_map.mp this
  exact ⟨x, hx, group?_gid (cx?_spec hcx.symm).2.1⟩

theorem eq_of_gid {x y : Cx} (hx : x ∈ xs) (hy : y ∈ xs) (e : x.g.gid = y.g.gid) : x = y := by
  have h1 := (h.cx hx).1
  rw [e, (h.cx hy).1] at h1
  exact (Option.some.inj h1).symm

theorem group {x : Cx} (hx : x ∈ xs) : s.group? x.g.gid = some x.g := by
  obtain ⟨hcx, -⟩ := h.cx hx
  exact (cx?_spec hcx).2.1

/-- The block, and that the quartet is fused in it. -/
theorem fused_block : ∃ b, s.block? g.bid = some b ∧ b.fused[g.quartet]? = some true := by
  have hf := h.fused
  unfold State.fusedGroup at hf
  simp only [Bool.and_eq_true] at hf
  obtain ⟨-, hf⟩ := hf
  cases hb : s.block? g.bid with
  | none => simp only [hb] at hf; exact absurd hf (by decide)
  | some b =>
    simp only [hb] at hf
    refine ⟨b, rfl, ?_⟩
    cases hq : b.fused[g.quartet]? with
    | none => simp only [hq] at hf; exact absurd hf (by decide)
    | some v => simp only [hq, Option.getD_some] at hf; rw [hf]

theorem fused_member {x : Cx} (hx : x ∈ xs) : s.fusedGroup x.g = true := by
  obtain ⟨b, hb, hq⟩ := h.fused_block
  obtain ⟨h1, h2, h3, -⟩ := h.block x hx
  unfold State.fusedGroup
  rw [h1, h2, h3, hb]
  simp only [hq]
  rfl

end Ganged

/-! The members' attempts, each beside those before it -/

/-- y is the attempt of the group whose attempt in s is x, later in the gang's issue. -/
structure Later (s : State) (f : Fields) (x y : Cx) : Prop where
  found : y.s.cx? x.g.gid f = some y
  along : Along s y.s
  results : y.s.results = s.results
  alike : x.Alike y
  block : y.b.uncounted = x.b.uncounted
  ctl : y.c.ctl = x.c.ctl

theorem Later.group {s : State} {f : Fields} {x y : Cx} (h : Later s f x y) : y.s.group? x.g.gid = some x.g := by
  rw [← h.alike.g]
  obtain ⟨-, hg, -⟩ := cx?_spec h.found
  rwa [h.alike.g] at hg ⊢

theorem Later.acts {s : State} {f : Fields} {x y : Cx} (h : Later s f x y) (hx : x.s = s) (ha : x.Acts) : y.Acts :=
  acts_along h.along h.results hx rfl h.alike h.block ha

/-- The state after the attempts of the members in `done`, of which each has left its group as Out says. -/
structure Chain (s : State) (xs : List Cx) (Out : Cx → Group → Prop) (done : List Nat) (u : State) : Prop where
  along : Along s u
  results : u.results = s.results
  rest : ∀ h, h ∉ done → u.group? h = s.group? h
  members : ∀ x ∈ xs, x.g.gid ∈ done → ∃ g', u.group? x.g.gid = some g' ∧ Out x g'

section
variable {s : State} {f : Fields} {g : Group} {xs : List Cx} {Out : Cx → Group → Prop}

theorem Chain.init : Chain s xs Out [] s :=
  ⟨.refl s, rfl, fun _ _ => rfl, fun _ _ hm => absurd hm List.not_mem_nil⟩

theorem Chain.later {done : List Nat} {u : State} (c : Chain s xs Out done u) (h : Ganged s f g xs) {x : Cx} (hx : x ∈ xs)
    (hm : x.g.gid ∉ done) : ∃ y, y.s = u ∧ Later s f x y := by
  obtain ⟨y, hy, hs, hal, hb, hc⟩ := cx_along c.along (c.rest _ hm) (h.cx hx).1
  subst hs
  exact ⟨y, rfl, hy, c.along, c.results, hal, hb, hc⟩

theorem Chain.step {done : List Nat} {u v : State} (c : Chain s xs Out done u) (h : Ganged s f g xs) {x : Cx} (hx : x ∈ xs)
    (hm : x.g.gid ∉ done) (ha : Aside x.g.gid u v) (hr : v.results = u.results) (ho : ∃ g', v.group? x.g.gid = some g' ∧ Out x g') :
    Chain s xs Out (done ++ [x.g.gid]) v := by
  refine ⟨c.along.trans ha.toAlong, hr.trans c.results, fun n hn => ?_, fun z hz hzm => ?_⟩
  · rw [List.mem_append, List.mem_singleton, not_or] at hn
    exact (ha.others n hn.2).trans (c.rest n hn.1)
  · rcases List.mem_append.mp hzm with hzd | hze
    · obtain ⟨g', h1, h2⟩ := c.members z hz hzd
      exact ⟨g', (ha.others _ fun e => hm (e ▸ hzd)).trans h1, h2⟩
    · rw [List.mem_singleton] at hze
      rw [h.eq_of_gid hz hx hze]
      exact ho

/-- The member at a place in the order of a gang, which has not issued yet. -/
theorem Ganged.next (h : Ganged s f g xs) {done rest : List Nat} {m : Nat} (hms : s.gangOf g = done ++ m :: rest) :
    ∃ x ∈ xs, x.g.gid = m ∧ m ∉ done := by
  obtain ⟨x, hx, hxm⟩ := h.member (m := m) (by rw [hms]; exact List.mem_append_right _ (List.mem_cons_self ..))
  have hnd := h.apart
  rw [hms] at hnd
  exact ⟨x, hx, hxm, fun hd => (List.nodup_append.mp hnd).2.2 m hd m (List.mem_cons_self ..) rfl⟩

end

/-! All members retire -/

/-- The state after the members in `done` have retired with the groups that `after` gives, and nothing else has changed. -/
structure Retiring (s : State) (bid : Nat) (f : Fields) (xs : List Cx) (after : Cx → Group) (done : List Nat) (u : State) : Prop where
  chain : Chain s xs (fun x g' => g' = (after x).retired f (s.weightOf f) none) done u
  still : u.still = s.still
  block : ∀ b, s.block? bid = some b → u.block? bid = some { b with retcnt := b.retcnt + done.length }
  blocks : ∀ d, d ≠ bid → u.block? d = s.block? d

/-- The state s with the members' groups as `after` gives them. -/
def State.withGroups (s : State) (after : Cx → Group) (xs : List Cx) : State := xs.foldl (fun u x => u.setGroup (after x)) s

theorem withGroups_still (after : Cx → Group) (xs : List Cx) (s : State) : GroupsOnly s (s.withGroups after xs) := by
  unfold State.withGroups
  induction xs generalizing s with
  | nil => exact .refl s
  | cons x xs ih => exact (groupsOnly_setGroup ..).trans (ih _)

theorem withGroups_others {after : Cx → Group} {n : Nat} (xs : List Cx) (hid : ∀ x ∈ xs, (after x).gid = x.g.gid)
    (hn : ∀ x ∈ xs, x.g.gid ≠ n) (s : State) : (s.withGroups after xs).group? n = s.group? n := by
  unfold State.withGroups
  induction xs generalizing s with
  | nil => rfl
  | cons x xs ih =>
    rw [List.foldl_cons, ih (fun y hy => hid y (List.mem_cons_of_mem _ hy)) (fun y hy => hn y (List.mem_cons_of_mem _ hy))]
    exact group?_setGroup_ne (by rw [hid x (List.mem_cons_self ..)]; exact hn x (List.mem_cons_self ..))

theorem withGroups_member {after : Cx → Group} (xs : List Cx) (hid : ∀ x ∈ xs, (after x).gid = x.g.gid)
    (heq : ∀ x ∈ xs, ∀ y ∈ xs, x.g.gid = y.g.gid → x = y) (s : State) (hg : ∀ x ∈ xs, (s.group? x.g.gid).isSome = true) {x : Cx}
    (hx : x ∈ xs) : (s.withGroups after xs).group? x.g.gid = some (after x) := by
  unfold State.withGroups
  induction xs generalizing s with
  | nil => exact absurd hx List.not_mem_nil
  | cons y xs ih =>
    have hy := List.mem_cons_self (a := y) (l := xs)
    have hyid := hid y hy
    obtain ⟨gy, hgy⟩ := Option.isSome_iff_exists.mp (hg y hy)
    have first : (s.setGroup (after y)).group? y.g.gid = some (after y) := group?_setGroup hgy hyid
    rw [List.foldl_cons]
    by_cases hin : x ∈ xs
    · refine ih (fun z hz => hid z (List.mem_cons_of_mem _ hz)) (fun a ha b hb => heq a (List.mem_cons_of_mem _ ha) b
        (List.mem_cons_of_mem _ hb)) _ (fun z hz => ?_) hin
      by_cases hzy : z.g.gid = y.g.gid
      · rw [hzy, first]; rfl
      · rw [group?_setGroup_ne (by rw [hyid]; exact Ne.symm hzy)]
        exact hg z (List.mem_cons_of_mem _ hz)
    · have hxy : x = y := (List.mem_cons.mp hx).resolve_right hin
      subst hxy
      have later := withGroups_others (n := x.g.gid) xs (fun z hz => hid z (List.mem_cons_of_mem _ hz))
        (fun z hz e => hin (heq z (List.mem_cons_of_mem _ hz) x hy e ▸ hz)) (s.setGroup (after x))
      exact later.trans first

/-- A gang each of whose members retires with a group that differs from its own in what the instruction leaves. -/
theorem gang_completes {s : State} {f : Fields} {g : Group} {xs : List Cx} {body : State → Nat → Fate} (h : Ganged s f g xs)
    (after : Cx → Group) (same : ∀ x ∈ xs, x.g.Same (after x))
    (hstep : ∀ x ∈ xs, ∀ y, Later s f x y → ∃ v, body y.s x.g.gid = .done v none false ∧ GroupsOnly y.s v ∧ (after x).core = x.g.core ∧
      ∀ n, v.group? n = if n = x.g.gid then some (after x) else y.s.group? n) :
    ∃ u t, issueWith f body s = .next t ∧ GangRetires u g.bid (s.gangOf g) f t ∧ u.still = s.still ∧ u.blocks = s.blocks ∧
      (∀ n, n ∉ s.gangOf g → u.group? n = s.group? n) ∧ ∀ x ∈ xs, u.group? x.g.gid = some (after x) := by
  have hid : ∀ x ∈ xs, (after x).gid = x.g.gid := fun x hx => (same x hx).gid
  obtain ⟨hr, hfates⟩ := settleAll_induct (f := f) (body := body) (ms := s.gangOf g) (s := s)
    (R := fun done u => Retiring s g.bid f xs after done u) (F := fun _ r => r.isHold = false ∧ r.isStay = false)
    ⟨Chain.init, rfl, fun b hb => hb, fun _ _ => rfl⟩ (by
      intro done m rest u hms r
      obtain ⟨x, hx, rfl, hm⟩ := h.next hms
      obtain ⟨y, rfl, hl⟩ := r.chain.later h hx hm
      obtain ⟨v, hv, hgo, hcore, hgr⟩ := hstep x hx y hl
      obtain ⟨hbid, -⟩ := h.block x hx
      have hvx : v.group? x.g.gid = some (after x) := by rw [hgr, if_pos rfl]
      have hvb : (after x).bid = g.bid := (same x hx).bid.trans hbid
      have hret := retires_retire v x.g.gid f none
      have hw : v.weightOf f = s.weightOf f := by
        have e : v.still.weights = s.still.weights := congrArg State.weights (hgo.still.trans r.still)
        unfold State.weightOf
        rw [show v.weights = s.weights from e]
      have aside : Aside x.g.gid y.s v := ⟨along_still hgo.still (fun d => by rw [block?_congr hgo.blocks]) fun n => by
          rw [hgr]
          split
          · next e => rw [e, hl.group]; exact congrArg some hcore
          · rfl, fun n hn => by rw [hgr, if_neg hn]⟩
      have results : (v.retire x.g.gid f none).results = y.s.results := by
        have e : (v.retire x.g.gid f none).still.results = y.s.still.results :=
          congrArg State.results (hret.still.trans hgo.still)
        exact e
      rw [hv]
      refine ⟨⟨r.chain.step h hx hm (aside.trans (aside_retire ..)) results
        ⟨_, by show (v.retire x.g.gid f none).group? x.g.gid = _; rw [retire_group?, if_pos rfl, hvx]; rfl, by rw [hw]⟩,
        (hret.still.trans hgo.still).trans r.still, fun b hb => ?_, fun d hd => ?_⟩, rfl, rfl⟩
      · have h1 := hret.block (after x) { b with retcnt := b.retcnt + done.length } hvx
          (by rw [hvb, block?_congr hgo.blocks]; exact r.block b hb)
        rw [hvb] at h1
        rw [List.length_append]
        exact h1
      · exact ((hret.blocks (after x) d hvx (by rw [hvb]; exact hd)).trans (block?_congr hgo.blocks d)).trans (r.blocks d hd))
  obtain ⟨w, hbw, hend⟩ := issueWith_gang (body := body) h
  rw [gangIssue_each fun e he => hfates e he] at hbw
  have place : ∀ m ∈ s.gangOf g, ∀ g', w.group? m = some g' → g'.bid = g.bid := fun m hm g' hg' => by
    obtain ⟨x, hx, rfl⟩ := h.member hm
    obtain ⟨g0, h1, h2⟩ := hr.chain.members x hx hm
    have hb := hbw.groups x.g.gid
    rw [hg', h1, h2, Option.map_some, Option.map_some, Option.some.injEq] at hb
    obtain ⟨hbid, -⟩ := h.block x hx
    exact ((bare_bid hb).trans (same x hx).bid).trans hbid
  obtain ⟨t, ht, hre⟩ : ∃ t, issueWith f body s = .next t ∧ Rebooked g.bid (s.settleAll f body (s.gangOf g)) t := by
    rcases hend with ⟨r, hr'⟩ | ⟨hr', -⟩
    · exact ⟨_, hr', hbw.rebooked (endTurn_rebooked w r place)⟩
    · exact ⟨w, hr', hbw.to_rebooked⟩
  have hgo := withGroups_still after xs s
  have members := fun x hx => withGroups_member (after := after) xs hid (fun a ha b hb => h.eq_of_gid ha hb) s
    (fun z hz => by rw [h.group hz]; rfl) (x := x) hx
  have others : ∀ n, n ∉ s.gangOf g → (s.withGroups after xs).group? n = s.group? n := fun n hn =>
    withGroups_others xs hid (fun x hx (e : x.g.gid = n) => hn (e ▸ (h.cx hx).2)) s
  have hw : (s.withGroups after xs).weightOf f = s.weightOf f := by
    have e : (s.withGroups after xs).still.weights = s.still.weights := congrArg State.weights hgo.still
    unfold State.weightOf
    rw [show (s.withGroups after xs).weights = s.weights from e]
  refine ⟨s.withGroups after xs, t, ht, ⟨(hre.still.trans hr.still).trans hgo.still.symm, fun m hm g' hg' => ?_, fun n hn => ?_,
    fun b hb => ?_, fun d hd => ?_⟩, hgo.still, hgo.blocks, others, members⟩
  · obtain ⟨x, hx, rfl⟩ := h.member hm
    rw [members x hx, Option.some.injEq] at hg'
    subst hg'
    obtain ⟨g0, h1, h2⟩ := hr.chain.members x hx hm
    rw [hre.groups, h1, h2, hw]
    rfl
  · rw [hre.groups, others n hn, hr.chain.rest n hn]
  · rw [block?_congr hgo.blocks] at hb
    obtain ⟨b', h1, h2⟩ := hre.block _ (hr.block b hb)
    refine ⟨b', h1, congrArg Block.retcnt h2, ?_⟩
    have h3 : ({ b' with fused := b.fused } : Block) = { b with retcnt := b.retcnt + (s.gangOf g).length } := h2
    calc ({ b' with retcnt := b.retcnt, fused := b.fused } : Block)
        = { ({ b' with fused := b.fused } : Block) with retcnt := b.retcnt } := rfl
      _ = b := by rw [h3]
  · exact ((hre.blocks d hd).trans (hr.blocks d hd)).trans (block?_congr hgo.blocks d).symm

theorem finished_core (g : Group) (dst : BitVec 9) (ps : List Share) (dr : Draw) : (g.finished dst ps dr).core = g.core := by
  obtain ⟨a, b, c, d, e⟩ := finished_only g dst ps dr
  rw [e]

/-- A member that acts retires with its shares. -/
theorem finish_later {s : State} {f : Fields} {x y : Cx} (h : Later s f x y) {ps : List Share} (dr : Draw) (hr : x.namesRej = false)
    (hq : x.quiet (causesOf ps)) : ∃ v, y.finish ps dr = .done v none false ∧ GroupsOnly y.s v ∧
      (x.g.finished f.dst ps dr).core = x.g.core ∧
      ∀ n, v.group? n = if n = x.g.gid then some (x.g.finished f.dst ps dr) else y.s.group? n := by
  obtain ⟨-, -, -, -, hf, -⟩ := cx?_spec h.found
  obtain ⟨v, h1, h2, h3⟩ := finish_plain (x := y) (ps := ps) (dr := dr) (by rw [h.alike.g]; exact h.group)
    (h.alike.namesRej.trans hr) (by rw [h.ctl]; exact hq)
  rw [h.alike.g, hf] at h3
  exact ⟨v, h1, h2, finished_core .., h3⟩

/-- A member of a gang passes its gate and computes its results as it does in s. -/
theorem results_later {i : Instr} {f : Fields} {sh : Cx → List Share × Draw} (hi : resultRow i = some (f, sh)) :
    ∃ body, (∀ s, exec i s = issue f noPre body s) ∧ ∀ {s x y}, Later s f x y → x.s = s → x.Acts →
      attempt f noPre body y.s x.g.gid = y.finish (sh x).1 (sh x).2 := by
  obtain ⟨body, he, hb⟩ := (resultRow_results hi).exec_eq
  refine ⟨body, he, fun {s x y} h hs ha => ?_⟩
  obtain ⟨-, -, -, -, hf, -⟩ := cx?_spec h.found
  unfold attempt
  rw [h.found]
  show y.gate noPre body = _
  rw [gate_acts (h.acts hs ha), hb y hf, resultRow_alike hi h.alike]

theorem gangResults : GangResults := by
  intro i f sh s g xs hi h hx
  obtain ⟨body, he, hb⟩ := results_later hi
  obtain ⟨u, t, h1, h2, h3, h4, h5, h6⟩ := gang_completes (body := attempt f noPre body) h
    (fun x => x.g.finished f.dst (sh x).1 (sh x).2) (fun x _ => finished_same ..) (by
      intro x hxs y hl
      obtain ⟨ha, hr, hq⟩ := hx x hxs
      rw [hb hl (cx?_spec (h.cx hxs).1).1 ha]
      exact finish_later hl _ hr hq)
  exact ⟨u, t, (he s).trans h1, h2, h3, h4, h5, fun x hxs => ⟨_, h6 x hxs,
    wrote_shares ((resultRow_results hi).nodup x) ((resultRow_results hi).lt x)⟩⟩

/-! All members are held back -/

theorem gang_waits {s : State} {f : Fields} {g : Group} {xs : List Cx} {body : State → Nat → Fate} (h : Ganged s f g xs)
    (hk : waitKind f true = 2) (held : ∃ e ∈ s.fates f body (s.gangOf g), e.2.isHold = true) :
    ∃ t, issueWith f body s = .next t ∧ GangWaits s g xs t := by
  obtain ⟨w, hbw, hend⟩ := issueWith_gang (body := body) h
  rw [gangIssue_hold held] at hbw
  obtain ⟨hgo, hgr⟩ := held_members (f := f) (ms := s.gangOf g) hk h.apart s fun m hm g' hg' => by
    obtain ⟨x, hx, rfl⟩ := h.member hm
    rw [h.group hx, Option.some.injEq] at hg'
    exact hg' ▸ h.fused_member hx
  have member : ∀ x ∈ xs, ((s.gangOf g).foldl (fun s m => s.settle m f .hold) s).group? x.g.gid = some (x.g.await 2) := fun x hx => by
    rw [hgr, if_pos (h.cx hx).2, h.group hx]; rfl
  have place : ∀ m ∈ s.gangOf g, ∀ g', w.group? m = some g' → g'.bid = g.bid := fun m hm g' hg' => by
    obtain ⟨x, hx, rfl⟩ := h.member hm
    have hb := hbw.groups x.g.gid
    rw [hg', member x hx, Option.map_some, Option.map_some, Option.some.injEq] at hb
    obtain ⟨hbid, -⟩ := h.block x hx
    exact ((bare_bid hb).trans (await_same ..).bid).trans hbid
  obtain ⟨t, ht, hre⟩ : ∃ t, issueWith f body s = .next t ∧
      Rebooked g.bid ((s.gangOf g).foldl (fun s m => s.settle m f .hold) s) t := by
    rcases hend with ⟨r, hr'⟩ | ⟨hr', -⟩
    · exact ⟨_, hr', hbw.rebooked (endTurn_rebooked w r place)⟩
    · exact ⟨w, hr', hbw.to_rebooked⟩
  refine ⟨t, ht, hre.still.trans hgo.still, fun x hx => ?_, fun n hn => ?_, fun b hb => ?_, fun d hd => ?_⟩
  · rw [hre.groups, member x hx]; rfl
  · rw [hre.groups, hgr, if_neg hn]
  · exact hre.block b ((block?_congr hgo.blocks _).trans hb)
  · exact (hre.blocks d hd).trans (block?_congr hgo.blocks d)

theorem trapping_aside (m k : Nat) (u : State) {f : Fields} (hs : sampledSpace f = none) : Aside m u (u.trapping k f) := by
  have e : u.sampleTrap k f = u := by unfold State.sampleTrap; rw [hs]
  unfold State.trapping
  rw [e]
  exact .of_eq rfl rfl rfl rfl rfl rfl rfl rfl rfl rfl

theorem setQstat_core (g : Group) (q : List (Nat × Word)) : (g.setQstat q).core = g.core := by
  show (g.commit [] q).core = g.core
  rw [commit_only]

theorem writeShares_core (dst : BitVec 9) (ps : List Share) (g : Group) :
    (ps.foldl (fun g p => g.writeDst dst p.t p.words) g).core = g.core := by
  have hr := regsOnly_writeShares dst ps g
  unfold Group.RegsOnly at hr
  rw [hr]

theorem fpTrap_trap {x : Cx} {per : List (Nat × Causes)} {r : Fate} (h : x.fpTrap per = some r) : ∃ c d l, r = .trap c d l := by
  unfold Cx.fpTrap at h
  dsimp only at h
  split at h
  · cases h
  · cases h; exact ⟨_, _, _, rfl⟩

/-- What shares can come to: a result in flight, a trap for a cause, or results written at once (R18, R72, R118). -/
theorem finish_cases (x : Cx) (ps : List Share) (dr : Draw) :
    x.finish ps dr = .done ((x.s.commitNone x dr).putResult x .rej (ps.flatMap fun p => regWrites x.f.dst p.t p.words) dr.pos dr.words
      (rejxOf dr.qstat) (ps.map fun p => (p.t, p.causes)) false) none false ∨
    (∃ c d l, x.finish ps dr = .trap c d l) ∨
    x.finish ps dr = .done (((x.s.raiseFp x (ps.map fun p => (p.t, p.causes))).commitDraws x dr).modGroup x.g.gid
      fun g => ps.foldl (fun g p => g.writeDst x.f.dst p.t p.words) g) none false := by
  unfold Cx.finish
  dsimp only
  generalize (x.namesRej && _ : Bool) = rej
  cases rej with
  | true => exact .inl rfl
  | false =>
    refine .inr ?_
    rw [if_neg (by decide)]
    cases ht : (if x.namesRej = true then none else x.fpTrap (ps.map fun p => (p.t, p.causes))) with
    | none => exact .inr rfl
    | some r =>
      have hx : x.fpTrap (ps.map fun p => (p.t, p.causes)) = some r := by
        cases hn : x.namesRej with
        | true => rw [hn, if_pos rfl] at ht; cases ht
        | false => rwa [hn, if_neg (by decide)] at ht
      obtain ⟨c, d, l, rfl⟩ := fpTrap_trap hx
      exact .inl ⟨c, d, l, rfl⟩

/-- Whatever the attempt of an instruction of results comes to, it leaves the other groups, and what their attempts read. -/
theorem aside_results {i : Instr} {f : Fields} {sh : Cx → List Share × Draw} (hi : resultRow i = some (f, sh)) {body : Cx → Fate}
    (hb : ∀ x, x.f = f → body x = x.finish (sh x).1 (sh x).2) (u : State) (m : Nat) :
    Aside m u (u.settle m f (attempt f noPre body u m)) := by
  have hold : Aside m u (u.settle m f .hold) :=
    aside_modGroup (fun g => (await_same ..).gid) fun g => by unfold Group.await; split <;> rfl
  have trap : ∀ c d l, Aside m u (u.settle m f (.trap c d l)) := fun c d l => by
    unfold State.settle
    cases hg : u.group? m with
    | none => exact .refl m u
    | some g =>
      have hm := group?_gid hg
      subst hm
      exact (trapping_aside g.gid g.gid u (sampledSpace_plain (resultRow_plain hi))).trans (aside_takeTrap
        (g' := { g with stay := false, stayDone := false, reissue := false }) ((group?_congr (trapping_groups ..) _).trans hg)
        ⟨rfl, rfl, rfl, rfl⟩ rfl _)
  unfold attempt
  cases hx : u.cx? m f with
  | none => exact hold
  | some x =>
    obtain ⟨hs, hg, -, -, hf, -⟩ := cx?_spec hx
    have hm := group?_gid hg
    subst hm
    subst hs
    show Aside x.g.gid x.s (x.s.settle x.g.gid f (x.gate noPre body))
    unfold Cx.gate noPre
    simp only
    split
    · exact aside_retire ..
    · split
      · exact trap ..
      · split
        · exact hold
        · rw [hb x hf]
          rcases finish_cases x (sh x).1 (sh x).2 with h | ⟨c, d, l, h⟩ | h
          · rw [h]
            exact (aside_modGroup (fun g => (setQstat_same ..).gid) fun g => setQstat_core ..).trans
              ((aside_putResult ..).trans (aside_retire ..))
          · rw [h]
            exact trap ..
          · rw [h]
            exact (aside_raiseFp ..).trans ((aside_commitDraws ..).trans ((aside_modGroup (fun g => writeShares_gid _ _ g) fun g =>
              writeShares_core ..).trans (aside_retire ..)))

theorem gangHolds : GangHolds := by
  intro i f sh s g xs hi h ⟨x, hx, hsk, hem, hheld⟩
  obtain ⟨body, he, hb⟩ := (resultRow_results hi).exec_eq
  have hfates := (settleAll_induct (f := f) (body := attempt f noPre body) (ms := s.gangOf g) (s := s)
    (R := fun done u => Along s u ∧ ∀ n, n ∉ done → u.group? n = s.group? n) (F := fun m r => m = x.g.gid → r.isHold = true)
    ⟨.refl s, fun _ _ => rfl⟩ (by
      intro done m rest u hms ⟨hal, hrest⟩
      obtain ⟨y, hy, rfl, hm⟩ := h.next hms
      have aside := aside_results hi hb u y.g.gid
      refine ⟨⟨hal.trans aside.toAlong, fun n hn => ?_⟩, fun e => ?_⟩
      · rw [List.mem_append, List.mem_singleton, not_or] at hn
        exact (aside.others n hn.2).trans (hrest n hn.1)
      · obtain rfl := h.eq_of_gid hy hx e
        obtain ⟨z, hz, hs, hk, hbl, -⟩ := cx_along hal (hrest _ hm) (h.cx hy).1
        unfold attempt
        rw [hz]
        show (z.gate noPre body).isHold = true
        have hd := heldBack_grows hal (cx?_spec (h.cx hy).1).1 hs hk hbl hheld
        have hm' : z.emptyTrap.1 = 0 := (congrArg Prod.fst (hk.emptyTrap hbl)).trans hem
        simp only [Cx.gate, noPre, hk.skipped, hsk, hm', hd, Bool.false_eq_true, if_false, if_true, ne_eq, not_true_eq_false]
        rfl)).2
  have hmem : x.g.gid ∈ (s.fates f (attempt f noPre body) (s.gangOf g)).map (·.1) := by
    rw [fates_members]; exact (h.cx hx).2
  obtain ⟨e, hef, hex⟩ := List.mem_map.mp hmem
  rw [he]
  exact gang_waits h (waitKind_plain (resultRow_plain hi) true) ⟨e, hef, hfates e hef hex⟩

/-! A member traps -/

/-- The group of a member that has entered its handler: what R288 gives, but for the tag it may have lost (R357). -/
def Cx.entered (y : Cx) (cause : BitVec 8) (detail : Nat) (lanes : Mask) (g' : Group) : Prop :=
  ∃ tag, g' = { y.g.enter y.c.ctl.hentry (trapRecOf y.g cause detail lanes y.g.pc 0) [] with smpl := tag }

theorem entered_same {y : Cx} {cause : BitVec 8} {detail : Nat} {lanes : Mask} {g' : Group} (h : y.entered cause detail lanes g') :
    y.g.Same g' := by
  obtain ⟨tag, rfl⟩ := h
  obtain ⟨h1, h2, h3, h4⟩ := enter_same y.g y.c.ctl.hentry (trapRecOf y.g cause detail lanes y.g.pc 0) []
  exact ⟨h1, h2, h3, h4⟩

theorem takeTrap_results (s : State) (g : Group) (r : TrapRec) : (s.takeTrap g r).results = s.results := by
  have halts : ∀ d c u a, (s.halt d c u a).results = s.results := fun d c u a => by
    unfold State.halt
    split
    · split <;> rfl
    · rfl
  unfold State.takeTrap State.deliver
  split
  · exact halts ..
  · split
    · rfl
    · split
      · rfl
      · split
        · exact halts ..
        · simp

/-- The trap of a member, whose instruction sampling does not count. -/
theorem trap_later {s : State} {f : Fields} {y z : Cx} (h : Later s f y z) (hs : sampledSpace f = none) (hh : y.g.handler = none)
    (he : y.c.ctl.hentry ≠ 0) (cause : BitVec 8) (detail : Nat) (lanes : Mask) :
    Aside y.g.gid z.s (z.s.settle y.g.gid f (.trap cause detail lanes)) ∧
      (z.s.settle y.g.gid f (.trap cause detail lanes)).results = z.s.results ∧
      ∃ g', (z.s.settle y.g.gid f (.trap cause detail lanes)).group? y.g.gid = some g' ∧ y.entered cause detail lanes g' := by
  obtain ⟨-, -, hb, hc, -⟩ := cx?_spec h.found
  have hg := h.group
  have hgt : (z.s.trapping y.g.gid f).group? y.g.gid = some y.g := (group?_congr (trapping_groups ..) _).trans hg
  have hsame : z.s.sampleTrap y.g.gid f = z.s := by unfold State.sampleTrap; rw [hs]
  unfold State.settle
  simp only [hg]
  refine ⟨(trapping_aside y.g.gid y.g.gid z.s hs).trans (aside_takeTrap
    (g' := { y.g with stay := false, stayDone := false, reissue := false }) hgt ⟨rfl, rfl, rfl, rfl⟩ rfl _), ?_, ?_⟩
  · rw [takeTrap_results, hsame]; rfl
  · obtain ⟨tag, ht⟩ := enter_of_attempt y.g z.c.ctl.hentry (trapRecOf y.g cause detail lanes y.g.pc 0) []
    rw [h.alike.g] at hb
    have hbt : (z.s.trapping y.g.gid f).block? y.g.bid = some z.b := (block?_congr (trapping_blocks ..) _).trans hb
    have hct : (z.s.trapping y.g.gid f).ctx? z.b.ctx = some z.c := by
      unfold State.trapping
      rw [hsame]
      exact hc
    have key := takeTrap_enters (g := { y.g with stay := false, stayDone := false, reissue := false })
      (r := trapRecOf y.g cause detail lanes y.g.pc 0) hgt hbt hct hh (by rw [h.ctl]; exact he)
    rw [ht, h.ctl] at key
    exact ⟨_, key, tag, rfl⟩

/-- A gang of which member y traps, while no other member is held back, stays in issue, or traps: y enters its handler, the quartet
splits, and every other member's group is what its own attempt leaves. -/
theorem gang_splits {s : State} {f : Fields} {g : Group} {xs : List Cx} {body : State → Nat → Fate} (h : Ganged s f g xs) {y : Cx}
    (hy : y ∈ xs) (hs : sampledSpace f = none) (hh : y.g.handler = none) (he : y.c.ctl.hentry ≠ 0) (Out : Cx → Group → Prop)
    {cause : BitVec 8} {detail : Nat} {lanes : Mask} (htrap : ∀ z, Later s f y z → body z.s y.g.gid = .trap cause detail lanes)
    (hstep : ∀ x ∈ xs, x ≠ y → ∀ z, Later s f x z →
      ((body z.s x.g.gid).isHold = false ∧ (body z.s x.g.gid).isStay = false) ∧
      Aside x.g.gid z.s (z.s.settle x.g.gid f (body z.s x.g.gid)) ∧
      (z.s.settle x.g.gid f (body z.s x.g.gid)).results = z.s.results ∧
      ∃ g', (z.s.settle x.g.gid f (body z.s x.g.gid)).group? x.g.gid = some g' ∧ x.g.Same g' ∧ Out x g') :
    ∃ t, issueWith f body s = .next t ∧ GangSplits s g y cause detail t ∧ t.churn = s.churn ∧
      ∀ x ∈ xs, x ≠ y → ∃ g', Out x g' ∧ (t.group? x.g.gid).map Group.bare = some g'.bare := by
  obtain ⟨hr, hfates⟩ := settleAll_induct (f := f) (body := body) (ms := s.gangOf g) (s := s)
    (R := Chain s xs fun x g' => x.g.Same g' ∧ (x = y → y.entered cause detail lanes g') ∧ (x ≠ y → Out x g'))
    (F := fun m r => (r.isHold = false ∧ r.isStay = false) ∧ (m = y.g.gid → r.stops = true)) Chain.init (by
      intro done m rest u hms c
      obtain ⟨x, hx, rfl, hm⟩ := h.next hms
      obtain ⟨z, rfl, hl⟩ := c.later h hx hm
      by_cases hxy : x = y
      · subst hxy
        obtain ⟨h1, h2, g', h3, h4⟩ := trap_later hl hs hh he cause detail lanes
        rw [htrap z hl]
        exact ⟨c.step h hx hm h1 h2 ⟨g', h3, entered_same h4, fun _ => h4, fun hn => absurd rfl hn⟩, ⟨rfl, rfl⟩, fun _ => rfl⟩
      · obtain ⟨h0, h1, h2, g', h3, h4, h5⟩ := hstep x hx hxy z hl
        exact ⟨c.step h hx hm h1 h2 ⟨g', h3, h4, fun e => absurd e hxy, fun _ => h5⟩, h0,
          fun e => absurd (h.eq_of_gid hx hy e) hxy⟩)
  obtain ⟨w, hbw, hend⟩ := issueWith_gang (body := body) h
  rw [gangIssue_each fun e he => (hfates e he).1] at hbw
  have found : ∀ x ∈ xs, ∃ g', w.group? x.g.gid = some g' ∧ ∃ g0, g'.bare = g0.bare ∧ x.g.Same g0 ∧ (x = y → y.entered cause detail lanes g0) ∧
      (x ≠ y → Out x g0) := fun x hx => by
    obtain ⟨g0, h1, h2⟩ := hr.members x hx (h.cx hx).2
    have hb := hbw.groups x.g.gid
    rw [h1] at hb
    obtain ⟨g', hg', hbare⟩ := Option.map_eq_some_iff.mp hb
    exact ⟨g', hg', g0, hbare, h2⟩
  have place : ∀ m ∈ s.gangOf g, ∀ g', w.group? m = some g' → g'.bid = g.bid ∧ g'.spawned = false ∧ g'.quartet = g.quartet := by
    intro m hm g' hg'
    obtain ⟨x, hx, rfl⟩ := h.member hm
    obtain ⟨g1, h1, g0, hb, hsame, -⟩ := found x hx
    rw [h1, Option.some.injEq] at hg'
    subst hg'
    obtain ⟨p1, p2, p3, -⟩ := h.block x hx
    refine ⟨((bare_bid hb).trans hsame.bid).trans p1, ((bare_spawned hb).trans hsame.spawned).trans p2, ?_⟩
    rw [← p3]
    unfold Group.quartet
    rw [bare_num hb, hsame.num]
  obtain ⟨gy, hgy, g0, hbare, -, hent, -⟩ := found y hy
  obtain ⟨tag, hg0⟩ := hent rfl
  have hE : Entered y.g g0 y.c.ctl.hentry cause detail lanes := by
    rw [hg0]; exact (entered_enter ..).with_smpl tag
  obtain ⟨b, hb, hq⟩ := h.fused_block
  obtain ⟨b', hb', hu⟩ : ∃ b', w.block? g.bid = some b' ∧ b'.uncounted = b.uncounted := by
    have := hr.along.blocks g.bid
    rw [hb, ← block?_congr hbw.blocks] at this
    exact Option.map_eq_some_iff.mp this
  have hq' : b'.fused[g.quartet]? = some true := by
    have e : b'.uncounted.fused = b.uncounted.fused := congrArg Block.fused hu
    rw [show b'.fused = b.fused from e]
    exact hq
  have gyE := eq_of_bare hbare
  have hgh : gy.handler.isSome = true := by rw [gyE]; exact hE.handler.1
  obtain ⟨r, hr'⟩ : ∃ r, issueWith f body s = .next (w.endTurn (s.gangOf g) r) := by
    rcases hend with h1 | ⟨-, h1⟩
    · exact h1
    · have hmem : y.g.gid ∈ (s.fates f body (s.gangOf g)).map (·.1) := by rw [fates_members]; exact (h.cx hy).2
      obtain ⟨e, hef, hey⟩ := List.mem_map.mp hmem
      exact absurd ((hfates e hef).2 hey) (by rw [h1 e hef]; decide)
  have hre : Rebooked g.bid w (w.endTurn (s.gangOf g) r) := endTurn_rebooked w r fun m hm g' hg' => (place m hm g' hg').1
  have hre' := hbw.rebooked hre
  obtain ⟨gt, hgt, hgtb⟩ : ∃ gt, (w.endTurn (s.gangOf g) r).group? y.g.gid = some gt ∧ gt.bare = g0.bare := by
    have := hre.groups y.g.gid
    rw [hgy] at this
    obtain ⟨gt, h1, h2⟩ := Option.map_eq_some_iff.mp this
    exact ⟨gt, h1, h2.trans hbare⟩
  have gtE : Entered y.g gt y.c.ctl.hentry cause detail lanes := by
    rw [eq_of_bare hgtb]; exact hE.with_reserve _
  refine ⟨_, hr', ⟨⟨gt, hgt, gtE.pc, gtE.handler.1, gtE.mask, gtE.cause⟩, ?_, fun n hn => ?_⟩, ?_, fun x hx hxy => ?_⟩
  · exact endTurn_splits r place (h.cx hy).2 hgy hgh hb' hq'
  · rw [hre'.groups, hr.rest n hn]
  · have e : (w.endTurn (s.gangOf g) r).still.churn = (s.settleAll f body (s.gangOf g)).still.churn := congrArg State.churn hre'.still
    exact Eq.trans e hr.along.churn
  · obtain ⟨g1, h1, -, -, h2⟩ := hr.members x hx (h.cx hx).2
    exact ⟨g1, h2 hxy, by rw [hre'.groups, h1]; rfl⟩

theorem gangTraps : GangTraps := by
  intro i f sh s g xs y hi h hy hsk hem hh he hx
  obtain ⟨body, hexec, hb⟩ := results_later hi
  obtain ⟨t, h1, h2, -, h3⟩ := gang_splits (body := attempt f noPre body) (cause := 0x03) (detail := y.emptyTrap.1)
    (lanes := y.emptyTrap.2) h hy (sampledSpace_plain (resultRow_plain hi)) hh he
    (fun x g' => g' = (x.g.finished f.dst (sh x).1 (sh x).2).retired f (s.weightOf f) none) (fun z hz => by
      have hm : z.emptyTrap = y.emptyTrap := hz.alike.emptyTrap hz.block
      unfold attempt
      rw [hz.found]
      show z.gate noPre body = _
      simp only [Cx.gate, noPre, hz.alike.skipped, hsk, hm, ne_eq, hem, not_false_eq_true, Bool.false_eq_true, if_false, if_true]
      rfl) (by
      intro x hxs hxy z hl
      obtain ⟨ha, hr, hq⟩ := hx x hxs hxy
      rw [hb hl (cx?_spec (h.cx hxs).1).1 ha]
      obtain ⟨v, hv, hgo, hcore, hgr⟩ := finish_later hl (sh x).2 hr hq
      have hvx : v.group? x.g.gid = some (x.g.finished f.dst (sh x).1 (sh x).2) := by rw [hgr, if_pos rfl]
      have aside : Aside x.g.gid z.s v := ⟨along_still hgo.still (fun d => by rw [block?_congr hgo.blocks]) fun n => by
          rw [hgr]
          split
          · next e => rw [e, hl.group]; exact congrArg some hcore
          · rfl, fun n hn => by rw [hgr, if_neg hn]⟩
      have hw : v.weightOf f = s.weightOf f := by
        unfold State.weightOf
        rw [aside.weights, hl.along.weights]
      have results : (v.retire x.g.gid f none).still.results = z.s.still.results :=
        congrArg State.results ((retires_retire v x.g.gid f none).still.trans hgo.still)
      rw [hv]
      refine ⟨⟨rfl, rfl⟩, aside.trans (aside_retire ..), results,
        (x.g.finished f.dst (sh x).1 (sh x).2).retired f (s.weightOf f) none, ?_,
        (finished_same x.g f.dst (sh x).1 (sh x).2).trans ⟨rfl, rfl, rfl, rfl⟩, rfl⟩
      show (v.retire x.g.gid f none).group? x.g.gid = _
      rw [retire_group?, if_pos rfl, hvx, ← hw]; rfl)
  refine ⟨t, (hexec s).trans h1, h2, fun x hxs hxy => ?_⟩
  obtain ⟨g', rfl, h5⟩ := h3 x hxs hxy
  exact ⟨_, wrote_shares ((resultRow_results hi).nodup x) ((resultRow_results hi).lt x), h5⟩

/-- Settles O13. -/
theorem issueGates : Obligations.IssueGates :=
  ⟨skippedInstructions, emptySourcesTrap, heldBackWaits, gangResults, gangHolds, gangTraps⟩

end Sys2Proof.Machine
end


section
/-! Rendezvous (R138, R159, R160): SHFL.g of a group by itself and of a gang; MMA.q of a group by itself (R235, R242). -/

namespace Sys2Proof.Machine

open Sys2Proof

/-! SHFL.g -/

theorem shflG_issues (w : W) (m : IntMod) (s : State) :
    exec (.shflG w m) s = issue (w.fields 0xB7 m.bits) rendezvousPre (shflGBody m.var.val s) s := rfl

theorem rendezvousPre_unconverged {x : Cx} (h : x.g.converged = false) : rendezvousPre x = some (.trap trapIllegal 12 x.act) := by
  unfold rendezvousPre
  rw [h]; rfl

theorem rendezvousPre_partial {x : Cx} (h1 : x.g.converged = true) (h2 : x.wholeQuartet = false) :
    rendezvousPre x = some (.trap trapIllegal 13 x.act) := by
  unfold rendezvousPre
  rw [h1, h2]; rfl

theorem rendezvousPre_split {x : Cx} (h1 : x.g.converged = true) (h2 : x.wholeQuartet = true) (h3 : x.s.fusedGroup x.g = false) :
    rendezvousPre x = some .hold := by
  unfold rendezvousPre
  rw [h1, h2, h3]; rfl

theorem rendezvousPre_fused {x : Cx} (h1 : x.g.converged = true) (h2 : x.wholeQuartet = true) (h3 : x.s.fusedGroup x.g = true) :
    rendezvousPre x = none := by
  unfold rendezvousPre
  rw [h1, h2, h3]; rfl

/-- What an instruction's early checks answer, where it is not skipped. -/
theorem gate_early {x : Cx} {pre : Cx → Option Fate} {body : Cx → Fate} {r : Fate} (hs : x.skipped = false) (hp : pre x = some r) :
    x.gate pre body = r := by
  unfold Cx.gate
  rw [hs, hp]; rfl

theorem shufflesMeet : ShufflesMeet := by
  intro w m s x h hs
  refine ⟨fun h1 => ?_, fun h1 h2 => ?_, fun h1 h2 => ?_⟩
  · exact issue_trap (shflG_issues w m s) h (gate_early hs (rendezvousPre_unconverged h1))
  · exact issue_trap (shflG_issues w m s) h (gate_early hs (rendezvousPre_partial h1 h2))
  · obtain ⟨hxs, -⟩ := h.spec
    exact issue_hold (shflG_issues w m s) h (gate_early hs (rendezvousPre_split h1 h2 (hxs ▸ h.alone)))

theorem Cx.Alike.gangShares {x y : Cx} (h : x.Alike y) (var : Nat) (gang : List Group) :
    Machine.gangShares var gang y = Machine.gangShares var gang x := by
  unfold Machine.gangShares
  simp only [h.threads, h.g, h.f, h.spec, h.getB]

theorem Cx.Alike.wholeQuartet {x y : Cx} (h : x.Alike y) : y.wholeQuartet = x.wholeQuartet := by
  unfold Cx.wholeQuartet
  rw [h.g, h.nthr]

/-- A member's quartet stays fused while the gang issues. -/
theorem fusedGroup_along {s u : State} (h : Along s u) (g : Group) : u.fusedGroup g = s.fusedGroup g := by
  unfold State.fusedGroup
  have hb := h.blocks g.bid
  cases hs : s.block? g.bid with
  | none =>
    rw [hs, Option.map_none, Option.map_eq_none_iff] at hb
    rw [hb]
  | some b =>
    rw [hs] at hb
    obtain ⟨b', h1, h2⟩ := Option.map_eq_some_iff.mp hb
    have e : b'.uncounted.fused = b.uncounted.fused := congrArg Block.fused h2
    rw [h1]
    simp only [show b'.fused = b.fused from e]

theorem gangShares_threads (var : Nat) (gang : List Group) (x : Cx) : (gangShares var gang x).map (·.t) = x.threads :=
  map_thread fun _ => rfl

theorem causesOf_zero {ps : List Share} (h : ∀ p ∈ ps, p.causes = 0) : causesOf ps = 0 := by
  unfold causesOf
  suffices key : ∀ m : Causes, ps.foldl (fun (m : Causes) p => m ||| p.causes) m = m from key 0
  induction ps with
  | nil => exact fun _ => rfl
  | cons p ps ih =>
    intro m
    rw [List.foldl_cons, h p (List.mem_cons_self ..), ih fun q hq => h q (List.mem_cons_of_mem _ hq)]
    exact BitVec.or_zero

theorem gangShares_causes (var : Nat) (gang : List Group) (x : Cx) : causesOf (gangShares var gang x) = 0 :=
  causesOf_zero fun p hp => by
    obtain ⟨t, -, rfl⟩ := List.mem_map.mp hp
    rfl

theorem settled_start (g : Group) : g.settled 0 Draw.start = g := by
  unfold Group.settled
  rw [show (BitVec.zeroExtend 32 (0 : Causes)) = (0 : Word) from rfl, show g.fpstat ||| (0 : Word) = g.fpstat from BitVec.or_zero]
  rfl

theorem shufflesExchange : ShufflesExchange := by
  intro w m s g xs h hx
  obtain ⟨u, t, h1, h2, h3, h4, h5, h6⟩ := gang_completes
    (body := attempt (w.fields 0xB7 m.bits) rendezvousPre (shflGBody m.var.val s)) h
    (fun x => x.g.finished (w.fields 0xB7 m.bits).dst (gangShares m.var.val (s.quartetOf x.g) x) Draw.start)
    (fun x _ => finished_same ..) (by
      intro x hxs y hl
      obtain ⟨ha, hc, hq, hr⟩ := hx x hxs
      obtain ⟨hcx, -⟩ := h.cx hxs
      have pre : rendezvousPre y = none := rendezvousPre_fused (by rw [hl.alike.g]; exact hc) (hl.alike.wholeQuartet.trans hq)
        (by rw [hl.alike.g, fusedGroup_along hl.along]; exact h.fused_member hxs)
      have body : shflGBody m.var.val s y = y.finish (gangShares m.var.val (s.quartetOf x.g) x) Draw.start := by
        rw [← hl.alike.gangShares, ← hl.alike.g]
        rfl
      unfold attempt
      rw [hl.found]
      show ∃ v, y.gate rendezvousPre (shflGBody m.var.val s) = _ ∧ _
      rw [gate_pre (hl.acts (cx?_spec hcx).1 ha) pre, body]
      exact finish_later hl _ hr (by unfold Cx.quiet; rw [gangShares_causes]; exact BitVec.zero_and))
  refine ⟨u, t, h1, h2, h3, h4, h5, fun x hxs => ⟨_, h6 x hxs, ?_⟩⟩
  obtain ⟨hcx, -⟩ := h.cx hxs
  obtain ⟨-, -, -, -, hf, -⟩ := cx?_spec hcx
  have wrote := wrote_shares (dst := x.f.dst) (ps := gangShares m.var.val (s.quartetOf x.g) x) (g := x.g)
    (by rw [gangShares_threads]; exact threads_nodup _)
    (fun p hp => threads_lt (show p.t ∈ x.threads by
      rw [← gangShares_threads m.var.val (s.quartetOf x.g)]; exact List.mem_map.mpr ⟨p, hp, rfl⟩))
  have start := settled_start x.g
  unfold Group.settled at start
  unfold Group.finished
  rw [gangShares_causes]
  rw [hf] at wrote ⊢
  rw [start]
  exact wrote

/-- Settles O40. -/
theorem gangShuffles : Obligations.GangShuffles := ⟨shufflesExchange, shufflesMeet⟩

/-! MMA.q of a group by itself -/

theorem mma_issues {i : Instr} {w : W} (hi : i = .mmaQ w ∨ i = .mmaQImage w) (s : State) :
    exec i s = issueWith (w.fields 0xF0 0) (mmaFate (w.fields 0xF0 0) s) s := by
  rcases hi with rfl | rfl <;> rfl

/-- A stage at which no member traps. -/
theorem mmaTraps_none {xs : List Cx} {st : Nat} {rest : List Nat} (h : ∀ x ∈ xs, x.mmaTrap st = none) :
    mmaTraps xs (st :: rest) = mmaTraps xs rest := by
  have none : (xs.filterMap fun x => (x.mmaTrap st).map fun r => (x.g.gid, r)) = [] :=
    List.filterMap_eq_nil_iff.mpr fun x hx => by rw [h x hx]; rfl
  unfold mmaTraps
  simp only [none, List.isEmpty_nil, if_true]
  cases rest <;> rfl

/-- The stage at which a member traps first. -/
theorem mmaTraps_some {xs : List Cx} {st : Nat} {rest : List Nat} {x : Cx} (hx : x ∈ xs) (h : (x.mmaTrap st).isSome = true) :
    mmaTraps xs (st :: rest) = xs.filterMap fun x => (x.mmaTrap st).map fun r => (x.g.gid, r) := by
  obtain ⟨r, hr⟩ := Option.isSome_iff_exists.mp h
  have mem : (x.g.gid, r) ∈ xs.filterMap fun x => (x.mmaTrap st).map fun r => (x.g.gid, r) :=
    List.mem_filterMap.mpr ⟨x, hx, by rw [hr]; rfl⟩
  unfold mmaTraps
  simp only [List.isEmpty_iff, List.ne_nil_of_mem mem, if_false]

theorem mmaFate_solo {s : State} {f : Fields} {x : Cx} (h : Solo s f x) :
    mmaFate f s s x.g.gid = match s.mmaGang [x] x.g.core with
      | .traps l => match l.find? fun e => e.1 == x.g.gid with
        | some e => e.2
        | none => .park s []
      | .hold => .hold
      | .go => .done (s.acceptMma x [x.g]) none true := by
  obtain ⟨it, rest, -, hcx⟩ := h.head
  obtain ⟨-, hg, -⟩ := h.spec
  have hgid := group?_gid (cx?_spec hcx).2.1
  rw [← hgid] at hcx
  have gang : s.gangOf x.g = [x.g.gid] := by unfold State.gangOf; rw [h.alone]; rfl
  unfold mmaFate
  simp only [hcx, gang, List.filterMap_cons, hg, List.filterMap_nil] <;> rfl

/-- MMA.q of a group that a check of its own stops. -/
theorem mmaFate_own {s : State} {f : Fields} {x : Cx} (h : Solo s f x) {c : BitVec 8} {d : Nat} {l : Mask}
    (hp : mmaPre x = some (.trap c d l)) : mmaFate f s s x.g.gid = .trap c d l := by
  have own : mmaTraps [x] [0] = [(x.g.gid, .trap c d l)] := by
    rw [mmaTraps_some (List.mem_singleton_self x) (by unfold Cx.mmaTrap; simp only [hp]; rfl)]
    simp only [List.filterMap_cons, Cx.mmaTrap, hp, List.filterMap_nil, Option.map_some]
  rw [mmaFate_solo h]
  unfold State.mmaGang
  simp only [own, List.isEmpty_cons, Bool.not_false, if_true, List.find?_cons, beq_self_eq_true]

theorem mmaFate_waits {s : State} {f : Fields} {x : Cx} (h : Solo s f x) (hp : mmaPre x = some .hold) :
    mmaFate f s s x.g.gid = .hold := by
  have own : mmaTraps [x] [0] = [] := by
    rw [mmaTraps_none fun y hy => by rw [List.mem_singleton.mp hy]; unfold Cx.mmaTrap; simp only [hp]]
    rfl
  rw [mmaFate_solo h]
  unfold State.mmaGang
  simp only [own, List.isEmpty_nil, Bool.not_true, Bool.false_eq_true, if_false, List.any_cons, hp, Option.isSome_some, Bool.true_or,
    if_true]

/-- A trap of a group by itself, whatever its attempt is made of. -/
theorem issueWith_trap {i : Instr} {f : Fields} {body : State → Nat → Fate} {s : State} {x : Cx} {cause : BitVec 8} {detail : Nat}
    {lanes : Mask} (he : exec i s = issueWith f body s) (h : Solo s f x) (hx : body s x.g.gid = .trap cause detail lanes) :
    Traps i s x cause detail lanes := by
  obtain ⟨it, rest, ht, hcx⟩ := h.head
  obtain ⟨-, hg, -, -, hf, -⟩ := cx?_spec hcx
  have hgid := group?_gid hg
  unfold Traps
  rw [he, hf]
  refine issueWith_solo ht hg h.alone (by rw [← hgid] at hg ⊢; rw [hx]; unfold State.settle; simp only [hg]; rfl) ?_
  intro g' hg'
  rw [← hgid] at hg hg'
  refine fusedGroup_takeTrap (s := s.trapping x.g.gid f) (g := x.g)
    (g' := { x.g with stay := false, stayDone := false, reissue := false })
    ((group?_congr (trapping_groups ..) _).trans hg) ⟨rfl, rfl, rfl, rfl⟩ ?_ g' hg'
  exact (fusedGroup_same (trapping_blocks ..) rfl rfl rfl).trans h.alone

theorem issueWith_hold {i : Instr} {f : Fields} {body : State → Nat → Fate} {s : State} {x : Cx} (he : exec i s = issueWith f body s)
    (h : Solo s f x) (hx : body s x.g.gid = .hold) : HoldsBack i s x (waitKind f false) := by
  obtain ⟨it, rest, ht, hcx⟩ := h.head
  obtain ⟨-, hg, -⟩ := cx?_spec hcx
  have hgid := group?_gid hg
  unfold HoldsBack
  rw [he]
  refine issueWith_solo ht hg h.alone
    (by rw [← hgid] at hg ⊢; rw [hx]; unfold State.settle State.modGroup; simp only [hg, h.alone]) ?_
  intro g' hg'
  rw [← hgid] at hg hg'
  rw [group?_setGroup hg (await_same ..).gid, Option.some.injEq] at hg'
  subst hg'
  exact (fusedGroup_same rfl (await_same ..).spawned (await_same ..).bid (await_same ..).num).trans h.alone

theorem matrixMeets : MatrixMeets := by
  intro i w s x hi h
  have he := mma_issues hi s
  obtain ⟨hxs, -⟩ := h.spec
  have past : x.f.gidx = 0 → x.badTile x.f.dst = false → mmaPre x = rendezvousPre x := fun h1 h2 => by
    unfold mmaPre
    rw [h1, h2]; rfl
  refine ⟨fun h1 => ?_, fun h1 h2 => ?_, fun h1 h2 => ⟨fun h3 => ?_, fun h3 h4 => ?_, fun h3 h4 => ?_⟩⟩
  · exact issueWith_trap he h (mmaFate_own h (by unfold mmaPre; rw [if_pos h1]; rfl))
  · exact issueWith_trap he h (mmaFate_own h (by unfold mmaPre; rw [if_neg (by rw [h1]; decide), if_pos h2]; rfl))
  · exact issueWith_trap he h (mmaFate_own h ((past h1 h2).trans (rendezvousPre_unconverged h3)))
  · exact issueWith_trap he h (mmaFate_own h ((past h1 h2).trans (rendezvousPre_partial h3 h4)))
  · exact issueWith_hold he h (mmaFate_waits h ((past h1 h2).trans (rendezvousPre_split h3 h4 (hxs ▸ h.alone))))

end Sys2Proof.Machine
end


section
/-! MMA.q in a fused quartet (R137, R235 to R237, R242, R243): one attempt for the gang, which traps in some members, waits, or is accepted
by the churn. -/

namespace Sys2Proof.Machine

open Sys2Proof

/-! The gang's attempt -/

theorem members_groups {s : State} {f : Fields} : ∀ {ms : List Nat} {xs : List Cx}, ms.map (fun m => s.cx? m f) = xs.map some →
    ms.filterMap s.group? = xs.map (·.g) ∧ ms = xs.map (·.g.gid)
  | [], [], _ => ⟨rfl, rfl⟩
  | [], _ :: _, h => nomatch h
  | _ :: _, [], h => nomatch h
  | m :: ms, x :: xs, h => by
    rw [List.map_cons, List.map_cons, List.cons.injEq] at h
    obtain ⟨h1, h2⟩ := h
    obtain ⟨-, hg, -⟩ := cx?_spec h1
    obtain ⟨k1, k2⟩ := members_groups h2
    refine ⟨?_, ?_⟩
    · rw [List.filterMap_cons, hg, List.map_cons, k1]
    · rw [List.map_cons, ← k2, group?_gid hg]

theorem contexts_of_groups {s : State} {f : Fields} : ∀ {xs : List Cx}, (∀ x ∈ xs, s.cx? x.g.gid f = some x) →
    (xs.map (·.g)).filterMap (fun g => s.cx? g.gid f) = xs
  | [], _ => rfl
  | x :: xs, h => by
    rw [List.map_cons, List.filterMap_cons, h x (List.mem_cons_self ..)]
    simp only
    rw [contexts_of_groups fun y hy => h y (List.mem_cons_of_mem _ hy)]

section
variable {s : State} {f : Fields} {g : Group} {xs : List Cx} (h : Ganged s f g xs)
include h

/-- The gang is that of each of its members. -/
theorem Ganged.gangOf_member {x : Cx} (hx : x ∈ xs) : s.gangOf x.g = s.gangOf g := by
  obtain ⟨h1, h2, h3, -⟩ := h.block x hx
  have hs : g.spawned = false := by
    have hf := h.fused
    unfold State.fusedGroup at hf
    simp only [Bool.and_eq_true, Bool.not_eq_true'] at hf
    exact hf.1
  have quartet : s.quartetOf x.g = s.quartetOf g := by
    unfold State.quartetOf
    rw [h1, h2, h3, hs, if_neg (by decide), if_neg (by decide)]
  unfold State.gangOf
  rw [h.fused_member hx, h.fused, if_pos rfl, if_pos rfl, quartet]

theorem Ganged.groups : (s.gangOf g).filterMap s.group? = xs.map (·.g) := (members_groups h.found).1

theorem Ganged.gids : s.gangOf g = xs.map (·.g.gid) := (members_groups h.found).2

/-- What MMA.q comes to in a member is what the gang's attempt says of it, whatever the other members have done before. -/
theorem mmaFate_member {x : Cx} (hx : x ∈ xs) (u : State) :
    mmaFate f s u x.g.gid = match s.mmaGang xs g.core with
      | .traps l => match l.find? fun e => e.1 == x.g.gid with
        | some e => e.2
        | none => .park u []
      | .hold => .hold
      | .go => .done (u.acceptMma x ((s.gangOf g).filterMap s.group?)) none true := by
  obtain ⟨hcx, -⟩ := h.cx hx
  obtain ⟨-, -, -, hcore⟩ := h.block x hx
  unfold mmaFate
  simp only [hcx, h.gangOf_member hx, h.groups, hcore, contexts_of_groups fun y hy => (h.cx hy).1] <;> rfl

end

/-! Stages of R242 that no member traps at -/

theorem mmaTrap_own {x : Cx} (h : mmaPre x = none) : x.mmaTrap 0 = none := by
  unfold Cx.mmaTrap
  simp only [h]

theorem mmaTrap_full {x : Cx} (h : x.emptyTrap.1 = 0) : x.mmaTrap 1 = none := by
  unfold Cx.mmaTrap
  simp only [h, ne_eq, not_true_eq_false, if_false]

theorem mmaTrap_empty {x : Cx} (h : x.emptyTrap.1 ≠ 0) : x.mmaTrap 1 = some (.trap trapEmpty x.emptyTrap.1 x.emptyTrap.2) := by
  unfold Cx.mmaTrap
  simp only [h, ne_eq, not_false_eq_true, if_true]

/-- A format block that can be read, with its records in shared memory, traps at none of the later stages. -/
theorem mmaTraps_late {xs : List Cx} (h : ∀ x ∈ xs, ∃ fb, x.fmtWords.bind readFmt = some fb ∧ fb.recordsIn x.b.shmem = true) :
    mmaTraps xs [2, 3, 4] = [] := by
  have two : ∀ x ∈ xs, x.mmaTrap 2 = none := fun x hx => by
    obtain ⟨fb, hfb, -⟩ := h x hx
    obtain ⟨ws, hws, -⟩ := Option.bind_eq_some_iff.mp hfb
    unfold Cx.mmaTrap
    rw [hws]; rfl
  have three : ∀ x ∈ xs, x.mmaTrap 3 = none := fun x hx => by
    obtain ⟨fb, hfb, -⟩ := h x hx
    unfold Cx.mmaTrap
    rw [hfb]; rfl
  have four : ∀ x ∈ xs, x.mmaTrap 4 = none := fun x hx => by
    obtain ⟨fb, hfb, hrec⟩ := h x hx
    unfold Cx.mmaTrap
    simp only [hfb, hrec, if_true]
  rw [mmaTraps_none two, mmaTraps_none three, mmaTraps_none four]
  rfl

theorem mmaTraps_own {xs : List Cx} (h : ∀ x ∈ xs, mmaPre x = none) : mmaTraps xs [0] = [] := by
  rw [mmaTraps_none fun x hx => mmaTrap_own (h x hx)]
  rfl

theorem mmaTraps_full {xs : List Cx} (h : ∀ x ∈ xs, x.emptyTrap.1 = 0) : mmaTraps xs [1] = [] := by
  rw [mmaTraps_none fun x hx => mmaTrap_full (h x hx)]
  rfl

theorem met_of_pre {xs : List Cx} (h : ∀ x ∈ xs, mmaPre x = none) : (xs.any fun x => (mmaPre x).isSome) = false :=
  List.any_eq_false.mpr fun x hx => by rw [h x hx]; decide

/-! A member traps EMPTY -/

/-- The gang's attempt in which members find a source with EF = 1 empty: these trap. -/
theorem mmaGang_empty {s : State} {xs : List Cx} {core : Nat} (hpre : ∀ x ∈ xs, mmaPre x = none) {y : Cx} (hy : y ∈ xs)
    (he : y.emptyTrap.1 ≠ 0) :
    s.mmaGang xs core = .traps (xs.filterMap fun x => (x.mmaTrap 1).map fun r => (x.g.gid, r)) := by
  have some_ : (y.mmaTrap 1).isSome = true := by rw [mmaTrap_empty he]; rfl
  have mem : (y.g.gid, Fate.trap trapEmpty y.emptyTrap.1 y.emptyTrap.2) ∈ xs.filterMap fun x => (x.mmaTrap 1).map fun r => (x.g.gid, r) :=
    List.mem_filterMap.mpr ⟨y, hy, by rw [mmaTrap_empty he]; rfl⟩
  have full : (xs.filterMap fun x => (x.mmaTrap 1).map fun r => (x.g.gid, r)).isEmpty = false := by
    rw [List.isEmpty_eq_false_iff]; exact List.ne_nil_of_mem mem
  unfold State.mmaGang
  simp only [mmaTraps_own hpre, met_of_pre hpre, mmaTraps_some hy some_, full, List.isEmpty_nil, Bool.not_true, Bool.not_false,
    Bool.false_eq_true, if_false, if_true]

theorem sampledSpace_mma (w : W) : sampledSpace (w.fields 0xF0 0) = none := rfl

theorem matrixTraps : MatrixTraps := by
  intro i w s g xs y hi h hpre hy he hfull hh hen
  have gang := mmaGang_empty (s := s) (core := g.core) hpre hy he
  have only : ∀ x ∈ xs, ∀ e ∈ xs.filterMap (fun x => (x.mmaTrap 1).map fun r => (x.g.gid, r)), e.1 = x.g.gid →
      x = y ∧ e.2 = .trap trapEmpty y.emptyTrap.1 y.emptyTrap.2 := fun x hx e he' hex => by
    obtain ⟨z, hz, hzr⟩ := List.mem_filterMap.mp he'
    obtain ⟨r, hr, rfl⟩ := Option.map_eq_some_iff.mp hzr
    have hzx : z = x := h.eq_of_gid hz hx hex
    subst hzx
    by_cases hzy : z = y
    · subst hzy
      rw [mmaTrap_empty he, Option.some.injEq] at hr
      exact ⟨rfl, hr.symm⟩
    · rw [mmaTrap_full (hfull z hz hzy)] at hr
      exact absurd hr (by simp)
  have traps : ∀ u, mmaFate (w.fields 0xF0 0) s u y.g.gid = .trap trapEmpty y.emptyTrap.1 y.emptyTrap.2 := fun u => by
    rw [mmaFate_member h hy, gang]
    simp only
    cases hf : (xs.filterMap fun x => (x.mmaTrap 1).map fun r => (x.g.gid, r)).find? fun e => e.1 == y.g.gid with
    | none =>
      have := List.find?_eq_none.mp hf (y.g.gid, .trap trapEmpty y.emptyTrap.1 y.emptyTrap.2)
        (List.mem_filterMap.mpr ⟨y, hy, by rw [mmaTrap_empty he]; rfl⟩)
      exact absurd (beq_self_eq_true y.g.gid) this
    | some e => exact (only y hy e (List.mem_of_find?_eq_some hf) (by simpa using List.find?_some hf)).2
  have stands : ∀ x ∈ xs, x ≠ y → ∀ u, mmaFate (w.fields 0xF0 0) s u x.g.gid = .park u [] := fun x hx hxy u => by
    have none : ((xs.filterMap fun x => (x.mmaTrap 1).map fun r => (x.g.gid, r)).find? fun e => e.1 == x.g.gid) = none :=
      List.find?_eq_none.mpr fun e hem heq => hxy (only x hx e hem (by simpa using heq)).1
    rw [mmaFate_member h hx, gang]
    simp only [none]
  obtain ⟨t, h1, h2, h3, h4⟩ := gang_splits (body := mmaFate (w.fields 0xF0 0) s) (cause := 0x03) h hy (sampledSpace_mma w) hh hen
    (fun x g' => g' = x.g) (fun z _ => traps z.s) (fun x hx hxy z hl => by
      rw [stands x hx hxy]
      have same : z.s.settle x.g.gid (w.fields 0xF0 0) (.park z.s []) = z.s := by
        show (z.s.modGroup x.g.gid fun g => g.parkOn []) = z.s
        rw [modGroup_eq hl.group]
        exact setGroup_self hl.group
      rw [same]
      exact ⟨⟨rfl, rfl⟩, .refl _ _, rfl, x.g, hl.group, .refl _, rfl⟩)
  refine ⟨t, (mma_issues hi s).trans h1, h2, h3, fun x hx hxy => ?_⟩
  obtain ⟨g', rfl, h5⟩ := h4 x hx hxy
  exact h5

/-! All members wait -/

theorem matrixWaits : MatrixWaits := by
  intro i w s g xs hi h hpre hw
  have hold : s.mmaGang xs g.core = .hold := by
    have own := mmaTraps_own fun x hx => (hpre x hx).1
    have met := met_of_pre fun x hx => (hpre x hx).1
    have full := mmaTraps_full fun x hx => (hpre x hx).2
    unfold State.mmaGang
    simp only [own, met, full, List.isEmpty_nil, Bool.not_true, Bool.false_eq_true, if_false]
    by_cases hany : (xs.any fun x => x.heldBack || x.imageWaits) = true
    · rw [if_pos hany]
    · rw [if_neg hany]
      rcases hw with ⟨x, hx, hheld⟩ | ⟨hrec, hcap⟩
      · exact absurd (List.any_eq_true.mpr ⟨x, hx, by rw [hheld, Bool.true_or]⟩) hany
      · have over16 : decide (churnCap < (s.churn.filter fun o => o.core == g.core).length + 4) = true := decide_eq_true hcap
        simp only [mmaTraps_late hrec, List.isEmpty_nil, Bool.not_true, Bool.false_eq_true, if_false, over16, Bool.or_true, if_true]
  have fates := (settleAll_induct (f := w.fields 0xF0 0) (body := mmaFate (w.fields 0xF0 0) s) (ms := s.gangOf g) (s := s)
    (R := fun _ _ => True) (F := fun _ r => r.isHold = true) trivial (by
      intro done m rest u hms _
      obtain ⟨x, hx, rfl, -⟩ := h.next hms
      refine ⟨trivial, ?_⟩
      rw [mmaFate_member h hx, hold]
      rfl)).2
  have hmem : g.gid ∈ (s.fates (w.fields 0xF0 0) (mmaFate (w.fields 0xF0 0) s) (s.gangOf g)).map (·.1) := by
    rw [fates_members]; exact h.leads
  obtain ⟨e, he, -⟩ := List.mem_map.mp hmem
  rw [mma_issues hi]
  exact gang_waits h rfl ⟨e, he, fates e he⟩

/-! The churn accepts the gang's operations -/

theorem emptied_append (tiles : List Tile) (a b : List Nat) : emptied tiles (a ++ b) = emptied (emptied tiles a) b := List.foldl_append ..

/-- What the churn's acceptance of a member's operation leaves. -/
structure Accepted (s u : State) (f : Fields) (gang : List Group) (bid : Nat) (x : Cx) (v : State) : Prop where
  still : v.still = { u.still with churn := u.churn ++ (churnOpOf s f gang x).toList }
  groups : v.groups = u.groups
  block : ∀ b, u.block? bid = some b → v.block? bid = some { b with tiles := emptied b.tiles (tileNo x.g f.dst).toList }
  blocks : ∀ d, d ≠ bid → v.block? d = u.block? d

theorem acceptMma_accepted {s u : State} {f : Fields} {gang : List Group} {x : Cx} (hf : x.f = f)
    (hfb : (x.fmtWords.bind readFmt).isSome = true) (hc : u.cycle = s.cycle) :
    Accepted s u f gang x.b.bid x (u.acceptMma x gang) := by
  obtain ⟨fb, hfb⟩ := Option.isSome_iff_exists.mp hfb
  subst hf
  unfold State.acceptMma
  cases hn : tileNo x.g x.f.dst with
  | none =>
    have op : churnOpOf s x.f gang x = none := by unfold churnOpOf; simp only [hfb, hn]
    simp only [hfb]
    exact ⟨by rw [op, Option.toList_none, List.append_nil]; rfl, rfl, fun b hb => by rw [hb, hn]; rfl, fun _ _ => rfl⟩
  | some n =>
    have hid : ∀ b : Block, ({ b with tiles := b.tiles.modify n fun t => { t with empty := true } } : Block).bid = b.bid := fun _ => rfl
    simp only [hfb]
    refine ⟨?_, by rw [modBlock_groups]; rfl, fun b hb => ?_, fun d hd => block?_modBlock_ne hid hd⟩
    · unfold State.modBlock churnOpOf
      simp only [hfb, hn, ← hc]
      split <;> rfl
    · rw [block?_modBlock hid, hn]
      exact congrArg (·.map fun b : Block => { b with tiles := b.tiles.modify n fun t => { t with empty := true } }) hb

/-- The state after the members in `done`, the first ones of xs, have had their operations accepted and have retired. -/
structure Accepting (s : State) (bid : Nat) (f : Fields) (gang : List Group) (xs : List Cx) (done : List Nat) (u : State) : Prop where
  still : u.still = { s.still with churn := s.churn ++ (xs.take done.length).filterMap (churnOpOf s f gang) }
  rest : ∀ n, n ∉ done → u.group? n = s.group? n
  members : ∀ x ∈ xs, x.g.gid ∈ done → u.group? x.g.gid = some (x.g.retired f (s.weightOf f) none)
  block : ∀ b, s.block? bid = some b → u.block? bid = some { b with retcnt := b.retcnt + done.length,
                                                                    tiles := emptied b.tiles ((xs.take done.length).filterMap fun x => tileNo x.g f.dst) }
  blocks : ∀ d, d ≠ bid → u.block? d = s.block? d

theorem Accepting.step {s u : State} {f : Fields} {g : Group} {gang : List Group} {xs : List Cx} {done rest : List Nat} {x : Cx}
    (h : Ganged s f g xs) (a : Accepting s g.bid f gang xs done u) (hx : x ∈ xs) (hms : s.gangOf g = done ++ x.g.gid :: rest)
    (hm : x.g.gid ∉ done) (hfb : (x.fmtWords.bind readFmt).isSome = true) :
    Accepting s g.bid f gang xs (done ++ [x.g.gid]) ((u.acceptMma x gang).retire x.g.gid f none) := by
  obtain ⟨hcx, -⟩ := h.cx hx
  obtain ⟨-, -, hxb, -, hf, -⟩ := cx?_spec hcx
  obtain ⟨hbid, -⟩ := h.block x hx
  have hxbid : x.b.bid = g.bid := (block?_bid hxb).trans hbid
  have hcy : u.still.cycle = s.still.cycle := by rw [a.still]
  have acc := acceptMma_accepted (s := s) (u := u) (gang := gang) hf hfb hcy
  rw [hxbid] at acc
  set v := u.acceptMma x gang with hv
  have hvx : v.group? x.g.gid = some x.g := (group?_congr acc.groups _).trans ((a.rest _ hm).trans (h.group hx))
  have hret := retires_retire v x.g.gid f none
  have hw : v.weightOf f = s.weightOf f := by
    have e : v.still.weights = s.still.weights := by rw [acc.still, a.still]
    unfold State.weightOf
    rw [show v.weights = s.weights from e]
  have len : (done ++ [x.g.gid]).length = done.length + 1 := List.length_append
  have taken : xs.take (done.length + 1) = xs.take done.length ++ [x] := by
    have hget : (xs.map (·.g.gid))[done.length]? = some x.g.gid := by
      rw [← h.gids, hms, List.getElem?_append_right (Nat.le_refl _), Nat.sub_self]; rfl
    rw [List.getElem?_map] at hget
    obtain ⟨z, hz, hzx⟩ := Option.map_eq_some_iff.mp hget
    have hzm : z = x := h.eq_of_gid (List.mem_of_getElem? hz) hx hzx
    subst hzm
    rw [List.take_add_one, hz]; rfl
  have one : ∀ {β : Type} (p : Cx → Option β), (xs.take (done.length + 1)).filterMap p = (xs.take done.length).filterMap p ++ (p x).toList :=
    fun p => by
      rw [taken, List.filterMap_append, List.filterMap_cons, List.filterMap_nil]
      cases p x <;> rfl
  refine ⟨?_, fun n hn => ?_, fun z hz hzm => ?_, fun b hb => ?_, fun d hd => ?_⟩
  · have hch : u.still.churn = s.churn ++ (xs.take done.length).filterMap (churnOpOf s f gang) := by rw [a.still]
    rw [hret.still, acc.still, a.still, len, one, ← List.append_assoc, ← hch]
    rfl
  · rw [List.mem_append, List.mem_singleton, not_or] at hn
    rw [retire_group?, if_neg hn.2, group?_congr acc.groups]
    exact a.rest n hn.1
  · rw [retire_group?]
    rcases List.mem_append.mp hzm with hzd | hze
    · rw [if_neg (fun e : z.g.gid = x.g.gid => hm (e ▸ hzd)), group?_congr acc.groups]
      exact a.members z hz hzd
    · rw [List.mem_singleton] at hze
      rw [if_pos hze, hvx, h.eq_of_gid hz hx hze, hw]; rfl
  · have h1 := hret.block x.g _ hvx (by rw [hbid]; exact acc.block _ (a.block b hb))
    rw [hbid] at h1
    rw [h1, len, one, emptied_append]
    rfl
  · exact ((hret.blocks x.g d hvx (by rw [hbid]; exact hd)).trans (acc.blocks d hd)).trans (a.blocks d hd)

/-- A gang that goes has format blocks that can be read. -/
theorem readable_of_go {s : State} {xs : List Cx} {core : Nat} (h : s.mmaGang xs core = .go) {x : Cx} (hx : x ∈ xs) :
    (x.fmtWords.bind readFmt).isSome = true := by
  have late : mmaTraps xs [2, 3, 4] = [] := by
    unfold State.mmaGang at h
    dsimp only at h
    repeat (split at h; · cases h)
    next hl _ => simpa using hl
  cases hr : x.fmtWords.bind readFmt with
  | some _ => rfl
  | none =>
    have three : (x.mmaTrap 3).isSome = true := by
      unfold Cx.mmaTrap
      simp only [hr, Option.isNone_none, if_true, Option.isSome_some]
    have hits : ∀ st rest, (∃ z ∈ xs, (z.mmaTrap st).isSome = true) → mmaTraps xs (st :: rest) ≠ [] := fun st rest ⟨z, hz, hs⟩ => by
      obtain ⟨r, hr⟩ := Option.isSome_iff_exists.mp hs
      rw [mmaTraps_some hz hs]
      exact List.ne_nil_of_mem (List.mem_filterMap.mpr ⟨z, hz, by rw [hr]; rfl⟩)
    by_cases htwo : ∃ z ∈ xs, (z.mmaTrap 2).isSome = true
    · exact absurd late (hits 2 _ htwo)
    · rw [mmaTraps_none fun z hz => by
        cases hn : z.mmaTrap 2 with
        | none => rfl
        | some _ => exact absurd ⟨z, hz, by rw [hn]; rfl⟩ htwo] at late
      exact absurd late (hits 3 _ ⟨x, hx, three⟩)

/-- The state s with the members' operations in the churn and their tiles empty. -/
def State.accepts (s : State) (bid : Nat) (ops : List ChurnOp) (ns : List Nat) : State :=
  ({ s with churn := s.churn ++ ops } : State).modBlock bid fun b => { b with tiles := emptied b.tiles ns }

theorem accepts_still (s : State) (bid : Nat) (ops : List ChurnOp) (ns : List Nat) :
    (s.accepts bid ops ns).still = { s.still with churn := s.churn ++ ops } := by
  unfold State.accepts State.modBlock
  split <;> rfl

theorem accepts_group (s : State) (bid : Nat) (ops : List ChurnOp) (ns : List Nat) (n : Nat) :
    (s.accepts bid ops ns).group? n = s.group? n := by
  unfold State.accepts
  rw [group?_congr (modBlock_groups ..)]; rfl

theorem accepts_block {s : State} {bid : Nat} {b : Block} (hb : s.block? bid = some b) (ops : List ChurnOp) (ns : List Nat) :
    (s.accepts bid ops ns).block? bid = some { b with tiles := emptied b.tiles ns } := by
  unfold State.accepts
  rw [block?_modBlock (by intro; rfl)]
  exact congrArg (·.map fun b : Block => { b with tiles := emptied b.tiles ns }) hb

theorem accepts_blocks (s : State) {bid d : Nat} (hd : d ≠ bid) (ops : List ChurnOp) (ns : List Nat) :
    (s.accepts bid ops ns).block? d = s.block? d := block?_modBlock_ne (by intro; rfl) hd

theorem matrixAccepts : MatrixAccepts := by
  intro i w s g xs hi h hgo gang
  obtain ⟨hr, hfates⟩ := settleAll_induct (f := w.fields 0xF0 0) (body := mmaFate (w.fields 0xF0 0) s) (ms := s.gangOf g) (s := s)
    (R := Accepting s g.bid (w.fields 0xF0 0) gang xs) (F := fun _ r => r.isHold = false ∧ r.isStay = false)
    ⟨by rw [List.length_nil, List.take_zero, List.filterMap_nil, List.append_nil]; rfl, fun _ _ => rfl,
      fun _ _ hm => absurd hm List.not_mem_nil, fun b hb => hb, fun _ _ => rfl⟩ (by
      intro done m rest u hms a
      obtain ⟨x, hx, rfl, hm⟩ := h.next hms
      rw [mmaFate_member h hx, hgo]
      exact ⟨a.step h hx hms hm (readable_of_go hgo hx), rfl, rfl⟩)
  obtain ⟨v, hbv, hend⟩ := issueWith_gang (body := mmaFate (w.fields 0xF0 0) s) h
  rw [gangIssue_each fun e he => hfates e he] at hbv
  have place : ∀ m ∈ s.gangOf g, ∀ g', v.group? m = some g' → g'.bid = g.bid := fun m hm g' hg' => by
    obtain ⟨x, hx, rfl⟩ := h.member hm
    have hb := hbv.groups x.g.gid
    rw [hg', hr.members x hx hm, Option.map_some, Option.map_some, Option.some.injEq] at hb
    obtain ⟨hbid, -⟩ := h.block x hx
    exact (bare_bid hb).trans hbid
  obtain ⟨t, ht, hre⟩ : ∃ t, issueWith (w.fields 0xF0 0) (mmaFate (w.fields 0xF0 0) s) s = .next t ∧
      Rebooked g.bid (s.settleAll (w.fields 0xF0 0) (mmaFate (w.fields 0xF0 0) s) (s.gangOf g)) t := by
    rcases hend with ⟨r, hr'⟩ | ⟨hr', -⟩
    · exact ⟨_, hr', hbv.rebooked (endTurn_rebooked v r place)⟩
    · exact ⟨v, hr', hbv.to_rebooked⟩
  have all : xs.take (s.gangOf g).length = xs := by rw [h.gids, List.length_map, List.take_length]
  have still := hr.still
  have block := hr.block
  rw [all] at still
  simp only [all] at block
  set ops := xs.filterMap (churnOpOf s (w.fields 0xF0 0) gang)
  set ns := xs.filterMap fun x => tileNo x.g (w.fields 0xF0 0).dst
  have hw : (s.accepts g.bid ops ns).weightOf (w.fields 0xF0 0) = s.weightOf (w.fields 0xF0 0) := by
    have e : (s.accepts g.bid ops ns).still.weights = s.still.weights := by rw [accepts_still]
    unfold State.weightOf
    rw [show (s.accepts g.bid ops ns).weights = s.weights from e]
  refine ⟨s.accepts g.bid ops ns, t, (mma_issues hi s).trans ht, ⟨(hre.still.trans still).trans (accepts_still ..).symm,
    fun m hm g' hg' => ?_, fun n hn => ?_, fun b hb => ?_, fun d hd => ?_⟩, accepts_still .., accepts_group s _ _ _,
    fun d hd => accepts_blocks s hd _ _, fun b hb => accepts_block hb _ _⟩
  · obtain ⟨x, hx, rfl⟩ := h.member hm
    rw [accepts_group, h.group hx, Option.some.injEq] at hg'
    subst hg'
    rw [hre.groups, hr.members x hx hm, hw]
    rfl
  · rw [hre.groups, accepts_group, hr.rest n hn]
  · obtain ⟨b0, hb0, -⟩ := h.fused_block
    rw [accepts_block hb0, Option.some.injEq] at hb
    subst hb
    obtain ⟨b', h1, h2⟩ := hre.block _ (block b0 hb0)
    have h3 : ({ b' with fused := b0.fused } : Block) =
        { b0 with retcnt := b0.retcnt + (s.gangOf g).length, tiles := emptied b0.tiles ns } := h2
    refine ⟨b', h1, congrArg Block.retcnt h2, ?_⟩
    calc ({ b' with retcnt := b0.retcnt, fused := b0.fused } : Block)
        = { ({ b' with fused := b0.fused } : Block) with retcnt := b0.retcnt } := rfl
      _ = { b0 with tiles := emptied b0.tiles ns } := by rw [h3]
  · exact ((hre.blocks d hd).trans (hr.blocks d hd)).trans (accepts_blocks s hd _ _).symm

/-- Settles O41. -/
theorem matrixIssues : Obligations.MatrixIssues := ⟨matrixAccepts, matrixMeets, matrixTraps, matrixWaits⟩

end Sys2Proof.Machine
end


section
/-! The invariant of every step (R132, R175): turns at multiples of eight cycles, both memories in canonical form. Operations on the
state that keep it, and what an attempt's fate keeps. -/

namespace Sys2Proof.Machine

open Sys2Proof

/-- A state that has the cycle and the memories of one that meets the invariant. -/
theorem inv_of {s t : State} (h : s.Inv) (h1 : t.cycle = s.cycle) (h2 : t.dram = s.dram) (h3 : t.scratch = s.scratch) : t.Inv :=
  ⟨h1 ▸ h.cycle, h2 ▸ h.dram, h3 ▸ h.scratch⟩

theorem Calm.inv {s t : State} (k : Calm s t) (h : s.Inv) : t.Inv := ⟨k.cycle ▸ h.cycle, k.dram h.dram, k.scratch h.scratch⟩

theorem inv_foldl {α : Type} {step : State → α → State} (hstep : ∀ u a, u.Inv → (step u a).Inv) (l : List α) {s : State} (h : s.Inv) :
    (l.foldl step s).Inv := by
  induction l generalizing s with
  | nil => exact h
  | cons a l ih => exact ih (hstep s a h)

/-- A state that one of some steps finds, each tried on s. -/
theorem inv_findSome {α : Type} {try_ : α → Option State} {l : List α} {t : State} (hstep : ∀ a u, try_ a = some u → u.Inv)
    (ht : l.findSome? try_ = some t) : t.Inv := by
  obtain ⟨a, -, ha⟩ := List.exists_of_findSome?_eq_some ht
  exact hstep a t ha

section
variable {s : State} (h : s.Inv)
include h

theorem inv_setGroup (g : Group) : (s.setGroup g).Inv := inv_of h rfl rfl rfl
theorem inv_setBlock (b : Block) : (s.setBlock b).Inv := inv_of h rfl rfl rfl
theorem inv_setCtx (c : Ctx) : (s.setCtx c).Inv := inv_of h rfl rfl rfl
theorem inv_setGrid (g : Grid) : (s.setGrid g).Inv := inv_of h rfl rfl rfl
theorem inv_setPart (p : Part) : (s.setPart p).Inv := inv_of h rfl rfl rfl
theorem inv_setWindow (w : Window) : (s.setWindow w).Inv := inv_of h rfl rfl rfl
theorem inv_setCard (c : Card) : (s.setCard c).Inv := inv_of h rfl rfl rfl
theorem inv_fresh : s.fresh.2.Inv := inv_of h rfl rfl rfl
theorem inv_modGroup (n : Nat) (f : Group → Group) : (s.modGroup n f).Inv := (calm_modGroup s n f).inv h
theorem inv_modBlock (n : Nat) (f : Block → Block) : (s.modBlock n f).Inv := (calm_modBlock s n f).inv h
theorem inv_modCtx (n : Nat) (f : Ctx → Ctx) : (s.modCtx n f).Inv := (calm_modCtx s n f).inv h
theorem inv_count (core event ctx n : Nat) : (s.count core event ctx n).Inv := (calm_count ..).inv h
theorem inv_ran (u : StopUnit) (ctx : Nat) : (s.ran u ctx).Inv := (calm_ran ..).inv h
theorem inv_halt (die : Nat) (c : BitVec 8) (u : StopUnit) (a : Nat) : (s.halt die c u a).Inv := (calm_halt ..).inv h
theorem inv_unhold (n : Nat) : (s.unhold n).Inv := (calm_unhold ..).inv h

theorem inv_log (ctx cause fpc : Nat) (lanes : Mask) (pc : Nat) (name : Name) (group detail : Nat) :
    (s.log ctx cause fpc lanes pc name group detail).Inv := (calm_log ..).inv h

theorem inv_traceEvent (ctx event core slice other : Nat) (name : Name) (group pc v : Nat) :
    (s.traceEvent ctx event core slice other name group pc v).Inv := (calm_traceEvent ..).inv h

theorem inv_deliver (g : Group) (r : TrapRec) (q : List TrapRec) : (s.deliver g r q).Inv := by
  unfold State.deliver
  split
  · exact h
  · split
    · exact h
    · split
      · exact inv_halt h ..
      · exact inv_traceEvent (inv_count (inv_setGroup h _) ..) ..

theorem inv_takeTrap (g : Group) (r : TrapRec) : (s.takeTrap g r).Inv := by
  unfold State.takeTrap
  split
  · exact inv_halt h ..
  · exact inv_deliver h ..

theorem inv_queueTrap (g : Group) (r : TrapRec) : (s.queueTrap g r).Inv := by
  unfold State.queueTrap
  split
  · exact inv_deliver h ..
  · split
    · exact inv_halt h ..
    · exact inv_setGroup h _

theorem inv_retire (m : Nat) (f : Fields) (pc : Option VA) : (s.retire m f pc).Inv := by
  have hr : (s.retire m f pc).still = s.still := (retires_retire ..).still
  have same : ∀ {α : Type} (p : State → α), p (s.retire m f pc).still = p s.still := fun p => congrArg p hr
  exact inv_of h (same State.cycle) (same State.dram) (same State.scratch)

theorem inv_sampleTick (c : Ctx) (g : Group) (m : Mask) : (s.sampleTick c g m).2.Inv := (calm_sampleTick ..).inv h

theorem inv_sampleTrap (n : Nat) (f : Fields) : (s.sampleTrap n f).Inv := by
  unfold State.sampleTrap
  split
  · split
    · exact h
    · exact inv_sampleTick h ..
  · exact h

theorem inv_stopAt (g : Group) (r : TrapRec) : (s.stopAt g r).Inv := by
  unfold State.stopAt
  split
  · exact inv_setGroup h _
  · exact inv_takeTrap h ..

end

/-! Attempts -/

/-- What a fate carries out keeps the invariant. -/
def Fate.Keeps : Fate → Prop
  | .done s _ _ => s.Inv
  | .stay s => s.Inv
  | .met now s => now.Inv ∧ s.Inv
  | .park s _ => s.Inv
  | _ => True

theorem keeps_ite {c : Prop} [Decidable c] {a b : Fate} (ha : a.Keeps) (hb : b.Keeps) : (if c then a else b).Keeps := by
  split
  · exact ha
  · exact hb

/-- The next state, if there is one, meets the invariant. -/
def Keeps (o : Host.Outcome State Fault Refusal) : Prop := ∀ t, o = .next t → t.Inv

theorem keeps_next {t : State} (h : t.Inv) : Keeps (.next t) := fun _ e => Host.Outcome.next.inj e ▸ h

theorem keeps_or {c : Prop} [Decidable c] {a b : Host.Outcome State Fault Refusal} (ha : Keeps a) (hb : Keeps b) :
    Keeps (if c then a else b) := by
  split
  · exact ha
  · exact hb

theorem inv_ite {c : Prop} [Decidable c] {s t : State} (hs : s.Inv) (ht : t.Inv) : (if c then s else t).Inv := by
  split
  · exact hs
  · exact ht

section
variable {s : State} (h : s.Inv)
include h

theorem inv_settle (m : Nat) (f : Fields) {r : Fate} (hr : r.Keeps) : (s.settle m f r).Inv := by
  cases r with
  | done u pc e => exact inv_retire hr ..
  | hold => exact inv_modGroup h ..
  | stay u => exact inv_modGroup hr ..
  | met now u => exact inv_retire hr.2 ..
  | park u tiles => exact inv_modGroup hr ..
  | trap c d l =>
    unfold State.settle
    dsimp only
    split
    · exact inv_takeTrap (inv_unhold (inv_sampleTrap h ..) _) ..
    · exact h
  | raise c d o =>
    unfold State.settle
    dsimp only
    split
    · split
      · split
        · exact inv_stopAt (inv_retire h ..) ..
        · exact inv_takeTrap (inv_retire h ..) ..
      · exact inv_retire h ..
    · exact h
  | brk d len =>
    unfold State.settle
    dsimp only
    split
    · exact inv_stopAt h ..
    · exact h
  | halt c a =>
    unfold State.settle
    dsimp only
    split
    · exact inv_halt h ..
    · exact h

theorem inv_settleAll {f : Fields} {body : State → Nat → Fate} (hb : ∀ u m, u.Inv → (body u m).Keeps) (ms : List Nat) :
    (s.settleAll f body ms).Inv := by
  induction ms generalizing s with
  | nil => exact h
  | cons m ms ih => exact ih (inv_settle h m f (hb s m h))

theorem inv_linger (m : Nat) (f : Fields) {r : Fate} (hr : r.Keeps) : (s.linger m f r).Inv := by
  unfold State.linger
  split
  · exact inv_settle h m f hr
  · exact inv_modGroup hr.1 ..
  · exact inv_modGroup h ..

theorem inv_gangIssue {f : Fields} {body : State → Nat → Fate} (hb : ∀ u m, u.Inv → (body u m).Keeps) (ms : List Nat) :
    (s.gangIssue f body ms).Inv := by
  unfold State.gangIssue
  split
  · exact inv_foldl (fun u m hu => inv_settle hu m f (r := .hold) trivial) ms h
  · exact inv_foldl (fun u m hu => inv_linger hu m f (hb u m hu)) ms h
  · exact inv_settleAll h hb ms

theorem inv_split (bid j : Nat) : (s.split bid j).Inv := inv_modBlock h ..

theorem inv_splitCheck (bid j : Nat) : (s.splitCheck bid j).Inv := by
  unfold State.splitCheck
  dsimp only
  split
  · exact h
  · exact inv_split h ..

theorem inv_endTurn (ms : List Nat) (r : Bool) : (s.endTurn ms r).Inv := by
  unfold State.endTurn
  split
  · exact h
  · next g _ =>
    split
    · exact h
    · have hc : (if s.fusedGroup g then s.splitCheck g.bid g.quartet else s).Inv := by
        split
        · exact inv_splitCheck h ..
        · exact h
      dsimp only
      generalize (if s.fusedGroup g = true then s.splitCheck g.bid g.quartet else s) = w at hc ⊢
      split
      · exact inv_of hc rfl rfl rfl
      · split
        · exact inv_of hc rfl rfl rfl
        · exact hc

theorem inv_countIdle (ms : List Nat) : (s.countIdle ms).Inv := by
  unfold State.countIdle
  refine inv_foldl (fun u m hu => ?_) ms h
  split
  · split
    · exact inv_count hu ..
    · exact hu
  · exact hu

theorem keeps_issueWith {f : Fields} {body : State → Nat → Fate} (hb : ∀ u m, u.Inv → (body u m).Keeps) :
    Keeps (issueWith f body s) := by
  unfold issueWith
  split
  · exact fun _ e => nomatch e
  · next it rest _ =>
    split
    · exact keeps_next (inv_of h rfl rfl rfl)
    · next g _ =>
      have hi := inv_gangIssue h hb (s.gangOf g) (f := f)
      dsimp only
      generalize hw : (if ((s.fates f body (s.gangOf g)).map (·.2)).all Fate.isHold = true then _ else _ : State) = w
      have hwi : w.Inv := by
        rw [← hw]
        split
        · exact hi
        · refine inv_foldl (fun u m hu => ?_) _ hi
          split
          · exact inv_ran hu ..
          · exact hu
      split
      · have hci : (if it.used = 0 then w.countIdle (idleMembers (s.gangWay (s.fates f body (s.gangOf g)))
            (s.fates f body (s.gangOf g))) else w).Inv := by
          split
          · exact inv_countIdle hwi _
          · exact hwi
        generalize (if it.used = 0 then _ else _ : State) = v at hci ⊢
        have hv : ({ v with turn := rest } : State).Inv := inv_of hci rfl rfl rfl
        exact keeps_next (inv_endTurn hv ..)
      · exact keeps_next (inv_of hwi rfl rfl rfl)

end

/-- Early checks that answer nothing but a trap or a hold. -/
def Stops (pre : Cx → Option Fate) : Prop := ∀ x r, pre x = some r → r = .hold ∨ ∃ c d l, r = .trap c d l

theorem stops_noPre : Stops noPre := fun _ _ e => nomatch e

/-- An instruction whose attempt keeps the invariant once its early checks are passed. -/
theorem keeps_issue {f : Fields} {pre : Cx → Option Fate} {body : Cx → Fate} {s : State} (h : s.Inv) (hp : Stops pre)
    (hb : ∀ x, x.f = f → x.s.Inv → (body x).Keeps) : Keeps (issue f pre body s) := by
  refine keeps_issueWith h fun u m hu => ?_
  unfold attempt
  split
  · next x hx =>
    obtain ⟨es, -, -, -, ef, -⟩ := cx?_spec hx
    have hxs : x.s.Inv := es ▸ hu
    unfold Cx.gate
    split
    · exact hxs
    · split
      · next r hr =>
        rcases hp x r hr with rfl | ⟨c, d, l, rfl⟩
        · trivial
        · trivial
      · split
        · trivial
        · split
          · trivial
          · exact hb x ef hxs
  · trivial

/-! What attempts do to the state -/

section
variable {s : State} (h : s.Inv)
include h

theorem inv_putResult (x : Cx) (kind : ResultKind) (ws : List RegW) (slots : List (Nat × DWord)) (words : Nat)
    (q : List (Nat × Word)) (c : List (Nat × Causes)) (tagged : Bool) : (s.putResult x kind ws slots words q c tagged).Inv :=
  (calm_putResult ..).inv h

theorem inv_commitNone (x : Cx) (dr : Draw) : (s.commitNone x dr).Inv := (calm_commitNone ..).inv h
theorem inv_commitDraws (x : Cx) (dr : Draw) : (s.commitDraws x dr).Inv := (calm_commitDraws ..).inv h

theorem inv_logFp (g : Group) (ctx : Nat) (c : Causes) (lanes : Mask) (pc : VA) : (s.logFp g ctx c lanes pc).Inv := by
  unfold State.logFp
  split
  · exact h
  · exact inv_log h ..

theorem inv_raiseFp (x : Cx) (per : List (Nat × Causes)) : (s.raiseFp x per).Inv := by
  unfold State.raiseFp
  dsimp only
  refine inv_logFp ?_ ..
  split
  · exact h
  · exact inv_modGroup h ..

end

theorem keeps_fpTrap {x : Cx} {per : List (Nat × Causes)} {r : Fate} (h : x.fpTrap per = some r) : r.Keeps := by
  obtain ⟨c, d, l, rfl⟩ := fpTrap_trap h
  trivial

theorem keeps_finish {x : Cx} (h : x.s.Inv) (ps : List Share) (dr : Draw) : (x.finish ps dr).Keeps := by
  rcases finish_cases x ps dr with e | ⟨c, d, l, e⟩ | e
  · rw [e]; exact inv_putResult (inv_commitNone h ..) ..
  · rw [e]; trivial
  · rw [e]; exact inv_modGroup (inv_commitDraws (inv_raiseFp h ..) ..) ..

/-- An instruction held in issue until its REJ draws end. -/
theorem keeps_rejHold {x : Cx} (h : x.s.Inv) {body : Cx → Fate} (hb : (body x).Keeps) : (x.rejHold body).Keeps := by
  unfold Cx.rejHold
  split
  · split
    · exact h
    · exact inv_modGroup (inv_putResult h ..) ..
  · exact hb

end Sys2Proof.Machine
end


section
/-! The invariant kept by the instructions of results (R74 to R98, R159 to R163), by those of one group (R99 to R108, R125, R151 to R158) and
by spawned work and child grids (R164 to R169). -/

namespace Sys2Proof.Machine

open Sys2Proof

section
variable {s : State} (h : s.Inv)
include h

theorem inv_joinPast (gids more : List Nat) : (s.joinPast gids more).Inv := inv_of h rfl rfl rfl
theorem inv_inherit (bid gid : Nat) : (s.inherit bid gid).Inv := inv_of h rfl rfl rfl

theorem inv_barrierCheck (bid : Nat) (arriving : Bool) : (s.barrierCheck bid arriving).Inv := by
  unfold State.barrierCheck
  split
  · exact h
  · split
    · exact inv_setBlock (inv_joinPast h ..) _
    · exact h

theorem inv_dropGroup (g : Group) : (s.dropGroup g).Inv := by
  have h1 := inv_joinPast (inv_modBlock h g.bid fun b => { b with energy := b.energy + g.energy }) [g.gid] [g.bid]
  unfold State.dropGroup
  dsimp only
  refine inv_barrierCheck ?_ ..
  exact inv_of h1 rfl rfl rfl

theorem inv_makeGrid (ctx : Nat) (d : GridDesc) (params : List Word) (depth : Nat) (cores : List Nat) (ptr : Nat) (parent : Option Nat)
    (proc thread : Word) : (s.makeGrid ctx d params depth cores ptr parent proc thread).2.Inv := by
  unfold State.makeGrid
  split
  · exact h
  · exact inv_of h rfl rfl rfl

end

/-! Instructions of results -/

theorem keeps_resultRow {i : Instr} {f : Fields} {sh : Cx → List Share × Draw} {s : State} (h : s.Inv) (hr : resultRow i = some (f, sh)) :
    Keeps (exec i s) := by
  obtain ⟨body, he, hbody⟩ := (resultRow_results hr).exec_eq
  rw [he]
  exact keeps_issue h stops_noPre fun x hf hx => hbody x hf ▸ keeps_finish hx ..

theorem keeps_sfu {fn : Nat → Nat × Causes} {x : Cx} (h : x.s.Inv) : (sfuBody fn x).Keeps := by
  unfold sfuBody
  dsimp only
  split
  · exact inv_putResult (inv_commitNone h ..) ..
  · exact inv_putResult (inv_commitDraws h ..) ..

theorem keeps_cmp {compute : DWord → DWord → Bool × Causes} {x : Cx} (h : x.s.Inv) : (cmpBody compute x).Keeps := by
  unfold cmpBody
  refine keeps_rejHold h ?_
  dsimp only
  split
  · next r hr =>
    split at hr
    · cases hr
    · exact keeps_fpTrap hr
  · exact inv_modGroup (inv_commitDraws (inv_raiseFp h ..) ..) ..

theorem keeps_gred {m : IntMod} {x : Cx} (h : x.s.Inv) : (gredBody m x).Keeps := by
  unfold gredBody
  dsimp only
  refine keeps_ite ?_ (keeps_finish h ..)
  · refine keeps_rejHold h ?_
    split
    · next r hr =>
      split at hr
      · cases hr
      · exact keeps_fpTrap hr
    · exact inv_modGroup (inv_commitDraws (inv_raiseFp h ..) ..) ..

/-! Special registers -/

theorem keeps_smpl {x : Cx} (h : x.s.Inv) : (smplBody x).Keeps := by
  unfold smplBody
  split
  · exact inv_modGroup h ..
  · split
    · exact inv_modGroup h ..
    · exact inv_putResult h ..

theorem keeps_getsr {n : Nat} {x : Cx} (h : x.s.Inv) : (getsrBody n x).Keeps := by
  unfold getsrBody
  split
  · exact keeps_smpl h
  · exact keeps_finish h ..

theorem keeps_setsr {n : Nat} {x : Cx} (h : x.s.Inv) : (setsrBody n x).Keeps :=
  keeps_rejHold h (inv_modGroup (inv_commitDraws h ..) ..)

/-! The control stack -/

theorem keeps_goto {x : Cx} (h : x.s.Inv) (m : Mask) (pc : VA) (stack : List Ctl) (ends : Bool) : (x.goto m pc stack ends).Keeps :=
  inv_modGroup h ..

theorem keeps_pushThen {x : Cx} (h : x.s.Inv) (e : Ctl) (m : Mask) (pc : VA) (ends : Bool) : (x.pushThen e m pc ends).Keeps := by
  unfold Cx.pushThen
  split
  · trivial
  · exact keeps_goto h ..

theorem keeps_braD {x : Cx} (h : x.s.Inv) : (braDBody x).Keeps := by
  unfold braDBody
  dsimp only
  exact keeps_ite h (keeps_ite (keeps_goto h ..) (keeps_pushThen h ..))

theorem keeps_ret {x : Cx} (h : x.s.Inv) : (retBody x).Keeps := by
  unfold retBody
  split
  · split
    · split
      · exact keeps_goto h ..
      · trivial
    · trivial
  · trivial

theorem keeps_join {x : Cx} (h : x.s.Inv) : (joinBody x).Keeps := by
  unfold joinBody
  split
  · split
    · trivial
    · split
      · exact keeps_goto h ..
      · trivial
  · trivial

theorem keeps_brk {x : Cx} (h : x.s.Inv) : (brkBody x).Keeps := by
  unfold brkBody
  split
  · exact keeps_goto h ..
  · trivial

theorem keeps_brt {x : Cx} (h : x.s.Inv) : (brtBody x).Keeps := by
  unfold brtBody
  dsimp only
  split
  · trivial
  · split
    · trivial
    · split
      · split
        · exact h
        · trivial
      · trivial

theorem keeps_exit {x : Cx} (h : x.s.Inv) : (exitBody x).Keeps := by
  unfold exitBody
  dsimp only
  split
  · trivial
  · split
    · have hr := inv_retire (inv_modGroup h x.g.gid fun g => { g with fin := x.g.fin ||| x.g.amask }) x.g.gid x.f none
      split
      · exact inv_dropGroup hr _
      · exact hr
    · split
      · exact inv_modGroup h ..
      · trivial

theorem keeps_rte {x : Cx} (h : x.s.Inv) : (rteBody x).Keeps := by
  unfold rteBody
  split
  · trivial
  · split
    · trivial
    · split
      · trivial
      · dsimp only
        split
        · exact inv_setGroup (inv_traceEvent h ..) _
        · exact inv_deliver (inv_setGroup (inv_traceEvent h ..) _) ..

theorem keeps_pctl {x : Cx} (h : x.s.Inv) (change : Block → Block) : (x.pctl change).Keeps := by
  unfold Cx.pctl
  split
  · trivial
  · exact inv_modBlock h ..

/-! Spawned work and child grids -/

theorem stops_depthPre : Stops depthPre := by
  intro x r hr
  unfold depthPre at hr
  split at hr
  · cases hr; exact .inr ⟨_, _, _, rfl⟩
  · cases hr

theorem stops_dwaitPre : Stops dwaitPre := by
  intro x r hr
  unfold dwaitPre at hr
  split at hr
  · cases hr; exact .inr ⟨_, _, _, rfl⟩
  · cases hr

theorem stops_rendezvousPre : Stops rendezvousPre := by
  intro x r hr
  unfold rendezvousPre at hr
  split at hr
  · cases hr; exact .inr ⟨_, _, _, rfl⟩
  · split at hr
    · cases hr; exact .inr ⟨_, _, _, rfl⟩
    · split at hr
      · cases hr; exact .inl rfl
      · cases hr

theorem keeps_spawn {x : Cx} (h : x.s.Inv) : (spawnBody x).Keeps := by
  unfold spawnBody
  dsimp only
  split
  · trivial
  · split
    · trivial
    · exact inv_of h rfl rfl rfl

theorem keeps_glaunch {x : Cx} (h : x.s.Inv) : (glaunchBody x).Keeps := by
  unfold glaunchBody
  dsimp only
  split
  · split
    · trivial
    · split
      · trivial
      · exact inv_modGroup h ..
  · exact h
  · split
    · trivial
    · exact inv_modGroup (inv_makeGrid h ..) ..

theorem keeps_dwait {x : Cx} (h : x.s.Inv) : (dwaitBody x).Keeps := by
  unfold dwaitBody
  split
  · trivial
  · exact inv_inherit h ..

end Sys2Proof.Machine
end


section
/-! The invariant kept by tile fetches and evictions (R178, R182 to R184, R195), and by memory instructions (R83, R201 to R217). -/

namespace Sys2Proof.Machine

open Sys2Proof

/-! Fetches and evictions -/

section
variable {s : State} (h : s.Inv)
include h

theorem inv_setTile (t : TileRef) (v : WTile) : (s.setTile t v).Inv := (calm_setTile ..).inv h
theorem inv_applyAppend (a : Append) : (s.applyAppend a).Inv := (calm_applyAppend ..).inv h
theorem inv_flushTile (core : Nat) (t : TileRef) : (s.flushTile core t).Inv := (calm_flushTile ..).inv h
theorem inv_applyTile (t : TileRef) (es : List HodEntry) : (s.applyTile t es).Inv := (calm_applyTile ..).inv h
theorem inv_performCore (core : Nat) : (s.performCore core).Inv := (calm_performCore ..).inv h
theorem inv_flushSc (core a n : Nat) : (s.flushSc core a n).Inv := (calm_flushSc ..).inv h
theorem inv_flushOps (core a n : Nat) : (s.flushOps core a n).Inv := (calm_flushOps ..).inv h
theorem inv_appendSample (a : Append) (f : Smpl → Smpl) : (s.appendSample a f).Inv := (calm_appendSample ..).inv h
theorem inv_sample (x : Cx) (spc : Space) (a : Nat → Int) : (s.sample x spc a).Inv := (calm_sample ..).inv h
theorem inv_sampleDone (x : Cx) (spc : Space) : (s.sampleDone x spc).Inv := (calm_sampleDone ..).inv h
theorem inv_ordered (x : Cx) (o : Ord) : (s.ordered x o).Inv := (calm_ordered ..).inv h

theorem inv_postAppend (gid bid core : Nat) (t : TileRef) (es : List HodEntry) (cid did : Option Nat) (sync : Bool) (tagged : Nat) :
    (s.postAppend gid bid core t es cid did sync tagged).Inv := inv_of h rfl rfl rfl

theorem inv_writeBack (t : TileRef) (core : Nat) : (s.writeBack t core).Inv := by
  unfold State.writeBack
  dsimp only
  split
  · exact h
  · refine inv_setTile ?_ ..
    exact inv_of h rfl rfl rfl

theorem inv_evict (t : TileRef) (core : Nat) : (s.evict t core).Inv :=
  inv_setTile (inv_writeBack (inv_foldl (fun _ a hu => inv_applyAppend hu a) _ h) ..) ..

theorem inv_takeFrame {t : TileRef} {core : Nat} {u : State} (hu : s.takeFrame t core = some u) : u.Inv := by
  unfold State.takeFrame at hu
  dsimp only at hu
  split at hu
  · exact Option.some.inj hu ▸ h
  · obtain ⟨v, -, rfl⟩ := Option.map_eq_some_iff.mp hu
    exact inv_evict h ..

theorem inv_bufferFault {core ctx va : Nat} {who : Faulted} {u : State} (hu : s.bufferFault core ctx va who = some u) : u.Inv := by
  unfold State.bufferFault at hu
  split at hu
  · cases hu
  · cases hu
    refine inv_count ?_ ..
    exact inv_of h rfl rfl rfl

theorem inv_wantTile (t : TileRef) (core : Nat) : (s.wantTile t core).Inv := by
  unfold State.wantTile
  split
  · exact h
  · exact inv_setTile (inv_fresh h) ..

theorem inv_startFetch {t : TileRef} {core : Nat} {u : State} (hu : s.startFetch t core = .ok u) : u.Inv := by
  unfold State.startFetch at hu
  split at hu
  · exact FetchStart.ok.inj hu ▸ h
  · exact FetchStart.ok.inj hu ▸ inv_wantTile h ..
  · next hf =>
    have hv := inv_takeFrame h hf
    dsimp only at hu
    split at hu
    · exact FetchStart.ok.inj hu ▸ inv_count (inv_setTile (inv_ran hv ..) ..) ..
    · exact FetchStart.ok.inj hu ▸ inv_halt (inv_count (inv_setTile (inv_ran hv ..) ..) ..) ..
    · split at hu
      · next hb => exact FetchStart.ok.inj hu ▸ inv_count (inv_setTile (inv_ran (inv_bufferFault hv hb) ..) ..) ..
      · cases hu

theorem inv_askFetch (t : TileRef) (core : Nat) : (s.askFetch t core).Inv := by
  unfold State.askFetch
  split
  · next hu => exact inv_startFetch h hu
  · exact inv_wantTile h ..

theorem inv_startFetches {core : Nat} {ts : List TileRef} {u : State} (hu : startFetches core ts s = some u) : u.Inv := by
  induction ts generalizing s with
  | nil => exact Option.some.inj hu ▸ h
  | cons t rest ih =>
    unfold startFetches at hu
    split at hu
    · split at hu
      · next hf => exact ih (inv_startFetch h hf) hu
      · cases hu
    · exact ih h hu

theorem inv_fetchNext {u : State} (hu : s.fetchNext = some u) : u.Inv := by
  refine inv_findSome (fun e v hv => ?_) hu
  split at hv
  · split at hv
    · next hf =>
      split at hv
      · exact Option.some.inj hv ▸ inv_startFetch h hf
      · cases hv
    · cases hv
  · cases hv

theorem inv_holdFor (gid : Nat) (ts : List TileRef) : (s.holdFor gid ts).Inv := inv_foldl (fun _ _ hu => inv_setTile hu ..) ts h

end

/-! The frame of memory instructions -/

theorem keeps_firstFault {x : Cx} {fails : List (Nat × (BitVec 8 × Nat))} {r : Fate} (h : x.firstFault fails = some r) : r.Keeps := by
  unfold Cx.firstFault at h
  split at h
  · cases h
  · cases h; trivial

theorem keeps_checkAddrs {x : Cx} {spc : Space} {n : Nat} {r : Fate} (h : x.checkAddrs spc n = some r) : r.Keeps := by
  unfold Cx.checkAddrs at h
  split at h
  · cases h
  · exact keeps_firstFault h

theorem keeps_parkOn {x : Cx} (h : x.s.Inv) (spc : Space) (waits : List TileRef) (at_ : Nat → Int) : (x.parkOn spc waits at_).Keeps := by
  unfold Cx.parkOn
  split
  · next hf => exact inv_holdFor ((calm_sampleParks ..).inv (inv_sample (inv_startFetches (inv_unhold h _) hf) ..)) ..
  · trivial

theorem keeps_access {x : Cx} (h : x.s.Inv) {spc : Space} {row : TileRow} {addrs : List Nat} {w : Nat} {entries : TileRef → List HodEntry}
    {effect : Cx → Fate} {at_ : Nat → Int} (he : ∀ y, y.s.Inv → (effect y).Keeps) :
    (x.access spc row addrs w entries effect at_).Keeps := by
  unfold Cx.access
  refine keeps_ite trivial (keeps_ite (he _ ?_) (keeps_parkOn h ..))
  exact inv_sample (inv_unhold h _) ..

theorem keeps_inOrder {x : Cx} (h : x.s.Inv) {run : Cx → Fate} (hr : ∀ y, y.s.Inv → (run y).Keeps) : (x.inOrder run).Keeps := by
  unfold Cx.inOrder
  refine keeps_ite trivial (hr _ ?_)
  unfold Cx.afterSync
  split
  · exact h
  · exact (calm_syncFirst ..).inv h

theorem keeps_drawFirst {x : Cx} (h : x.s.Inv) {spc : Space} {run : Cx → Fate} (hr : ∀ y, y.s.Inv → (run y).Keeps) :
    (x.drawFirst spc run).Keeps := by
  unfold Cx.drawFirst
  have hs := inv_modGroup (inv_sample h x spc x.addrOf) x.g.gid fun g => { g with reissue := true }
  exact keeps_ite (keeps_rejHold hs (hr _ hs)) (keeps_rejHold h (hr _ h))

theorem keeps_drawsOr {x : Cx} (h : x.s.Inv) {c : Prop} [Decidable c] {spc : Space} {run : Cx → Fate}
    (hr : ∀ y, y.s.Inv → (run y).Keeps) : (if c then x.drawFirst spc run else run x).Keeps :=
  keeps_ite (keeps_drawFirst h hr) (hr _ h)

theorem inv_ownFirst {x : Cx} (h : x.s.Inv) (spc : Space) (addrs : List Nat) (n : Nat) : (x.ownFirst spc addrs n).s.Inv :=
  (calm_ownFirst ..).inv h

theorem inv_loadResult {x : Cx} (h : x.s.Inv) (spc : Space) (ws : List RegW) : (x.loadResult spc ws).Inv :=
  inv_putResult (inv_sampleDone h ..) ..

/-! Loads -/

theorem keeps_ld {m : MemMod} {x : Cx} (h : x.s.Inv) : (ldBody m x).Keeps := by
  unfold ldBody
  dsimp only
  split
  · next hr => exact keeps_checkAddrs hr
  · exact keeps_access h fun y hy => (calm_touchAll ..).inv (inv_loadResult (inv_ownFirst hy ..) ..)

theorem keeps_ldt {m : MemMod} {x : Cx} (h : x.s.Inv) : (ldtBody m x).Keeps := by
  unfold ldtBody
  dsimp only
  split
  · next hr => exact keeps_firstFault hr
  · exact keeps_access h fun y hy => inv_loadResult (inv_ownFirst hy ..) ..

/-! Stores and reductions -/

theorem keeps_writeOut {x : Cx} (h : x.s.Inv) {spc : Space} {row : TileRow} {w : Nat} {one : Cx → Nat → Draw → List Write × Draw}
    {ord : Ord} {sync : Bool} : (x.writeOut spc row w one ord sync).Keeps := by
  unfold Cx.writeOut
  split
  · next hr => exact keeps_checkAddrs hr
  · refine keeps_drawFirst h fun y hy => keeps_access hy fun z hz => ?_
    have hc := inv_commitDraws (inv_sampleDone (inv_ordered hz z ord) z spc) z
    show State.Inv _
    split
    · exact (calm_writeTiles ..).inv (hc _)
    · exact inv_foldl (fun _ _ hu => (calm_writeAll ..).inv hu) _ (hc _)

theorem keeps_st {m : MemMod} {x : Cx} (h : x.s.Inv) : (stBody m x).Keeps := keeps_writeOut h

/-! Atomics -/

theorem inv_swapAll {s : State} (h : s.Inv) (x : Cx) (spc : Space) (n : Nat) (l : List (Nat × (Nat → Option Nat))) :
    (x.swapAll spc n l s).2.Inv := (calm_swapAll ..).inv h

theorem keeps_atom {m : AtomMod} {cas : Bool} {op : Nat → Nat → Nat} {x : Cx} (h : x.s.Inv) : (atomBody m cas op x).Keeps := by
  unfold atomBody
  dsimp only
  split
  · next hr => exact keeps_checkAddrs hr
  · refine keeps_ite trivial (keeps_inOrder h fun y hy => ?_)
    refine keeps_drawsOr hy fun z hz => keeps_access hz fun v hv => ?_
    have hs := inv_ordered ((calm_critical _ v m.ord).inv (inv_swapAll (inv_sampleDone hv v m.asp) v m.asp (atBytes m.at_)
      (z.operands m.at_ cas op z.each Draw.start).1)) v m.ord
    show State.Inv _
    split
    · exact inv_commitDraws hs ..
    · split
      · exact inv_putResult (inv_commitNone hs ..) ..
      · exact inv_putResult (inv_commitDraws hs ..) ..

theorem keeps_red {m : AtomMod} {op : MemOp} {x : Cx} (h : x.s.Inv) : (redBody m op x).Keeps := by
  unfold redBody
  refine keeps_ite (keeps_atom h) ?_
  dsimp only
  split
  · next hr => exact keeps_checkAddrs hr
  · exact keeps_ite trivial (keeps_inOrder h fun y hy => keeps_writeOut hy)

/-! Barrier words, the block barrier, fences -/

theorem keeps_bara {m : AtomMod} {x : Cx} (h : x.s.Inv) : (baraBody m x).Keeps := by
  unfold baraBody
  split
  · next hr => exact keeps_checkAddrs hr
  · exact keeps_ite trivial (keeps_inOrder h fun y hy => keeps_access hy fun z hz =>
      inv_putResult (inv_ordered (inv_swapAll (inv_sampleDone hz ..) ..) ..) ..)

theorem keeps_barw {m : AtomMod} {x : Cx} (h : x.s.Inv) : (barwBody m x).Keeps := by
  unfold barwBody
  split
  · next hr => exact keeps_checkAddrs hr
  · exact keeps_inOrder h fun y hy => keeps_access hy fun z hz =>
      keeps_ite (inv_ordered (inv_sampleDone ((calm_atDieFirst ..).inv hz) ..) ..) trivial

theorem keeps_bari {m : MemMod} {x : Cx} (h : x.s.Inv) : (bariBody m x).Keeps := by
  unfold bariBody
  dsimp only
  split
  · next hr => exact keeps_firstFault hr
  · exact keeps_inOrder h fun y hy => keeps_writeOut hy

theorem stops_barbPre : Stops barbPre := by
  intro x r hr
  unfold barbPre at hr
  split at hr
  · cases hr; exact .inr ⟨_, _, _, rfl⟩
  · cases hr

theorem keeps_barb {x : Cx} (h : x.s.Inv) : (barbBody x).Keeps := by
  unfold barbBody
  split
  · exact keeps_ite (inv_modBlock h ..) trivial
  · trivial

theorem keeps_fence {sc : Scope} {x : Cx} (h : x.s.Inv) : (fenceBody sc x).Keeps := by
  unfold fenceBody
  have hs : ((x.s.released x.g.gid).acquired x.g.gid x.g.core).Inv := inv_of h rfl rfl rfl
  exact keeps_ite hs (keeps_ite ⟨h, hs⟩ h)

/-! Spill runs -/

theorem keeps_spst {x : Cx} (h : x.s.Inv) : (spstBody x).Keeps := by
  unfold spstBody
  dsimp only
  split
  · exact keeps_ite h trivial
  · exact inv_modGroup h ..

theorem keeps_spld {x : Cx} (h : x.s.Inv) : (spldBody x).Keeps := by
  unfold spldBody
  dsimp only
  split
  · exact keeps_ite h trivial
  · exact inv_putResult h ..

end Sys2Proof.Machine
end


section
/-! The invariant kept by windows and by the events of the memory levels (R178 to R180, R184, R189 to R200, R229). -/

namespace Sys2Proof.Machine

open Sys2Proof

/-- A memory keeps its canonical form along changes that keep it. -/
theorem wf_foldl {α : Type} {step : Memory → α → Memory} (hstep : ∀ m a, m.wf = true → (step m a).wf = true) (l : List α) {m : Memory}
    (h : m.wf = true) : (l.foldl step m).wf = true := by
  induction l generalizing m with
  | nil => exact h
  | cons a l ih => exact ih (hstep m a h)

/-! Windows -/

section
variable {s : State} (h : s.Inv)
include h

theorem inv_dropWindow (w : Window) : (s.dropWindow w).Inv := inv_of h rfl rfl rfl
theorem inv_unpark : s.unpark.Inv := inv_of h rfl rfl rfl
theorem inv_touch (t : TileRef) : (s.touch t).Inv := (calm_touch ..).inv h
theorem inv_setReplay (r : Replay) : (s.setReplay r).Inv := inv_of h rfl rfl rfl

theorem inv_evictFree (t : TileRef) (core : Nat) : (s.evictFree t core).Inv := inv_ite (inv_evict h ..) h

theorem inv_markLink (t : TileRef) (far : Bool) : (s.markLink t far).Inv := by
  unfold State.markLink
  split
  · exact inv_of h rfl rfl rfl
  · exact h

theorem inv_writeMain (c : Ctx) (pa attr : Nat) (bytes : List (Nat × Byte)) : (s.writeMain c pa attr bytes).Inv :=
  ⟨h.cycle, wf_foldl (fun _ _ hm => wf_foldl (fun _ _ hm => Memory.wf_write hm ..) _ hm) _ h.dram, h.scratch⟩

theorem inv_parkStore {core ctx va : Nat} {bytes : List Byte} {copy : Bool} {wb cid : Option Nat} {fault : Bool} {u : State}
    (hu : s.parkStore core ctx va bytes copy wb cid fault = some u) : u.Inv := by
  unfold State.parkStore at hu
  split at hu
  · cases hu
  · have hp : ({ s.fresh.2 with replay := s.fresh.2.replay ++ [⟨s.fresh.1, core, ctx, va, bytes, copy, wb, cid, fault⟩] } : State).Inv :=
      inv_of h rfl rfl rfl
    exact Option.some.inj hu ▸ inv_ite (inv_count hp ..) hp

theorem inv_parkBack (b : WriteBack) (fault : Bool) : (s.parkBack b fault).Inv := by
  unfold State.parkBack
  split
  · next hu => exact inv_of (inv_parkStore h hu) rfl rfl rfl
  · exact h

theorem inv_cleanTile (core : Nat) (e : TileRef × WTile) : (s.cleanTile core e).Inv :=
  inv_ite (inv_writeBack h ..) (inv_ite (inv_askFetch h ..) h)

theorem inv_replayFetch (t : TileRef) : (s.replayFetch t).Inv := by
  unfold State.replayFetch
  dsimp only
  split
  · exact h
  · have hr := inv_ran h (tileUnit t.die) t.ctx
    split
    · exact inv_setTile hr ..
    · exact inv_halt hr ..
    · cases hb : (s.ran (tileUnit t.die) t.ctx).bufferFault _ _ _ _ with
      | some u => exact inv_bufferFault hr hb
      | none => exact hr

theorem inv_replayFault (r : Replay) : (s.replayFault r).Inv := inv_ite h (inv_count (inv_setReplay h _) ..)

end

/-! Instructions that map windows and move tiles -/

theorem keeps_tmap {x : Cx} (h : x.s.Inv) : (tmapBody x).Keeps := by
  unfold tmapBody
  dsimp only
  refine keeps_ite h (keeps_ite h (keeps_ite (keeps_ite trivial ?_) ?_))
  · exact ⟨inv_of h rfl rfl rfl, inv_of h rfl rfl rfl⟩
  · split
    · exact ⟨h, h⟩
    · exact keeps_ite ⟨inv_dropWindow h _, inv_dropWindow h _⟩ (inv_modGroup (inv_setWindow h _) ..)

theorem keeps_tfetch {x : Cx} (h : x.s.Inv) : (tfetchBody x).Keeps := by
  unfold tfetchBody
  split
  · exact h
  · exact inv_ite (inv_askFetch h ..) h

theorem keeps_tevict {x : Cx} (h : x.s.Inv) : (tevictBody x).Keeps := by
  unfold tevictBody
  dsimp only
  refine keeps_ite ?_ ?_
  · cases x.g.evicts with
    | none => exact h
    | some t => exact inv_evictFree h ..
  · split
    · exact ⟨h, h⟩
    · split
      · exact ⟨h, h⟩
      · exact h
      · exact keeps_ite ⟨inv_modGroup h .., inv_evict h ..⟩ h

/-! Events -/

section
variable {s : State} (h : s.Inv)
include h

theorem keeps_tileArrive (t : TileRef) : Keeps (execTileArrive t s) := by
  unfold execTileArrive
  dsimp only
  exact keeps_or (keeps_next h) (keeps_next (inv_unpark (inv_touch (inv_setTile (inv_markLink (inv_ran h ..) ..) ..) _)))

theorem keeps_tileWritebackDone (wid : Nat) : Keeps (execTileWritebackDone wid s) := by
  unfold execTileWritebackDone
  dsimp only
  split
  · exact keeps_next h
  · next b _ =>
    split
    · exact keeps_next h
    · refine keeps_or (keeps_next h) ?_
      have hr := inv_ran h (tileUnit b.tile.die) b.tile.ctx
      refine keeps_or (keeps_next (inv_parkBack hr ..)) ?_
      split
      · refine keeps_next (inv_writeMain ?_ ..)
        exact inv_of hr rfl rfl rfl
      · exact keeps_next (inv_halt hr ..)
      · exact keeps_next (inv_parkBack hr ..)

theorem keeps_unmapComplete (die ctx win : Nat) : Keeps (execUnmapComplete die ctx win s) := by
  unfold execUnmapComplete
  dsimp only
  split
  · exact keeps_next h
  · refine keeps_or (keeps_next h) ?_
    have hc := fun core l => inv_foldl (step := fun u e => u.cleanTile core e) (fun _ _ hu => inv_cleanTile hu ..) l h
    split
    · exact keeps_next (inv_ite (hc _ _) (inv_dropWindow (hc _ _) _))
    · exact keeps_next (hc _ _)

theorem keeps_faultService (fid : Nat) (accept : Bool) (ptes : List (Nat × DWord)) : Keeps (execFaultService fid accept ptes s) := by
  unfold execFaultService
  have hp : ({ s with dram := ptes.foldl (fun m e => m.writeN e.1 8 e.2.toNat) s.dram } : State).Inv :=
    ⟨h.cycle, wf_foldl (fun _ _ hm => Memory.wf_writeN hm ..) _ h.dram, h.scratch⟩
  dsimp only
  split
  · refine keeps_or (keeps_next (inv_halt h ..)) (keeps_next ?_)
    split
    · refine inv_replayFetch ?_ _
      exact inv_of hp rfl rfl rfl
    · exact inv_of hp rfl rfl rfl
  · split
    · exact keeps_next (inv_ite (inv_setReplay hp _) (inv_halt h ..))
    · exact keeps_next h

theorem keeps_storeReplay (pid : Nat) : Keeps (execStoreReplay pid s) := by
  unfold execStoreReplay
  dsimp only
  split
  · exact keeps_next h
  · next r _ =>
    split
    · exact keeps_next h
    · refine keeps_or (keeps_next h) ?_
      have hr := inv_ran h (s.unitOf r.core r.cid) r.ctx
      split
      · exact keeps_next (inv_replayFault hr _)
      · exact keeps_next (inv_halt hr ..)
      · split
        · refine keeps_next (inv_writeMain ?_ ..)
          exact inv_of hr rfl rfl rfl
        · split
          · refine keeps_next (inv_writeMain ?_ ..)
            exact inv_of hr rfl rfl rfl
          · exact keeps_next (inv_of hr rfl rfl rfl)

theorem keeps_writePerformedAtDie (wid : Nat) : Keeps (execWritePerformedAtDie wid s) := by
  unfold execWritePerformedAtDie
  split
  · exact keeps_next h
  · exact keeps_or (keeps_next h) (keeps_next ⟨h.cycle, h.dram, wf_perform h.scratch _⟩)

theorem inv_acceptEntry (a : Append) (e : HodEntry) (rest hod : List HodEntry) : (s.acceptEntry a e rest hod).Inv := by
  unfold State.acceptEntry
  dsimp only
  refine inv_appendSample (inv_count ?_ ..) ..
  generalize hv : State.ran _ _ _ = v
  have hvi : v.Inv := by
    rw [← hv]
    refine inv_ran ?_ ..
    exact inv_of h rfl rfl rfl
  cases appendHod (v.logHolds a.tile) hod [e] with
  | none => exact hvi
  | some l => exact inv_setTile hvi ..

theorem inv_refuseAppend (a : Append) : (s.refuseAppend a).Inv :=
  inv_appendSample (inv_holdFor (inv_ite (inv_askFetch h ..) h) ..) ..

theorem keeps_hodAppend (aid : Nat) : Keeps (execHodAppend aid s) := by
  unfold execHodAppend
  dsimp only
  split
  · exact keeps_next h
  · refine keeps_or (keeps_next h) (keeps_or (keeps_next (inv_applyAppend (inv_ran h ..) _)) (keeps_or (keeps_next h) ?_))
    split
    · exact keeps_next (inv_acceptEntry h ..)
    · exact keeps_next (inv_refuseAppend h _)

theorem keeps_descriptorReadDone (gid : Nat) : Keeps (execDescriptorReadDone gid s) := by
  unfold execDescriptorReadDone
  dsimp only
  split
  · exact keeps_next h
  · split
    · exact keeps_or (keeps_next h) (keeps_next (inv_setGroup (inv_flushOps h ..) _))
    · exact keeps_next h

/-! Results in flight that land (R19) -/

theorem inv_landResult (r : Result) : (s.landResult r).Inv := by
  unfold State.landResult
  dsimp only
  have hr : ({ s with results := s.results.filter fun x => x.rid != r.rid } : State).Inv := inv_of h rfl rfl rfl
  generalize ({ s with results := s.results.filter fun x => x.rid != r.rid } : State) = v at hr ⊢
  split
  · exact hr
  · have hg := fun g => inv_setGroup hr g
    split
    · exact hg _
    · split
      · exact inv_count (hg _) ..
      · exact inv_logFp (inv_count (hg _) ..) ..

theorem inv_landSome (r : Result) (who : Mask) : (s.landSome r who).Inv := by
  unfold State.landSome
  dsimp only
  refine inv_ite (inv_landResult h r) ?_
  refine inv_modGroup ?_ ..
  exact inv_of h rfl rfl rfl

theorem inv_landNext (r : Result) : (s.landNext r).Inv := by
  unfold State.landNext
  refine inv_landSome ?_ ..
  exact inv_of h rfl rfl rfl

theorem keeps_memoryResultWrite (rid : Nat) : Keeps (execMemoryResultWrite rid s) := by
  unfold execMemoryResultWrite
  split
  · exact keeps_next (inv_landNext h _)
  · exact keeps_next h

theorem keeps_sfuResultWrite (rid : Nat) : Keeps (execSfuResultWrite rid s) := by
  unfold execSfuResultWrite
  split
  · exact keeps_next (inv_landNext h _)
  · exact keeps_next h

theorem keeps_rejDrawComplete (rid : Nat) : Keeps (execRejDrawComplete rid s) := by
  unfold execRejDrawComplete
  split
  · exact keeps_next (inv_ite (inv_modGroup (inv_landNext h _) ..) (inv_landNext h _))
  · exact keeps_next h

end

end Sys2Proof.Machine
end


section
/-! The invariant kept by the engines: posting, batches, and the jobs' events (R257 to R276). -/

namespace Sys2Proof.Machine

open Sys2Proof

/-! Posting and batches -/

theorem inv_place {s : State} (h : s.Inv) (x : Cx) (c : Command) : (s.place x c).Inv := inv_of h rfl rfl rfl

theorem keeps_post {x : Cx} (h : x.s.Inv) (one : Nat → Posting) : (x.post one).Keeps := by
  unfold Cx.post
  dsimp only
  split
  · next hr => exact keeps_firstFault hr
  · exact keeps_ite trivial (inv_foldl (fun _ c hu => inv_place hu x c) _ h)

theorem keeps_bclose {x : Cx} (h : x.s.Inv) : (bcloseBody x).Keeps := by
  unfold bcloseBody
  dsimp only
  refine inv_modGroup ?_ ..
  exact inv_of h rfl rfl rfl

theorem keeps_waitb {x : Cx} (h : x.s.Inv) : (waitbBody x).Keeps := by
  unfold waitbBody
  dsimp only
  refine keeps_ite h ?_
  split
  · trivial
  · exact keeps_ite trivial h

/-! Accesses of jobs -/

/-- What an access of an engine leaves keeps the invariant. -/
def Access.Keeps : Access → Prop
  | .ok s _ => s.Inv
  | .wait s => s.Inv

theorem Access.keeps_ite {c : Prop} [Decidable c] {a b : Access} (ha : a.Keeps) (hb : b.Keeps) : (if c then a else b).Keeps := by
  split
  · exact ha
  · exact hb

section
variable {s : State} (h : s.Inv)
include h

theorem inv_awaitTile (holder core : Nat) (t : TileRef) : (s.awaitTile holder core t).Inv := inv_holdFor (inv_ite (inv_askFetch h ..) h) ..

theorem inv_parkJob (k : Card) (va : Nat) : (s.parkJob k va).Inv := by
  unfold State.parkJob
  cases hb : s.bufferFault k.core k.ctx va (.job k.cid) with
  | some u => exact inv_bufferFault h hb
  | none => exact h

theorem keeps_readPiece (c : Ctx) (k : Card) (a : EAddr) (n : Nat) : (s.readPiece c k a n).Keeps := by
  unfold State.readPiece
  split
  · exact h
  · exact inv_flushOps h ..
  · split
    · exact h
    · exact inv_parkJob h ..
    · exact inv_halt h ..
  · split
    · exact h
    · exact Access.keeps_ite (inv_unhold (inv_ite (inv_touch (inv_flushTile h ..) _) h) _) (inv_awaitTile h ..)

theorem keeps_writePiece (c : Ctx) (k : Card) (a : EAddr) (bytes : List Byte) : (s.writePiece c k a bytes).Keeps := by
  unfold State.writePiece
  refine Access.keeps_ite h ?_
  have park : ∀ fault, Access.Keeps (match s.parkStore k.core k.ctx a.addr bytes k.copies none (some k.cid) fault with
      | some s => .ok s []
      | none => .wait s) := by
    intro fault
    split
    · next hp => exact inv_parkStore h hp
    · exact h
  split
  · exact inv_modBlock h ..
  · have hf := inv_flushSc h k.core (scratchKey c (dieOf k.core) a.addr) bytes.length
    exact ⟨hf.cycle, hf.dram, Memory.wf_writeList hf.scratch ..⟩
  · refine Access.keeps_ite (park false) ?_
    split
    · exact inv_writeMain h ..
    · exact park true
    · exact inv_halt h ..
  · split
    · exact h
    · exact Access.keeps_ite (inv_unhold (inv_applyTile (inv_flushTile h ..) ..) _)
        (Access.keeps_ite (inv_postAppend h ..) (inv_awaitTile h ..))

theorem keeps_jobItem (c : Ctx) (k : Card) (it : JobItem) : (s.jobItem c k it).Keeps := by
  cases it with
  | write a bytes => exact keeps_writePiece h ..
  | idxr p => exact inv_log h ..
  | arrive a =>
    unfold State.jobItem
    dsimp only
    refine Access.keeps_ite h ?_
    split
    · exact inv_modBlock h ..
    · have hf := inv_flushSc h k.core (scratchKey c (dieOf k.core) a.addr) 8
      exact ⟨hf.cycle, hf.dram, Memory.wf_writeN hf.scratch ..⟩

theorem inv_readAll (c : Ctx) (k : Card) (l : List (EAddr × Nat)) : (State.readAll c k l s).1.Inv := by
  induction l generalizing s with
  | nil => exact h
  | cons r rest ih =>
    obtain ⟨a, n⟩ := r
    have hk := keeps_readPiece h c k a n
    unfold State.readAll
    split
    · next hr => rw [hr] at hk; exact ih hk
    · next hr => rw [hr] at hk; exact hk

theorem inv_doAll (c : Ctx) (k : Card) (l : List JobItem) : (State.doAll c k l s).1.Inv := by
  induction l generalizing s with
  | nil => exact h
  | cons it rest ih =>
    have hk := keeps_jobItem h c k it
    unfold State.doAll
    split
    · next hr => rw [hr] at hk; exact ih hk
    · next hr => rw [hr] at hk; exact hk

/-! Jobs -/

theorem inv_partOn (c : Ctx) (k : Card) (run : JobRun) : (s.partOn c k run).1.Inv := by
  unfold State.partOn
  split
  · exact inv_doAll h ..
  · have hr := inv_readAll h c k run.reads
    dsimp only
    split
    · exact inv_doAll hr ..
    · exact hr

theorem inv_partsOn (c : Ctx) (k : Card) (n : Nat) (run : JobRun) : (State.partsOn c k n s run).1.Inv := by
  induction n generalizing s run with
  | zero => exact inv_partOn h ..
  | succ n ih =>
    unfold State.partsOn
    dsimp only
    split
    · exact ih (inv_partOn h ..) _
    · exact inv_partOn h ..

theorem inv_runJob (cid : Nat) (kinds : List (BitVec 8)) : (s.runJob cid kinds).Inv := by
  unfold State.runJob
  split
  · exact h
  · split
    · exact h
    · exact inv_ite (inv_setCard (inv_partsOn (inv_ran h ..) ..) _) h

theorem inv_runFlag (cid : Nat) (kind : BitVec 8) (effect : Job → Nat → Ctx → Ctx) : (s.runFlag cid kind effect).Inv := by
  unfold State.runFlag
  split
  · exact h
  · split
    · exact h
    · exact inv_ite (inv_setCard (inv_setCtx (inv_ran h ..) _) _) h

theorem inv_completeCard (k : Card) : (s.completeCard k).Inv := by
  unfold State.completeCard
  dsimp only
  have hc : ({ s with cards := s.cards.filter fun i => i.cid != k.cid } : State).Inv := inv_of h rfl rfl rfl
  exact inv_traceEvent (inv_ite (inv_count (inv_unhold hc _) ..) (inv_unhold hc _)) ..

theorem keeps_jobComplete (cid : Nat) : Keeps (execJobComplete cid s) := by
  unfold execJobComplete
  split
  · exact keeps_next h
  · exact keeps_next (inv_ite (inv_completeCard h _) h)

end

end Sys2Proof.Machine
end


section
/-! The invariant kept by collective operations (R310 to R320) and by the matrix engine (R235 to R255). -/

namespace Sys2Proof.Machine

open Sys2Proof

theorem wf_onto {m : Memory} (hm : m.wf = true) (d : Drain) (a : Nat) (bytes : List Byte) : (d.onto m a bytes).wf = true := by
  unfold Drain.onto
  dsimp only
  split
  · exact Memory.wf_writeList hm ..
  · exact Memory.wf_writeList hm ..

section
variable {s : State} (h : s.Inv)
include h

/-! Collective operations -/

theorem inv_takeSeq (ctx die comm : Nat) : (s.takeSeq ctx die comm).2.Inv := by
  unfold State.takeSeq
  split
  · exact inv_setCtx h _
  · exact h

theorem inv_collRead (c : Ctx) (k : Card) : (s.collRead c k).Inv := by
  unfold State.collRead
  split
  · exact inv_ite h (inv_setCard (inv_readAll (inv_ran h ..) ..) _)
  · exact h

theorem inv_collReads (c : Ctx) (comm seq : Nat) : (s.collReads c comm seq).Inv := inv_foldl (fun _ _ hu => inv_collRead hu ..) _ h

theorem inv_fillColl (e : Contrib) (x : Word) : (s.fillColl e x).Inv := by
  unfold State.fillColl
  dsimp only
  have hr : State.Inv { s with
      contribs := s.contribs.filter fun f => f.rid != e.rid
      results := s.results.map fun r =>
        if r.rid = e.rid then { r with writes := r.writes.map fun w => { w with val := x } } else r } := inv_of h rfl rfl rfl
  have hu := inv_ran hr (collUnit e.die) e.ctx
  split
  · exact inv_ite (inv_landResult hu _) hu
  · exact hu

theorem inv_opOver (ctx comm seq : Nat) : (s.opOver ctx comm seq).Inv := inv_of h rfl rfl rfl

theorem inv_collDeliver (ctx comm seq : Nat) (value : Contrib → Word) (items : List Word) :
    (s.collDeliver ctx comm seq value items).Inv := by
  unfold State.collDeliver
  exact inv_of (inv_foldl (fun _ e hu => inv_fillColl hu e (value e)) _ h) rfl rfl rfl

theorem inv_collWrite (c : Ctx) (k : Card) : (s.collWrite c k).Inv := by
  unfold State.collWrite
  split
  · split
    · exact inv_ite h (inv_setCard (inv_doAll (inv_ran h ..) ..) _)
    · exact h
  · exact h

theorem inv_logCollf (ctx comm seq code : Nat) (name : Name) (num : Nat) : (s.logCollf ctx comm seq code name num).Inv := inv_log h ..

theorem keeps_collOperation (ctx comm seq : Nat) (remote : List RankData) : Keeps (execCollOperation ctx comm seq remote s) := by
  unfold execCollOperation
  split
  · exact keeps_next h
  · next c _ =>
    split
    · exact keeps_next h
    · have hr := inv_collReads h c comm seq
      refine keeps_next (inv_foldl (fun _ k hu => inv_collWrite hu c k) _ ?_)
      split
      · exact inv_ite (inv_opOver (inv_collDeliver hr ..) ..) hr
      · exact hr

theorem keeps_collf (ctx comm seq : Nat) (linkDown : Bool) (remote : List RankData) : Keeps (execCollf ctx comm seq linkDown remote s) := by
  unfold execCollf
  split
  · exact keeps_next h
  · next c _ =>
    split
    · exact keeps_next h
    · have hr := inv_collReads h c comm seq
      dsimp only
      refine keeps_or (keeps_next hr) (keeps_next (inv_opOver ?_ ..))
      refine inv_of (s := List.foldl _ _ _) (inv_foldl (fun _ e hu => inv_fillColl hu e (failValue e.rank.var)) _ ?_) rfl rfl rfl
      exact inv_foldl (fun _ _ hu => inv_logCollf hu ..) _ (inv_foldl (fun _ _ hu => inv_logCollf hu ..) _ hr)

/-! Matrix operations -/

theorem inv_acceptMma (x : Cx) (gang : List Group) : (s.acceptMma x gang).Inv := by
  unfold State.acceptMma
  split
  · dsimp only
    refine inv_modBlock (inv_ran ?_ ..) ..
    exact inv_of h rfl rfl rfl
  · exact h

theorem keeps_churnOpComplete (core : Nat) : Keeps (execChurnOpComplete core s) := by
  unfold execChurnOpComplete
  split
  · exact keeps_next h
  · dsimp only
    refine keeps_or (keeps_next h) (keeps_next (inv_count (inv_count (inv_count (inv_ran (inv_modGroup (inv_modBlock ?_ ..) ..) ..) ..) ..) ..))
    exact inv_of h rfl rfl rfl

theorem keeps_mldFill (rid : Nat) : Keeps (execMldFill rid s) := by
  unfold execMldFill
  split
  · exact keeps_next h
  · have hr : State.Inv { s with results := s.results.filter fun q => q.rid != rid } := inv_of h rfl rfl rfl
    dsimp only
    split
    · exact keeps_next (inv_modBlock (inv_ite (inv_modGroup hr ..) hr) ..)
    · exact keeps_next (inv_ite (inv_modGroup hr ..) hr)

/-! Drains -/

theorem inv_drainSample (d : Drain) (f : Smpl → Smpl) : (s.drainSample d f).Inv := inv_ite (inv_modGroup h ..) h

theorem inv_dropDrain (d : Drain) : (s.dropDrain d).Inv := by
  unfold State.dropDrain
  refine inv_drainSample ?_ ..
  exact inv_of h rfl rfl rfl

theorem inv_drainTile (d : Drain) (p : Nat × List Byte) :
    (∀ u, (s.drainTile d p).1 = some u → u.Inv) ∧ (s.drainTile d p).2.Inv := by
  unfold State.drainTile
  split
  · exact ⟨(fun _ hu => nomatch hu : ∀ u, (none : Option State) = some u → u.Inv), h⟩
  · next t _ =>
    dsimp only
    have hf := inv_flushTile h d.core t
    split
    · exact ⟨fun u hu => Option.some.inj hu ▸ inv_drainSample (inv_touch (inv_setTile hf ..) _) .., inv_setTile hf ..⟩
    · split
      · exact ⟨fun u hu => Option.some.inj hu ▸ inv_postAppend h .., h⟩
      · exact ⟨(fun _ hu => nomatch hu : ∀ u, (none : Option State) = some u → u.Inv), inv_drainSample (inv_awaitTile h ..) ..⟩

theorem inv_drainTiles (d : Drain) (ps : List (Nat × List Byte)) : (State.drainTiles d ps s).1.Inv := by
  induction ps generalizing s with
  | nil => exact h
  | cons p rest ih =>
    obtain ⟨hdone, hleft⟩ := inv_drainTile h d p
    unfold State.drainTiles
    split
    · next hp => exact ih (hdone _ (by rw [hp]))
    · next hp =>
      rw [hp] at hleft
      exact ih hleft

theorem keeps_drainPerform (did : Nat) : Keeps (execDrainPerform did s) := by
  unfold execDrainPerform
  split
  · exact keeps_next h
  · next d _ =>
    split
    · exact keeps_next h
    · next c _ =>
      refine keeps_or (keeps_next h) ?_
      split
      · exact keeps_next (inv_dropDrain (inv_modBlock h ..) _)
      · have hd := inv_drainTiles h d d.parts
        dsimp only
        refine keeps_next (inv_ite ?_ (inv_dropDrain hd _))
        exact inv_of hd rfl rfl rfl
      · have hf := inv_foldl (step := fun u (p : Nat × List Byte) => u.flushSc d.core (scratchKey c (dieOf d.core) p.1) p.2.length)
          (fun _ _ hu => inv_flushSc hu ..) d.parts h
        refine keeps_next (inv_dropDrain ?_ _)
        exact ⟨hf.cycle, hf.dram, wf_foldl (fun _ _ hm => wf_onto hm ..) _ hf.scratch⟩

end

/-! Instructions -/

theorem keeps_collReg {var : Nat} {x : Cx} (h : x.s.Inv) : (collRegBody var x).Keeps := by
  unfold collRegBody
  split
  · trivial
  · next n _ _ _ =>
    refine keeps_ite trivial ?_
    dsimp only
    have hp := inv_putResult (inv_takeSeq h x.b.ctx x.die n) x .coll (regWrites x.f.dst 0 [0]) [] 0 [] [] false
    refine inv_ran ?_ ..
    exact inv_of hp rfl rfl rfl

theorem keeps_collBuf {opc var : Nat} {kind : BitVec 8} {x : Cx} (h : x.s.Inv) : (collBufBody opc kind var x).Keeps :=
  keeps_post (inv_takeSeq h ..) _

theorem keeps_mmaTraps {xs : List Cx} {stages : List Nat} {e : Nat × Fate} (he : e ∈ mmaTraps xs stages) : e.2.Keeps := by
  induction stages with
  | nil => cases he
  | cons st rest ih =>
    unfold mmaTraps at he
    dsimp only at he
    split at he
    · exact ih he
    · obtain ⟨x, -, hx⟩ := List.mem_filterMap.mp he
      obtain ⟨r, hr, rfl⟩ := Option.map_eq_some_iff.mp hx
      unfold Cx.mmaTrap at hr
      split at hr
      · split at hr
        · cases hr; trivial
        · cases hr
      · split at hr
        · cases hr; trivial
        · cases hr
      · split at hr
        · cases hr; trivial
        · cases hr
      · split at hr
        · cases hr; trivial
        · cases hr
      · split at hr
        · split at hr
          · cases hr
          · cases hr; trivial
        · cases hr

/-- A gang that traps does so by the traps of its members. -/
theorem keeps_mmaGang {s : State} {xs : List Cx} {core : Nat} {l : List (Nat × Fate)} (hl : s.mmaGang xs core = .traps l) :
    ∀ e ∈ l, e.2.Keeps := by
  unfold State.mmaGang at hl
  dsimp only at hl
  split at hl
  · exact GangFate.traps.inj hl ▸ fun _ he => keeps_mmaTraps he
  · split at hl
    · cases hl
    · split at hl
      · exact GangFate.traps.inj hl ▸ fun _ he => keeps_mmaTraps he
      · split at hl
        · cases hl
        · split at hl
          · exact GangFate.traps.inj hl ▸ fun _ he => keeps_mmaTraps he
          · split at hl
            · cases hl
            · cases hl

theorem keeps_mmaFate {f : Fields} {s0 u : State} {m : Nat} (h : u.Inv) : (mmaFate f s0 u m).Keeps := by
  unfold mmaFate
  split
  · trivial
  · dsimp only
    split
    · next hl =>
      split
      · next e he => exact keeps_mmaGang hl e (List.mem_of_find?_eq_some he)
      · exact h
    · trivial
    · exact inv_acceptMma h ..

theorem stops_tilePre (field : Fields → BitVec 9) : Stops (tilePre field) := by
  intro x r hr
  unfold tilePre at hr
  split at hr
  · cases hr; exact .inr ⟨_, _, _, rfl⟩
  · split at hr
    · cases hr; exact .inr ⟨_, _, _, rfl⟩
    · cases hr

theorem keeps_mld {m : MemMod} {x : Cx} (h : x.s.Inv) : (mldBody m x).Keeps := by
  unfold mldBody
  dsimp only
  split
  · trivial
  · generalize List.range 2048 = elems
    refine keeps_access h fun y hy => (calm_touchAll ..).inv ?_
    have hz := inv_ownFirst hy m.space (elems.map fun e => x.addrN 0 + e * mldWidth m.ty) (mldWidth m.ty)
    generalize y.ownFirst m.space (elems.map fun e => x.addrN 0 + e * mldWidth m.ty) (mldWidth m.ty) = z at hz ⊢
    have hb := inv_modBlock (inv_fresh (inv_sampleDone hz z m.space)) z.b.bid fun b =>
      { b with tiles := b.tiles.modify (z.tileOf z.f.dst) fun t => { t with empty := true } }
    exact inv_of hb rfl rfl rfl

theorem keeps_mdrain {m : DrainMod} {x : Cx} (h : x.s.Inv) : (mdrainBody m x).Keeps := by
  unfold mdrainBody
  dsimp only
  split
  · trivial
  · refine keeps_ite trivial (inv_drainSample ?_ ..)
    exact inv_of (inv_sample h ..) rfl rfl rfl

end Sys2Proof.Machine
end


section
/-! The invariant kept by watchdogs, stops and trips, by pre-emption and its images, by switches and slices (R134, R256, R294 to R303,
R325, R326, R346). -/

namespace Sys2Proof.Machine

open Sys2Proof

section
variable {s : State} (h : s.Inv)
include h

theorem inv_reply (status : Nat) (vals : List Nat) : (s.reply status vals).Inv := inv_of h rfl rfl rfl

theorem keeps_call {v : Versions} {effect : State → State} (he : (effect s).Inv) : Keeps (s.call v effect) :=
  keeps_or (keeps_next h) (keeps_or (keeps_next (inv_reply h ..)) (keeps_next he))

/-! Watchdogs, stops and trips -/

theorem keeps_wdogExpiry (gid : Nat) : Keeps (execWdogExpiry gid s) := by
  unfold execWdogExpiry
  split
  · exact keeps_next h
  · split
    · dsimp only
      refine keeps_or (keeps_next h) (keeps_next ?_)
      refine inv_ite ?_ (inv_splitCheck ?_ ..)
      all_goals exact inv_queueTrap (inv_ite (inv_modBlock (inv_log h ..) ..) (inv_log h ..)) ..
    · exact keeps_next h

theorem keeps_unitStop (e : UnitEvent) : Keeps (execUnitStop e s) := by
  unfold execUnitStop
  dsimp only
  split
  · refine keeps_or (keeps_next h) ?_
    split
    · exact keeps_next (inv_ite (inv_halt h ..) h)
    · exact keeps_or (keeps_next h) (keeps_next (inv_setPart h _))
  · exact keeps_next h

theorem inv_loseTrace (die : Nat) : (s.loseTrace die).Inv := by
  unfold State.loseTrace
  refine inv_foldl (fun u i hu => ?_) _ h
  exact inv_of hu rfl rfl rfl

theorem inv_gateDie (die : Nat) : (s.gateDie die).Inv := inv_of (inv_loseTrace h die) rfl rfl rfl

theorem inv_safeState (unit : Nat) : (s.safeState unit).Inv := inv_of h rfl rfl rfl

theorem inv_ownPart (die : Nat) : (s.ownPart die).Inv := by
  unfold State.ownPart
  split
  · exact h
  · exact inv_of h rfl rfl rfl

theorem keeps_thermalTrip (die : Nat) : Keeps (execThermalTrip die s) := by
  unfold execThermalTrip
  dsimp only
  refine keeps_or (keeps_next h) (keeps_or (keeps_next (inv_ite h (inv_safeState h _))) ?_)
  have hh := inv_halt (inv_ownPart (inv_gateDie h die) die) die haltThermal ⟨6, 0x3FF, die, 0, 0⟩ 0
  split
  · exact keeps_next (inv_setPart hh _)
  · exact keeps_next hh

/-! Churn operations set aside and accepted again -/

theorem inv_freezeOps (core : Nat) (which : ChurnOp → Bool) : (s.freezeOps core which).Inv := by
  unfold State.freezeOps
  split
  · exact h
  · exact inv_of h rfl rfl rfl

theorem inv_thawOps (core : Nat) (which : ChurnOp → Bool) : (s.thawOps core which).Inv := by
  unfold State.thawOps
  dsimp only
  refine inv_foldl (fun _ _ hu => inv_ran hu ..) _ ?_
  exact inv_of h rfl rfl rfl

/-! Pre-emption -/

theorem inv_toSave (b : Block) : (s.toSave b).Inv := by
  unfold State.toSave
  dsimp only
  refine inv_traceEvent (inv_freezeOps (inv_modBlock ?_ ..) ..) ..
  exact inv_of (inv_foldl (fun _ g hu => inv_unhold hu g.gid) (s.groups.filter fun g => g.bid == b.bid && g.rejHeld.isNone) h) rfl rfl rfl

theorem inv_runAgain (b : Block) (gs : List Group) : (s.runAgain b gs).Inv := by
  unfold State.runAgain
  dsimp only
  split
  · exact inv_setGrid h _
  · exact h

theorem inv_flushBlock (b : Block) : (s.flushBlock b).Inv := by
  unfold State.flushBlock
  dsimp only
  have hp := inv_foldl (fun _ g hu => inv_unhold hu g.gid) (s.groups.filter fun g => g.bid == b.bid) (inv_performCore h b.core)
  exact inv_of (inv_freezeOps (inv_traceEvent (inv_runAgain hp b _) b.ctx 5 b.core 0 b.core _ allOnes32 0 1) b.core
    fun o => o.bid == b.bid) rfl rfl rfl

theorem inv_decideBlock (c : Ctx) (b : Block) : (s.decideBlock c b).Inv := by
  unfold State.decideBlock
  split
  · exact inv_traceEvent (inv_setBlock h _) ..
  · exact inv_flushBlock h b
  · exact inv_toSave h b

theorem inv_decide? {u : State} (hu : s.decide? = some u) : u.Inv := by
  refine inv_findSome (fun b v hv => ?_) hu
  split at hv
  · split at hv
    · exact Option.some.inj hv ▸ inv_decideBlock h ..
    · cases hv
  · cases hv

theorem inv_logCritx (which : Block → Bool) (at_ : Nat) : (s.logCritx which at_).Inv := by
  unfold State.logCritx
  refine inv_foldl (fun u g hu => ?_) _ h
  split
  · exact inv_log hu ..
  · exact hu

theorem keeps_critx (ctx core : Nat) : Keeps (execCritx ctx core s) := by
  unfold execCritx
  split
  · exact keeps_next h
  · dsimp only
    split
    · exact keeps_next (inv_of (inv_logCritx h ..) rfl rfl rfl)
    · split
      · exact keeps_or (keeps_next (inv_of (inv_logCritx h ..) rfl rfl rfl)) (keeps_next h)
      · exact keeps_next h

theorem inv_preemptCall (ctx : Nat) (cores : List Nat) : (preemptCall ctx cores s).Inv := by
  unfold preemptCall
  split
  · exact inv_reply h ..
  · refine inv_ite (inv_reply h ..) (inv_ite (inv_reply h ..) (inv_reply ?_ ..))
    exact inv_of h rfl rfl rfl

theorem keeps_drainTimeout (bid : Nat) : Keeps (execDrainTimeout bid s) := by
  unfold execDrainTimeout
  split
  · exact keeps_next h
  · split
    · exact keeps_or (keeps_next (inv_toSave h _)) (keeps_next h)
    · exact keeps_next h

/-! Saving and restoring -/

theorem inv_settleSave (b : Block) : (s.settleSave b).Inv := by
  unfold State.settleSave
  have ht := inv_foldl (step := fun (u : State) (e : TileRef × WTile) => u.cleanTile (askingCore b.core e.1.die) e)
    (fun _ _ hu => inv_cleanTile hu ..) (s.tilesUnsaved b.ctx) h
  dsimp only
  split
  · exact inv_foldl (fun _ k hu => inv_collRead hu _ k) _ ht
  · exact ht

theorem keeps_saveComplete (bid : Nat) : Keeps (execSaveComplete bid s) := by
  unfold execSaveComplete
  split
  · exact keeps_next h
  · exact keeps_or (keeps_next h) (keeps_or (keeps_next (inv_settleSave h _))
      (keeps_next (inv_of (inv_performCore h _) rfl rfl rfl)))

theorem inv_seatSpawned {core : Nat} {c : Ctx} {gs : List Group} {u : State} (hu : seatSpawned core c gs s = some u) : u.Inv := by
  induction gs generalizing s with
  | nil => exact Option.some.inj hu ▸ h
  | cons g rest ih =>
    unfold seatSpawned at hu
    split at hu
    · cases hu
    · refine ih ?_ hu
      exact inv_of h rfl rfl rfl

theorem inv_landCollectives (gids : List Nat) : (s.landCollectives gids).Inv := inv_foldl (fun _ r hu => inv_landResult hu r) _ h

theorem inv_restoreOn {c : Ctx} {m : SaveImage} {core : Nat} {u : State} (hu : s.restoreOn c m core = some u) : u.Inv := by
  unfold State.restoreOn at hu
  split at hu
  · cases hu
  · dsimp only at hu
    split at hu
    · cases hu
    · split at hu
      · cases hu
      · next v hv =>
        have hvi : v.Inv := by
          refine inv_seatSpawned ?_ hv
          exact inv_of h rfl rfl rfl
        exact Option.some.inj hu ▸ inv_landCollectives (inv_ite (inv_thawOps hvi ..) hvi) _

theorem inv_rstgeo (m : SaveImage) (core : Nat) : (s.rstgeo m core).Inv := by
  unfold State.rstgeo
  dsimp only
  refine inv_ite (inv_runAgain ?_ ..) (inv_halt (inv_log h ..) ..)
  exact inv_of (inv_log h m.block.ctx 0x04 0 0 0 (s.blockName m.block.bid) allOnes32 _) rfl rfl rfl

theorem inv_restoreAll {c : Ctx} {l : List (SaveImage × Nat)} {u : State} (hu : restoreAll c l s = some u) : u.Inv := by
  induction l generalizing s with
  | nil => exact Option.some.inj hu ▸ h
  | cons e rest ih =>
    obtain ⟨m, core⟩ := e
    unfold restoreAll at hu
    split at hu
    · exact ih (inv_rstgeo h ..) hu
    · split at hu
      · next hr => exact ih (inv_restoreOn h hr) hu
      · cases hu

theorem inv_endPreempt (ctx : Nat) (cores : List Nat) : (s.endPreempt ctx cores).Inv := by
  unfold State.endPreempt
  dsimp only
  refine inv_foldl (fun _ b hu => inv_ite (inv_thawOps hu ..) hu) _ ?_
  exact inv_of h rfl rfl rfl

theorem inv_resumeCall (ctx : Nat) (cores : List Nat) (targets : List (Nat × Nat)) : (resumeCall ctx cores targets s).Inv := by
  unfold resumeCall
  split
  · exact inv_reply h ..
  · dsimp only
    have hr := fun n => inv_reply h n []
    refine inv_ite (hr 2) (inv_ite (hr 1) (inv_ite (hr 1) (inv_ite (hr 1) (inv_ite (hr 1) ?_))))
    split
    · exact hr 4
    · next hu => exact inv_reply (inv_restoreAll (inv_endPreempt h ..) hu) ..

/-! Switches and slices -/

theorem inv_ctxswCall (cores : List Nat) : (ctxswCall cores s).Inv := by
  unfold ctxswCall
  refine inv_ite (inv_reply h ..) (inv_ite (inv_reply h ..) (inv_reply ?_ ..))
  exact inv_of h rfl rfl rfl

theorem inv_exchange (core dest : Nat) : (s.exchange core dest).Inv := by
  unfold State.exchange
  dsimp only
  refine inv_thawOps ?_ ..
  exact inv_of (inv_freezeOps h core fun o => !(match s.block? o.bid with | some b => b.ctx == dest | none => false)) rfl rfl rfl

theorem keeps_switchComplete (core : Nat) : Keeps (execSwitchComplete core s) := by
  unfold execSwitchComplete
  split
  · exact keeps_or (keeps_next h) (keeps_next (inv_of (inv_exchange h ..) rfl rfl rfl))
  · exact keeps_next h

theorem inv_sliceCall (x y start : Nat) (modules : List Nat) : (sliceCall x y start modules s).Inv := by
  unfold sliceCall
  split
  · refine inv_ite (inv_reply h ..) (inv_ite (inv_reply h ..) (inv_reply ?_ ..))
    exact inv_of h rfl rfl rfl
  · exact inv_reply h ..

theorem keeps_moduleReady (module at_ : Nat) : Keeps (execModuleReady module at_ s) := by
  unfold execModuleReady
  split
  · exact keeps_next h
  · exact keeps_or (keeps_next h) (keeps_or (keeps_or (keeps_next (inv_of h rfl rfl rfl)) (keeps_next h))
      (keeps_next (inv_of h rfl rfl rfl)))

theorem keeps_sliceStart : Keeps (execSliceStart s) := by
  unfold execSliceStart
  split
  · exact keeps_next h
  · split
    · exact keeps_or (keeps_next (inv_of h rfl rfl rfl)) (keeps_next h)
    · exact keeps_next h

theorem keeps_slicex : Keeps (execSlicex s) := by
  unfold execSlicex
  split
  · exact keeps_next h
  · next sl _ =>
    dsimp only
    have hx := inv_foldl (step := fun (u : State) (w : Switch) =>
        if u.activeOn w.core sl.y && u.coreRuns w.core then u.exchange w.core sl.x else u)
      (fun _ w hu => inv_ite (inv_exchange hu ..) hu) (s.switches.filter fun w => w.held) h
    refine keeps_or (keeps_next h) (keeps_next (inv_log (inv_log ?_ ..) ..))
    exact inv_of hx rfl rfl rfl

end

end Sys2Proof.Machine
end


section
/-! The invariant kept by firmware calls, contexts and resets (R294 to R303, R346 to R348), by tracing, counting and sampling (R351 to
R358), by the system die (R342 to R349), and by spawned work and placement (R142 to R148). -/

namespace Sys2Proof.Machine

open Sys2Proof

section
variable {s : State} (h : s.Inv)
include h

/-! Contexts, grids, partitions -/

theorem inv_zeroRegion (dies : List Nat) (base size : Nat) : (s.zeroRegion dies base size).Inv :=
  ⟨h.cycle, h.dram, Sparse.wf_filter h.scratch⟩

theorem inv_activate (dies : List Nat) (no : Nat) : (s.activate dies no).Inv := by
  unfold State.activate
  refine inv_foldl (fun u k hu => inv_ite hu ?_) _ h
  exact inv_of hu rfl rfl rfl

theorem inv_ctxnewCall (n : NewCtx) : (ctxnewCall n s).Inv := by
  unfold ctxnewCall
  dsimp only
  have hr := fun k => inv_reply h k []
  refine inv_ite (hr 2) (inv_ite (hr 1) (inv_ite (hr 1) (inv_ite (hr 1) (inv_ite (hr 4) (inv_reply (inv_activate ?_ ..) ..)))))
  exact inv_of (inv_zeroRegion h (orderDies n.dies) n.scBase n.scSize) rfl rfl rfl

theorem inv_discard (gone : Nat → Bool) : (s.discard gone).Inv := inv_of h rfl rfl rfl

theorem inv_succeed (dies : List Nat) : (s.succeed dies).Inv := by
  unfold State.succeed
  refine inv_foldl (fun u k hu => ?_) _ h
  split
  · exact inv_ite hu (inv_exchange hu ..)
  · exact hu

theorem inv_ctxfreeCall (no : Nat) : (ctxfreeCall no s).Inv := by
  unfold ctxfreeCall
  split
  · exact inv_reply h ..
  · next c _ =>
    refine inv_ite (inv_reply h ..) (inv_ite (inv_reply h ..) (inv_reply (inv_succeed ?_ _) ..))
    exact inv_of (inv_discard (inv_zeroRegion h c.dies c.scBase c.scSize) fun x => x == no) rfl rfl rfl

theorem inv_gridrunCall (ctx die : Nat) (named : Bool) (desc : Nat) (proc thread : Word) :
    (gridrunCall ctx die named desc proc thread s).Inv := by
  unfold gridrunCall
  split
  · exact inv_reply h ..
  · have hr := fun k => inv_reply h k []
    exact inv_ite (hr 2) (inv_ite (hr 1) (inv_ite (hr 1) (inv_ite (hr 4) (inv_reply (inv_makeGrid h ..) ..))))

theorem inv_stopreadCall (dies : List Nat) : (stopreadCall dies s).Inv := by
  unfold stopreadCall
  split
  · exact inv_reply h ..
  · refine inv_setPart ?_ _
    exact inv_of h rfl rfl rfl

theorem keeps_partitionReset (dies : List Nat) : Keeps (execPartitionReset dies s) := by
  unfold execPartitionReset
  split
  · exact keeps_next h
  · next p _ =>
    have hl := inv_foldl (step := fun (u : State) d => if u.gatedDies.contains d then u else u.loseTrace d)
      (fun _ _ hu => inv_ite hu (inv_loseTrace hu _)) p.dies h
    exact keeps_or (keeps_next h) (keeps_next (inv_of hl rfl rfl rfl))

/-! Tracing, counting, sampling -/

theorem inv_ctxCall (ctx : Nat) (f : Ctx → Ctx) : (s.ctxCall ctx f).Inv := by
  unfold State.ctxCall
  split
  · exact inv_reply h ..
  · exact inv_ite (inv_reply h ..) (inv_reply (inv_setCtx h _) ..)

theorem inv_drainTrace (cluster : Nat) : (s.drainTrace cluster).Inv := inv_of h rfl rfl rfl

theorem keeps_clusterGating (cluster : Nat) : Keeps (execClusterGating cluster s) :=
  keeps_or (keeps_next h) (keeps_next (inv_of h rfl rfl rfl))

theorem keeps_gatingDrainTimeout (cluster : Nat) : Keeps (execGatingDrainTimeout cluster s) := by
  unfold execGatingDrainTimeout
  split
  · exact keeps_next h
  · exact keeps_or (keeps_next h) (keeps_next (inv_of h rfl rfl rfl))

theorem inv_writeGap (cluster : Nat) : (s.writeGap cluster).Inv := by
  unfold State.writeGap
  dsimp only
  split
  · exact inv_of h rfl rfl rfl
  · exact h

theorem keeps_gapRecord (cluster : Nat) : Keeps (execGapRecord cluster s) := by
  refine keeps_or (keeps_next h) (keeps_next (inv_writeGap ?_ _))
  exact inv_of h rfl rfl rfl

theorem inv_perfrdCall (event : Nat) (ctx : Option Nat) (dies : List Nat) (after : Nat) : (perfrdCall event ctx dies after s).Inv := by
  unfold perfrdCall
  dsimp only
  refine inv_ite (inv_reply h ..) (inv_ite (inv_reply h ..) (inv_ite (inv_reply h ..) ?_))
  exact inv_of h rfl rfl rfl

theorem inv_accrue (t : Nat) : (s.accrue t).Inv := inv_of h rfl rfl rfl

theorem keeps_perfSnapshot : Keeps (execPerfSnapshot s) := by
  unfold execPerfSnapshot
  dsimp only
  split
  · exact keeps_next (inv_accrue h _)
  · refine keeps_next (inv_reply ?_ ..)
    exact inv_of (inv_accrue h s.now) rfl rfl rfl

theorem keeps_tracectl (v : Versions) (ctx : Nat) (kinds : Byte) : Keeps (execTracectl v ctx kinds s) := keeps_call h (inv_ctxCall h ..)

theorem keeps_ewset (v : Versions) (weights : List Byte) : Keeps (execEwset v weights s) := by
  refine keeps_call h (inv_ite (inv_reply ?_ ..) (inv_reply h ..))
  exact inv_of h rfl rfl rfl

theorem keeps_smplctl (v : Versions) (ctx interval : Nat) : Keeps (execSmplctl v ctx interval s) :=
  keeps_call h (inv_ite (inv_reply h ..) (inv_ctxCall h ..))

/-! The system die -/

theorem inv_measure (m : Image) : (s.measure m).Inv := inv_of h rfl rfl rfl

theorem inv_applyPolicy (b : BootInput) (m : Image) : (s.applyPolicy b m).Inv := by
  unfold State.applyPolicy
  split
  · exact inv_of (inv_measure h m) rfl rfl rfl
  · exact h

theorem inv_trainPort (e : Nat × Versions) : (s.trainPort e).Inv := by
  unfold State.trainPort
  split
  · exact inv_of h rfl rfl rfl
  · exact inv_of h rfl rfl rfl

/-- The next stage of boot begins. -/
theorem inv_pass : ({ s with boot := { s.boot with stage := s.boot.stage + 1 } } : State).Inv := inv_of h rfl rfl rfl

theorem inv_bootStage (b : BootInput) : (bootStage b s).Inv := by
  unfold bootStage
  dsimp only
  split
  · exact inv_ite (inv_pass (inv_measure h _)) (inv_ite (inv_pass (inv_measure h _)) (inv_safeState h _))
  · refine inv_ite (inv_safeState h _) (inv_ite (inv_safeState (inv_measure h _) _) (inv_pass ?_))
    exact inv_foldl (fun _ m hu => inv_applyPolicy hu b m) _ (inv_measure (inv_measure h _) _)
  · split
    · refine inv_safeState ?_ _
      exact inv_of h rfl rfl rfl
    · exact inv_pass h
  · have hd : s.startDies.Inv := inv_of h rfl rfl rfl
    have ht : s.startDies.trainDies.Inv := inv_of hd rfl rfl rfl
    split
    · exact inv_safeState hd _
    · exact inv_ite (inv_safeState hd _) (inv_pass ht)
  · have hp := inv_foldl (step := fun (u : State) (e : Nat × Versions) => if e.1 < 18 then u.trainPort e else u)
      (fun _ _ hu => inv_ite (inv_trainPort hu _) hu) b.portsTrained h
    exact inv_of hp rfl rfl rfl

theorem inv_bootNext {u : State} (hu : s.bootNext = some u) : u.Inv := by
  unfold State.bootNext at hu
  split at hu
  · split at hu
    · exact Option.some.inj hu ▸ inv_bootStage h _
    · cases hu
  · cases hu

theorem keeps_moduleReset (b : BootInput) : Keeps (execModuleReset b s) := keeps_next ⟨rfl, h.dram, h.scratch⟩

theorem keeps_supplyFault : Keeps (execSupplyFault s) := keeps_next (inv_ite h (inv_safeState h _))

theorem keeps_attestationRequest (nonce : List Byte) : Keeps (execAttestationRequest nonce s) := by
  unfold execAttestationRequest
  exact keeps_or (keeps_next (inv_of h rfl rfl rfl)) (keeps_next h)

theorem inv_modLink (l : Link) (f : LinkState → LinkState) : (s.modLink l f).Inv := inv_of h rfl rfl rfl

theorem keeps_linkDown (l : Link) : Keeps (execLinkDown l s) :=
  keeps_next (inv_of (inv_modLink h l fun x => { x with up := false, waiting := [] }) rfl rfl rfl)

theorem keeps_linkRetrain (l : Link) (peer : Versions) : Keeps (execLinkRetrain l peer s) := by
  unfold execLinkRetrain
  refine keeps_or (keeps_next h) ?_
  split
  · exact keeps_next (inv_modLink h ..)
  · exact keeps_next (inv_of h rfl rfl rfl)

/-! Spawned work -/

theorem inv_packItem {core : Nat} {it : Item} {u : State} (hu : s.packItem core it = some u) : u.Inv := by
  unfold State.packItem at hu
  split at hu
  · dsimp only at hu
    split at hu
    · exact Option.some.inj hu ▸ inv_of h rfl rfl rfl
    · exact Option.some.inj hu ▸ inv_of h rfl rfl rfl
  · split at hu
    · cases hu
    · exact Option.some.inj hu ▸ inv_of h rfl rfl rfl

theorem keeps_spawnPackItem (core : Nat) : Keeps (execSpawnPackItem core s) := by
  unfold execSpawnPackItem
  split
  · exact keeps_next h
  · split
    · next hu =>
      refine keeps_or (keeps_next (inv_packItem ?_ hu)) (keeps_next h)
      exact inv_of h rfl rfl rfl
    · exact keeps_next h

theorem keeps_partialGroupSeal (core oid : Nat) : Keeps (execPartialGroupSeal core oid s) := by
  unfold execPartialGroupSeal
  split
  · exact keeps_or (keeps_next (inv_of h rfl rfl rfl)) (keeps_next h)
  · exact keeps_next h

theorem keeps_spawnedGroupStart (core : Nat) : Keeps (execSpawnedGroupStart core s) := by
  unfold execSpawnedGroupStart
  split
  · exact keeps_next h
  · split
    · exact keeps_next h
    · split
      · exact keeps_next h
      · split
        · exact keeps_next h
        · exact keeps_or (keeps_next h) (keeps_next (inv_of h rfl rfl rfl))

/-! Placement -/

theorem inv_putBlock (g : Grid) (e : Again) (core : Nat) (places : List Nat) : (s.putBlock g e core places).Inv := by
  unfold State.putBlock
  dsimp only
  refine inv_traceEvent ?_ ..
  exact inv_of h rfl rfl rfl

theorem keeps_placeBlock (ctx : Nat) (next : Placing) : Keeps (execPlaceBlock ctx next s) := by
  unfold execPlaceBlock
  split
  · split
    · exact keeps_next h
    · dsimp only
      split
      · exact keeps_next h
      · split
        · exact keeps_next h
        · exact keeps_next (inv_putBlock (inv_setGrid h _) ..)
  · exact keeps_next h

theorem inv_countRetired (ctx grid : Nat) : (s.countRetired ctx grid).Inv := by
  unfold State.countRetired
  split
  · exact h
  · split
    · exact inv_of h rfl rfl rfl
    · exact inv_setGrid h _

theorem inv_performBlock (bid core : Nat) : (s.performBlock bid core).Inv := inv_ite (inv_performCore h _) h

theorem keeps_blockRetire (bid : Nat) : Keeps (execBlockRetire bid s) := by
  unfold execBlockRetire
  split
  · exact keeps_next h
  · next b _ =>
    refine keeps_or (keeps_next h) (keeps_next (inv_countRetired ?_ ..))
    have hl : ((s.performBlock bid b.core).logEnergy b).Inv := inv_log (inv_performBlock h ..) ..
    exact inv_of (inv_traceEvent hl b.ctx 2 b.core 0 b.core _ allOnes32 0 0) rfl rfl rfl

theorem keeps_quartetFuse (bid j : Nat) : Keeps (execQuartetFuse bid j s) := by
  unfold execQuartetFuse
  have hr : State.Inv { s with refuse := s.refuse.erase (bid, j) } := inv_of h rfl rfl rfl
  exact keeps_or (keeps_next h) (keeps_next (inv_ite (inv_modBlock hr ..) hr))

/-! Events of a group -/

theorem keeps_smplRecordFill (gid : Nat) (times : SmplTimes) : Keeps (execSmplRecordFill gid times s) := by
  unfold execSmplRecordFill
  split
  · exact keeps_next h
  · split
    · exact keeps_next h
    · refine keeps_or (keeps_next h) (keeps_or (keeps_next (inv_setGroup h _)) (keeps_next ?_))
      exact inv_of h rfl rfl rfl

end

end Sys2Proof.Machine
end


section
/-! Every step keeps the invariant (R132): each instruction and event does, and so does what a step chooses besides. -/

namespace Sys2Proof.Machine

open Sys2Proof

/-! Rows of instructions -/

/-- An instruction without early checks. -/
theorem keeps_plain {f : Fields} {body : Cx → Fate} {s : State} (h : s.Inv) (hb : ∀ x : Cx, x.s.Inv → (body x).Keeps) :
    Keeps (issue f noPre body s) :=
  keeps_issue h stops_noPre fun x _ hx => hb x hx

/-- An instruction that changes its group by the acting threads. -/
theorem keeps_stream {act : Cx → Nat → Group → Group} {x : Cx} (h : x.s.Inv) : (streamBody act x).Keeps := inv_modGroup h ..

theorem keeps_poll {var : Nat} {x : Cx} (h : x.s.Inv) : (pollBody var x).Keeps := inv_modGroup h ..

theorem keeps_shflG {var : Nat} {s0 : State} {x : Cx} (h : x.s.Inv) : (shflGBody var s0 x).Keeps := keeps_finish h ..

theorem keeps_dload {var : Fin 16} {x : Cx} (h : x.s.Inv) : (dloadBody var x).Keeps := keeps_ite (inv_modGroup h ..) trivial

/-- Every instruction and event keeps the invariant. -/
theorem keeps_exec (i : Instr) {s : State} (h : s.Inv) : Keeps (exec i s) := by
  cases i with
  | nop | pad | waitf => exact keeps_plain h fun _ hx => hx
  | exit => exact keeps_plain h fun _ hx => keeps_exit hx
  | bra => exact keeps_plain h fun _ hx => hx
  | braD => exact keeps_plain h fun _ hx => keeps_braD hx
  | call => exact keeps_plain h fun _ hx => keeps_pushThen hx ..
  | ret => exact keeps_plain h fun _ hx => keeps_ret hx
  | brt => exact keeps_plain h fun _ hx => keeps_brt hx
  | pushj | pushb => exact keeps_plain h fun _ hx => keeps_pushThen hx ..
  | join => exact keeps_plain h fun _ hx => keeps_join hx
  | brk => exact keeps_plain h fun _ hx => keeps_brk hx
  | trap | bkpt => exact keeps_plain h fun _ _ => trivial
  | rte => exact keeps_plain h fun _ hx => keeps_rte hx
  | waitb => exact keeps_plain h fun _ hx => keeps_waitb hx
  | getsr => exact keeps_plain h fun _ hx => keeps_getsr hx
  | setsr => exact keeps_plain h fun _ hx => keeps_setsr hx
  | pctlNoidem | pctlExpect => exact keeps_plain h fun _ hx => keeps_pctl hx _
  | delay => exact keeps_plain h fun _ hx => inv_modGroup hx ..
  | icmp | fcmp => exact keeps_plain h fun _ hx => keeps_cmp hx
  | spst => exact keeps_plain h fun _ hx => keeps_spst hx
  | spld => exact keeps_plain h fun _ hx => keeps_spld hx
  | rcp | rsq | sqrt | ex2 | lg2 | sinr | cosr | tanh => exact keeps_plain h fun _ hx => keeps_sfu hx
  | dload => exact keeps_plain h fun _ hx => keeps_dload hx
  | qkey | qpos | qskip | qfork | qforkTop | qseek | qsave | qrest | qgetPos | qgetKey => exact keeps_plain h fun _ hx => keeps_stream hx
  | poll => exact keeps_plain h fun _ hx => keeps_poll hx
  | shflG => exact keeps_issue h stops_rendezvousPre fun _ _ hx => keeps_shflG hx
  | gred => exact keeps_plain h fun _ hx => keeps_gred hx
  | spawn => exact keeps_issue h stops_depthPre fun _ _ hx => keeps_spawn hx
  | glaunch => exact keeps_issue h stops_depthPre fun _ _ hx => keeps_glaunch hx
  | dwait => exact keeps_issue h stops_dwaitPre fun _ _ hx => keeps_dwait hx
  | ld => exact keeps_plain h fun _ hx => keeps_ld hx
  | st => exact keeps_plain h fun _ hx => keeps_st hx
  | ldt => exact keeps_plain h fun _ hx => keeps_ldt hx
  | atomAdd | atomMin | atomMax | atomAnd | atomOr | atomXor | atomExch | cas => exact keeps_plain h fun _ hx => keeps_atom hx
  | redAdd | redMin | redMax | redAnd | redOr | redXor => exact keeps_plain h fun _ hx => keeps_red hx
  | bara => exact keeps_plain h fun _ hx => keeps_bara hx
  | barw => exact keeps_plain h fun _ hx => keeps_barw hx
  | bari => exact keeps_plain h fun _ hx => keeps_bari hx
  | barb => exact keeps_issue h stops_barbPre fun _ _ hx => keeps_barb hx
  | fence => exact keeps_plain h fun _ hx => keeps_fence hx
  | tmapMap | tmapUnmap => exact keeps_plain h fun _ hx => keeps_tmap hx
  | tfetch => exact keeps_plain h fun _ hx => keeps_tfetch hx
  | tevict => exact keeps_plain h fun _ hx => keeps_tevict hx
  | tstat => exact keeps_plain h fun _ hx => inv_modGroup hx ..
  | copy | gather | scatter | updSgdm | updAdamw | updstep | skpset | copy2d | cfill => exact keeps_plain h fun _ hx => keeps_post hx _
  | bclose => exact keeps_plain h fun _ hx => keeps_bclose hx
  | mmaQ | mmaQImage => exact keeps_issueWith h fun _ _ hu => keeps_mmaFate hu
  | mzero => exact keeps_issue h (stops_tilePre _) fun _ _ hx => inv_modBlock hx ..
  | mld => exact keeps_issue h (stops_tilePre _) fun _ _ hx => keeps_mld hx
  | mdrain => exact keeps_issue h (stops_tilePre _) fun _ _ hx => keeps_mdrain hx
  | mstat => exact keeps_issue h (stops_tilePre _) fun _ _ hx => inv_modGroup hx ..
  | collArReg => exact keeps_plain h fun _ hx => keeps_collReg hx
  | collArBuf | collAg | collBc => exact keeps_plain h fun _ hx => keeps_collBuf hx
  | quartetFuse => exact keeps_quartetFuse h _ _
  | delayDeadline | debugResume => exact keeps_next (inv_modGroup h ..)
  | memoryResultWrite => exact keeps_memoryResultWrite h _
  | sfuResultWrite => exact keeps_sfuResultWrite h _
  | rejDrawComplete => exact keeps_rejDrawComplete h _
  | mldFill => exact keeps_mldFill h _
  | smplRecordFill => exact keeps_smplRecordFill h _ _
  | spawnPackItem => exact keeps_spawnPackItem h _
  | partialGroupSeal => exact keeps_partialGroupSeal h _ _
  | spawnedGroupStart => exact keeps_spawnedGroupStart h _
  | placeBlock => exact keeps_placeBlock h _ _
  | blockRetire => exact keeps_blockRetire h _
  | tileArrive => exact keeps_tileArrive h _
  | tileWritebackDone => exact keeps_tileWritebackDone h _
  | unmapComplete => exact keeps_unmapComplete h _ _ _
  | hodAppend => exact keeps_hodAppend h _
  | faultService => exact keeps_faultService h _ _ _
  | storeReplay => exact keeps_storeReplay h _
  | churnOpComplete => exact keeps_churnOpComplete h _
  | drainPerform => exact keeps_drainPerform h _
  | copyJob | gatherScatterJob | updJob => exact keeps_next (inv_runJob h ..)
  | skpsetJob | updstepJob => exact keeps_next (inv_runFlag h ..)
  | jobComplete => exact keeps_jobComplete h _
  | collOperation => exact keeps_collOperation h _ _ _ _
  | collf => exact keeps_collf h _ _ _ _ _
  | wdogExpiry => exact keeps_wdogExpiry h _
  | critx => exact keeps_critx h _ _
  | unitStop => exact keeps_unitStop h _
  | thermalTrip => exact keeps_thermalTrip h _
  | preempt => exact keeps_call h (inv_preemptCall h ..)
  | drainTimeout => exact keeps_drainTimeout h _
  | saveComplete => exact keeps_saveComplete h _
  | resume => exact keeps_call h (inv_resumeCall h ..)
  | ctxsw => exact keeps_call h (inv_ctxswCall h _)
  | switchComplete => exact keeps_switchComplete h _
  | slice => exact keeps_call h (inv_sliceCall h ..)
  | moduleReady => exact keeps_moduleReady h _ _
  | sliceStart => exact keeps_sliceStart h
  | slicex => exact keeps_slicex h
  | ctxnew => exact keeps_call h (inv_ctxnewCall h _)
  | ctxfree => exact keeps_call h (inv_ctxfreeCall h _)
  | gridrun => exact keeps_call h (inv_gridrunCall h ..)
  | stopread => exact keeps_call h (inv_stopreadCall h _)
  | partitionReset => exact keeps_partitionReset h _
  | tracectl => exact keeps_tracectl h _ _ _
  | perfrd => exact keeps_call h (inv_perfrdCall h ..)
  | perfSnapshot => exact keeps_perfSnapshot h
  | ewset => exact keeps_ewset h _ _
  | smplctl => exact keeps_smplctl h _ _ _
  | traceDrain => exact keeps_next (inv_ite (inv_drainTrace h _) h)
  | clusterGating => exact keeps_clusterGating h _
  | gatingDrainTimeout => exact keeps_gatingDrainTimeout h _
  | gapRecord => exact keeps_gapRecord h _
  | moduleReset => exact keeps_moduleReset h _
  | mctpQuery => exact keeps_next (inv_of h rfl rfl rfl)
  | attestationRequest => exact keeps_attestationRequest h _
  | linkPacket | reservationGrant => exact keeps_next (inv_modLink h ..)
  | linkDown => exact keeps_linkDown h _
  | linkRetrain => exact keeps_linkRetrain h _ _
  | descriptorReadDone => exact keeps_descriptorReadDone h _
  | writePerformedAtDie => exact keeps_writePerformedAtDie h _
  | supplyFault => exact keeps_supplyFault h
  | logRecordConsumed => exact keeps_next (inv_modCtx h ..)
  | _ => exact keeps_resultRow h rfl

/-! What a step chooses -/

section
variable {s : State} (h : s.Inv)
include h

theorem inv_splitNext {u : State} (hu : s.splitNext = some u) : u.Inv := by
  refine inv_findSome (fun b v hv => inv_findSome (fun j w hw => ?_) hv) hu
  split at hw
  · exact Option.some.inj hw ▸ inv_split h ..
  · cases hw

theorem inv_splitParked (g : Group) : (s.splitParked g).Inv := inv_ite (inv_split h ..) h

theorem inv_stayTry {g : Group} {u : State} (hu : s.stayTry g = some u) : u.Inv := by
  unfold State.stayTry at hu
  split at hu
  · next i _ =>
    split at hu
    · next t ht =>
      have hi : t.Inv := by
        refine keeps_exec i ?_ t ht
        exact inv_of h rfl rfl rfl
      split at hu
      · split at hu
        · cases hu
        · exact Option.some.inj hu ▸ inv_of h rfl rfl rfl
      · rw [← Option.some.inj hu]
        refine inv_splitParked ?_ g
        exact inv_of hi rfl rfl rfl
    · cases hu
  · cases hu

theorem inv_prompt {u : State} (hu : s.prompt = some u) : u.Inv := by
  unfold State.prompt at hu
  split at hu
  · next hv => exact Option.some.inj hu ▸ inv_splitNext h hv
  · split at hu
    · next hv => exact Option.some.inj hu ▸ inv_findSome (fun _ _ hw => inv_stayTry h hw) hv
    · exact inv_fetchNext h hu

theorem keeps_trapAtDecode (cause : BitVec 8) (detail : Nat) : Keeps (trapAtDecode cause detail s) := by
  refine keeps_issueWith h fun u m _ => ?_
  split
  · trivial
  · trivial

theorem inv_nextEvent {t : Nat} {i : Instr} {u : State} (hu : s.nextEvent = some (t, i, u)) : u.Inv := by
  have hrest : ∀ l, ({ s with agenda := l } : State).Inv := fun l => inv_of h rfl rfl rfl
  unfold State.nextEvent at hu
  dsimp only at hu
  split at hu
  · split at hu
    · cases hu; exact hrest _
    · cases hu; exact h
  · cases hu; exact h
  · split at hu
    · cases hu; exact hrest _
    · cases hu
  · cases hu

theorem inv_internal {u : State} (hu : s.internal = some u) : u.Inv := by
  unfold State.internal at hu
  split at hu
  · next hv => exact Option.some.inj hu ▸ inv_bootNext h hv
  · exact inv_decide? h hu

/-! The next turn -/

theorem inv_endSplits : s.endSplits.Inv := by
  have hf := inv_foldl (step := fun (u : State) (e : Nat × Nat) => if u.whole e.1 e.2 then u else u.split e.1 e.2)
    (fun _ _ hu => inv_ite hu (inv_split hu ..)) s.splits h
  exact inv_of hf rfl rfl rfl

/-- Eight cycles on a turn still begins at a multiple of eight. -/
theorem inv_tick : s.tick.Inv := ⟨(Nat.add_mod_right s.cycle 8).trans h.cycle, h.dram, h.scratch⟩

theorem inv_grantReserve (g : Group) : (s.grantReserve g).Inv := by
  unfold State.grantReserve
  split
  · exact inv_modGroup h ..
  · exact h

theorem inv_settleReserves : s.settleReserves.Inv := by
  have hr : s.releaseReserves.Inv := inv_of h rfl rfl rfl
  exact inv_foldl (fun _ g hu => inv_grantReserve hu g) _ hr

theorem inv_splitStopped : s.splitStopped.Inv := inv_of h rfl rfl rfl

theorem inv_arriveAll : s.arriveAll.Inv := by
  unfold State.arriveAll
  exact inv_foldl (fun _ bid hu => inv_barrierCheck hu bid true) _ (inv_foldl (fun _ _ hu => inv_modBlock hu ..) _ h)

theorem inv_advance : s.advance.Inv := by
  have ht := inv_countIdle (inv_splitStopped (inv_settleReserves (inv_tick (inv_endSplits h))))
  refine inv_arriveAll ?_
  exact inv_of (ht _) rfl rfl rfl

theorem keeps_step : Keeps (step s) := by
  unfold step
  split
  · next hu => exact keeps_next (inv_prompt h hu)
  · split
    · split
      · exact keeps_exec _ h
      · exact keeps_trapAtDecode h _ _
      · exact keeps_issueWith h fun _ _ _ => trivial
      · exact keeps_issueWith h fun _ _ _ => trivial
      · exact keeps_next (inv_of h rfl rfl rfl)
    · split
      · next hu =>
        refine keeps_exec _ ?_
        exact inv_of (inv_nextEvent h hu) rfl rfl rfl
      · split
        · next hu => exact keeps_next (inv_internal h hu)
        · refine keeps_exec _ ?_
          exact inv_of h rfl rfl rfl
        · exact keeps_next (inv_advance h)

end

/-- Settles O60: each instruction, event and other effect of a step keeps the invariant, and the turn moves on by eight cycles. -/
theorem stepsKeepInvariant : Obligations.StepsKeepInvariant := fun _ t h ht => keeps_step h t ht

end Sys2Proof.Machine
end
